-- ==== Sys2Proof/Word.lean ====
section
/-! DEFINITION. Word types, and the two sparse containers that hold registers, memory and tables as plain data:
`Store` (a total map from keys to words, an unlisted key reads 0) and `Tab` (a partial map from keys to records). -/
namespace Sys2Proof

abbrev Byte := BitVec 8
abbrev Word := BitVec 32
abbrev DWord := BitVec 64
/-- One bit per lane of a gang (R71). -/
abbrev LaneMask := BitVec 64
/-- A virtual address (R204). -/
abbrev VAddr := BitVec 57

/-- A total map from keys to words: pairs in strictly rising key order, none of them zero; an unlisted key reads 0. -/
abbrev Store (w : Nat) := List (Nat × BitVec w)

/-- A partial map from keys to records, in strictly rising key order. -/
abbrev Tab (α : Type) := List (Nat × α)


end Sys2Proof
end

