-- ==== Sys2Proof/Machine/Bits.lean ====
section
/-! DEFINITION. Reading and writing the sparse containers, and the bit-field, sign and mask helpers of R5. -/
namespace Sys2Proof

def Store.get {w : Nat} : Store w → Nat → BitVec w
  | [], _ => 0#w
  | (k, v) :: r, a => if a = k then v else Store.get r a

def Store.erase {w : Nat} : Store w → Nat → Store w
  | [], _ => []
  | (k, v) :: r, a => if a = k then Store.erase r a else (k, v) :: Store.erase r a

def Store.insert {w : Nat} : Store w → Nat → BitVec w → Store w
  | [], a, x => [(a, x)]
  | (k, v) :: r, a, x =>
    if a < k then (a, x) :: (k, v) :: r
    else if a = k then (a, x) :: r
    else (k, v) :: Store.insert r a x

/-- Writing 0 removes the entry, so equal maps are equal lists. -/
def Store.set {w : Nat} (m : Store w) (a : Nat) (x : BitVec w) : Store w := if x = 0#w then m.erase a else m.insert a x

/-- The canonical form of a store whose keys all exceed or equal `lo`. -/
def Store.wfFrom {w : Nat} : Nat → Store w → Bool
  | _, [] => true
  | lo, (k, v) :: r => decide (lo ≤ k) && decide (v ≠ 0#w) && Store.wfFrom (k + 1) r

def Store.wf {w : Nat} (m : Store w) : Bool := Store.wfFrom 0 m

def Tab.get? {α : Type} : Tab α → Nat → Option α
  | [], _ => none
  | (k, v) :: r, a => if a = k then some v else Tab.get? r a

def Tab.set {α : Type} : Tab α → Nat → α → Tab α
  | [], a, x => [(a, x)]
  | (k, v) :: r, a, x =>
    if a < k then (a, x) :: (k, v) :: r
    else if a = k then (a, x) :: r
    else (k, v) :: Tab.set r a x

def Tab.erase {α : Type} : Tab α → Nat → Tab α
  | [], _ => []
  | (k, v) :: r, a => if a = k then Tab.erase r a else (k, v) :: Tab.erase r a

def Tab.wfFrom {α : Type} : Nat → Tab α → Bool
  | _, [] => true
  | lo, (k, _) :: r => decide (lo ≤ k) && Tab.wfFrom (k + 1) r

def Tab.wf {α : Type} (m : Tab α) : Bool := Tab.wfFrom 0 m

/-- The numbers of the bits that are one, ascending. -/
def bitsOn {w : Nat} (m : BitVec w) : List Nat := (List.range w).filter (fun i => m.getLsbD i)

/-- The mask with exactly bit `i` set. -/
def oneBit (w i : Nat) : BitVec w := BitVec.ofNat w (2 ^ i)

/-- The mask whose bits are the listed numbers. -/
def maskOf (w : Nat) (l : List Nat) : BitVec w := l.foldl (fun m i => m ||| oneBit w i) 0#w

/-- `m` with bit `i` set to `b`. -/
def putBit {w : Nat} (m : BitVec w) (i : Nat) (b : Bool) : BitVec w :=
  if b then m ||| oneBit w i else m &&& ~~~ (oneBit w i)

/-- Bits [hi:lo] of a natural number (R5). -/
def bitField (x hi lo : Nat) : Nat := x / 2 ^ lo % 2 ^ (hi + 1 - lo)

/-- `signed(x, bits)` of R5. -/
def signedOf (w x : Nat) : Int :=
  let y := x % 2 ^ w
  if y < 2 ^ (w - 1) then (y : Int) else (y : Int) - (2 ^ w : Nat)

/-- `wrap(n, bits)` of R5. -/
def wrapInt (w : Nat) (x : Int) : Nat := (x % ((2 ^ w : Nat) : Int)).toNat

/-- The number of bits that are one among the low `w` bits. -/
def popCount (w x : Nat) : Nat := ((List.range w).filter (fun i => x.testBit i)).length

/-- `n` little-endian bytes of a natural number (R21). -/
def leBytes : Nat → Nat → List Byte
  | 0, _ => []
  | n + 1, x => BitVec.ofNat 8 x :: leBytes n (x / 256)

/-- The natural number whose little-endian bytes are given (R21). -/
def ofLeBytes : List Byte → Nat
  | [] => 0
  | b :: r => b.toNat + 256 * ofLeBytes r

end Sys2Proof
end

