-- ==== Sys2Proof/Forms.lean ====
section
/-! DEFINITION. Operand forms and modifiers of the instruction rows: types, rounding, conditions, operand classes, headers. -/
namespace Sys2Proof

/-- The FMT and FMT2 codes 0 to 14 of R50; `dflt` is code 0. -/
inductive Fmt where
  | dflt | i8 | i16 | i32 | i64 | n8 | n16 | n32 | n64 | b32 | f32 | f16 | bf16 | f8 | cb4
  deriving DecidableEq, Repr

/-- The RND field codes 0 to 5 of R28. -/
inductive Rnd where
  | dflt | rne | rtz | rdn | rup | rna
  deriving DecidableEq, Repr

/-- The conditions of R54. -/
inductive Cond where
  | eq | ne | lt | le | gt | ge | un | ord
  deriving DecidableEq, Repr

/-- The special registers 0x41 to 0x4F of R111. -/
inductive SpReg where
  | rmode | cyc | wid | lane | key | now | dead | em | seed | tokens | chan | regs | deny | phase | span
  deriving DecidableEq, Repr

/-- A scalar-class operand of a gang (R1): a register, the literal, a special register, or an inline immediate whose byte is
`0x80 + x`. -/
inductive Sc where
  | r (n : BitVec 6) | lit | sp (x : SpReg) | imm (x : BitVec 7)
  deriving DecidableEq, Repr

/-- A vector-class operand, or the scalar that its source-class flag puts in its place (R48). -/
inductive VSrc where
  | v (n : BitVec 8) | s (x : Sc)
  deriving DecidableEq, Repr

/-- A scalar-class operand of a copy processor (R65). -/
inductive KSc where
  | k (n : BitVec 4) | lit | imm (x : BitVec 7)
  deriving DecidableEq, Repr

/-- STALL and the trailing literal (R42, R44). -/
structure SH where
  stall : BitVec 3
  lit : Option DWord
  deriving DecidableEq, Repr

/-- STALL, GUARD, GNEG and the trailing literal (R42, R43). -/
structure VH where
  stall : BitVec 3
  guard : BitVec 4
  gneg : Bool
  lit : Option DWord
  deriving DecidableEq, Repr

/-- SCOPE codes of R52, and XOP of FENCE. -/
inductive Scope where
  | gang | crew | band | die | dev | sys
  deriving DecidableEq, Repr

/-- ORDQ of R52. -/
inductive OrdQ where
  | none | acq | rel | acqrel
  deriving DecidableEq, Repr

/-- Ordering, STRICT, bounds mask and index offset of a memory instruction (R52, R221). -/
structure MH where
  ordq : OrdQ
  scope : Scope
  strict : Bool
  bm : BitVec 4
  iofs : BitVec 12
  deriving DecidableEq, Repr

inductive CntOp where | popc | clz | ctz
  deriving DecidableEq, Repr
inductive BitOp where | popc | clz | ctz | rev
  deriving DecidableEq, Repr
/-- Operation codes of LSCAN and LRED (R60, R145). -/
inductive ScanOp where | add | min | max | and | or | xor
  deriving DecidableEq, Repr
/-- FSGN's three forms (R137). -/
inductive SgnArg where | abs | neg | copy (b : VSrc)
  deriving DecidableEq, Repr
/-- FPACK's two forms (R140). -/
inductive PackArg where | pack (b : VSrc) (c : Sc) | unpack (b : Sc)
  deriving DecidableEq, Repr
/-- LVOTE's three forms with their destinations (R143). -/
inductive VoteDst where | any (d : BitVec 6) | all (d : BitVec 6) | ballot (d : BitVec 4)
  deriving DecidableEq, Repr
/-- LMSK's seven forms (R144). -/
inductive MaskArg where
  | and (d a b : BitVec 4) | or (d a b : BitVec 4) | xor (d a b : BitVec 4) | andn (d a b : BitVec 4)
  | not (d a : BitVec 4) | mov (d a : BitVec 4) | popc (d : BitVec 6) (a : BitVec 4)
  deriving DecidableEq, Repr
inductive AtmOp where | add | min | max | and | or | xor | xchg | cas
  deriving DecidableEq, Repr
/-- Semirings of MMUL (R173). -/
inductive Semi where | plus | min | max | or
  deriving DecidableEq, Repr
/-- Tile formats (R164). -/
inductive TileFmt where | plus | min | max | or | res
  deriving DecidableEq, Repr
/-- Outstanding-operation counters (R283). -/
inductive OpCls where | ld | st | cp | ev
  deriving DecidableEq, Repr
/-- FIELD of EVR (R378). -/
inductive EvField where | time | serial | handler | prio | princ | pay | index | children | aborts
  deriving DecidableEq, Repr

/-- A copy-processor generator and stall header are plain fields: `g0` to `g3` (R265). -/
abbrev Gen := BitVec 2

/-- Who sends a packet over the link: its peer number, context and principal (R397). -/
structure Requester where
  peer : BitVec 6
  ctx : BitVec 4
  princ : Word
  deriving DecidableEq, Repr

/-- A core and the context it translates or checks for (R209, R245). -/
structure CoreCtx where
  core : BitVec 9
  ctx : BitVec 4
  deriving DecidableEq, Repr

/-- What the owner of a FAR page is asked to do, or what a peer asks of this module (R397, R398). -/
inductive FarOp where
  | load (len : Nat)
  /-- the bytes, and which of them are poisoned (R261) -/
  | store (data : List Byte) (bad : List Bool := [])
  | atm (op : AtmOp) (t : Fmt) (c x : DWord)
  | redx (t : Fmt) (c : DWord) (x : Option DWord)
  /-- XRND: the type, the rounding field, `$rmode` and `.clr` of the requester -/
  | xrnd (t : Fmt) (r : Rnd) (rmode : Word) (clr : Bool)
  | vload
  | vstore (data : List Byte) (ver : BitVec 16)
  deriving DecidableEq, Repr

/-- What the firmware that an image holds sets once it runs: the place of the queue descriptors and what it writes in them (R320), the frame of the kick page (R321), the
access-control entries as 192-bit words (R322), the dump area (R362), the peers of ports 0, 1, … and the module's own peer number (R397). -/
structure Firmware where
  qtbase : Nat := 0
  kickFrame : Option Nat := none
  /-- BASE, LLEN, EN and STATBASE of the descriptors: bits [191:0] of queue 0, 1, … (R320) -/
  queues : List (BitVec 192) := []
  acl : List (BitVec 192) := []
  dumpBase : Nat := 0
  dumpLen : Nat := 0
  peers : List (BitVec 6) := []
  /-- this module's own peer number (R397) -/
  self : BitVec 6 := 0
  deriving DecidableEq, Repr

end Sys2Proof
end

