-- ==== Sys2Proof/Syntax.lean ====
section
/-! DEFINITION. The syntax of every row of spec/opcode_table.json: the one inductive `Instr`.
Instruction rows carry their decoded operands; the rows that are operations of the engines, the host, peers, firmware or
the physical world carry what that party chooses (a queue, a core, the host's data). -/
namespace Sys2Proof

/-- One constructor per row of spec/opcode_table.json, in the table's order. -/
inductive Instr where
  -- control (R94 to R101, R350)
  | trap (st : BitVec 3) (g : BitVec 4) (a : Sc)
  | trapLit (st : BitVec 3) (g : BitVec 4) (v : DWord)
  | br (st : BitVec 3) (ofs : Word)
  | brc (h : SH) (a : Sc) (ofs : Word)
  | call (st : BitVec 3) (d : BitVec 6) (ofs : Word)
  | ret (st : BitVec 3) (a : Sc)
  | retLit (st : BitVec 3) (v : DWord)
  | loop (st : BitVec 3) (d : BitVec 6) (ofs : Word)
  | vif (st : BitVec 3) (m : BitVec 4)
  | velse (st : BitVec 3)
  | vend (st : BitVec 3)
  | exit (st : BitVec 3)
  -- system (R119 to R126, R348)
  | rgrow (h : SH) (d : BitVec 6) (a : Sc)
  | rshr (h : SH) (d : BitVec 6) (a : Sc)
  | sleep (h : SH) (a : Sc)
  | getsr (st : BitVec 3) (d : BitVec 6) (r : SpReg)
  | setsr (h : VH) (d : SpReg) (a : VSrc)
  | wsel (h : SH) (d : BitVec 6) (a : Sc)
  | wrd (h : SH) (d : BitVec 6) (a : Sc)
  | wwr (h : SH) (d : Option SpReg) (a b : Sc)
  | wres (h : SH) (a b : Sc)
  -- scalar (R113 to R118)
  | smov (st : BitVec 3) (d : BitVec 6) (a : Sc)
  | smovLit (st : BitVec 3) (d : BitVec 6) (v : DWord)
  | sli (st : BitVec 3) (d : BitVec 6) (v : DWord)
  | sadd (h : SH) (t : Fmt) (d : BitVec 6) (a b : Sc)
  | ssub (h : SH) (t : Fmt) (d : BitVec 6) (a b : Sc)
  | smul (h : SH) (t : Fmt) (d : BitVec 6) (a b : Sc)
  | smulh (h : SH) (t : Fmt) (d : BitVec 6) (a b : Sc)
  | sand (h : SH) (t : Fmt) (d : BitVec 6) (a b : Sc)
  | sor (h : SH) (t : Fmt) (d : BitVec 6) (a b : Sc)
  | sxor (h : SH) (t : Fmt) (d : BitVec 6) (a b : Sc)
  | sshl (h : SH) (t : Fmt) (d : BitVec 6) (a b : Sc)
  | sshr (h : SH) (t : Fmt) (d : BitVec 6) (a b : Sc)
  | smin (h : SH) (t : Fmt) (d : BitVec 6) (a b : Sc)
  | smax (h : SH) (t : Fmt) (d : BitVec 6) (a b : Sc)
  | scmp (h : SH) (c : Cond) (t : Fmt) (d : BitVec 6) (a b : Sc)
  | ssel (h : SH) (t : Fmt) (d : BitVec 6) (a b c : Sc)
  | sld (h : SH) (strict : Bool) (t : Fmt) (d : BitVec 6) (bk : BitVec 4) (b : Sc)
  | sst (h : SH) (strict : Bool) (t : Fmt) (bk : BitVec 4) (b c : Sc)
  | scnt (h : SH) (op : CntOp) (t : Fmt) (d : BitVec 6) (a : Sc)
  | sdiv (h : SH) (rem : Bool) (t : Fmt) (d : BitVec 6) (a b : Sc)
  -- the permanently undefined opcode (R63)
  | undef (a d : BitVec 8) (g : BitVec 4) (st : BitVec 3) (l : BitVec 2)
  -- vector integer (R133 to R135)
  | vmov (h : VH) (t : Fmt) (d : BitVec 8) (a : VSrc)
  | vadd (h : VH) (t : Fmt) (d : BitVec 8) (a b : VSrc)
  | vsub (h : VH) (t : Fmt) (d : BitVec 8) (a b : VSrc)
  | vmul (h : VH) (t : Fmt) (d : BitVec 8) (a b : VSrc)
  | vmulh (h : VH) (t : Fmt) (d : BitVec 8) (a b : VSrc)
  | vmad (h : VH) (t : Fmt) (d : BitVec 8) (a b c : VSrc)
  | vand (h : VH) (t : Fmt) (d : BitVec 8) (a b : VSrc)
  | vor (h : VH) (t : Fmt) (d : BitVec 8) (a b : VSrc)
  | vxor (h : VH) (t : Fmt) (d : BitVec 8) (a b : VSrc)
  | vshl (h : VH) (t : Fmt) (d : BitVec 8) (a b : VSrc)
  | vshr (h : VH) (t : Fmt) (d : BitVec 8) (a b : VSrc)
  | vmin (h : VH) (t : Fmt) (d : BitVec 8) (a b : VSrc)
  | vmax (h : VH) (t : Fmt) (d : BitVec 8) (a b : VSrc)
  | vabs (h : VH) (t : Fmt) (d : BitVec 8) (a : VSrc)
  | vcmp (h : VH) (c : Cond) (t : Fmt) (d : BitVec 4) (a b : VSrc)
  | vsel (h : VH) (t : Fmt) (d : BitVec 8) (a b : VSrc) (c : BitVec 4)
  | vcvt (h : VH) (s t : Fmt) (d : BitVec 8) (a : VSrc)
  | vbit (h : VH) (op : BitOp) (t : Fmt) (d : BitVec 8) (a : VSrc)
  | vsat (h : VH) (sub : Bool) (t : Fmt) (d : BitVec 8) (a b : VSrc)
  -- vector floating point (R136 to R140)
  | fadd (h : VH) (r : Rnd) (t : Fmt) (d : BitVec 8) (a b : VSrc)
  | fsub (h : VH) (r : Rnd) (t : Fmt) (d : BitVec 8) (a b : VSrc)
  | fmul (h : VH) (r : Rnd) (t : Fmt) (d : BitVec 8) (a b : VSrc)
  | ffma (h : VH) (r : Rnd) (t : Fmt) (d : BitVec 8) (a b c : VSrc)
  | fmin (h : VH) (t : Fmt) (d : BitVec 8) (a b : VSrc)
  | fmax (h : VH) (t : Fmt) (d : BitVec 8) (a b : VSrc)
  | fsgn (h : VH) (op : SgnArg) (t : Fmt) (d : BitVec 8) (a : VSrc)
  | fcmp (h : VH) (c : Cond) (t : Fmt) (d : BitVec 4) (a b : VSrc)
  | fcvt (h : VH) (r : Rnd) (s t : Fmt) (d : BitVec 8) (a : VSrc)
  | frint (h : VH) (r : Rnd) (t : Fmt) (d : BitVec 8) (a : VSrc)
  | fdiv (h : VH) (r : Rnd) (t : Fmt) (d : BitVec 8) (a b : VSrc)
  | fsqrt (h : VH) (r : Rnd) (t : Fmt) (d : BitVec 8) (a : VSrc)
  | fclass (h : VH) (t : Fmt) (d : BitVec 8) (a : VSrc)
  | fpack (h : VH) (r : Rnd) (p wide : Fmt) (d : BitVec 8) (a : VSrc) (x : PackArg)
  -- cross-lane (R141 to R147)
  | lxch (h : VH) (t : Fmt) (d : BitVec 8) (a : VSrc) (b : Sc)
  | lbcst (h : VH) (t : Fmt) (d : BitVec 8) (a : VSrc) (b : Sc)
  | lfirst (h : VH) (t : Fmt) (d : BitVec 6) (a : VSrc)
  | lvote (h : VH) (t : Fmt) (d : VoteDst) (a : VSrc)
  | lscan (h : VH) (r : Rnd) (op : ScanOp) (excl : Bool) (t : Fmt) (d : BitVec 8) (a : VSrc)
  | lred (h : VH) (op : ScanOp) (t : Fmt) (d : BitVec 8) (a : VSrc)
  | lredx (h : VH) (r : Rnd) (t : Fmt) (d : BitVec 8) (a : VSrc) (b : Option VSrc)
  | lmsk (st : BitVec 3) (x : MaskArg)
  -- select (R148 to R153), VRND (R154)
  | topk (h : VH) (r : Rnd) (t : Fmt) (d : BitVec 8) (a : VSrc) (b : Sc)
  | mpath (h : VH) (t : Fmt) (d a b : BitVec 8) (c : Sc)
  | merge (h : VH) (t : Fmt) (d a b : BitVec 8) (c : Sc)
  | vrnd (h : VH) (t : Fmt) (d : BitVec 8) (a : VSrc)
  -- array (R169 to R179)
  | mwld (h : SH) (d : BitVec 6) (a : Sc) (p : Bool)
  | mmul (h : VH) (sr : Semi) (x w : Fmt) (k : BitVec 3) (a : BitVec 8) (p : Bool)
  | maclr (st : BitVec 3) (f : TileFmt) (k : BitVec 3)
  | mard (h : VH) (r : Rnd) (t kind : Fmt) (d : BitVec 8) (k : BitVec 3) (b : Sc) (nm1 : BitVec 6)
  | mawr (h : VH) (t kind : Fmt) (k : BitVec 3) (a : BitVec 8) (b : Sc) (nm1 : BitVec 6)
  -- residue (R201)
  | rfwd (h : VH) (s f2 : Fmt) (d : BitVec 8) (a : VSrc)
  | rrev (h : VH) (t f2 : Fmt) (d : BitVec 8) (a : VSrc) (c : BitVec 4)
  | rchk (h : VH) (d : BitVec 4) (a : VSrc)
  | rmad (h : VH) (d : BitVec 8) (a b c : VSrc)
  -- memory (R221 to R229, R296)
  | bset (h : SH) (k : BitVec 4) (a b : Sc)
  | ldb (h : VH) (m : MH) (t : Fmt) (d : BitVec 8) (k : BitVec 4) (b : VSrc)
  | stb (h : VH) (m : MH) (t : Fmt) (k : BitVec 4) (b : VSrc) (c : BitVec 8)
  | lds (h : VH) (m : MH) (t : Fmt) (d : BitVec 8) (b : VSrc)
  | sts (h : VH) (m : MH) (t : Fmt) (b : VSrc) (c : BitVec 8)
  | ldc (h : VH) (m : MH) (t : Fmt) (d : BitVec 8) (a : Sc) (b : VSrc)
  | stc (h : VH) (m : MH) (t : Fmt) (a : Sc) (b : VSrc) (c : BitVec 8)
  | atm (h : VH) (m : MH) (op : AtmOp) (t : Fmt) (d : BitVec 8) (k : BitVec 4) (b : VSrc) (c x : BitVec 8)
  | redx (h : VH) (m : MH) (t : Fmt) (k : BitVec 4) (b : VSrc) (c : BitVec 8) (x : Option (BitVec 8))
  | xrnd (h : VH) (m : MH) (r : Rnd) (clr : Bool) (t : Fmt) (d : BitVec 8) (k : BitVec 4) (b : VSrc)
  | vldv (h : SH) (m : MH) (d : BitVec 8) (x : BitVec 6) (k : BitVec 4) (b : Sc)
  | vstv (h : SH) (m : MH) (d : BitVec 6) (k : BitVec 4) (b : Sc) (c : BitVec 8) (x : Sc)
  | fence (st : BitVec 3) (s : Scope)
  -- posts (R254)
  | cpost (h : VH) (d : BitVec 6) (a b : Sc) (ofs : Word)
  | cgath (h : VH) (d : BitVec 6) (k : BitVec 4) (a : BitVec 8) (c sl ss : Sc) (rlen : BitVec 12)
  | cscat (h : VH) (d : BitVec 6) (k : BitVec 4) (a : BitVec 8) (c sl ss : Sc) (rlen : BitVec 12)
  | ccopy (h : VH) (d : BitVec 6) (k : BitVec 4) (b c sl ss : Sc) (rlen : BitVec 12)
  | ccopyOut (h : VH) (d : BitVec 6) (k : BitVec 4) (b c sl ss : Sc) (rlen : BitVec 12)
  | ccopyTr (h : VH) (d : BitVec 6) (k : BitVec 4) (b c sl : Sc)
  | cchain (h : VH) (l3 : Bool) (d : BitVec 6) (k : BitVec 4) (a : BitVec 8) (c sl ss : Sc) (rlen : BitVec 12)
  -- latches, counters, barriers (R276, R285, R286)
  | lati (h : SH) (a b : Sc)
  | larv (h : SH) (a b c : Sc)
  | lrst (h : SH) (a b : Sc)
  | lwait (h : SH) (d : BitVec 6) (a b : Sc)
  | pwait (h : SH) (nt : Bool) (d : BitVec 6) (a b c : Sc)
  | owait (h : SH) (cls : OpCls) (a : Sc)
  | cbar (h : SH) (a : Sc)
  | gbar (h : SH) (a : Sc)
  -- events (R374)
  | evs (h : VH) (prio : BitVec 8) (abs : Bool) (d : BitVec 8) (a b c : VSrc)
  | evc (h : VH) (a b : VSrc)
  | evr (h : VH) (f : EvField) (d : BitVec 8)
  | evx (h : VH) (a : VSrc)
  -- copy class (R265 to R269)
  | kmov (h : SH) (d : BitVec 4) (a : KSc)
  | kadd (h : SH) (d : BitVec 4) (a b : KSc)
  | ksub (h : SH) (d : BitVec 4) (a b : KSc)
  | kmul (h : SH) (d : BitVec 4) (a b : KSc)
  | kshl (h : SH) (d : BitVec 4) (a b : KSc)
  | kshr (h : SH) (t : Fmt) (d : BitVec 4) (a b : KSc)
  | kand (h : SH) (d : BitVec 4) (a b : KSc)
  | kcmp (h : SH) (t : Fmt) (c : Cond) (d : BitVec 4) (a b : KSc)
  | kbr (h : SH) (a : KSc) (ofs : Word)
  | kloop (st : BitVec 3) (d : BitVec 4) (ofs : Word)
  | kend (st : BitVec 3)
  | karv (h : SH) (a b : KSc)
  | kprom (h : SH) (a b : KSc)
  | kld (st : BitVec 3) (t : Fmt) (d : BitVec 4) (g : Gen)
  | gset (h : SH) (g : Gen) (a : KSc)
  | gstep (st : BitVec 3) (d : BitVec 4) (g : Gen)
  | xcopy (h : SH) (gd gs : Gen) (n : KSc)
  | xgath (h : SH) (gd gs : Gen) (i n : KSc)
  | xscat (h : SH) (gd gs : Gen) (i n : KSc)
  | xtran (h : SH) (s : KSc) (gs : Gen)
  | xfill (h : SH) (gd : Gen) (v n : KSc)
  | xcopyv (h : SH) (d : BitVec 4) (gs : Gen) (x : KSc) (gd : Gen)
  -- mailbox commands (R395): tag, completion address and the link whose vector 0 is raised, then the command's own fields
  | writeVirtual (tag : DWord) (caddr : DWord) (irq : Option (BitVec 1)) (ctx : BitVec 4) (addr : VAddr) (data : List Byte)
  | writePhysical (tag : DWord) (caddr : DWord) (irq : Option (BitVec 1)) (addr : VAddr) (data : List Byte)
  | writeRegister (tag : DWord) (caddr : DWord) (irq : Option (BitVec 1)) (ctx : BitVec 4) (ofs : VAddr) (v : DWord)
  | readVirtual (tag : DWord) (caddr : DWord) (irq : Option (BitVec 1)) (ctx : BitVec 4) (addr : VAddr) (len : Nat) (haddr : DWord)
  | readPhysical (tag : DWord) (caddr : DWord) (irq : Option (BitVec 1)) (addr : VAddr) (len : Nat) (haddr : DWord)
  | readRegister (tag : DWord) (caddr : DWord) (irq : Option (BitVec 1)) (ctx : BitVec 4) (ofs : VAddr) (haddr : DWord)
  | kick (tag : DWord) (caddr : DWord) (irq : Option (BitVec 1)) (q : BitVec 6) (v : VAddr)
  | grantSync (tag : DWord) (caddr : DWord) (irq : Option (BitVec 1)) (ctx : BitVec 4)
  | resolveReplay (tag : DWord) (caddr : DWord) (irq : Option (BitVec 1)) (core : BitVec 9) (agent : BitVec 7)
  | resolveFail (tag : DWord) (caddr : DWord) (irq : Option (BitVec 1)) (core : BitVec 9) (agent : BitVec 7)
  | preempt (tag : DWord) (caddr : DWord) (irq : Option (BitVec 1)) (w0 w1 : DWord)
  -- kicks, pre-emption and register writes reaching their target
  | kickWrite (q : BitVec 6) (w : DWord)
  | preemptVacateLaunch (q : BitVec 6) (seq : BitVec 48) (n : BitVec 10)
  | preemptVacateCore (core : BitVec 9)
  | preemptReopenLaunch (q : BitVec 6) (seq : BitVec 48)
  | preemptReopenCore (core : BitVec 9)
  | registerWrite (ctx : BitVec 4) (ofs : BitVec 8) (v : DWord)
  | peerKick (peer : BitVec 6) (q : BitVec 6) (w : DWord)
  -- far accesses (R397 to R399)
  | farAccess (from_ : Requester) (addr : VAddr) (tag : BitVec 20) (op : FarOp)
  | farResponse (id : Nat) (ok : Bool) (tag : BitVec 20) (data : List (Byte × Bool))
  | farTimeout (id : Nat)
  | farRefused (id : Nat)
  | flitRetry (port : BitVec 6)
  -- queues and scheduler
  | takeUp (q : BitVec 6)
  | launchComplete (launch : Nat)
  | admitBand
  | bandBlocking
  | crewRetire (crew : Nat)
  | crewCommit (launch : Nat)
  | registerGrant (core : BitVec 9)
  | registerDeadlockPark (core : BitVec 9)
  | gangRestore (core : BitVec 9)
  | crewRestore (crew : Nat)
  | tokenGrant (die : Bool)
  | mmulStreamEnd (core : BitVec 9)
  | transomRefetch (core : BitVec 9) (slot : BitVec 6)
  | pageWalk (at_ : CoreCtx) (va : VAddr)
  | faultRecordPost (ctx : BitVec 4)
  | grantFill (at_ : CoreCtx) (key : Word) (group : BitVec 14)
  | memoryAccessComplete (core : BitVec 9) (slot : BitVec 6) (op : Nat)
  | copyContextGrant (core : BitVec 9)
  | copyRowComplete (core : BitVec 9) (ctx : BitVec 4)
  | copyPostComplete (core : BitVec 9) (ctx : BitVec 4)
  | latchPoll (core : BitVec 9) (slot : BitVec 6)
  | sleepWake (core : BitVec 9) (slot : BitVec 6)
  | pwaitExpiry (core : BitVec 9) (slot : BitVec 6)
  | issueSelect (core : BitVec 9)
  | handlerRunStart (core : BitVec 9)
  | shadowCompare (core : BitVec 9) (slot : BitVec 6) (same : Bool)
  | spanGather (launch : Nat)
  | spanCommit (launch : Nat)
  -- upsets, firmware and bring-up
  | scrub (core : BitVec 9) (bad : List (Nat × Nat))
  | schedRecovery (cluster : BitVec 3)
  | fatalError (code : BitVec 3)
  | thermalTrip
  | setPowerLimit (watts : Nat) (most : Nat)
  | moduleReset
  | imageLoad (ecdsaOk lmsOk : Bool) (version fuse : Nat) (fw : Firmware)
  | functionReady (bit : BitVec 6)
  | variableLatencyResult (core : BitVec 9) (slot : BitVec 6) (id : Nat)
  | crewSaveComplete (crew : Nat)
  | channelEnableWrite (core : BitVec 9) (en : BitVec 8)
  | dvorlekPortDown (port : BitVec 6)
  | dvorlekPortRejoin (port : BitVec 6)
  deriving DecidableEq, Repr

end Sys2Proof
end

