-- ==== Sys2Proof/Machine/Codes.lean ====
section
/-! DEFINITION. The encoding tables of the operand forms: each code of R1, R28, R42 to R54, R60, R61, both ways. -/
namespace Sys2Proof

/-- R50. -/
def Fmt.code : Fmt → BitVec 4
  | .dflt => 0 | .i8 => 1 | .i16 => 2 | .i32 => 3 | .i64 => 4 | .n8 => 5 | .n16 => 6 | .n32 => 7 | .n64 => 8
  | .b32 => 9 | .f32 => 10 | .f16 => 11 | .bf16 => 12 | .f8 => 13 | .cb4 => 14

def Fmt.ofCode (c : BitVec 4) : Option Fmt :=
  match c.toNat with
  | 0 => some .dflt | 1 => some .i8 | 2 => some .i16 | 3 => some .i32 | 4 => some .i64 | 5 => some .n8
  | 6 => some .n16 | 7 => some .n32 | 8 => some .n64 | 9 => some .b32 | 10 => some .f32 | 11 => some .f16
  | 12 => some .bf16 | 13 => some .f8 | 14 => some .cb4 | _ => none

/-- R28. -/
def Rnd.code : Rnd → BitVec 3
  | .dflt => 0 | .rne => 1 | .rtz => 2 | .rdn => 3 | .rup => 4 | .rna => 5

def Rnd.ofCode (c : BitVec 3) : Option Rnd :=
  match c.toNat with
  | 0 => some .dflt | 1 => some .rne | 2 => some .rtz | 3 => some .rdn | 4 => some .rup | 5 => some .rna | _ => none

/-- R54. -/
def Cond.code : Cond → Nat
  | .eq => 0 | .ne => 1 | .lt => 2 | .le => 3 | .gt => 4 | .ge => 5 | .un => 6 | .ord => 7

def Cond.ofCode (c : Nat) : Option Cond :=
  match c with
  | 0 => some .eq | 1 => some .ne | 2 => some .lt | 3 => some .le | 4 => some .gt | 5 => some .ge | 6 => some .un
  | 7 => some .ord | _ => none

/-- The scalar operand number of a special register, R111. -/
def SpReg.num : SpReg → Nat
  | .rmode => 0x41 | .cyc => 0x42 | .wid => 0x43 | .lane => 0x44 | .key => 0x45 | .now => 0x46 | .dead => 0x47
  | .em => 0x48 | .seed => 0x49 | .tokens => 0x4A | .chan => 0x4B | .regs => 0x4C | .deny => 0x4D | .phase => 0x4E
  | .span => 0x4F

/-- Numbers 0x50 to 0x5F are unassigned and 0x60 to 0x7F reserved (R47, R111). -/
def SpReg.ofNum (n : Nat) : Option SpReg :=
  match n with
  | 0x41 => some .rmode | 0x42 => some .cyc | 0x43 => some .wid | 0x44 => some .lane | 0x45 => some .key
  | 0x46 => some .now | 0x47 => some .dead | 0x48 => some .em | 0x49 => some .seed | 0x4A => some .tokens
  | 0x4B => some .chan | 0x4C => some .regs | 0x4D => some .deny | 0x4E => some .phase | 0x4F => some .span
  | _ => none

/-- The per-lane special registers of R111. -/
def SpReg.perLane : SpReg → Bool
  | .wid | .lane | .key | .now => true
  | _ => false

/-- The scalar class of R1. -/
def Sc.byte : Sc → BitVec 8
  | .r n => 0#2 ++ n
  | .lit => 0x40
  | .sp x => BitVec.ofNat 8 x.num
  | .imm x => 1#1 ++ x

def Sc.ofByte (b : BitVec 8) : Option Sc :=
  if b.toNat < 0x40 then some (.r (b.setWidth 6))
  else if b.toNat = 0x40 then some .lit
  else if b.toNat < 0x80 then (SpReg.ofNum b.toNat).map .sp
  else some (.imm (b.setWidth 7))

/-- A scalar operand that reads one uniform value names no per-lane register (R111). -/
def Sc.uniform : Sc → Bool
  | .sp x => !x.perLane
  | _ => true

def Sc.isLit : Sc → Bool
  | .lit => true
  | _ => false

/-- R65. -/
def KSc.byte : KSc → BitVec 8
  | .k n => 0#4 ++ n
  | .lit => 0x40
  | .imm x => 1#1 ++ x

def KSc.ofByte (b : BitVec 8) : Option KSc :=
  if b.toNat < 0x10 then some (.k (b.setWidth 4))
  else if b.toNat = 0x40 then some .lit
  else if b.toNat < 0x80 then none
  else some (.imm (b.setWidth 7))

def KSc.isLit : KSc → Bool
  | .lit => true
  | _ => false

/-- The operand byte and the source-class flag of R48. -/
def VSrc.byte : VSrc → BitVec 8
  | .v n => n
  | .s x => x.byte

def VSrc.flag : VSrc → Bool
  | .v _ => false
  | .s _ => true

def VSrc.isLit : VSrc → Bool
  | .v _ => false
  | .s x => x.isLit

def VSrc.of (flag : Bool) (b : BitVec 8) : Option VSrc :=
  if flag then (Sc.ofByte b).map .s else some (.v b)

/-- R52. -/
def Scope.code : Scope → Nat
  | .gang => 0 | .crew => 1 | .band => 2 | .die => 3 | .dev => 4 | .sys => 5

def Scope.ofCode (c : Nat) : Option Scope :=
  match c with
  | 0 => some .gang | 1 => some .crew | 2 => some .band | 3 => some .die | 4 => some .dev | 5 => some .sys | _ => none

def OrdQ.code : OrdQ → Nat
  | .none => 0 | .acq => 1 | .rel => 2 | .acqrel => 3

def OrdQ.ofCode (c : BitVec 2) : OrdQ :=
  match c.toNat with
  | 0 => .none | 1 => .acq | 2 => .rel | _ => .acqrel

/-- R58. -/
def CntOp.code : CntOp → Nat
  | .popc => 0 | .clz => 1 | .ctz => 2

def CntOp.ofCode (c : Nat) : Option CntOp :=
  match c with
  | 0 => some .popc | 1 => some .clz | 2 => some .ctz | _ => none

/-- R59. -/
def BitOp.code : BitOp → Nat
  | .popc => 0 | .clz => 1 | .ctz => 2 | .rev => 3

def BitOp.ofCode (c : Nat) : Option BitOp :=
  match c with
  | 0 => some .popc | 1 => some .clz | 2 => some .ctz | 3 => some .rev | _ => none

/-- R60. -/
def ScanOp.code : ScanOp → Nat
  | .add => 0 | .min => 1 | .max => 2 | .and => 3 | .or => 4 | .xor => 5

def ScanOp.ofCode (c : Nat) : Option ScanOp :=
  match c with
  | 0 => some .add | 1 => some .min | 2 => some .max | 3 => some .and | 4 => some .or | 5 => some .xor | _ => none

/-- R61. -/
def AtmOp.code : AtmOp → Nat
  | .add => 0 | .min => 1 | .max => 2 | .and => 3 | .or => 4 | .xor => 5 | .xchg => 6 | .cas => 7

def AtmOp.ofCode (c : Nat) : Option AtmOp :=
  match c with
  | 0 => some .add | 1 => some .min | 2 => some .max | 3 => some .and | 4 => some .or | 5 => some .xor
  | 6 => some .xchg | 7 => some .cas | _ => none

/-- R60. -/
def Semi.code : Semi → Nat
  | .plus => 0 | .min => 1 | .max => 2 | .or => 3

def Semi.ofCode (c : Nat) : Option Semi :=
  match c with
  | 0 => some .plus | 1 => some .min | 2 => some .max | 3 => some .or | _ => none

def TileFmt.code : TileFmt → Nat
  | .plus => 0 | .min => 1 | .max => 2 | .or => 3 | .res => 4

def TileFmt.ofCode (c : Nat) : Option TileFmt :=
  match c with
  | 0 => some .plus | 1 => some .min | 2 => some .max | 3 => some .or | 4 => some .res | _ => none

/-- R61, R285. -/
def OpCls.code : OpCls → Nat
  | .ld => 0 | .st => 1 | .cp => 2 | .ev => 3

def OpCls.ofCode (c : Nat) : Option OpCls :=
  match c with
  | 0 => some .ld | 1 => some .st | 2 => some .cp | 3 => some .ev | _ => none

/-- R378. -/
def EvField.code : EvField → Nat
  | .time => 0 | .serial => 1 | .handler => 2 | .prio => 3 | .princ => 4 | .pay => 5 | .index => 6 | .children => 7
  | .aborts => 8

def EvField.ofCode (c : Nat) : Option EvField :=
  match c with
  | 0 => some .time | 1 => some .serial | 2 => some .handler | 3 => some .prio | 4 => some .princ | 5 => some .pay
  | 6 => some .index | 7 => some .children | 8 => some .aborts | _ => none

/-- The fields whose value is 64 bits wide and fills a pair (R378). -/
def EvField.wide : EvField → Bool
  | .time | .serial | .pay => true
  | _ => false

/-- Width in bits of a type of R2 (CB4 codes are 4 bits; `dflt` is resolved by each entry before use). -/
def Fmt.bits : Fmt → Nat
  | .i8 | .n8 | .f8 => 8
  | .i16 | .n16 | .f16 | .bf16 => 16
  | .i64 | .n64 => 64
  | .cb4 => 4
  | _ => 32

def Fmt.bytes (t : Fmt) : Nat := t.bits / 8

def Fmt.is64 (t : Fmt) : Bool := t.bits == 64

/-- The `.i` types. -/
def Fmt.signed : Fmt → Bool
  | .i8 | .i16 | .i32 | .i64 => true
  | _ => false

def Fmt.float : Fmt → Bool
  | .f32 | .f16 | .bf16 | .f8 => true
  | _ => false

/-- Code 0 stands for the entry's default type (R50). -/
def Fmt.or (t d : Fmt) : Fmt :=
  match t with
  | .dflt => d
  | t => t

end Sys2Proof
end

