-- ==== Sys2Proof/Machine/Shape.lean ====
section
/-! DEFINITION. The shape of an instruction: its encoding fields (R42, R43, R44) together with what the checks made before
issue need: whether a scalar byte names the literal (R45), whether its operand bytes are legal in their positions (R2, R46, R48),
which registers it reads and writes (R49, R56, R109), and its fixed latency (R13). -/
namespace Sys2Proof

/-- A register an instruction reads or writes: scalar, vector, mask, buffer, the mask on top of the stack, a special
register, an accumulator tile. -/
inductive Ref where
  | s (n : Nat) | v (n : Nat) | m (n : Nat) | b (n : Nat) | top | sp (x : SpReg) | tile (n : Nat)
  deriving DecidableEq, Repr

structure Shape where
  opc : BitVec 7
  ext : Bool := true
  xop : BitVec 8 := 0
  fmt : BitVec 4 := 0
  rnd : BitVec 3 := 0
  guard : BitVec 4 := 0
  gneg : Bool := false
  stall : BitVec 3 := 0
  a : BitVec 8 := 0
  b : BitVec 8 := 0
  c : BitVec 8 := 0
  d : BitVec 8 := 0
  w2 : Word := 0
  lit : Option DWord := none
  /-- some scalar-class byte is 0x40, or the opcode requires the literal (R45) -/
  usesLit : Bool := false
  /-- every operand byte is legal in its class and position -/
  sane : Bool := true
  /-- the fixed latency of R13; 0 for a variable-latency (scoreboarded) result -/
  lat : Nat := 2
  reads : List Ref := []
  writes : List Ref := []
  deriving DecidableEq, Repr

namespace Shape

def bit (x : Bool) : BitVec 1 := BitVec.ofBool x

/-- Base and extended forms whose STALL and literal stand in an `SH`. -/
def ofSH (opc : BitVec 7) (xop : Nat) (h : SH) : Shape :=
  { opc := opc, xop := BitVec.ofNat 8 xop, stall := h.stall, lit := h.lit }

def ofStall (opc : BitVec 7) (xop : Nat) (st : BitVec 3) : Shape :=
  { opc := opc, xop := BitVec.ofNat 8 xop, stall := st }

def baseForm (opc : BitVec 7) (st : BitVec 3) : Shape := { opc := opc, ext := false, stall := st }

/-- `s0` and `m0` hold nothing: they make no dependence (R1, R46). -/
def sRef (n : Nat) : List Ref := if n = 0 then [] else [.s n]
def mRef (n : Nat) : List Ref := if n = 0 then [] else [.m n]

def guardRefs (g : BitVec 4) : List Ref := mRef g.toNat

/-- Guarded instructions: they read the guard mask and the mask on top of the stack (R5). -/
def ofVH (opc : BitVec 7) (xop : Nat) (h : VH) : Shape :=
  { opc := opc, xop := BitVec.ofNat 8 xop, stall := h.stall, lit := h.lit, guard := h.guard, gneg := h.gneg,
    reads := .top :: guardRefs h.guard }

/-- `$em` is the mask on top of the stack (R98). -/
def spRef (x : SpReg) : Ref := if x = .em then .top else .sp x

def scRefs : Sc → List Ref
  | .r n => sRef n.toNat
  | .sp x => [spRef x]
  | _ => []

def addSc (sh : Shape) (x : Sc) : Shape :=
  { sh with usesLit := sh.usesLit || x.isLit, sane := sh.sane && x.uniform, reads := sh.reads ++ scRefs x }

def aS (sh : Shape) (x : Sc) : Shape := { sh.addSc x with a := x.byte }
def bS (sh : Shape) (x : Sc) : Shape := { sh.addSc x with b := x.byte }
def cS (sh : Shape) (x : Sc) : Shape := { sh.addSc x with c := x.byte }

/-- A scalar-class operand carried in word 2 (VX, VY). -/
def extraS (sh : Shape) (x : Sc) : Shape := sh.addSc x

def addK (sh : Shape) (x : KSc) : Shape := { sh with usesLit := sh.usesLit || x.isLit }
def aK (sh : Shape) (x : KSc) : Shape := { sh.addK x with a := x.byte }
def bK (sh : Shape) (x : KSc) : Shape := { sh.addK x with b := x.byte }
def cK (sh : Shape) (x : KSc) : Shape := { sh.addK x with c := x.byte }

def vRange (n count : Nat) : List Ref := (List.range count).map (fun i => Ref.v (n + i))

/-- A vector source of `n` registers; a pair must be even (R2). -/
def addV (sh : Shape) (x : VSrc) (n : Nat) : Shape :=
  match x with
  | .v r => { sh with sane := sh.sane && (n != 2 || r.toNat % 2 == 0), reads := sh.reads ++ vRange r.toNat n }
  | .s y => { sh with usesLit := sh.usesLit || y.isLit, reads := sh.reads ++ scRefs y }

def aV (sh : Shape) (x : VSrc) (n : Nat := 1) : Shape := { sh.addV x n with a := x.byte }
def bV (sh : Shape) (x : VSrc) (n : Nat := 1) : Shape := { sh.addV x n with b := x.byte }
def cV (sh : Shape) (x : VSrc) (n : Nat := 1) : Shape := { sh.addV x n with c := x.byte }

/-- A vector register read in the vector class only. -/
def cR (sh : Shape) (r : BitVec 8) (n : Nat := 1) : Shape := { sh.addV (.v r) n with c := r }
def aR (sh : Shape) (r : BitVec 8) (n : Nat := 1) : Shape := { sh.addV (.v r) n with a := r }
def bR (sh : Shape) (r : BitVec 8) (n : Nat := 1) : Shape := { sh.addV (.v r) n with b := r }

def dS (sh : Shape) (d : BitVec 6) : Shape := { sh with d := 0#2 ++ d, writes := sh.writes ++ sRef d.toNat }
def dV (sh : Shape) (d : BitVec 8) (n : Nat := 1) : Shape :=
  { sh with d := d, sane := sh.sane && (n != 2 || d.toNat % 2 == 0), writes := sh.writes ++ vRange d.toNat n }
def dM (sh : Shape) (d : BitVec 4) : Shape :=
  { sh with d := 0#4 ++ d, writes := sh.writes ++ mRef d.toNat }
def dB (sh : Shape) (d : BitVec 4) : Shape := { sh with d := 0#4 ++ d, writes := sh.writes ++ [.b d.toNat] }
def dT (sh : Shape) (d : BitVec 3) : Shape := { sh with d := 0#5 ++ d, writes := sh.writes ++ [.tile d.toNat] }
def dK (sh : Shape) (d : BitVec 4) : Shape := { sh with d := 0#4 ++ d }
def dG (sh : Shape) (g : Gen) : Shape := { sh with d := 0#6 ++ g }
def aM (sh : Shape) (m : BitVec 4) : Shape := { sh with a := 0#4 ++ m, reads := sh.reads ++ mRef m.toNat }
def bM (sh : Shape) (m : BitVec 4) : Shape := { sh with b := 0#4 ++ m, reads := sh.reads ++ mRef m.toNat }
def cM (sh : Shape) (m : BitVec 4) : Shape := { sh with c := 0#4 ++ m, reads := sh.reads ++ mRef m.toNat }
def aB (sh : Shape) (m : BitVec 4) : Shape := { sh with a := 0#4 ++ m, reads := sh.reads ++ [.b m.toNat] }
def aT (sh : Shape) (k : BitVec 3) : Shape := { sh with a := 0#5 ++ k, reads := sh.reads ++ [.tile k.toNat] }
def aG (sh : Shape) (g : Gen) : Shape := { sh with a := 0#6 ++ g }
def bG (sh : Shape) (g : Gen) : Shape := { sh with b := 0#6 ++ g }
def cG (sh : Shape) (g : Gen) : Shape := { sh with c := 0#6 ++ g }

def f (sh : Shape) (t : Fmt) : Shape := { sh with fmt := t.code }
def r (sh : Shape) (x : Rnd) : Shape := { sh with rnd := x.code, reads := sh.reads ++ [.sp .rmode] }
/-- As `r`, where `$rmode` is read for some types alone, as floating-point ones are. -/
def rIf (sh : Shape) (x : Rnd) (float : Bool) : Shape := if float then sh.r x else { sh with rnd := x.code }
/-- The instruction reads a special register besides its operands. -/
def use (sh : Shape) (x : SpReg) : Shape := { sh with reads := sh.reads ++ [spRef x] }
/-- The key set of SLD, SST, VLDV and VSTV: `$em` and the lanes' keys (R117). -/
def useKeySet (sh : Shape) : Shape := (sh.use .em).use .key
def alsoReads (sh : Shape) (l : List Ref) : Shape := { sh with reads := sh.reads ++ l }
def alsoWrites (sh : Shape) (l : List Ref) : Shape := { sh with writes := sh.writes ++ l }
def late (sh : Shape) (n : Nat) : Shape := { sh with lat := n }
def word2 (sh : Shape) (w : Word) : Shape := { sh with w2 := w }
def need (sh : Shape) (p : Bool) : Shape := { sh with sane := sh.sane && p }
def mustLit (sh : Shape) (v : DWord) : Shape := { sh with usesLit := true, lit := some v }

/-- Word 2 of R127: bit 8, FMT2 and the source-class flags. -/
def laneW2 (bit8 : Bool) (fmt2 : Fmt) (a b c : Bool) : Word :=
  (0#23 ++ bit bit8 ++ fmt2.code ++ 0#1 ++ bit c ++ bit b ++ bit a : BitVec 32)

/-- Word 2 of R169. -/
def arrayW2 (nm1 : BitVec 6) (fmt2 : Fmt) (p : Bool) : Word := (0#18 ++ nm1 ++ fmt2.code ++ 0#3 ++ bit p : BitVec 32)

/-- Word 2 of R221. -/
def memW2 (vx : BitVec 8) (bm : BitVec 4) (iofs : BitVec 12) (isrc xf strict : Bool) (scope : Scope) (q : OrdQ) : Word :=
  (vx ++ bm ++ iofs ++ bit isrc ++ bit xf ++ bit strict ++ BitVec.ofNat 3 scope.code ++ BitVec.ofNat 2 q.code : BitVec 32)

/-- Word 2 of XOP 1 to 4 of the posts (R254). -/
def postW2 (vx vy : BitVec 8) (rlen : BitVec 12) (tr lv : Bool) : Word :=
  (vx ++ vy ++ rlen ++ 0#2 ++ bit tr ++ bit lv : BitVec 32)

/-- Word 2 of R374. -/
def evW2 (prio : BitVec 8) (field : Nat) (abs a b c : Bool) : Word :=
  (0#16 ++ prio ++ BitVec.ofNat 4 field ++ bit abs ++ bit c ++ bit b ++ bit a : BitVec 32)

/-- The number of registers of an operand of type `t` (R2). -/
def regsOf (t : Fmt) : Nat := if t.is64 then 2 else 1

/-- Scalar instructions of R113. -/
def alu (opc : BitVec 7) (xop : Nat) (h : SH) (t : Fmt) (d : BitVec 6) (a b : Sc) : Shape :=
  ((((ofSH opc xop h).f t).aS a).bS b).dS d

/-- Lane-wise integer instructions with two sources (R133). -/
def lane2 (opc : BitVec 7) (xop : Nat) (h : VH) (t : Fmt) (d : BitVec 8) (a b : VSrc) : Shape :=
  (((((ofVH opc xop h).f t).aV a (regsOf t)).bV b (regsOf t)).dV d (regsOf t)).word2 (laneW2 false .dflt a.flag b.flag false)

def lane1 (opc : BitVec 7) (xop : Nat) (h : VH) (t : Fmt) (d : BitVec 8) (a : VSrc) : Shape :=
  ((((ofVH opc xop h).f t).aV a (regsOf t)).dV d (regsOf t)).word2 (laneW2 false .dflt a.flag false false)

def lane3 (opc : BitVec 7) (h : VH) (t : Fmt) (d : BitVec 8) (a b c : VSrc) : Shape :=
  ((((((ofVH opc 0 h).f t).aV a (regsOf t)).bV b (regsOf t)).cV c (regsOf t)).dV d (regsOf t)).word2
    (laneW2 false .dflt a.flag b.flag c.flag)

/-- ISRC is no source-class flag of R48: a scalar in the index position must be uniform (R111, R221). -/
def idxOk : VSrc → Bool
  | .v _ => true
  | .s x => x.uniform

/-- A lane-wise memory instruction through a buffer record or scratch: its index and the common fields of word 2. -/
def idxMem (opc : BitVec 7) (xop : Nat) (h : VH) (m : MH) (t : Fmt) (vx : BitVec 8) (idx : VSrc) (xf : Bool) : Shape :=
  (((((((ofVH opc xop h).f t).bV idx).need (idxOk idx)).word2 (memW2 vx m.bm m.iofs idx.flag xf m.strict m.scope m.ordq))).late 0).alsoWrites
    (mRef m.bm.toNat)

/-- One that is checked with the key of each lane (R236). -/
def mem (opc : BitVec 7) (xop : Nat) (h : VH) (m : MH) (t : Fmt) (vx : BitVec 8) (idx : VSrc) (xf : Bool) : Shape :=
  (idxMem opc xop h m t vx idx xf).use .key

/-- A built-in post with a row length (R254). -/
def post (xop : Nat) (h : VH) (d : BitVec 6) (k : BitVec 4) (c sl ss : Sc) (rlen : BitVec 12) (lv : Bool) : Shape :=
  ((((((((ofVH 0x6C xop h).aB k).cS c).extraS sl).extraS ss).dS d).use .key).word2 (postW2 sl.byte ss.byte rlen false lv)).late 0

def vote : VoteDst → Nat × (Shape → Shape)
  | .any d => (0, (·.dS d))
  | .all d => (1, (·.dS d))
  | .ballot d => (2, (·.dM d))

def lmskShape (st : BitVec 3) (x : MaskArg) : Shape :=
  let s (n : Nat) := (ofStall 0x55 n st).late 3
  match x with
  | .and d a b => (((s 0).aM a).bM b).dM d
  | .or d a b => (((s 1).aM a).bM b).dM d
  | .xor d a b => (((s 2).aM a).bM b).dM d
  | .andn d a b => (((s 3).aM a).bM b).dM d
  | .not d a => ((s 4).aM a).dM d
  | .mov d a => ((s 5).aM a).dM d
  | .popc d a => ((s 6).aM a).dS d

/-- Registers of activations an MMUL reads per lane, R of R173. -/
def mmulRegs (x w : Fmt) : Nat :=
  match x, w with
  | .f8, .cb4 => 64
  | .i8, _ => 16
  | .n8, _ => 16
  | _, _ => 32

end Shape

open Shape in
/-- The encoding and operand use of every row that has instruction words; the engine, host and physical rows have none. -/
def shape? : Instr → Option Shape
  | .trap st g a => some { (baseForm 0x00 st).aS a with guard := g, reads := scRefs a ++ .top :: guardRefs g }
  | .trapLit st g v => some { ((baseForm 0x00 st).mustLit v) with guard := g, a := 0x40, reads := .top :: guardRefs g }
  | .br st o => some ((ofStall 0x01 0 st).word2 o)
  | .brc h a o => some (((ofSH 0x02 0 h).aS a).word2 o)
  | .call st d o => some (((ofStall 0x03 0 st).dS d).word2 o)
  | .ret st a => some ((baseForm 0x04 st).aS a)
  | .retLit st v => some { ((baseForm 0x04 st).mustLit v) with a := 0x40 }
  | .loop st d o => some ((((ofStall 0x05 0 st).dS d).alsoReads (sRef d.toNat)).word2 o)
  | .vif st m => some (((baseForm 0x06 st).aM m).alsoWrites [.top])
  | .velse st => some ((baseForm 0x07 st).alsoWrites [.top])
  | .vend st => some ((baseForm 0x08 st).alsoWrites [.top])
  | .exit st => some (baseForm 0x09 st)
  | .rgrow h d a => some ((((ofSH 0x0A 0 h).aS a).dS d).use .regs)
  | .rshr h d a => some ((((ofSH 0x0A 1 h).aS a).dS d).use .regs)
  | .sleep h a => some ((ofSH 0x0A 2 h).aS a)
  | .getsr st d x => some { ((ofStall 0x0B 0 st).dS d).use x with a := BitVec.ofNat 8 x.num }
  | .setsr h d a =>
    let v := match a with | .v _ => true | .s _ => false
    let h0 := if d = .key then ofVH 0x0B 1 h else { ofVH 0x0B 1 h with reads := guardRefs h.guard }
    let s := { h0.aV a with d := BitVec.ofNat 8 d.num, w2 := (0#31 ++ Shape.bit v : BitVec 32), writes := [.sp d] }
    some (s.need (idxOk a))
  | .wsel h d a => some ((((ofSH 0x0B 16 h).aS a).dS d).late 0)
  | .wrd h d a => some ((((ofSH 0x0B 17 h).aS a).dS d).late 0)
  | .wwr h d a b =>
    some { ((ofSH 0x0B 18 h).aS a).bS b with
      d := match d with | none => 0 | some x => BitVec.ofNat 8 x.num
      writes := if d = some .chan then [.sp .chan] else [] }
  | .wres h a b => some (((ofSH 0x0B 19 h).aS a).bS b)
  | .smov st d a => some (((baseForm 0x0C st).aS a).dS d)
  | .smovLit st d v => some { ((baseForm 0x0C st).mustLit v).dS d with a := 0x40 }
  | .sli st d v => some (((baseForm 0x0D st).mustLit v).dS d)
  | .sadd h t d a b => some (alu 0x0E 0 h t d a b)
  | .ssub h t d a b => some (alu 0x0F 0 h t d a b)
  | .smul h t d a b => some (alu 0x10 0 h t d a b)
  | .smulh h t d a b => some (alu 0x11 0 h t d a b)
  | .sand h t d a b => some (alu 0x12 0 h t d a b)
  | .sor h t d a b => some (alu 0x13 0 h t d a b)
  | .sxor h t d a b => some (alu 0x14 0 h t d a b)
  | .sshl h t d a b => some (alu 0x15 0 h t d a b)
  | .sshr h t d a b => some (alu 0x16 0 h t d a b)
  | .smin h t d a b => some (alu 0x17 0 h t d a b)
  | .smax h t d a b => some (alu 0x18 0 h t d a b)
  | .scmp h c t d a b => some (alu 0x19 c.code h t d a b)
  | .ssel h t d a b c => some ((alu 0x1A 0 h t d a b).cS c)
  | .sld h strict t d k b =>
    some ((((((((ofSH 0x1B 0 h).f t).aB k).bS b).dS d).word2 (0#26 ++ Shape.bit strict ++ 0#5 : BitVec 32)).useKeySet).late 0)
  | .sst h strict t k b c =>
    some ((((((((ofSH 0x1C 0 h).f t).aB k).bS b).cS c).word2 (0#26 ++ Shape.bit strict ++ 0#5 : BitVec 32)).useKeySet).late 0)
  | .scnt h op t d a => some ((((ofSH 0x1D op.code h).f t).aS a).dS d)
  | .sdiv h rem t d a b => some ((alu 0x1E (if rem then 1 else 0) h t d a b).late 0)
  | .undef _ _ _ _ _ => none
  | .vmov h t d a => some (lane1 0x20 0 h t d a)
  | .vadd h t d a b => some (lane2 0x21 0 h t d a b)
  | .vsub h t d a b => some (lane2 0x22 0 h t d a b)
  | .vmul h t d a b => some (lane2 0x23 0 h t d a b)
  | .vmulh h t d a b => some (lane2 0x24 0 h t d a b)
  | .vmad h t d a b c => some (lane3 0x25 h t d a b c)
  | .vand h t d a b => some (lane2 0x26 0 h t d a b)
  | .vor h t d a b => some (lane2 0x27 0 h t d a b)
  | .vxor h t d a b => some (lane2 0x28 0 h t d a b)
  | .vshl h t d a b => some (lane2 0x29 0 h t d a b)
  | .vshr h t d a b => some (lane2 0x2A 0 h t d a b)
  | .vmin h t d a b => some (lane2 0x2B 0 h t d a b)
  | .vmax h t d a b => some (lane2 0x2C 0 h t d a b)
  | .vabs h t d a => some (lane1 0x2D 0 h t d a)
  | .vcmp h c t d a b =>
    some ((((((ofVH 0x2E c.code h).f t).aV a (regsOf t)).bV b (regsOf t)).dM d).word2 (laneW2 false .dflt a.flag b.flag false))
  | .vsel h t d a b c => some ((lane2 0x2F 0 h t d a b).cM c)
  | .vcvt h s t d a =>
    some ((((((ofVH 0x30 0 h).f s).aV a (regsOf s)).dV d (regsOf t)).use .rmode).word2 (laneW2 false t a.flag false false))
  | .vbit h op t d a => some (lane1 0x31 op.code h t d a)
  | .vsat h sub t d a b => some (lane2 0x32 (if sub then 1 else 0) h t d a b)
  | .fadd h x t d a b => some (((lane2 0x38 0 h t d a b).r x).late 4)
  | .fsub h x t d a b => some (((lane2 0x39 0 h t d a b).r x).late 4)
  | .fmul h x t d a b => some (((lane2 0x3A 0 h t d a b).r x).late 4)
  | .ffma h x t d a b c => some (((lane3 0x3B h t d a b c).r x).late 4)
  | .fmin h t d a b => some (((lane2 0x3C 0 h t d a b).use .rmode).late 4)
  | .fmax h t d a b => some (((lane2 0x3D 0 h t d a b).use .rmode).late 4)
  | .fsgn h op t d a =>
    match op with
    | .abs => some ((lane1 0x3E 0 h t d a).late 4)
    | .neg => some ((lane1 0x3E 1 h t d a).late 4)
    | .copy b => some ((lane2 0x3E 2 h t d a b).late 4)
  | .fcmp h c t d a b =>
    some ((((((((ofVH 0x3F c.code h).f t).aV a).bV b).dM d).use .rmode).late 4).word2 (laneW2 false .dflt a.flag b.flag false))
  | .fcvt h x s t d a =>
    some (((((((ofVH 0x40 0 h).f s).aV a (regsOf s)).dV d (regsOf t)).r x).late 4).word2 (laneW2 false t a.flag false false))
  | .frint h x t d a => some (((lane1 0x41 0 h t d a).r x).late 4)
  | .fdiv h x t d a b => some (((lane2 0x42 0 h t d a b).r x).late 0)
  | .fsqrt h x t d a => some (((lane1 0x43 0 h t d a).r x).late 0)
  | .fclass h t d a => some ((lane1 0x44 0 h t d a).late 4)
  | .fpack h x p wide d a arg =>
    match arg with
    | .pack b c =>
      some ((((((((ofVH 0x45 0 h).f p).aV a).bV b).cS c).dV d).r x).late 4 |>.word2 (laneW2 false wide a.flag b.flag false))
    | .unpack b =>
      some ((((((((ofVH 0x45 1 h).f p).aV a).bS b).dV d).r x).late 4).word2 (laneW2 false wide a.flag false false))
  | .lxch h t d a b => some (((((ofVH 0x50 0 h).f t).aV a (regsOf t)).bS b |>.dV d (regsOf t) |>.late 3).word2
      (laneW2 false .dflt a.flag false false))
  | .lbcst h t d a b => some (((((ofVH 0x51 0 h).f t).aV a (regsOf t)).bS b |>.dV d (regsOf t) |>.late 3).word2
      (laneW2 false .dflt a.flag false false))
  | .lfirst h t d a => some ((((((ofVH 0x51 1 h).f t).aV a (regsOf t)).dS d).late 3).word2 (laneW2 false .dflt a.flag false false))
  | .lvote h t d a =>
    some (((vote d).2 ((((ofVH 0x52 (vote d).1 h).f t).aV a (regsOf t)).late 3)).word2 (laneW2 false .dflt a.flag false false))
  | .lscan h x op excl t d a => some (((lane1 0x53 (op.code + (if excl then 8 else 0)) h t d a).rIf x t.float).late 3)
  | .lred h op t d a => some ((if t.float then (lane1 0x54 op.code h t d a).use .rmode else lane1 0x54 op.code h t d a).late 3)
  | .lredx h x t d a b =>
    let n := if t.float || t = .dflt then 1 else 2
    let s := (((ofVH 0x54 16 h).f t).aV a (regsOf t)).dV d n |>.r x |>.late 0
    match b with
    | none => some (s.word2 (laneW2 false .dflt a.flag false false))
    | some y => some ((s.bV y (regsOf t)).word2 (laneW2 true .dflt a.flag y.flag false))
  | .lmsk st x => some (lmskShape st x)
  | .topk h x t d a b =>
    some ((((((((ofVH 0x56 0 h).f t).aV a).bS b).dV d 4).need (d.toNat % 4 == 0)).r x).late 0 |>.word2
      (laneW2 false .dflt a.flag false false))
  | .mpath h t d a b c => some (((((((ofVH 0x57 0 h).f t).aR a).bR b).cS c).dV d 2).use .rmode |>.late 0)
  | .merge h t d a b c => some (((((((ofVH 0x57 1 h).f t).aR a).bR b).cS c).dV d 2).use .rmode |>.late 0)
  | .vrnd h t d a =>
    some ((((((ofVH 0x76 0 h).f t).aV a (regsOf t)).dV d).late 4).word2 (laneW2 false .dflt a.flag false false))
  | .mwld h d a p => some (((((ofSH 0x58 0 h).aS a).dS d).word2 (arrayW2 0 .dflt p)).late 0)
  | .mmul h sr x w k a p =>
    some { ((((ofVH 0x59 sr.code h).f x).dT k).late 0).word2 (arrayW2 0 w p) with
      a := a, reads := (.top :: guardRefs h.guard) ++ vRange a.toNat (mmulRegs x w),
      sane := decide (a.toNat + mmulRegs x w ≤ 256) }
  | .maclr st fm k => some (((ofStall 0x5A fm.code st).dT k).late 0)
  | .mard h x t kind d k b nm1 =>
    let n := nm1.toNat + 1
    let w := regsOf t
    some { (((((((ofVH 0x5B 0 h).f t).aT k).bS b).rIf x (kind != .n8)).late 0).word2 (arrayW2 nm1 kind false)) with
      d := d, writes := vRange d.toNat (n * w),
      sane := b.uniform && decide (d.toNat + n * w ≤ 256) && (w == 1 || d.toNat % 2 == 0) }
  | .mawr h t kind k a b nm1 =>
    let n := nm1.toNat + 1
    let w := regsOf t
    some { ((((((ofVH 0x5C 0 h).f t).dT k).bS b).late 0).word2 (arrayW2 nm1 kind false)) with
      a := a, reads := (.top :: guardRefs h.guard) ++ scRefs b ++ vRange a.toNat (n * w),
      sane := b.uniform && decide (a.toNat + n * w ≤ 256) && (w == 1 || a.toNat % 2 == 0) }
  | .rfwd h s f2 d a =>
    some (((((((ofVH 0x60 0 h).f s).aV a (regsOf s)).dV d 2).use .chan).late 4).word2 (laneW2 false f2 a.flag false false))
  | .rrev h t f2 d a c =>
    some { (((((((ofVH 0x61 0 h).f t).aV a 2).dV d (if t = .i32 then 1 else 2)).use .rmode).use .chan).late 4).word2
      (laneW2 false f2 a.flag false false) with
      c := 0#4 ++ c, writes := vRange d.toNat (if t = .i32 then 1 else 2) ++ mRef c.toNat }
  | .rchk h d a => some ((((((ofVH 0x62 0 h).aV a 2).dM d).use .chan).late 4).word2 (laneW2 false .dflt a.flag false false))
  | .rmad h d a b c =>
    some ((((((((ofVH 0x63 0 h).aV a 2).bV b 2).cV c 2).dV d 2).use .chan).late 4).word2 (laneW2 false .dflt a.flag b.flag c.flag))
  | .bset h k a b =>
    some (((((ofSH 0x66 0 h).aS a).bS b |>.dB k).word2 (memW2 0 0 0 true true false .gang .none)).late 0)
  | .ldb h m t d k b => some (((mem 0x64 0 h m t 0 b false).aB k).dV d (regsOf t))
  | .stb h m t k b c => some (((mem 0x65 0 h m t 0 b false).aB k).cR c (regsOf t))
  | .lds h m t d b => some ((idxMem 0x66 0 h m t 0 b false).dV d (regsOf t))
  | .sts h m t b c => some ((idxMem 0x67 0 h m t 0 b false).cR c (regsOf t))
  | .ldc h m t d a b => some (((idxMem 0x66 1 h m t 0 b false).aS a).dV d (regsOf t))
  | .stc h m t a b c => some (((idxMem 0x67 1 h m t 0 b false).aS a).cR c (regsOf t))
  | .atm h m op t d k b c x =>
    let s := (((mem 0x68 op.code h m t x b false).aB k).cR c (regsOf t)).dV d (regsOf t)
    some (if op = .cas then s.addV (.v x) (regsOf t) else s)
  | .redx h m t k b c x =>
    let s := ((mem 0x69 0 h m t (x.getD 0) b x.isSome).aB k).cR c (regsOf t)
    some (match x with | none => s | some y => s.addV (.v y) (regsOf t))
  | .xrnd h m x clr t d k b => some ((((mem 0x69 1 h m t 0 b clr).aB k).dV d (regsOf t)).r x)
  | .vldv h m d x k b =>
    some (((((((ofSH 0x6A 0 h).aB k).bS b).dV d).alsoWrites (sRef x.toNat)).useKeySet |>.late 0).word2
      (memW2 (0#2 ++ x) m.bm m.iofs true false m.strict m.scope m.ordq))
  | .vstv h m d k b c x =>
    some ((((((((ofSH 0x6A 1 h).aB k).bS b).cR c).extraS x).dS d).useKeySet |>.late 0).word2
      (memW2 x.byte m.bm m.iofs true false m.strict m.scope m.ordq))
  | .fence st s => some ((ofStall 0x6B s.code st).late 0)
  | .cpost h d a b o => some ((((((ofVH 0x6C 0 h).aS a).bS b).dS d).use .key |>.late 0).word2 o)
  | .cgath h d k a c sl ss rl => some ((post 1 h d k c sl ss rl false).bR a)
  | .cscat h d k a c sl ss rl => some ((post 2 h d k c sl ss rl false).bR a)
  | .ccopy h d k b c sl ss rl => some ((post 3 h d k c sl ss rl false).bS b)
  | .ccopyOut h d k b c sl ss rl => some ((post 3 h d k c sl ss rl true).bS b)
  | .ccopyTr h d k b c sl =>
    some (((((((((ofVH 0x6C 3 h).aB k).bS b).cS c).extraS sl).dS d).use .key).word2 (postW2 sl.byte 0 0 true false)).late 0)
  | .cchain h l3 d k a c sl ss rl =>
    some (((post 4 h d k c sl ss rl l3).bR a).alsoReads (.b (k.toNat + 1) :: if l3 then [.b (k.toNat + 2)] else []))
  | .lati h a b => some ((((ofSH 0x6D 0 h).aS a).bS b).late 0)
  | .larv h a b c => some (((((ofSH 0x6D 1 h).aS a).bS b).cS c).late 0)
  | .lrst h a b => some ((((ofSH 0x6D 2 h).aS a).bS b).late 0)
  | .lwait h d a b => some (((((ofSH 0x6E 0 h).aS a).bS b).dS d).late 0)
  | .pwait h nt d a b c => some ((((((ofSH 0x6E 1 h).aS a).bS b).cS c).dS d |>.late 0).word2 (0#31 ++ Shape.bit nt : BitVec 32))
  | .owait h cls a => some (((ofSH 0x6F cls.code h).aS a).late 0)
  | .cbar h a => some (((ofSH 0x74 0 h).aS a).late 0)
  | .gbar h a => some (((ofSH 0x75 0 h).aS a).late 0)
  | .evs h prio abs d a b c =>
    some (((((((ofVH 0x70 0 h).aV a 2).bV b).cV c 2).dV d 2).use .key |>.late 0).word2 (evW2 prio 0 abs a.flag b.flag c.flag))
  | .evc h a b => some (((((ofVH 0x71 0 h).aV a 2).bV b 2).late 0).word2 (evW2 0 0 false a.flag b.flag false))
  | .evr h fd d => some ((((ofVH 0x72 0 h).dV d (if fd.wide then 2 else 1)).late 0).word2 (evW2 0 fd.code false false false false))
  | .evx h a => some ((((ofVH 0x73 0 h).aV a).late 0).word2 (evW2 0 0 false a.flag false false))
  | .kmov h d a => some (((ofSH 0x78 0 h).aK a).dK d)
  | .kadd h d a b => some ((((ofSH 0x78 1 h).aK a).bK b).dK d)
  | .ksub h d a b => some ((((ofSH 0x78 2 h).aK a).bK b).dK d)
  | .kmul h d a b => some ((((ofSH 0x78 3 h).aK a).bK b).dK d)
  | .kshl h d a b => some ((((ofSH 0x78 4 h).aK a).bK b).dK d)
  | .kshr h t d a b => some (((((ofSH 0x78 5 h).f t).aK a).bK b).dK d)
  | .kand h d a b => some ((((ofSH 0x78 6 h).aK a).bK b).dK d)
  | .kcmp h t c d a b =>
    some ((((((ofSH 0x78 7 h).f t).aK a).bK b).dK d).word2 (0#29 ++ BitVec.ofNat 3 c.code : BitVec 32))
  | .kbr h a o => some (((ofSH 0x79 0 h).aK a).word2 o)
  | .kloop st d o => some (((ofStall 0x79 1 st).dK d).word2 o)
  | .kend st => some (ofStall 0x79 2 st)
  | .karv h a b => some (((ofSH 0x79 3 h).aK a).bK b)
  | .kprom h a b => some (((ofSH 0x79 4 h).aK a).bK b)
  | .kld st t d g => some ((((ofStall 0x7A 0 st).f t).aG g).dK d)
  | .gset h g a => some (((ofSH 0x7A 1 h).aK a).dG g)
  | .gstep st d g => some (((ofStall 0x7A 2 st).aG g).dK d)
  | .xcopy h gd gs n => some ((((ofSH 0x7B 0 h).dG gd).aG gs).bK n)
  | .xgath h gd gs i n => some (((((ofSH 0x7B 1 h).dG gd).aG gs).bK i).cK n)
  | .xscat h gd gs i n => some (((((ofSH 0x7B 2 h).dG gd).aG gs).bK i).cK n)
  | .xtran h s gs => some (((ofSH 0x7B 3 h).aK s).bG gs)
  | .xfill h gd v n => some ((((ofSH 0x7B 4 h).dG gd).aK v).bK n)
  | .xcopyv h d gs x gd => some (((((ofSH 0x7B 5 h).dK d).aG gs).bK x).cG gd)
  | _ => none

/-- The shape of an instruction row (a row without words gets the all-zero shape); UNDEF keeps its guard (R42, R63). -/
def shape (i : Instr) : Shape :=
  match i with
  | .undef _ _ g _ _ => { opc := 0x7F, ext := false, guard := g }
  | i => (shape? i).getD { opc := 0 }

/-- Length in bytes (R41). -/
def Shape.len (sh : Shape) : Nat := (if sh.ext then 12 else 4) + (if sh.usesLit then 8 else 0)

end Sys2Proof
end

