-- ==== Sys2Proof/WellFormed.lean ====
section
/-! DEFINITION. Well-formed instructions: the checks of R64 that do not follow from the form of the operands alone. Each entry's
accepted FMT codes (R50), its rounding and ordering fields (R28, R52), registers that must be even or a multiple of four
(R2, R128), guards that must be zero (R119, R170), and the presence of the literal (R45). -/
namespace Sys2Proof

def intCodes : List Fmt := [.i8, .i16, .i32, .i64, .n8, .n16, .n32, .n64]
def fpCodes : List Fmt := [.f32, .f16, .bf16, .f8]

/-- Codes 0, 3, 4, 7 and 8 (R115). -/
def Fmt.scalarOk (t : Fmt) : Bool := [Fmt.dflt, .i32, .i64, .n32, .n64].contains t
/-- Codes 0 and 1 to 8 (R133). -/
def Fmt.intOk (t : Fmt) : Bool := (Fmt.dflt :: intCodes).contains t
/-- Codes 0, 8 and 9. -/
def Fmt.rawOk (t : Fmt) : Bool := [Fmt.dflt, .n64, .b32].contains t
/-- Codes 0 and 10 to 13 (R137). -/
def Fmt.fpOk (t : Fmt) : Bool := (Fmt.dflt :: fpCodes).contains t
/-- Codes 0 and 1 to 13 (R225, R226). -/
def Fmt.elemOk (t : Fmt) : Bool := (Fmt.dflt :: .b32 :: (intCodes ++ fpCodes)).contains t
/-- Codes 0, 3, 4, 7, 8 and 10 to 13 (R147, R178, R228). -/
def Fmt.termOk (t : Fmt) : Bool := ([Fmt.dflt, .i32, .i64, .n32, .n64] ++ fpCodes).contains t

def VH.plain (h : VH) : Bool := h.guard == 0 && !h.gneg

/-- Conditions 0 to 5, which alone integers take (R54). -/
def Cond.int : Cond → Bool
  | .un | .ord => false
  | _ => true

/-- Ordering rules of R52 for a load, a store or an atomic through a record or scratch. -/
def MH.ok (m : MH) (quals : List OrdQ) : Bool := quals.contains m.ordq && (m.ordq != .none || m.scope == .gang)

def loadQ : List OrdQ := [.none, .acq]
def storeQ : List OrdQ := [.none, .rel]
def atmQ : List OrdQ := [.none, .acq, .rel, .acqrel]

/-- Types of R145 for each operation; `.f32` is not a type of LRED's `.add`. -/
def ScanOp.typeOk (op : ScanOp) (t : Fmt) (scan : Bool) : Bool :=
  match op with
  | .add => t.scalarOk || (scan && t == .f32)
  | .min | .max => t.scalarOk || t == .f32
  | _ => t.scalarOk || t == .b32

/-- A rounding field is legal only on a form that rounds (R28). -/
def Rnd.onlyIf (r : Rnd) (p : Bool) : Bool := r == .dflt || p

/-- The rows of R173. -/
def mmulOk (sr : Semi) (x w : Fmt) : Bool :=
  let x := x.or .bf16
  let fp16 (t : Fmt) : Bool := t == .f16 || t == .bf16
  match sr with
  | .or => x == .n8 && w == .n8
  | .plus => (fp16 x && fp16 w) || (x == .f8 && (w == .f8 || w == .cb4)) || (x == .i8 && w == .i8) || (x == .i16 && w == .i16)
  | _ => (fp16 x && fp16 w) || (x == .f8 && (w == .f8 || w == .cb4))

/-- The pairs of R178. -/
def tileKindOk (t kind : Fmt) : Bool :=
  match kind with
  | .dflt => t.termOk
  | .n8 => t == .n8 || t == .n32
  | .i64 => t == .i32 || t == .i64
  | _ => false

/-- FMT2 of the residue instructions (R201). -/
def octetOk (f2 : Fmt) : Bool := f2 == .dflt || f2 == .n8

/-- Checks of each entry beyond what `Shape` records. DEDUCED (log 21): R28's "never rounds" is taken by mnemonic for FCVT, so a conversion that is always
exact accepts a RND. -/
def entryOk : Instr → Bool
  | .trap _ _ a => !a.isLit
  | .ret _ a => !a.isLit
  | .smov _ _ a => !a.isLit
  | .br _ o | .brc _ _ o | .call _ _ o | .cpost _ _ _ _ o | .kbr _ _ o | .kloop _ _ o => o.toNat % 4 == 0
  | .loop _ d o => o.toNat % 4 == 0 && d != 0
  | .getsr _ _ x => !x.perLane
  | .setsr h d a =>
    [SpReg.rmode, .key, .deny, .chan].contains d && (d == .key || h.plain) && (d == .key || match a with | .v _ => false | .s _ => true)
  | .wwr _ d a _ => match d with | none => true | some _ => a == .r 0
  | .sadd _ t _ _ _ | .ssub _ t _ _ _ | .smul _ t _ _ _ | .smulh _ t _ _ _ | .sshl _ t _ _ _ | .sshr _ t _ _ _
  | .smin _ t _ _ _ | .smax _ t _ _ _ | .sdiv _ _ t _ _ _ => t.scalarOk
  | .sand _ t _ _ _ | .sor _ t _ _ _ | .sxor _ t _ _ _ | .ssel _ t _ _ _ _ => t == .dflt
  | .scmp _ c t _ _ _ => c.int && t.scalarOk
  | .sld _ _ t _ _ _ | .sst _ _ t _ _ _ => t.intOk
  | .scnt _ _ t _ _ => [Fmt.dflt, .n32, .n64].contains t
  | .vmov _ t _ _ => [Fmt.dflt, .i64, .n64, .b32].contains t
  | .vadd _ t _ _ _ | .vsub _ t _ _ _ | .vmul _ t _ _ _ | .vshl _ t _ _ _ | .vshr _ t _ _ _ | .vmin _ t _ _ _
  | .vmax _ t _ _ _ | .vsat _ _ t _ _ _ | .vmad _ t _ _ _ _ => t.intOk
  | .vmulh _ t _ _ _ => t.scalarOk
  | .vand _ t _ _ _ | .vor _ t _ _ _ | .vxor _ t _ _ _ | .vsel _ t _ _ _ _ => t.rawOk
  | .vabs _ t _ _ => [Fmt.dflt, .i8, .i16, .i32, .i64].contains t
  | .vcmp _ c t _ _ _ => c.int && t.intOk
  | .vcvt _ s t _ _ => intCodes.contains s && intCodes.contains t
  | .vbit _ _ t _ _ => [Fmt.dflt, .n32, .n64].contains t
  | .fadd _ _ t _ _ _ | .fsub _ _ t _ _ _ | .fmul _ _ t _ _ _ | .ffma _ _ t _ _ _ _ | .fmin _ t _ _ _ | .fmax _ t _ _ _
  | .fsgn _ _ t _ _ | .fcmp _ _ t _ _ _ | .frint _ _ t _ _ | .fclass _ t _ _ => t.fpOk
  | .fcvt _ _ s t _ _ => (Fmt.dflt :: (intCodes ++ fpCodes)).contains s && (intCodes ++ fpCodes).contains t
      && ((s.or .f32).float || t.float)
  | .fdiv _ _ t _ _ _ | .fsqrt _ _ t _ _ => [Fmt.dflt, .f32, .f16, .bf16].contains t
  | .fpack _ r p wide _ _ x =>
    ([Fmt.dflt, .f16, .bf16, .f8].contains p) && (wide == .dflt || wide == .f32) &&
      (match x with
        | .pack _ c => p == .f8 || c == .r 0
        | .unpack _ => r == .dflt)
  | .lxch _ t _ _ _ | .lbcst _ t _ _ _ => t.rawOk
  | .lfirst _ t _ _ => [Fmt.dflt, .i32, .n64, .b32].contains t
  | .lvote _ t _ _ => t.rawOk
  | .lscan _ r op _ t _ _ => op.typeOk t true && r.onlyIf (op == .add && t == .f32)
  | .lred _ op t _ _ => op.typeOk t false
  | .lredx _ _ t _ _ b => t.termOk && (b.isNone || (t.or .f32).float)
  | .topk _ _ t _ _ _ => [Fmt.dflt, .i32, .n32, .f32, .f16, .bf16].contains t
  | .mpath _ t _ _ _ _ | .merge _ t _ _ _ _ => [Fmt.dflt, .i32, .n32, .f32].contains t
  | .vrnd _ t _ _ => [Fmt.dflt, .n32, .n64].contains t
  | .mmul _ sr x w _ _ _ => mmulOk sr x w
  | .mard _ _ t kind _ _ _ _ => tileKindOk t kind
  | .mawr _ t kind _ _ _ _ => tileKindOk t kind
  | .rfwd _ s f2 _ _ => [Fmt.dflt, .i8, .i16, .i32, .i64].contains s && octetOk f2
  | .rrev _ t f2 _ _ _ => [Fmt.dflt, .i32, .i64].contains t && octetOk f2
  | .ldb _ m t _ _ _ => m.ok loadQ && t.elemOk
  | .stb _ m t _ _ _ => m.ok storeQ && t.elemOk
  | .lds _ m t _ _ => m.ok loadQ && t.elemOk && !m.strict
  | .ldc _ m t _ _ _ => m.ok loadQ && t.elemOk && !m.strict
  | .sts _ m t _ _ => m.ok storeQ && t.elemOk && !m.strict
  | .stc _ m t _ _ _ => m.ok storeQ && t.elemOk && !m.strict
  | .atm _ m op t _ _ _ _ x => m.ok atmQ && t.scalarOk && (op == .cas || x == 0)
  | .redx _ m t _ _ _ x => m.ok storeQ && t.termOk && (x.isNone || (t.or .f32).float)
  | .xrnd _ m _ _ t _ _ _ => m.ok loadQ && t.termOk
  | .vldv _ m _ _ _ _ => m.ok loadQ && m.bm == 0
  | .vstv _ m _ _ _ _ _ => m.ok storeQ && m.bm == 0
  | .cchain _ l3 _ k _ _ _ _ _ => decide (k.toNat + (if l3 then 2 else 1) ≤ 15)
  | .kshr _ t _ _ _ => [Fmt.dflt, .i64, .n64].contains t
  | .kcmp _ t c _ _ _ => (t == .dflt || t == .i64 || t == .n64) && c.int
  | .kld _ t _ _ => t.intOk
  | _ => true

/-- Length rule of R45, operand rules of R46 and R48, and the entry's own checks. Rows without instruction words carry no
encoding rule. -/
def Instr.wf (i : Instr) : Bool :=
  match shape? i with
  | none => true
  | some sh => (sh.usesLit == sh.lit.isSome) && sh.sane && entryOk i

end Sys2Proof
end

