-- ==== Sys2Proof/Decode.lean ====
section
/-! DEFINITION. The decoder of instruction words (R41 to R66), total on any words and rejecting by name, and the encoder written
from the same tables. A decoded instruction is accepted exactly when encoding it again gives the same words, so every reserved bit
that is not zero and every LEN that disagrees with R45 is rejected; and when it is well formed (R64). -/
namespace Sys2Proof

/-- Why words are no instruction (R63 to R65). -/
inductive DecodeError where
  /-- OPC reserved or undefined for this kind of agent (R63, R65) -/
  | opcode
  /-- XOP, FMT, FMT2, RND, ORDQ, SCOPE or a condition is undefined, or an operand byte is illegal in its class -/
  | field
  /-- a reserved bit is not zero, or LEN disagrees with R45 -/
  | reserved
  /-- the instruction breaks a rule of its entry -/
  | illFormed
  deriving DecidableEq, Repr

/-- Fields of the words of one instruction as they stand (R42, R43). -/
structure Raw where
  w0 : Word
  w1 : Word
  w2 : Word
  lit : Option DWord
  deriving DecidableEq, Repr

namespace Raw
def len (x : Raw) : BitVec 2 := x.w0.extractLsb' 0 2
def stall (x : Raw) : BitVec 3 := x.w0.extractLsb' 2 3
def guard (x : Raw) : BitVec 4 := x.w0.extractLsb' 5 4
def opc (x : Raw) : BitVec 7 := x.w0.extractLsb' 9 7
def d (x : Raw) : BitVec 8 := x.w0.extractLsb' 16 8
def a (x : Raw) : BitVec 8 := x.w0.extractLsb' 24 8
def b (x : Raw) : BitVec 8 := x.w1.extractLsb' 0 8
def c (x : Raw) : BitVec 8 := x.w1.extractLsb' 8 8
def rnd (x : Raw) : BitVec 3 := x.w1.extractLsb' 16 3
def gneg (x : Raw) : Bool := x.w1.getLsbD 19
def fmt (x : Raw) : BitVec 4 := x.w1.extractLsb' 20 4
def xop (x : Raw) : Nat := (x.w1.extractLsb' 24 8).toNat
def bit2 (x : Raw) (n : Nat) : Bool := x.w2.getLsbD n
def fmt2 (x : Raw) : BitVec 4 := x.w2.extractLsb' 4 4
def vx (x : Raw) : BitVec 8 := x.w2.extractLsb' 24 8
def vy (x : Raw) : BitVec 8 := x.w2.extractLsb' 16 8
def rlen (x : Raw) : BitVec 12 := x.w2.extractLsb' 4 12
def sh (x : Raw) : SH := { stall := x.stall, lit := x.lit }
def vh (x : Raw) : VH := { stall := x.stall, guard := x.guard, gneg := x.gneg, lit := x.lit }
def mh? (x : Raw) : Option MH := do
  let sc ← Scope.ofCode (x.w2.extractLsb' 2 3).toNat
  pure { ordq := OrdQ.ofCode (x.w2.extractLsb' 0 2), scope := sc, strict := x.bit2 5, bm := x.w2.extractLsb' 20 4,
         iofs := x.w2.extractLsb' 8 12 }
def r6 (b : BitVec 8) : BitVec 6 := b.setWidth 6
def m4 (b : BitVec 8) : BitVec 4 := b.setWidth 4
def t3 (b : BitVec 8) : BitVec 3 := b.setWidth 3
def g2 (b : BitVec 8) : Gen := b.setWidth 2
def sa (x : Raw) : Option Sc := Sc.ofByte x.a
def sb (x : Raw) : Option Sc := Sc.ofByte x.b
def sc (x : Raw) : Option Sc := Sc.ofByte x.c
def ka (x : Raw) : Option KSc := KSc.ofByte x.a
def kb (x : Raw) : Option KSc := KSc.ofByte x.b
def kc (x : Raw) : Option KSc := KSc.ofByte x.c
def va (x : Raw) : Option VSrc := VSrc.of (x.bit2 0) x.a
def vb (x : Raw) : Option VSrc := VSrc.of (x.bit2 1) x.b
def vc (x : Raw) : Option VSrc := VSrc.of (x.bit2 2) x.c
def idx (x : Raw) : Option VSrc := VSrc.of (x.bit2 7) x.b
def f? (x : Raw) : Option Fmt := Fmt.ofCode x.fmt
def f2? (x : Raw) : Option Fmt := Fmt.ofCode x.fmt2
def r? (x : Raw) : Option Rnd := Rnd.ofCode x.rnd

def alu (x : Raw) (k : SH → Fmt → BitVec 6 → Sc → Sc → Instr) : Option Instr := do
  pure (k x.sh (← x.f?) (r6 x.d) (← x.sa) (← x.sb))
def lane2 (x : Raw) (k : VH → Fmt → BitVec 8 → VSrc → VSrc → Instr) : Option Instr := do
  pure (k x.vh (← x.f?) x.d (← x.va) (← x.vb))
def lane1 (x : Raw) (k : VH → Fmt → BitVec 8 → VSrc → Instr) : Option Instr := do
  pure (k x.vh (← x.f?) x.d (← x.va))
def fp2 (x : Raw) (k : VH → Rnd → Fmt → BitVec 8 → VSrc → VSrc → Instr) : Option Instr := do
  pure (k x.vh (← x.r?) (← x.f?) x.d (← x.va) (← x.vb))
def fp1 (x : Raw) (k : VH → Rnd → Fmt → BitVec 8 → VSrc → Instr) : Option Instr := do
  pure (k x.vh (← x.r?) (← x.f?) x.d (← x.va))
def k2 (x : Raw) (k : SH → BitVec 4 → KSc → KSc → Instr) : Option Instr := do
  pure (k x.sh (m4 x.d) (← x.ka) (← x.kb))
def postv (x : Raw) (k : VH → BitVec 6 → BitVec 4 → BitVec 8 → Sc → Sc → Sc → BitVec 12 → Instr) : Option Instr := do
  pure (k x.vh (r6 x.d) (m4 x.a) x.b (← x.sc) (← Sc.ofByte x.vx) (← Sc.ofByte x.vy) x.rlen)
def posts (x : Raw) (k : VH → BitVec 6 → BitVec 4 → Sc → Sc → Sc → Sc → BitVec 12 → Instr) : Option Instr := do
  pure (k x.vh (r6 x.d) (m4 x.a) (← x.sb) (← x.sc) (← Sc.ofByte x.vx) (← Sc.ofByte x.vy) x.rlen)

/-- Control, system and scalar opcodes, R58. -/
def parseScalar (x : Raw) : Option Instr :=
  match x.opc.toNat with
  | 0x00 => match x.len, x.lit with
    | 2, some v => some (.trapLit x.stall x.guard v)
    | _, _ => do pure (.trap x.stall x.guard (← x.sa))
  | 0x01 => some (.br x.stall x.w2)
  | 0x02 => do pure (.brc x.sh (← x.sa) x.w2)
  | 0x03 => some (.call x.stall (r6 x.d) x.w2)
  | 0x04 => match x.len, x.lit with
    | 2, some v => some (.retLit x.stall v)
    | _, _ => do pure (.ret x.stall (← x.sa))
  | 0x05 => some (.loop x.stall (r6 x.d) x.w2)
  | 0x06 => some (.vif x.stall (m4 x.a))
  | 0x07 => some (.velse x.stall)
  | 0x08 => some (.vend x.stall)
  | 0x09 => some (.exit x.stall)
  | 0x0A => match x.xop with
    | 0 => do pure (.rgrow x.sh (r6 x.d) (← x.sa))
    | 1 => do pure (.rshr x.sh (r6 x.d) (← x.sa))
    | 2 => do pure (.sleep x.sh (← x.sa))
    | _ => none
  | 0x0B => match x.xop with
    | 0 => do pure (.getsr x.stall (r6 x.d) (← SpReg.ofNum x.a.toNat))
    | 1 => do pure (.setsr x.vh (← SpReg.ofNum x.d.toNat) (← VSrc.of (!x.bit2 0) x.a))
    | 16 => do pure (.wsel x.sh (r6 x.d) (← x.sa))
    | 17 => do pure (.wrd x.sh (r6 x.d) (← x.sa))
    | 18 => do
      let d ← if x.d = 0 then some none else (SpReg.ofNum x.d.toNat).map some
      pure (.wwr x.sh d (← x.sa) (← x.sb))
    | 19 => do pure (.wres x.sh (← x.sa) (← x.sb))
    | _ => none
  | 0x0C => match x.len, x.lit with
    | 2, some v => some (.smovLit x.stall (r6 x.d) v)
    | _, _ => do pure (.smov x.stall (r6 x.d) (← x.sa))
  | 0x0D => do pure (.sli x.stall (r6 x.d) (← x.lit))
  | 0x0E => x.alu .sadd
  | 0x0F => x.alu .ssub
  | 0x10 => x.alu .smul
  | 0x11 => x.alu .smulh
  | 0x12 => x.alu .sand
  | 0x13 => x.alu .sor
  | 0x14 => x.alu .sxor
  | 0x15 => x.alu .sshl
  | 0x16 => x.alu .sshr
  | 0x17 => x.alu .smin
  | 0x18 => x.alu .smax
  | 0x19 => do
    let c ← Cond.ofCode x.xop
    x.alu (fun h => .scmp h c)
  | 0x1A => do pure (.ssel x.sh (← x.f?) (r6 x.d) (← x.sa) (← x.sb) (← x.sc))
  | 0x1B => do pure (.sld x.sh (x.bit2 5) (← x.f?) (r6 x.d) (m4 x.a) (← x.sb))
  | 0x1C => do pure (.sst x.sh (x.bit2 5) (← x.f?) (m4 x.a) (← x.sb) (← x.sc))
  | 0x1D => do pure (.scnt x.sh (← CntOp.ofCode x.xop) (← x.f?) (r6 x.d) (← x.sa))
  | 0x1E => match x.xop with
    | 0 => x.alu (fun h => .sdiv h false)
    | 1 => x.alu (fun h => .sdiv h true)
    | _ => none
  | _ => none

/-- Vector integer and floating-point opcodes, R59. -/
def parseVector (x : Raw) : Option Instr :=
  match x.opc.toNat with
  | 0x20 => x.lane1 .vmov
  | 0x21 => x.lane2 .vadd
  | 0x22 => x.lane2 .vsub
  | 0x23 => x.lane2 .vmul
  | 0x24 => x.lane2 .vmulh
  | 0x25 => do pure (.vmad x.vh (← x.f?) x.d (← x.va) (← x.vb) (← x.vc))
  | 0x26 => x.lane2 .vand
  | 0x27 => x.lane2 .vor
  | 0x28 => x.lane2 .vxor
  | 0x29 => x.lane2 .vshl
  | 0x2A => x.lane2 .vshr
  | 0x2B => x.lane2 .vmin
  | 0x2C => x.lane2 .vmax
  | 0x2D => x.lane1 .vabs
  | 0x2E => do pure (.vcmp x.vh (← Cond.ofCode x.xop) (← x.f?) (m4 x.d) (← x.va) (← x.vb))
  | 0x2F => do pure (.vsel x.vh (← x.f?) x.d (← x.va) (← x.vb) (m4 x.c))
  | 0x30 => do pure (.vcvt x.vh (← x.f?) (← x.f2?) x.d (← x.va))
  | 0x31 => do pure (.vbit x.vh (← BitOp.ofCode x.xop) (← x.f?) x.d (← x.va))
  | 0x32 => match x.xop with
    | 0 => x.lane2 (fun h => .vsat h false)
    | 1 => x.lane2 (fun h => .vsat h true)
    | _ => none
  | 0x38 => x.fp2 .fadd
  | 0x39 => x.fp2 .fsub
  | 0x3A => x.fp2 .fmul
  | 0x3B => do pure (.ffma x.vh (← x.r?) (← x.f?) x.d (← x.va) (← x.vb) (← x.vc))
  | 0x3C => x.lane2 .fmin
  | 0x3D => x.lane2 .fmax
  | 0x3E => match x.xop with
    | 0 => x.lane1 (fun h => .fsgn h .abs)
    | 1 => x.lane1 (fun h => .fsgn h .neg)
    | 2 => do
      let b ← x.vb
      x.lane1 (fun h => .fsgn h (.copy b))
    | _ => none
  | 0x3F => do pure (.fcmp x.vh (← Cond.ofCode x.xop) (← x.f?) (m4 x.d) (← x.va) (← x.vb))
  | 0x40 => do pure (.fcvt x.vh (← x.r?) (← x.f?) (← x.f2?) x.d (← x.va))
  | 0x41 => x.fp1 .frint
  | 0x42 => x.fp2 .fdiv
  | 0x43 => x.fp1 .fsqrt
  | 0x44 => x.lane1 .fclass
  | 0x45 => match x.xop with
    | 0 => do pure (.fpack x.vh (← x.r?) (← x.f?) (← x.f2?) x.d (← x.va) (.pack (← x.vb) (← x.sc)))
    | 1 => do pure (.fpack x.vh (← x.r?) (← x.f?) (← x.f2?) x.d (← x.va) (.unpack (← x.sb)))
    | _ => none
  | _ => none

/-- Cross-lane, select, array and residue opcodes, R60. -/
def parseCross (x : Raw) : Option Instr :=
  match x.opc.toNat with
  | 0x50 => do pure (.lxch x.vh (← x.f?) x.d (← x.va) (← x.sb))
  | 0x51 => match x.xop with
    | 0 => do pure (.lbcst x.vh (← x.f?) x.d (← x.va) (← x.sb))
    | 1 => do pure (.lfirst x.vh (← x.f?) (r6 x.d) (← x.va))
    | _ => none
  | 0x52 => match x.xop with
    | 0 => do pure (.lvote x.vh (← x.f?) (.any (r6 x.d)) (← x.va))
    | 1 => do pure (.lvote x.vh (← x.f?) (.all (r6 x.d)) (← x.va))
    | 2 => do pure (.lvote x.vh (← x.f?) (.ballot (m4 x.d)) (← x.va))
    | _ => none
  | 0x53 => do
    let op ← ScanOp.ofCode (x.xop % 8)
    pure (.lscan x.vh (← x.r?) op (x.xop / 8 == 1) (← x.f?) x.d (← x.va))
  | 0x54 =>
    if x.xop = 16 then do
      let b ← if x.bit2 8 then (x.vb).map some else some none
      pure (.lredx x.vh (← x.r?) (← x.f?) x.d (← x.va) b)
    else do
      let op ← ScanOp.ofCode x.xop
      x.lane1 (fun h => .lred h op)
  | 0x55 =>
    let d := m4 x.d
    let a := m4 x.a
    let b := m4 x.b
    match x.xop with
    | 0 => some (.lmsk x.stall (.and d a b))
    | 1 => some (.lmsk x.stall (.or d a b))
    | 2 => some (.lmsk x.stall (.xor d a b))
    | 3 => some (.lmsk x.stall (.andn d a b))
    | 4 => some (.lmsk x.stall (.not d a))
    | 5 => some (.lmsk x.stall (.mov d a))
    | 6 => some (.lmsk x.stall (.popc (r6 x.d) a))
    | _ => none
  | 0x56 => do pure (.topk x.vh (← x.r?) (← x.f?) x.d (← x.va) (← x.sb))
  | 0x57 => match x.xop with
    | 0 => do pure (.mpath x.vh (← x.f?) x.d x.a x.b (← x.sc))
    | 1 => do pure (.merge x.vh (← x.f?) x.d x.a x.b (← x.sc))
    | _ => none
  | 0x58 => do pure (.mwld x.sh (r6 x.d) (← x.sa) (x.bit2 0))
  | 0x59 => do pure (.mmul x.vh (← Semi.ofCode x.xop) (← x.f?) (← x.f2?) (t3 x.d) x.a (x.bit2 0))
  | 0x5A => do pure (.maclr x.stall (← TileFmt.ofCode x.xop) (t3 x.d))
  | 0x5B => do pure (.mard x.vh (← x.r?) (← x.f?) (← x.f2?) x.d (t3 x.a) (← x.sb) (x.w2.extractLsb' 8 6))
  | 0x5C => do pure (.mawr x.vh (← x.f?) (← x.f2?) (t3 x.d) x.a (← x.sb) (x.w2.extractLsb' 8 6))
  | 0x60 => do pure (.rfwd x.vh (← x.f?) (← x.f2?) x.d (← x.va))
  | 0x61 => do pure (.rrev x.vh (← x.f?) (← x.f2?) x.d (← x.va) (m4 x.c))
  | 0x62 => do pure (.rchk x.vh (m4 x.d) (← x.va))
  | 0x63 => do pure (.rmad x.vh x.d (← x.va) (← x.vb) (← x.vc))
  | _ => none

/-- Memory, async, event, barrier and random-number opcodes, R61. -/
def parseMem (x : Raw) : Option Instr :=
  match x.opc.toNat with
  | 0x64 => do pure (.ldb x.vh (← x.mh?) (← x.f?) x.d (m4 x.a) (← x.idx))
  | 0x65 => do pure (.stb x.vh (← x.mh?) (← x.f?) (m4 x.a) (← x.idx) x.c)
  | 0x66 => match x.xop with
    | 0 =>
      if x.bit2 6 then do pure (.bset x.sh (m4 x.d) (← x.sa) (← x.sb))
      else do pure (.lds x.vh (← x.mh?) (← x.f?) x.d (← x.idx))
    | 1 => do pure (.ldc x.vh (← x.mh?) (← x.f?) x.d (← x.sa) (← x.idx))
    | _ => none
  | 0x67 => match x.xop with
    | 0 => do pure (.sts x.vh (← x.mh?) (← x.f?) (← x.idx) x.c)
    | 1 => do pure (.stc x.vh (← x.mh?) (← x.f?) (← x.sa) (← x.idx) x.c)
    | _ => none
  | 0x68 => do pure (.atm x.vh (← x.mh?) (← AtmOp.ofCode x.xop) (← x.f?) x.d (m4 x.a) (← x.idx) x.c x.vx)
  | 0x69 => match x.xop with
    | 0 => do pure (.redx x.vh (← x.mh?) (← x.f?) (m4 x.a) (← x.idx) x.c (if x.bit2 6 then some x.vx else none))
    | 1 => do pure (.xrnd x.vh (← x.mh?) (← x.r?) (x.bit2 6) (← x.f?) x.d (m4 x.a) (← x.idx))
    | _ => none
  | 0x6A => match x.xop with
    | 0 => do pure (.vldv x.sh (← x.mh?) x.d (r6 x.vx) (m4 x.a) (← x.sb))
    | 1 => do pure (.vstv x.sh (← x.mh?) (r6 x.d) (m4 x.a) (← x.sb) x.c (← Sc.ofByte x.vx))
    | _ => none
  | 0x6B => do pure (.fence x.stall (← Scope.ofCode x.xop))
  | 0x6C => match x.xop with
    | 0 => do pure (.cpost x.vh (r6 x.d) (← x.sa) (← x.sb) x.w2)
    | 1 => x.postv .cgath
    | 2 => x.postv .cscat
    | 3 =>
      if x.bit2 1 then do pure (.ccopyTr x.vh (r6 x.d) (m4 x.a) (← x.sb) (← x.sc) (← Sc.ofByte x.vx))
      else if x.bit2 0 then x.posts .ccopyOut else x.posts .ccopy
    | 4 => x.postv (fun h => .cchain h (x.bit2 0))
    | _ => none
  | 0x6D => match x.xop with
    | 0 => do pure (.lati x.sh (← x.sa) (← x.sb))
    | 1 => do pure (.larv x.sh (← x.sa) (← x.sb) (← x.sc))
    | 2 => do pure (.lrst x.sh (← x.sa) (← x.sb))
    | _ => none
  | 0x6E => match x.xop with
    | 0 => do pure (.lwait x.sh (r6 x.d) (← x.sa) (← x.sb))
    | 1 => do pure (.pwait x.sh (x.bit2 0) (r6 x.d) (← x.sa) (← x.sb) (← x.sc))
    | _ => none
  | 0x6F => do pure (.owait x.sh (← OpCls.ofCode x.xop) (← x.sa))
  | 0x70 => do pure (.evs x.vh (x.w2.extractLsb' 8 8) (x.bit2 3) x.d (← x.va) (← x.vb) (← x.vc))
  | 0x71 => do pure (.evc x.vh (← x.va) (← x.vb))
  | 0x72 => do pure (.evr x.vh (← EvField.ofCode x.fmt2.toNat) x.d)
  | 0x73 => do pure (.evx x.vh (← x.va))
  | 0x74 => do pure (.cbar x.sh (← x.sa))
  | 0x75 => do pure (.gbar x.sh (← x.sa))
  | 0x76 => do pure (.vrnd x.vh (← x.f?) x.d (← x.va))
  | _ => none

/-- Copy-class opcodes, R62. -/
def parseCopy (x : Raw) : Option Instr :=
  match x.opc.toNat, x.xop with
  | 0x78, 0 => do pure (.kmov x.sh (m4 x.d) (← x.ka))
  | 0x78, 1 => x.k2 .kadd
  | 0x78, 2 => x.k2 .ksub
  | 0x78, 3 => x.k2 .kmul
  | 0x78, 4 => x.k2 .kshl
  | 0x78, 5 => do
    let t ← x.f?
    x.k2 (fun h => .kshr h t)
  | 0x78, 6 => x.k2 .kand
  | 0x78, 7 => do
    let t ← x.f?
    let c ← Cond.ofCode (x.w2.extractLsb' 0 3).toNat
    x.k2 (fun h => .kcmp h t c)
  | 0x79, 0 => do pure (.kbr x.sh (← x.ka) x.w2)
  | 0x79, 1 => some (.kloop x.stall (m4 x.d) x.w2)
  | 0x79, 2 => some (.kend x.stall)
  | 0x79, 3 => do pure (.karv x.sh (← x.ka) (← x.kb))
  | 0x79, 4 => do pure (.kprom x.sh (← x.ka) (← x.kb))
  | 0x7A, 0 => do pure (.kld x.stall (← x.f?) (m4 x.d) (g2 x.a))
  | 0x7A, 1 => do pure (.gset x.sh (g2 x.d) (← x.ka))
  | 0x7A, 2 => some (.gstep x.stall (m4 x.d) (g2 x.a))
  | 0x7B, 0 => do pure (.xcopy x.sh (g2 x.d) (g2 x.a) (← x.kb))
  | 0x7B, 1 => do pure (.xgath x.sh (g2 x.d) (g2 x.a) (← x.kb) (← x.kc))
  | 0x7B, 2 => do pure (.xscat x.sh (g2 x.d) (g2 x.a) (← x.kb) (← x.kc))
  | 0x7B, 3 => do pure (.xtran x.sh (← x.ka) (g2 x.b))
  | 0x7B, 4 => do pure (.xfill x.sh (g2 x.d) (← x.ka) (← x.kb))
  | 0x7B, 5 => do pure (.xcopyv x.sh (m4 x.d) (g2 x.a) (← x.kb) (g2 x.c))
  | _, _ => none

def undef (x : Raw) : Instr := .undef x.a x.d x.guard x.stall x.len

end Raw

/-- Word 0 of R42. -/
def Shape.word0 (sh : Shape) : Word :=
  (sh.a ++ sh.d ++ sh.opc ++ sh.guard ++ sh.stall ++ Shape.bit sh.usesLit ++ Shape.bit sh.ext : BitVec 32)

/-- Word 1 of R43. -/
def Shape.word1 (sh : Shape) : Word :=
  (sh.xop ++ sh.fmt ++ Shape.bit sh.gneg ++ sh.rnd ++ sh.c ++ sh.b : BitVec 32)

/-- Words of an instruction, the literal last, low word first (R41, R44). -/
def Shape.words (sh : Shape) : List Word :=
  [sh.word0] ++ (if sh.ext then [sh.word1, sh.w2] else []) ++
    (if sh.usesLit then [(sh.lit.getD 0).extractLsb' 0 32, (sh.lit.getD 0).extractLsb' 32 32] else [])

/-- The words of an instruction row; a row without words has none. UNDEF is one word (R63). -/
def encode (i : Instr) : List Word :=
  match i with
  | .undef a d g st l => [(a ++ d ++ 0x7F#7 ++ g ++ st ++ l : BitVec 32)]
  | i =>
    match shape? i with
    | none => []
    | some sh => sh.words

/-- The number of words LEN announces (R41); OPC 0x7F is one word whatever its LEN says (R63). -/
def wordCount (w0 : Word) : Nat :=
  if w0.extractLsb' 9 7 = 0x7F#7 then 1
  else match (w0.extractLsb' 0 2).toNat with
    | 0 => 1
    | 3 => 5
    | _ => 3

/-- Splits the words at an address by LEN: the fields, with absent words read as 0. -/
def rawOf (w0 w1 w2 w3 w4 : Word) : Raw :=
  match (w0.extractLsb' 0 2).toNat with
  | 0 => { w0 := w0, w1 := 0, w2 := 0, lit := none }
  | 1 => { w0 := w0, w1 := w1, w2 := w2, lit := none }
  | 2 => { w0 := w0, w1 := 0, w2 := 0, lit := some (w2 ++ w1 : BitVec 64) }
  | _ => { w0 := w0, w1 := w1, w2 := w2, lit := some (w4 ++ w3 : BitVec 64) }

/-- The checks of R64 on a parsed instruction: its words are exactly the ones read, and it is well formed. -/
def accept (i : Option Instr) (ws : List Word) : Except DecodeError Instr :=
  match i with
  | none => .error .field
  | some i =>
    if encode i ≠ ws then .error .reserved
    else if i.wf then .ok i else .error .illFormed

/-- The decoder of a gang and of the handler slot (R41 to R64), on the five words that stand at the PC. -/
def decodeGang (w0 w1 w2 w3 w4 : Word) : Except DecodeError Instr :=
  let x := rawOf w0 w1 w2 w3 w4
  let ws := [w0, w1, w2, w3, w4].take (wordCount w0)
  let o := x.opc.toNat
  if o = 0x7F then .ok x.undef
  else if o < 0x1F then accept x.parseScalar ws
  else if 0x20 ≤ o ∧ o < 0x46 then accept x.parseVector ws
  else if 0x50 ≤ o ∧ o < 0x64 then accept x.parseCross ws
  else if 0x64 ≤ o ∧ o < 0x77 then accept x.parseMem ws
  else .error .opcode

/-- The decoder of a copy processor: OPC 0x78 to 0x7B only, GUARD and GNEG zero, STALL ignored (R65). -/
def decodeCopy (w0 w1 w2 w3 w4 : Word) : Except DecodeError Instr :=
  let x := rawOf w0 w1 w2 w3 w4
  let o := x.opc.toNat
  if 0x78 ≤ o ∧ o ≤ 0x7B then accept x.parseCopy ([w0, w1, w2, w3, w4].take (wordCount w0)) else .error .opcode

/-- Word `k` of an instruction whose bits are `w`. -/
def tableWord (w k : Nat) : Word := BitVec.ofNat 32 (w / 2 ^ (32 * k))

/-- What the decoders read from a table row's bits: the gang's decoder, and the copy processor's for its own class. -/
def decodeTableWord (nbits w : Nat) : Option Instr :=
  let w := w % 2 ^ nbits
  let d := fun k => tableWord w k
  match decodeGang (d 0) (d 1) (d 2) (d 3) (d 4) with
  | .ok i => some i
  | .error _ =>
    match decodeCopy (d 0) (d 1) (d 2) (d 3) (d 4) with
    | .ok i => some i
    | .error _ => none

end Sys2Proof
end

