-- ==== Sys2Proof/Config.lean ====
section
/-! DEFINITION. What the manual fixes for this module as constants, and the free values it leaves open (opaque constants, of which
nothing can be proved). -/
namespace Sys2Proof.Config

/-- Frames of physical memory, both dies (R15). -/
def frames : Nat := 0x6000000
/-- Bytes of physical memory (R15). -/
def physBytes : Nat := frames * 4096
/-- Gang slots of a core; the handler slot has index 32 (R11). -/
def slots : Nat := 32
def handlerSlot : Nat := 32
/-- Copy contexts of a core (R249). -/
def contexts : Nat := 16
/-- Pool units of 64 KiB of a core (R10, R103). -/
def poolUnits : Nat := 48
/-- Transom slots of a core (R158). -/
def transomSlots : Nat := 512
/-- The place of the mailbox, the queue and span engines and the owner's side of the links among the cores, which are 0 to 511: they hold no translation and
no grant, and walk each time (log 85). -/
def engineCore : Nat := 512
/-- Waiter entries of a core (R282). -/
def waiters : Nat := 64

/-- A promise is the posting cycle plus at least 1; the estimate beyond that binds nothing (R260). Free value (log 10). -/
opaque promiseLead : Nat → Nat

/-- Bytes of a raw dump section, or of the side stores behind the coded regions of a KIND 2 section: the layout is firmware's (R362, R363). Free value
(log 11). -/
opaque dumpSectionBytes : Nat → Nat → Nat

/-- Those bytes, by their place in the dump area (R363). Free value (log 11). -/
opaque dumpByte : Nat → BitVec 8

/-- How a dump section other than the pool panes is coded: raw, or the region coding (R363). Free value (log 11). -/
opaque dumpCoding : Nat → Nat → Bool

/-- How long the coder of a region makes each run; any split restores the same words (R336). Free value (log 11). -/
opaque runCut : Nat → Nat

/-- Which gang a block of the register pane belongs to, which crew a row of the scratch pane, and where the words of a control block stand in it (R105,
R107). Free value (log 12). -/
opaque poolRow : Nat → Nat → Nat

/-- A row of the pool with three or more banks in error: whether it is delivered as corrected (R107). Free value (log 12). -/
opaque poolMiscorrected : Nat → Bool

/-- The bank that the corrected-error record of such a row names (R107). Free value (log 12). -/
opaque poolWrongBank : Nat → Nat

/-- The wrong data such a row delivers (R107). Free value (log 12). -/
opaque poolWrongWord : Nat → BitVec 32

/-- The words in which a crew's effect buffer holds its entries: R73 and R83 give their space and not their layout. Free value (log 12). -/
opaque effectWord : Nat → Nat → BitVec 32

/-- What `$seed`, `$phase` and `$span` read in the handler slot, which belongs to no launch (R121, R154). Free value (log 14). -/
opaque handlerLaunchReg : Nat → BitVec 64

/-- The status that a VSTV or an XCOPYV writes when its access fails: R399 and R261 give the failure and no status. Free value (log 15). -/
opaque farVstvStatus : Nat → BitVec 64

/-- The bytes that the entries of an effect log take in memory: R83 gives their space, and no layout is given. Free value (log 121). -/
opaque logByte : Nat → Nat → BitVec 8

end Sys2Proof.Config
end

