-- ==== Sys2Proof/Machine/Fp.lean ====
section
/-! DEFINITION. Number formats (R22, R23), the one rounding function (R29), special values and conversions (R30 to R32). Finite values
are exact dyadic rationals, so nothing rounds before `roundTo` does. -/
namespace Sys2Proof

/-- The exact number (−1)^neg × m × 2^e; a zero keeps its sign. -/
structure Dy where
  neg : Bool
  m : Nat
  e : Int
  deriving DecidableEq, Repr

/-- A floating-point value. A NaN keeps its sign and its fraction as the 23 bits it has in FP32 terms (R30). -/
inductive Val where
  | nan (neg : Bool) (frac : Nat) (signalling : Bool)
  | inf (neg : Bool)
  | fin (x : Dy)
  deriving DecidableEq, Repr

/-- What an operation signals (R31). -/
structure Sig where
  inv : Bool := false
  ovf : Bool := false
  deriving DecidableEq, Repr

def Sig.or (a b : Sig) : Sig := { inv := a.inv || b.inv, ovf := a.ovf || b.ovf }

/-- Layout constants of R22: exponent bits, fraction bits, bias, and the largest finite magnitude maxM × 2^maxE. -/
structure FpFmt where
  eb : Nat
  fb : Nat
  bias : Nat
  maxM : Nat
  maxE : Nat
  isF8 : Bool
  deriving DecidableEq, Repr

def fp32 : FpFmt := { eb := 8, fb := 23, bias := 127, maxM := 2 ^ 24 - 1, maxE := 104, isF8 := false }
def fp16 : FpFmt := { eb := 5, fb := 10, bias := 15, maxM := 2 ^ 11 - 1, maxE := 5, isF8 := false }
def fpBf16 : FpFmt := { eb := 8, fb := 7, bias := 127, maxM := 2 ^ 8 - 1, maxE := 120, isF8 := false }
def fpF8 : FpFmt := { eb := 4, fb := 3, bias := 8, maxM := 14, maxE := 4, isF8 := true }

def Fmt.fp : Fmt → FpFmt
  | .f16 => fp16
  | .bf16 => fpBf16
  | .f8 => fpF8
  | _ => fp32

/-- Reads an encoding (R22, R23). -/
def FpFmt.read (f : FpFmt) (x : Nat) : Val :=
  let s := x.testBit (f.eb + f.fb)
  let e := x / 2 ^ f.fb % 2 ^ f.eb
  let fr := x % 2 ^ f.fb
  if f.isF8 then
    if e = 15 ∧ fr = 7 then .nan false 0x400000 false
    else if e = 0 then .fin ⟨s, fr, 1 - (f.bias : Int) - f.fb⟩
    else .fin ⟨s, fr + 2 ^ f.fb, (e : Int) - f.bias - f.fb⟩
  else if e = 2 ^ f.eb - 1 then
    if fr = 0 then .inf s else .nan s (fr * 2 ^ (23 - f.fb)) (!fr.testBit (f.fb - 1))
  else if e = 0 then .fin ⟨s, fr, 1 - (f.bias : Int) - f.fb⟩
  else .fin ⟨s, fr + 2 ^ f.fb, (e : Int) - f.bias - f.fb⟩

def FpFmt.signBit (f : FpFmt) (neg : Bool) : Nat := if neg then 2 ^ (f.eb + f.fb) else 0

/-- The infinity of a sign; F8 has none. -/
def FpFmt.infBits (f : FpFmt) (neg : Bool) : Nat := f.signBit neg + (2 ^ f.eb - 1) * 2 ^ f.fb

/-- The largest finite magnitude with a sign. -/
def FpFmt.maxBits (f : FpFmt) (neg : Bool) : Nat :=
  f.signBit neg + (if f.isF8 then 0x7E else (2 ^ f.eb - 1) * 2 ^ f.fb - 1)

/-- The canonical NaN of R22. -/
def FpFmt.canonNan (f : FpFmt) : Nat :=
  if f.isF8 then 0x7F else (2 ^ f.eb - 1) * 2 ^ f.fb + 2 ^ (f.fb - 1)

/-- A NaN operand quieted and converted to the format (R30). -/
def FpFmt.quiet (f : FpFmt) (neg : Bool) (frac : Nat) : Nat :=
  if f.isF8 then 0x7F
  else f.signBit neg + (2 ^ f.eb - 1) * 2 ^ f.fb + ((frac ||| 0x400000) / 2 ^ (23 - f.fb))

/-- The rounding modes of R28. -/
inductive Mode where
  | rne | rtz | rdn | rup | rna
  deriving DecidableEq, Repr

/-- `$rmode.RND` (R112); its reserved codes cannot be written (R28). -/
def Mode.ofRmode (x : Nat) : Mode :=
  match x with
  | 1 => .rtz | 2 => .rdn | 3 => .rup | 4 => .rna | _ => .rne

/-- The mode an instruction rounds with (R28). -/
def Rnd.mode (r : Rnd) (rmode : Word) : Mode :=
  match r with
  | .dflt => Mode.ofRmode (rmode.extractLsb' 0 3).toNat
  | .rne => .rne | .rtz => .rtz | .rdn => .rdn | .rup => .rup | .rna => .rna

/-- Rounds m × 2^e to a multiple of 2^q and gives that multiple (steps 1 and 2 of R29). -/
def roundMag (md : Mode) (neg : Bool) (m : Nat) (e q : Int) : Nat :=
  if q ≤ e then m * 2 ^ (e - q).toNat
  else
    let s := (q - e).toNat
    let lo := m / 2 ^ s
    let rem := m % 2 ^ s
    let half := 2 ^ (s - 1)
    let up : Bool :=
      match md with
      | .rtz => false
      | .rdn => neg && rem != 0
      | .rup => !neg && rem != 0
      | .rne => decide (half < rem) || (rem == half && lo % 2 == 1)
      | .rna => decide (half ≤ rem)
    if up then lo + 1 else lo

/-- The spacing exponent of the format at the magnitude m × 2^e, never below the subnormal spacing (R29 step 1). -/
def FpFmt.ulp (f : FpFmt) (m : Nat) (e : Int) : Int :=
  max ((Nat.log2 m : Int) + e - f.fb) (1 - (f.bias : Int) - f.fb)

/-- Encodes k × 2^q where q is the spacing at that magnitude. -/
def FpFmt.pack (f : FpFmt) (neg : Bool) (k : Nat) (q : Int) : Nat :=
  let (k, q) := if k = 2 ^ (f.fb + 1) then (2 ^ f.fb, q + 1) else (k, q)
  if k < 2 ^ f.fb then f.signBit neg + k
  else f.signBit neg + (q + f.fb + f.bias).toNat * 2 ^ f.fb + (k - 2 ^ f.fb)

/-- `round` of R29 followed by the finite rows of R32: the encoding, and whether overflow is signalled. -/
def FpFmt.round (f : FpFmt) (md : Mode) (sat : Bool) (x : Dy) : Nat × Sig :=
  if x.m = 0 then (f.signBit x.neg, {})
  else
    let q := f.ulp x.m x.e
    let k := roundMag md x.neg x.m x.e q
    if decide ((f.maxE : Int) ≤ q) && decide (f.maxM < k * 2 ^ (q - f.maxE).toNat) then
      let r :=
        if f.isF8 || sat then f.maxBits x.neg
        else
          match md with
          | .rne | .rna => f.infBits x.neg
          | .rtz => f.maxBits x.neg
          | .rdn => if x.neg then f.infBits true else f.maxBits false
          | .rup => if x.neg then f.maxBits true else f.infBits false
      (r, { ovf := true })
    else (f.pack x.neg k q, {})

/-- The ±∞ row of R32. -/
def FpFmt.ofInf (f : FpFmt) (sat neg : Bool) : Nat × Sig :=
  if sat then (f.maxBits neg, {})
  else if f.isF8 then (0x7F, { inv := true })
  else (f.infBits neg, {})

/-- `deliver` of R136, with the NaN row of R32 for a NaN whose bits are at hand. -/
def FpFmt.deliver (f : FpFmt) (md : Mode) (sat : Bool) (v : Val) : Nat × Sig :=
  match v with
  | .nan n fr s => (f.quiet n fr, { inv := s })
  | .inf n => f.ofInf sat n
  | .fin x => f.round md sat x

/-- The least and the greatest value of an integer type (R26). -/
def Fmt.lo (t : Fmt) : Int := if t.signed then -(2 ^ (t.bits - 1) : Nat) else 0
def Fmt.hi (t : Fmt) : Int := if t.signed then (2 ^ (t.bits - 1) : Nat) - 1 else (2 ^ t.bits : Nat) - 1

/-- "Indefinite" of R32, as bits of the type. -/
def Fmt.indefinite (t : Fmt) : Nat := if t.signed then 2 ^ (t.bits - 1) else 2 ^ t.bits - 1

def clamp (lo hi x : Int) : Int := if x < lo then lo else if hi < x then hi else x

/-- The integer columns of R32: bits of the type, and what is signalled. -/
def Fmt.deliverInt (t : Fmt) (md : Mode) (sat : Bool) (v : Val) : Nat × Sig :=
  match v with
  | .nan _ _ _ => (if sat then 0 else t.indefinite, { inv := true })
  | .inf n => if sat then (wrapInt t.bits (if n then t.lo else t.hi), {}) else (t.indefinite, { inv := true })
  | .fin x =>
    let k := roundMag md x.neg x.m x.e 0
    let y : Int := if x.neg then -(k : Int) else k
    if t.lo ≤ y ∧ y ≤ t.hi then (wrapInt t.bits y, {})
    else if sat then (wrapInt t.bits (clamp t.lo t.hi y), {})
    else (t.indefinite, { inv := true })

/-- Integer to integer (R32): wraps, or clamps under SAT. -/
def Fmt.convInt (t : Fmt) (sat : Bool) (x : Int) : Nat := wrapInt t.bits (if sat then clamp t.lo t.hi x else x)

def Dy.ofInt (x : Int) : Dy := ⟨decide (x < 0), x.natAbs, 0⟩

/-- The integer x × 2^(−e) for a common exponent e at or below both. -/
def Dy.scaled (x : Dy) (e : Int) : Int :=
  let k : Int := (x.m * 2 ^ (x.e - e).toNat : Nat)
  if x.neg then -k else k

/-- The exact sum; an exact zero of unlike signs is +0, −0 under RDN (R29). -/
def Dy.add (md : Mode) (x y : Dy) : Dy :=
  let e := min x.e y.e
  let s := x.scaled e + y.scaled e
  if s = 0 then
    ⟨if x.m = 0 ∧ y.m = 0 ∧ x.neg = y.neg then x.neg else decide (md = .rdn), 0, 0⟩
  else ⟨decide (s < 0), s.natAbs, e⟩

/-- The exact product. Its sign is the exclusive OR of the signs, of a zero too, which R29 leaves open: DESIGN CHOICE (log 101). -/
def Dy.mul (x y : Dy) : Dy := ⟨x.neg != y.neg, x.m * y.m, x.e + y.e⟩

/-- A quotient to 64 bits beyond the divisor's, its last bit set when a remainder is left: it lies on the same side of every rounding
boundary as the exact quotient. -/
def Dy.div (x y : Dy) : Dy :=
  let k : Nat := 64 + Nat.log2 y.m
  let n := x.m * 2 ^ k
  ⟨x.neg != y.neg, 2 * (n / y.m) + (if n % y.m = 0 then 0 else 1), x.e - y.e - (k : Int) - 1⟩

/-- The integer square root of `n`, found bit by bit from bit `i` down. -/
def isqrtFrom (n : Nat) : Nat → Nat → Nat
  | 0, r => r
  | i + 1, r => isqrtFrom n i (if (r + 2 ^ i) * (r + 2 ^ i) ≤ n then r + 2 ^ i else r)

/-- A square root of a positive number to 64 bits and more, with a last bit as in `Dy.div`. -/
def Dy.sqrt (x : Dy) : Dy :=
  let odd : Nat := if x.e % 2 = 0 then 0 else 1
  let n := x.m * 2 ^ (128 + odd)
  let s := isqrtFrom n 100 0
  ⟨false, 2 * s + (if s * s = n then 0 else 1), (x.e - (odd : Int)) / 2 - 64 - 1⟩

def Dy.lt (x y : Dy) : Bool :=
  let e := min x.e y.e
  decide (x.scaled e < y.scaled e)

def Dy.eq (x y : Dy) : Bool :=
  let e := min x.e y.e
  x.scaled e == y.scaled e

/-- Numeric order of values that are no NaN, −0 equal to +0. -/
def Val.lt : Val → Val → Bool
  | .inf a, .inf b => a && !b
  | .inf a, .fin _ => a
  | .fin _, .inf b => !b
  | .fin x, .fin y => x.lt y
  | _, _ => false

def Val.eq : Val → Val → Bool
  | .inf a, .inf b => a == b
  | .fin x, .fin y => x.eq y
  | _, _ => false

def Val.isNan : Val → Bool
  | .nan _ _ _ => true
  | _ => false

def Val.isSnan : Val → Bool
  | .nan _ _ s => s
  | _ => false

def Val.neg : Val → Bool
  | .nan n _ _ => n
  | .inf n => n
  | .fin x => x.neg

def Val.isZero : Val → Bool
  | .fin x => x.m == 0
  | _ => false

/-- Order with −0 below +0, as FMIN, FMAX and TOPK rank (R137, R149). -/
def Val.below (x y : Val) : Bool :=
  x.lt y || (x.eq y && x.isZero && y.isZero && x.neg && !y.neg)

/-- A result: bits of the destination format and what was signalled. -/
abbrev FpRes := Nat × Sig

/-- The first NaN operand in operand order, quieted (R30); invalid when any operand is signalling (R31). -/
def nanOf (f : FpFmt) (l : List Val) : Option FpRes :=
  match l.find? (·.isNan) with
  | some (.nan n fr _) => some (f.quiet n fr, { inv := l.any (·.isSnan) })
  | _ => none

/-- An operation with no defined numeric result (R30). -/
def invalidRes (f : FpFmt) : FpRes := (f.canonNan, { inv := true })

/-- FADD (R137) on values of the format. -/
def fpAdd (f : FpFmt) (md : Mode) (sat : Bool) (a b : Val) : FpRes :=
  match nanOf f [a, b] with
  | some r => r
  | none =>
    match a, b with
    | .inf x, .inf y => if x = y then f.ofInf sat x else invalidRes f
    | .inf x, _ => f.ofInf sat x
    | _, .inf y => f.ofInf sat y
    | .fin x, .fin y => f.round md sat (x.add md y)
    | _, _ => invalidRes f

def Val.negate : Val → Val
  | .nan n f s => .nan n f s
  | .inf n => .inf (!n)
  | .fin x => .fin { x with neg := !x.neg }

/-- FSUB: a − b; a NaN keeps its own sign (R30). -/
def fpSub (f : FpFmt) (md : Mode) (sat : Bool) (a b : Val) : FpRes := fpAdd f md sat a b.negate

/-- FMUL (R137). -/
def fpMul (f : FpFmt) (md : Mode) (sat : Bool) (a b : Val) : FpRes :=
  match nanOf f [a, b] with
  | some r => r
  | none =>
    match a, b with
    | .fin x, .fin y => f.round md sat (x.mul y)
    | x, y => if x.isZero || y.isZero then invalidRes f else f.ofInf sat (x.neg != y.neg)

/-- FFMA (R137): one rounding of a × b + c. -/
def fpFma (f : FpFmt) (md : Mode) (sat : Bool) (a b c : Val) : FpRes :=
  match nanOf f [a, b, c] with
  | some r => r
  | none =>
    match a, b with
    | .fin x, .fin y =>
      match c with
      | .fin z => f.round md sat ((x.mul y).add md z)
      | .inf n => f.ofInf sat n
      | .nan _ _ _ => invalidRes f
    | x, y =>
      if x.isZero || y.isZero then invalidRes f
      else
        let s := x.neg != y.neg
        match c with
        | .inf n => if n = s then f.ofInf sat s else invalidRes f
        | _ => f.ofInf sat s

/-- FDIV (R137). A finite nonzero number over a zero is an exact infinity, and enters `deliver`'s ±∞ row. DESIGN CHOICE (log 101): a quotient that
is exactly zero has the exclusive OR of the signs. -/
def fpDiv (f : FpFmt) (md : Mode) (sat : Bool) (a b : Val) : FpRes :=
  match nanOf f [a, b] with
  | some r => r
  | none =>
    let s := a.neg != b.neg
    match a, b with
    | .inf _, .inf _ => invalidRes f
    | .inf _, _ => f.ofInf sat s
    | .fin _, .inf _ => (f.signBit s, {})
    | .fin x, .fin y =>
      if y.m = 0 then (if x.m = 0 then invalidRes f else f.ofInf sat s)
      else if x.m = 0 then (f.signBit s, {})
      else f.round md sat (x.div y)
    | _, _ => invalidRes f

/-- FSQRT (R137). -/
def fpSqrt (f : FpFmt) (md : Mode) (sat : Bool) (a : Val) : FpRes :=
  match nanOf f [a] with
  | some r => r
  | none =>
    match a with
    | .inf n => if n then invalidRes f else f.ofInf sat false
    | .fin x => if x.m = 0 then (f.signBit x.neg, {}) else if x.neg then invalidRes f else f.round md sat x.sqrt
    | .nan _ _ _ => invalidRes f

/-- FMIN and FMAX on encodings: the chosen operand's bits unchanged; a NaN operand follows R30 (R137). -/
def fpMinMax (f : FpFmt) (max : Bool) (a b : Nat) : FpRes :=
  let x := f.read a
  let y := f.read b
  match nanOf f [x, y] with
  | some r => r
  | none => (if x.below y != max then a else if y.below x != max then b else a, {})

/-- FRINT (R137): an integer of the format; ±∞ stays ±∞; a zero result keeps the sign. -/
def fpRint (f : FpFmt) (md : Mode) (a : Val) : FpRes :=
  match nanOf f [a] with
  | some r => r
  | none =>
    match a with
    | .inf n => (f.infBits n, {})
    | .fin x =>
      let k := roundMag md x.neg x.m x.e 0
      f.round .rtz false ⟨x.neg, k, 0⟩
    | .nan _ _ _ => invalidRes f

/-- The bit number of FCLASS (R138). -/
def fpClass (f : FpFmt) (x : Nat) : Nat :=
  match f.read x with
  | .nan _ _ s => if s then 8 else 9
  | .inf n => if n then 0 else 7
  | .fin d =>
    if d.m = 0 then (if d.neg then 3 else 4)
    else if d.m < 2 ^ f.fb then (if d.neg then 2 else 5)
    else (if d.neg then 1 else 6)

/-- A condition on integers (R54). -/
def Cond.int? (c : Cond) (a b : Int) : Bool :=
  match c with
  | .eq => a == b
  | .ne => a != b
  | .lt => decide (a < b)
  | .le => decide (a ≤ b)
  | .gt => decide (b < a)
  | .ge => decide (b ≤ a)
  | .un => false
  | .ord => true

/-- A condition on floating-point values, and whether it signals invalid (R54). -/
def Cond.fp? (c : Cond) (a b : Val) : Bool × Bool :=
  let s := a.isSnan || b.isSnan
  if a.isNan || b.isNan then
    (match c with | .ne | .un => true | _ => false, s)
  else
    (match c with
      | .eq => a.eq b
      | .ne => !a.eq b
      | .lt => a.lt b
      | .le => a.lt b || a.eq b
      | .gt => b.lt a
      | .ge => b.lt a || a.eq b
      | .un => false
      | .ord => true, s)

end Sys2Proof
end

