-- ==== Sys2Proof/Machine/Xa.lean ====
section
/-! DEFINITION. The exact accumulator of R33 to R37: its cell, its terms, the combination of cells, its readout; the extended values of
MIN and MAX tiles (R164, R175); and the counter-based random function (R38). -/
namespace Sys2Proof

/-- An XA cell: the 704-bit sum of GUARD and VALUE and the status bits; OVF is a function of the sum (R34). -/
structure Xa where
  sum : BitVec 704
  nan : Bool
  inv : Bool
  pinf : Bool
  ninf : Bool
  deriving DecidableEq, Repr

def Xa.zero : Xa := ⟨0, false, false, false, false⟩

/-- R34: the magnitude of the held sum is 2^319 or more. -/
def Xa.ovf (x : Xa) : Bool := decide (2 ^ 639 ≤ x.sum.toInt.natAbs)

/-- The integer t × 2^320 of a dyadic term. -/
def Dy.fixed (x : Dy) : Int :=
  let k : Int := roundMag .rtz false x.m (x.e + 320) 0
  if x.neg then -k else k

def Xa.addFixed (x : Xa) (t : Int) : Xa := { x with sum := x.sum + BitVec.ofInt 704 t }

/-- A term that is one value (R35). -/
def Xa.addVal (x : Xa) (v : Val) : Xa :=
  match v with
  | .nan _ _ s => { x with nan := true, inv := x.inv || s }
  | .inf n => if n then { x with ninf := true } else { x with pinf := true }
  | .fin d => x.addFixed d.fixed

/-- A term that is a pairwise product (R35). -/
def Xa.addProd (x : Xa) (a b : Val) : Xa :=
  if a.isNan || b.isNan then { x with nan := true, inv := x.inv || a.isSnan || b.isSnan }
  else
    match a, b with
    | .fin p, .fin q => x.addFixed (p.mul q).fixed
    | a, b =>
      if a.isZero || b.isZero then { x with nan := true, inv := true }
      else if a.neg != b.neg then { x with ninf := true } else { x with pinf := true }

/-- An integer term, unscaled: n adds n × 2^320 (R35). -/
def Xa.addInt (x : Xa) (n : Int) : Xa := x.addFixed (n * (2 ^ 320 : Nat))

/-- Combining two partials (R36). -/
def Xa.combine (x y : Xa) : Xa :=
  ⟨x.sum + y.sum, x.nan || y.nan, x.inv || y.inv, x.pinf || y.pinf, x.ninf || y.ninf⟩

/-- A term of type `t` read from the bits of a lane or a memory operand (R26, R35). -/
def Xa.addTerm (x : Xa) (t : Fmt) (bits : Nat) : Xa :=
  if t.float then x.addVal (t.fp.read (bits % 2 ^ t.bits))
  else x.addInt (if t.signed then signedOf t.bits bits else (bits % 2 ^ t.bits : Nat))

def Xa.addTermProd (x : Xa) (t : Fmt) (a b : Nat) : Xa :=
  x.addProd (t.fp.read (a % 2 ^ t.bits)) (t.fp.read (b % 2 ^ t.bits))

/-- The held sum as an exact number. -/
def Xa.dy (x : Xa) : Dy := ⟨decide (x.sum.toInt < 0), x.sum.toInt.natAbs, -320⟩

/-- `readout` of R37 into a floating-point or integer type. -/
def Xa.readout (x : Xa) (t : Fmt) (md : Mode) (sat : Bool) : Nat × Sig :=
  let both := x.pinf && x.ninf
  if x.nan || both then
    if t.float then (t.fp.canonNan, { inv := x.inv || both })
    else (if sat then 0 else t.indefinite, { inv := true })
  else if x.pinf || x.ninf then
    if t.float then t.fp.ofInf sat x.ninf else t.deliverInt md sat (.inf x.ninf)
  else if t.float then
    if x.ovf then t.fp.round md sat ⟨decide (x.sum.toInt < 0), 1, 319⟩
    else if x.sum = 0 then (0, {})
    else t.fp.round md sat x.dy
  else if x.ovf then t.deliverInt md sat (.fin ⟨decide (x.sum.toInt < 0), 1, 319⟩)
  else t.deliverInt md sat (.fin x.dy)

/-- The status byte of R33, with OVF as computed (R34). -/
def Xa.status (x : Xa) : Nat :=
  (if x.nan then 1 else 0) + (if x.inv then 2 else 0) + (if x.pinf then 4 else 0) + (if x.ninf then 8 else 0) +
    (if x.ovf then 16 else 0)

/-- The 128 bytes of a cell in memory (R33). -/
def Xa.bytes (x : Xa) : List Byte := leBytes 88 x.sum.toNat ++ leBytes 40 x.status

/-- Reads a cell: OVF, bits 5 to 7 of the status byte and bytes 89 to 127 are not read (R34). -/
def Xa.ofBytes (l : List Byte) : Xa :=
  let s := (l.getD 88 0).toNat
  ⟨BitVec.ofNat 704 (ofLeBytes (l.take 88)), s.testBit 0, s.testBit 1, s.testBit 2, s.testBit 3⟩

/-- The extended value a MIN or MAX entry holds (R164). -/
def Xa.ext (x : Xa) : Val :=
  if x.nan then .nan false 0x400000 false
  else if x.pinf then .inf false
  else if x.ninf then .inf true
  else .fin x.dy

/-- The cell holding an extended value; a zero of either sign is VALUE 0, INV is sticky (R164). -/
def Xa.ofExt (v : Val) (inv : Bool) : Xa :=
  match v with
  | .nan _ _ _ => ⟨0, true, inv, false, false⟩
  | .inf n => ⟨0, false, inv, !n, n⟩
  | .fin d => ⟨BitVec.ofInt 704 d.fixed, false, inv, false, false⟩

/-- The exact sum or product of MIN_PLUS and MAX_TIMES terms, and whether it sets INV (R175). -/
def extTerm (mul : Bool) (a b : Val) : Val × Bool :=
  let nan : Val := .nan false 0x400000 false
  if a.isNan || b.isNan then (nan, a.isSnan || b.isSnan)
  else if mul then
    match a, b with
    | .fin p, .fin q => (.fin (p.mul q), false)
    | a, b => if a.isZero || b.isZero then (nan, true) else (.inf (a.neg != b.neg), false)
  else
    match a, b with
    | .fin p, .fin q => (.fin (p.add .rne q), false)
    | .inf x, .inf y => if x = y then (.inf x, false) else (nan, true)
    | .inf x, _ => (.inf x, false)
    | _, .inf y => (.inf y, false)
    | _, _ => (nan, false)

/-- One term of a MIN or MAX tile combined into its entry (R175). -/
def Xa.extCombine (x : Xa) (max : Bool) (t : Val × Bool) : Xa :=
  let e := x.ext
  let inv := x.inv || t.2
  if e.isNan || t.1.isNan then Xa.ofExt (.nan false 0x400000 false) inv
  else if (if max then e.lt t.1 else t.1.lt e) then Xa.ofExt t.1 inv
  else Xa.ofExt e inv

/-- The function of R38. -/
def vrndValue (seed base x : Nat) : Nat :=
  let m64 := 2 ^ 64
  let step (z k : Nat) : Nat := ((z ^^^ (z / 2 ^ 31)) * k) % m64
  let z0 := ((base + x) % m64) ^^^ seed
  let z := step (step (step z0 0x8F3B52C16E0DA4B7) 0xB1D90A6F73C2E855) 0xE47A3D19C8B602F3
  (z / 2 ^ 32) ^^^ (z % 2 ^ 32)

end Sys2Proof
end

