-- ==== Sys2Proof/Machine/State.lean ====
section
/-! DEFINITION. The state of the whole OX7 module as plain data: memory, contexts, queues, launches, crews, gangs, cores, copy contexts,
the span engine, the links, and the model's own bookkeeping of what happens next; the reasons a step can stop; and the state after
reset. -/
namespace Sys2Proof.Machine

/-- Bytes with the poison bit of each 32-bit word, keyed by word number (R108). -/
structure Bytes where
  cells : Store 8 := []
  pois : Store 1 := []
  deriving DecidableEq, Repr

/-- One level of the mask stack (R93). -/
structure Level where
  parent : LaneMask
  cond : LaneMask
  els : Bool
  /-- the poison bits of its five control-block words: the parent's two, the condition's two, ELSE's (R108) -/
  bad : BitVec 5 := 0
  deriving DecidableEq, Repr

/-- An event record, R364 (CANCELLED and FAILED belong to the record log). -/
structure Event where
  time : DWord
  serial : DWord
  handler : BitVec 16
  prio : BitVec 8
  princ : Word
  pay : DWord
  deriving DecidableEq, Repr

/-- A lane's event and what R379 keeps with it. -/
structure LaneEv where
  ev : Event
  idx : Nat
  ch : Nat := 0
  st : Bool := false
  aborts : Nat
  deriving DecidableEq, Repr

/-- A pending fixed-latency result: for the judgement of R56 the sum of stall counts since its producer, and the cycle at which it is
readable. -/
structure Pend where
  ref : Ref
  lat : Nat
  sum : Nat
  readyAt : Nat
  deriving DecidableEq, Repr

/-- Registers a variable-latency instruction or an access in flight will write (R56). -/
structure Busy where
  id : Nat
  refs : List Ref
  /-- registers that later instructions may read but not write until the MMUL has streamed (R176) -/
  hold : List Ref := []
  deriving DecidableEq, Repr

/-- A counted operation, in issue order (R283, R284). -/
structure Op where
  id : Nat
  cls : OpCls
  done : Bool
  deriving DecidableEq, Repr

/-- Why an agent is parked (R125, R216, R162). -/
inductive Park where
  /-- the lanes that faulted, and the address after the instruction -/
  | fault (faulted : LaneMask) (next : VAddr)
  | fetch
  | refetch (slot : Nat)
  /-- by the register-deadlock rule; the barrier phase of a gang that waits at a CBAR -/
  | deadlock (phase : Option (BitVec 4))
  deriving DecidableEq, Repr

/-- A fault-queue record (R217). -/
structure FqInfo where
  ctx : Nat
  wid : DWord
  kind : Nat
  cause : Nat
  agent : Nat
  core : Nat
  pc : VAddr
  va : Nat
  deriving DecidableEq, Repr

/-- What a gang that is not ready waits for (R331). -/
inductive Wait where
  | counter (c : OpCls)
  | owait (c : OpCls) (n : Nat)
  | context
  | grow (t : Nat)
  | token
  /-- responses of far accesses (R398, R399), or commits that are under way (R303) -/
  | far
  /-- rows of its built-in posts (R120, R242) -/
  | rows
  | latch (ofs : Nat)
  /-- the phase it waits for the end of -/
  | latchPoll (ofs phase : Nat)
  | promise (till : Nat)
  | crewBarrier (phase : BitVec 4)
  | launchBarrier (phase : BitVec 4)
  | shadow
  | plane
  | refetch (slot : Nat)
  | memory
  | scoreboard
  /-- its writes at peers, before its park is reported with these records (R307) -/
  | park (p : Park) (recs : List FqInfo)
  deriving DecidableEq, Repr

inductive Stat where
  | ready
  | sleeping (till : Nat)
  | waiting (w : Wait)
  | stopped
  | parked (p : Park)
  /-- parked and released for restoration (R76, R218) -/
  | restoring
  | ended
  deriving DecidableEq, Repr

/-- Where an access goes after translation: a physical address here, or an address of a peer with the requester's leaf tag (R246). -/
inductive Loc where
  | here (pa : Nat)
  | far (peer : BitVec 6) (va : VAddr) (tag : BitVec 20)
  deriving DecidableEq, Repr

/-- A far access's response: data, or none when the access was denied or failed (R246, R399). -/
structure Arrived where
  lane : Nat
  data : Option (List Byte)
  failed : Bool
  /-- which bytes of the data are poisoned (R108) -/
  bad : List Bool := []
  /-- of a lane: where its access went, and whether the page has ORD = 1; the lane stays there (R301, R360) -/
  place : Option (Loc × Bool) := none
  /-- of a load: the address and the number of the bytes that were read -/
  span : Option (Nat × Nat) := none
  deriving DecidableEq, Repr

/-- The register copy of a shadow gang (R356): registers with their poison, `$rmode` and the mask stack. -/
structure Regs where
  s : Store 64 := []
  v : Store 32 := []
  m : Store 64 := []
  b : Store 128 := []
  sp : Store 1 := []
  vp : Store 1 := []
  mp : Store 1 := []
  bp : Store 1 := []
  n : Nat := 8
  rmode : Word := 0
  stack : List Level := []
  deriving DecidableEq, Repr

/-- What the leading gang's registers hold after an instruction, for the registers that instruction writes: per register and lane (lane 0 for a
scalar, mask or buffer register) the value and its poison bits. -/
structure Took where
  ref : Ref
  lane : Nat
  val : Nat
  bad : Nat
  deriving DecidableEq, Repr

/-- An instruction that the shadow has still to run: its address, the masks it ran under, the register count and `$rmode` after it, and, where the
shadow takes its results, what the leading gang's instruction wrote (R356). -/
structure Item where
  pc : VAddr
  dead : LaneMask
  replay : Option LaneMask
  n : Nat
  rmode : Word
  took : Option (List Took)
  deriving DecidableEq, Repr

/-- A shadow gang: its registers, the instructions it is behind, its token and whether it waits for one, and whether it has consumed poison or has
gone another way than its leading gang, and at which instruction (R356, R357). -/
structure Shadow where
  regs : Regs := {}
  queue : List Item := []
  token : Bool := false
  shuttered : Bool := false
  spoiled : Bool := false
  spoiledAt : Option Item := none
  deriving DecidableEq, Repr

/-- A gang, or the handler slot of a core while it runs (slot 32). -/
structure Gang where
  launch : Nat
  crew : Nat
  ix : Nat
  core : Nat
  slot : Nat
  age : Nat
  pc : VAddr
  s : Store 64 := []
  v : Store 32 := []
  m : Store 64 := []
  b : Store 128 := []
  sp : Store 1 := []
  vp : Store 1 := []
  /-- two poison bits for each mask register, four for each buffer register: one for each 32-bit word (R108) -/
  mp : Store 1 := []
  bp : Store 1 := []
  /-- poison of the control-block words of the PC, of the two of the base mask, and of special registers by number (R108, R109) -/
  pcBad : Bool := false
  baseBad : BitVec 2 := 0
  spBad : Store 1 := []
  /-- the row of the scheduler's gang table that holds it is uncorrectable (R359) -/
  tableBad : Bool := false
  n : Nat
  rmode : Word := 0
  dead : LaneMask := 0
  deny : LaneMask := 0
  wid : Store 64 := []
  key : Store 32 := []
  now : Store 64 := []
  base : LaneMask
  stack : List Level := []
  replay : Option LaneMask := none
  pwaitNt : Bool := false
  stat : Stat := .ready
  ops : List Op := []
  pend : List Pend := []
  busy : List Busy := []
  notBefore : Nat := 0
  since : Nat := 0
  /-- the cycle at which it parked, or at which its present wait began -/
  parkedAt : Nat := 0
  /-- the slot of its shadow gang (R356) -/
  shadowSlot : Option Nat := none
  /-- its shadow gang -/
  shadow : Option Shadow := none
  /-- this is the shadow's own copy, as it runs an instruction -/
  isShadow : Bool := false
  /-- the far accesses that its last FENCE covers are those with a smaller number (R296) -/
  fence : Nat := 0
  token : Bool := false
  /-- a copy context has been granted to the gang's waiting post (R249) -/
  granted : Bool := false
  evs : Tab LaneEv := []
  failed : List VAddr := []
  arrived : List Arrived := []
  checked : Bool := false
  /-- the instruction at the PC consumed poison in a shadowed gang: its comparison is a mismatch (R357) -/
  mismatch : Bool := false
  deriving DecidableEq, Repr

/-- A stop record (R343) with the lane codes of R339 and the launch whose context serves it (R342). -/
structure Stop where
  cause : Nat
  detail : Nat := 0
  agent : Nat
  pc : VAddr
  /-- the address of the instruction after the trapping one, where default actions L and that of SDC_MISMATCH resume -/
  next : VAddr
  replay : LaneMask
  info : DWord
  wid : DWord
  codes : Store 4 := []
  launch : Nat
  /-- the stop belongs to a gang that waits for it -/
  ofGang : Bool
  deriving DecidableEq, Repr

/-- A run of the handler program (R342): the stop it serves and the gang its window selects. -/
structure Run where
  stop : Stop
  sel : Option Nat
  resolved : Bool := false
  deriving DecidableEq, Repr

/-- A waiter entry (R282). -/
structure Waiter where
  crew : Nat
  ofs : Nat
  slots : BitVec 32
  deriving DecidableEq, Repr

/-- An MMUL that is streaming, with its crew, gang and plane (R176, R183). -/
structure Stream where
  crew : Nat
  slot : Nat
  id : Nat
  plane : Bool
  deriving DecidableEq, Repr

structure Core where
  part : Option Word := none
  cyc : Nat := 0
  en : BitVec 8 := 0xFF
  err : BitVec 32 := 0
  stops : List Stop := []
  run : Option Run := none
  waiters : List Waiter := []
  closed : Bool := false
  streams : List Stream := []
  failedBanks : List Nat := []
  corrected : List (Nat × Nat) := []
  /-- the copy context whose instruction issued last (R249) -/
  lastCtx : Nat := 15
  /-- a crew whose restore awaits a RESOLVE of AGENT 80, and the slot whose refetch faulted (R162) -/
  awaits : Option (Nat × Nat) := none
  deriving DecidableEq, Repr

/-- A barrier latch (R286): its phase and the arrivals of the current phase. -/
structure Barrier where
  phase : BitVec 4 := 0
  arrived : Nat := 0
  deriving DecidableEq, Repr

/-- The effects of R83. -/
inductive EffKind where
  | store (loc : Loc) (data : List Byte)
  | atm (loc : Loc) (op : AtmOp) (t : Fmt) (c x : DWord)
  | redx (loc : Loc) (t : Fmt) (c : DWord) (x : Option DWord)
  | xclr (loc : Loc)
  | vstv (loc : Loc) (data : List Byte) (ver : BitVec 16)
  | evs (child : Event)
  | evc (time serial : DWord)
  /-- an entry that takes its space and does nothing: an ATM or REDX lane out of bounds or denied (R83) -/
  | space
  deriving DecidableEq, Repr

/-- A key that an access is checked with, its lane and that lane's `$wid` (R117, R243). -/
structure FarKey where
  lane : Nat
  key : Word
  wid : DWord
  deriving DecidableEq, Repr

/-- One effect entry: the space it takes, its instruction and `$wid`, the keys it is checked with (R117, R246), and in SPAN mode the index of its event
(R379). -/
structure Eff where
  size : Nat
  pc : VAddr
  wid : DWord
  keys : List FarKey
  evIx : Option Nat
  kind : EffKind
  /-- its page has ORD = 1 (R301) -/
  ord : Bool := false
  /-- what an atomic on such a page has read, for the loads of a part of its word that follow (R301, log 106) -/
  seen : List (Byte × Bool) := []
  /-- its row of the pool was lost: the words that it writes are poisoned (R107, R109, log 112) -/
  bad : Bool := false
  deriving DecidableEq, Repr

/-- A weight plane that is not empty (R167): the slot image it was loaded from, its format, and its poisoned columns (R160). -/
structure Plane where
  img : Store 8
  wfmt : Nat
  slot : Nat
  bad : LaneMask
  /-- the slot has not been written since the MWLD (R161) -/
  fresh : Bool := true
  deriving DecidableEq, Repr

/-- An accumulator tile (R164): the XA cells of PLUS, MIN, MAX and OR, the octets of RES, one poison bit for each 32-bit word of an entry (R108), and VALID;
an entry not listed holds the format's initial value. -/
structure Tile where
  fmt : TileFmt := .plus
  cells : Tab Xa := []
  res : Store 64 := []
  pois : Store 1 := []
  valid : BitVec 8 := 0
  deriving DecidableEq, Repr

/-- A transom slot (R155, R160): its image, its uncorrectable symbols, the symbols that upsets have hit since, and the source of its last fill
from global memory. -/
structure Slot where
  img : Store 8 := []
  bad : Store 1 := []
  upset : Store 1 := []
  src : Option (VAddr × Word) := none
  deriving DecidableEq, Repr

structure Lease where
  core : Nat
  launch : Nat
  size : Nat
  slots : Tab Slot := []
  deriving DecidableEq, Repr

/-- A generator loaded from its descriptor (R252, R253). -/
structure GenSt where
  base : Nat
  scratch : Bool
  ext : List Nat
  stride : List Int
  idx : List Nat
  done : Bool
  deriving DecidableEq, Repr

/-- One end of a copy row (R257, R269). -/
inductive RowEnd where
  | global (va : VAddr)
  | scratch (ofs : Int)
  | slot (n : Nat)
  | fill (v : DWord)
  /-- a chained source: the records still to be read, innermost last, and the index for the next one (R258) -/
  | chain (recs : List (BitVec 128)) (level : Nat) (x : Nat)
  deriving DecidableEq, Repr

/-- A copy row in flight (R261). -/
structure Row where
  src : RowEnd
  dst : RowEnd
  len : Nat
  sectors : Nat
  /-- the lane that named it, for `$deny` and the status bitmap -/
  lane : Option Nat
  status : Option Nat
  key : Word
  wid : DWord
  pcofs : Word
  /-- the row has already failed with this ECODE (R262) -/
  fail : Option Nat
  /-- XCOPYV: destination register and expected version (R271) -/
  versioned : Option (BitVec 4 × BitVec 16)
  /-- what its source gave, or the zeros of a denied one, while its destination waits or is parked: bytes with their poison, and whether it was denied -/
  read : Option (List (Byte × Bool) × Bool) := none
  deriving DecidableEq, Repr

inductive CopyStat where
  | running
  /-- KEND executed, a built-in post, or a fault: no further instruction issues -/
  | draining
  deriving DecidableEq, Repr

/-- What a parked context waits to replay (R264, R216). -/
inductive CopyPark where
  | row | fetch | kld
  deriving DecidableEq, Repr

/-- A copy context (R251). -/
structure CopyCtx where
  crew : Nat
  launch : Nat
  program : Bool
  slot : Nat
  op : Nat
  wid : DWord
  postPc : VAddr
  pc : VAddr
  k : Store 64 := []
  kp : Store 1 := []
  gens : Tab GenSt := []
  latch : Option Nat
  key : Word
  owed : Bool
  rows : List Row := []
  arrived : List Arrived := []
  park : Option CopyPark := none
  /-- the KLD that parked was resolved as failed (R218, R268) -/
  failNext : Bool := false
  stat : CopyStat
  deriving DecidableEq, Repr

/-- Where a crew stands (R84, R88, R335). -/
inductive CrewStat where
  | running | retired | committed | requeued | saving | saved
  deriving DecidableEq, Repr

structure Crew where
  launch : Nat
  band : Nat
  inBand : Nat
  core : Nat
  stat : CrewStat := .running
  live : Nat
  scratch : Bytes := {}
  effects : List Eff := []
  /-- once its commit has begun, how many of its effects have been applied (R84, R301) -/
  applied : Option Nat := none
  inLog : Nat := 0
  rc : Nat := 0
  bar : Barrier := {}
  tiles : Tab Tile := []
  planes : Tab Plane := []
  saved : List Gang := []
  savedCtx : List CopyCtx := []
  /-- the save image's slots of the lease: a clean slot as its source record alone (R161) -/
  savedSlots : Tab Slot := []
  /-- the slots of it whose refetch at restore has had its outcome (R162) -/
  refilled : List Nat := []
  /-- stops saved with their gangs (R346) -/
  savedStops : List Stop := []
  freed : Bool := false
  afterLowest : Bool := false
  /-- the scheduler's cycle at which it began to wait to be admitted again (R88, R329) -/
  queuedAt : Nat := 0
  events : List LaneEv := []
  entry : VAddr
  deriving DecidableEq, Repr

/-- A launch packet (R324). -/
structure Packet where
  mode : Nat
  prio : Nat
  keyset : Bool
  shadow : Bool
  cosched : Bool
  rns : Bool
  crew : Nat
  band : Nat
  widths : List Nat
  counts : List Nat
  tlease : Nat
  regs : Nat
  phase : Nat
  part : Word
  scratch : Nat
  effect : Nat
  key : Word
  rnglen : Nat
  entry : VAddr
  logbase : Nat
  loglen : Nat
  seed : DWord
  rngbase : DWord
  args : List DWord
  store : Nat
  htab : Nat
  look : Nat
  deriving DecidableEq, Repr

/-- How an event of the running span stands (R380). -/
inductive Fate where
  | open_ | committed | revoked | deferred | left
  /-- its turn had passed when an EVC named it -/
  | gone
  deriving DecidableEq, Repr

structure PendEv where
  ev : Event
  aborts : Nat
  deriving DecidableEq, Repr

structure RunEv where
  ev : Event
  aborts : Nat
  idx : Nat
  fate : Fate := .open_
  /-- no handler serves it (R368) -/
  orphan : Bool
  crew : Nat
  lane : Nat
  /-- its lane is dead or its status is 1 (R380), taken from the gang when it exits -/
  bad : Bool := false
  /-- once its commit has begun, how many of its effects have been applied (R380, R301) -/
  applied : Option Nat := none
  deriving DecidableEq, Repr

/-- The span engine's state for one launch (R370, R371). -/
structure Span where
  no : Nat := 0
  pend : List PendEv := []
  run : List RunEv := []
  last : Option Event := none
  running : Bool := false
  limit : Bool := false
  deriving DecidableEq, Repr

structure Launch where
  q : Nat
  seq : Nat
  pkt : Packet
  order : Nat
  nextBand : Nat := 0
  pendingSince : Nat := 0
  blocking : Bool := false
  records : Bool := false
  overflow : Bool := false
  nextCommit : Nat := 0
  bar : Barrier := {}
  exited : Nat := 0
  closed : List Nat := []
  /-- versions that peers have answered to the commit engine -/
  checks : List Arrived := []
  span : Option Span := none
  done : Bool := false
  /-- EN of its queue has been set again since it was taken up: its sequence number is not one of the queue's any longer (R320, R327) -/
  old : Bool := false
  deriving DecidableEq, Repr

/-- An access-control entry (R322). -/
structure Acl where
  keyHi : Word
  keyLo : Word
  v : Bool
  kset : Bool
  maxPrio : Nat
  peer : BitVec 6
  qmask : DWord
  deriving DecidableEq, Repr

/-- The access-control entry recorded for packets that a peer's kick made available (R322). -/
structure KickRec where
  q : Nat
  lo : Nat
  hi : Nat
  entry : Acl
  deriving DecidableEq, Repr

/-- A leaf entry found by a walk (R210), with its page size code and the page's first virtual address. -/
structure Leaf where
  pfn : Nat
  door : BitVec 20
  size : Nat
  far : Bool
  peer : BitVec 6
  ord : Bool
  ver : Bool
  w : Bool
  deriving DecidableEq, Repr

/-- An entry of a core's micro-TLB, or, with `l2`, of the L2 TLB slice at its home core (R214). -/
structure TlbEntry where
  core : Nat
  l2 : Bool
  ctx : Nat
  page : Nat
  leaf : Leaf
  deriving DecidableEq, Repr

/-- A walk that waits for a table's memory: its cluster, its page, and the core and agent it is for (R214). -/
structure Walk where
  cluster : Nat
  ctx : Nat
  page : Nat
  core : Nat
  agent : Nat
  deriving DecidableEq, Repr

/-- A grant-cache entry of a core: 64 decisions for one key and one group of tags (R245). -/
structure GrantEntry where
  core : Nat
  ctx : Nat
  key : Word
  group : Nat
  bits : DWord
  deriving DecidableEq, Repr

structure Port where
  peer : BitVec 6 := 0
  up : Bool := false
  deriving DecidableEq, Repr

/-- What waits for a far access's response (R246, R399). -/
inductive FarWait where
  /-- a lane of a gang that waits for it, lane 64 for the scalar control thread -/
  | gang (core slot lane : Nat)
  /-- a write of a gang: its PC, work identifier and operation -/
  | write (core slot lane : Nat) (pc : VAddr) (wid : DWord) (launch op : Nat)
  /-- a piece of a copy row -/
  | row (core ctx piece : Nat)
  /-- an effect at commit, the ENTRY of its program, and whether its crew is a re-run -/
  | commit (wid : DWord) (pc entry : VAddr) (launch : Nat) (rerun : Bool)
  /-- a version that the commit engine must see before it commits (R88, R380) -/
  | check (launch ix : Nat)
  deriving DecidableEq, Repr

/-- A packet that has left for a peer, with the requester's peer number, context, principal and tag (R397). -/
structure FarReq where
  id : Nat
  peer : BitVec 6
  /-- this module's own peer number -/
  from_ : BitVec 6
  ctx : Nat
  /-- the principal that travels -/
  key : Word
  keys : List FarKey
  tag : BitVec 20
  va : VAddr
  line : VAddr
  op : FarOp
  what : FarWait
  /-- it goes to a page with ORD = 1 (R301) -/
  ord : Bool
  /-- `$cyc` of the requesting core when it was sent -/
  sent : Nat
  /-- KIND of the denial of a gang's access that waits for its answer: its instruction's (R243) -/
  kind : Bool := false
  /-- it only reads, for an operation that is buffered and that the owner is to perform only under this tag (R246) -/
  same : Bool := false
  deriving DecidableEq, Repr

/-- What this module answers a peer (R246, R398). -/
structure FarAns where
  peer : BitVec 6
  /-- the access failed at the owner -/
  failed : Bool
  /-- the access was performed -/
  ok : Bool
  tag : BitVec 20
  data : List Byte
  bad : List Bool := []
  deriving DecidableEq, Repr

/-- Words and interrupts that leave for the host (R393 to R395). -/
inductive HostMsg where
  | completion (addr : DWord) (word : DWord)
  | data (addr : DWord) (bytes : List Byte)
  /-- an MSI-X vector raised on a link -/
  | msi (link : BitVec 1) (vector : Nat)
  /-- the answer to a read of BAR0 -/
  | bar (link : BitVec 1) (ofs : Nat) (bytes : List Byte)
  deriving DecidableEq, Repr

/-- What reaches the module from outside and is no row of the opcode table: accesses of a host to BAR0 of a link (R393, R394, R401, R403),
firmware that clears V of an access-control entry (R323), and upsets of a transom symbol (R160) and of a gang-table row (R359). -/
inductive Outside where
  /-- `mem` is what the host's memory holds at HADDR when the command is applied -/
  | barWrite (link : BitVec 1) (ofs : Nat) (bytes : List Byte) (mem : List Byte)
  | barRead (link : BitVec 1) (ofs n : Nat)
  | clearAcl (entry : Nat)
  | transomUpset (core launch slot symbol : Nat)
  | tableUpset (core slot : Nat)
  deriving DecidableEq, Repr

/-- Corrected-error reports (R107, R198, R359). -/
inductive Report where
  | poolBank (core bank : Nat)
  | bankFailed (core bank : Nat)
  | residue (core slot : Nat) (pc : VAddr) (chan count : Nat)
  | scheduler (cluster : Nat)
  deriving DecidableEq, Repr

/-- A fault-queue record that waits for a free entry (R217). -/
structure FqRec where
  ctx : Nat
  bytes : List Byte
  deriving DecidableEq, Repr

/-- Who executes the next instruction. -/
inductive Agent where
  | gang (core slot : Nat)
  | copy (core ctx : Nat)
  /-- the shadow of the gang in a slot (R356) -/
  | shadow (core slot : Nat)
  deriving DecidableEq, Repr

/-- Why a step ends without a next state. -/
inductive Fault where
  /-- `exec` was asked for a gang's, handler's or copy program's instruction while no such agent is the current one. No state the module
  can be in does this; the step function never raises it. Safe: nothing is claimed of the hardware. -/
  | noAgent
  deriving DecidableEq, Repr

/-- Why a step is refused. -/
inductive Refusal where
  /-- the instruction of this mnemonic has no meaning in the model yet; raised by `exec` only. Safe. -/
  | notModelled (mnemonic : String)
  deriving DecidableEq, Repr

/-- The counters that the chapters name and that the model keeps (each 64 bits). -/
inductive Ctr where
  | crewAborts | crewReruns | rgrowWaits | rgrowParks | poolCorrected | poolUncorrected | lanesKilled
  | orderViolations | zskipGroups | zskipCycles | zgateProducts | tokenGrants | tokenWaitCycles | transomCorrected | transomRefetch
  | transomRefetchFailed | residueErr0 | residueErr1 | residueErr2 | residueErr3 | residueErr4 | residueErr5 | residueErr6
  | residueErr7 | residueFaults | residueOverflows | pageFaults | faultqFull | walks | walksMerged | utlbMiss | l2tlbMiss
  | grantHits | grantMisses
  | copyCtxWaits | copyRowsFailed | latchWaitersFull | promiseLateCount | kickRejected | launchesTaken | admitWaitCycles
  | preemptRejected | handlerFaults | schedRecoveries | evSolo | spanTruncated | eventsGathered | evDeferred | evRevoked | evAborts
  | cancelMiss | evNoHandler | injectRejected | injectLate
  deriving DecidableEq, Repr

structure State where
  -- memory
  mem : List Host.Cell := []
  memPois : Store 1 := []
  vers : Store 16 := []
  -- contexts and translation
  ctxRegs : Store 64 := []
  tlb : List TlbEntry := []
  walking : List Walk := []
  grants : List GrantEntry := []
  fqPend : List FqRec := []
  /-- bytes of records that wait for memory that is not ready, with their physical addresses, in order (R402) -/
  held : List (Nat × List Byte) := []
  -- queues, firmware, host
  qtbase : Nat := 0
  kickFrame : Option Nat := none
  /-- queues whose EN has been set since the engine last looked: their sequence numbers start at 0 (R320) -/
  qFresh : BitVec 64 := 0
  pre0 : DWord := 0
  pre1 : DWord := 0
  preCrews : List Nat := []
  preSaved : Nat := 0
  acl : Tab Acl := []
  kicks : List KickRec := []
  /-- kicks that wait for the descriptor's memory: queue, word, and the entry of a peer's (R402) -/
  kicksHeld : List (Nat × DWord × Option Acl) := []
  pool0 : Nat := 256
  pool1 : Nat := 256
  lastGrant0 : Nat := 255
  lastGrant1 : Nat := 255
  ctr : Store 64 := []
  /-- what each counter has counted at each core number and each slot identifier (R11) -/
  ctrAt : Store 64 := []
  readyBits : DWord := 0
  boot : Nat := 0
  /-- a valid image has been loaded (R403) -/
  image : Bool := false
  watts : Nat := 1600
  /-- the cycle at which P reached 0 (R406) -/
  zeroAt : Option Nat := none
  fatal : Option Nat := none
  dumpBase : Nat := 0
  dumpLen : Nat := 0
  host : List HostMsg := []
  /-- the command window and the MSI-X table of each link's BAR0, by byte offset (R393) -/
  bar0 : Store 8 := []
  bar1 : Store 8 := []
  /-- records submitted to the mailbox, which it has still to look at, in arrival order (R302, R394) -/
  submitted : List Instr := []
  /-- mailbox commands that wait for memory that is not ready, in arrival order (R302, R402) -/
  mbox : List Instr := []
  reports : List Report := []
  -- links
  ports : Tab Port := []
  /-- this module's peer number (R397) -/
  peerNo : BitVec 6 := 0
  far : List FarReq := []
  farOut : List FarAns := []
  /-- far accesses of peers that wait for memory that is not ready, in arrival order (R398, R402) -/
  farIn : List Instr := []
  -- work
  launches : Tab Launch := []
  crews : Tab Crew := []
  gangs : Tab Gang := []
  cores : Tab Core := []
  ctxs : Tab CopyCtx := []
  leases : List Lease := []
  recovered : Store 64 := []
  /-- clusters in a scheduler recovery (R359) -/
  recovering : List Nat := []
  -- the model's own fields
  outside : List Outside := []
  cur : Option Agent := none
  agenda : List Instr := []
  picks : List Agent := []
  nextId : Nat := 0
  nextLaunch : Nat := 0
  nextCrew : Nat := 0
  nextAge : Nat := 0
  turn : Nat := 0
  deriving DecidableEq, Repr

/-- What a byte of memory that nothing has written reads as (R15 gives no contents after power-on). DESIGN CHOICE (log 1). -/
def unlistedByte : Byte := 0

/-- The canonical form of a memory: addresses strictly rising, no entry equal to what an unlisted address reads as. -/
abbrev Memory.wf (m : List Host.Cell) : Prop := Store.wf (w := 8) m = true

/-- The module right after reset (R404): memory with nothing listed, every register of R238, R341, R396 and R407 zero, READY zero
(R401), no launch, no gang, `$cyc` zero; what firmware sets stands at the values of log 5, 6, 7 and 9. DESIGN CHOICE (log 132): BAR0 of either link, its MSI-X
table included, starts at 0. -/
def State.reset : State := {}

end Sys2Proof.Machine
end

