-- ==== Sys2Proof/Machine/Mem.lean ====
section
/-! DEFINITION. Memory, context registers and counters: reading and writing bytes with their poison (R108), physical memory (R15),
scratch (R219), translation (R210 to R215), door tags and grants (R236 to R246), the rings of records (R217, R244, R354), and the
effect entries of a crew applied to memory (R82, R84). -/
namespace Sys2Proof.Machine

/-- A byte and the poison bit of the word it stands in. -/
abbrev PByte := Byte × Bool

def clean (l : List Byte) : List PByte := l.map (fun b => (b, false))
def rawBytes (l : List PByte) : List Byte := l.map (·.1)
def anyBad (l : List PByte) : Bool := l.any (·.2)
/-- The natural number the bytes hold (R21). -/
def natOf (l : List PByte) : Nat := ofLeBytes (rawBytes l)

def Bytes.read (m : Bytes) (a : Nat) : Nat → List PByte
  | 0 => []
  | n + 1 => (Store.get m.cells a, Store.get m.pois (a / 4) != 0) :: Bytes.read m (a + 1) n

def cellsWrite (m : Store 8) (a : Nat) : List PByte → Store 8
  | [] => m
  | (b, _) :: r => cellsWrite (Store.set m a b) (a + 1) r

/-- Poison after a write (R108): a word written whole takes the poison of its bytes; one written in part keeps its bit. -/
def poisWrite (p : Store 1) (a : Nat) (l : List PByte) : Store 1 :=
  (List.range ((a + l.length + 3) / 4 - a / 4)).foldl
    (fun p k =>
      let w := a / 4 + k
      let lo := max a (4 * w)
      let hi := min (a + l.length) (4 * w + 4)
      let bad := anyBad ((l.drop (lo - a)).take (hi - lo))
      let old := Store.get p w != 0
      Store.set p w (if bad || (old && hi - lo != 4) then 1 else 0)) p

def Bytes.write (m : Bytes) (a : Nat) (l : List PByte) : Bytes :=
  { cells := cellsWrite m.cells a l, pois := poisWrite m.pois a l }

/-- Physical memory as bytes. -/
def State.phys (s : State) : Bytes := { cells := s.mem, pois := s.memPois }

/-- Reads physical bytes; an address beyond the module's DRAM reads as uncorrectable (log 13). -/
def State.physRead (s : State) (a n : Nat) : List PByte :=
  if a + n ≤ Config.physBytes then s.phys.read a n else List.replicate n (0, true)

/-- Writes physical bytes: the one operation that changes memory. Bytes beyond the module's DRAM are not written (log 13). -/
def State.physWrite (s : State) (a : Nat) (l : List PByte) : State :=
  if a + l.length ≤ Config.physBytes then
    { s with mem := cellsWrite s.mem a l, memPois := poisWrite s.memPois a l }
  else s

/-- A performance counter counts, for the module as a whole. -/
def State.count (s : State) (c : Ctr) (n : Nat := 1) : State :=
  { s with ctr := Store.set s.ctr c.ctorIdx (Store.get s.ctr c.ctorIdx + BitVec.ofNat 64 n) }

/-- Where an event happens: at a core, or in a slot of it. -/
inductive CtrPlace where
  | core (n : Nat)
  | slot (core n : Nat)
  deriving DecidableEq, Repr

/-- Its number: the slot identifier of 15 bits, and the core number above those (R11). -/
def CtrPlace.num : CtrPlace → Nat
  | .core n => 2 ^ 15 + n
  | .slot c n => c * 64 + n

/-- The count of an event at a place. -/
def State.counted (s : State) (p : CtrPlace) (c : Ctr) : DWord := Store.get s.ctrAt (c.ctorIdx * 2 ^ 16 + p.num)

/-- A performance counter counts at a core or a slot of a core, and for the module as a whole (R11); the engines' place (log 85) is no core. DESIGN CHOICE
(log 8): which event counts at which place. -/
def State.countAt (s : State) (p : CtrPlace) (c : Ctr) (n : Nat := 1) : State :=
  { s.count c n with
    ctrAt := if p = .core Config.engineCore then s.ctrAt else Store.set s.ctrAt (c.ctorIdx * 2 ^ 16 + p.num) (s.counted p c + BitVec.ofNat 64 n) }

/-- The slot of a gang as the place of a count. -/
def Gang.place (g : Gang) : CtrPlace := .slot g.core g.slot

/-- Context registers of R396, by context and byte offset. -/
def State.ctxReg (s : State) (ctx ofs : Nat) : DWord := Store.get s.ctxRegs (ctx * 32 + ofs / 8)
def State.setCtxReg (s : State) (ctx ofs : Nat) (v : DWord) : State :=
  { s with ctxRegs := Store.set s.ctxRegs (ctx * 32 + ofs / 8) v }

/-- READY's STACK bits of a die (R401, R402). -/
def State.dieReady (s : State) (die : Nat) : Bool := s.readyBits.extractLsb' (1 + 6 * die) 6 == 0x3F#6
def dieOfAddr (pa : Nat) : Nat := if pa / 4096 < 0x3000000 then 0 else 1
def State.memReady (s : State) (pa : Nat) : Bool := s.dieReady (dieOfAddr pa)

/- Translation -/

/-- The result of a translation: a leaf, or a fault with the CAUSE of R217. -/
inductive Xlate where
  | leaf (l : Leaf)
  | fault (cause : Nat)
  /-- the memory behind a table is not ready (R402) -/
  | wait
  deriving DecidableEq, Repr

/-- Bytes of a page of a size code (R210). -/
def pageBytes (size : Nat) : Nat :=
  match size with
  | 0 => 4096
  | 1 => 65536
  | 2 => 2097152
  | _ => 1073741824

def Leaf.ofEntry (e : Nat) : Leaf :=
  { pfn := bitField e 63 36, door := BitVec.ofNat 20 (bitField e 27 8), size := bitField e 7 6, far := e.testBit 5,
    peer := BitVec.ofNat 6 (bitField e 33 28), ord := e.testBit 3, ver := e.testBit 2, w := e.testBit 1 }

/-- A leaf entry obeys the rules of R211 at its level. -/
def leafOk (e level : Nat) : Bool :=
  let l := Leaf.ofEntry e
  let pfn := l.pfn
  (match level with
    | 2 => l.size == 3 && pfn % 2 ^ 18 == 0
    | 1 => l.size == 2 && pfn % 2 ^ 9 == 0
    | 0 => l.size == 0 || (l.size == 1 && pfn % 16 == 0)
    | _ => false) &&
    (l.far || (l.peer == 0 && decide (pfn < Config.frames)))

/-- The five-level walk of R211, from level `n − 1` down; `table` is the physical address of the level's table. DESIGN CHOICE (log 73): an entry
with V = 0 is not valid whatever its other bits hold; only a valid one can be malformed. -/
def walkFrom (s : State) (va : Nat) : Nat → Nat → Xlate
  | 0, _ => .fault 1
  | n + 1, table =>
    let r := s.physRead (table + 8 * (va / 2 ^ (12 + 9 * n) % 512)) 8
    let e := natOf r
    if !s.memReady table then .wait
    else if anyBad r then .fault 3
    else if !e.testBit 0 then .fault 0
    else if bitField e 35 34 != 0 then .fault 1
    else if e.testBit 4 then (if leafOk e n then .leaf (Leaf.ofEntry e) else .fault 1)
    else if n = 0 then .fault 1
    else walkFrom s va n (bitField e 63 36 * 4096)

def State.walk (s : State) (ctx va : Nat) : Xlate := walkFrom s va 5 (s.ctxReg ctx 0x00).toNat

/-- The home slice, within its cluster, of a page number of a size code (R214). -/
def homeSlice (size n : Nat) : Nat := ((n % 64) ^^^ (n / 64 % 64) ^^^ (n / 4096 % 64) ^^^ (n / 262144 % 64) ^^^ (21 * size % 64)) % 64

/-- An entry that holds the page of an address (R214). -/
def TlbEntry.holds (t : TlbEntry) (ctx va : Nat) : Bool := t.ctx == ctx && t.page == va / pageBytes t.leaf.size
def State.microTlb (s : State) (core ctx va : Nat) : Option TlbEntry := s.tlb.find? (fun t => !t.l2 && t.core == core && t.holds ctx va)
def State.l2Tlb (s : State) (core ctx va : Nat) : Option TlbEntry := s.tlb.find? (fun t => t.l2 && t.core / 64 == core / 64 && t.holds ctx va)

/-- A translation held in the core's micro-TLB or in its cluster's L2 TLB, else a walk (R214). -/
def State.translate (s : State) (core ctx va : Nat) : Xlate :=
  match s.microTlb core ctx va with
  | some t => .leaf t.leaf
  | none =>
    match s.l2Tlb core ctx va with
    | some t => .leaf t.leaf
    | none => s.walk ctx va

/-- Fills the micro-TLB of a core with a leaf, and with `l2` the page's home slice in its cluster (R214). -/
def State.fillTlb (s : State) (core ctx va : Nat) (l : Leaf) (l2 : Bool) : State :=
  let n := va / pageBytes l.size
  let micro : TlbEntry := { core := core, l2 := false, ctx := ctx, page := n, leaf := l }
  { s with tlb := s.tlb ++ (micro :: (if l2 then [{ micro with core := core / 64 * 64 + homeSlice l.size n, l2 := true }] else [])) }

/-- The counts of a walk that a core's access leads to (R209). -/
def State.countWalk (s : State) (core : Nat) : State :=
  ((s.countAt (.core core) .utlbMiss).countAt (.core core) .l2tlbMiss).countAt (.core core) .walks

/-- What a translation counts and fills (R209, R214). A walk that must wait (R402) is noted, and one of a page that a walk of the cluster already waits
for is merged with it. -/
def State.noteXlate (s : State) (core agent ctx va : Nat) : State :=
  match s.microTlb core ctx va with
  | some _ => s
  | none =>
    match s.l2Tlb core ctx va with
    | some t => (s.countAt (.core core) .utlbMiss).fillTlb core ctx va t.leaf false
    | none =>
      match s.walk ctx va with
      | .wait =>
        let w : Walk := { cluster := core / 64, ctx := ctx, page := va / 4096, core := core, agent := agent }
        let same (x : Walk) : Bool := x.cluster == w.cluster && x.ctx == ctx && x.page == w.page
        if s.walking.contains w then s
        else if s.walking.any same then { s.countAt (.core core) .walksMerged with walking := s.walking ++ [w] }
        else { s with walking := s.walking ++ [w] }
      | .fault _ => s.countWalk core
      | .leaf l => (s.countWalk core).fillTlb core ctx va l true

/-- Addresses, one for each distinct page among them, the first on it (R214). -/
def firstOnPage : List Nat → List Nat
  | [] => []
  | a :: l => a :: (firstOnPage l).filter (fun b => b / 4096 != a / 4096)

/-- The translations of addresses, of each distinct page once (R209, R214). -/
def State.notePages (s : State) (core agent ctx : Nat) (l : List Nat) : State := (firstOnPage l).foldl (fun s va => s.noteXlate core agent ctx va) s

/-- A WRITE fault drops the page from the buffers of the core's cluster, so that its replay walks the tables as they stand (R214 leaves open which entry
is replaced, log 64). -/
def State.dropXlate (s : State) (core ctx va : Nat) : State :=
  { s with tlb := s.tlb.filter (fun t => t.core / 64 != core / 64 || t.ctx != ctx || t.page != va / pageBytes t.leaf.size) }

/-- Where an address lies under its leaf (R212, R398). -/
def Leaf.loc (l : Leaf) (va : Nat) : Loc :=
  let a := l.pfn * 4096 + va % pageBytes l.size
  if l.far then .far l.peer (BitVec.ofNat 57 a) l.door else .here a

/- Doors -/

/-- The directory search of R240 from slot `h`, at most `n` probes; the answer is the entry's address, or `none` when a read is
uncorrectable. -/
def probe (s : State) (base size : Nat) (key : Word) : Nat → Nat → Option (Option Nat)
  | 0, _ => some none
  | n + 1, h =>
    let r := s.physRead (base + 16 * h) 16
    let d := natOf r
    if anyBad r then none
    else if !d.testBit 32 then some none
    else if d % 2 ^ 32 = key.toNat then some (some (base + 16 * h))
    else probe s base size key n ((h + 1) % size)

/-- The entry that decides for a key: its own or the default one; `none` when it is uncorrectable or malformed (R239, R240). -/
def State.grantEntry (s : State) (ctx : Nat) (key : Word) : Option Nat :=
  let base := (s.ctxReg ctx 0x08).toNat
  let glog := (s.ctxReg ctx 0x10).toNat
  let n := 2 ^ glog
  let h := key.toNat * 0x9E3779B1 % 2 ^ 32 / 2 ^ (32 - glog) % n
  match probe s base n key n h with
  | none => none
  | some o =>
    let r := s.physRead (o.getD (base + 16 * n)) 16
    let e := natOf r
    if anyBad r || !e.testBit 32 || bitField e 63 34 != 0 || bitField e 127 121 != 0 || bitField e 75 64 != 0 then none else some e

/-- The byte of an entry's bitmap that holds a tag's bit. -/
def grantByte (e : Nat) (tag : BitVec 20) : Nat := bitField e 120 64 + tag.toNat / 8

/-- The decision of R240 by the tables. -/
def State.grantTable (s : State) (ctx : Nat) (key : Word) (tag : BitVec 20) : Bool :=
  match s.grantEntry ctx key with
  | none => false
  | some e =>
    if e.testBit 33 then true
    else
      let b := s.physRead (grantByte e tag) 1
      !anyBad b && (natOf b).testBit (tag.toNat % 8)

/-- The 64 decisions of one grant-cache entry (R245). -/
def State.grantGroup (s : State) (ctx : Nat) (key : Word) (group : Nat) : DWord :=
  maskOf 64 ((List.range 64).filter (fun i => s.grantTable ctx key (BitVec.ofNat 20 (group * 64 + i))))

/-- The entry of a core's grant cache that decides for a key and a tag (R245). -/
def State.grantHit (s : State) (core ctx : Nat) (key : Word) (tag : BitVec 20) : Option GrantEntry :=
  s.grants.find? (fun g => g.core == core && g.ctx == ctx && g.key == key && g.group == tag.toNat / 64)

/-- The check of one access (R237, R240, R245). -/
def State.granted (s : State) (core ctx : Nat) (key : Word) (tag : BitVec 20) : Bool :=
  if tag = 0 then true
  else
    match s.grantHit core ctx key tag with
    | some g => g.bits.getLsbD (tag.toNat % 64)
    | none => s.grantTable ctx key tag

/-- The check must wait: it misses, and the memory behind the tables is not ready (R402). -/
def State.grantWaits (s : State) (core ctx : Nat) (key : Word) (tag : BitVec 20) : Bool :=
  tag != 0 && (s.grantHit core ctx key tag).isNone &&
    (let base := (s.ctxReg ctx 0x08).toNat
     !s.memReady base || !s.memReady (base + 16 * 2 ^ (s.ctxReg ctx 0x10).toNat) ||
      (match s.grantEntry ctx key with | some e => !e.testBit 33 && !s.memReady (grantByte e tag) | none => false))

/-- Fills an entry of a core's grant cache with the 64 decisions as the tables stand (R245). -/
def State.fillGrant (s : State) (core ctx : Nat) (key : Word) (group : Nat) : State :=
  let s' := s.countAt (.core core) .grantMisses
  { s' with grants := s'.grants ++ [{ core := core, ctx := ctx, key := key, group := group, bits := s.grantGroup ctx key group }] }

/-- What a check counts and fills (R245). -/
def State.noteGrant (s : State) (core ctx : Nat) (key : Word) (tag : BitVec 20) : State :=
  if tag = 0 ∨ s.grantWaits core ctx key tag then s
  else if (s.grantHit core ctx key tag).isSome then s.countAt (.core core) .grantHits
  else s.fillGrant core ctx key (tag.toNat / 64)

/- Rings of 32-byte records -/

/-- Whether a ring is full (R244, R354, R407). -/
def State.ringFull (s : State) (ctx len write read : Nat) : Bool :=
  (s.ctxReg ctx write).setWidth 32 - (s.ctxReg ctx read).setWidth 32 == BitVec.ofNat 32 (2 ^ (s.ctxReg ctx len).toNat)

/-- An engine's write of a record: it waits, in order, for memory that is not ready (R402). -/
def State.engineWrite (s : State) (pa : Nat) (rec : List Byte) : State :=
  if s.memReady pa then s.physWrite pa (clean rec) else { s with held := s.held ++ [(pa, rec)] }

/-- A longer write of an engine: what lies on either die goes once that die's memory is ready (R15, R402). -/
def State.engineBytes (s : State) (pa : Nat) (l : List Byte) : State :=
  let n := 0x3000000 * 4096 - pa
  if 0 < n ∧ n < l.length then (s.engineWrite pa (l.take n)).engineWrite (pa + n) (l.drop n) else s.engineWrite pa l

/-- The records that waited are written as far as their memory is ready. -/
def State.flushHeld (s : State) : State :=
  let s' := (s.held.filter (fun x => s.memReady x.1)).foldl (fun s x => s.physWrite x.1 (clean x.2)) s
  { s' with held := s.held.filter (fun x => !s.memReady x.1) }

/-- Writes a record at slot WRITE mod 2^LEN and advances WRITE. -/
def State.ringPut (s : State) (ctx base len write : Nat) (rec : List Byte) : State :=
  let w := (s.ctxReg ctx write).toNat
  let s := s.engineWrite ((s.ctxReg ctx base).toNat + 32 * (w % 2 ^ (s.ctxReg ctx len).toNat)) rec
  s.setCtxReg ctx write (BitVec.ofNat 64 ((w + 1) % 2 ^ 32))

def State.tell (s : State) (m : HostMsg) : State := { s with host := s.host ++ [m] }
/-- Raises an MSI-X vector on both links (log 74). -/
def State.interrupt (s : State) (vector : Nat) : State := (s.tell (.msi 0 vector)).tell (.msi 1 vector)

/-- A denial record (R243, R244). -/
structure Denial where
  ctx : Nat
  wid : DWord
  key : Word
  tag : BitVec 20
  core : Nat
  agent : Nat
  write : Bool
  pcofs : Word
  va : Nat
  cyc : Nat
  deriving DecidableEq, Repr

def Denial.bytes (d : Denial) : List Byte :=
  leBytes 32 (d.wid ++ d.key ++ d.tag ++ BitVec.ofNat 9 d.core ++ BitVec.ofNat 7 d.agent ++ BitVec.ofBool d.write ++ d.pcofs ++
    BitVec.ofNat 50 (d.va / 128) ++ BitVec.ofNat 41 d.cyc : BitVec 256).toNat

def State.logDenial (s : State) (d : Denial) : State :=
  if s.ringFull d.ctx 0x20 0x28 0x30 then s.setCtxReg d.ctx 0x38 (s.ctxReg d.ctx 0x38 + 1)
  else s.ringPut d.ctx 0x18 0x20 0x28 d.bytes

/-- The bytes of a fault-queue record (R217). -/
def FqInfo.bytes (f : FqInfo) : List Byte :=
  leBytes 32 (f.wid ++ 0#24 ++ BitVec.ofNat 8 f.kind ++ BitVec.ofNat 8 f.cause ++ BitVec.ofNat 8 f.agent ++ 0#7 ++
    BitVec.ofNat 9 f.core ++ 0#7 ++ f.pc ++ 0#7 ++ BitVec.ofNat 57 f.va : BitVec 256).toNat

/-- Posts a fault-queue record, or keeps it until an entry frees (R217). -/
def State.postFault (s : State) (f : FqInfo) : State :=
  let s := s.countAt (.core f.core) .pageFaults
  if s.ringFull f.ctx 0x88 0x90 0x98 then { s.countAt (.core f.core) .faultqFull with fqPend := s.fqPend ++ [⟨f.ctx, f.bytes⟩] }
  else (s.ringPut f.ctx 0x80 0x88 0x90 f.bytes).interrupt 1

/- Effects -/

/-- The bits an atomic reads as its type (R227). -/
def atmVal (t : Fmt) (x : Nat) : Int := if t.signed then signedOf t.bits x else (x % 2 ^ t.bits : Nat)

/-- The new bits of an atomic step (R227). -/
def atmNew (op : AtmOp) (t : Fmt) (old c x : Nat) : Nat :=
  let w := 2 ^ t.bits
  match op with
  | .add => (old + c) % w
  | .min => (if atmVal t old ≤ atmVal t c then old else c) % w
  | .max => (if atmVal t c ≤ atmVal t old then old else c) % w
  | .and => (old &&& c) % w
  | .or => (old ||| c) % w
  | .xor => (old ^^^ c) % w
  | .xchg => c % w
  | .cas => (if old % w = x % w then c else old) % w

/-- What an atomic step writes over the bytes `r`: nothing on a poisoned word, unless it is `.xchg` (R227). -/
def atmBytes (r : List PByte) (op : AtmOp) (t : Fmt) (c x : Nat) : Option (List PByte) :=
  if anyBad r && op != .xchg then none else some (clean (leBytes t.bytes (atmNew op t (natOf r) c x)))

def Bytes.atm (m : Bytes) (a : Nat) (op : AtmOp) (t : Fmt) (c x : Nat) : Bytes :=
  match atmBytes (m.read a t.bytes) op t c x with
  | some l => m.write a l
  | none => m

/-- A REDX term added to the cell in the bytes `r` (R228); a poisoned cell stays poisoned. -/
def redxBytes (r : List PByte) (t : Fmt) (c : Nat) (x : Option Nat) : List PByte :=
  let cell := Xa.ofBytes (rawBytes r)
  let cell := match x with | none => cell.addTerm t c | some y => cell.addTermProd t c y
  (cell.bytes.zip (r.map (·.2)))

def Bytes.redx (m : Bytes) (a : Nat) (t : Fmt) (c : Nat) (x : Option Nat) : Bytes := m.write a (redxBytes (m.read a 128) t c x)

/-- A cell in its reset state, written whole (R33, R228). -/
def Bytes.xclr (m : Bytes) (a : Nat) : Bytes := m.write a (clean Xa.zero.bytes)

/-- A local address of a location. -/
def Loc.here? : Loc → Option Nat
  | .here a => some a
  | .far _ _ _ => none

/-- An address at a given peer. -/
def Loc.farAt? (p : BitVec 6) : Loc → Option Nat
  | .here _ => none
  | .far q a _ => if p = q then some a.toNat else none

/-- The data of an entry; those of a lost one are poisoned (log 112). -/
def Eff.data (e : Eff) (d : List Byte) : List PByte := d.map (fun b => (b, e.bad))

/-- A buffered effect applied to the bytes that `sel` places (R82, R84). -/
def Eff.onBytes (sel : Loc → Option Nat) (m : Bytes) (e : Eff) : Bytes :=
  match e.kind with
  | .store l d => match sel l with | some a => m.write a (e.data d) | none => m
  | .atm l op t c x => match sel l with | some a => m.atm a op t c.toNat x.toNat | none => m
  | .redx l t c x => match sel l with | some a => m.redx a t c.toNat (x.map (·.toNat)) | none => m
  | .xclr l => match sel l with | some a => m.xclr a | none => m
  | .vstv l d _ => match sel l with | some a => m.write a (e.data d) | none => m
  | .evs _ => m
  | .evc _ _ => m
  | .space => m

/-- The crew's view of memory: its buffered effects over memory (R82). DESIGN CHOICE (log 75): a load after a buffered ATM or REDX sees the operation
applied anew to memory as it stands at the load, not a value kept from the ATM's issue. -/
def viewBytes (sel : Loc → Option Nat) (m : Bytes) (l : List Eff) : Bytes := l.foldl (fun m e => e.onBytes sel m) m

/-- The version of a line in the crew's view: what its youngest buffered VSTV of the line produced, else `v` (R229). -/
def viewVer (sel : Loc → Option Nat) (v : BitVec 16) (l : List Eff) (a : Nat) : BitVec 16 :=
  l.foldl (fun v e => match e.kind with
    | .vstv loc _ x => if sel loc = some a then x + 1 else v
    | _ => v) v

/-- The version of a physical line (R229). -/
def State.verOf (s : State) (pa : Nat) : BitVec 16 := Store.get s.vers (pa / 128)
def State.setVer (s : State) (pa : Nat) (v : BitVec 16) : State := { s with vers := Store.set s.vers (pa / 128) v }

end Sys2Proof.Machine
end

