-- ==== Sys2Proof/Machine/Peek.lean ====
section
/-! DEFINITION. Instruction fetch (R66, R204): the words at an address, each translated, none of them door-checked (R237), and what stands there for a
gang and for a copy context; faults of lanes and pages (R216, R217); and the masks of a gang, up to the active mask of an instruction (R5, R93). -/
namespace Sys2Proof.Machine

/-- One lane's translation fault: its page, its address and the CAUSE of R217. -/
structure LaneFault where
  lane : Nat
  page : Nat
  va : Nat
  cause : Nat
  deriving DecidableEq, Repr

/-- One fault for each page, with the lowest faulting lane address on it (R216, R217). -/
def faultPages (l : List LaneFault) : List LaneFault :=
  l.foldl (fun acc f =>
    if acc.any (fun a => a.page == f.page) then
      acc.map (fun a => if a.page == f.page && decide (f.va < a.va) then { a with va := f.va } else a)
    else acc ++ [f]) []

/-- Address-space context of a launch: that of its queue (R395). -/
def State.ctxOf (_ : State) (launch : Nat) : Nat := launch % 64 / 4

/- Fetch -/

/-- What a fetch yields. -/
inductive Fetched where
  | words (l : List Word)
  | fault (f : LaneFault)
  /-- the memory behind a word is not ready (R402) -/
  | wait
  deriving DecidableEq, Repr

/-- One word. A FAR leaf cannot be fetched from: it parks the agent (log 31). -/
def State.fetchWord (s : State) (core ctx : Nat) (va : VAddr) : Except Fetched Word :=
  let a := va.toNat
  match s.translate core ctx a with
  | .fault c => .error (.fault { lane := 0, page := a - a % 4096, va := a, cause := c })
  | .wait => .error .wait
  | .leaf l =>
    match l.loc a with
    | .far _ _ _ => .error (.fault { lane := 0, page := a - a % 4096, va := a, cause := 0 })
    | .here pa => if s.memReady pa then .ok (BitVec.ofNat 32 (natOf (s.physRead pa 4))) else .error .wait

/-- What the fetch of `n` words at an agent's PC counts and fills (R209, R214, log 93). -/
def State.noteFetch (s : State) (core agent launch : Nat) (pc : VAddr) (n : Nat) : State :=
  s.notePages core agent (s.ctxOf launch) [pc.toNat, (pc + BitVec.ofNat 57 (4 * (n - 1))).toNat]

/-- `n` further words from `va` on. -/
def State.fetchMore (s : State) (core ctx : Nat) : Nat → VAddr → Except Fetched (List Word)
  | 0, _ => .ok []
  | n + 1, va =>
    match s.fetchWord core ctx va with
    | .error e => .error e
    | .ok w =>
      match s.fetchMore core ctx n (va + 4) with
      | .error e => .error e
      | .ok l => .ok (w :: l)

/-- The words of the instruction at `va`, as many as its LEN announces. -/
def State.fetch (s : State) (core ctx : Nat) (va : VAddr) : Fetched :=
  match s.fetchWord core ctx va with
  | .error e => e
  | .ok w =>
    match s.fetchMore core ctx (wordCount w - 1) (va + 4) with
    | .error e => e
    | .ok l => .words (w :: l)

/-- What stands at an agent's PC. -/
inductive AtPc where
  | instr (i : Instr)
  /-- words that are no instruction -/
  | illegal (l : List Word)
  | fault (f : LaneFault)
  | wait
  deriving DecidableEq, Repr

def decodeWords (dec : Word → Word → Word → Word → Word → Except DecodeError Instr) (f : Fetched) : AtPc :=
  match f with
  | .words l =>
    match dec (l.getD 0 0) (l.getD 1 0) (l.getD 2 0) (l.getD 3 0) (l.getD 4 0) with
    | .ok i => .instr i
    | .error _ => .illegal l
  | .fault f => .fault f
  | .wait => .wait

def State.atPc (s : State) (g : Gang) (pc : VAddr) : AtPc := decodeWords decodeGang (s.fetch g.core (s.ctxOf g.launch) pc)
def State.atGang (s : State) (g : Gang) : AtPc := s.atPc g g.pc
def State.atCopy (s : State) (core : Nat) (c : CopyCtx) : AtPc := decodeWords decodeCopy (s.fetch core (s.ctxOf c.launch) c.pc)

/- Masks -/

/-- The mask in force (R93). -/
def Gang.top (g : Gang) : LaneMask :=
  match g.stack with
  | [] => g.base
  | l :: _ => l.parent &&& (if l.els then ~~~ l.cond else l.cond)

/-- `live(m)` of R5. -/
def Gang.live (g : Gang) (m : LaneMask) : LaneMask := m &&& ~~~ g.dead
/-- `$em` (R111). -/
def Gang.em (g : Gang) : LaneMask := g.live g.top

def Gang.mGet (g : Gang) (n : Nat) : LaneMask := if n = 0 then BitVec.allOnes 64 else Store.get g.m n

/-- The guard mask after GNEG (R3, R42). -/
def Gang.guard (g : Gang) (sh : Shape) : LaneMask :=
  if sh.gneg then ~~~ (g.mGet sh.guard.toNat) else g.mGet sh.guard.toNat

/-- The active mask: the replay mask of a resumed instruction, else the top of the mask stack under the guard (R5, R216, R349). -/
def Gang.active (g : Gang) (sh : Shape) : LaneMask := g.replay.getD (g.top &&& g.guard sh)

/-- GUARD and GNEG of words that do not decode, and their OPC (R42, R43, R64). -/
def rawShape (l : List Word) : Shape :=
  let w0 := l.getD 0 0
  { opc := w0.extractLsb' 9 7, ext := w0.getLsbD 0, guard := w0.extractLsb' 5 4, gneg := w0.getLsbD 0 && (l.getD 1 0).getLsbD 19 }

/-- An MMUL with a live active lane, which is what takes up a token (R184). -/
def Gang.wantsToken (g : Gang) (sh : Shape) : Bool := sh.opc == 0x59#7 && g.live (g.active sh) != 0

end Sys2Proof.Machine
end

