-- ==== Sys2Proof/Machine/Ops.lean ====
section
/-! DEFINITION. The shared operations over gangs, crews, cores and launches; taking an exception (R337 to R346) as one operation,
`State.takeStop`, with the default actions, lane death, error aborts and aborts it may lead to; and the return from one,
`Gang.resume`. -/
namespace Sys2Proof.Machine

/-- Nothing but reset serves work after a fatal error (R361). -/
def alive (s : State) (f : State → State) : Host.Outcome State Fault Refusal := .next (if s.fatal.isSome then s else f s)

/- Access to the tables -/

/-- The slot identifier of R11. -/
def gkey (core slot : Nat) : Nat := core * 64 + slot

def State.gang? (s : State) (core slot : Nat) : Option Gang := Tab.get? s.gangs (gkey core slot)
def State.putGang (s : State) (g : Gang) : State := { s with gangs := Tab.set s.gangs (gkey g.core g.slot) g }
def State.dropGang (s : State) (core slot : Nat) : State := { s with gangs := Tab.erase s.gangs (gkey core slot) }
def State.core (s : State) (c : Nat) : Core := (Tab.get? s.cores c).getD {}
def State.putCore (s : State) (c : Nat) (x : Core) : State := { s with cores := Tab.set s.cores c x }
def State.modCore (s : State) (c : Nat) (f : Core → Core) : State := s.putCore c (f (s.core c))
def State.crew? (s : State) (k : Nat) : Option Crew := Tab.get? s.crews k
/-- The core of a crew. -/
def State.coreOfCrew (s : State) (k : Nat) : Nat := ((s.crew? k).map (·.core)).getD 0
def State.putCrew (s : State) (k : Nat) (x : Crew) : State := { s with crews := Tab.set s.crews k x }
def State.modCrew (s : State) (k : Nat) (f : Crew → Crew) : State :=
  match s.crew? k with
  | some x => s.putCrew k (f x)
  | none => s
def State.launch? (s : State) (k : Nat) : Option Launch := Tab.get? s.launches k
def State.putLaunch (s : State) (k : Nat) (x : Launch) : State := { s with launches := Tab.set s.launches k x }
def State.modLaunch (s : State) (k : Nat) (f : Launch → Launch) : State :=
  match s.launch? k with
  | some x => s.putLaunch k (f x)
  | none => s
def State.modGang (s : State) (core slot : Nat) (f : Gang → Gang) : State :=
  match s.gang? core slot with
  | some g => s.putGang (f g)
  | none => s

def ckey (core ctx : Nat) : Nat := core * 16 + ctx
def State.ctx? (s : State) (core ctx : Nat) : Option CopyCtx := Tab.get? s.ctxs (ckey core ctx)
def State.putCtx (s : State) (core ctx : Nat) (c : CopyCtx) : State := { s with ctxs := Tab.set s.ctxs (ckey core ctx) c }
def State.dropCtx (s : State) (core ctx : Nat) : State := { s with ctxs := Tab.erase s.ctxs (ckey core ctx) }

/-- Every gang, in slot-identifier order. -/
def State.gangList (s : State) : List Gang := s.gangs.map (·.2)
def State.coreGangs (s : State) (core : Nat) : List Gang := s.gangList.filter (fun g => g.core == core && g.slot != 32)
def State.crewGangs (s : State) (crew : Nat) : List Gang := s.gangList.filter (fun g => g.crew == crew && g.slot != 32)

/-- `$cyc` of a core (R111). -/
def State.cyc (s : State) (core : Nat) : Nat := (s.core core).cyc
/-- The scheduler's own cycle count: `$cyc` of core 0 (log 2). -/
def State.clock (s : State) : Nat := s.cyc 0

/-- A launch is keyed by its place in the order of take-up, the sequence number of its packet and its queue, which its fault records name even once it has
completed (R354, R355). -/
def launchKeyOf (n seq q : Nat) : Nat := (n * 2 ^ 48 + seq % 2 ^ 48) * 64 + q
def launchQueue (launch : Nat) : Nat := launch % 64
def launchSeq (launch : Nat) : Nat := launch / 64 % 2 ^ 48
def Gang.isHandler (g : Gang) : Bool := g.slot == Config.handlerSlot

/-- MODE of a gang's launch; the handler slot follows FREE-mode rules (R342). -/
def State.modeOf (s : State) (g : Gang) : Nat := if g.isHandler then 0 else ((s.launch? g.launch).map (·.pkt.mode)).getD 0
def State.crewOf (s : State) (g : Gang) : Option Crew := if g.isHandler then none else s.crew? g.crew
def State.rcOf (s : State) (g : Gang) : Nat := ((s.crewOf g).map (·.rc)).getD 0

/-- Errors are handled as in FREE mode in FREE launches and in re-runs (R353). -/
def State.errsAsFree (s : State) (g : Gang) : Bool := s.modeOf g == 0 || s.rcOf g != 0

def Gang.widOf (g : Gang) (lane : Nat) : DWord := Store.get g.wid lane
def Gang.keyOf (g : Gang) (lane : Nat) : Word := Store.get g.key lane
/-- The gang's lowest live lane, or lane 0 (R343). -/
def Gang.lowLive (g : Gang) : Nat := ((bitsOn (g.live g.base)).head?).getD 0

/-- Makes a gang ready; its wait age goes on (R331). -/
def Gang.ready (g : Gang) : Gang := { g with stat := .ready }
/-- Makes a gang ready after SLEEP, a latch or barrier wait, or a restore: its wait age restarts (R331). -/
def State.anew (s : State) (g : Gang) : Gang := { g with stat := .ready, since := s.cyc g.core }

/-- Wakes every gang that satisfies `p`. -/
def State.wake (s : State) (p : Gang → Bool) : State :=
  { s with gangs := s.gangs.map (fun x => if p x.2 then (x.1, x.2.ready) else x) }
/-- Wakes every gang that satisfies `p` from a latch or barrier wait. -/
def State.wakeAnew (s : State) (p : Gang → Bool) : State :=
  { s with gangs := s.gangs.map (fun x => if p x.2 then (x.1, s.anew x.2) else x) }

/- Occupancy -/

/-- A crew that occupies slots, panes or scratch of its core (R74, R84). -/
def Crew.resident (c : Crew) : Bool :=
  match c.stat with
  | .running | .saving => true
  | .retired => !c.freed
  | _ => false

def State.coreCrews (s : State) (core : Nat) : List (Nat × Crew) := s.crews.filter (fun x => x.2.core == core && x.2.resident)

/-- A core that its last crew has left forgets its partition word (R104). -/
def State.settle (s : State) (core : Nat) : State :=
  if (s.coreCrews core).isEmpty then s.modCore core (fun c => { c with part := none }) else s

/-- A lease that no crew of its launch uses after a vacate is released (R158). -/
def State.dropLease (s : State) (core launch : Nat) : State :=
  if (s.coreCrews core).any (fun x => x.2.launch == launch) then s
  else { s with leases := s.leases.filter (fun l => !(l.core == core && l.launch == launch)) }

/- Waiter entries and barriers -/

/-- Removes slots from the waiter entries of a core. -/
def Core.forgetWaiters (c : Core) (crew : Nat) : Core := { c with waiters := c.waiters.filter (fun w => w.crew != crew) }

/-- RELOAD of the launch barrier: gangs of the launch that have not executed EXIT (R286). -/
def Packet.crewCount (p : Packet) : Nat := (p.counts.drop 2).foldl (· * ·) 1
def Packet.gangCount (p : Packet) : Nat := p.crewCount * p.crew
def Packet.bandCount (p : Packet) : Nat := (p.counts.drop 3).foldl (· * ·) 1

def Barrier.next (b : Barrier) : Barrier := { phase := b.phase + 1, arrived := 0 }

/-- The crew barrier completes when every gang that has not exited has arrived (R286, R92). -/
def State.crewBarCheck (s : State) (crew : Nat) : State :=
  match s.crew? crew with
  | some c =>
    if c.bar.arrived != 0 && decide (c.live ≤ c.bar.arrived) then
      (s.putCrew crew { c with bar := c.bar.next }).wakeAnew (fun g => g.crew == crew && g.stat == .waiting (.crewBarrier c.bar.phase))
    else s
  | none => s

def State.launchBarCheck (s : State) (launch : Nat) : State :=
  match s.launch? launch with
  | some l =>
    if l.bar.arrived != 0 && decide (l.pkt.gangCount - l.exited ≤ l.bar.arrived) then
      (s.putLaunch launch { l with bar := l.bar.next }).wakeAnew
        (fun g => g.launch == launch && g.stat == .waiting (.launchBarrier l.bar.phase))
    else s
  | none => s

/- Far accesses of a gang -/

def FarWait.isOf (core slot : Nat) : FarWait → Bool
  | .gang c g _ | .write c g _ _ _ _ _ => c == core && g == slot
  | .row _ _ _ | .commit _ _ _ _ _ | .check _ _ => false

def State.farOf (s : State) (core slot : Nat) : Bool := s.far.any (fun f => f.what.isOf core slot)

/-- The launch whose commit an access belongs to. -/
def FarWait.commitOf : FarWait → Option Nat
  | .commit _ _ _ n _ => some n
  | _ => none

/-- A commit is under way: some of its effects have been applied and others not, or a peer has still to answer one (R303). -/
def State.committing (s : State) : Bool :=
  s.far.any (fun f => f.what.commitOf.isSome) || s.crews.any (fun x => x.2.applied.isSome) ||
    s.launches.any (fun l => (l.2.span.map (fun p => p.run.any (fun e => e.applied.isSome))).getD false)

/-- How the pieces of a refetch are numbered among a launch's checks: by core, agent, slot and piece (R162). -/
def refetchBase : Nat := 2 ^ 30
def refetchIx (core agent slot piece : Nat) : Nat := refetchBase + ((core * 128 + agent) * 512 + slot) * 16 + piece
def refetchCore (ix : Nat) : Nat := (ix - refetchBase) / 1048576
def refetchAgent (ix : Nat) : Nat := (ix - refetchBase) / 8192 % 128

/-- A response that only the given slots of a core wait for, or a context of a crew that has left it, or a slot's refetch. A write of a handler's run that is
ended stays, as it does after EXIT: a fault of it is still reported (R346, R355, R360). -/
def FarWait.ofLeft (core : Nat) (slots ctxs : List Nat) : FarWait → Bool
  | .row c i _ => c == core && ctxs.contains i
  | .check _ ix => decide (refetchBase ≤ ix) && refetchCore ix == core && slots.contains (refetchAgent ix)
  | .write c t _ _ _ _ _ => c == core && slots.contains t && t != Config.handlerSlot
  | w => slots.any (fun t => w.isOf core t)

/-- Nothing waits any longer for the responses of slots and contexts that a crew has left. -/
def State.forgetFar (s : State) (core : Nat) (slots ctxs : List Nat) : State :=
  { s with
    far := s.far.filter (fun f => !f.what.ofLeft core slots ctxs)
    launches := s.launches.map (fun l => (l.1, { l.2 with checks := l.2.checks.filter (fun a =>
      !(decide (refetchBase ≤ a.lane) && refetchCore a.lane == core && slots.contains (refetchAgent a.lane))) })) }

/-- A write of a gang that a peer has not answered: a release must not be seen before it, nor a park reported, nor either without it when it fails (R291, R307,
R355). -/
def State.farWriteOf (s : State) (g : Gang) : Bool :=
  s.far.any (fun f => match f.what with | .write c t _ _ _ _ _ => c == g.core && t == g.slot | _ => false)

/- The end of a gang -/

/-- It is neither parked nor stopped, nor has it ended; its shadow is not either (R183, R356). -/
def Gang.going (g : Gang) : Bool :=
  match g.stat with
  | .parked _ | .restoring | .stopped | .ended | .waiting (.park _ _) => false
  | _ => true

/-- The gang and its shadow hold no token and wait for none (R184). -/
def Gang.noTokens (g : Gang) : Gang := { g with token := false, shadow := g.shadow.map (fun x => { x with token := false, shuttered := false }) }

/-- Every pending fixed-latency result has ended before the next instruction issues (R57). -/
def Gang.endPend (g : Gang) : Gang := { g with pend := [], notBefore := g.pend.foldl (fun m p => max m p.readyAt) g.notBefore }

/-- Marks the events of a gang's dead or failed lanes, for the commit of their span (R380). -/
def markEvents (run : List RunEv) (g : Gang) : List RunEv :=
  g.evs.foldl (fun run x => run.map (fun e => if e.idx = x.2.idx ∧ !e.orphan then { e with bad := g.dead.getLsbD x.1 || x.2.st } else e)) run

/-- Ends a gang (R92, R100): its slot is released once its own memory and event operations are done. -/
def State.exitGang (s : State) (g : Gang) : State :=
  let busy := g.ops.any (fun o => !o.done && o.cls != .cp) || s.farOf g.core g.slot
  let s := if busy then s.putGang { g.noTokens with stat := .ended, replay := none } else s.dropGang g.core g.slot
  let s := s.modCrew g.crew (fun c => { c with live := c.live - 1 })
  let s := s.modLaunch g.launch (fun l => { l with
    exited := l.exited + 1
    span := l.span.map (fun p => { p with run := markEvents p.run g }) })
  (s.crewBarCheck g.crew).launchBarCheck g.launch

/-- BUSY falls when every vacated crew is saved (R335). -/
def State.preDone (s : State) : State :=
  if s.preCrews.isEmpty && s.pre1.getLsbD 61 then
    { s with pre1 := (s.pre1 &&& ~~~(0x20000000FFC00000#64)) ||| BitVec.ofNat 64 (min 1023 s.preSaved * 2 ^ 22) }
  else s

/-- Gangs of a crew that have executed EXIT: its crew's start state has none (R90, R286). -/
def Crew.exits (c : Crew) (p : Packet) : Nat := p.crew - c.live

/-- Aborts a PHASED or SPAN crew at once (R88); it waits to be admitted again from its start state. A core that pre-emption vacates loses the lease with
its last crew (R158). -/
def State.abortCrew (s0 : State) (crew : Nat) : State :=
  let s := s0
  match s.crew? crew with
  | none => s
  | some c =>
    let slots := (s.crewGangs crew).map (·.slot)
    let ctxs := (s.ctxs.filter (fun x => x.2.crew == crew)).map (fun x => x.1 % 16)
    let mine (g : Gang) : Bool := g.crew == crew && g.slot != 32
    let k := s.core c.core
    let served := match k.run with | some r => r.stop.ofGang && !r.resolved && slots.contains r.stop.agent | none => false
    let k := { k.forgetWaiters crew with
      stops := k.stops.filter (fun x => !(x.ofGang && slots.contains x.agent))
      run := if served then none else k.run
      streams := k.streams.filter (fun x => x.crew != crew) }
    let s := { s with
      gangs := s.gangs.filter (fun x => !mine x.2 && !(served && x.1 == gkey c.core 32))
      ctxs := s.ctxs.filter (fun x => x.2.crew != crew)
      preCrews := s.preCrews.filter (· != crew) }
    let vacated := s0.preCrews.contains crew
    let s : State := ((s.preDone).forgetFar c.core (if served then Config.handlerSlot :: slots else slots) ctxs).putCore c.core k
    let s : State := { s with cores := s.cores.map (fun x => (x.1, { x.2 with awaits := x.2.awaits.filter (fun y => y.1 != crew) })) }
    let s := s.modLaunch c.launch (fun l => { l with exited := l.exited - c.exits l.pkt })
    let size := ((s.launch? c.launch).map (·.pkt.crew)).getD c.live
    let s := s.putCrew crew { c with
      stat := .requeued, live := size, effects := [], applied := none, inLog := 0, scratch := {}, bar := {}, tiles := [], planes := [], saved := [], savedCtx := [],
      savedSlots := [], refilled := [], savedStops := [], freed := false, queuedAt := s.clock }
    let s := if vacated then s.dropLease c.core c.launch else s
    s.settle c.core

/- Fault records, lane death, error aborts -/

structure FRec where
  launch : Nat
  wid : DWord
  pc : VAddr
  core : Nat
  cause : Nat
  lcause : Nat := 0
  kind : Nat
  sdc : Bool := false
  rerun : Bool := false
  failed : Bool := false
  exited : Bool := false
  deriving DecidableEq, Repr

/-- The 32 bytes of R354. -/
def FRec.bytes (r : FRec) (q seq : Nat) : List Byte :=
  leBytes 32 (r.wid ++ r.pc ++ 0#7 ++ BitVec.ofNat 48 seq ++ BitVec.ofNat 6 q ++ BitVec.ofNat 9 r.core ++ 0#37 ++ BitVec.ofBool r.sdc ++
    BitVec.ofBool r.rerun ++ BitVec.ofBool r.failed ++ BitVec.ofBool r.exited ++ BitVec.ofNat 8 r.lcause ++ BitVec.ofNat 8 r.cause ++
    BitVec.ofNat 8 r.kind : BitVec 256).toNat

/-- Writes or drops the fault record of a packet of queue `q` (R354). -/
def State.putRecord (s : State) (r : FRec) (q seq : Nat) : State :=
  if s.ringFull (q / 4) 0x60 0x68 0x70 then s.setCtxReg (q / 4) 0x78 (s.ctxReg (q / 4) 0x78 + 1)
  else (s.ringPut (q / 4) 0x58 0x60 0x68 (r.bytes q seq)).interrupt 1

/-- Writes or drops a fault record; either way the launch completes with faults (R354). A run of the handler program can outlive its launch, and a write of it
that fails has its record all the same (R355). -/
def State.faultRecord (s : State) (r : FRec) : State :=
  match s.launch? r.launch with
  | none => s.putRecord r (launchQueue r.launch) (launchSeq r.launch)
  | some l => (s.putLaunch r.launch { l with records := true }).putRecord r l.q l.seq

/-- Kills lanes that are not yet dead, one record each (R352); `code` gives a lane's LCAUSE. -/
def State.killLanes (s : State) (g : Gang) (lanes : LaneMask) (cause : Nat) (code : Nat → Nat) (pc : VAddr) (sdc : Bool := false) :
    State × Gang :=
  let new := bitsOn (g.live lanes)
  let s := new.foldl (fun s i =>
    (s.faultRecord {
      launch := g.launch, wid := g.widOf i, pc := pc, core := g.core, cause := cause, lcause := code i, kind := 0,
      sdc := sdc, rerun := s.rcOf g != 0, failed := s.modeOf g == 2 && (Tab.get? g.evs i).isSome }).countAt g.place .lanesKilled) s
  (s, { g with dead := g.dead ||| lanes })

/-- Ends a gang for an error: every base lane not already dead writes a record of KIND 1 and counts as killed (R109, R352). -/
def State.endForError (s : State) (g : Gang) (cause : Nat) (pc : VAddr) : State :=
  let new := bitsOn (g.live g.base)
  let s := new.foldl (fun s i =>
    (s.faultRecord {
      launch := g.launch, wid := g.widOf i, pc := pc, core := g.core, cause := cause, kind := 1,
      rerun := s.rcOf g != 0, failed := s.modeOf g == 2 && (Tab.get? g.evs i).isSome }).countAt g.place .lanesKilled) s
  s.exitGang { g with dead := BitVec.allOnes 64 }

/-- An error abort of a crew whose re-run count is 0 (R353). -/
def State.errorAbort (s : State) (crew : Nat) : State :=
  ((s.abortCrew crew).modCrew crew (fun c => { c with rc := 1 })).countAt (.core (s.coreOfCrew crew)) .crewReruns

/- Stops -/

/-- HPRIV of the context the handler runs in (R341). -/
def State.hpriv (s : State) (g : Gang) : Bool := (s.ctxReg (s.ctxOf g.launch) 0x50).getLsbD 0

/-- A handler program exists for a launch's context (R341). -/
def State.hasHandler (s : State) (launch : Nat) : Bool :=
  let h := s.ctxReg (s.ctxOf launch) 0x40
  h != 0 && h.extractLsb' 0 2 == 0#2

/-- A granted token that was not taken up stays over a resumption only when the next instruction is an MMUL with a live active lane (R184). -/
def State.tokenAt (s : State) (g : Gang) : Gang :=
  if !g.token then g
  else
    match s.atGang g with
    | .instr i => if g.wantsToken (shape i) then g else { g with token := false }
    | _ => { g with token := false }

/-- The return from a stop or a park: the gang is ready at its PC (R344, R349). -/
def Gang.resume (g : Gang) (s : State) (pc : VAddr) (replay : Option LaneMask) : Gang :=
  (s.tokenAt { g with pc := pc, replay := replay }).ready

/-- The default actions of R338 and R344. -/
inductive Action where
  | g | l | resume | w | n | sdc
  deriving DecidableEq, Repr

def actionOf (cause : Nat) : Action :=
  match cause with
  | 3 => .resume
  | 29 => .w
  | 30 | 31 => .l
  | 32 | 34 => .n
  | 33 => .sdc
  | _ => .g

/-- The default action of a gang's stop (R344, R353, R358). N resumes the gang as it stood: a replay mask of a park, and what peers have answered, stay
(R360). -/
def State.defaultAction (s : State) (g : Gang) (x : Stop) : State :=
  match actionOf x.cause with
  | .g => if s.errsAsFree g then s.endForError g x.cause x.pc else s.errorAbort g.crew
  | .l =>
    if s.errsAsFree g then
      let (s, g) := s.killLanes g x.replay x.cause (fun i => (Store.get x.codes i).toNat) x.pc
      s.putGang ({ g with arrived := [] }.resume s x.next none)
    else s.errorAbort g.crew
  | .sdc =>
    if s.errsAsFree g then
      let (s, g) := s.killLanes g x.replay x.cause (fun _ => 0) x.pc true
      s.putGang (g.resume s x.next g.replay)
    else s.errorAbort g.crew
  | .resume => s.putGang (g.resume s g.pc (some x.replay))
  | .w => s.putGang { g.resume s g.pc none with pwaitNt := true }
  | .n => s.putGang (g.resume s g.pc g.replay)

/-- Ends a run of the handler program: by EXIT, or by a double fault (R344, R345). -/
def State.endRun (s : State) (core : Nat) (double : Bool) : State :=
  let k := s.core core
  match k.run with
  | none => s
  | some r =>
    let s := (s.putCore core { k with run := none }).dropGang core 32
    let s := if double then s.countAt (.slot core Config.handlerSlot) .handlerFaults else s
    if r.resolved || !r.stop.ofGang then s
    else
      match s.gang? core r.stop.agent with
      | some g => if g.stat = .stopped then s.defaultAction g r.stop else s
      | none => s

/-- The `$wid` word of a gang's stop record (R343). -/
def Gang.stopWid (g : Gang) (replay : LaneMask) : DWord := g.widOf (((bitsOn replay).head?).getD g.lowLive)

/-- A shadow gang is discarded and rebuilt from its leading gang (R358). -/
def Gang.regs (g : Gang) : Regs :=
  { s := g.s, v := g.v, m := g.m, b := g.b, sp := g.sp, vp := g.vp, mp := g.mp, bp := g.bp, n := g.n, rmode := g.rmode, stack := g.stack }
def Gang.rebuild (g : Gang) : Gang := { g with shadow := g.shadow.map (fun _ => { regs := g.regs }) }

/-- TAKING AN EXCEPTION. A gang stops with the given cause: its pending results end (R57), its PC is the one reported, and its stop joins the core's queue; with
no handler program it takes its default action at once (R337, R341, R342, R343). An IMPRECISE stop leaves the instruction at the PC, of which nothing has been
performed, with its replay mask (R355, R360, log 105), and so does a mismatch that the shadow has met at an earlier instruction (R357, log 107). In the handler
slot every trap is a double fault (R345). -/
def State.takeStop (s : State) (g : Gang) (cause detail : Nat) (info : DWord) (replay : LaneMask) (codes : Store 4) (pc next : VAddr) : State :=
  if g.isHandler then s.endRun g.core true
  else
    let g := if cause = 33 then g.rebuild else g
    let g := { g.endPend with
      pc := pc, replay := if cause = 33 ∨ cause = 34 then g.replay else none, arrived := [], granted := false
      checked := false, mismatch := false, stat := .stopped }
    let x : Stop := { cause := cause, detail := detail, agent := g.slot, pc := pc, next := next, replay := replay, info := info,
                      wid := g.stopWid replay, codes := codes, launch := g.launch, ofGang := true }
    if s.hasHandler g.launch then (s.putGang g).modCore g.core (fun k => { k with stops := k.stops ++ [x] })
    else s.defaultAction g x

def State.shadowed (s : State) (launch : Nat) : Bool := ((s.launch? launch).map (·.pkt.shadow)).getD false

/-- In a shadowed gang consumed poison is a mismatch: the instruction is held, and its comparison follows (R357). -/
def State.holdMismatch (s : State) (g : Gang) : State := s.putGang { g with stat := .waiting .shadow, mismatch := true }

/-- Live lanes that consume poison are killed, or the crew is aborted and nothing is left of the gang, or the run of the handler
program ends (R109, R345, R353). -/
def State.consume (s : State) (g : Gang) (lanes : LaneMask) : State × Option Gang :=
  if g.live lanes = 0 then (s, some g)
  else if g.isHandler then (s.endRun g.core true, none)
  else if s.shadowed g.launch then (s.holdMismatch g, none)
  else if s.errsAsFree g then
    let (s, g) := s.killLanes g lanes 35 (fun _ => 0) g.pc
    (s, some g)
  else (s.errorAbort g.crew, none)

/-- POISON_SCALAR (R109). -/
def State.poisonScalar (s : State) (g : Gang) : State :=
  if g.isHandler then s.endRun g.core true
  else if s.errsAsFree g then s.endForError g 4 g.pc
  else s.errorAbort g.crew

/-- The five words of a stop record (R343). -/
def Stop.word (x : Stop) (n : Nat) : DWord :=
  match n with
  | 0 => 0#40 ++ BitVec.ofNat 8 x.agent ++ BitVec.ofNat 8 x.detail ++ BitVec.ofNat 8 x.cause
  | 1 => 0#7 ++ x.pc
  | 2 => x.replay
  | 3 => x.info
  | _ => x.wid

/-- COPY_FAULT or IMPRECISE after exit: a stop with no gang that waits (R342, R344). -/
def State.looseStop (s : State) (core : Nat) (x : Stop) : State :=
  if s.hasHandler x.launch then s.modCore core (fun k => { k with stops := k.stops ++ [x] }) else s

end Sys2Proof.Machine
end

