-- ==== Sys2Proof/Machine/Operands.lean ====
section
/-! DEFINITION. Reading and writing operands: scalar operands with special registers, literals and immediates (R1, R44, R111), vector
operands by type with their poison (R2, R26, R27, R48, R129), mask and buffer registers, and the derived registers `$tokens` (R186)
and `$chan` (R193). -/
namespace Sys2Proof.Machine

/- Registers -/

def Gang.sGet (g : Gang) (n : Nat) : DWord := if n = 0 then 0 else Store.get g.s n
/-- A write to `s0` is discarded; a write clears poison (R1, R108). -/
def Gang.sSet (g : Gang) (n : Nat) (x : DWord) (bad : Bool := false) : Gang :=
  if n = 0 then g else { g with s := Store.set g.s n x, sp := Store.set g.sp n (BitVec.ofBool bad) }
/-- Clears the poison of the given number of words from `n` on (R108). -/
def cleanWords (p : Store 1) (n : Nat) : Nat → Store 1
  | 0 => p
  | k + 1 => Store.set (cleanWords p n k) (n + k) 0
/-- One of `k` words from `n` on is poisoned. -/
def wordsBad (p : Store 1) (n k : Nat) : Bool := (List.range k).any (fun i => Store.get p (n + i) != 0)

def Gang.mSet (g : Gang) (n : Nat) (x : LaneMask) : Gang :=
  if n = 0 then g else { g with m := Store.set g.m n x, mp := cleanWords g.mp (2 * n) 2 }
/-- Poison of a mask register once some of its bits are written: a word written whole is clean, one written in part keeps its bit (R108). -/
def partBits (p : Store 1) (n : Nat) (l : List (Nat × Bool)) : Store 1 :=
  [0, 1].foldl (fun p w => if (List.range 32).all (fun i => l.any (fun x => x.1 == 32 * w + i)) then Store.set p (2 * n + w) 0 else p) p
/-- Sets the listed bits of a mask register; the others keep their values. -/
def Gang.mBits (g : Gang) (n : Nat) (l : List (Nat × Bool)) : Gang :=
  if l.isEmpty || n == 0 then g
  else { g with m := Store.set g.m n (l.foldl (fun m x => putBit m x.1 x.2) (g.mGet n)), mp := partBits g.mp n l }
def Gang.bGet (g : Gang) (n : Nat) : BitVec 128 := Store.get g.b n
def Gang.bSet (g : Gang) (n : Nat) (x : BitVec 128) : Gang := { g with b := Store.set g.b n x, bp := cleanWords g.bp (4 * n) 4 }
/-- One 64-bit half of a buffer register (R347); the other half keeps its poison. -/
def Gang.bHalf (g : Gang) (n : Nat) (hi : Bool) (x : DWord) : Gang :=
  { g with
    b := Store.set g.b n (if hi then x ++ (g.bGet n).extractLsb' 0 64 else (g.bGet n).extractLsb' 64 64 ++ x)
    bp := cleanWords g.bp (4 * n + 2 * hi.toNat) 2 }

def vkey (n lane : Nat) : Nat := n * 64 + lane
/-- One 32-bit register of a lane. -/
def Gang.vGet (g : Gang) (n lane : Nat) : Nat := (Store.get g.v (vkey n lane)).toNat
def Gang.vBad (g : Gang) (n lane : Nat) : Bool := Store.get g.vp (vkey n lane) != 0
def Gang.vSet (g : Gang) (n lane : Nat) (x : Nat) (bad : Bool := false) : Gang :=
  { g with v := Store.set g.v (vkey n lane) (BitVec.ofNat 32 x), vp := Store.set g.vp (vkey n lane) (BitVec.ofBool bad) }

/- Derived special registers -/

/-- MODE of R193. -/
def chanMode (en : BitVec 8) : Nat :=
  match (List.range 8).filter (fun c => !en.getLsbD c) with
  | [] => 0
  | [c] => if c < 6 then 1 else 2
  | _ => 3

/-- SUBST of R193. -/
def chanSubst (en : BitVec 8) : Nat :=
  match (List.range 8).filter (fun c => !en.getLsbD c) with
  | [c] => if c < 6 then c else 0
  | _ => 0

/-- `$chan` of R193. -/
def Core.chan (k : Core) : DWord :=
  0#16 ++ k.err ++ 0#2 ++ BitVec.ofNat 3 (chanSubst k.en) ++ 0#1 ++ BitVec.ofNat 2 (chanMode k.en) ++ k.en

def State.pool (s : State) (die : Nat) : Nat := if die = 0 then s.pool0 else s.pool1
/-- Tokens of a gang and of its shadow (R183, R356). -/
def Gang.tokensHeld (g : Gang) : Nat := g.token.toNat + ((g.shadow.map (·.token)).getD false).toNat
/-- Tokens held by a core: granted and streaming (R183). -/
def State.coreHeld (s : State) (core : Nat) : Nat :=
  ((List.range Config.slots).map (fun k => ((s.gang? core k).map Gang.tokensHeld).getD 0)).sum + (s.core core).streams.length
/-- Tokens out on a die. -/
def State.tokensOut (s : State) (die : Nat) : Nat := ((List.range 256).map (fun c => s.coreHeld (die * 256 + c))).sum
/-- Gangs that wait for a token, and gangs whose shadow does. -/
def State.shuttered (s : State) (core : Nat) : List Gang := (s.coreGangs core).filter (fun g => g.stat == .waiting .token)
def State.shadowsShuttered (s : State) (core : Nat) : List Gang :=
  (s.coreGangs core).filter (fun g => g.going && (g.shadow.map (·.shuttered)).getD false)
def State.shutteredCount (s : State) (core : Nat) : Nat := (s.shuttered core).length + (s.shadowsShuttered core).length

/-- `$tokens` of R186. -/
def State.tokens (s : State) (core : Nat) : DWord :=
  let die := core / 256
  0#38 ++ BitVec.ofNat 6 (s.shutteredCount core) ++ BitVec.ofNat 2 (s.coreHeld core) ++
    BitVec.ofNat 9 (s.pool die - s.tokensOut die) ++ BitVec.ofNat 9 (s.pool die)

/-- The uniform special registers of R111. -/
def State.spGet (s : State) (g : Gang) (x : SpReg) : DWord :=
  let ofLaunch (f : Launch → DWord) : DWord :=
    if g.isHandler then Config.handlerLaunchReg x.num
    else match s.launch? g.launch with | some l => f l | none => 0
  match x with
  | .rmode => g.rmode.setWidth 64
  | .cyc => BitVec.ofNat 64 (s.cyc g.core)
  | .dead => g.dead
  | .em => g.em
  | .seed => ofLaunch (·.pkt.seed)
  | .tokens => s.tokens g.core
  | .chan => (s.core g.core).chan
  | .regs => BitVec.ofNat 64 g.n
  | .deny => g.deny
  | .phase => ofLaunch (fun l => BitVec.ofNat 64 l.pkt.phase)
  | .span => ofLaunch (fun l => match l.span with | some p => BitVec.ofNat 64 p.no | none => 0)
  | .wid | .lane | .key | .now => 0

/-- A per-lane special register (R111); the uniform ones read the same in every lane. -/
def State.spLane (s : State) (g : Gang) (x : SpReg) (lane : Nat) : DWord :=
  match x with
  | .wid => g.widOf lane
  | .lane => BitVec.ofNat 64 lane
  | .key => (g.keyOf lane).setWidth 64
  | .now => Store.get g.now lane
  | x => s.spGet g x

/- Operands -/

/-- An inline immediate: byte − 0xC0 (R1). -/
def immVal (x : BitVec 7) : DWord := BitVec.ofInt 64 ((x.toNat : Int) - 64)

/-- A scalar operand, all 64 bits. -/
def State.sc (s : State) (g : Gang) (lit : Option DWord) (x : Sc) : DWord :=
  match x with
  | .r n => g.sGet n.toNat
  | .lit => lit.getD 0
  | .sp r => s.spGet g r
  | .imm i => immVal i

/-- The raw value of a vector-class operand in a lane: `w` bits from a register or a pair, or the scalar in its place (R48, R129). -/
def State.vsrc (s : State) (g : Gang) (lit : Option DWord) (t : Fmt) (x : VSrc) (lane : Nat) : Nat :=
  match x with
  | .v n => if t.is64 then g.vGet n.toNat lane + 2 ^ 32 * g.vGet (n.toNat + 1) lane else g.vGet n.toNat lane
  | .s (.sp r) => (s.spLane g r lane).toNat
  | .s x => (s.sc g lit x).toNat

/-- A 64-bit pair operand. -/
def State.pair (s : State) (g : Gang) (lit : Option DWord) (x : VSrc) (lane : Nat) : Nat := s.vsrc g lit .n64 x lane % 2 ^ 64

/-- The register bits of a vector source in a lane, for the cross-lane moves. -/
def Gang.vraw (g : Gang) (t : Fmt) (n lane : Nat) : Nat :=
  if t.is64 then g.vGet n lane + 2 ^ 32 * g.vGet (n + 1) lane else g.vGet n lane
def Gang.vrawBad (g : Gang) (t : Fmt) (n lane : Nat) : Bool := g.vBad n lane || (t.is64 && g.vBad (n + 1) lane)

/-- `rd` of R114 and R129. -/
def rd (t : Fmt) (x : Nat) : Int := if t.signed then signedOf t.bits x else (x % 2 ^ t.bits : Nat)

/-- `wr` of R129 into a lane: the low bits of the type, extended to the lane by R26 and R27 (64-bit types fill the pair). -/
def extend (t : Fmt) (x : Nat) : Nat := if t.signed then wrapInt (max t.bits 32) (signedOf t.bits x) else x % 2 ^ t.bits

/-- Writes the bits of a type to a lane. -/
def Gang.vPut (g : Gang) (t : Fmt) (d lane x : Nat) (bad : Bool := false) : Gang :=
  let y := extend t x
  if t.is64 then (g.vSet d lane (y % 2 ^ 32) bad).vSet (d + 1) lane (y / 2 ^ 32) bad else g.vSet d lane y bad

/-- Writes a list of (lane, bits, poison). -/
def Gang.vPuts (g : Gang) (t : Fmt) (d : Nat) (l : List (Nat × Nat × Bool)) : Gang :=
  l.foldl (fun g x => g.vPut t d x.1 x.2.1 x.2.2) g

/- Poison -/

/-- The words that give the mask in force hold poison (R93, R109). -/
def Gang.topBad (g : Gang) : Bool :=
  match g.stack with
  | [] => g.baseBad != 0
  | l :: _ => l.bad != 0

/-- VIF reads the mask in force, VELSE the level that it turns, VEND the parent that it goes back to; their words hold poison (R98, R109). -/
def Gang.stackBad (g : Gang) (opc : Nat) : Bool :=
  match opc, g.stack with
  | 6, _ => g.topBad
  | 7, l :: _ => l.bad != 0
  | 8, l :: _ => l.bad.extractLsb' 0 2 != 0#2
  | _, _ => false

/-- A scalar, mask or buffer register, the mask in force with `$dead`, or a special register among the sources holds poison (R5, R109). -/
def Gang.refBad (g : Gang) (r : Ref) : Bool :=
  match r with
  | .s n => n != 0 && Store.get g.sp n != 0
  | .m n => n != 0 && wordsBad g.mp (2 * n) 2
  | .b n => wordsBad g.bp (4 * n) 4
  | .top => g.topBad || Store.get g.spBad SpReg.dead.num != 0
  | .sp x => Store.get g.spBad x.num != 0
  | .v _ | .tile _ => false

/-- Vector registers of an operand of type `t`. -/
def srcRegs (t : Fmt) : VSrc → List Nat
  | .v n => if t.is64 then [n.toNat, n.toNat + 1] else [n.toNat]
  | .s _ => []

/-- Lanes of `m` in which one of the registers is poisoned. -/
def Gang.badLanes (g : Gang) (m : LaneMask) (regs : List Nat) : LaneMask :=
  maskOf 64 ((bitsOn m).filter (fun i => regs.any (fun r => g.vBad r i)))

/- Buffer records (R205, R206, R207) -/

def recBase (r : BitVec 128) : Nat := (r.extractLsb' 0 57).toNat
def recElem (r : BitVec 128) : Nat := (r.extractLsb' 57 3).toNat
def recSwz (r : BitVec 128) : Nat := (r.extractLsb' 60 3).toNat
def recRo (r : BitVec 128) : Bool := r.getLsbD 63
def recExtent (r : BitVec 128) : Nat := (r.extractLsb' 64 32).toNat
def recStride (r : BitVec 128) : Nat := (r.extractLsb' 96 32).toNat

/-- The swizzle of R207. -/
def swizzle (swz a : Nat) : Nat :=
  if swz = 0 then a else a ^^^ (bitField a (swz + 8) (swz + 6) * 16)

/-- The address of index `i` (R207). -/
def recAddr (r : BitVec 128) (i : Nat) : Nat := swizzle (recSwz r) ((recBase r + i * recStride r) % 2 ^ 57)

/-- The element size rule of R206. -/
def recBadType (r : BitVec 128) (size : Nat) : Bool := decide (5 ≤ recElem r) || size != 2 ^ recElem r
def recBadCell (r : BitVec 128) : Bool := decide (5 ≤ recElem r)

/-- IOFS, a signed offset (R221). -/
def iofs (m : MH) : Int := signedOf 12 m.iofs.toNat

end Sys2Proof.Machine
end

