-- ==== Sys2Proof/Machine/Flags.lean ====
section
/-! DEFINITION. The flag-like results: conditions into mask bits and scalars (R54), what a floating-point result signals and which lanes
trap on it (R31, R112, R339), and the fields of `$rmode` (R112). -/
namespace Sys2Proof.Machine

def Gang.sat (g : Gang) : Bool := g.rmode.getLsbD 3
def Gang.schk (g : Gang) : Bool := g.rmode.getLsbD 4
def Gang.ovt (g : Gang) : Bool := g.rmode.getLsbD 5
def Gang.ordt (g : Gang) : Bool := g.rmode.getLsbD 6
def Gang.invt (g : Gang) : Bool := g.rmode.getLsbD 7
def Gang.oft (g : Gang) : Bool := g.rmode.getLsbD 8

/-- The rounding mode of an instruction (R28). -/
def Gang.mode (g : Gang) (r : Rnd) : Mode := r.mode g.rmode

/-- The lane code a result raises under INVT and OFT; 0 for none (R31, R339). -/
def Gang.fpTrap (g : Gang) (x : Sig) : Nat := if x.inv && g.invt then 5 else if x.ovf && g.oft then 6 else 0

/-- 1 when a condition holds on integers of a type, else 0 (R54, R115). -/
def condBit (c : Cond) (t : Fmt) (a b : Nat) : DWord := if c.int? (rd t a) (rd t b) then 1 else 0

/-- Lane codes as a store, for the lanes that raise. -/
def codesOf (l : List (Nat × Nat)) : Store 4 := l.foldl (fun m x => Store.set m x.1 (BitVec.ofNat 4 x.2)) []
/-- The lanes that carry a nonzero code. -/
def codeMask (c : Store 4) : LaneMask := maskOf 64 (c.map (·.1))

end Sys2Proof.Machine
end

