-- ==== Sys2Proof/Machine/Words.lean ====
section
/-! DEFINITION. What a row of the pool holds (R104, R105); the words of a gang's registers and control block (R93), and one of them delivered wrong or poisoned
(R107 to R109); a gang's context read out of its rows, as a park does it (R125, R216). -/
namespace Sys2Proof.Machine

/-- Rows of a core's pool (R104). -/
def poolRows : Nat := 49152

/-- Word `k` of a number, and the number with that word replaced. -/
def wordOf (x k : Nat) : Word := BitVec.ofNat 32 (x / 2 ^ (32 * k))
def withWord (x k : Nat) (w : Word) : Nat := x - x / 2 ^ (32 * k) % 2 ^ 32 * 2 ^ (32 * k) + w.toNat * 2 ^ (32 * k)

/-- A level of the mask stack as five words: its parent, its condition, and whether it is in its else part (R93). -/
def Level.num (l : Level) : Nat := l.parent.toNat + l.cond.toNat * 2 ^ 64 + l.els.toNat * 2 ^ 128
def Level.ofNum (x : Nat) : Level := { parent := BitVec.ofNat 64 x, cond := BitVec.ofNat 64 (x / 2 ^ 64), els := x.testBit 128 }

/-- Words of a control block that are registers: 64 scalars, 16 masks, 16 buffer records (R105). -/
def Gang.regWord (g : Gang) (ix : Nat) : Word × Bool :=
  if ix < 128 then (wordOf (Store.get g.s (ix / 2)).toNat (ix % 2), Store.get g.sp (ix / 2) != 0)
  else if ix < 160 then (wordOf (Store.get g.m ((ix - 128) / 2)).toNat (ix % 2), Store.get g.mp (ix - 128) != 0)
  else (wordOf (Store.get g.b ((ix - 160) / 4)).toNat (ix % 4), Store.get g.bp (ix - 160) != 0)

/-- Words behind them: the PC, the special registers of the gang, and the levels of its mask stack. -/
def Gang.restWord (g : Gang) (ix : Nat) : Word × Bool :=
  if ix < 226 then (wordOf g.pc.toNat (ix % 2), g.pcBad)
  else if ix = 226 then (g.rmode, Store.get g.spBad SpReg.rmode.num != 0)
  else if ix = 227 then (BitVec.ofNat 32 g.n, Store.get g.spBad SpReg.regs.num != 0)
  else if ix < 230 then (wordOf g.dead.toNat (ix % 2), Store.get g.spBad SpReg.dead.num != 0)
  else if ix < 232 then (wordOf g.deny.toNat (ix % 2), Store.get g.spBad SpReg.deny.num != 0)
  else if ix < 234 then (wordOf g.base.toNat (ix % 2), g.baseBad.getLsbD (ix % 2))
  else if ix < 240 then (0, false)
  else match g.stack[(ix - 240) / 5]? with
    | some l => (wordOf l.num ((ix - 240) % 5), l.bad.getLsbD ((ix - 240) % 5))
    | none => (0, false)

/-- The count after RSHR: registers at or above it are discarded (R123). -/
def Gang.shrink (g : Gang) (t : Nat) : Gang :=
  if t < g.n then { g with n := t, v := g.v.filter (fun x => decide (x.1 < t * 64)), vp := g.vp.filter (fun x => decide (x.1 < t * 64)) }
  else g

/-- A word that is delivered wrong, or poisoned (R108, R109); registers 0 are no storage. -/
def Gang.spoilReg (g : Gang) (ix : Nat) (x : Option Word) : Gang :=
  if ix / 2 = 0 ∨ ix / 2 = 64 then g
  else if ix < 128 then
    match x with
    | some w => { g with s := Store.set g.s (ix / 2) (BitVec.ofNat 64 (withWord (Store.get g.s (ix / 2)).toNat (ix % 2) w)) }
    | none => { g with sp := Store.set g.sp (ix / 2) 1 }
  else if ix < 160 then
    let r := (ix - 128) / 2
    match x with
    | some w => { g with m := Store.set g.m r (BitVec.ofNat 64 (withWord (Store.get g.m r).toNat (ix % 2) w)) }
    | none => { g with mp := Store.set g.mp (ix - 128) 1 }
  else
    let r := (ix - 160) / 4
    match x with
    | some w => { g with b := Store.set g.b r (BitVec.ofNat 128 (withWord (Store.get g.b r).toNat (ix % 4) w)) }
    | none => { g with bp := Store.set g.bp (ix - 160) 1 }

def Gang.spoilRest (g : Gang) (ix : Nat) (x : Option Word) : Gang :=
  let wrong (y : BitVec 64) (w : Word) : BitVec 64 := BitVec.ofNat 64 (withWord y.toNat (ix % 2) w)
  let bad (r : SpReg) : Gang := { g with spBad := Store.set g.spBad r.num 1 }
  if ix < 226 then
    match x with
    | some w => { g with pc := (wrong (g.pc.setWidth 64) w).setWidth 57 &&& ~~~3 }
    | none => { g with pcBad := true }
  else if ix = 226 then match x with | some w => { g with rmode := w } | none => bad .rmode
  else if ix = 227 then
    match x with
    | some w => let n := 8 * (w.toNat / 8 % 32 + 1); { g.shrink n with n := n }
    | none => bad .regs
  else if ix < 230 then match x with | some w => { g with dead := wrong g.dead w } | none => bad .dead
  else if ix < 232 then match x with | some w => { g with deny := wrong g.deny w } | none => bad .deny
  else if ix < 234 then match x with | some w => { g with base := wrong g.base w } | none => { g with baseBad := g.baseBad ||| oneBit 2 (ix % 2) }
  else if ix < 240 then g
  else
    let k := (ix - 240) / 5
    let j := (ix - 240) % 5
    match g.stack[k]?, x with
    | some l, some w => { g with stack := g.stack.set k { Level.ofNum (withWord l.num j w) with bad := l.bad } }
    | some l, none => { g with stack := g.stack.set k { l with bad := l.bad ||| oneBit 5 j } }
    | none, _ => g

/-- Word `i` of row `ix` of a control block. -/
def Gang.spoilControl (g : Gang) (ix i : Nat) (x : Option Word) : Gang :=
  if ix < 14 then g.spoilReg (16 * ix + i) x else g.spoilRest (16 * ix + i) x

/-- Word `k` of a vector register. -/
def Gang.spoilLane (g : Gang) (r k : Nat) (x : Option Word) : Gang :=
  match x with
  | some w => g.vSet r k w.toNat
  | none => { g with vp := Store.set g.vp (vkey r k) 1 }

/- Rows -/

/-- A quarter of a vector register of a gang or of its shadow, a sixteenth of its control block's words, 64 bytes of a crew's scratch or effect buffer, or 64
bytes of a tile from a byte offset on. -/
inductive RowHolds where
  | lanes (slot : Nat) (copy : Bool) (reg quarter : Nat)
  | control (slot : Nat) (copy : Bool) (ix : Nat)
  | scratch (crew ix : Nat)
  | effect (crew ix : Nat)
  | tile (crew tile ofs : Nat)
  | nothing
  deriving DecidableEq, Repr

/-- The gang with another copy of its registers. -/
def Gang.withRegs (g : Gang) (r : Regs) : Gang :=
  { g with s := r.s, v := r.v, m := r.m, b := r.b, sp := r.sp, vp := r.vp, mp := r.mp, bp := r.bp, n := r.n, rmode := r.rmode, stack := r.stack }

/-- The copy of a gang's registers that a row belongs to. -/
def Gang.copyOf (g : Gang) (copy : Bool) : Option Gang := if copy then g.shadow.map (fun x => g.withRegs x.regs) else some g

/-- Changes the copy of a gang's registers that a row belongs to; what a shadow holds beside its registers is then no longer that of its leading gang. -/
def Gang.spoilCopy (g : Gang) (copy : Bool) (regs : Bool) (f : Gang → Gang) : Gang :=
  if copy then
    { g with shadow := g.shadow.map (fun x => if regs then { x with regs := (f (g.withRegs x.regs)).regs } else { x with spoiled := true }) }
  else f g

/-- A row of a gang's context delivered in error: word `i` is wrong data, or poisoned where `f i` is `none` (R107, R108). -/
def Gang.spoilRow (g : Gang) (x : RowHolds) (f : Nat → Option Word) : Gang :=
  let words := List.range 16
  match x with
  | .lanes _ copy r q => g.spoilCopy copy true (fun g => if g.n ≤ r then g else words.foldl (fun g i => g.spoilLane r (16 * q + i) (f i)) g)
  | .control _ copy ix => g.spoilCopy copy (decide (ix < 14)) (fun g => words.foldl (fun g i => g.spoilControl ix i (f i)) g)
  | .scratch _ _ | .effect _ _ | .tile _ _ _ | .nothing => g

/-- Rows reconstructed around a failed bank: each counts and is reported (R107). -/
def State.rowsCorrected (s : State) (core bank n : Nat) : State :=
  { s.countAt (.core core) .poolCorrected n with reports := s.reports ++ List.replicate n (.poolBank core bank) }

/-- What an uncorrectable row delivers: each word poisoned; with three or more banks in error it is a free value whether wrong words are delivered as
corrected instead, and which bank their record then names (R107, log 12). -/
def State.rowLost (s : State) (core : Nat) (many : Bool) : State × (Nat → Option Word) :=
  let id := s.nextId
  let s := { s with nextId := id + 1 }
  if many && Config.poolMiscorrected id then (s.rowsCorrected core (Config.poolWrongBank id) 1, fun i => some (Config.poolWrongWord (16 * id + i)))
  else (s.countAt (.core core) .poolUncorrected, fun _ => none)

/- A gang's context in the pool -/

/-- The blocks of a gang are in the pool while it is resident and not parked (R105, R106). -/
def Gang.inPool (g : Gang) : Bool :=
  match g.stat with
  | .parked _ | .restoring => false
  | _ => g.slot != Config.handlerSlot

/-- The gang whose context a row of a core's pool can hold. -/
def State.gangAt (s : State) (core slot : Nat) : Option Gang := (s.gang? core slot).filter Gang.inPool

/-- The rows of a gang's context: of its control block and its vector registers, and of its shadow's (R105, R356). -/
def Gang.contextRows (g : Gang) : List RowHolds :=
  let regs (copy : Bool) : List RowHolds :=
    (List.range 32).map (.control g.slot copy) ++ ((List.range g.n).map (fun r => (List.range 4).map (.lanes g.slot copy r))).flatten
  regs false ++ (if g.shadow.isSome then regs true else [])

/-- One row of a gang's context is read where it cannot be corrected (R107). -/
def State.spoilInto (many : Bool) (x : State × Gang) (r : RowHolds) : State × Gang :=
  let y := x.1.rowLost x.2.core many
  (y.1, x.2.spoilRow r y.2)

/-- The context of a gang is read out of its rows, to be kept in a context frame (R107, R125, R216). -/
def State.readContext (s : State) (g : Gang) : State × Gang :=
  match (s.core g.core).failedBanks with
  | [] => (s, g)
  | [bank] => (s.rowsCorrected g.core bank g.contextRows.length, g)
  | _ :: _ :: more => g.contextRows.foldl (State.spoilInto (!more.isEmpty)) (s, g)

/- Parks -/

/-- A park is reported: its records are posted, each faulting page has one, and the gang's context leaves the pool (R107, R217). -/
def State.reportPark (s : State) (g : Gang) (p : Park) (recs : List FqInfo) : State :=
  let (s, g) := (recs.foldl State.postFault s).readContext g
  s.putGang { g with stat := .parked p, parkedAt := s.cyc g.core }

/-- Parks a gang (R125, R216, R217): its pending results end (R57) and its tokens return (R184), and every write that it has issued is performed before the park is
reported (R307). What peers have answered for the instruction at a PC that cannot be fetched stays (R360). In the handler slot a park is a double fault. DESIGN
CHOICE (log 134): until it is reported the gang counts as no parked one. -/
def State.parkGang (s : State) (g : Gang) (p : Park) (replay : Option LaneMask) (recs : List FqInfo) : State :=
  if g.isHandler then s.endRun g.core true
  else
    let g := { g.endPend.noTokens with replay := replay, arrived := if p = .fetch then g.arrived else [], granted := false }
    if s.farWriteOf g then s.putGang { g with stat := .waiting (.park p recs) } else s.reportPark g p recs

/-- The fault-queue records of a gang's instruction (R217). -/
def State.faultRecs (s : State) (g : Gang) (kind : Nat) (l : List LaneFault) : List FqInfo :=
  (faultPages l).map (fun f =>
    { ctx := s.ctxOf g.launch, wid := g.widOf f.lane, kind := kind, cause := f.cause, agent := g.slot, core := g.core, pc := g.pc, va := f.va })

end Sys2Proof.Machine
end

