-- ==== Sys2Proof/Machine/Issue.lean ====
section
/-! DEFINITION. What happens around every instruction of a gang and of the handler slot: the checks made before it acts, in the order of
R64, R109 and R340, the scoreboard and the judgement of stall counts (R55 to R57), what releases and fences wait for (R291, R296, R355), the hold under
SHADOW and what the shadow gang is given to run (R356, R357), and how its result is taken up: completion, a jump, a trap, a park, a wait. -/
namespace Sys2Proof.Machine

/-- How an instruction ends. -/
inductive Res where
  /-- it completes; the PC advances -/
  | ok (s : State) (g : Gang)
  /-- it completes and transfers control -/
  | jump (s : State) (g : Gang) (pc : VAddr)
  /-- a gang-level trap: no effect in any lane -/
  | trap (cause : Nat)
  /-- a gang-level trap with its own DETAIL and INFO -/
  | trapWith (cause detail : Nat) (info : DWord)
  /-- a gang-level trap found after something was counted: the state with its count -/
  | trapIn (s : State) (cause : Nat)
  /-- a gang-level cause reported under LANE_TRAP with this code in every active lane (R338) -/
  | trapLanes (s : State) (code : Nat)
  /-- per-lane traps; `g` holds what the other lanes did -/
  | lanes (s : State) (g : Gang) (codes : Store 4)
  /-- a trap of a cross-lane or select instruction: nothing is written, the replay mask is the active mask, and every live active lane
  carries the code (R132); `g` holds the lanes killed before -/
  | whole (s : State) (g : Gang) (cause code : Nat)
  /-- TRAP: it completes, then the gang stops before the next instruction (R350) -/
  | stop (s : State) (g : Gang) (info : DWord) (replay : LaneMask)
  /-- translation faults in some lanes, with the codes of lanes that raised traps (R216) -/
  | park (s : State) (g : Gang) (kind : Nat) (faults : List LaneFault) (codes : Store 4)
  /-- the translation fault of a gang-level access, made by every lane of `$em` (R117, R229, R287) -/
  | parkAll (s : State) (g : Gang) (kind : Nat) (fault : LaneFault)
  /-- the gang waits and will execute the instruction again -/
  | wait (s : State) (g : Gang) (w : Wait)
  /-- nothing of the gang is left to update: it ended, or its crew or its run did -/
  | gone (s : State)

/-- "Instruction words" of R338. -/
def wordsInfo (i : Instr) : DWord :=
  match encode i with
  | w0 :: w1 :: _ => if w0.extractLsb' 0 1 = 1#1 then w1 ++ w0 else w0.setWidth 64
  | [w0] => w0.setWidth 64
  | [] => 0

def vRegNo : Ref → Nat
  | .v n => n + 1
  | _ => 0

/-- One more than the highest vector register number named (R49). -/
def vTop (sh : Shape) : Nat := (sh.reads ++ sh.writes).foldl (fun m r => max m (vRegNo r)) 0

/-- Instructions whose effect a shadow gang compares before it is performed (R357). -/
def compared (sh : Shape) : Bool :=
  match sh.opc.toNat, sh.xop.toNat with
  | 0x02, _ | 0x04, _ | 0x05, _ | 0x09, _ | 0x1C, _ | 0x65, _ | 0x67, _ | 0x68, _ | 0x69, 0 | 0x6A, 1 | 0x6C, _ | 0x6D, _ | 0x70, _ | 0x71, _
  | 0x74, _ | 0x75, _ => true
  | 0x69, 1 => sh.w2.getLsbD 6
  | 0x0B, 1 => true
  | _, _ => false

def stallCount (sh : Shape) : Nat := max 1 sh.stall.toNat

/-- Pending fixed-latency results after an instruction issues at `cyc` (R56). -/
def Gang.pendAfter (g : Gang) (sh : Shape) (cyc : Nat) : List Pend :=
  let st := stallCount sh
  let old := (g.pend.filter (fun p => !sh.writes.contains p.ref)).map (fun p => { p with sum := p.sum + st })
  let new := if sh.lat = 0 then [] else sh.writes.map (fun r => { ref := r, lat := sh.lat, sum := st, readyAt := cyc + sh.lat : Pend })
  (old ++ new).filter (fun p => decide (p.sum < p.lat) || decide (cyc + st < p.readyAt))

/- The shadow gang (R356) -/

/-- BSET, which XF marks among the rows of its OPC (R224, R226). -/
def isBset (sh : Shape) : Bool := sh.opc == 0x66#7 && sh.xop == 0#8 && sh.w2.getLsbD 6

/-- RFWD and RMAD test EN of `$chan` (R199) and read it besides only as an operand. -/
def ownEn (sh : Shape) : Bool := (sh.opc == 0x60#7 || sh.opc == 0x63#7) && (sh.reads.filter (· == .sp .chan)).length == 1

/-- An instruction that the shadow does not run: it makes no access and no post, reads no special register but `$rmode`, repeats no MMUL in residue
format, and takes the results that the leading gang's instruction wrote. TRAP and the system instructions are the leading gang's. DESIGN CHOICE (log
109): a residue MARD and an RREV are among them, so that each correction is reported and counts once (R198 and R356 do not say). -/
def shadowTakes (sh : Shape) : Bool :=
  let o := sh.opc.toNat
  [0x00, 0x0A, 0x0B, 0x1B, 0x1C, 0x58].contains o || (decide (0x64 ≤ o) && decide (o ≤ 0x75) && !isBset sh) ||
    (o == 0x59 && (sh.fmt == Fmt.i8.code || sh.fmt == Fmt.i16.code)) || (o == 0x5B && sh.w2.extractLsb' 4 4 == Fmt.i64.code) ||
    sh.reads.any (fun r => match r with | .sp x => x != .rmode && !(x == .chan && ownEn sh) | _ => false)

/-- What a register holds, as the queue carries it. -/
def Gang.takeRef (g : Gang) (lanes : List Nat) (r : Ref) : List Took :=
  match r with
  | .s n => [{ ref := r, lane := 0, val := (Store.get g.s n).toNat, bad := (Store.get g.sp n).toNat }]
  | .m n => [{ ref := r, lane := 0, val := (Store.get g.m n).toNat, bad := (Store.get g.mp (2 * n)).toNat + 2 * (Store.get g.mp (2 * n + 1)).toNat }]
  | .b n => [{ ref := r, lane := 0, val := (Store.get g.b n).toNat
               bad := (List.range 4).foldl (fun x k => x + (Store.get g.bp (4 * n + k)).toNat * 2 ^ k) 0 }]
  | .v n => lanes.map (fun i => { ref := r, lane := i, val := g.vGet n i, bad := (g.vBad n i).toNat })
  | .top | .sp _ | .tile _ => []

/-- The lanes in which an instruction that the shadow takes has written: those of a line for VLDV, else the given ones. -/
def tookLanes (sh : Shape) (lanes : LaneMask) : List Nat := if sh.opc == 0x6A#7 then List.range 32 else bitsOn lanes

/-- Queues an instruction for the shadow; the leading gang has just run it in the given lanes. -/
def Gang.follow (g : Gang) (sh : Shape) (lanes : LaneMask) (took : Bool) : Gang :=
  match g.shadow with
  | none => g
  | some x =>
    let it : Item := {
      pc := g.pc, dead := g.dead, replay := g.replay, n := g.n, rmode := g.rmode
      took := if took then some ((sh.writes.map (g.takeRef (tookLanes sh lanes))).flatten) else none }
    { g with shadow := some { x with queue := x.queue ++ [it] } }

/-- The queue has room: a leading gang that is 64 instructions ahead is not ready (R356). -/
def Gang.roomy (g : Gang) : Bool :=
  match g.shadow with
  | none => true
  | some x => decide (x.queue.length < 64)

/-- The shadow has consumed poison, or has gone another way (R357). -/
def Gang.shadowSpoiled (g : Gang) : Bool := (g.shadow.map (·.spoiled)).getD false

/- Completion -/

/-- The gang after an instruction has issued and completed (R55, R56). -/
def Gang.advance (g : Gang) (sh : Shape) (cyc : Nat) (pc : VAddr) : Gang :=
  { g with
    pc := pc, replay := none, arrived := [], checked := false, mismatch := false, pwaitNt := false, granted := false, pend := g.pendAfter sh cyc
    notBefore := cyc + stallCount sh, since := cyc }

/-- The gang whose instruction has issued and does not complete: its wait age starts anew and its STALL counts (R55, R331). -/
def Gang.issuedAt (g : Gang) (sh : Shape) (cyc : Nat) : Gang := { g with since := cyc, notBefore := cyc + stallCount sh }

/-- As `issuedAt`, where the instruction has written something: its results are pending with the older ones (R56). -/
def Gang.issuedWith (g : Gang) (sh : Shape) (cyc : Nat) : Gang := { g.issuedAt sh cyc with pend := g.pendAfter sh cyc }

/-- As `advance`, for a control transfer: every pending result ends before the next instruction (R57). -/
def Gang.transfer (g : Gang) (sh : Shape) (cyc : Nat) (pc : VAddr) : Gang :=
  (g.advance sh cyc pc).endPend

def Gang.next (g : Gang) (sh : Shape) : VAddr := g.pc + BitVec.ofNat 57 sh.len

/-- Takes up the result of an instruction: unless it waits, it has issued, and what follows it keeps to its STALL, after a stop or a park too (R55). -/
def settleRes (i : Instr) (s0 : State) (g0 : Gang) (act : LaneMask) (r : Res) : State :=
  let sh := shape i
  let cyc := s0.cyc g0.core
  let next := g0.next sh
  let g0 := g0.issuedAt sh cyc
  match r with
  | .ok s g => s.putGang ((g.follow sh (g.live act) (shadowTakes sh)).advance sh cyc next)
  | .jump s g pc => s.putGang ((g.follow sh (g.live act) (shadowTakes sh)).transfer sh cyc pc)
  | .trap c => s0.takeStop g0 c 0 (wordsInfo i) act [] g0.pc next
  | .trapWith c d x => s0.takeStop g0 c d x act [] g0.pc next
  | .trapIn s c => s.takeStop g0 c 0 (wordsInfo i) act [] g0.pc next
  | .trapLanes s code =>
    s.takeStop g0 31 (if act = 0 then 0 else code) (wordsInfo i) act (codesOf ((bitsOn act).map (fun l => (l, code)))) g0.pc next
  | .lanes s g codes =>
    s.takeStop ((g.follow sh (g.live act &&& ~~~ codeMask codes) true).issuedWith sh cyc) 31 (match codes with | [] => 0 | x :: _ => x.2.toNat) (wordsInfo i)
      (codeMask codes) codes g0.pc next
  | .whole s g c code =>
    let codes := codesOf (if code = 0 then [] else (bitsOn (g.live act)).map (fun l => (l, code)))
    s.takeStop (g.issuedAt sh cyc) c (match (bitsOn act).head? with | some l => (Store.get codes l).toNat | none => 0) (wordsInfo i) act codes g0.pc next
  | .stop s g x replay => s.takeStop ((g.follow sh (g.live act) true).transfer sh cyc next) 0 0 x replay [] next next
  | .park s g kind faults codes =>
    let fm : LaneMask := maskOf 64 (faults.map (·.lane))
    s.parkGang ((g.follow sh (g.live act &&& ~~~ (fm ||| codeMask codes)) true).issuedWith sh cyc) (.fault fm next) (some (fm ||| codeMask codes))
      (s.faultRecs g kind faults)
  | .parkAll s g kind f => s.parkGang (g.issuedAt sh cyc) (.fault g.em next) (some act) (s.faultRecs g kind [f])
  | .wait s g w => s.putGang { g with stat := .waiting w }
  | .gone s => s

/-- An MMUL with a live active lane waits for a token: its gang is shuttered, whatever else the instruction would raise (R182, R183). -/
def Gang.tokenless (g : Gang) (sh : Shape) : Bool := !g.isHandler && !g.token && g.wantsToken sh

/-- A release: an access with `.rel` or `.acqrel`, a post, LARV, CBAR and GBAR (R291, R299). -/
def isRelease (sh : Shape) : Bool :=
  let o := sh.opc.toNat
  (decide (0x64 ≤ o) && decide (o ≤ 0x6A) && sh.w2.getLsbD 1) || o == 0x6C || (o == 0x6D && sh.xop == 1#8) || o == 0x74 || o == 0x75

/-- A memory instruction (R296). -/
def isMemory (sh : Shape) : Bool :=
  let o := sh.opc.toNat
  o == 0x1B || o == 0x1C || (decide (0x64 ≤ o) && decide (o ≤ 0x6B) && !isBset sh)

/-- An access of the gang that a peer has not answered stands before a FENCE that the gang has executed. -/
def State.fenced (s : State) (g : Gang) : Bool := s.far.any (fun f => f.what.isOf g.core g.slot && decide (f.id < g.fence))

/-- An acquire at `.dev` or `.sys`, or a FENCE at one of them (R303). -/
def isAcquire (sh : Shape) : Bool :=
  let o := sh.opc.toNat
  let wide (scope : Nat) : Bool := decide (Scope.dev.code ≤ scope)
  (decide (0x64 ≤ o) && decide (o ≤ 0x6A) && sh.w2.getLsbD 0 && wide (sh.w2.extractLsb' 2 3).toNat) || (o == 0x6B && wide sh.xop.toNat)

/-- What an instruction waits for: a release for every far write of its gang, a memory instruction for what a FENCE covers (log 69), and an acquire or a FENCE at
`.dev` or `.sys` for the commits that are under way, so that it sees all of them or none (R303, log 111). -/
def State.ordered (s : State) (g : Gang) (sh : Shape) : Bool :=
  (isRelease sh && s.farWriteOf g) || (isMemory sh && s.fenced g) || (isAcquire sh && s.committing)

/-- The words that every instruction reads, or that this one does, hold poison: its operands, the PC and the mask stack (R109). -/
def Gang.readsBad (g : Gang) (sh : Shape) : Bool :=
  sh.reads.any g.refBad || g.pcBad || g.stackBad sh.opc.toNat

/-- A fixed-latency result that the instruction names is not readable yet (R56). -/
def Gang.unready (g : Gang) (sh : Shape) (cyc : Nat) : Bool :=
  g.pend.any (fun p => (sh.reads ++ sh.writes).contains p.ref && decide (cyc < p.readyAt))
/-- The scoreboard holds the instruction: a variable-latency result, or activations that it would overwrite (R56, R176). -/
def Gang.boarded (g : Gang) (sh : Shape) : Bool :=
  g.busy.any (fun b => b.refs.any ((sh.reads ++ sh.writes).contains ·) || b.hold.any (sh.writes.contains ·))
/-- A dependence of the instruction is undersized (R56). -/
def Gang.short (g : Gang) (sh : Shape) : Bool :=
  g.schk && g.pend.any (fun p => (sh.reads ++ sh.writes).contains p.ref && decide (p.sum < p.lat))

/-- The stop for a write of the gang that has failed, before the instruction at its PC; one of which a peer has performed a part is finished first, and the stop
follows it (R355, R360). Each write that has failed stops the gang once, the oldest first (log 96). -/
def State.imprecise (s : State) (g : Gang) (act : LaneMask) (next : VAddr) : Option State :=
  match g.failed, g.arrived with
  | f :: l, [] => some (s.takeStop { g with failed := l } 34 0 (f.setWidth 64) act [] g.pc next)
  | _, _ => none

/-- A failed write stops the gang before its next instruction, whatever else it waits for. -/
def Gang.failing (g : Gang) : Bool := !g.failed.isEmpty && g.arrived.isEmpty

/-- DETAIL of its ILLEGAL: FILLER for OPC 0x7F (R63, R338). -/
def illegalDetail : Instr → Nat
  | .undef _ _ _ _ _ => 1
  | _ => 0

/-- Issues an instruction of a gang: the checks of R64, R355, R56, R109 and R357 in order, then its effect. -/
def issue (i : Instr) (s : State) (g : Gang) (bad : Bool) (body : State → Gang → LaneMask → Res) : State :=
  let sh := shape i
  let act := g.active sh
  let cyc := s.cyc g.core
  if cyc < g.notBefore then s
  else
    match s.imprecise g act (g.next sh) with
    | some t => t
    | none =>
      if bad then s.takeStop g 1 (illegalDetail i) (wordsInfo i) act [] g.pc (g.next sh)
      else if g.tokenless sh then
        (if g.unready sh cyc then s else s.putGang { g with stat := .waiting (if g.boarded sh then .scoreboard else .token) })
      else if g.n < vTop sh then s.takeStop g 2 0 (BitVec.ofNat 64 (vTop sh - 1)) act [] g.pc (g.next sh)
      else if g.short sh then s.takeStop g 3 0 (wordsInfo i) act [] g.pc (g.next sh)
      else if g.unready sh cyc then s
      else if g.boarded sh then s.putGang { g with stat := .waiting .scoreboard }
      else if g.readsBad sh || g.shadowSpoiled then (if s.shadowed g.launch && !g.isHandler then s.holdMismatch g else s.poisonScalar g)
      else if s.ordered g sh then s.putGang { g with stat := .waiting .far }
      else if compared sh && !g.checked && !g.isHandler && s.shadowed g.launch then
        s.putGang { g with stat := .waiting .shadow }
      else settleRes i s g act (body s g act)

/-- The gang is ready, its shadow has room, and its crew is not being saved (R331, R335, R356). -/
def State.mayIssue (s : State) (g : Gang) : Bool := g.stat == .ready && g.roomy && (g.isHandler || !s.preCrews.contains g.crew)

/-- Executes a gang-class instruction at the current agent. `bad` says whether the instruction is illegal in the issuing agent's mode
(R64). A pick whose gang is no longer ready loses its slot. -/
def runGang (i : Instr) (s : State) (bad : State → Gang → Bool) (body : State → Gang → LaneMask → Res) :
    Host.Outcome State Fault Refusal :=
  match s.cur with
  | some (.gang core slot) =>
    match s.gang? core slot with
    | some g => .next (if s.mayIssue g then issue i s g (bad s g) body else s)
    | none => .fault .noAgent
  | _ => .fault .noAgent

/-- Legal everywhere. -/
def anywhere (_ : State) (_ : Gang) : Bool := false
/-- ILLEGAL everywhere (R63). -/
def nowhere (_ : State) (_ : Gang) : Bool := true
/-- ILLEGAL in the handler slot (R64). -/
def notHandler (_ : State) (g : Gang) : Bool := g.isHandler
/-- ILLEGAL outside the handler slot (R348). -/
def onlyHandler (_ : State) (g : Gang) : Bool := !g.isHandler

/-- Adds a variable-latency result that dependants wait for (R56). -/
def State.late (s : State) (g : Gang) (refs : List Ref) (hold : List Ref := []) : State × Gang :=
  ({ s with nextId := s.nextId + 1 }, { g with busy := g.busy ++ [{ id := s.nextId, refs := refs, hold := hold }] })

/-- The value of an outstanding-operation counter (R283). -/
def Gang.counter (g : Gang) (c : OpCls) : Nat := (g.ops.filter (fun o => o.cls == c)).length

/-- Counts an operation from its issue, with the registers it will write (R283, R56). -/
def State.countOp (s : State) (g : Gang) (c : OpCls) (refs : List Ref) : State × Gang :=
  let busy := if refs.isEmpty then g.busy else g.busy ++ [{ id := s.nextId, refs := refs }]
  ({ s with nextId := s.nextId + 1 }, { g with ops := g.ops ++ [{ id := s.nextId, cls := c, done := false }], busy := busy })

end Sys2Proof.Machine
end

