-- ==== Sys2Proof/Machine/Scalar.lean ====
section
/-! DEFINITION. Scalar integer instructions (R113 to R116, R118). SLD and SST stand with the memory instructions. -/
namespace Sys2Proof.Machine

/-- `wr` of R114: the low bits of the type, extended to 64 bits. -/
def wrS (t : Fmt) (y : Int) : DWord :=
  let x := wrapInt t.bits y
  BitVec.ofInt 64 (if t.signed then signedOf t.bits x else (x : Int))

/-- A scalar instruction of two operands read by `rd` and written by `wr`; FMT 0 is `.i64` (R114). -/
def aluBody (h : SH) (t : Fmt) (d : BitVec 6) (a b : Sc) (f : Fmt → Int → Int → Int) (s : State) (g : Gang) (_ : LaneMask) : Res :=
  let t := t.or .i64
  .ok s (g.sSet d.toNat (wrS t (f t (rd t (s.sc g h.lit a).toNat) (rd t (s.sc g h.lit b).toNat))))

/-- A bitwise scalar instruction on 64 bits. -/
def bitBody (h : SH) (d : BitVec 6) (a b : Sc) (f : DWord → DWord → DWord) (s : State) (g : Gang) (_ : LaneMask) : Res :=
  .ok s (g.sSet d.toNat (f (s.sc g h.lit a) (s.sc g h.lit b)))

/-- Shifts take b as a 64-bit natural (R115). -/
def shiftBody (h : SH) (t : Fmt) (d : BitVec 6) (a b : Sc) (f : Fmt → Int → Nat → Int) (s : State) (g : Gang) (_ : LaneMask) : Res :=
  let t := t.or .i64
  .ok s (g.sSet d.toNat (wrS t (f t (rd t (s.sc g h.lit a).toNat) (s.sc g h.lit b).toNat)))

def shlInt (t : Fmt) (x : Int) (n : Nat) : Int := if n < t.bits then x * 2 ^ n else 0
/-- The floor of x / 2^n, or what is left of it beyond the width (R115, R133). -/
def shrInt (t : Fmt) (x : Int) (n : Nat) : Int := if n < t.bits then x / 2 ^ n else if x < 0 then -1 else 0
def mulHigh (t : Fmt) (x y : Int) : Int := (x * y) / 2 ^ t.bits

/-- R116. -/
def divInt (t : Fmt) (rem : Bool) (x y : Int) : Int :=
  if y = 0 then (if rem then x else -1)
  else if t.signed ∧ x = -(2 ^ (t.bits - 1) : Nat) ∧ y = -1 then (if rem then 0 else x)
  else if rem then x - Int.tdiv x y * y else Int.tdiv x y

/-- Counts of bits on a value of `w` bits (R115, R133). -/
def countOnes (w x : Nat) : Nat := popCount w x
def countLead (w x : Nat) : Nat := ((List.range w).takeWhile (fun i => !x.testBit (w - 1 - i))).length
def countTrail (w x : Nat) : Nat := ((List.range w).takeWhile (fun i => !x.testBit i)).length
def cntRun (op : CntOp) (w x : Nat) : Nat :=
  match op with
  | .popc => countOnes w x
  | .clz => countLead w x
  | .ctz => countTrail w x

def execSmov (st : BitVec 3) (d : BitVec 6) (a : Sc) (s : State) : Host.Outcome State Fault Refusal :=
  runGang (.smov st d a) s anywhere (fun s g _ => .ok s (g.sSet d.toNat (s.sc g none a)))

def execSmovLit (st : BitVec 3) (d : BitVec 6) (v : DWord) (s : State) : Host.Outcome State Fault Refusal :=
  runGang (.smovLit st d v) s anywhere (fun s g _ => .ok s (g.sSet d.toNat v))

def execSli (st : BitVec 3) (d : BitVec 6) (v : DWord) (s : State) : Host.Outcome State Fault Refusal :=
  runGang (.sli st d v) s anywhere (fun s g _ => .ok s (g.sSet d.toNat v))

def execSadd (h : SH) (t : Fmt) (d : BitVec 6) (a b : Sc) (s : State) : Host.Outcome State Fault Refusal :=
  runGang (.sadd h t d a b) s anywhere (aluBody h t d a b (fun _ x y => x + y))

def execSsub (h : SH) (t : Fmt) (d : BitVec 6) (a b : Sc) (s : State) : Host.Outcome State Fault Refusal :=
  runGang (.ssub h t d a b) s anywhere (aluBody h t d a b (fun _ x y => x - y))

def execSmul (h : SH) (t : Fmt) (d : BitVec 6) (a b : Sc) (s : State) : Host.Outcome State Fault Refusal :=
  runGang (.smul h t d a b) s anywhere (aluBody h t d a b (fun _ x y => x * y))

def execSmulh (h : SH) (t : Fmt) (d : BitVec 6) (a b : Sc) (s : State) : Host.Outcome State Fault Refusal :=
  runGang (.smulh h t d a b) s anywhere (aluBody h t d a b mulHigh)

def execSand (h : SH) (t : Fmt) (d : BitVec 6) (a b : Sc) (s : State) : Host.Outcome State Fault Refusal :=
  runGang (.sand h t d a b) s anywhere (bitBody h d a b (· &&& ·))

def execSor (h : SH) (t : Fmt) (d : BitVec 6) (a b : Sc) (s : State) : Host.Outcome State Fault Refusal :=
  runGang (.sor h t d a b) s anywhere (bitBody h d a b (· ||| ·))

def execSxor (h : SH) (t : Fmt) (d : BitVec 6) (a b : Sc) (s : State) : Host.Outcome State Fault Refusal :=
  runGang (.sxor h t d a b) s anywhere (bitBody h d a b (· ^^^ ·))

def execSshl (h : SH) (t : Fmt) (d : BitVec 6) (a b : Sc) (s : State) : Host.Outcome State Fault Refusal :=
  runGang (.sshl h t d a b) s anywhere (shiftBody h t d a b shlInt)

def execSshr (h : SH) (t : Fmt) (d : BitVec 6) (a b : Sc) (s : State) : Host.Outcome State Fault Refusal :=
  runGang (.sshr h t d a b) s anywhere (shiftBody h t d a b shrInt)

def execSmin (h : SH) (t : Fmt) (d : BitVec 6) (a b : Sc) (s : State) : Host.Outcome State Fault Refusal :=
  runGang (.smin h t d a b) s anywhere (aluBody h t d a b (fun _ x y => min x y))

def execSmax (h : SH) (t : Fmt) (d : BitVec 6) (a b : Sc) (s : State) : Host.Outcome State Fault Refusal :=
  runGang (.smax h t d a b) s anywhere (aluBody h t d a b (fun _ x y => max x y))

def execScmp (h : SH) (c : Cond) (t : Fmt) (d : BitVec 6) (a b : Sc) (s : State) : Host.Outcome State Fault Refusal :=
  runGang (.scmp h c t d a b) s anywhere (fun s g _ =>
    .ok s (g.sSet d.toNat (condBit c (t.or .i64) (s.sc g h.lit a).toNat (s.sc g h.lit b).toNat)))

def execSsel (h : SH) (t : Fmt) (d : BitVec 6) (a b c : Sc) (s : State) : Host.Outcome State Fault Refusal :=
  runGang (.ssel h t d a b c) s anywhere (fun s g _ =>
    .ok s (g.sSet d.toNat (if s.sc g h.lit c = 0 then s.sc g h.lit b else s.sc g h.lit a)))

/-- FMT 0 is `.n64` for SCNT (R114). -/
def execScnt (h : SH) (op : CntOp) (t : Fmt) (d : BitVec 6) (a : Sc) (s : State) : Host.Outcome State Fault Refusal :=
  runGang (.scnt h op t d a) s anywhere (fun s g _ =>
    let w := (t.or .n64).bits
    .ok s (g.sSet d.toNat (BitVec.ofNat 64 (cntRun op w ((s.sc g h.lit a).toNat % 2 ^ w)))))

/-- SDIV's result is a variable-latency one (R118). -/
def execSdiv (h : SH) (rem : Bool) (t : Fmt) (d : BitVec 6) (a b : Sc) (s : State) : Host.Outcome State Fault Refusal :=
  runGang (.sdiv h rem t d a b) s anywhere (fun s g act =>
    match aluBody h t d a b (fun t x y => divInt t rem x y) s g act with
    | .ok s g => let (s, g) := s.late g (Shape.sRef d.toNat); .ok s g
    | r => r)

end Sys2Proof.Machine
end

