-- ==== Sys2Proof/Machine/LaneInt.lean ====
section
/-! DEFINITION. The shared form of lane-wise instructions (R6, R130 to R132), and the vector integer instructions (R133 to R135). -/
namespace Sys2Proof.Machine

/-- A lane-wise instruction: lanes that consume poison in `regs` are killed first (R131 case 1); `f` gives a lane's result and the lane
code it raises, 0 for none; `put` writes the results of the lanes that raise nothing (R132). -/
def lanewise {α : Type} (regs : List Nat) (f : State → Gang → Nat → α × Nat) (put : Gang → List (Nat × α) → Gang)
    (s : State) (g : Gang) (act : LaneMask) : Res :=
  match s.consume g (g.badLanes (g.live act) regs) with
  | (s, none) => .gone s
  | (s, some g) =>
    let l := (bitsOn (g.live act)).map (fun i => (i, f s g i))
    let g' := put g ((l.filter (fun x => x.2.2 == 0)).map (fun x => (x.1, x.2.1)))
    match codesOf ((l.filter (fun x => x.2.2 != 0)).map (fun x => (x.1, x.2.2))) with
    | [] => .ok s g'
    | codes => .lanes s g' codes

/-- Results into a vector register or pair. -/
def putV (t : Fmt) (d : BitVec 8) (g : Gang) (l : List (Nat × Nat)) : Gang := l.foldl (fun g x => g.vPut t d.toNat x.1 x.2) g
/-- Results into bits of a mask register. -/
def putM (d : BitVec 4) (g : Gang) (l : List (Nat × Bool)) : Gang := g.mBits d.toNat l

/-- A result that arrives late holds its dependants (R56). -/
def lateRes (refs : List Ref) (r : Res) : Res :=
  match r with
  | .ok s g => let (s, g) := s.late g refs; .ok s g
  | r => r

def lane1 (h : VH) (t : Fmt) (d : BitVec 8) (a : VSrc) (f : Fmt → Nat → Nat) : State → Gang → LaneMask → Res :=
  lanewise (srcRegs t a) (fun s g i => (f t (s.vsrc g h.lit t a i), 0)) (putV t d)

def lane2 (h : VH) (t : Fmt) (d : BitVec 8) (a b : VSrc) (f : Fmt → Nat → Nat → Nat) : State → Gang → LaneMask → Res :=
  lanewise (srcRegs t a ++ srcRegs t b) (fun s g i => (f t (s.vsrc g h.lit t a i) (s.vsrc g h.lit t b i), 0)) (putV t d)

/-- `wr(f(rd(a), rd(b)))` as bits of the type. -/
def arith (f : Fmt → Int → Int → Int) (t : Fmt) (a b : Nat) : Nat := wrapInt t.bits (f t (rd t a) (rd t b))
/-- Shifts use the low 32 bits of the count (R133). -/
def shiftBy (f : Fmt → Int → Nat → Int) (t : Fmt) (a b : Nat) : Nat := wrapInt t.bits (f t (rd t a) (wrapInt 32 (rd t b)))
def bitsOf (f : Nat → Nat → Nat) (t : Fmt) (a b : Nat) : Nat := f (a % 2 ^ t.bits) (b % 2 ^ t.bits)

def bitReverse (w x : Nat) : Nat := (List.range w).foldl (fun r j => if x.testBit (w - 1 - j) then r + 2 ^ j else r) 0
def vbitRun (op : BitOp) (t : Fmt) (a : Nat) : Nat :=
  let w := t.bits
  let x := a % 2 ^ w
  match op with
  | .popc => countOnes w x
  | .clz => countLead w x
  | .ctz => countTrail w x
  | .rev => bitReverse w x

def execVmov (h : VH) (t : Fmt) (d : BitVec 8) (a : VSrc) (s : State) : Host.Outcome State Fault Refusal :=
  runGang (.vmov h t d a) s anywhere (lane1 h (t.or .b32) d a (fun _ x => x))

def execVadd (h : VH) (t : Fmt) (d : BitVec 8) (a b : VSrc) (s : State) : Host.Outcome State Fault Refusal :=
  runGang (.vadd h t d a b) s anywhere (lane2 h (t.or .i32) d a b (arith (fun _ x y => x + y)))

def execVsub (h : VH) (t : Fmt) (d : BitVec 8) (a b : VSrc) (s : State) : Host.Outcome State Fault Refusal :=
  runGang (.vsub h t d a b) s anywhere (lane2 h (t.or .i32) d a b (arith (fun _ x y => x - y)))

def execVmul (h : VH) (t : Fmt) (d : BitVec 8) (a b : VSrc) (s : State) : Host.Outcome State Fault Refusal :=
  runGang (.vmul h t d a b) s anywhere (lane2 h (t.or .i32) d a b (arith (fun _ x y => x * y)))

def execVmulh (h : VH) (t : Fmt) (d : BitVec 8) (a b : VSrc) (s : State) : Host.Outcome State Fault Refusal :=
  runGang (.vmulh h t d a b) s anywhere (lane2 h (t.or .i32) d a b (arith mulHigh))

def execVmad (h : VH) (t : Fmt) (d : BitVec 8) (a b c : VSrc) (s : State) : Host.Outcome State Fault Refusal :=
  let t' := t.or .i32
  runGang (.vmad h t d a b c) s anywhere
    (lanewise (srcRegs t' a ++ srcRegs t' b ++ srcRegs t' c)
      (fun s g i => (wrapInt t'.bits (rd t' (s.vsrc g h.lit t' a i) * rd t' (s.vsrc g h.lit t' b i) + rd t' (s.vsrc g h.lit t' c i)), 0))
      (putV t' d))

def execVand (h : VH) (t : Fmt) (d : BitVec 8) (a b : VSrc) (s : State) : Host.Outcome State Fault Refusal :=
  runGang (.vand h t d a b) s anywhere (lane2 h (t.or .b32) d a b (bitsOf (· &&& ·)))

def execVor (h : VH) (t : Fmt) (d : BitVec 8) (a b : VSrc) (s : State) : Host.Outcome State Fault Refusal :=
  runGang (.vor h t d a b) s anywhere (lane2 h (t.or .b32) d a b (bitsOf (· ||| ·)))

def execVxor (h : VH) (t : Fmt) (d : BitVec 8) (a b : VSrc) (s : State) : Host.Outcome State Fault Refusal :=
  runGang (.vxor h t d a b) s anywhere (lane2 h (t.or .b32) d a b (bitsOf (· ^^^ ·)))

def execVshl (h : VH) (t : Fmt) (d : BitVec 8) (a b : VSrc) (s : State) : Host.Outcome State Fault Refusal :=
  runGang (.vshl h t d a b) s anywhere (lane2 h (t.or .i32) d a b (shiftBy shlInt))

def execVshr (h : VH) (t : Fmt) (d : BitVec 8) (a b : VSrc) (s : State) : Host.Outcome State Fault Refusal :=
  runGang (.vshr h t d a b) s anywhere (lane2 h (t.or .i32) d a b (shiftBy shrInt))

def execVmin (h : VH) (t : Fmt) (d : BitVec 8) (a b : VSrc) (s : State) : Host.Outcome State Fault Refusal :=
  runGang (.vmin h t d a b) s anywhere (lane2 h (t.or .i32) d a b (arith (fun _ x y => min x y)))

def execVmax (h : VH) (t : Fmt) (d : BitVec 8) (a b : VSrc) (s : State) : Host.Outcome State Fault Refusal :=
  runGang (.vmax h t d a b) s anywhere (lane2 h (t.or .i32) d a b (arith (fun _ x y => max x y)))

def execVabs (h : VH) (t : Fmt) (d : BitVec 8) (a : VSrc) (s : State) : Host.Outcome State Fault Refusal :=
  runGang (.vabs h t d a) s anywhere (lane1 h (t.or .i32) d a (fun t x => wrapInt t.bits (rd t x).natAbs))

def execVcmp (h : VH) (c : Cond) (t : Fmt) (d : BitVec 4) (a b : VSrc) (s : State) : Host.Outcome State Fault Refusal :=
  let t' := t.or .i32
  runGang (.vcmp h c t d a b) s anywhere
    (lanewise (srcRegs t' a ++ srcRegs t' b)
      (fun s g i => (c.int? (rd t' (s.vsrc g h.lit t' a i)) (rd t' (s.vsrc g h.lit t' b i)), 0)) (putM d))

/-- VSEL reads both sources of its lane, and the whole mask register (R134). -/
def execVsel (h : VH) (t : Fmt) (d : BitVec 8) (a b : VSrc) (c : BitVec 4) (s : State) : Host.Outcome State Fault Refusal :=
  let t' := t.or .b32
  runGang (.vsel h t d a b c) s anywhere
    (lanewise (srcRegs t' a ++ srcRegs t' b)
      (fun s g i => (if (g.mGet c.toNat).getLsbD i then s.vsrc g h.lit t' a i else s.vsrc g h.lit t' b i, 0)) (putV t' d))

/-- Integer to integer by R32: wraps, or clamps under SAT (R135). -/
def execVcvt (h : VH) (f t : Fmt) (d : BitVec 8) (a : VSrc) (s : State) : Host.Outcome State Fault Refusal :=
  runGang (.vcvt h f t d a) s anywhere
    (lanewise (srcRegs f a) (fun s g i => (t.convInt g.sat (rd f (s.vsrc g h.lit f a i)), 0)) (putV t d))

def execVbit (h : VH) (op : BitOp) (t : Fmt) (d : BitVec 8) (a : VSrc) (s : State) : Host.Outcome State Fault Refusal :=
  runGang (.vbit h op t d a) s anywhere (lane1 h (t.or .n32) d a (vbitRun op))

def execVsat (h : VH) (sub : Bool) (t : Fmt) (d : BitVec 8) (a b : VSrc) (s : State) : Host.Outcome State Fault Refusal :=
  runGang (.vsat h sub t d a b) s anywhere
    (lane2 h (t.or .i32) d a b (arith (fun t x y => clamp t.lo t.hi (if sub then x - y else x + y))))

end Sys2Proof.Machine
end

