-- ==== Sys2Proof/Machine/Residue.lean ====
section
/-! DEFINITION. Residue channels (R187 to R200): octets, reverse conversion and its reports, and RFWD, RREV, RCHK and RMAD (R201 to R203). -/
namespace Sys2Proof.Machine

/-- The moduli of R187. -/
def modulus (c : Nat) : Nat := [251, 241, 239, 233, 229, 227, 223, 211].getD c 251

/-- G of R189. -/
def resG : Int := 77787008781251

/-- Byte c of an octet, read as its remainder (R188). -/
def octet (x c : Nat) : Nat := x / 256 ^ c % 256 % modulus c
/-- The octet with the given residues. -/
def octetOf (f : Nat → Nat) : Nat := (List.range 8).foldl (fun r c => r + f c * 256 ^ c) 0
def forward (x : Int) : Nat := octetOf (fun c => (x % (modulus c : Nat)).toNat)

/-- The inverse of `a` modulo `m`, by search below `n`. -/
def invMod (a m : Nat) : Nat → Nat
  | 0 => 0
  | n + 1 => if a * n % m = 1 then n else invMod a m n

/-- Mixed-radix conversion over the channels listed: the natural number below their product, and the product. -/
def mixRadix (x : Nat) : List Nat → Nat × Nat
  | [] => (0, 1)
  | c :: r =>
    let (y, p) := mixRadix x r
    let m := modulus c
    let t := (octet x c + m - y % m) * invMod (p % m) m m % m
    (y + p * t, p * m)

/-- recon(S) for the channels of a mask. -/
def recon (e : BitVec 8) (x : Nat) : Int :=
  let (y, p) := mixRadix x (bitsOn e)
  if y ≤ (p - 1) / 2 then (y : Int) else (y : Int) - p

def inRange (y : Int) : Bool := decide (y.natAbs ≤ resG.natAbs)

/-- The outcomes of R196. -/
inductive Conv where
  | clean (y : Int)
  | corrected (y : Int) (c : Nat)
  | overflow (y : Int)
  | fault
  deriving DecidableEq, Repr

def convert (e : BitVec 8) (x : Nat) : Conv :=
  let y := recon e x
  if inRange y then .clean y
  else
    match (bitsOn e).filter (fun c => inRange (recon (putBit e c false) x)) with
    | [] => .overflow (if y < 0 then -resG else resG)
    | [c] => if (bitsOn e).length = 8 then .corrected (recon (putBit e c false) x) c else .fault
    | _ => .fault

/-- Bits of the destination type, and whether they are poisoned (R196, R32). -/
def Conv.result (t : Fmt) (sat : Bool) : Conv → Nat × Bool
  | .clean y | .corrected y _ | .overflow y => (t.convInt sat y, false)
  | .fault => (0, true)
def Conv.isOverflow : Conv → Bool
  | .overflow _ => true
  | _ => false

def residueErr (c : Nat) : Ctr :=
  match c with
  | 0 => .residueErr0 | 1 => .residueErr1 | 2 => .residueErr2 | 3 => .residueErr3 | 4 => .residueErr4 | 5 => .residueErr5
  | 6 => .residueErr6 | _ => .residueErr7

/-- One ERR count raised by n, stopping at 15 (R193). -/
def errAdd (err : BitVec 32) (c n : Nat) : BitVec 32 :=
  let old := (err.extractLsb' (4 * c) 4).toNat
  (err &&& ~~~ (BitVec.ofNat 32 (15 * 16 ^ c))) ||| BitVec.ofNat 32 (min 15 (old + n) * 16 ^ c)

/-- The reports of the conversions of one instruction (R198). DESIGN CHOICE (log 81): RESIDUE_OVERFLOWS also counts a lane that raises RESIDUE_OVERFLOW
under OVT = 1. -/
def State.reportConv (s : State) (g : Gang) (l : List Conv) : State :=
  let s := s.countAt g.place .residueFaults (l.filter (· == .fault)).length
  let s := s.countAt g.place .residueOverflows (l.filter Conv.isOverflow).length
  (List.range 8).foldl (fun s c =>
    let n := (l.filter (fun x => match x with | .corrected _ d => d == c | _ => false)).length
    if n = 0 then s
    else
      let s := s.countAt g.place (residueErr c) n
      let s := s.modCore g.core (fun k => { k with err := errAdd k.err c n })
      { s with reports := s.reports ++ [.residue g.core g.slot g.pc c n] }) s

def State.en (s : State) (g : Gang) : BitVec 8 := (s.core g.core).en
/-- Fewer than seven channels (R199). -/
def fewChannels (e : BitVec 8) : Bool := decide ((bitsOn e).length < 7)

/-- A residue lane instruction: RESIDUE_UNAVAIL first, then lane by lane (R199, R202). -/
def residueBody (f : State → Gang → LaneMask → Res) (s : State) (g : Gang) (act : LaneMask) : Res :=
  if fewChannels (s.en g) then .trap 20 else f s g act

def execRfwd (h : VH) (f f2 : Fmt) (d : BitVec 8) (a : VSrc) (s : State) : Host.Outcome State Fault Refusal :=
  let t := f.or .i32
  runGang (.rfwd h f f2 d a) s anywhere
    (residueBody (lanewise (srcRegs t a) (fun s g i => (forward (rd t (s.vsrc g h.lit t a i)), 0)) (putV .n64 d)))

def execRmad (h : VH) (d : BitVec 8) (a b c : VSrc) (s : State) : Host.Outcome State Fault Refusal :=
  runGang (.rmad h d a b c) s anywhere
    (residueBody (lanewise (srcRegs .n64 a ++ srcRegs .n64 b ++ srcRegs .n64 c)
      (fun s g i =>
        let x := s.pair g h.lit a i
        let y := s.pair g h.lit b i
        let z := s.pair g h.lit c i
        (octetOf (fun k => (octet x k * octet y k + octet z k) % modulus k), 0))
      (putV .n64 d)))

def execRchk (h : VH) (d : BitVec 4) (a : VSrc) (s : State) : Host.Outcome State Fault Refusal :=
  runGang (.rchk h d a) s anywhere
    (residueBody (lanewise (srcRegs .n64 a) (fun s g i => (inRange (recon (s.en g) (s.pair g h.lit a i)), 0)) (putM d)))

/-- RREV (R196, R198, R203): with OVT a range overflow raises in its lane and writes neither destination. -/
def execRrev (h : VH) (t f2 : Fmt) (d : BitVec 8) (a : VSrc) (c : BitVec 4) (s : State) : Host.Outcome State Fault Refusal :=
  let t' := t.or .i64
  let conv (s : State) (g : Gang) (i : Nat) : Conv := convert (s.en g) (s.pair g h.lit a i)
  runGang (.rrev h t f2 d a c) s anywhere
    (residueBody (fun s g act =>
      match lanewise (srcRegs .n64 a)
          (fun s g i => let v := conv s g i; (v, if v.isOverflow && g.ovt then 8 else 0))
          (fun g l =>
            let g := l.foldl (fun g x => let r := x.2.result t' g.sat; g.vPut t' d.toNat x.1 r.1 r.2) g
            g.mBits c.toNat (l.map (fun x => (x.1, x.2.isOverflow)))) s g act with
      | .ok s' g' => .ok (s'.reportConv g ((bitsOn (g'.live act)).map (conv s' g))) g'
      | .lanes s' g' codes => .lanes (s'.reportConv g ((bitsOn (g'.live act)).map (conv s' g))) g' codes
      | r => r))

end Sys2Proof.Machine
end

