-- ==== Sys2Proof/Machine/Array.lean ====
section
/-! DEFINITION. The array (R155 to R181, R183, R184, R190, R191): slot images and weight planes, tiles and their entries, zero-skipping, and
MWLD, MMUL, MACLR, MARD and MAWR. -/
namespace Sys2Proof.Machine

/- Slot images and weight planes -/

/-- Bytes of a slot image (R155). -/
def imageBytes : Nat := 8228

def imgByte (m : Store 8) (a : Nat) : Nat := (Store.get m a).toNat
def imgHalf (m : Store 8) (a : Nat) : Nat := imgByte m a + 256 * imgByte m (a + 1)
/-- The format word (R157). -/
def formatWord (m : Store 8) : Nat := imgHalf m 8224 + 65536 * imgHalf m 8226

/-- The weight formats of R156. -/
def wfmtOk (w : Nat) : Bool := [11, 12, 13, 14, 1, 2, 5].contains w

/-- Slices 4n to 4n + 3 agree in the bytes that the table uses (R156). -/
def groupsAgree (m : Store 8) (w : Nat) : Bool :=
  let used := if w = 1 then 64 else 128
  (w != 1 && w != 2) ||
    (List.range 64).all (fun j => (List.range used).all (fun b => imgByte m (128 * j + b) == imgByte m (128 * (j / 4 * 4) + b)))

/-- The bits of weight element w(k, j) of slice j (R156); for CB4 the codebook entry that the code selects (R175). -/
def weightBits (m : Store 8) (w j k : Nat) : Nat :=
  match w with
  | 11 | 12 | 2 => imgHalf m (128 * j + 2 * k)
  | 14 =>
    let b := imgByte m (128 * j + k / 2)
    let code := if k % 2 = 0 then b % 16 else b / 16
    imgHalf m (8192 + 2 * code)
  | _ => imgByte m (128 * j + k)

/-- The number format of the weights' values. -/
def weightFp (w : Nat) : FpFmt :=
  match w with
  | 11 => fp16
  | 13 => fpF8
  | _ => fpBf16

/-- Elements of a column (R156). -/
def depthOf (w : Nat) : Nat :=
  match w with
  | 13 => 128
  | 14 => 256
  | _ => 64

def weightZero (m : Store 8) (w j k : Nat) : Bool := ((weightFp w).read (weightBits m w j k)).isZero

/-- Group g of column j qualifies (R180). -/
def groupQualifies (m : Store 8) (w j g : Nat) : Bool :=
  decide (32 ≤ ((List.range 64).filter (fun x => weightZero m w j (64 * g + x))).length)

/-- The number of qualifying groups (R180). -/
def zeroGroups (m : Store 8) (w : Nat) : Nat :=
  if decide (11 ≤ w) && decide (w ≤ 14) then
    ((List.range 64).map (fun j => ((List.range (depthOf w / 64)).filter (groupQualifies m w j)).length)).foldl (· + ·) 0
  else 0

/-- The columns that uncorrectable symbols poison; an error in the codebook or the format word poisons all (R160). -/
def badColumns (bad : Store 1) : LaneMask :=
  if bad.any (fun x => decide (2048 ≤ x.1)) then BitVec.allOnes 64 else maskOf 64 (bad.map (fun x => x.1 / 32))

/-- The parts of a slot that have a code of their own: a slice, the codebook, the format word (R160). -/
def symbolPart (n : Nat) : Nat := if n < 2048 then n / 32 else if n < 2056 then 64 else 65
/-- Bad symbols in a part. -/
def Slot.badIn (x : Slot) (p : Nat) : Nat := (x.bad.filter (fun y => symbolPart y.1 == p)).length + (x.upset.filter (fun y => symbolPart y.1 == p)).length
/-- The uncorrectable symbols: those stored so, and two or more hit in one part (R160). -/
def Slot.lost (x : Slot) : Store 1 := (x.upset.filter (fun y => decide (2 ≤ x.badIn (symbolPart y.1)))).foldl (fun m y => Store.set m y.1 1) x.bad
/-- The symbols that reading the slot corrects: one alone in its part (R160). -/
def Slot.corrected (x : Slot) : Nat := (x.upset.filter (fun y => x.badIn (symbolPart y.1) == 1)).length

def State.lease? (s : State) (core launch : Nat) : Option Lease := s.leases.find? (fun l => l.core == core && l.launch == launch)
/-- A leased slot, empty when newly allotted (R158). -/
def State.slotOf (s : State) (core launch t : Nat) : Slot :=
  ((s.lease? core launch).bind (fun l => Tab.get? l.slots t)).getD {}
/-- A slot written whole: planes that crews on the core have loaded from it no longer stand for it (R161). -/
def State.setSlot (s : State) (core launch t : Nat) (x : Slot) : State :=
  { s with
    leases := s.leases.map (fun l => if l.core == core && l.launch == launch then { l with slots := Tab.set l.slots t x } else l)
    crews := s.crews.map (fun c => if c.2.launch == launch && c.2.core == core && c.2.resident then
        (c.1, { c.2 with planes := c.2.planes.map (fun p => (p.1, if p.2.slot = t then { p.2 with fresh := false } else p.2)) })
      else c) }

/-- ACC of the partition word of a launch (R103). -/
def State.accUnits (s : State) (launch : Nat) : Nat := ((s.launch? launch).map (fun l => bitField l.pkt.part.toNat 23 16)).getD 0
/-- The tiles that a gang of the launch names: ACC, or half of it under SHADOW (R163, R356). -/
def State.accOf (s : State) (launch : Nat) : Nat := if s.shadowed launch then s.accUnits launch / 2 else s.accUnits launch
def State.tlease (s : State) (launch : Nat) : Nat := ((s.launch? launch).map (·.pkt.tlease)).getD 0

/-- The shadow of a gang of the crew has instructions to run, whose MMULs use the planes as they stand (R356). -/
def State.shadowsBehind (s : State) (crew : Nat) : Bool := (s.crewGangs crew).any (fun g => (g.shadow.map (fun x => !x.queue.isEmpty)).getD false)

/-- MWLD (R172, R160). It waits while its plane streams, and, a choice of the model (log 82), while a shadow of the crew is behind.
DESIGN CHOICE (log 102): where the format word is not correctable it is the stored bits that say the format. -/
def mwldBody (h : SH) (d : BitVec 6) (a : Sc) (p : Bool) (s : State) (g : Gang) (_ : LaneMask) : Res :=
  let t := (s.sc g h.lit a).toNat
  let done (s : State) (plane : Option Plane) (x : DWord) : Res :=
    let s := s.modCrew g.crew (fun c => { c with planes :=
      match plane with
      | some q => Tab.set c.planes p.toNat q
      | none => Tab.erase c.planes p.toNat })
    let (s, g) := s.late (g.sSet d.toNat x) (Shape.sRef d.toNat)
    .ok s g
  if s.accUnits g.launch = 0 then .trap 15
  else if s.tlease g.launch ≤ t then .trap 16
  else if (s.core g.core).streams.any (fun x => x.plane == p) || s.shadowsBehind g.crew then .wait s g .plane
  else
    let x := s.slotOf g.core g.launch t
    let s := s.countAt g.place .transomCorrected x.corrected
    if !x.lost.isEmpty && x.src.isSome then .wait (s.countAt g.place .transomRefetch) g (.refetch t)
    else
      let f := formatWord x.img
      if f = 0 then done s none 1
      else if !wfmtOk f || !groupsAgree x.img f then .trapIn s 19
      else done (s.countAt g.place .zskipGroups (zeroGroups x.img f)) (some { img := x.img, wfmt := f, slot := t, bad := badColumns x.lost }) 0

def execMwld (h : SH) (d : BitVec 6) (a : Sc) (p : Bool) (s : State) : Host.Outcome State Fault Refusal :=
  runGang (.mwld h d a p) s notHandler (mwldBody h d a p)

/- Tiles -/

/-- Columns of a tile (R164). -/
def tileCols : TileFmt → Nat
  | .res => 16
  | _ => 64

/-- The initial value of an XA entry (R164). -/
def tileInitial : TileFmt → Xa
  | .min => { Xa.zero with pinf := true }
  | .max => { Xa.zero with ninf := true }
  | _ => Xa.zero

/-- The number of the entry at row i and column j. -/
def Tile.entry (t : Tile) (i j : Nat) : Nat := tileCols t.fmt * i + j
def Tile.xa (t : Tile) (e : Nat) : Xa := (Tab.get? t.cells e).getD (tileInitial t.fmt)
def Tile.octet (t : Tile) (e : Nat) : Nat := (Store.get t.res e).toNat
/-- 32-bit words of an entry, each with a poison bit of its own: 80 bytes of VALUE, or 8 bytes (R108, R164, R165). -/
def entryWords : TileFmt → Nat
  | .res => 2
  | _ => 20

/-- The poison bits of entry `e`, by word. -/
def Tile.poisAt (t : Tile) (e k : Nat) : Nat := entryWords t.fmt * e + k
def Tile.wordBad (t : Tile) (e k : Nat) : Bool := Store.get t.pois (t.poisAt e k) != 0
def Tile.setBad (t : Tile) (e k : Nat) : Tile := { t with pois := Store.set t.pois (t.poisAt e k) 1 }
/-- An entry is poisoned when any of its words is (R108). -/
def Tile.poisoned (t : Tile) (e : Nat) : Bool := t.pois.any (fun x => x.1 / entryWords t.fmt == e && x.2 != 0)
/-- Poisons every word of an entry, or clears them. -/
def Tile.poison (t : Tile) (e : Nat) (b : Bool) : Tile :=
  if b then (List.range (entryWords t.fmt)).foldl (fun t k => t.setBad e k) t
  else { t with pois := t.pois.filter (fun x => x.1 / entryWords t.fmt != e) }

/-- The tile that a name means: the shadow's copy stands H tiles higher (R356). -/
def State.tileIx (s : State) (g : Gang) (k : Nat) : Nat := if g.isShadow then k + s.accOf g.launch else k
def State.tile (s : State) (g : Gang) (k : Nat) : Tile := ((s.crew? g.crew).bind (fun c => Tab.get? c.tiles (s.tileIx g k))).getD {}
def State.setTile (s : State) (g : Gang) (k : Nat) (t : Tile) : State :=
  s.modCrew g.crew (fun c => { c with tiles := Tab.set c.tiles (s.tileIx g k) t })
def State.plane? (s : State) (g : Gang) (p : Bool) : Option Plane := (s.crew? g.crew).bind (fun c => Tab.get? c.planes p.toNat)

/- MMUL -/

/-- The tile format of a row of R173. -/
def mmulTile (sr : Semi) (w : Fmt) : TileFmt :=
  match sr with
  | .plus => if w == .i8 || w == .i16 then .res else .plus
  | .min => .min
  | .max => .max
  | .or => .or

/-- Element x(i, k) of the activation tile (R174). -/
def activation (g : Gang) (x : Fmt) (a i k : Nat) : Nat :=
  if x.bits = 16 then g.vGet (a + k / 2) i / 65536 ^ (k % 2) % 65536
  else g.vGet (a + k / 4) i / 256 ^ (k % 4) % 256

/-- One entry of a floating-point tile after the terms of a column (R175). -/
def mmulXa (sr : Semi) (fx fw : FpFmt) (e : Xa) (terms : List (Nat × Nat)) : Xa :=
  terms.foldl (fun e t =>
    let x := fx.read t.1
    let y := fw.read t.2
    match sr with
    | .min => e.extCombine false (extTerm false x y)
    | .max => e.extCombine true (extTerm true x y)
    | _ => e.addProd x y) e

/-- One residue entry: the enabled channels take the sum of the products of their columns modulo their moduli (R175, R190). -/
def mmulRes (en : BitVec 8) (e : Nat) (terms : Nat → List (Int × Int)) : Nat :=
  (List.range 8).foldl (fun r c =>
    let b := e / 256 ^ c % 256
    let v := if en.getLsbD c then
        (terms c).foldl (fun v t =>
          let m : Int := (modulus c : Nat)
          ((v + (t.1 % m) * (t.2 % m)) % m)) (b : Int)
      else (b : Int)
    r + v.toNat * 256 ^ c) 0

/-- The new entry (i, j) of a tile; in residue format the cell column 4j + q carries channels 2q and 2q + 1 (R190). -/
def mmulEntry (sr : Semi) (x w : Fmt) (g : Gang) (a : Nat) (p : Plane) (en : BitVec 8) (t : Tile) (i j : Nat) : Tile :=
  let n := t.entry i j
  let column (slice : Nat) : List (Nat × Nat) := (List.range (depthOf p.wfmt)).map (fun k => (activation g x a i k, weightBits p.img p.wfmt slice k))
  let terms := column j
  let bad := if t.fmt = .res then (List.range 4).any (fun q => p.bad.getLsbD (4 * j + q)) else p.bad.getLsbD j
  let t := if bad then t.poison n true else t
  match t.fmt with
  | .res => { t with res := Store.set t.res n (BitVec.ofNat 64 (mmulRes en (t.octet n) (fun c => (column (4 * j + c / 2)).map (fun y => (rd x y.1, rd w y.2))))) }
  | .or => { t with cells := Tab.set t.cells n { t.xa n with sum := BitVec.ofNat 704 (terms.foldl (fun e y => e ||| (y.1 &&& y.2)) (t.xa n).sum.toNat) } }
  | _ => { t with cells := Tab.set t.cells n (mmulXa sr x.fp (weightFp p.wfmt) (t.xa n) terms) }

/-- Cycles saved by zero-skipping: 64 − S (R181). -/
def zskipSaved (x : Fmt) (g : Gang) (a : Nat) (p : Plane) (rows : List Nat) : Nat :=
  let n := depthOf p.wfmt / 64
  ((List.range n).map (fun r =>
    let all := (List.range 64).all (fun j => groupQualifies p.img p.wfmt j r)
    let special := rows.any (fun i => (List.range 64).any (fun k =>
      match x.fp.read (activation g x a i (64 * r + k)) with
      | .fin _ => false
      | _ => true))
    if all && !special then 64 / n / 2 else 0)).foldl (· + ·) 0

/-- Products that are power-gated (R181). -/
def zgated (x : Fmt) (g : Gang) (a : Nat) (p : Plane) (rows : List Nat) : Nat :=
  (rows.map (fun i => ((List.range (depthOf p.wfmt)).map (fun k =>
    if (x.fp.read (activation g x a i k)).isZero then
      ((List.range 64).filter (fun j => match (weightFp p.wfmt).read (weightBits p.img p.wfmt j k) with
        | .fin _ => true
        | _ => false)).length
    else 0)).foldl (· + ·) 0)).foldl (· + ·) 0

/-- MMUL once it has its token (R175, R176, R191). -/
def mmulRun (sr : Semi) (x w : Fmt) (k : BitVec 3) (a : BitVec 8) (pl : Bool) (p : Plane) (s : State) (g : Gang) (act : LaneMask) : Res :=
  let n := Shape.mmulRegs x w
  match s.consume g (g.badLanes (g.live act) ((List.range n).map (fun r => a.toNat + r))) with
  | (s, none) => .gone s
  | (s, some g) =>
    let rows := bitsOn (g.live act)
    let t := s.tile g k.toNat
    let en := s.en g
    let t := rows.foldl (fun t i => (List.range (tileCols t.fmt)).foldl (fun t j => mmulEntry sr x w g a.toNat p en t i j) t) t
    let t := if t.fmt = .res then { t with valid := t.valid &&& en } else t
    let s := s.setTile g k.toNat t
    let s := if t.fmt = .plus then
        (s.countAt g.place .zskipCycles (zskipSaved x g a.toNat p rows)).countAt g.place .zgateProducts (zgated x g a.toNat p rows)
      else s
    let s' := s.modCore g.core (fun c => { c with streams := c.streams ++ [{ crew := g.crew, slot := g.slot, id := s.nextId, plane := pl }] })
    let (s', g) := s'.late { g with token := false } [.tile k.toNat] (Shape.vRange a.toNat n)
    .ok s' g

def mmulBody (sr : Semi) (x w : Fmt) (k : BitVec 3) (a : BitVec 8) (p : Bool) (s : State) (g : Gang) (act : LaneMask) : Res :=
  if s.accOf g.launch ≤ k.toNat then .trap 15
  else if (s.tile g k.toNat).fmt ≠ mmulTile sr w then .trap 17
  else
    match s.plane? g p with
    | none => .trap 18
    | some q =>
      if q.wfmt ≠ w.code.toNat then .trap 18
      else if mmulTile sr w = .res && fewChannels (s.en g) then .trap 20
      else if g.live act = 0 then .ok s g
      else mmulRun sr x w k a p q s g act

def execMmul (h : VH) (sr : Semi) (x w : Fmt) (k : BitVec 3) (a : BitVec 8) (p : Bool) (s : State) : Host.Outcome State Fault Refusal :=
  runGang (.mmul h sr x w k a p) s notHandler (mmulBody sr (x.or .bf16) w k a p)

/-- MACLR (R177, R191). -/
def execMaclr (st : BitVec 3) (f : TileFmt) (k : BitVec 3) (s : State) : Host.Outcome State Fault Refusal :=
  runGang (.maclr st f k) s notHandler (fun s g _ =>
    if s.accOf g.launch ≤ k.toNat then .trap 15
    else if f = .res && fewChannels (s.en g) then .trap 20
    else
      let s := s.setTile g k.toNat { fmt := f, valid := if f = .res then s.en g else 0 }
      let (s, g) := s.late g [.tile k.toNat]
      .ok s g)

/-- The tile format agrees with the kind that a program expects (R178). -/
def kindMatches (kind : Fmt) (f : TileFmt) : Bool :=
  match kind with
  | .n8 => f == .or
  | .i64 => f == .res
  | _ => f == .plus || f == .min || f == .max

/-- One entry read out: bits of the lane type, poison, and the lane code it raises (R178, R198). -/
structure Readout where
  bits : Nat
  bad : Bool
  code : Nat
  conv : Option Conv := none
  deriving DecidableEq, Repr

def mardEntry (md : Mode) (t kind : Fmt) (e : BitVec 8) (g : Gang) (x : Tile) (n : Nat) : Readout :=
  match kind with
  | .n8 => { bits := (x.xa n).sum.toNat % 256, bad := x.poisoned n, code := 0 }
  | .i64 =>
    let v := convert e (x.octet n)
    let r := v.result t g.sat
    { bits := r.1, bad := r.2 || x.poisoned n, code := if v.isOverflow && g.ovt then 8 else 0, conv := some v }
  | _ =>
    let r := (x.xa n).readout t md g.sat
    { bits := r.1, bad := x.poisoned n, code := g.fpTrap r.2 }

def mardBody (h : VH) (r : Rnd) (t kind : Fmt) (d : BitVec 8) (k : BitVec 3) (b : Sc) (n : Nat) (s : State) (g : Gang) (act : LaneMask) : Res :=
  let x := s.tile g k.toNat
  let c0 := (s.sc g h.lit b).toNat
  let e := x.valid &&& s.en g
  if s.accOf g.launch ≤ k.toNat || decide (tileCols x.fmt < c0 + n) then .trap 15
  else if !kindMatches kind x.fmt then .trap 17
  else if kind = .i64 && fewChannels e then .trap 20
  else
    let w := Shape.regsOf t
    let l := (bitsOn (g.live act)).map (fun i => (i, (List.range n).map (fun q => (q, mardEntry (g.mode r) t kind e g x (x.entry i (c0 + q))))))
    let codeOf (y : List (Nat × Readout)) : Nat := ((y.map (·.2.code)).find? (· != 0)).getD 0
    let good := l.filter (fun y => codeOf y.2 == 0)
    let g' := good.foldl (fun g y => y.2.foldl (fun g z => g.vPut t (d.toNat + w * z.1) y.1 z.2.bits z.2.bad) g) g
    let s' := s.reportConv g ((l.map (fun y => y.2.filterMap (·.2.conv))).flatten)
    match codesOf ((l.filter (fun y => codeOf y.2 != 0)).map (fun y => (y.1, codeOf y.2))) with
    | [] => lateRes (Shape.vRange d.toNat (n * w)) (.ok s' g')
    | codes => .lanes s' g' codes

def execMard (h : VH) (r : Rnd) (t kind : Fmt) (d : BitVec 8) (k : BitVec 3) (b : Sc) (nm1 : BitVec 6) (s : State) :
    Host.Outcome State Fault Refusal :=
  runGang (.mard h r t kind d k b nm1) s notHandler (mardBody h r (t.or .f32) kind d k b (nm1.toNat + 1))

/-- One entry written (R179). -/
def mawrEntry (t kind : Fmt) (x : Tile) (n bits : Nat) : Tile :=
  let x := x.poison n false
  match kind with
  | .n8 => { x with cells := Tab.set x.cells n { Xa.zero with sum := BitVec.ofNat 704 (bits % 256) } }
  | .i64 => { x with res := Store.set x.res n (BitVec.ofNat 64 (forward (rd t bits))) }
  | _ => { x with cells := Tab.set x.cells n (Xa.zero.addTerm t bits) }

def mawrBody (h : VH) (t kind : Fmt) (k : BitVec 3) (a : BitVec 8) (b : Sc) (n : Nat) (s : State) (g : Gang) (act : LaneMask) : Res :=
  let x := s.tile g k.toNat
  let c0 := (s.sc g h.lit b).toNat
  let w := Shape.regsOf t
  if s.accOf g.launch ≤ k.toNat || decide (tileCols x.fmt < c0 + n) then .trap 15
  else if !kindMatches kind x.fmt then .trap 17
  else if kind = .i64 && fewChannels (s.en g) then .trap 20
  else
    match s.consume g (g.badLanes (g.live act) ((List.range (n * w)).map (fun q => a.toNat + q))) with
    | (s, none) => .gone s
    | (s, some g) =>
      let x := (bitsOn (g.live act)).foldl (fun x i =>
        (List.range n).foldl (fun x q => mawrEntry t kind x (x.entry i (c0 + q)) (g.vraw t (a.toNat + w * q) i)) x) x
      let (s, g) := (s.setTile g k.toNat x).late g [.tile k.toNat]
      .ok s g

def execMawr (h : VH) (t kind : Fmt) (k : BitVec 3) (a : BitVec 8) (b : Sc) (nm1 : BitVec 6) (s : State) : Host.Outcome State Fault Refusal :=
  runGang (.mawr h t kind k a b nm1) s notHandler (mawrBody h (t.or .f32) kind k a b (nm1.toNat + 1))

end Sys2Proof.Machine
end

