-- ==== Sys2Proof/Machine/Device.lean ====
section
/-! DEFINITION. Queue descriptors (R320), kicks (R321, R322), the PREEMPT register and pre-emption requests (R333, R334), and the kick page
as stores and loads meet it. -/
namespace Sys2Proof.Machine

/- Queue descriptors -/

def State.qaddr (s : State) (q : Nat) : Nat := s.qtbase + 64 * q
/-- The descriptor of a queue as a 512-bit number; an unreadable one is not in service. -/
def State.qdesc (s : State) (q : Nat) : Nat :=
  let r := s.physRead (s.qaddr q) 64
  if anyBad r then 0 else natOf r
def State.qDone (s : State) (q : Nat) : Nat := bitField (s.qdesc q) 367 320
def State.qRidx (s : State) (q : Nat) : Nat := bitField (s.qdesc q) 303 256
def State.qWidx (s : State) (q : Nat) : Nat := bitField (s.qdesc q) 239 192
def State.qStat (s : State) (q : Nat) : Nat := bitField (s.qdesc q) 184 128
def State.qEn (s : State) (q : Nat) : Bool := (s.qdesc q).testBit 63
def State.qLen (s : State) (q : Nat) : Nat := 2 ^ bitField (s.qdesc q) 61 57
def State.qBase (s : State) (q : Nat) : Nat := bitField (s.qdesc q) 56 0

/-- Writes one of the 48-bit fields of a descriptor, at its byte offset. -/
def State.setQ (s : State) (q ofs x : Nat) : State := s.physWrite (s.qaddr q + ofs) (clean (leBytes 6 x))

/-- WIDX, RIDX and DONE start at 0 when EN has been set; what peers' kicks recorded, and the launches that the queue has taken up, were of packets of before
(R320, R322, R327). -/
def State.restartQ (s : State) (q : Nat) : State :=
  if s.qFresh.getLsbD q then
    let s := { s with
      qFresh := s.qFresh &&& ~~~ oneBit 64 q, kicks := s.kicks.filter (fun k => k.q != q)
      launches := (s.launches.filter (fun (x : Nat × Launch) => !(x.2.q == q && x.2.done))).map
        (fun (x : Nat × Launch) => (x.1, if x.2.q = q then { x.2 with old := true } else x.2)) }
    ((s.setQ q 24 0).setQ q 32 0).setQ q 40 0
  else s

/-- A kick that reaches a descriptor whose memory is ready (R321, R322). -/
def State.kickNow (s0 : State) (q : Nat) (w : DWord) (entry : Option Acl) : State :=
  let s := s0.restartQ q
  let x := w.toNat
  if decide (x < 2 ^ 48) && s.qEn q && decide (s.qWidx q ≤ x) && decide (x ≤ s.qDone q + s.qLen q) then
    let s' := s.setQ q 24 x
    match entry with
    | some e => { s' with kicks := s'.kicks ++ [{ q := q, lo := s.qWidx q, hi := x, entry := e }] }
    | none => s'
  else s.count .kickRejected

/-- A kick of queue `q`, with the entry that a peer's kick is recorded under (R321, R322); it waits for the descriptor's memory (R402). -/
def State.kick (s : State) (q : Nat) (w : DWord) (entry : Option Acl) : State :=
  if s.memReady (s.qaddr q) then s.kickNow q w entry else { s with kicksHeld := s.kicksHeld ++ [(q, w, entry)] }

/-- The kicks that waited reach their descriptors as far as the memory is ready. -/
def State.flushKicks (s : State) : State :=
  s.kicksHeld.foldl (fun s x => s.kick x.1 x.2.1 x.2.2) { s with kicksHeld := [] }

/- Pre-emption requests -/

/-- A crew that vacating a core saves (R334, R335). -/
def Crew.vacates (c : Crew) : Bool :=
  match c.stat with
  | .running => true
  | .retired => !c.freed
  | _ => false

/-- Begins to save every band with a crew on one of the cores; `mine` selects the launches (R334). -/
def State.vacate (s : State) (cores : List Nat) (mine : Nat → Bool) : State :=
  let bands := (s.crews.filter (fun x => mine x.2.launch && x.2.vacates && cores.contains x.2.core)).map (fun x => (x.2.launch, x.2.band))
  let hit := (s.crews.filter (fun x => x.2.vacates && bands.contains (x.2.launch, x.2.band))).map (·.1)
  { s with preCrews := s.preCrews ++ hit }

/-- The launch of a queue and sequence that is running. -/
def State.running? (s : State) (q seq : Nat) : Option Nat :=
  (s.launches.find? (fun x => x.2.q == q && x.2.seq == seq && !x.2.done && !x.2.old)).map (·.1)

def insertLeast (x : Nat × Nat) : List (Nat × Nat) → List (Nat × Nat)
  | [] => [x]
  | y :: r => if x.1 < y.1 then x :: y :: r else y :: insertLeast x r

/-- Cores of a launch, those with the fewest of its gangs first, ties to the lower number (R334). -/
def State.launchCores (s : State) (launch : Nat) : List Nat :=
  let held := (List.range 512).filter (fun c => s.crews.any (fun x => x.2.launch == launch && x.2.core == c && x.2.vacates))
  (held.foldl (fun acc c => insertLeast (((s.coreGangs c).filter (fun g => g.launch == launch)).length, c) acc) []).map (·.2)

/-- OP 0. -/
def State.vacateLaunch (s : State) (q seq n : Nat) : State :=
  match s.running? q seq with
  | none => s
  | some k =>
    let cores := (s.launchCores k).take n
    (s.vacate cores (· == k)).modLaunch k (fun l => { l with closed := l.closed ++ cores })
/-- OP 1. DESIGN CHOICE (log 103): a launch that holds a lease on the core and has no resident crew there keeps it. -/
def State.vacateCore (s : State) (core : Nat) : State :=
  (s.vacate [core] (fun _ => true)).modCore core (fun c => { c with closed := true })
/-- OP 2. -/
def State.reopenLaunch (s : State) (q seq : Nat) : State :=
  match s.running? q seq with
  | none => s
  | some k => s.modLaunch k (fun l => { l with closed := [] })
/-- OP 3. -/
def State.reopenCore (s : State) (core : Nat) : State := s.modCore core (fun c => { c with closed := false })

/-- Whether a request runs (BUSY). -/
def State.busyPre (s : State) : Bool := s.pre1.getLsbD 61

/-- Marks a request as running; its operation follows. -/
def State.preStart (s : State) (op core n : Nat) : State :=
  { s with
    pre1 := BitVec.ofNat 2 op ++ 1#1 ++ 0#11 ++ BitVec.ofNat 9 core ++ 0#31 ++ BitVec.ofNat 10 n, preSaved := 0, preCrews := [] }

/-- Word 0 of a request (R333). -/
def preWord0 (q : BitVec 6) (seq : BitVec 48) : DWord := 0#10 ++ q ++ seq

/-- A request of R333, ignored and counted while one runs; only the write of word 1 is ignored. -/
def State.request (s : State) (op core n : Nat) (f : State → State) : State :=
  if s.busyPre then s.count .preemptRejected else (f (s.preStart op core n)).preDone

/-- The write of word 1 of the PREEMPT register (R333). -/
def State.preemptWrite (s : State) (w : DWord) : State :=
  let core := bitField w.toNat 49 41
  let q := bitField s.pre0.toNat 53 48
  let seq := bitField s.pre0.toNat 47 0
  let n := bitField w.toNat 9 0
  match bitField w.toNat 63 62 with
  | 0 => s.request 0 core n (fun s => s.vacateLaunch q seq n)
  | 1 => s.request 1 core n (fun s => s.vacateCore core)
  | 2 => s.request 2 core n (fun s => s.reopenLaunch q seq)
  | _ => s.request 3 core n (fun s => s.reopenCore core)

/- The kick page -/

def State.onKickPage (s : State) (pa : Nat) : Bool := s.kickFrame == some (pa / 4096)

/-- What a load of the kick page returns: the PREEMPT register, else zero (log 7). -/
def State.kickRead (s : State) (pa n : Nat) : List PByte :=
  clean ((List.range n).map (fun i =>
    let o := (pa + i) % 4096
    if 512 ≤ o ∧ o < 520 then BitVec.ofNat 8 (s.pre0.toNat / 256 ^ (o - 512))
    else if 520 ≤ o ∧ o < 528 then BitVec.ofNat 8 (s.pre1.toNat / 256 ^ (o - 520))
    else 0))

/-- An aligned 64-bit store to the kick page: a kick, or a word of the PREEMPT register by an agent that may write it (R321, R333,
R341, log 7). Anything else has no effect. -/
def State.kickWrite (s : State) (pa : Nat) (l : List PByte) (priv : Bool) : State :=
  let o := pa % 4096
  let w := BitVec.ofNat 64 (natOf l)
  if l.length ≠ 8 then s
  else if o < 512 then s.kick (o / 8) w none
  else if !priv then s
  else if o = 512 then { s with pre0 := w }
  else if o = 520 then s.preemptWrite w
  else s

/- Descriptors in memory -/

/-- The byte belongs to the 64 descriptors that the firmware has placed (R320). -/
def State.inQueueTable (s : State) (pa : Nat) : Bool := s.image && decide (s.qtbase ≤ pa) && decide (pa < s.qtbase + 4096)
/-- The bits of a queue descriptor's byte `o` that a write sets: BASE, LLEN, EN and STATBASE; the rest is zero or the queue engine's (R8, R320). -/
def queueRw (o : Nat) : Byte :=
  if o < 7 then 0xFF else if o = 7 then 0xBF else if o < 16 then 0 else if o < 23 then 0xFF else if o = 23 then 1 else 0

/-- The byte `o` of a span descriptor belongs to RLWRITE, RLDROP, INREAD, SPANS or PENDING (R366). -/
def spanRo (o : Nat) : Bool :=
  (decide (40 ≤ o) && decide (o < 44)) || (decide (48 ≤ o) && decide (o < 56)) || (decide (68 ≤ o) && decide (o < 76)) ||
    (decide (80 ≤ o) && decide (o < 88))

/-- A byte that only the span engine writes, in the descriptor of a launch that runs (R7, R366). -/
def State.spanOwns (s : State) (pa : Nat) : Bool :=
  s.launches.any (fun x => x.2.span.isSome && !x.2.done && decide (x.2.pkt.store ≤ pa) && spanRo (pa - x.2.pkt.store))

/-- The bits of a byte of memory that a write by any agent but the engines sets (R7, R8). -/
def State.rwMask (s : State) (pa : Nat) : Byte :=
  if s.inQueueTable pa then queueRw ((pa - s.qtbase) % 64) else if s.spanOwns pa then 0 else 0xFF

/-- One byte of a write as memory takes it. -/
def mergeByte (m : Byte) (old new : PByte) : PByte :=
  if m = 0 then old else ((old.1 &&& ~~~ m) ||| (new.1 &&& m), new.2)

/-- The bytes of a write as memory takes them: read-only fields of the descriptors keep what they hold, fields shown as zero stay zero (R7, R8, R320, R366). -/
def State.keepRo (s : State) (pa : Nat) (l : List PByte) : List PByte :=
  (l.zip (List.range l.length)).map (fun x => mergeByte (s.rwMask (pa + x.2)) ((s.physRead (pa + x.2) 1).headD x.1) x.1)

/-- The queues whose EN a write sets (R320). -/
def State.enSet (s : State) (pa : Nat) (l : List PByte) : BitVec 64 :=
  maskOf 64 ((l.zip (List.range l.length)).filterMap (fun x =>
    let a := pa + x.2
    if s.inQueueTable a && (a - s.qtbase) % 64 == 7 && x.1.1.getLsbD 7 && !(natOf (s.physRead a 1)).testBit 7 then some ((a - s.qtbase) / 64)
    else none))

/-- A write of memory by any agent but the engines. -/
def State.plainWrite (s : State) (pa : Nat) (l : List PByte) : State :=
  if (List.range l.length).any (fun k => s.rwMask (pa + k) != 0xFF || s.inQueueTable (pa + k)) then
    { s with qFresh := s.qFresh ||| s.enSet pa l }.physWrite pa (s.keepRo pa l)
  else s.physWrite pa l

/-- A read of memory as an element access makes it. -/
def State.memRead (s : State) (pa n : Nat) : List PByte := if s.onKickPage pa then s.kickRead pa n else s.physRead pa n
/-- A write of memory as an element access makes it. -/
def State.memWrite (s : State) (pa : Nat) (l : List PByte) (priv : Bool := false) : State :=
  if s.onKickPage pa then s.kickWrite pa l priv else s.plainWrite pa l

end Sys2Proof.Machine
end

