-- ==== Sys2Proof/Machine/Effects.lean ====
section
/-! DEFINITION. The effect buffer and the effect log (R82, R83, R87), and the denial of an access (R242 to R244). -/
namespace Sys2Proof.Machine

def effBytes (l : List Eff) : Nat := (l.map (·.size)).foldl (· + ·) 0

/-- Log bytes that the crews of a launch hold (R77). -/
def State.logUsed (s : State) (launch : Nat) : Nat :=
  ((s.crews.filter (fun x => x.2.launch == launch)).map (·.2.inLog)).foldl (· + ·) 0

/-- Log bytes a crew holds once `n` more bytes of effects are entered: what its buffer does not take (R82). -/
def Crew.logAfter (c : Crew) (buffer n : Nat) : Nat := max c.inLog (effBytes c.effects + n - buffer)

/-- The buffer and the log have room for `n` more bytes of the crew's effects (R87). -/
def State.hasRoom (s : State) (c : Crew) (n : Nat) : Bool :=
  match s.launch? c.launch with
  | some l => decide (s.logUsed c.launch - c.inLog + c.logAfter l.pkt.effect n ≤ l.pkt.loglen)
  | none => false

/-- Crews of a launch that have not committed, lowest work identifier first (R84, R382). -/
def State.uncommitted (s : State) (launch : Nat) : List Nat :=
  (s.crews.filter (fun x => x.2.launch == launch && x.2.stat != .committed)).map (·.1)

/-- The lowest uncommitted crew of a launch; of a SPAN launch the crew that holds the span's lowest-key event that is not committed (R87, R382). -/
def State.lowest? (s : State) (launch : Nat) : Option Nat :=
  match (s.launch? launch).bind (·.span) with
  | some p => (p.run.find? (fun e => !e.orphan && e.fate != .committed)).map (·.crew)
  | none => (s.uncommitted launch).head?

/-- A crew that R87 aborts for another's sake waits for the lowest one to commit; in a SPAN launch, where nothing commits before every crew has retired, to
retire (log 42). -/
def State.heldByLowest (s : State) (launch : Nat) : Bool :=
  match (s.lowest? launch).bind s.crew? with
  | some c => ((s.launch? launch).map (·.pkt.mode)).getD 0 != 2 || c.stat != .retired
  | none => false

/-- An abort under R87. -/
def State.spaceAbort (s : State) (crew : Nat) : State := (s.abortCrew crew).countAt (.core (s.coreOfCrew crew)) .crewAborts

/-- Aborts crews that hold log space, highest work identifier first, until there is room (R87 case 2). -/
def State.makeRoom (s : State) (crew n : Nat) : List Nat → State
  | [] => s
  | k :: r =>
    match s.crew? crew with
    | none => s
    | some c => if s.hasRoom c n then s else State.makeRoom (s.spaceAbort k) crew n r

/-- The launch stops with EFFECT_OVERFLOW (R87 case 3): its uncommitted crews end, and no further crew is admitted. -/
def State.overflowLaunch (s : State) (launch : Nat) : State :=
  let s := (s.uncommitted launch).foldl (fun s k =>
    let s := s.abortCrew k
    { s with crews := Tab.erase s.crews k }) s
  s.modLaunch launch (fun l => { l with overflow := true, blocking := false })

/-- The crew by itself needs more than EFFECT + LOGLEN bytes (R87 case 3). -/
def State.tooLarge (s : State) (c : Crew) (n : Nat) : Bool :=
  match s.launch? c.launch with
  | some l => decide (l.pkt.effect + l.pkt.loglen < effBytes c.effects + n)
  | none => true

/-- Enters effects for a crew; `false` when nothing is left of the gang that needed the space (R87). -/
def State.addEffects (s : State) (crew : Nat) (l : List Eff) : State × Bool :=
  let n := effBytes l
  let put (s : State) (c : Crew) : State :=
    let buffer := ((s.launch? c.launch).map (·.pkt.effect)).getD 0
    s.putCrew crew { c with effects := c.effects ++ l, inLog := c.logAfter buffer n }
  match s.crew? crew with
  | none => (s, false)
  | some c =>
    if s.hasRoom c n then (put s c, true)
    else if s.lowest? c.launch ≠ some crew then
      ((s.spaceAbort crew).modCrew crew (fun x => { x with afterLowest := s.heldByLowest c.launch }), false)
    else if s.tooLarge c n then (s.overflowLaunch c.launch, false)
    else
      let holders := (s.crews.filter (fun x => x.2.launch == c.launch && x.1 != crew && decide (0 < x.2.inLog))).map (·.1)
      (put (s.makeRoom crew n holders.reverse) c, true)

/-- Writes are buffered in PHASED and SPAN modes (R81). -/
def State.buffered (s : State) (g : Gang) : Bool := s.modeOf g != 0
def State.effectsOf (s : State) (g : Gang) : List Eff := ((s.crewOf g).map (·.effects)).getD []

/-- The event that an effect of a lane belongs to (R379). -/
def Gang.evIx (g : Gang) (lane : Nat) : Option Nat := (Tab.get? g.evs lane).map (·.idx)
/-- The lane whose event takes an effect that has no lane of its own (R379). -/
def Gang.ownLane (g : Gang) : Nat := ((bitsOn g.em).head?).getD g.lowLive

/- Denials -/

/-- ENTRY of the program a gang runs. -/
def State.entryOf (s : State) (g : Gang) : VAddr :=
  match s.crewOf g with
  | some c => c.entry
  | none => (s.ctxReg (s.ctxOf g.launch) 0x40).setWidth 57

/-- A denied lane: its record, and its DENY bit (R242, R243). DESIGN CHOICE (log 76): the handler slot, which R243 does not list, writes AGENT 32, PCOFS
from HENTRY, and the `$wid` of its lane, 0. -/
def State.denyLane (s : State) (g : Gang) (lane : Nat) (key : Word) (tag : BitVec 20) (write : Bool) (va : Nat) : State × Gang :=
  (s.logDenial { ctx := s.ctxOf g.launch, wid := g.widOf lane, key := key, tag := tag, core := g.core, agent := g.slot, write := write,
                 pcofs := (g.pc - s.entryOf g).setWidth 32, va := va, cyc := s.cyc g.core },
   { g with deny := g.deny ||| oneBit 64 lane })

/-- The key that a gang-level access takes when no lane is live (R117). -/
def State.launchKey (s : State) (g : Gang) : Word :=
  if g.isHandler then (s.ctxReg (s.ctxOf g.launch) 0x48).setWidth 32
  else ((s.launch? g.launch).map (·.pkt.key)).getD 0

/-- The key set of SLD, SST, VLDV and VSTV, each key with the lane that its denial marks (R117). -/
def State.keySet (s : State) (g : Gang) : List (Nat × Word) :=
  if g.em = 0 then [(g.lowLive, s.launchKey g)] else (bitsOn g.em).map (fun i => (i, g.keyOf i))

end Sys2Proof.Machine
end

