-- ==== Sys2Proof/Machine/Access.lean ====
section
/-! DEFINITION. The steps of a global-memory access (R222): bounds, alignment, translation, page rules, the door check, and the access
itself, in memory, in the crew's view of it (R82), or at a peer (R397 to R399). -/
namespace Sys2Proof.Machine

/-- What an entry asks of its lines: alignment, whether it writes (R213), which pages it may not meet. -/
structure MemRule where
  size : Nat
  write : Bool := false
  noOrd : Bool := false
  noVer : Bool := false
  needVer : Bool := false
  deriving DecidableEq, Repr

/-- Where a lane stands after steps 1 to 6 of R222. -/
inductive Reach where
  | oob
  | trap (code : Nat)
  | fault (f : LaneFault)
  | denied (key : Word) (tag : BitVec 20) (va : Nat)
  /-- step 7: where the access goes, its address, and whether its page has ORD = 1 (R301) -/
  | at_ (loc : Loc) (va : Nat) (ord : Bool)
  /-- the memory behind a table is not ready (R402) -/
  | wait
  deriving DecidableEq, Repr

/-- It reaches step 7. -/
def Reach.isAt : Reach → Bool
  | .at_ _ _ _ => true
  | _ => false
def Reach.fault? : Reach → Option LaneFault
  | .fault f => some f
  | _ => none
/-- The lane code it raises. -/
def Reach.code? : Reach → Option Nat
  | .trap c => some c
  | _ => none
/-- The bounds mask's bit after it (R208); none where the bounds check itself trapped. -/
def Reach.bound? : Reach → Option Bool
  | .oob => some true
  | .trap 1 => none
  | _ => some false

/-- The page rules of R213 for a leaf: the lane code it raises. -/
def MemRule.pageCode (r : MemRule) (l : Leaf) : Option Nat :=
  if r.noOrd && l.ord then some 3
  else if (r.noVer && l.ver) || (r.needVer && !l.ver) then some 4
  else none

/-- Steps 2 to 6 for one address and the keys it is checked with, on a core. DESIGN CHOICE (log 77): an access to a FAR page is checked here with the
requester's leaf tag, reads too; a read is then checked again with the owner's tag (R246). -/
def State.reach (s : State) (core ctx : Nat) (keys : List Word) (r : MemRule) (lane va : Nat) : Reach :=
  if va % r.size ≠ 0 then .trap 2
  else
    match s.translate core ctx va with
    | .fault c => .fault { lane := lane, page := va - va % 4096, va := va, cause := c }
    | .wait => .wait
    | .leaf l =>
      if r.write && !l.w then .fault { lane := lane, page := va - va % pageBytes l.size, va := va, cause := 2 }
      else
        match r.pageCode l with
        | some c => .trap c
        | none =>
          if keys.any (fun k => s.grantWaits core ctx k l.door) then .wait
          else
            match keys.find? (fun k => !s.granted core ctx k l.door) with
            | some k => .denied k l.door va
            | none => .at_ (l.loc va) va l.ord

/-- What the check of one access counts and fills, once its page is translated (R245). -/
def State.noteCheck (s : State) (core ctx : Nat) (keys : List Word) (r : MemRule) (va : Nat) : State :=
  if va % r.size ≠ 0 then s
  else
    match s.translate core ctx va with
    | .leaf l =>
      if r.write && !l.w then s.dropXlate core ctx va else if (r.pageCode l).isSome then s else keys.foldl (fun s k => s.noteGrant core ctx k l.door) s
    | _ => s

/-- What the translation and the check of one access count and fill (R209, R214, R245). -/
def State.lookUp (s : State) (core agent ctx : Nat) (keys : List Word) (r : MemRule) (va : Nat) : State :=
  (if va % r.size ≠ 0 then s else s.noteXlate core agent ctx va).noteCheck core ctx keys r va

/-- The walks that must wait for a table are noted; one of a page that is already being walked merges with it (R214). -/
def State.noteWalks (s : State) (core agent ctx : Nat) (l : List Nat) : State :=
  l.foldl (fun s va => if s.translate core ctx va = .wait then s.noteXlate core agent ctx va else s) s

/-- The address of a lane's index, or none when it is out of bounds (R207, R208). -/
def laneAddr (rec : BitVec 128) (m : MH) (x : Nat) : Option Nat :=
  let i : Int := (x % 2 ^ 32 : Nat) + iofs m
  if 0 ≤ i ∧ i < recExtent rec then some (recAddr rec i.toNat) else none

/-- What a peer answered for a lane. -/
def Gang.answer? (g : Gang) (lane : Nat) : Option Arrived := g.arrived.find? (fun a => a.lane == lane)

/-- What lanes have done at their turns, here and at peers (R301). -/
def Gang.turnsTaken (g : Gang) : List Arrived := g.arrived.filter (fun a => a.place.isSome)

/-- Where the access of a lane has gone, once it has been made. -/
def Gang.placed? (g : Gang) (lane : Nat) : Option (Loc × Bool) := (g.answer? lane).bind (·.place)

/-- Steps 1 to 6 for an access of a gang. One that has been made stays where it went, whatever its address has come to mean since, so that nothing is performed
twice (R301, R360). -/
def State.reachAs (s : State) (g : Gang) (answer lane : Nat) (keys : List Word) (r : MemRule) (va : Nat) : Reach :=
  match g.placed? answer with
  | some y => .at_ y.1 va y.2
  | none => s.reach g.core (s.ctxOf g.launch) keys r lane va

/-- Steps 1 to 6 for a lane's index (R207, R208). -/
def State.reachLane (s : State) (g : Gang) (rec : BitVec 128) (m : MH) (r : MemRule) (lane x : Nat) : Reach :=
  match laneAddr rec m x with
  | some va => s.reachAs g lane lane [g.keyOf lane] r va
  | none => if m.strict then .trap 1 else .oob

/-- The lane number under which a peer's answer to a gang-level access is kept. -/
def scalarLane : Nat := 64

/-- Steps 1 to 6 for a gang-level access, with the gang's key set (R117). -/
def State.reachLine (s : State) (g : Gang) (r : MemRule) (va : Nat) : Reach := s.reachAs g scalarLane g.ownLane ((s.keySet g).map (·.2)) r va

/-- The bounds mask after the lanes' bounds step (R208). -/
def Gang.bounds (g : Gang) (bm : BitVec 4) (l : List (Nat × Reach)) : Gang :=
  g.mBits bm.toNat (l.filterMap (fun x => x.2.bound?.map (fun b => (x.1, b))))

/-- A step 7 in progress: the state, the gang, the effects entered so far, the lane codes raised. -/
structure Acc where
  s : State
  g : Gang
  buffered : Bool
  base : List Eff
  eff : List Eff := []
  codes : List (Nat × Nat) := []
  op : Nat
  /-- the page of the current access has ORD = 1 (R301) -/
  ord : Bool := false
  /-- what lanes have done at their turns, here and at peers (R301) -/
  turns : List Arrived := []
  deriving DecidableEq, Repr

/-- The bytes of a peer's answer with their poison (R108). -/
def Arrived.bytes (a : Arrived) : List PByte := (a.data.getD []).zip (a.bad ++ List.replicate (a.data.getD []).length false)

/-- What a lane has done at its turn (R301). -/
def Acc.turn? (a : Acc) (lane : Nat) : Option Arrived := a.turns.find? (fun x => x.lane == lane)

/-- The start of the 128-byte cell of an address. -/
def cellOf (a : Nat) : Nat := a - a % 128

/-- The bytes that an atomic or reduction of the buffer computes on, at the places that `sel` gives. -/
def Eff.base? (sel : Loc → Option Nat) (e : Eff) : Option (Nat × Nat) :=
  match e.kind with
  | .atm l _ t _ _ => (sel l).map (fun a => (a, t.bytes))
  | .redx l _ _ _ => (sel l).map (fun a => (a, 128))
  | _ => none

/-- The bytes that a load of `n` bytes at `a` reads under a buffer, as their first address and the one behind them: those loaded, and those that buffered atomics
and reductions of any of them compute on (R82, log 106). -/
def neededBytes (sel : Loc → Option Nat) (l : List Eff) (a n : Nat) : Nat × Nat :=
  l.foldl (fun x e => match e.base? sel with
    | some y => if y.1 < a + n ∧ a < y.1 + y.2 then (min x.1 y.1, max x.2 (y.1 + y.2)) else x
    | none => x) (a, a + n)

/-- The address of a location, and the places of others in the same memory. -/
def Loc.addr : Loc → Nat
  | .here a => a
  | .far _ va _ => va.toNat
def Loc.sel : Loc → Loc → Option Nat
  | .here _ => Loc.here?
  | .far p _ _ => Loc.farAt? p

/-- A load with the bytes that it needs under a buffer, and the address at which it begins. One of a page with ORD = 1 is neither merged nor repeated: it reads its
own bytes alone (R301). -/
def widened (ord : Bool) (l : List Eff) (loc : Loc) : FarOp → Nat × FarOp
  | .load n => let w := if ord then (loc.addr, loc.addr + n) else neededBytes loc.sel l loc.addr n; (w.1, .load (w.2 - w.1))
  | op => (loc.addr, op)

/-- What was read for a load covers what it needs, whatever the crew's gangs have buffered since (log 106). -/
def Arrived.covers (x : Arrived) (ord : Bool) (l : List Eff) (loc : Loc) : Bool :=
  match x.span with
  | some (a, n) => ord || neededBytes loc.sel l a n == (a, a + n)
  | none => true

/-- What buffered atomics on pages with ORD = 1 have read, each byte as the oldest of them did (R301, log 106). -/
def seenBytes (sel : Loc → Option Nat) (l : List Eff) : Bytes :=
  l.foldr (fun e m => match e.base? sel with | some (a, _) => m.write a e.seen | none => m) {}

/-- `n` bytes at `a` from what was read for a lane, with the crew's writes laid over them (R82, log 106). -/
def Arrived.view (x : Arrived) (sel : Loc → Option Nat) (l : List Eff) (a n : Nat) : List PByte :=
  (viewBytes sel ((seenBytes sel l).write ((x.span.map (·.1)).getD a) x.bytes) l).read a n

/-- A read of a location by a lane: `none` when the owner of a far page denied it (R246); a failed one is poisoned (R399). What the lane has read at its turn
is not read again (R301). -/
def Acc.read (a : Acc) (lane : Nat) (loc : Loc) (n : Nat) : Option (List PByte) :=
  match loc with
  | .here pa =>
    match a.turn? lane with
    | some x => some (x.view Loc.here? (if a.buffered then a.base ++ a.eff else []) pa n)
    | none => some (if a.buffered then (viewBytes Loc.here? a.s.phys (a.base ++ a.eff)).read pa n else a.s.memRead pa n)
  | .far p va _ =>
    match a.g.answer? lane with
    | some { failed := true, .. } => some (List.replicate n (0, true))
    | some x => if x.data.isNone then none else some (x.view (Loc.farAt? p) (if a.buffered then a.base ++ a.eff else []) va.toNat n)
    | none => none

/-- Enters an effect of a lane with the keys that it is checked with (R83, R117); `seen` is what it has read. -/
def Acc.push (a : Acc) (lane : Nat) (keys : List FarKey) (size : Nat) (kind : EffKind) (seen : List PByte := []) : Acc :=
  { a with eff := a.eff ++ [{ size := size, pc := a.g.pc, wid := a.g.widOf lane, keys := keys, evIx := a.g.evIx lane, kind := kind, ord := a.ord
                              seen := if a.ord then seen else [] }] }

def FarWait.core : FarWait → Nat
  | .gang c _ _ | .write c _ _ _ _ _ _ | .row c _ _ => c
  | .check _ ix => if ix < refetchBase then 0 else refetchCore ix
  | .commit _ _ _ _ _ => 0

/-- A far access leaves with the keys it is checked with, the first of them its principal (R246, R397). -/
def State.sendFar (s : State) (peer : BitVec 6) (ctx : Nat) (keys : List FarKey) (tag : BitVec 20) (va : VAddr) (line : Nat) (op : FarOp)
    (what : FarWait) (ord : Bool := false) (kind : Bool := false) (same : Bool := false) : State :=
  { s with
    nextId := s.nextId + 1
    far := s.far ++ [{ id := s.nextId, peer := peer, from_ := s.peerNo, ctx := ctx, key := (keys.head?.map (·.key)).getD 0, keys := keys, tag := tag
                       va := va, line := BitVec.ofNat 57 line, op := op, what := what, ord := ord, sent := s.cyc what.core, kind := kind, same := same }] }

/-- An older access of the same gang. -/
def FarReq.follows (f g : FarReq) : Bool :=
  (match f.what with
    | .gang c t _ | .write c t _ _ _ _ _ => g.what.isOf c t
    | _ => false) && decide (g.id < f.id)
/-- An access to a page with ORD = 1 is held while an older one of its gang is unanswered: they are performed one at a time (R301). -/
def State.turnWaits (s : State) (f : FarReq) : Bool := f.ord && s.far.any (fun g => g.ord && f.follows g)
/-- It has left: neither is it held, nor is an older access of its gang to the same line of the same peer, which it must not pass (R287, R398). -/
def State.departed (s : State) (f : FarReq) : Bool :=
  !s.turnWaits f && !s.far.any (fun g => f.follows g && g.peer == f.peer && g.va.toNat / 128 == f.va.toNat / 128 && s.turnWaits g)

/-- The memory that an access to a page with ORD = 1 meets here when its turn comes: what it becomes and what was read. `priv` lets a store reach the PREEMPT
register (R227, R228, R301, R333). -/
def State.atTurn (s : State) (priv : Bool) (pa : Nat) (op : FarOp) : State × List PByte :=
  match op with
  | .load n => (s, s.memRead pa n)
  | .store d bad => (s.memWrite pa (d.zip (bad ++ List.replicate d.length false)) priv, [])
  | .atm o t c x =>
    let r := s.memRead pa t.bytes
    (match atmBytes r o t c.toNat x.toNat with | some l => s.memWrite pa l priv | none => s, r)
  | .xrnd t m rmode clr =>
    let g : Gang := { launch := 0, crew := 0, ix := 0, core := 0, slot := 0, age := 0, pc := 0, n := 8, rmode := rmode, base := 0 }
    let r := s.memRead pa 128
    let v := (Xa.ofBytes (rawBytes r)).readout t (g.mode m) g.sat
    (if clr && g.fpTrap v.2 == 0 then s.memWrite pa (clean Xa.zero.bytes) priv else s, r)
  | _ => (s, [])

/-- An access that waits for its response no longer; what stood behind it departs (R301). -/
def State.dropFar (s : State) (id : Nat) : State :=
  let t : State := { s with far := s.far.filter (fun f => f.id != id) }
  { t with far := t.far.map (fun f => if !s.departed f && t.departed f then { f with sent := s.cyc f.what.core } else f) }

/-- The gang has an access to a far page with ORD = 1 that a peer has not answered (R301). -/
def State.farOrdOf (s : State) (g : Gang) : Bool := s.far.any (fun f => f.ord && f.what.isOf g.core g.slot)

/-- A write that is not performed after all writes its record of KIND 2 (R355). -/
def State.lostWrite (s : State) (launch : Nat) (wid : DWord) (pc : VAddr) (core : Nat) (rerun exited : Bool) : State :=
  s.faultRecord { launch := launch, wid := wid, pc := pc, core := core, cause := 34, kind := 2, rerun := rerun, exited := exited }

/-- The key of one lane, with its `$wid`. -/
def Gang.laneKey (g : Gang) (lane : Nat) : List FarKey := [{ lane := lane, key := g.keyOf lane, wid := g.widOf lane }]

/-- Sends a write of a lane to a peer. -/
def Acc.send (a : Acc) (lane : Nat) (keys : List FarKey) (p : BitVec 6) (va : VAddr) (tag : BitVec 20) (line : Nat) (op : FarOp) : Acc :=
  let what : FarWait := .write a.g.core a.g.slot lane a.g.pc (a.g.widOf lane) a.g.launch a.op
  { a with s := a.s.sendFar p (a.s.ctxOf a.g.launch) keys tag va line op what a.ord }

/-- Memory itself is written: plain bytes, or what an element access does at the kick page. -/
def Acc.put (a : Acc) (pa : Nat) (l : List PByte) : Acc :=
  { a with s := a.s.memWrite pa l (a.g.isHandler && a.s.hpriv a.g) }

/-- Effect space of a store: 16 bytes for a line and for a sector that this instruction has not touched yet (R83). -/
def storeSize (eff : List Eff) (base : Nat) (loc : Loc) : Nat :=
  let key (unit : Nat) : Loc → Nat × Nat
    | .here pa => (64, pa / unit)
    | .far p va _ => (p.toNat, va.toNat / unit)
  let seen (unit : Nat) : Bool := (eff.drop base).any (fun e => match e.kind with
    | .store l _ => key unit l == key unit loc
    | _ => false)
  (if seen 128 then 0 else 16) + (if seen 16 then 0 else 16)

/-- A write of a lane that a peer has reported failed: its record, and the stop that awaits the gang (R355). -/
def Acc.lost (a : Acc) (lane : Nat) : Acc :=
  { a with s := a.s.lostWrite a.g.launch (a.g.widOf lane) a.g.pc a.g.core (a.s.rcOf a.g != 0) false, g := { a.g with failed := a.g.failed ++ [a.g.pc] } }

/-- A plain store of a lane; one that had its turn, whether it was performed, denied or lost, has no other (R243, R301). -/
def Acc.store (a : Acc) (lane : Nat) (keys : List FarKey) (loc : Loc) (line : Nat) (data : List Byte) : Acc :=
  if a.buffered then a.push lane keys (storeSize a.eff 0 loc) (.store loc data)
  else
    match a.turn? lane, loc with
    | some x, _ => if x.failed then a.lost lane else a
    | none, .here pa => a.put pa (clean data)
    | none, .far p va tag => a.send lane keys p va tag line (.store data)

/-- Finishes an operation that was not counted after all. -/
def Gang.dropOp (g : Gang) (id : Nat) : Gang :=
  { g with ops := g.ops.filter (fun o => o.id != id), busy := g.busy.filter (fun b => b.id != id) }

def FarWait.opOf : FarWait → Option Nat
  | .write _ _ _ _ _ _ op => some op
  | _ => none

/-- Enters the effects of an instruction and ends it: a park, a trap, or completion with a counted operation. -/
def Acc.finish (a : Acc) (kind : Nat) (faults : List LaneFault) (codes : List (Nat × Nat)) : Res :=
  let (s, ok) := if a.buffered && !a.eff.isEmpty then a.s.addEffects a.g.crew a.eff else (a.s, true)
  if !ok then .gone s
  else
    let g := a.g
    let g' := if s.far.any (fun f => f.what.opOf == some a.op) then g else g.dropOp a.op
    if !faults.isEmpty then .park s g' kind faults (codesOf codes)
    else
      match codesOf codes with
      | [] => .ok s g
      | c => .lanes s g' c

/-- Memory behind a stack that is not ready answers nothing yet (R402). -/
def State.notReady (s : State) (l : List Reach) : Bool :=
  l.any (fun r => match r with
    | .at_ (.here pa) _ _ => !s.memReady pa
    | .wait => true
    | _ => false)

/-- An access here to a page with ORD = 1 waits for those of the gang that a peer has not answered (R301). -/
def State.ordWaits (s : State) (g : Gang) (l : List Reach) : Bool :=
  s.farOrdOf g && l.any (fun r => match r with | .at_ (.here _) _ ord => ord | _ => false)

/-- The effects that lie over what a gang reads. -/
def State.laidOver (s : State) (g : Gang) : List Eff := if s.buffered g then s.effectsOf g else []

/-- What was read for a lane, if it still covers what the lane needs. -/
def State.current? (s : State) (g : Gang) (lane : Nat) (ord : Bool) (loc : Loc) : Option Arrived :=
  (g.answer? lane).filter (fun x => x.covers ord (s.laidOver g) loc)

/-- Keeps what was read for a lane in the place of what it read before. -/
def Gang.arrive (g : Gang) (x : Arrived) : Gang := { g with arrived := g.arrived.filter (fun a => a.lane != x.lane) ++ [x] }

/-- How the answers to an instruction's accesses are judged: the KIND of a denial (R243), and whether a read is the part of a buffered operation that the owner is
to perform only under the requester's tag (R246). -/
structure Ask where
  kind : Bool := false
  same : Bool := false
  deriving DecidableEq, Repr

/-- A lane asks a peer, and will wait for the answer. -/
def State.askFar (s : State) (g : Gang) (how : Ask) (lane : Nat) (keys : List FarKey) (p : BitVec 6) (va : VAddr) (tag : BitVec 20) (line : Nat) (ord : Bool)
    (op : FarOp) : State :=
  let w := widened ord (s.laidOver g) (.far p va tag) op
  s.sendFar p (s.ctxOf g.launch) keys tag (BitVec.ofNat 57 w.1) line w.2 (.gang g.core g.slot lane) ord how.kind (how.same && s.buffered g)

/-- The far requests that must be answered before step 7 (R398). -/
def farAsks (s : State) (g : Gang) (how : Ask) (l : List (Nat × List FarKey × Reach)) (ask : Nat → Option FarOp) : State :=
  l.foldl (fun s x =>
    match x.2.2 with
    | .at_ (.far p va tag) line ord =>
      if (s.current? g x.1 ord (.far p va tag)).isSome then s
      else match ask x.1 with
        | some op => s.askFar g how x.1 x.2.1 p va tag line ord op
        | none => s
    | _ => s) s

/-- The lanes meet pages with ORD = 1 both here and at a peer: they then take turns (R301). -/
def mixedOrd (l : List (Nat × Reach)) : Bool :=
  l.any (fun y => match y.2 with | .at_ (.here _) _ true => true | _ => false) && l.any (fun y => match y.2 with | .at_ (.far _ _ _) _ true => true | _ => false)

/-- The accesses to pages with ORD = 1 in lane order, each after the one before it: here at once, at a peer with a wait for the answer. `true` while one is
under way (R301). -/
def takeTurns (how : Ask) (ask : State → Gang → Nat → Option FarOp) : List (Nat × Reach) → State → Gang → State × Gang × Bool
  | [], s, g => (s, g, false)
  | (i, r) :: l, s, g =>
    match r, ask s g i with
    | .at_ loc line true, some op =>
      if (s.current? g i true loc).isSome then takeTurns how ask l s g
      else if s.farOrdOf g then (s, g, true)
      else
        match loc with
        | .here pa =>
          let y := s.atTurn (g.isHandler && s.hpriv g) pa op
          takeTurns how ask l y.1 (g.arrive {
            lane := i, data := some (rawBytes y.2), failed := false, bad := y.2.map (·.2), place := some (.here pa, true)
            span := match op with | .load n => some (pa, n) | _ => none })
        | .far p va tag => (s.askFar g how i (g.laneKey i) p va tag line true op, g, true)
    | _, _ => takeTurns how ask l s g

/-- A lane-wise global-memory instruction (R222). `data` lists the registers a lane reads at step 7, `ask` what a far page is asked first,
`zero` what an out-of-bounds or denied lane gets, `run` what a lane at step 7 does. -/
structure LaneMem where
  k : BitVec 4
  h : VH
  m : MH
  b : VSrc
  rule : MemRule
  kind : Nat
  cls : OpCls
  element : Bool
  refs : List Ref
  data : List Nat
  ask : State → Gang → Nat → Option FarOp
  /-- what a lane does at its turn, where lanes take turns (R301) -/
  ordOp : State → Gang → Nat → Option FarOp := ask
  zero : Gang → Nat → Gang
  run : Acc → Nat → Loc → Nat → Acc
  /-- of a buffered one the owner performs its part only under the requester's tag (R246) -/
  same : Bool := false
  /-- effect space of a live active lane that does not reach step 7 (R83) -/
  space : Nat := 0

/-- A denial of it has KIND 1 (R243, log 78). -/
def LaneMem.writes (x : LaneMem) : Bool := x.kind == 1 || x.kind == 2

def LaneMem.how (x : LaneMem) : Ask := { kind := x.writes, same := x.same }

/-- A lane that is out of bounds or denied. -/
def LaneMem.skip (x : LaneMem) (a : Acc) (lane : Nat) : Acc :=
  let a := { a with g := x.zero a.g lane }
  if a.buffered && x.space != 0 then a.push lane (a.g.laneKey lane) x.space .space else a

/-- What a lane does in its turn. DESIGN CHOICE (log 78): the KIND of a denied ATM or REDX is 1, and of a denied XRND 0 whether or not it has `.clr`. -/
def LaneMem.lane (x : LaneMem) (a : Acc) (y : Nat × Reach) : Acc :=
  if a.g.dead.getLsbD y.1 then a
  else
    match y.2 with
    | .oob => x.skip a y.1
    | .denied key tag va =>
      let (s, g) := a.s.denyLane a.g y.1 key tag x.writes va
      x.skip { a with s := s, g := g } y.1
    | .at_ loc va ord => x.run { a with ord := ord } y.1 loc va
    | _ => a

/-- The addresses of the lanes that are in bounds, in lane order. -/
def State.laneAddrs (s : State) (g : Gang) (rec_ : BitVec 128) (h : VH) (m : MH) (b : VSrc) (lanes : LaneMask) : List (Nat × Nat) :=
  (bitsOn lanes).filterMap (fun i => (laneAddr rec_ m (s.vsrc g h.lit .b32 b i)).map (fun va => (i, va)))

/-- The lanes' translations, of each distinct page once, and their checks, as the counters and the caches see them (R209, R214, R245). -/
def State.noteLanes (s : State) (g : Gang) (r : MemRule) (l : List (Nat × Nat)) : State :=
  let s := s.notePages g.core g.slot (s.ctxOf g.launch) ((l.map (·.2)).filter (fun va => va % r.size == 0))
  l.foldl (fun s y => s.noteCheck g.core (s.ctxOf g.launch) [g.keyOf y.1] r y.2) s

/-- Lanes that reach step 7 consume their poisoned data before anything is asked of a peer (R109, R222, R227): their translations and bounds bits come before. -/
def LaneMem.takeBad (x : LaneMem) (s : State) (g : Gang) (rec_ : BitVec 128) (l : List (Nat × Reach)) (bad : LaneMask) : State × Option Gang :=
  if bad = 0 then (s, some g)
  else (s.noteLanes g x.rule (s.laneAddrs g rec_ x.h x.m x.b (g.live bad))).consume (g.bounds x.m.bm (l.filter (fun y => bad.getLsbD y.1))) bad

def LaneMem.body (x : LaneMem) (s : State) (g : Gang) (act : LaneMask) : Res :=
  let rec_ := g.bGet x.k.toNat
  if 63 ≤ g.counter x.cls then .wait s g (.counter x.cls)
  else if (if x.element then recBadType rec_ x.rule.size else recBadCell rec_) then .trap 13
  else if x.writes && recRo rec_ then .trap 14
  else
    match s.consume g (g.badLanes (g.live act) (srcRegs .b32 x.b)) with
    | (s, none) => .gone s
    | (s, some g) =>
      let l := (bitsOn (g.live act)).map (fun i => (i, s.reachLane g rec_ x.m x.rule i (s.vsrc g x.h.lit .b32 x.b i)))
      if s.notReady (l.map (·.2)) then
        .wait (s.noteWalks g.core g.slot (s.ctxOf g.launch) ((s.laneAddrs g rec_ x.h x.m x.b (g.live act)).map (·.2))) g .memory
      else
        let bad := g.badLanes (g.live (maskOf 64 ((l.filter (fun y => y.2.isAt)).map (·.1)))) x.data
        match x.takeBad s g rec_ l bad with
        | (s, none) => .gone s
        | (s, some g) =>
          let there := l.filter (fun y => !g.dead.getLsbD y.1)
          let (s, g, waits) := if mixedOrd l then takeTurns x.how x.ordOp there s g else (s, g, false)
          let asked := farAsks s g x.how (there.map (fun y => (y.1, g.laneKey y.1, y.2))) (x.ask s g)
          if waits then .wait s g .far
          else if s.far.length < asked.far.length then .wait asked g .far
          else if s.ordWaits g (l.map (·.2)) then .wait s g .far
          else
            let s := s.noteLanes g x.rule (s.laneAddrs g rec_ x.h x.m x.b (g.live act))
            let op := s.nextId
            let turns := g.turnsTaken
            let (s, g) := s.countOp g x.cls (x.refs ++ Shape.mRef x.m.bm.toNat)
            let a : Acc := { s := s, g := g.bounds x.m.bm l, buffered := s.buffered g, base := s.effectsOf g, op := op, turns := turns }
            let a := l.foldl x.lane a
            let faults := l.filterMap (fun y => y.2.fault?)
            let codes := l.filterMap (fun y => y.2.code?.map (fun c => (y.1, c)))
            a.finish x.kind faults (codes ++ a.codes)

end Sys2Proof.Machine
end

