-- ==== Sys2Proof/Machine/Memory.lean ====
section
/-! DEFINITION. Memory instructions: SLD and SST (R117), BSET (R224), LDB and STB (R225), ATM (R227), REDX and XRND (R228), VLDV and VSTV
(R229), scratch accesses (R219, R220, R226) and FENCE (R296). -/
namespace Sys2Proof.Machine

/-- Loaded bytes into a lane, each destination word with its own poison (R108, R225). -/
def Gang.vBytes (g : Gang) (t : Fmt) (d lane : Nat) (l : List PByte) : Gang :=
  if t.is64 then
    (g.vSet d lane (natOf (l.take 4)) (anyBad (l.take 4))).vSet (d + 1) lane (natOf (l.drop 4)) (anyBad (l.drop 4))
  else g.vPut t d lane (natOf l) (anyBad l)

def vRegs (t : Fmt) (d : BitVec 8) : List Ref := Shape.vRange d.toNat (Shape.regsOf t)
/-- Register numbers of a vector source of type `t`. -/
def dataRegs (t : Fmt) (c : BitVec 8) : List Nat := srcRegs t (.v c)

def execBset (h : SH) (k : BitVec 4) (a b : Sc) (s : State) : Host.Outcome State Fault Refusal :=
  runGang (.bset h k a b) s anywhere (fun s g _ =>
    let (s, g) := s.late (g.bSet k.toNat (s.sc g h.lit b ++ s.sc g h.lit a)) [.b k.toNat]
    .ok s g)

def execLdb (h : VH) (m : MH) (t : Fmt) (d : BitVec 8) (k : BitVec 4) (b : VSrc) (s : State) : Host.Outcome State Fault Refusal :=
  let t' := t.or .b32
  runGang (.ldb h m t d k b) s anywhere
    (LaneMem.body {
      k := k, h := h, m := m, b := b, rule := { size := t'.bytes }, kind := 0, cls := .ld, element := true, refs := vRegs t' d, data := []
      ask := fun _ _ _ => some (.load t'.bytes)
      zero := fun g i => g.vPut t' d.toNat i 0
      run := fun a i loc _ =>
        match a.read i loc t'.bytes with
        | some l => { a with g := a.g.vBytes t' d.toNat i l }
        | none => { a with g := a.g.vPut t' d.toNat i 0 } })

def execStb (h : VH) (m : MH) (t : Fmt) (k : BitVec 4) (b : VSrc) (c : BitVec 8) (s : State) : Host.Outcome State Fault Refusal :=
  let t' := t.or .b32
  runGang (.stb h m t k b c) s anywhere
    (LaneMem.body {
      k := k, h := h, m := m, b := b, rule := { size := t'.bytes, write := true, noVer := true }, kind := 1, cls := .st, element := true
      refs := [], data := dataRegs t' c
      ask := fun _ _ _ => none
      ordOp := fun s g i => if s.buffered g then none else some (.store (leBytes t'.bytes (g.vraw t' c.toNat i)))
      zero := fun g _ => g
      run := fun a i loc va => a.store i (a.g.laneKey i) loc va (leBytes t'.bytes (a.g.vraw t' c.toNat i)) })

/-- One lane's atomic step (R227); an owner's denial leaves its effect space taken (R83). -/
def atmLane (op : AtmOp) (t : Fmt) (d c x : BitVec 8) (a : Acc) (i : Nat) (loc : Loc) : Acc :=
  let y := a.g.vraw t c.toNat i
  let z := a.g.vraw t x.toNat i
  match a.read i loc t.bytes with
  | none =>
    let a := { a with g := a.g.vPut t d.toNat i 0 }
    if a.buffered then a.push i (a.g.laneKey i) 16 .space else a
  | some l =>
    let a := { a with g := a.g.vBytes t d.toNat i l }
    if a.buffered then a.push i (a.g.laneKey i) 16 (.atm loc op t (BitVec.ofNat 64 y) (BitVec.ofNat 64 z)) l
    else if (a.turn? i).isSome then a
    else
      match loc, atmBytes l op t y z with
      | .here pa, some new => a.put pa new
      | _, _ => a

def execAtm (h : VH) (m : MH) (op : AtmOp) (t : Fmt) (d : BitVec 8) (k : BitVec 4) (b : VSrc) (c x : BitVec 8) (s : State) :
    Host.Outcome State Fault Refusal :=
  let t' := t.or .i32
  runGang (.atm h m op t d k b c x) s anywhere
    (LaneMem.body {
      k := k, h := h, m := m, b := b, rule := { size := t'.bytes, write := true, noVer := true }, kind := 2, cls := .st, element := true
      refs := vRegs t' d, data := dataRegs t' c ++ (if op = .cas then dataRegs t' x else [])
      ask := fun s g i =>
        if s.buffered g then some (.load t'.bytes)
        else some (.atm op t' (BitVec.ofNat 64 (g.vraw t' c.toNat i)) (BitVec.ofNat 64 (g.vraw t' x.toNat i)))
      zero := fun g i => g.vPut t' d.toNat i 0
      run := fun a i loc _ => atmLane op t' d c x a i loc, same := true, space := 16 })

def execRedx (h : VH) (m : MH) (t : Fmt) (k : BitVec 4) (b : VSrc) (c : BitVec 8) (x : Option (BitVec 8)) (s : State) :
    Host.Outcome State Fault Refusal :=
  let t' := t.or .f32
  runGang (.redx h m t k b c x) s anywhere
    (LaneMem.body {
      k := k, h := h, m := m, b := b, rule := { size := 128, write := true, noOrd := true, noVer := true }, kind := 2, cls := .st
      element := false, refs := [], data := dataRegs t' c ++ (match x with | some y => dataRegs t' y | none => [])
      ask := fun _ _ _ => none
      zero := fun g _ => g
      run := fun a i loc va =>
        let y := a.g.vraw t' c.toNat i
        let z := x.map (fun r => a.g.vraw t' r.toNat i)
        if a.buffered then a.push i (a.g.laneKey i) 16 (.redx loc t' (BitVec.ofNat 64 y) (z.map (BitVec.ofNat 64)))
        else
          match loc with
          | .here pa => a.put pa (redxBytes (a.s.memRead pa 128) t' y z)
          | .far p fa tag => a.send i (a.g.laneKey i) p fa tag va (.redx t' (BitVec.ofNat 64 y) (z.map (BitVec.ofNat 64)))
      space := 16 })

/-- One lane's readout, with the reset of `.clr` in the same step (R228). DESIGN CHOICE (log 124): of a poisoned cell whose readout traps, the trap comes first. -/
def xrndLane (r : Rnd) (clr : Bool) (t : Fmt) (d : BitVec 8) (a : Acc) (i : Nat) (loc : Loc) : Acc :=
  match a.read i loc 128 with
  | none => { a with g := a.g.vPut t d.toNat i 0 }
  | some l =>
    let v := (Xa.ofBytes (rawBytes l)).readout t (a.g.mode r) a.g.sat
    let code := a.g.fpTrap v.2
    if code ≠ 0 then { a with codes := a.codes ++ [(i, code)] }
    else
      let a := { a with g := a.g.vPut t d.toNat i v.1 (anyBad l) }
      if !clr then a
      else if a.buffered then a.push i (a.g.laneKey i) 16 (.xclr loc)
      else if (a.turn? i).isSome then a
      else
        match loc with
        | .here pa => a.put pa (clean Xa.zero.bytes)
        | .far _ _ _ => a

def execXrnd (h : VH) (m : MH) (r : Rnd) (clr : Bool) (t : Fmt) (d : BitVec 8) (k : BitVec 4) (b : VSrc) (s : State) :
    Host.Outcome State Fault Refusal :=
  let t' := t.or .f32
  runGang (.xrnd h m r clr t d k b) s anywhere
    (LaneMem.body {
      k := k, h := h, m := m, b := b, rule := { size := 128 }, kind := 0, cls := .ld, element := false, refs := vRegs t' d, data := []
      ask := fun s g _ => if s.buffered g then some (.load 128) else some (.xrnd t' r g.rmode clr)
      zero := fun g i => g.vPut t' d.toNat i 0
      run := fun a i loc _ => xrndLane r clr t' d a i loc, same := clr })

/- Gang-level accesses -/

/-- The keys of a gang-level access as they travel to a peer (R117, R246). -/
def State.farKeys (s : State) (g : Gang) : List FarKey := (s.keySet g).map (fun x => { lane := x.1, key := x.2, wid := g.widOf x.1 })

/-- Every denied key of a gang-level access writes its record and sets its lane's DENY bit (R117). -/
def State.denySet (s : State) (g : Gang) (tag : BitVec 20) (write : Bool) (va : Nat) : State × Gang :=
  ((s.keySet g).filter (fun x => !s.granted g.core (s.ctxOf g.launch) x.2 tag)).foldl
    (fun x y => x.1.denyLane x.2 y.1 y.2 tag write va) (s, g)

/-- A gang-level access through a record (R117, R229). `i` is its index, `none` when out of bounds. -/
structure LineMem where
  rule : MemRule
  kind : Nat
  cls : OpCls
  element : Bool
  rec_ : BitVec 128
  i : Option Nat
  strict : Bool
  refs : List Ref
  ask : State → Gang → Option FarOp
  /-- the outcome when out of bounds (`false`) or denied (`true`) -/
  zero : Bool → Gang → Gang
  run : Acc → Loc → Nat → Res

def LineMem.body (x : LineMem) (s : State) (g : Gang) (_ : LaneMask) : Res :=
  let keys := (s.keySet g).map (·.2)
  let start (s : State) (g : Gang) : Acc :=
    let op := s.nextId
    let (s, g) := s.countOp g x.cls x.refs
    { s := s, g := g, buffered := s.buffered g, base := s.effectsOf g, op := op }
  if 63 ≤ g.counter x.cls then .wait s g (.counter x.cls)
  else if (if x.element then recBadType x.rec_ x.rule.size else recBadCell x.rec_) then .trap 13
  else if x.rule.write && recRo x.rec_ then .trap 14
  else
    match x.i with
    | none =>
      if x.strict then .trapLanes s 1
      else
        let a := start s g
        .ok a.s (x.zero false a.g)
    | some i =>
      let r := s.reachLine g x.rule (recAddr x.rec_ i)
      let noted := s.lookUp g.core g.slot (s.ctxOf g.launch) keys x.rule (recAddr x.rec_ i)
      match r with
      | .oob => .ok s g
      | .wait => .wait (s.noteWalks g.core g.slot (s.ctxOf g.launch) [recAddr x.rec_ i]) g .memory
      | .trap c => .trapLanes noted c
      | .fault f => .parkAll noted g x.kind f
      | .denied _ tag va =>
        let (s, g) := noted.denySet g tag x.rule.write va
        let a := start s g
        .ok a.s (x.zero true a.g)
      | .at_ loc va ord =>
        let asked := farAsks s g { kind := x.rule.write, same := x.rule.write } [(scalarLane, s.farKeys g, r)] (fun _ => x.ask s g)
        if s.notReady [r] then .wait s g .memory
        else if s.far.length < asked.far.length then .wait asked g .far
        else if s.ordWaits g [r] then .wait s g .far
        else x.run { start noted g with ord := ord } loc va

/-- The index of SLD and SST: 64 bits, natural, with no offset (R117). -/
def inExtent (rec_ : BitVec 128) (i : Int) : Option Nat := if 0 ≤ i ∧ i < recExtent rec_ then some i.toNat else none

def execSld (h : SH) (strict : Bool) (t : Fmt) (d : BitVec 6) (bk : BitVec 4) (b : Sc) (s : State) : Host.Outcome State Fault Refusal :=
  let t' := t.or .n64
  runGang (.sld h strict t d bk b) s anywhere (fun s g act =>
    LineMem.body {
      rule := { size := t'.bytes }, kind := 0, cls := .ld, element := true, rec_ := g.bGet bk.toNat
      i := inExtent (g.bGet bk.toNat) (s.sc g h.lit b).toNat, strict := strict, refs := Shape.sRef d.toNat
      ask := fun _ _ => some (.load t'.bytes)
      zero := fun _ g => g.sSet d.toNat 0
      run := fun a loc _ =>
        match a.read scalarLane loc t'.bytes with
        | some l => Acc.finish { a with g := a.g.sSet d.toNat (BitVec.ofInt 64 (rd t' (natOf l))) (anyBad l) } 0 [] []
        | none => Acc.finish { a with g := a.g.sSet d.toNat 0 } 0 [] [] } s g act)

def execSst (h : SH) (strict : Bool) (t : Fmt) (bk : BitVec 4) (b c : Sc) (s : State) : Host.Outcome State Fault Refusal :=
  let t' := t.or .n64
  runGang (.sst h strict t bk b c) s anywhere (fun s g act =>
    LineMem.body {
      rule := { size := t'.bytes, write := true, noVer := true }, kind := 1, cls := .st, element := true, rec_ := g.bGet bk.toNat
      i := inExtent (g.bGet bk.toNat) (s.sc g h.lit b).toNat, strict := strict, refs := []
      ask := fun _ _ => none
      zero := fun _ g => g
      run := fun a loc va =>
        (a.store (if a.buffered then a.g.ownLane else a.g.lowLive) (a.s.farKeys a.g) loc va
          (leBytes t'.bytes (a.s.sc a.g h.lit c).toNat)).finish 1 [] [] } s g act)

/-- The version that a VLDV or VSTV finds (R229). -/
def Acc.version (a : Acc) (loc : Loc) : BitVec 16 :=
  let l := if a.buffered then a.base ++ a.eff else []
  match loc with
  | .here pa => viewVer Loc.here? (a.s.verOf pa) l pa
  | .far p va _ =>
    let d := ((a.g.answer? scalarLane).bind (·.data)).getD []
    viewVer (Loc.farAt? p) (BitVec.ofNat 16 (ofLeBytes (d.drop 128))) l va.toNat

/-- Lanes 0 to 31 of a gang that are not dead. -/
def Gang.lineLanes (g : Gang) : List Nat := (List.range 32).filter (fun w => !g.dead.getLsbD w)

def lineIndex (m : MH) (x : DWord) : Int := (x.toNat % 2 ^ 32 : Nat) + iofs m

def execVldv (h : SH) (m : MH) (d : BitVec 8) (x : BitVec 6) (k : BitVec 4) (b : Sc) (s : State) : Host.Outcome State Fault Refusal :=
  let none_ (g : Gang) : Gang := (g.lineLanes.foldl (fun g w => g.vSet d.toNat w 0) g).sSet x.toNat 0
  runGang (.vldv h m d x k b) s anywhere (fun s g act =>
    LineMem.body {
      rule := { size := 128, noOrd := true, needVer := true }, kind := 0, cls := .ld, element := false, rec_ := g.bGet k.toNat
      i := inExtent (g.bGet k.toNat) (lineIndex m (s.sc g h.lit b)), strict := m.strict, refs := .v d.toNat :: Shape.sRef x.toNat
      ask := fun _ _ => some .vload
      zero := fun _ g => none_ g
      run := fun a loc _ =>
        match a.read scalarLane loc 128 with
        | none => Acc.finish { a with g := none_ a.g } 0 [] []
        | some l =>
          let g := a.g.lineLanes.foldl (fun g w => g.vSet d.toNat w (natOf ((l.drop (4 * w)).take 4)) (anyBad ((l.drop (4 * w)).take 4))) a.g
          Acc.finish { a with g := g.sSet x.toNat ((a.version loc).setWidth 64) } 0 [] [] } s g act)

/-- The status word of VSTV (R229). -/
def vstvStatus (ok : Bool) (cause : Nat) (v : BitVec 16) : DWord := BitVec.ofNat 64 (ok.toNat + cause * 2 + v.toNat * 2 ^ 16)

/-- The line that VSTV writes (R229). -/
def Gang.lineData (g : Gang) (c : BitVec 8) : List Byte :=
  ((List.range 32).map (fun w => leBytes 4 (if g.dead.getLsbD w then 0 else g.vGet c.toNat w))).flatten
/-- Source lanes of VSTV that hold poison. -/
def Gang.lineBad (g : Gang) (c : BitVec 8) : LaneMask := maskOf 64 (g.lineLanes.filter (fun w => g.vBad c.toNat w))

/-- VSTV at its line (R229). -/
def vstvRun (d : BitVec 6) (c : BitVec 8) (x : BitVec 16) (a : Acc) (loc : Loc) : Res :=
  let set (a : Acc) (v : DWord) : Res := Acc.finish { a with g := a.g.sSet d.toNat v } 1 [] []
  let bad := a.g.lineBad c
  let far := match loc with | .far _ _ _ => true | .here _ => false
  match far, a.g.answer? scalarLane with
  | true, some { failed := true, .. } =>
    let a' := a.lost a.g.lowLive
    set { a' with s := { a'.s with nextId := a'.s.nextId + 1 } } (Config.farVstvStatus a.s.nextId)
  | true, some { data := none, .. } => set a (vstvStatus false 3 0)
  | true, none => set a (vstvStatus false 3 0)
  | _, _ =>
    if bad ≠ 0 then
      let v := a.version loc
      match a.s.consume a.g bad with
      | (s, none) => .gone s
      | (s, some g) => set { a with s := s, g := g } (vstvStatus false 2 v)
    else if far && !a.buffered then
      let r := (((a.g.answer? scalarLane).bind (·.data)).getD [])
      let ok := r.getD 0 0 != 0
      set a (vstvStatus ok (if ok then 0 else 1) (BitVec.ofNat 16 (ofLeBytes (r.drop 1))))
    else
      let v := a.version loc
      if v ≠ x then set a (vstvStatus false 1 v)
      else if a.buffered then
        set (a.push a.g.ownLane (a.s.farKeys a.g) 144 (.vstv loc (a.g.lineData c) x)) (vstvStatus true 0 (x + 1))
      else
        match loc with
        | .here pa =>
          let a := a.put pa (clean (a.g.lineData c))
          set { a with s := a.s.setVer pa (x + 1) } (vstvStatus true 0 (x + 1))
        | .far _ _ _ => set a (vstvStatus false 3 0)

def execVstv (h : SH) (m : MH) (d : BitVec 6) (k : BitVec 4) (b : Sc) (c : BitVec 8) (x : Sc) (s : State) :
    Host.Outcome State Fault Refusal :=
  runGang (.vstv h m d k b c x) s anywhere (fun s g act =>
    let want := (s.sc g h.lit x).setWidth 16
    LineMem.body {
      rule := { size := 128, write := true, noOrd := true, needVer := true }, kind := 1, cls := .st, element := false, rec_ := g.bGet k.toNat
      i := inExtent (g.bGet k.toNat) (lineIndex m (s.sc g h.lit b)), strict := m.strict, refs := Shape.sRef d.toNat
      ask := fun s g => some (if s.buffered g || g.lineBad c != 0 then .vload else .vstore (g.lineData c) want)
      zero := fun denied g => g.sSet d.toNat (vstvStatus false (if denied then 3 else 4) 0)
      run := fun a loc _ => vstvRun d c want a loc } s g act)

/-- FENCE (R296): the accesses of a gang are performed in order, so at every scope it is the later memory instructions that wait, and only for accesses
that a peer has not answered yet (log 69). -/
def execFence (st : BitVec 3) (sc : Scope) (s : State) : Host.Outcome State Fault Refusal :=
  runGang (.fence st sc) s anywhere (fun s g _ => .ok s { g with fence := s.nextId })

/- Scratch -/

/-- The crew whose scratch an instruction names: `none` puts every lane out of bounds (R219, R220). -/
def State.ownScratch (s : State) (g : Gang) : Option Nat := (s.crewOf g).map (fun _ => g.crew)

def State.bandScratch (s : State) (g : Gang) (c : Nat) : Option Nat :=
  (s.crewOf g).bind (fun own =>
    (s.crews.find? (fun x => x.2.launch == own.launch && x.2.band == own.band && x.2.inBand == c && x.2.resident && !x.2.freed)).map (·.1))

/-- LDC and STC that name another crew in PHASED and SPAN modes (R86). -/
def State.isolated (s : State) (g : Gang) (c : Nat) : Bool :=
  s.modeOf g != 0 && ((s.crewOf g).map (·.inBand)).getD 0 != c

/-- Scratch offset and outcome of a lane (R219). -/
def scratchReach (size bytes : Nat) (m : MH) (x : Nat) : Reach :=
  let o : Int := (x % 2 ^ 32 : Nat) + iofs m * size
  if o < 0 ∨ (bytes : Int) < o + size then .oob
  else if o.toNat % size ≠ 0 then .trap 2
  else .at_ (.here o.toNat) o.toNat false

/-- LDS, STS, LDC, STC (R226): `load` names the destination of a load, `data` the source of a store. -/
def scratchBody (h : VH) (m : MH) (t : Fmt) (b : VSrc) (store : Bool) (r : BitVec 8) (target : Option Nat) (s : State) (g : Gang)
    (act : LaneMask) : Res :=
  let cls : OpCls := if store then .st else .ld
  if 63 ≤ g.counter cls then .wait s g (.counter cls)
  else
    match s.consume g (g.badLanes (g.live act) (srcRegs .b32 b)) with
    | (s, none) => .gone s
    | (s, some g) =>
      let bytes := if target.isSome then ((s.launch? g.launch).map (·.pkt.scratch)).getD 0 else 0
      let l := (bitsOn (g.live act)).map (fun i => (i, scratchReach t.bytes bytes m (s.vsrc g h.lit .b32 b i)))
      let reach := maskOf 64 ((l.filter (fun y => y.2.isAt)).map (·.1))
      match s.consume g (if store then g.badLanes (g.live reach) (dataRegs t r) else 0) with
      | (s, none) => .gone s
      | (s, some g) =>
        let k := target.getD 0
        let (s, g) := s.countOp g cls ((if store then [] else vRegs t r) ++ Shape.mRef m.bm.toNat)
        let (s, g) := l.foldl (fun (x : State × Gang) y =>
          let (s, g) := x
          if g.dead.getLsbD y.1 then (s, g)
          else
            match y.2 with
            | .oob => (s, if store then g else g.vPut t r.toNat y.1 0)
            | .at_ (.here o) _ _ =>
              if store then (s.modCrew k (fun c => { c with scratch := c.scratch.write o (clean (leBytes t.bytes (g.vraw t r.toNat y.1))) }), g)
              else (s, g.vBytes t r.toNat y.1 (Bytes.read (((s.crew? k).map (·.scratch)).getD {}) o t.bytes))
            | _ => (s, g)) (s, g.bounds m.bm l)
        match codesOf (l.filterMap (fun y => y.2.code?.map (fun c => (y.1, c)))) with
        | [] => .ok s g
        | codes => .lanes s (g.dropOp (s.nextId - 1)) codes

def execLds (h : VH) (m : MH) (t : Fmt) (d : BitVec 8) (b : VSrc) (s : State) : Host.Outcome State Fault Refusal :=
  runGang (.lds h m t d b) s anywhere (fun s g act => scratchBody h m (t.or .b32) b false d (s.ownScratch g) s g act)

def execSts (h : VH) (m : MH) (t : Fmt) (b : VSrc) (c : BitVec 8) (s : State) : Host.Outcome State Fault Refusal :=
  runGang (.sts h m t b c) s anywhere (fun s g act => scratchBody h m (t.or .b32) b true c (s.ownScratch g) s g act)

def execLdc (h : VH) (m : MH) (t : Fmt) (d : BitVec 8) (a : Sc) (b : VSrc) (s : State) : Host.Outcome State Fault Refusal :=
  runGang (.ldc h m t d a b) s anywhere (fun s g act =>
    let c := (s.sc g h.lit a).toNat
    if s.isolated g c then .trap 12 else scratchBody h m (t.or .b32) b false d (s.bandScratch g c) s g act)

def execStc (h : VH) (m : MH) (t : Fmt) (a : Sc) (b : VSrc) (c : BitVec 8) (s : State) : Host.Outcome State Fault Refusal :=
  runGang (.stc h m t a b c) s anywhere (fun s g act =>
    let k := (s.sc g h.lit a).toNat
    if s.isolated g k then .trap 12 else scratchBody h m (t.or .b32) b true c (s.bandScratch g k) s g act)

end Sys2Proof.Machine
end

