-- ==== Sys2Proof/Machine/System.lean ====
section
/-! DEFINITION. System instructions of a gang: RGROW and RSHR with the accounting of register blocks (R105, R122 to R126), SLEEP (R101), GETSR
and SETSR (R119 to R121). -/
namespace Sys2Proof.Machine

/- Register blocks -/

/-- Blocks of a gang with `n` vector registers; a shadowed gang takes twice as many (R105, R356). -/
def blocksFor (n : Nat) (shadow : Bool) : Nat := (1 + n / 8) * (if shadow then 2 else 1)

/-- Blocks a gang holds; a parked gang holds none (R106, R125). -/
def State.blocksOf (s : State) (g : Gang) : Nat :=
  match g.stat with
  | .parked _ | .restoring => 0
  | _ => blocksFor g.n (s.shadowed g.launch)

/-- Blocks of the register pane of a core. -/
def State.paneBlocks (s : State) (core : Nat) : Nat := 32 * bitField ((s.core core).part.getD 0).toNat 7 0

def State.freeBlocks (s : State) (core : Nat) : Nat :=
  s.paneBlocks core - ((s.coreGangs core).map s.blocksOf).foldl (· + ·) 0

/-- A gang's own RGROW request waits, or a handler asks for it (R349); either way at the gang's age. -/
def Gang.growTo (g : Gang) : Option Nat :=
  match g.stat with
  | .waiting (.grow t) => some t
  | _ => none

/-- The requests that wait on a core (R124). -/
def State.growers (s : State) (core : Nat) : List Gang := s.gangList.filter (fun g => g.core == core && g.growTo.isSome)

/-- A request fits and nothing older waits (R124). DESIGN CHOICE (log 79): only waiting requests are compared by age; an older parked gang that is still to be
restored does not hold a resident gang's request. -/
def State.canGrow (s : State) (g : Gang) (t : Nat) : Bool :=
  (s.growers g.core).all (fun o => decide (g.age ≤ o.age)) &&
    decide (blocksFor t (s.shadowed g.launch) - blocksFor g.n (s.shadowed g.launch) ≤ s.freeBlocks g.core)

def regCountBad (t : Nat) : Bool := decide (t < 8) || decide (256 < t) || t % 8 != 0

/-- RGROW (R123). DESIGN CHOICE (log 115): REG_LIMIT compares the blocks of one gang, as R123 writes it, under SHADOW too, where the pair takes twice as many. -/
def execRgrow (h : SH) (d : BitVec 6) (a : Sc) (s : State) : Host.Outcome State Fault Refusal :=
  runGang (.rgrow h d a) s notHandler (fun s g _ =>
    let t := (s.sc g h.lit a).toNat
    if regCountBad t then .trap 8
    else if t ≤ g.n then .ok s (g.sSet d.toNat (BitVec.ofNat 64 g.n))
    else if s.paneBlocks g.core < 1 + t / 8 then .trap 9
    else if s.canGrow g t then .ok s (({ g with n := t }).sSet d.toNat (BitVec.ofNat 64 t))
    else .wait (s.countAt g.place .rgrowWaits) g (.grow t))

def execRshr (h : SH) (d : BitVec 6) (a : Sc) (s : State) : Host.Outcome State Fault Refusal :=
  runGang (.rshr h d a) s notHandler (fun s g _ =>
    let t := (s.sc g h.lit a).toNat
    if regCountBad t then .trap 8
    else
      let g := g.shrink t
      .ok s (g.sSet d.toNat (BitVec.ofNat 64 g.n)))

def execSleep (h : SH) (a : Sc) (s : State) : Host.Outcome State Fault Refusal :=
  runGang (.sleep h a) s anywhere (fun s g _ =>
    .ok s { g with stat := .sleeping (s.cyc g.core + min (s.sc g h.lit a).toNat (2 ^ 32 - 1)) })

/-- A row that a lane of the gang named in a built-in post has still to reach its outcome: its denial would set a DENY bit (R242). -/
def State.postRowsOf (s : State) (g : Gang) : Bool :=
  s.ctxs.any (fun x => x.1 / 16 == g.core && x.2.slot == g.slot && x.2.crew == g.crew && x.2.rows.any (fun r => r.lane.isSome))

/-- The serialising read of R120: every older instruction has its results, the peers have answered every older access, and the rows of every older built-in post
have their outcomes where `$deny` is read, which holds the denials of all of them (R242, R246). -/
def execGetsr (st : BitVec 3) (d : BitVec 6) (r : SpReg) (s : State) : Host.Outcome State Fault Refusal :=
  runGang (.getsr st d r) s anywhere (fun s g _ =>
    if !g.busy.isEmpty then .wait s g .scoreboard
    else if g.pend.any (fun p => decide (s.cyc g.core < p.readyAt)) then .gone s
    else if s.farOf g.core g.slot then .wait s g .far
    else if r == .deny && s.postRowsOf g then .wait s g .rows
    else .ok s (g.sSet d.toNat (s.spGet g r)))

/-- `$chan` written with privilege (R194). -/
def Core.setChan (k : Core) (x : DWord) : Core :=
  { k with
    en := x.setWidth 8
    err := maskOf 32 ((bitsOn k.err).filter (fun i => x.extractLsb' (16 + 4 * (i / 4)) 4 == 0#4)) }

/-- `$rmode` cannot take rounding codes 5 to 7 (R28, R121). -/
def rmodeBad (x : DWord) : Bool := decide (5 ≤ (x.extractLsb' 0 3).toNat)
def rmodeOf (x : DWord) : Word := (x.extractLsb' 0 9).setWidth 32

def setsrBad (h : VH) (d : SpReg) (a : VSrc) (s : State) (g : Gang) : Bool :=
  match d, a with
  | .rmode, .s x => rmodeBad (s.sc g h.lit x)
  | _, _ => false

/-- A special register that is written whole loses its poison (R108). -/
def Gang.spClean (g : Gang) (r : SpReg) : Gang := { g with spBad := Store.set g.spBad r.num 0 }

/-- R121. -/
def setsrBody (h : VH) (d : SpReg) (a : VSrc) (s : State) (g : Gang) (act : LaneMask) : Res :=
  let x := match a with | .s y => s.sc g h.lit y | .v _ => 0
  match d with
  | .rmode => .ok s ({ g with rmode := rmodeOf x }.spClean .rmode)
  | .deny => .ok s ({ g with deny := g.deny &&& ~~~ x }.spClean .deny)
  | .chan => if g.isHandler && s.hpriv g then .ok (s.modCore g.core (fun k => k.setChan x)) g else .trap 11
  | .key =>
    let may := if g.isHandler then s.hpriv g else ((s.launch? g.launch).map (·.pkt.keyset)).getD false
    if !may then .trap 10
    else
      match s.consume g (g.badLanes (g.live act) (match a with | .v n => [n.toNat] | .s _ => [])) with
      | (s, none) => .gone s
      | (s, some g) =>
        let g' := { g with key := (bitsOn (g.live act)).foldl (fun k i => Store.set k i (BitVec.ofNat 32 (s.vsrc g h.lit .b32 a i))) g.key }
        .ok s (if g.live act = BitVec.allOnes 64 then g'.spClean .key else g')
  | _ => .trap 1

def execSetsr (h : VH) (d : SpReg) (a : VSrc) (s : State) : Host.Outcome State Fault Refusal :=
  runGang (.setsr h d a) s (setsrBad h d a) (setsrBody h d a)

end Sys2Proof.Machine
end

