-- ==== Sys2Proof/Machine/Latch.lean ====
section
/-! DEFINITION. Latches (R273 to R275, R282), the latch instructions (R276 to R281), OWAIT (R285) and the barriers (R286). -/
namespace Sys2Proof.Machine

/- The latch word -/

def latchPhase (x : Nat) : Nat := bitField x 3 0
def latchArrive (x : Nat) : Nat := bitField x 23 4
def latchSect (x : Nat) : Nat := bitField x 55 24
def latchReload (x : Nat) : Nat := bitField x 75 56
def latchFailed (x : Nat) : Nat := bitField x 99 76
def latchEcode (x : Nat) : Nat := bitField x 107 100
def latchValid (x : Nat) : Bool := x.testBit 111

/-- `x` with bits [hi:lo] set to `v`. -/
def putField (x hi lo v : Nat) : Nat := x - bitField x hi lo * 2 ^ lo + v % 2 ^ (hi + 1 - lo) * 2 ^ lo

/-- SCRATCH of a crew's launch. -/
def State.scratchOf (s : State) (crew : Nat) : Nat :=
  match s.crew? crew with
  | some c => ((s.launch? c.launch).map (·.pkt.scratch)).getD 0
  | none => 0

/-- A latch's bytes in place; uncorrectable ones read as VALID = 0 (R274). -/
def State.latch (s : State) (crew ofs : Nat) : Nat :=
  match s.crew? crew with
  | some c =>
    let r := c.scratch.read ofs 16
    if anyBad r then putField (natOf r) 111 111 0 else natOf r
  | none => 0

def State.putLatch (s : State) (crew ofs x : Nat) : State :=
  s.modCrew crew (fun c => { c with scratch := c.scratch.write ofs (clean (leBytes 16 x)) })

/-- The address rule of R274. -/
def State.latchOut (s : State) (crew ofs : Nat) : Bool := ofs % 16 != 0 || decide (s.scratchOf crew < ofs + 16)

/-- An update of a latch (R275). `subs` says whether it is an arrival or a subtraction of one or more. -/
structure LatchUpd where
  owe : Nat := 0
  arrive : Nat := 0
  add : Nat := 0
  sub : Nat := 0
  failed : Bool := false
  ecode : Nat := 0
  denied : Bool := false
  deriving DecidableEq, Repr

/-- Would carry ARRIVE or SECT past its field (R255, R269). -/
def LatchUpd.over (u : LatchUpd) (x : Nat) : Bool := decide (2 ^ 20 ≤ latchArrive x + u.owe) || decide (2 ^ 32 ≤ latchSect x + u.add)

/-- Counts, error fields and flags after an update that is allowed, before completion. -/
def LatchUpd.apply (u : LatchUpd) (x : Nat) : Nat :=
  let x := putField x 23 4 (latchArrive x + u.owe - u.arrive)
  let x := putField x 55 24 (latchSect x + u.add - u.sub)
  let x := if !u.failed then x
    else if latchFailed x = 0xFFFFFF then putField x 109 109 1
    else putField x 99 76 (latchFailed x + 1)
  let x := if latchEcode x = 0 then putField x 107 100 u.ecode else x
  if u.denied then putField x 108 108 1 else x

/-- The update completes the phase (R275). -/
def LatchUpd.completes (u : LatchUpd) (x : Nat) : Bool :=
  (decide (0 < u.arrive) || decide (0 < u.sub)) && latchArrive (u.apply x) == 0 && latchSect (u.apply x) == 0

/-- The latch after a completion: the next phase, ARRIVE from RELOAD, SHADOW as R357 says. -/
def latchNext (x : Nat) (shadow : Bool) : Nat :=
  putField (putField (putField x 3 0 (latchPhase x + 1)) 23 4 (latchReload x)) 110 110 shadow.toNat

/-- Removes a latch's waiter entry and wakes the gangs in its bitmap (R282). -/
def State.wakeLatch (s : State) (crew ofs : Nat) : State :=
  match s.crew? crew with
  | none => s
  | some c =>
    let hit (w : Waiter) : Bool := w.crew == crew && w.ofs == ofs
    let slots := ((s.core c.core).waiters.filter hit).foldl (fun m w => m ||| w.slots) (0 : BitVec 32)
    (s.modCore c.core (fun k => { k with waiters := k.waiters.filter (fun w => !hit w) })).wakeAnew
      (fun g => g.core == c.core && g.crew == crew && slots.getLsbD g.slot && g.stat == .waiting (.latch ofs))

/-- Applies an allowed update to a valid latch. -/
def State.updLatch (s : State) (crew ofs : Nat) (u : LatchUpd) : State :=
  let x := s.latch crew ofs
  let y := u.apply x
  if u.completes x then
    let shadow := ((s.crew? crew).map (fun c => s.shadowed c.launch)).getD false
    (s.putLatch crew ofs (latchNext y shadow)).wakeLatch crew ofs
  else s.putLatch crew ofs y

/- Scratch of a crew -/

/-- Gangs that wait on a latch whose bytes have turned out uncorrectable are woken (R274). -/
def State.wakeBadLatches (s : State) (crew : Nat) : State :=
  match s.crew? crew with
  | none => s
  | some c => (s.core c.core).waiters.foldl (fun s w =>
      if w.crew = crew ∧ !latchValid (s.latch crew w.ofs) then s.wakeLatch crew w.ofs else s) s

def State.scratchRead (s : State) (crew o n : Nat) : List PByte := Bytes.read (((s.crew? crew).map (·.scratch)).getD {}) o n
def State.scratchWrite (s : State) (crew o : Nat) (l : List PByte) : State :=
  let s := s.modCrew crew (fun c => { c with scratch := c.scratch.write o l })
  if anyBad l then s.wakeBadLatches crew else s

/- Latch instructions -/

/-- The offset of a latch operand in the gang's own scratch; a bad one, or the handler slot's, raises LATCH_RANGE (R274). -/
def State.latchRange (s : State) (g : Gang) (ofs : Nat) : Bool := (s.crewOf g).isNone || s.latchOut g.crew ofs

/-- LATI (R277). -/
def latiBody (ofs n : Nat) (s : State) (g : Gang) : Res :=
  let x := s.latch g.crew ofs
  if s.latchRange g ofs then .trap 21
  else if 2 ^ 20 ≤ n then .trap 24
  else if (s.core g.core).waiters.any (fun w => w.crew == g.crew && w.ofs == ofs) || (latchValid x && latchSect x != 0) then .trap 23
  else .ok (s.putLatch g.crew ofs (n * 2 ^ 4 + n * 2 ^ 56 + 2 ^ 111)) g

def execLati (h : SH) (a b : Sc) (s : State) : Host.Outcome State Fault Refusal :=
  runGang (.lati h a b) s anywhere (fun s g _ => latiBody (s.sc g h.lit a).toNat (s.sc g h.lit b).toNat s g)

/-- LARV (R277). -/
def larvBody (ofs n want : Nat) (s : State) (g : Gang) : Res :=
  let x := s.latch g.crew ofs
  if s.latchRange g ofs then .trap 21
  else if !latchValid x then .trap 22
  else if 2 ^ 20 ≤ n then .trap 24
  else if want ≠ 0 ∧ want ≠ latchReload x then .trap 26
  else if latchArrive x < n then .trap 25
  else .ok (s.updLatch g.crew ofs { arrive := n }) g

def execLarv (h : SH) (a b c : Sc) (s : State) : Host.Outcome State Fault Refusal :=
  runGang (.larv h a b c) s anywhere
    (fun s g _ => larvBody (s.sc g h.lit a).toNat (s.sc g h.lit b).toNat (s.sc g h.lit c).toNat s g)

/-- LRST (R277). -/
def lrstBody (ofs n : Nat) (s : State) (g : Gang) : Res :=
  let x := s.latch g.crew ofs
  if s.latchRange g ofs then .trap 21
  else if !latchValid x then .trap 22
  else if 2 ^ 20 ≤ n then .trap 24
  else .ok (s.putLatch g.crew ofs (putField (putField (putField x 99 76 0) 110 100 0) 75 56 n)) g

def execLrst (h : SH) (a b : Sc) (s : State) : Host.Outcome State Fault Refusal :=
  runGang (.lrst h a b) s anywhere (fun s g _ => lrstBody (s.sc g h.lit a).toNat (s.sc g h.lit b).toNat s g)

/-- Takes up a waiter entry, or a bit of the latch's entry, or polls while all entries are in use (R282). -/
def State.joinLatch (s : State) (g : Gang) (ofs phase : Nat) : Res :=
  let hit (w : Waiter) : Bool := w.crew == g.crew && w.ofs == ofs
  let k := s.core g.core
  let bit : BitVec 32 := oneBit 32 g.slot
  if k.waiters.any hit then
    .wait (s.putCore g.core { k with waiters := k.waiters.map (fun w => if hit w then { w with slots := w.slots ||| bit } else w) }) g (.latch ofs)
  else if k.waiters.length < Config.waiters then
    .wait (s.putCore g.core { k with waiters := k.waiters ++ [{ crew := g.crew, ofs := ofs, slots := bit }] }) g (.latch ofs)
  else .wait (s.countAt g.place .latchWaitersFull) { g with parkedAt := s.cyc g.core } (.latchPoll ofs phase)

/-- What LWAIT writes (R278). -/
def latchStatus (x : Nat) : DWord := BitVec.ofNat 64 (bitField x 111 56)

/-- LWAIT (R278). -/
def lwaitBody (d : BitVec 6) (ofs p : Nat) (s : State) (g : Gang) : Res :=
  let x := s.latch g.crew ofs
  if s.latchRange g ofs then .trap 21
  else if !latchValid x then .trap 22
  else if latchPhase x ≠ p % 16 then .ok s (g.sSet d.toNat (latchStatus x))
  else s.joinLatch g ofs (p % 16)

def execLwait (h : SH) (d : BitVec 6) (a b : Sc) (s : State) : Host.Outcome State Fault Refusal :=
  runGang (.lwait h d a b) s anywhere (fun s g _ => lwaitBody d (s.sc g h.lit a).toNat (s.sc g h.lit b).toNat s g)

/-- PWAIT (R280). -/
def pwaitBody (nt : Bool) (d : BitVec 6) (till ofs p : Nat) (s : State) (g : Gang) : Res :=
  let x := s.latch g.crew ofs
  if s.latchRange g ofs then .trap 21
  else if s.cyc g.core < till then .wait s g (.promise till)
  else if !latchValid x then .trap 22
  else if latchPhase x ≠ p % 16 then .ok s (g.sSet d.toNat (latchStatus x))
  else if nt || g.pwaitNt then (s.countAt g.place .promiseLateCount).joinLatch g ofs (p % 16)
  else .trapWith 29 0 (BitVec.ofNat 64 till)

def execPwait (h : SH) (nt : Bool) (d : BitVec 6) (a b c : Sc) (s : State) : Host.Outcome State Fault Refusal :=
  runGang (.pwait h nt d a b c) s anywhere
    (fun s g _ => pwaitBody nt d (s.sc g h.lit a).toNat (s.sc g h.lit b).toNat (s.sc g h.lit c).toNat s g)

def execOwait (h : SH) (cls : OpCls) (a : Sc) (s : State) : Host.Outcome State Fault Refusal :=
  runGang (.owait h cls a) s anywhere (fun s g _ =>
    let n := min (s.sc g h.lit a).toNat 63
    if g.counter cls ≤ n then .ok s g else .wait s g (.owait cls n))

/- Barriers -/

/-- Gangs of the launch that have not executed EXIT (R286). -/
def State.launchReload (s : State) (launch : Nat) : Nat :=
  match s.launch? launch with
  | some l =>
    if l.pkt.mode = 2 then (s.gangList.filter (fun g => g.launch == launch && g.slot != 32 && g.stat != .ended)).length
    else l.pkt.gangCount - l.exited
  | none => 0

/-- CBAR: the arrival, then the wait for the phase (R286). -/
def cbarBody (i : Instr) (n : Nat) (s : State) (g : Gang) : Res :=
  match s.crew? g.crew with
  | none => .gone s
  | some c =>
    if n ≠ 0 ∧ n ≠ c.live then .trap 26
    else
      let sh := shape i
      let g := { g.advance sh (s.cyc g.core) (g.next sh) with stat := .waiting (.crewBarrier c.bar.phase) }
      .gone (((s.putGang g).putCrew g.crew { c with bar := { c.bar with arrived := c.bar.arrived + 1 } }).crewBarCheck g.crew)

def execCbar (h : SH) (a : Sc) (s : State) : Host.Outcome State Fault Refusal :=
  runGang (.cbar h a) s notHandler (fun s g _ => cbarBody (.cbar h a) (s.sc g h.lit a).toNat s g)

/-- GBAR; its checks come in the order that R286 lists. -/
def gbarBody (i : Instr) (n : Nat) (s : State) (g : Gang) : Res :=
  match s.launch? g.launch with
  | none => .gone s
  | some l =>
    if n ≠ 0 ∧ n ≠ s.launchReload g.launch then .trap 26
    else if !l.pkt.cosched then .trap 27
    else if l.pkt.mode ≠ 0 then .trap 12
    else
      let sh := shape i
      let g := { g.advance sh (s.cyc g.core) (g.next sh) with stat := .waiting (.launchBarrier l.bar.phase) }
      .gone (((s.putGang g).putLaunch g.launch { l with bar := { l.bar with arrived := l.bar.arrived + 1 } }).launchBarCheck g.launch)

def execGbar (h : SH) (a : Sc) (s : State) : Host.Outcome State Fault Refusal :=
  runGang (.gbar h a) s notHandler (fun s g _ => gbarBody (.gbar h a) (s.sc g h.lit a).toNat s g)

end Sys2Proof.Machine
end

