-- ==== Sys2Proof/Machine/PoolRows.lean ====
section
/-! DEFINITION. The rows of a pool (R104, R105): their words, a row delivered in error (R108, R109), and the rows that
instructions, copies and saves read on a core with banks marked failed (R107). -/
namespace Sys2Proof.Machine

/- Words -/

/-- The entry of a tile and its word that a byte offset lies in (R164). -/
def Tile.place (t : Tile) (o : Nat) : Option (Nat × Nat) :=
  if t.fmt = .res then (if o < 8192 then some (o / 8, o % 8 / 4) else none) else some (o / 80, o % 80 / 4)

def Tile.word (t : Tile) (o : Nat) : Word × Bool :=
  match t.place o with
  | none => (0, false)
  | some (e, k) => (wordOf (if t.fmt = .res then t.octet e else (t.xa e).sum.toNat) k, t.wordBad e k)

def Tile.spoil (t : Tile) (o : Nat) (x : Option Word) : Tile :=
  match t.place o, x with
  | none, _ => t
  | some (e, k), none => t.setBad e k
  | some (e, k), some w =>
    if t.fmt = .res then { t with res := Store.set t.res e (BitVec.ofNat 64 (withWord (t.octet e) k w)) }
    else { t with cells := Tab.set t.cells e { t.xa e with sum := BitVec.ofNat 704 (withWord (t.xa e).sum.toNat k w) } }

/- The effect buffer (R73) -/

/-- A row of the buffer holds entry bytes `o` to `o + n − 1`; an entry that takes no space of its own stands with the one before it. -/
def inRow (ix o n : Nat) : Bool := decide (o < 64 * ix + 64) && decide (64 * ix < o + max n 1)

/-- Where the entries of a buffer stand, the first of them at byte `o`. -/
def effectPlaces : Nat → List Eff → List (Nat × Eff)
  | _, [] => []
  | o, e :: r => (o, e) :: effectPlaces (o + e.size) r

/-- A poisoned plain store's words, whole. -/
def wholeWords (l : Loc) (n : Nat) : EffKind :=
  let ofs := l.addr % 4
  let at_ : Loc := match l with | .here a => .here (a - ofs) | .far p va tag => .far p (va - BitVec.ofNat 57 ofs) tag
  .store at_ (List.replicate ((ofs + n + 3) / 4 * 4) 0)

/-- An entry whose row is delivered in error. DESIGN CHOICE (log 112): a poisoned one poisons the words that it would have written, and an EVS or EVC is lost;
one delivered wrong as corrected writes or combines the wrong word. -/
def Eff.spoil (e : Eff) (x : Option Word) : Eff :=
  match x, e.kind with
  | none, .store l d => { e with kind := wholeWords l d.length, bad := true }
  | none, .atm l _ t _ _ => { e with kind := wholeWords l t.bytes, bad := true }
  | none, .redx l _ _ _ | none, .xclr l | none, .vstv l _ _ => { e with kind := wholeWords l 128, bad := true }
  | none, .evs _ | none, .evc _ _ => { e with kind := .space }
  | some w, .store l d => { e with kind := .store l ((List.range d.length).map (fun i => BitVec.ofNat 8 (w.toNat / 256 ^ (i % 4)))) }
  | some w, .atm l op t _ y => { e with kind := .atm l op t (w.setWidth 64) y }
  | some w, .redx l t _ y => { e with kind := .redx l t (w.setWidth 64) y }
  | some w, .vstv l d v => { e with kind := .vstv l ((List.range d.length).map (fun i => BitVec.ofNat 8 (w.toNat / 256 ^ (i % 4)))) v }
  | some w, .evs c => { e with kind := .evs { c with pay := w.setWidth 64 } }
  | some w, .evc t _ => { e with kind := .evc t (w.setWidth 64) }
  | _, _ => e

/-- The entries of a buffer, the first of which stands at byte `o`, after row `ix` has been delivered in error. -/
def spoilEffects (ix : Nat) (x : Option Word) : Nat → List Eff → List Eff
  | _, [] => []
  | o, e :: r => (if inRow ix o e.size then e.spoil x else e) :: spoilEffects ix x (o + e.size) r

/-- Bytes of a crew's effect buffer in the pool; what moves to the log stands there no longer (R73, R84). -/
def State.bufferOf (s : State) (crew : Nat) : Nat :=
  match s.crew? crew with
  | some c => if c.freed then 0 else ((s.launch? c.launch).map (fun l => if l.pkt.mode = 0 then 0 else l.pkt.effect)).getD 0
  | none => 0

/- Rows -/

/-- Word `i` of what a row of a core's pool holds. -/
def State.heldWord (s : State) (core : Nat) (x : RowHolds) (i : Nat) : Word × Bool :=
  match x with
  | .nothing => (0, false)
  | .lanes slot copy r q =>
    match (s.gangAt core slot).bind (fun g => g.copyOf copy) with
    | some g => if r < g.n then (Store.get g.v (vkey r (16 * q + i)), g.vBad r (16 * q + i)) else (0, false)
    | none => (0, false)
  | .control slot copy ix =>
    match (s.gangAt core slot).bind (fun g => g.copyOf copy) with
    | some g => if ix < 14 then g.regWord (16 * ix + i) else g.restWord (16 * ix + i)
    | none => (0, false)
  | .scratch k ix =>
    let o := 64 * ix + 4 * i
    match s.crew? k with
    | some c => if o + 4 ≤ s.scratchOf k then (BitVec.ofNat 32 (natOf (c.scratch.read o 4)), anyBad (c.scratch.read o 4)) else (0, false)
    | none => (0, false)
  | .effect k ix =>
    match s.crew? k with
    | some c =>
      if 64 * ix + 4 * i + 4 ≤ min (s.bufferOf k) (effBytes c.effects) then (Config.effectWord k (16 * ix + i), (effectPlaces 0 c.effects).any (fun x => x.2.bad && inRow ix x.1 x.2.size))
      else (0, false)
    | none => (0, false)
  | .tile k t o => match (s.crew? k).bind (fun c => Tab.get? c.tiles t) with
    | some t => t.word (o + 4 * i)
    | none => (0, false)

/-- A row delivered in error: word `i` is wrong data, or poisoned where `f i` is `none` (R107, R108). -/
def State.spoilHeld (s : State) (core : Nat) (x : RowHolds) (f : Nat → Option Word) : State :=
  let words := List.range 16
  match x with
  | .nothing => s
  | .lanes slot _ _ _ | .control slot _ _ => s.modGang core slot (fun g => if g.inPool then g.spoilRow x f else g)
  | .scratch k ix =>
    let size := s.scratchOf k
    (s.modCrew k (fun c => { c with
      scratch := words.foldl (fun m i =>
        let o := 64 * ix + 4 * i
        if size < o + 4 then m
        else match f i with
          | some w => m.write o (clean (leBytes 4 w.toNat))
          | none => { m with pois := Store.set m.pois (o / 4) 1 }) c.scratch })).wakeBadLatches k
  | .effect k ix => s.modCrew k (fun c => { c with effects := spoilEffects ix (f 0) 0 c.effects })
  | .tile k t o =>
    s.modCrew k (fun c => { c with
      tiles := Tab.set c.tiles t (words.foldl (fun x i => x.spoil (o + 4 * i) (f i)) ((Tab.get? c.tiles t).getD {})) })

/-- An uncorrectable row (R107). -/
def State.loseHeld (s : State) (core : Nat) (x : RowHolds) (many : Bool) : State := let y := s.rowLost core many; y.1.spoilHeld core x y.2

/-- Rows that are read on a core with banks marked failed, no other bank in error: one failed bank is reconstructed on every read, two leave the row
uncorrectable (R107). -/
def State.readHeld (s : State) (core : Nat) (l : List RowHolds) : State :=
  match (s.core core).failedBanks with
  | [] => s
  | [bank] => s.rowsCorrected core bank l.length
  | _ :: _ :: more => l.foldl (fun s x => s.loseHeld core x (!more.isEmpty)) s

/- Which rows are read (log 94) -/

/-- The 64-byte rows that a span of bytes touches. -/
def rowsOfSpan (o n : Nat) : List Nat := if n = 0 then [] else (List.range ((o + n - 1) / 64 + 1 - o / 64)).map (· + o / 64)

/-- The rows of a crew's scratch that a list of spans touches, each once. -/
def scratchRows (crew : Nat) (l : List (Nat × Nat)) : List RowHolds :=
  ((l.map (fun x => rowsOfSpan x.1 x.2)).flatten.eraseDups).map (.scratch crew)

/-- The row of a control block, as the model numbers its words, that a register stands in (log 12). -/
def Gang.controlRows (g : Gang) (r : Ref) : List Nat :=
  match r with
  | .s n => [n / 8]
  | .m n => [8 + n / 8]
  | .b n => [10 + n / 4]
  | .top => if g.stack.isEmpty then [] else [15]
  | _ => []

/-- The rows of a copy of a gang's registers that an instruction reads: four of each vector register among its sources, those of its scalar sources,
and the one that the PC and the special registers stand in. -/
def Gang.sourceRows (g : Gang) (copy : Bool) (sh : Shape) : List RowHolds :=
  let v := sh.reads.filterMap (fun r => match r with | .v k => some k | _ => none)
  (v.map (fun k => (List.range 4).map (.lanes g.slot copy k))).flatten ++
    ((14 :: (sh.reads.map g.controlRows).flatten).eraseDups).map (.control g.slot copy)

/-- The rows of a tile that `n` entries from entry `e` on stand in. -/
def Tile.rows (t : Tile) (crew tile e n : Nat) : List RowHolds :=
  let w := 4 * entryWords t.fmt
  (rowsOfSpan (w * e) (w * n)).map (fun r => .tile crew tile (64 * r))

/-- The rows of scratch that a load of lanes reads. -/
def State.laneRows (s : State) (g : Gang) (i : Instr) (h : VH) (m : MH) (t : Fmt) (b : VSrc) (target : Option Nat) : List RowHolds :=
  match target with
  | none => []
  | some k => scratchRows k ((bitsOn (g.live (g.active (shape i)))).filterMap (fun j =>
      match scratchReach t.bytes (s.scratchOf k) m (s.vsrc g h.lit .b32 b j) with
      | .at_ (.here o) _ _ => some (o, t.bytes)
      | _ => none))

/-- The rows of a crew's effect buffer that hold some of its entries, each once (R73). -/
def State.effectRows (s : State) (crew : Nat) (which : Eff → Bool) : List RowHolds :=
  let l := (effectPlaces 0 (((s.crew? crew).map (·.effects)).getD [])).filter (fun x => which x.2)
  (((l.map (fun x => rowsOfSpan x.1 (max x.2.size 1))).flatten.eraseDups).filter (fun r => decide (64 * r < s.bufferOf crew))).map (.effect crew)

/-- The row of the latch at an offset. -/
def State.latchRows (s : State) (crew ofs : Nat) : List RowHolds := if s.latchOut crew ofs then [] else scratchRows crew [(ofs, 16)]

/-- The rows of the latch and of the status bits that a post reads. -/
def State.postRefRows (s : State) (g : Gang) (latch status : DWord) : List RowHolds :=
  (if latch.getLsbD 63 then [] else s.latchRows g.crew latch.toNat) ++
    (if status.getLsbD 63 || decide (s.scratchOf g.crew < status.toNat + 8) then [] else scratchRows g.crew [(status.toNat, 8)])

/-- The rows of scratch and of tiles that an instruction of a gang reads. A store of whole words reads none, nor does MAWR. -/
def State.storageRows (s : State) (g : Gang) (i : Instr) : List RowHolds :=
  let x (h : SH) (a : Sc) : DWord := s.sc g h.lit a
  let y (h : VH) (a : Sc) : DWord := s.sc g h.lit a
  match i with
  | .lds h m t _ b => s.laneRows g i h m (t.or .b32) b (s.ownScratch g)
  | .ldc h m t _ a b => s.laneRows g i h m (t.or .b32) b (s.bandScratch g (y h a).toNat)
  | .sts h m t b _ => if (t.or .b32).bytes < 4 then s.laneRows g i h m (t.or .b32) b (s.ownScratch g) else []
  | .stc h m t a b _ => if (t.or .b32).bytes < 4 then s.laneRows g i h m (t.or .b32) b (s.bandScratch g (y h a).toNat) else []
  | .sld _ _ _ _ _ _ | .ldb _ _ _ _ _ _ | .atm _ _ _ _ _ _ _ _ _ | .xrnd _ _ _ _ _ _ _ _ | .vldv _ _ _ _ _ _ | .vstv _ _ _ _ _ _ _ =>
    if s.buffered g then s.effectRows g.crew (fun _ => true) else []
  | .lati h a _ | .larv h a _ _ | .lrst h a _ | .lwait h _ a _ => s.latchRows g.crew (x h a).toNat
  | .pwait h _ _ _ b _ => s.latchRows g.crew (x h b).toNat
  | .cpost h _ _ b _ => s.postRefRows g (y h b) (BitVec.allOnes 64)
  | .cgath h _ _ _ _ l e _ | .cscat h _ _ _ _ l e _ | .ccopy h _ _ _ _ l e _ | .ccopyOut h _ _ _ _ l e _ | .cchain h _ _ _ _ _ l e _ =>
    s.postRefRows g (y h l) (y h e)
  | .ccopyTr h _ _ _ _ l => s.postRefRows g (y h l) (BitVec.allOnes 64)
  | .mmul _ _ _ _ k _ _ =>
    let t := s.tile g k.toNat
    ((bitsOn (g.live (g.active (shape i)))).map (fun j => t.rows g.crew (s.tileIx g k.toNat) (t.entry j 0) (tileCols t.fmt))).flatten
  | .mard h _ _ _ _ k b nm1 =>
    let t := s.tile g k.toNat
    ((bitsOn (g.live (g.active (shape i)))).map (fun j => t.rows g.crew (s.tileIx g k.toNat) (t.entry j (y h b).toNat) (nm1.toNat + 1))).flatten
  | _ => []

/-- The core whose pool holds a row that an agent of `core` reads: LDC and STC name the scratch of a crew of their band. -/
def State.coreOfHeld (s : State) (core : Nat) (x : RowHolds) : Nat :=
  match x with
  | .scratch k _ | .effect k _ => ((s.crew? k).map (·.core)).getD core
  | _ => core

/-- Rows are read, each in the pool that holds it. -/
def State.readRows (s : State) (core : Nat) (l : List RowHolds) : State := l.foldl (fun s x => s.readHeld (s.coreOfHeld core x) [x]) s

/-- No bank of any pool is marked failed. -/
def State.poolsWhole (s : State) : Bool := s.cores.all (fun x => x.2.failedBanks.isEmpty)

/-- The rows that a save reads: of the control blocks and the registers of the crew's gangs, and those of its scratch and tiles that hold something (R336). -/
def State.crewRows (s : State) (crew : Nat) : List RowHolds :=
  match s.crew? crew with
  | none => []
  | some c =>
    let more := (List.range ((s.scratchOf crew + 63) / 64)).map (RowHolds.scratch crew) ++ s.effectRows crew (fun _ => true) ++
      (c.tiles.map (fun t => (List.range 5120).map (fun r => RowHolds.tile crew t.1 (64 * r)))).flatten
    (((s.crewGangs crew).filter Gang.inPool).map Gang.contextRows).flatten ++
      more.filter (fun x => (List.range 16).any (fun i => s.heldWord c.core x i != (0, false)))

/-- The entries of a crew's effect buffer are read, to be applied or moved to the log (R84, R107, R380). -/
def State.readEffects (s : State) (crew : Nat) (which : Eff → Bool) : State :=
  if s.poolsWhole then s else s.readRows (((s.crew? crew).map (·.core)).getD 0) (s.effectRows crew which)

/-- The row of a latch is read beside any instruction (R107, R282). -/
def State.readLatch (s : State) (core crew ofs : Nat) : State := if s.poolsWhole then s else s.readRows core (s.latchRows crew ofs)

/-- A crew is about to be saved: its rows are read (R107, R335). -/
def State.readCrew (s : State) (crew core : Nat) : State := if s.poolsWhole then s else s.readHeld core (s.crewRows crew)

end Sys2Proof.Machine
end

