-- ==== Sys2Proof/Machine/Copy.lean ====
section
/-! DEFINITION. Copy contexts: operation counters as they fall (R284), copy faults (R263), address generators (R252, R253), and rows:
their sectors (R256), their outcomes (R261, R262), chained indices (R258), slot images (R272), versioned lines (R271), parks (R264) and
the completion of a post (R262). -/
namespace Sys2Proof.Machine

/- Operation counters -/

/-- Counters fall in issue order: a finished operation leaves once no older one of its class is outstanding (R284). -/
def dropDone : List OpCls → List Op → List Op
  | _, [] => []
  | held, o :: r => if o.done && !held.contains o.cls then dropDone held r else o :: dropDone (o.cls :: held) r

/-- A waiting gang looks again when one of its own operations finishes. -/
def Gang.opWakes (g : Gang) : Bool :=
  match g.stat with
  | .waiting (.counter c) => decide (g.counter c < 63)
  | .waiting (.owait c n) => decide (g.counter c ≤ n)
  | .waiting .scoreboard => true
  | _ => false

/-- An operation of a gang finishes; an ended gang leaves its slot with its last memory or event operation (R92). -/
def State.opDone (s : State) (core slot id : Nat) : State :=
  match s.gang? core slot with
  | none => s
  | some g =>
    if g.ops.any (fun o => o.id == id && !o.done) then
      let ops := dropDone [] (g.ops.map (fun o => if o.id = id then { o with done := true } else o))
      let g := { g with ops := ops, busy := g.busy.filter (fun b => b.id != id) }
      if g.stat = .ended then
        if g.ops.any (fun o => !o.done && o.cls != .cp) || s.farOf core slot then s.putGang g else s.dropGang core slot
      else s.putGang (if g.opWakes then g.ready else g)
    else s

/- Latches as contexts update them -/

/-- A row's update of its context's latch; without a latch a failed row is counted (R261). -/
def State.rowLatch (s : State) (c : CopyCtx) (u : LatchUpd) : State :=
  match c.latch with
  | some o => if latchValid (s.latch c.crew o) then s.updLatch c.crew o u else s
  | none => if u.failed then s.countAt (.core (s.coreOfCrew c.crew)) .copyRowsFailed else s

/-- An error of a KLD: as a row's, but no row fails (R268). -/
def State.kldLatch (s : State) (c : CopyCtx) (u : LatchUpd) : State :=
  match c.latch with
  | some _ => s.rowLatch c u
  | none => s

/-- A copy fault (R263). An arrival that the latch cannot take changes nothing (R275). -/
def State.copyFault (s : State) (core ix : Nat) (c : CopyCtx) (ecode : Nat) : State :=
  let owes (x : Nat) : Nat := if c.owed && latchArrive x != 0 then 1 else 0
  let s := match c.latch with
    | some o =>
      let x := s.latch c.crew o
      if latchValid x then s.updLatch c.crew o { ecode := ecode, arrive := owes x } else s
    | none => s
  let pc := if c.program then c.pc else c.postPc
  let info : DWord := 0#16 ++ BitVec.ofNat 8 ix ++ BitVec.ofNat 8 c.slot ++ (match c.latch with | some o => BitVec.ofNat 32 o | none => BitVec.allOnes 32)
  (s.putCtx core ix { c with stat := .draining, owed := false, park := none }).looseStop core {
    cause := 32, detail := ecode, agent := 64 + ix, pc := pc, next := pc, replay := 0, info := info, wid := c.wid, launch := c.launch,
    ofGang := false }

/- Generators -/

/-- Reads the descriptor of R252. DESIGN CHOICE (log 113): a field shown as zero that is not zero breaks a rule of the map, although R8 lets a reader ignore it. -/
def genOfDesc (x : Nat) : Option GenSt :=
  let n := bitField x 61 59
  let ext (d : Nat) : Nat := bitField x (64 * d + 95) (64 * d + 64)
  let ok := bitField x 63 62 == 0 && !x.testBit 58 && decide (1 ≤ n) && decide (n ≤ 5) &&
    (List.range 5).all (fun d => if d < n then ext d != 0 else ext d == 0)
  if ok then
    some { base := bitField x 56 0, scratch := x.testBit 57, ext := (List.range n).map ext
           stride := (List.range n).map (fun d => signedOf 32 (bitField x (64 * d + 127) (64 * d + 96)))
           idx := (List.range n).map (fun _ => 0), done := false }
  else none

/-- A location at the given address of a generator's space (R253). -/
def GenSt.at_ (g : GenSt) (a : Int) : RowEnd := if g.scratch then .scratch a else .global (BitVec.ofInt 57 a)
def GenSt.addr (g : GenSt) : Int := (g.idx.zip g.stride).foldl (fun a x => a + x.1 * x.2) (g.base : Int)
def GenSt.here (g : GenSt) : RowEnd := g.at_ g.addr
/-- BASE + i × STRIDE0 (R269). -/
def GenSt.row (g : GenSt) (i : Nat) : RowEnd := g.at_ (g.base + i * g.stride.headD 0)

/-- One step of the indices, with the number of dimensions that wrapped (R253). -/
def stepDims : List Nat → List Nat → List Nat × Nat
  | e :: es, i :: r => if i + 1 = e then let y := stepDims es r; (0 :: y.1, y.2 + 1) else ((i + 1) :: r, 0)
  | _, _ => ([], 0)

/-- The carry out of the last dimension sets DONE, which only GSET resets: the indices then stay 0 (R253). -/
def GenSt.step (g : GenSt) : GenSt × Nat :=
  let y := stepDims g.ext g.idx
  if g.done then (g, 0) else ({ g with idx := y.1, done := y.2 == g.ext.length }, y.2)

/-- A generator that may be used: set, and not DONE (R253). -/
def CopyCtx.gen? (c : CopyCtx) (g : Gen) : Option GenSt := (Tab.get? c.gens g.toNat).filter (fun x => !x.done)
def CopyCtx.setGen (c : CopyCtx) (g : Gen) (x : GenSt) : CopyCtx := { c with gens := Tab.set c.gens g.toNat x }
def CopyCtx.stepGen (c : CopyCtx) (g : Gen) : CopyCtx :=
  match Tab.get? c.gens g.toNat with
  | some x => c.setGen g x.step.1
  | none => c

/- Rows -/

/-- 32-byte sectors that a span of `n` bytes touches. -/
def spanSectors (a : Int) (n : Nat) : Nat := ((a % 32).toNat + n + 31) / 32

/-- The sectors of a row's destination (R256). -/
def rowSectors (e : RowEnd) (n : Nat) : Nat :=
  match e with
  | .global va => spanSectors va.toNat n
  | .scratch o => spanSectors o n
  | .slot _ => 258
  | _ => 0

/-- The pieces of a span that lie in one 4 KiB page each: address and length. -/
def pieces : Nat → Nat → Nat → List (Nat × Nat)
  | 0, _, _ => []
  | f + 1, va, n =>
    let k := min n (4096 - va % 4096)
    if n = 0 then [] else (va, k) :: pieces f ((va + k) % 2 ^ 57) (n - k)

def piecesOf (va n : Nat) : List (Nat × Nat) := pieces (n / 4096 + 2) va n

/-- What a row's access to global memory meets. -/
inductive RowGot where
  | data (l : List PByte)
  | fail (ecode : Nat)
  | denied
  | parked
  | wait
  deriving DecidableEq, Repr

def State.ctxFar (s : State) (core ix : Nat) : Bool :=
  s.far.any (fun f => match f.what with | .row c x _ => c == core && x == ix | _ => false)

/-- The work of a context: where it stands and whose row it is. -/
structure RowAt where
  core : Nat
  ix : Nat
  c : CopyCtx
  key : Word
  wid : DWord
  pcofs : Word
  deriving DecidableEq, Repr

def RowAt.ctx (r : RowAt) (s : State) : Nat := s.ctxOf r.c.launch

/-- The denial record of a row (R243). -/
def RowAt.deny (r : RowAt) (s : State) (tag : BitVec 20) (write : Bool) (va : Nat) : State :=
  s.logDenial { ctx := r.ctx s, wid := r.wid, key := r.key, tag := tag, core := r.core, agent := 64 + r.ix, write := write, pcofs := r.pcofs,
                va := va, cyc := s.cyc r.core }

/-- Parks the context, with one record for each faulting page (R216, R264). -/
def RowAt.park (r : RowAt) (s : State) (why : CopyPark) (l : List LaneFault) : State :=
  let pc := if r.c.program then r.c.pc else r.c.postPc
  let s := (faultPages l).foldl (fun s f => s.postFault
    { ctx := r.ctx s, wid := 0, kind := (if why = .fetch then 3 else 4), cause := f.cause, agent := 64 + r.ix, core := r.core, pc := pc, va := f.va }) s
  s.putCtx r.core r.ix { r.c with park := some why }

/-- Translates the pieces of a span; the faults in address order, and the leaves. -/
def RowAt.xlate (r : RowAt) (s : State) (write : Bool) (l : List (Nat × Nat)) : List LaneFault × List (Nat × Nat × Leaf) :=
  l.foldl (fun x p =>
    match s.translate r.core (r.ctx s) p.1 with
    | .fault c => (x.1 ++ [{ lane := 0, page := p.1 - p.1 % 4096, va := p.1, cause := c }], x.2)
    | .wait => x
    | .leaf f =>
      if write && !f.w then (x.1 ++ [{ lane := 0, page := p.1 - p.1 % pageBytes f.size, va := p.1, cause := 2 }], x.2)
      else (x.1, x.2 ++ [(p.1, p.2, f)])) ([], [])

/-- A translation or a check of the span must wait for a table (R402). -/
def RowAt.waits (r : RowAt) (s : State) (l : List (Nat × Nat)) : Bool :=
  l.any (fun p => match s.translate r.core (r.ctx s) p.1 with
    | .wait => true
    | .leaf f => s.grantWaits r.core (r.ctx s) r.key f.door
    | .fault _ => false)

/-- The page's leaf grants the row's key. -/
def RowAt.grants (r : RowAt) (s : State) (f : Leaf) : Bool := s.granted r.core (r.ctx s) r.key f.door

/-- What the translations and the checks of a span count and fill (R209, R214, R245). -/
def RowAt.note (r : RowAt) (s : State) (write : Bool) (l : List (Nat × Nat)) : State :=
  l.foldl (fun s p => s.lookUp r.core (64 + r.ix) (r.ctx s) [r.key] { size := 1, write := write, noVer := write } p.1) s
def RowAt.noteWait (r : RowAt) (s : State) (l : List (Nat × Nat)) : State :=
  s.noteWalks r.core (64 + r.ix) (r.ctx s) (l.map (·.1))

/-- What a peer answered for a piece. -/
def CopyCtx.answer? (c : CopyCtx) (piece : Nat) : Option Arrived := c.arrived.find? (fun a => a.lane == piece)

/-- The crew's effects, which lie over what its copies read (R82, R270). -/
def RowAt.laidOver (r : RowAt) (s : State) : List Eff := ((s.crew? r.c.crew).map (·.effects)).getD []

/-- Asks peers for the far pieces that have no answer yet. -/
def RowAt.ask (r : RowAt) (s : State) (base : Nat) (op : Nat → Nat → FarOp) (l : List (Nat × Nat × Leaf)) : State :=
  (l.zip (List.range l.length)).foldl (fun s x =>
    let (va, n, f) := x.1
    match f.loc va with
    | .far p fa tag =>
      if (r.c.answer? (base + x.2)).any (fun y => y.covers f.ord (r.laidOver s) (.far p fa tag)) then s
      else
        let q := widened f.ord (r.laidOver s) (.far p fa tag) (op va n)
        s.sendFar p (r.ctx s) [{ lane := 0, key := r.key, wid := r.wid }] tag (BitVec.ofNat 57 q.1) (va - va % 128) q.2 (.row r.core r.ix (base + x.2)) f.ord
    | .here _ => s) s

/-- What the peers' answers say together: a failure, a denial, or nothing amiss. -/
def RowAt.answers (r : RowAt) (base n : Nat) : Option RowGot :=
  let l := (List.range n).filterMap (fun k => r.c.answer? (base + k))
  if l.any (·.failed) then some (.fail 2)
  else if l.any (·.data.isNone) then some .denied
  else none

/-- The crew's view, or memory, at a local piece (R82, R270). -/
def RowAt.readHere (r : RowAt) (s : State) (pa n : Nat) : List PByte :=
  match s.crew? r.c.crew with
  | some w => if w.effects.isEmpty then s.memRead pa n else (viewBytes Loc.here? s.phys w.effects).read pa n
  | none => s.memRead pa n

/-- `n` bytes of a far piece as a peer answered it, under the crew's view (R82). -/
def RowAt.readFar (r : RowAt) (s : State) (loc : Loc) (n : Nat) (x : Option Arrived) : List PByte :=
  (x.map (fun y => y.view loc.sel (r.laidOver s) loc.addr n)).getD []

/-- Reads a span of global memory for a row, an index or a KLD: translation, the door check of the whole span (R241, R242), the data. -/
def RowAt.read (r : RowAt) (s : State) (why : CopyPark) (base va n : Nat) : State × RowGot :=
  let ps := piecesOf va n
  let x := r.xlate s false ps
  let noted := r.note s false ps
  if r.waits s ps then (r.noteWait s ps, .wait)
  else if !x.1.isEmpty then (r.park noted why x.1, .parked)
  else
    match x.2.find? (fun p => !r.grants s p.2.2) with
    | some p => (r.deny noted p.2.2.door false p.1, .denied)
    | none =>
      let here (p : Nat × Nat × Leaf) : Option Nat := Loc.here? (p.2.2.loc p.1)
      if x.2.any (fun p => match here p with | some pa => !s.memReady pa | none => false) then (s, .wait)
      else
        let asked := r.ask s base (fun _ n => .load n) x.2
        if s.far.length < asked.far.length then (asked, .wait)
        else
          match r.answers base x.2.length with
          | some y => (noted, y)
          | none =>
            (noted, .data ((x.2.zip (List.range x.2.length)).map (fun y =>
              match here y.1 with
              | some pa => r.readHere s pa y.1.2.1
              | none => r.readFar s (y.1.2.2.loc y.1.1) y.1.2.1 (r.c.answer? (base + y.2)))).flatten)

/-- A row's read, for which the crew's effect buffer is read once the access can be made (R82, R107, log 94). -/
def RowAt.readOver (r : RowAt) (s : State) (base va n : Nat) : State × RowGot :=
  match (r.read s .row base va n).2 with
  | .data _ => r.read (s.readEffects r.c.crew (fun _ => true)) .row base va n
  | _ => r.read s .row base va n

/-- The pieces at which a row writes, and at which it first asks for the tags of two or more far pages that it is to write. -/
def writePiece : Nat := 1000000
def probePiece : Nat := 2000000

/-- Writes a span of global memory for a row (R213, R241, R242); `.data []` says that it is written. Far pieces go first, so that a row that
a peer fails or denies writes nothing here. DESIGN CHOICE (log 83): where two or more of them are far, the row first asks for the owners' tags, in
reads of no bytes, so that one page's denial keeps the others unwritten. -/
def RowAt.write (r : RowAt) (s : State) (va : Nat) (l : List PByte) : State × RowGot :=
  let ps := piecesOf va l.length
  let x := r.xlate s true ps
  let noted := r.note s true ps
  if r.waits s ps then (r.noteWait s ps, .wait)
  else if !x.1.isEmpty then (r.park noted .row x.1, .parked)
  else if x.2.any (fun p => p.2.2.ver) then (noted, .fail 13)
  else
    match x.2.find? (fun p => !r.grants s p.2.2) with
    | some p => (r.deny noted p.2.2.door true p.1, .denied)
    | none =>
      let here (p : Nat × Nat × Leaf) : Option Nat := Loc.here? (p.2.2.loc p.1)
      let part (a n : Nat) : List PByte := (l.drop ((a + 2 ^ 57 - va) % 2 ^ 57)).take n
      let apart := decide (2 ≤ (x.2.filter (fun p => (here p).isNone)).length)
      if x.2.any (fun p => match here p with | some pa => !s.memReady pa | none => false) then (s, .wait)
      else
        let probed := if apart then r.ask s probePiece (fun _ _ => .load 0) x.2 else s
        let asked := r.ask s writePiece (fun a n => .store (rawBytes (part a n)) ((part a n).map (·.2))) x.2
        if s.far.length < probed.far.length then (probed, .wait)
        else
          match (if apart then r.answers probePiece x.2.length else none) with
          | some y => (noted, y)
          | none =>
            if s.far.length < asked.far.length then (asked, .wait)
            else
              match r.answers writePiece x.2.length with
              | some y => (noted, y)
              | none =>
                (x.2.foldl (fun s p => match here p with | some pa => s.memWrite pa (part p.1 p.2.1) | none => s) noted, .data [])

/- Outcomes -/

/-- The oldest row of a context is gone; a GETSR of the gang that posted it looks again (R120, R242). -/
def State.rowGone (s : State) (core ix : Nat) (c : CopyCtx) : State :=
  (s.putCtx core ix { c with rows := c.rows.drop 1, arrived := [] }).wake (fun g => g.core == core && g.slot == c.slot && g.stat == .waiting .rows)

/-- Ends the oldest row of a context: its sectors, its failure or denial, its status bit, and the DENY bit of the lane that named it (R242,
R257, R261). -/
def State.endRow (s : State) (core ix : Nat) (c : CopyCtx) (r : Row) (failed : Option Nat) (denied : Bool) : State :=
  let s := s.rowLatch c { sub := r.sectors, failed := failed.isSome, ecode := failed.getD 0, denied := denied }
  let s := match failed, r.status, r.lane with
    | some _, some o, some i => s.scratchWrite c.crew o (clean (leBytes 8 (natOf (s.scratchRead c.crew o 8) ||| 2 ^ i)))
    | _, _, _ => s
  let s := match denied, r.lane with
    | true, some i => s.modGang core c.slot (fun g => if g.crew = c.crew then { g with deny := g.deny ||| oneBit 64 i } else g)
    | _, _ => s
  s.rowGone core ix { c with park := none }

/-- Zeros in the part of a scratch span that lies in the allocation (R261). -/
def State.zeroScratch (s : State) (crew : Nat) (o : Int) (n : Nat) : State :=
  let lo := (max 0 o).toNat
  let hi := min (s.scratchOf crew : Int) (o + n)
  s.scratchWrite crew lo (List.replicate (hi - lo).toNat (0, false))

/-- Its source was denied, and its destination has still to be written. -/
def Row.deniedRead (r : Row) : Bool := (r.read.map (·.2)).getD false

/-- A failed row leaves zeros in scratch or a slot, and nothing in global memory (R261); that its read was denied stays on record (R242). -/
def State.failRow (s : State) (core ix : Nat) (c : CopyCtx) (r : Row) (ecode : Nat) (denied : Bool := r.deniedRead) : State :=
  let s := match r.dst with
    | .scratch o => s.zeroScratch c.crew o r.len
    | .slot t => s.setSlot core c.launch t {}
    | _ => s
  s.endRow core ix c r (some ecode) denied

/-- A slot filled whole, with its bad symbols, and its source when that is global memory (R160, R272). -/
def slotOfBytes (l : List PByte) (src : Option (VAddr × Word)) : Slot :=
  let x := (l.zip (List.range l.length)).foldl (fun (x : Store 8 × Store 1) b =>
    (Store.set x.1 b.2 b.1.1, if b.1.2 then Store.set x.2 (b.2 / 4) 1 else x.2)) ([], [])
  { img := x.1, bad := x.2, src := src }

/-- The row has read its source, once: what it gave is kept while the destination waits or is parked (R242, R264). -/
def State.saveRead (s : State) (core ix : Nat) (l : List PByte) (denied : Bool) : State :=
  match s.ctx? core ix with
  | some c => s.putCtx core ix { c with rows := match c.rows with | r :: rest => { r with read := some (l, denied) } :: rest | [] => [] }
  | none => s

/-- Puts a row's bytes at its destination; `denied` says that they are the zeros of a denied read. -/
def State.placeRow (s : State) (core ix : Nat) (at_ : RowAt) (r : Row) (l : List PByte) (denied : Bool) : State :=
  let c := at_.c
  match r.dst with
  | .scratch o => (s.scratchWrite c.crew o.toNat l).endRow core ix c r none denied
  | .slot t =>
    let src := match r.src with | .global va => if denied then none else some (va, r.key) | _ => none
    (s.setSlot core c.launch t (slotOfBytes l src)).endRow core ix c r none denied
  | .global va =>
    match at_.write s va.toNat l with
    | (s, .data _) => s.endRow core ix c r none denied
    | (s, .fail e) => s.failRow core ix c r e denied
    | (s, .denied) => s.endRow core ix c r none true
    | (s, .parked) => s.saveRead core ix l denied
    | (s, .wait) => s.saveRead core ix l denied
  | _ => s.endRow core ix c r none denied

/-- A scratch span that is outside the allocation or not at a multiple of 4 (R261). -/
def State.badSpan (s : State) (crew n : Nat) : RowEnd → Bool
  | .scratch o => decide (o < 0) || o % 4 != 0 || decide ((s.scratchOf crew : Int) < o + n)
  | _ => false

/-- Writes the status of an XCOPYV and ends its row (R271). -/
def State.endVersioned (s : State) (core ix : Nat) (c : CopyCtx) (r : Row) (d : BitVec 4) (v : DWord) (failed : Option Nat) (denied : Bool) :
    State :=
  s.endRow core ix { c with k := Store.set c.k d.toNat v, kp := Store.set c.kp d.toNat 0 } r failed denied

/-- XCOPYV's line at its destination (R271), judged as VSTV's (R229); its translation and check count as a VSTV's do (R209, R245). -/
def State.versionedRow (s : State) (core ix : Nat) (at_ : RowAt) (r : Row) (d : BitVec 4) (want : BitVec 16) (l : List PByte) : State :=
  let c := at_.c
  match r.dst with
  | .global va =>
    let noted := s.lookUp core (64 + ix) (at_.ctx s) [at_.key] { size := 1, write := true, needVer := true } va.toNat
    if at_.waits s [(va.toNat, 128)] then (at_.noteWait s [(va.toNat, 128)]).saveRead core ix l false
    else match at_.xlate s true [(va.toNat, 128)] with
    | ([], (_, _, f) :: _) =>
      let before := s
      let s := noted
      if !f.ver then s.endVersioned core ix c r d (vstvStatus false 4 0) none false
      else if !at_.grants s f then
        (at_.deny s f.door true va.toNat).endVersioned core ix c r d (vstvStatus false 3 0) none true
      else
        match f.loc va.toNat with
        | .here pa =>
          let v := s.verOf pa
          if !s.memReady pa then before.saveRead core ix l false
          else if anyBad l then s.endVersioned core ix c r d (vstvStatus false 2 v) none false
          else if v ≠ want then s.endVersioned core ix c r d (vstvStatus false 1 v) none false
          else ((s.memWrite pa l).setVer pa (want + 1)).endVersioned core ix c r d (vstvStatus true 0 (want + 1)) none false
        | .far _ _ _ =>
          let asked := at_.ask before writePiece (fun _ _ => if anyBad l then .vload else .vstore (rawBytes l) want) [(va.toNat, 128, f)]
          if s.far.length < asked.far.length then asked.saveRead core ix l false
          else
            match c.answer? writePiece with
            | some { failed := false, data := some b, .. } =>
              if anyBad l then s.endVersioned core ix c r d (vstvStatus false 2 (BitVec.ofNat 16 (ofLeBytes (b.drop 128)))) none false
              else
                let ok := b.getD 0 0 != 0
                s.endVersioned core ix c r d (vstvStatus ok (if ok then 0 else 1) (BitVec.ofNat 16 (ofLeBytes (b.drop 1)))) none false
            | some { failed := true, .. } =>
              { s with nextId := s.nextId + 1 }.endVersioned core ix c r d (Config.farVstvStatus s.nextId) (some 2) false
            | _ => s.endVersioned core ix c r d (vstvStatus false 3 0) none true
    | (faults, _) => (at_.park noted .row faults).saveRead core ix l false
  | _ => s.endVersioned core ix c r d (vstvStatus false 4 0) none false

/-- An XCOPYV's line that is misaligned, or whose destination is scratch, is rejected (R271). -/
def misplaced (r : Row) : Bool :=
  let off : RowEnd → Bool
    | .global va => va.toNat % 128 != 0
    | .scratch o => o % 128 != 0
    | _ => true
  off r.src || off r.dst || (match r.dst with | .global _ => false | _ => true)

/-- Goes on with a row whose source has been read. -/
def State.gotRow (s : State) (core ix : Nat) (at_ : RowAt) (r : Row) (got : RowGot) : State :=
  let c := at_.c
  let zeros : List PByte := List.replicate r.len (0, false)
  match r.versioned, got with
  | _, .parked => s
  | _, .wait => s
  | none, .data l => s.placeRow core ix at_ r l false
  | none, .fail e => s.failRow core ix c r e
  | none, .denied => s.placeRow core ix at_ r zeros true
  | some (d, want), .data l => s.versionedRow core ix at_ r d want l
  | some (d, _), .fail e =>
    { s with nextId := s.nextId + 1 }.endVersioned core ix c r d (Config.farVstvStatus s.nextId) (some e) false
  | some (d, _), .denied => s.endVersioned core ix c r d (vstvStatus false 3 0) none true

/-- One level of a chained index (R258). The next level, or the row itself, follows. DESIGN CHOICE (log 97): an index that fails on a link records its level, as
R258 and R262 say, and not ROW_LINK, as the table of R399 does. -/
def State.chainLevel (s : State) (core ix : Nat) (at_ : RowAt) (r : Row) (rec_ : BitVec 128) (rest : List (BitVec 128)) (level x : Nat) : State :=
  let c := at_.c
  let go (s : State) (src : RowEnd) : State := s.putCtx core ix { c with rows := { r with src := src } :: c.rows.drop 1, arrived := [] }
  if rest.isEmpty then
    if x < recExtent rec_ then go s (.global (BitVec.ofNat 57 (recAddr rec_ x))) else s.failRow core ix c r 1
  else if recExtent rec_ ≤ x then s.failRow core ix c r (4 + level)
  else
    match at_.readOver s 0 (recAddr rec_ x) (2 ^ recElem rec_) with
    | (s, .data l) => if anyBad l then s.failRow core ix c r 7 else go s (.chain rest (level + 1) (natOf l))
    | (s, .fail _) => s.failRow core ix c r (4 + level)
    | (s, .denied) => s.placeRow core ix at_ r (List.replicate r.len (0, false)) true
    | (s, .parked) => s
    | (s, .wait) => s

/-- The oldest row of a context moves on towards its outcome (R261). -/
def State.runRow (s : State) (core ix : Nat) (c : CopyCtx) (r : Row) : State :=
  let at_ : RowAt := { core := core, ix := ix, c := c, key := r.key, wid := r.wid, pcofs := r.pcofs }
  let slotOut := match r.dst with | .slot t => decide (s.tlease c.launch ≤ t) | _ => false
  if slotOut then
    let s := s.rowLatch c { sub := r.sectors }
    (s.rowGone core ix c).copyFault core ix { c with rows := c.rows.drop 1, arrived := [] } 10
  else
    match r.fail with
    | some e =>
      match r.versioned with
      | some _ => s.gotRow core ix at_ r (.fail e)
      | none => s.failRow core ix c r e
    | none =>
      if r.versioned.isSome && misplaced r then
        s.endVersioned core ix c r ((r.versioned.map (·.1)).getD 0) (vstvStatus false 4 0) none false
      else if s.badSpan c.crew r.len r.src || s.badSpan c.crew r.len r.dst then s.gotRow core ix at_ r (.fail 4)
      else
        match r.src, r.read with
        | _, some (l, denied) => if denied then s.placeRow core ix at_ r l true else s.gotRow core ix at_ r (.data l)
        | .chain [] _ _, none => s.failRow core ix c r 1
        | .chain (b :: rest) level x, none => s.chainLevel core ix at_ r b rest level x
        | .global va, none =>
          let y : State × RowGot := at_.readOver s 0 va.toNat r.len
          State.gotRow y.1 core ix at_ r y.2
        | .scratch o, none =>
          let s := s.readRows core (if s.poolsWhole then [] else scratchRows c.crew [(o.toNat, r.len)])
          s.gotRow core ix at_ r (.data (s.scratchRead c.crew o.toNat r.len))
        | .fill v, none => s.gotRow core ix at_ r (.data (clean ((List.range r.len).map (fun j => BitVec.ofNat 8 (v.toNat / 256 ^ (j % 8))))))
        | .slot _, none => s.failRow core ix c r 1

/-- COPY_ROW_COMPLETE: the oldest row of a context that is not parked and waits for no peer moves on (R261, R264). -/
def execCopyRowComplete (core : BitVec 9) (ctx : BitVec 4) (s : State) : Host.Outcome State Fault Refusal :=
  alive s (fun s =>
    match s.ctx? core.toNat ctx.toNat with
    | none => s
    | some c =>
      match c.rows, c.park with
      | r :: _, none => if s.ctxFar core.toNat ctx.toNat then s else s.runRow core.toNat ctx.toNat c r
      | _, _ => s)

/-- COPY_POST_COMPLETE: a context that has issued all and whose rows have all reached an outcome is free, and its post is complete for the
CP counter (R262, R263). -/
def execCopyPostComplete (core : BitVec 9) (ctx : BitVec 4) (s : State) : Host.Outcome State Fault Refusal :=
  alive s (fun s =>
    match s.ctx? core.toNat ctx.toNat with
    | none => s
    | some c =>
      if c.stat = .draining ∧ c.rows.isEmpty ∧ !s.ctxFar core.toNat ctx.toNat then
        (s.dropCtx core.toNat ctx.toNat).opDone core.toNat c.slot c.op
      else s)

/-- COPY_CONTEXT_GRANT: the oldest gang whose post waits is granted a free context (R249). -/
def execCopyContextGrant (core : BitVec 9) (s : State) : Host.Outcome State Fault Refusal :=
  alive s (fun s =>
    let k := core.toNat
    let free := ((List.range Config.contexts).filter (fun c => (s.ctx? k c).isNone)).length
    let held := ((s.coreGangs k).filter (·.granted)).length
    let waits := (s.coreGangs k).filter (fun g => g.stat == .waiting .context)
    match waits.find? (fun g => waits.all (fun o => decide (g.age ≤ o.age))) with
    | some g =>
      if held < free then s.putGang { g.ready with granted := true } else s
    | none => s)

end Sys2Proof.Machine
end

