-- ==== Sys2Proof/Machine/Mailbox.lean ====
section
/-! DEFINITION. The host's mailbox commands (R302, R394 to R396, R402, R403): memory, context registers (R238, R341, R407), KICK, GRANT_SYNC (R215,
R247), RESOLVE (R218) and PREEMPT; and a write that reaches a context register. -/
namespace Sys2Proof.Machine

/- Completion and waiting -/

/-- The completion word, and vector 0 on the link of the command when asked for (R395). DESIGN CHOICE (log 133): of TAG × 2^16 + STATUS the low 64 bits are written. -/
def State.completion (s : State) (tag caddr : DWord) (irq : Option (BitVec 1)) (status : Nat) : State :=
  let s := s.tell (.completion caddr (BitVec.ofNat 64 (tag.toNat * 2 ^ 16 + status)))
  match irq with
  | some link => s.tell (.msi link 0)
  | none => s

/-- A mailbox command: ignored while MBOX is not ready or after a fatal error (R361, R402); behind an earlier command that waits; else applied,
or it waits for memory that is not ready. -/
def mailbox (i : Instr) (s : State) (waits : Bool) (apply : State → State) : Host.Outcome State Fault Refusal :=
  if s.fatal.isSome || !s.readyBits.getLsbD 0 then .next s
  else if !s.mbox.isEmpty || waits then .next { s with mbox := s.mbox ++ [i] }
  else .next (apply s)

/-- With no valid image, only WRITE and READ of physical memory are accepted (R403). -/
def State.noImage (s : State) : Bool := !s.image

def mailboxImage (i : Instr) (s : State) (tag caddr : DWord) (irq : Option (BitVec 1)) (waits : Bool) (apply : State → State) :
    Host.Outcome State Fault Refusal :=
  mailbox i s (waits && !s.noImage) (fun s => if s.noImage then s.completion tag caddr irq 1 else apply s)

/-- LEN: 4 to 4,096 bytes, a multiple of 4 (R394). -/
def lenBad (n : Nat) : Bool := n % 4 != 0 || decide (n < 4) || decide (4096 < n)

/- Memory -/

/-- The physical pieces of a virtual span, or `none` on a translation fault, on a leaf that may not be written, or on a FAR leaf. -/
def State.hostPieces (s : State) (ctx va n : Nat) (write : Bool) : Option (List (Nat × Nat)) :=
  (piecesOf va n).foldr (fun p acc =>
    match acc, s.translate Config.engineCore ctx p.1 with
    | some l, .leaf f => if (write && !f.w) || f.far then none else some ((f.pfn * 4096 + p.1 % pageBytes f.size, p.2) :: l)
    | _, _ => none) (some [])

/-- A translation of the span must wait for a table (R402). -/
def State.hostWaits (s : State) (ctx va n : Nat) : Bool := (piecesOf va n).any (fun p => s.translate Config.engineCore ctx p.1 == .wait)

def State.anyNotReady (s : State) (l : List (Nat × Nat)) : Bool := l.any (fun p => !s.memReady p.1 || !s.memReady (p.1 + p.2 - 1))

/-- The 128-byte lines that a span touches. -/
def linesOf (pa n : Nat) : List Nat := (List.range ((pa + n + 127) / 128 - pa / 128)).map (fun k => (pa / 128 + k) * 128)

/-- A WRITE adds 1 to the version of every line it touches, however many of its pieces lie in it (R229). -/
def State.bumpVersions (s : State) (l : List (Nat × Nat)) : State :=
  ((l.map (fun p => linesOf p.1 p.2)).flatten.eraseDups).foldl (fun s a => s.setVer a (s.verOf a + 1)) s

def State.hostWrite (s : State) (l : List (Nat × Nat)) (data : List Byte) : State :=
  ((l.foldl (fun (x : State × List Byte) p => (x.1.memWrite p.1 (clean (x.2.take p.2)), x.2.drop p.2)) (s, data)).1).bumpVersions l

def State.hostRead (s : State) (l : List (Nat × Nat)) : List PByte := (l.map (fun p => s.memRead p.1 p.2)).flatten

/-- A WRITE to the pieces, or STATUS 1 or 2. -/
def State.writeCommand (s : State) (tag caddr : DWord) (irq : Option (BitVec 1)) (p : Option (List (Nat × Nat))) (data : List Byte) : State :=
  if lenBad data.length then s.completion tag caddr irq 1
  else
    match p with
    | none => s.completion tag caddr irq 2
    | some l => (s.hostWrite l data).completion tag caddr irq 0

/-- A READ of the pieces: the data as read, STATUS 3 when some of it is uncorrectable. -/
def State.readCommand (s : State) (tag caddr : DWord) (irq : Option (BitVec 1)) (haddr : DWord) (n : Nat) (p : Option (List (Nat × Nat))) : State :=
  if lenBad n then s.completion tag caddr irq 1
  else
    match p with
    | none => s.completion tag caddr irq 2
    | some l =>
      let d := s.hostRead l
      (s.tell (.data haddr (rawBytes d))).completion tag caddr irq (if anyBad d then 3 else 0)

def execWriteVirtual (tag caddr : DWord) (irq : Option (BitVec 1)) (ctx : BitVec 4) (addr : VAddr) (data : List Byte) (s : State) :
    Host.Outcome State Fault Refusal :=
  let p := s.hostPieces ctx.toNat addr.toNat data.length true
  mailboxImage (.writeVirtual tag caddr irq ctx addr data) s tag caddr irq (!lenBad data.length && (s.hostWaits ctx.toNat addr.toNat data.length || s.anyNotReady (p.getD [])))
    (fun s => s.writeCommand tag caddr irq p data)

def execWritePhysical (tag caddr : DWord) (irq : Option (BitVec 1)) (addr : VAddr) (data : List Byte) (s : State) : Host.Outcome State Fault Refusal :=
  let p := [(addr.toNat, data.length)]
  mailbox (.writePhysical tag caddr irq addr data) s (!s.noImage && !lenBad data.length && s.anyNotReady p)
    (fun s => s.writeCommand tag caddr irq (some p) data)

def execReadVirtual (tag caddr : DWord) (irq : Option (BitVec 1)) (ctx : BitVec 4) (addr : VAddr) (len : Nat) (haddr : DWord) (s : State) :
    Host.Outcome State Fault Refusal :=
  let p := s.hostPieces ctx.toNat addr.toNat len false
  mailboxImage (.readVirtual tag caddr irq ctx addr len haddr) s tag caddr irq (!lenBad len && (s.hostWaits ctx.toNat addr.toNat len || s.anyNotReady (p.getD [])))
    (fun s => s.readCommand tag caddr irq haddr len p)

def execReadPhysical (tag caddr : DWord) (irq : Option (BitVec 1)) (addr : VAddr) (len : Nat) (haddr : DWord) (s : State) :
    Host.Outcome State Fault Refusal :=
  let p := [(addr.toNat, len)]
  mailbox (.readPhysical tag caddr irq addr len haddr) s (!s.noImage && !lenBad len && s.anyNotReady p)
    (fun s => s.readCommand tag caddr irq haddr len (some p))

/- Registers (R396) -/

/-- What a register takes: its field, the rule of its value, or how it is written. -/
inductive RegKind where
  /-- a physical address that is a multiple of 4,096 -/
  | base
  /-- a logarithm up to 24 -/
  | log
  /-- a plain field of that many bits -/
  | field (bits : Nat)
  | readOnly
  | w1c
  deriving DecidableEq, Repr

def regKind (ofs : Nat) : Option RegKind :=
  match ofs with
  | 0x00 | 0x08 | 0x18 | 0x58 | 0x80 => some .base
  | 0x10 | 0x20 | 0x60 | 0x88 => some .log
  | 0x28 | 0x68 | 0x90 => some .readOnly
  | 0x30 | 0x48 | 0x70 | 0x98 => some (.field 32)
  | 0x38 | 0x78 => some .w1c
  | 0x40 => some (.field 57)
  | 0x50 => some (.field 1)
  | _ => none

/-- The register after a write, or `none` when the value breaks its rule (R396). -/
def regValue (k : RegKind) (old v : DWord) : Option DWord :=
  match k with
  | .base => if v.toNat < 2 ^ 57 ∧ v.toNat % 4096 = 0 then some v else none
  | .log => if v.toNat ≤ 24 then some v else none
  | .field n => if v.toNat < 2 ^ n then some v else none
  | .readOnly => some old
  | .w1c => some (old &&& ~~~ v)

/-- A write of a context register; `none` for an offset outside the table or a value that breaks a rule. -/
def State.regWrite (s : State) (ctx ofs : Nat) (v : DWord) : Option State :=
  (regKind ofs).bind (fun k => (regValue k (s.ctxReg ctx ofs) v).map (s.setCtxReg ctx ofs))

def execWriteRegister (tag caddr : DWord) (irq : Option (BitVec 1)) (ctx : BitVec 4) (ofs : VAddr) (v : DWord) (s : State) :
    Host.Outcome State Fault Refusal :=
  mailboxImage (.writeRegister tag caddr irq ctx ofs v) s tag caddr irq false (fun s =>
    match s.regWrite ctx.toNat ofs.toNat v with
    | some s => s.completion tag caddr irq 0
    | none => s.completion tag caddr irq 1)

def execReadRegister (tag caddr : DWord) (irq : Option (BitVec 1)) (ctx : BitVec 4) (ofs : VAddr) (haddr : DWord) (s : State) :
    Host.Outcome State Fault Refusal :=
  mailboxImage (.readRegister tag caddr irq ctx ofs haddr) s tag caddr irq false (fun s =>
    match regKind ofs.toNat with
    | some _ => (s.tell (.data haddr (leBytes 8 (s.ctxReg ctx.toNat ofs.toNat).toNat))).completion tag caddr irq 0
    | none => s.completion tag caddr irq 1)

/-- REGISTER_WRITE: the write as it reaches the register; one that breaks a rule changes nothing. -/
def execRegisterWrite (ctx : BitVec 4) (ofs : BitVec 8) (v : DWord) (s : State) : Host.Outcome State Fault Refusal :=
  .next (if s.fatal.isSome then s else (s.regWrite ctx.toNat ofs.toNat v).getD s)

/- KICK, GRANT_SYNC, PREEMPT -/

def execKick (tag caddr : DWord) (irq : Option (BitVec 1)) (q : BitVec 6) (v : VAddr) (s : State) : Host.Outcome State Fault Refusal :=
  mailboxImage (.kick tag caddr irq q v) s tag caddr irq (!s.memReady (s.qaddr q.toNat))
    (fun s => (s.kick q.toNat (v.setWidth 64) none).completion tag caddr irq 0)

/-- GRANT_SYNC (R215, R247): checks are made within one step, so none is under way when it completes. -/
def State.grantSync (s : State) (ctx : Nat) : State :=
  { s with tlb := s.tlb.filter (fun t => t.ctx != ctx), walking := s.walking.filter (fun w => w.ctx != ctx), grants := [] }

def execGrantSync (tag caddr : DWord) (irq : Option (BitVec 1)) (ctx : BitVec 4) (s : State) : Host.Outcome State Fault Refusal :=
  mailboxImage (.grantSync tag caddr irq ctx) s tag caddr irq false (fun s => (s.grantSync ctx.toNat).completion tag caddr irq 0)

def execPreempt (tag caddr : DWord) (irq : Option (BitVec 1)) (w0 w1 : DWord) (s : State) : Host.Outcome State Fault Refusal :=
  mailboxImage (.preempt tag caddr irq w0 w1) s tag caddr irq false (fun s =>
    ({ s with pre0 := w0 }.preemptWrite w1).completion tag caddr irq (if s.busyPre then 4 else 0))

/- RESOLVE (R218) -/

/-- Fails the faulted lanes of a parked gang; the gang goes on with the rest of its replay mask. -/
def State.failLanes (s : State) (g : Gang) (fm : LaneMask) (next : VAddr) : State :=
  let go (s : State) (g : Gang) : State :=
    let rest := g.replay.getD 0 &&& ~~~ fm
    if g.live rest = 0 then s.putGang { g with stat := .restoring, pc := next, replay := none }
    else s.putGang { g with stat := .restoring, replay := some rest }
  if g.live fm = 0 then go s g
  else if s.errsAsFree g then
    let (s, g) := s.killLanes g fm 35 (fun _ => 0) g.pc
    go s g
  else s.errorAbort g.crew

/-- A gang resolved: by replay, or by failure. A gang parked for another cause is left (R218). -/
def State.resolveGang (s : State) (core slot : Nat) (fail : Bool) : State :=
  match s.gang? core slot with
  | none => s
  | some g =>
    match g.stat, fail with
    | .parked (.deadlock _), _ => s
    | .parked (.fault fm next), true => s.failLanes g fm next
    | .parked .fetch, true => s.poisonScalar g
    | .parked (.refetch t), true =>
      ((s.setSlot core g.launch t {}).countAt g.place .transomRefetchFailed).putGang { g with stat := .restoring }
    | .parked _, false => s.putGang { g with stat := .restoring }
    | _, _ => s

/-- The row that parked fails: at its chain level, or as ROW_RESOLVED (R258, R261). -/
def Row.resolved (r : Row) : Row :=
  { r with fail := some (match r.src with
      | .chain (_ :: _ :: _) level _ => 4 + level
      | _ => 3) }

def State.resolveCtx (s : State) (core ix : Nat) (fail : Bool) : State :=
  match s.ctx? core ix with
  | none => s
  | some c =>
    match c.park, fail with
    | none, _ => s
    | some .row, true =>
      s.putCtx core ix { c with park := none, rows := match c.rows with | r :: rest => r.resolved :: rest | [] => [] }
    | some .kld, true => s.putCtx core ix { c with park := none, failNext := true }
    | some .fetch, true => s.copyFault core ix c 12
    | some _, false => s.putCtx core ix { c with park := none }

/-- AGENT 80: the refetch is tried again, or fails: then the slot holds zeros and is clean no more (R162). -/
def State.resolveCrew (s : State) (core : Nat) (fail : Bool) : State :=
  match (s.core core).awaits with
  | none => s
  | some (k, t) =>
    let s := s.modCore core (fun c => { c with awaits := none })
    if fail then
      (s.modCrew k (fun c => { c with savedSlots := Tab.set c.savedSlots t {}, refilled := c.refilled ++ [t] })).countAt (.core core) .transomRefetchFailed
    else s

def State.resolve (s : State) (core agent : Nat) (fail : Bool) : State :=
  if agent < 32 then s.resolveGang core agent fail
  else if 64 ≤ agent ∧ agent < 80 then s.resolveCtx core (agent - 64) fail
  else if agent = 80 then s.resolveCrew core fail
  else s

def execResolveReplay (tag caddr : DWord) (irq : Option (BitVec 1)) (core : BitVec 9) (agent : BitVec 7) (s : State) : Host.Outcome State Fault Refusal :=
  mailboxImage (.resolveReplay tag caddr irq core agent) s tag caddr irq false
    (fun s => (s.resolve core.toNat agent.toNat false).completion tag caddr irq 0)

def execResolveFail (tag caddr : DWord) (irq : Option (BitVec 1)) (core : BitVec 9) (agent : BitVec 7) (s : State) : Host.Outcome State Fault Refusal :=
  mailboxImage (.resolveFail tag caddr irq core agent) s tag caddr irq false
    (fun s => (s.resolve core.toNat agent.toNat true).completion tag caddr irq 0)

/- BAR0 (R393, R394, R401, R403) -/

/-- The command of a record (R394, R395). One that is malformed, or whose OP is unknown, travels as a command that names no register, which STATUS 1 answers;
fields that a command does not use are ignored (log 86). `mem` is what the host's memory holds at HADDR. -/
def commandOf (link : BitVec 1) (rec : Nat) (mem : List Byte) : Instr :=
  let tag := BitVec.ofNat 64 (bitField rec 79 16)
  let caddr := BitVec.ofNat 64 (bitField rec 511 448)
  let haddr := BitVec.ofNat 64 (bitField rec 255 192)
  let addr := BitVec.ofNat 57 (bitField rec 191 135)
  let len := bitField rec 127 96
  let arg := bitField rec 95 80
  let ctx := BitVec.ofNat 4 (bitField rec 11 8)
  let irq : Option (BitVec 1) := if arg.testBit 15 then some link else none
  let data (n : Nat) : List Byte := (mem ++ List.replicate n 0).take n
  let word (k : Nat) : DWord := BitVec.ofNat 64 (ofLeBytes (((data 16).drop (8 * k)).take 8))
  let bad : Instr := .readRegister tag caddr irq 0 (BitVec.allOnes 57) haddr
  if 15 < bitField rec 15 8 then bad
  else
    match bitField rec 7 0, arg % 4, arg / 256 % 4 with
    | 0, 0, _ => if lenBad len then bad else .writeVirtual tag caddr irq ctx addr (data len)
    | 0, 1, _ => if lenBad len then bad else .writePhysical tag caddr irq addr (data len)
    | 0, 2, _ => if len = 8 then .writeRegister tag caddr irq ctx addr (word 0) else bad
    | 1, 0, _ => if lenBad len then bad else .readVirtual tag caddr irq ctx addr len haddr
    | 1, 1, _ => if lenBad len then bad else .readPhysical tag caddr irq addr len haddr
    | 1, 2, _ => if len = 8 then .readRegister tag caddr irq ctx addr haddr else bad
    | 2, _, _ => .kick tag caddr irq (BitVec.ofNat 6 arg) addr
    | 3, _, _ => .grantSync tag caddr irq ctx
    | 4, _, 0 => .resolveReplay tag caddr irq (addr.setWidth 9) (BitVec.ofNat 7 arg)
    | 4, _, 1 => .resolveFail tag caddr irq (addr.setWidth 9) (BitVec.ofNat 7 arg)
    | 5, _, _ => .preempt tag caddr irq (word 0) (word 1)
    | _, _, _ => bad

def State.bar (s : State) (link : BitVec 1) : Store 8 := if link = 0 then s.bar0 else s.bar1
def State.setBar (s : State) (link : BitVec 1) (m : Store 8) : State := if link = 0 then { s with bar0 := m } else { s with bar1 := m }

/-- A byte of BAR0 that a write reaches: the command window, or the MSI-X table (R393). -/
def barHolds (o : Nat) : Bool := decide (o < 64) || (decide (0x8000 ≤ o) && decide (o < 0x8400))

/-- A host writes BAR0 of a link. The write of the last eight bytes of the command window submits the record, behind what was submitted before (R394); while
MBOX = 0 it is ignored (R402). -/
def State.barWrite (s : State) (link : BitVec 1) (ofs : Nat) (bytes mem : List Byte) : State :=
  let m := (bytes.zip (List.range bytes.length)).foldl (fun m x => if barHolds (ofs + x.2) then Store.set m (ofs + x.2) x.1 else m) (s.bar link)
  let s := s.setBar link m
  if ofs ≤ 0x38 ∧ 0x40 ≤ ofs + bytes.length ∧ s.readyBits.getLsbD 0 = true then
    { s with submitted := s.submitted ++ [commandOf link (ofLeBytes ((List.range 64).map (Store.get m))) mem] }
  else s

/-- A byte of BAR0 as a read returns it: READY, BOOT_STATUS and the MSI-X table; the command window is written only (R394, R401, R403). -/
def State.barByte (s : State) (link : BitVec 1) (o : Nat) : Byte :=
  if 0x4000 ≤ o ∧ o < 0x4008 then BitVec.ofNat 8 (s.readyBits.toNat / 256 ^ (o - 0x4000))
  else if o = 0x4008 then BitVec.ofNat 8 s.boot
  else if 0x8000 ≤ o ∧ o < 0x8400 then Store.get (s.bar link) o
  else 0

def State.barRead (s : State) (link : BitVec 1) (ofs n : Nat) : State :=
  s.tell (.bar link ofs ((List.range n).map (fun k => s.barByte link (ofs + k))))

end Sys2Proof.Machine
end

