-- ==== Sys2Proof/Machine/Queue.lean ====
section
/-! DEFINITION. Kicks and pre-emption requests as they reach their registers (R321, R322, R333, R334), the launch packet and its rules (R324, R325, R75,
R78, R103, R158, R366, R367), take-up (R326), and the completion of a launch (R327). -/
namespace Sys2Proof.Machine

def execKickWrite (q : BitVec 6) (w : DWord) (s : State) : Host.Outcome State Fault Refusal :=
  alive s (fun s => s.kick q.toNat w none)

/-- The access-control entry that a peer's kick uses (R322). -/
def State.aclFor (s : State) (peer : BitVec 6) (q : BitVec 6) : Option Acl :=
  (s.acl.find? (fun x => x.2.v && x.2.peer == peer && x.2.qmask.getLsbD q.toNat)).map (·.2)

def execPeerKick (peer q : BitVec 6) (w : DWord) (s : State) : Host.Outcome State Fault Refusal :=
  alive s (fun s =>
    match s.aclFor peer q with
    | some e => s.kick q.toNat w (some e)
    | none => s.count .kickRejected)

/-- The four requests, each as the two words of the PREEMPT register that ask for it: a request that runs ignores the write of word 1 alone (R333,
log 87). -/
def execPreemptVacateLaunch (q : BitVec 6) (seq : BitVec 48) (n : BitVec 10) (s : State) : Host.Outcome State Fault Refusal :=
  alive s (fun s => { s with pre0 := preWord0 q seq }.request 0 0 n.toNat (fun s => s.vacateLaunch q.toNat seq.toNat n.toNat))
def execPreemptVacateCore (core : BitVec 9) (s : State) : Host.Outcome State Fault Refusal :=
  alive s (fun s => { s with pre0 := 0 }.request 1 core.toNat 0 (fun s => s.vacateCore core.toNat))
def execPreemptReopenLaunch (q : BitVec 6) (seq : BitVec 48) (s : State) : Host.Outcome State Fault Refusal :=
  alive s (fun s => { s with pre0 := preWord0 q seq }.request 2 0 0 (fun s => s.reopenLaunch q.toNat seq.toNat))
def execPreemptReopenCore (core : BitVec 9) (s : State) : Host.Outcome State Fault Refusal :=
  alive s (fun s => { s with pre0 := 0 }.request 3 core.toNat 0 (fun s => s.reopenCore core.toNat))

/- The packet (R324) -/

/-- A packet's bytes from `o`, as a number. -/
def pktField (x o n : Nat) : Nat := x / 256 ^ o % 256 ^ n

def pktKind (x : Nat) : Nat := pktField x 0 1
def pktPhase (x : Nat) : Nat := pktField x 0x10 4
def waitSeq (x : Nat) : Nat := bitField (pktField x 0x28 8) 47 0
def waitQueue (x : Nat) : Nat := bitField (pktField x 0x28 8) 53 48
def waitOn (x : Nat) : Bool := (pktField x 0x28 8).testBit 63

def pktWidths (x : Nat) : List Nat := (List.range 6).map (fun k => pktField x (5 + k) 1)
/-- The extents: field k of COUNTS plus one (R324, R78). -/
def countsOf : List Nat → Nat → List Nat
  | [], _ => []
  | w :: r, c => (c % 2 ^ w + 1) :: countsOf r (c / 2 ^ w)

/-- The packet as a record; `args` are the eight words at ARGS. -/
def packetOf (x : Nat) (args : List DWord) : Packet :=
  { mode := bitField (pktField x 1 1) 1 0, prio := bitField (pktField x 1 1) 4 2
    keyset := (pktField x 2 1).testBit 0, shadow := (pktField x 2 1).testBit 1, cosched := (pktField x 2 1).testBit 2, rns := (pktField x 2 1).testBit 3
    crew := pktField x 3 1, band := pktField x 4 1, widths := pktWidths x, counts := countsOf (pktWidths x) (pktField x 0x38 8)
    tlease := pktField x 0x0C 2, regs := pktField x 0x0E 2, phase := pktPhase x, part := BitVec.ofNat 32 (pktField x 0x14 4)
    scratch := pktField x 0x18 4, effect := pktField x 0x1C 4, key := BitVec.ofNat 32 (pktField x 0x20 4), rnglen := pktField x 0x24 4
    entry := BitVec.ofNat 57 (pktField x 0x30 8), logbase := bitField (pktField x 0x40 8) 56 0, loglen := pktField x 0x48 8
    seed := BitVec.ofNat 64 (pktField x 0x50 8), rngbase := BitVec.ofNat 64 (pktField x 0x58 8), args := args
    store := pktField x 0x68 8, htab := pktField x 0x70 8, look := pktField x 0x78 8 }

/-- WAITFOR names the packet's own queue at or above its own sequence (R325). -/
def selfWait (x q seq : Nat) : Bool := waitOn x && waitQueue x == q && decide (seq ≤ waitSeq x)

/-- A field shown as zero is not (R324, R325). -/
def pktReserved (x : Nat) : Bool :=
  bitField (pktField x 1 1) 7 5 != 0 || bitField (pktField x 2 1) 7 4 != 0 || pktField x 0x0B 1 != 0 ||
    bitField (pktField x 0x28 8) 62 54 != 0 || bitField (pktField x 0x30 8) 63 57 != 0 || bitField (pktField x 0x40 8) 63 57 != 0 ||
    bitField (pktField x 0x60 8) 63 57 != 0

/-- The shape rules of R69 and R78, and COUNTS against CREW and BAND. -/
def shapeBad (x : Nat) : Bool :=
  let w := pktWidths x
  let sum := w.foldl (· + ·) 0
  let counts := pktField x 0x38 8
  let crew := pktField x 3 1
  let band := pktField x 4 1
  w.headD 0 != 6 || decide (4 < w.getD 1 0) || decide (6 < w.getD 2 0) || decide (64 < sum) || decide (2 ^ sum ≤ counts) ||
    crew == 0 || band == 0 || (countsOf w counts).getD 1 0 != crew || (countsOf w counts).getD 2 0 != band

/-- REGS, SCRATCH, EFFECT, LOGLEN, LOGBASE, ARGS or ENTRY is outside its rule. -/
def sizesBad (x : Nat) : Bool :=
  let regs := pktField x 0x0E 2
  decide (regs < 8) || decide (256 < regs) || regs % 8 != 0 || pktField x 0x18 4 % 128 != 0 || pktField x 0x1C 4 % 16 != 0 ||
    pktField x 0x40 8 % 16 != 0 || pktField x 0x48 8 % 16 != 0 || pktField x 0x60 8 % 8 != 0 || pktField x 0x30 8 % 4 != 0

def spanFieldsBad (x : Nat) : Bool :=
  let mode := bitField (pktField x 1 1) 1 0
  if mode = 2 then
    pktWidths x != [6, 0, 0, 0, 0, 0] || pktField x 0x38 8 != 0 || pktField x 3 1 != 1 || pktField x 4 1 != 1 || pktField x 0x68 8 % 128 != 0
  else pktField x 0x68 24 != 0

def Packet.reg (p : Packet) : Nat := bitField p.part.toNat 7 0
def Packet.scr (p : Packet) : Nat := bitField p.part.toNat 15 8
def Packet.acc (p : Packet) : Nat := bitField p.part.toNat 23 16

/-- The rejections of R103. -/
def Packet.partBad (p : Packet) : Bool :=
  decide (Config.poolUnits < p.reg + p.scr + 5 * p.acc) || decide (8 < p.acc) || bitField p.part.toNat 31 24 != 0 || p.reg == 0

/-- Slots, register blocks and scratch bytes of one crew (R74, R105, R356). -/
def Packet.slots (p : Packet) : Nat := p.crew * (if p.shadow then 2 else 1)
def Packet.blocks (p : Packet) : Nat := p.crew * blocksFor p.regs p.shadow
def Packet.bytes (p : Packet) : Nat := p.scratch + (if p.mode = 0 then 0 else p.effect)

/-- One crew does not fit an empty core (R75, R158); the band then fits a cluster of 64 cores. -/
def Packet.tooBig (p : Packet) : Bool :=
  decide (Config.slots < p.slots) || decide (32 * p.reg < p.blocks) || decide (65536 * p.scr < p.bytes) || decide (Config.transomSlots < p.tlease)

/-- Crews of a launch that an empty core holds (R74, R163). -/
def Packet.perCore (p : Packet) : Nat :=
  let n := min (Config.slots / p.slots) (32 * p.reg / p.blocks)
  let n := if p.bytes = 0 then n else min n (65536 * p.scr / p.bytes)
  if 0 < p.acc then min n 1 else n

/-- Under COSCHED, the crews do not all fit the module at once: whole bands in each of the eight clusters (R325, R330). -/
def Packet.coschedBad (p : Packet) : Bool :=
  p.cosched && p.mode != 2 && decide (8 * (64 * p.perCore / p.band) < p.bandCount)

/-- The rules of R325 that the packet alone decides. -/
def packetBad (x q seq : Nat) (p : Packet) : Bool :=
  decide (1 < pktKind x) || p.mode == 3 || pktReserved x || spanFieldsBad x || shapeBad x || sizesBad x || selfWait x q seq || p.partBad ||
    p.tooBig || p.coschedBad

/- The span descriptor (R366, R367) -/

/-- The 128-byte descriptor; `none` when a read of it is uncorrectable. -/
def State.spanDesc (s : State) (store : Nat) : Option Nat :=
  let r := s.physRead store 128
  if anyBad r then none else some (natOf r)

/-- A field of the descriptor breaks its rule (R367). DESIGN CHOICE (log 113): so does a field shown as zero that is not zero, which R8 lets a reader ignore. -/
def descBad (d : Nat) : Bool :=
  bitField d 1023 704 != 0 || bitField d 639 608 != 0 || bitField d 511 510 != 0 || bitField d 319 292 != 0 || bitField d 255 254 != 0 ||
    bitField d 175 171 != 0 || bitField d 127 121 != 0 || d.testBit 63 ||
    decide (24 < bitField d 509 505) || bitField d 504 448 % 4096 != 0 || decide (24 < bitField d 253 249) || bitField d 248 192 % 4096 != 0 ||
    decide (bitField d 170 166 < 4) || decide (24 < bitField d 170 166) || decide (bitField d 62 57 < 10) || decide (32 < bitField d 62 57) ||
    bitField d 56 0 % 4096 != 0 || bitField d 120 64 % 32 != 0 || decide (16384 ≤ bitField d 290 276) || decide (2 ^ bitField d 62 57 < bitField d 159 128)

/-- An event record (R364), with whether a FLAGS bit other than PRIO is set. -/
def eventOf (x : Nat) : Event × Bool :=
  ({ time := BitVec.ofNat 64 x, serial := BitVec.ofNat 64 (bitField x 127 64), handler := BitVec.ofNat 16 (bitField x 143 128)
     prio := BitVec.ofNat 8 (bitField x 151 144), princ := BitVec.ofNat 32 (bitField x 191 160), pay := BitVec.ofNat 64 (bitField x 255 192) },
   bitField x 159 152 != 0)

/-- A host event breaks a rule: SERIAL[63:32] or a flag is not zero (R367, R369). -/
def hostEventBad (e : Event × Bool) : Bool := e.2 || e.1.serial.extractLsb' 32 32 != 0#32

def noDup : List DWord → Bool
  | [] => true
  | x :: r => !r.contains x && noDup r

/-- The seeds, or `none` when one of them makes the launch invalid (R367). -/
def State.seeds (s : State) (d : Nat) : Option (List PendEv) :=
  let l := (List.range (bitField d 159 128)).map (fun k => s.physRead (bitField d 120 64 + 32 * k) 32)
  let e := l.map (fun r => eventOf (natOf r))
  if l.any anyBad || e.any hostEventBad || !noDup (e.map (·.1.serial)) then none else some (e.map (fun x => { ev := x.1, aborts := 0 }))

/-- Writes one of the descriptor's fields at its byte offset. -/
def State.setDesc (s : State) (store ofs n x : Nat) : State := s.physWrite (store + ofs) (clean (leBytes n x))

/-- The fields that read 0 at take-up (R366). -/
def State.clearDesc (s : State) (store : Nat) : State :=
  ((((s.setDesc store 80 8 0).setDesc store 72 4 0).setDesc store 68 4 0).setDesc store 48 8 0).setDesc store 40 4 0

/- Completion words -/

/-- Advances DONE over the leading completed packets (R327). -/
def State.advanceDone (s : State) (q : Nat) : Nat → State
  | 0 => s
  | n + 1 =>
    match s.launches.find? (fun x => x.2.q == q && x.2.seq == s.qDone q && x.2.done && !x.2.old) with
    | some (k, _) =>
      let s' := { s with launches := Tab.erase s.launches k }
      State.advanceDone (s'.setQ q 40 (s.qDone q + 1)) q n
    | none => s

/-- Writes the slot's completion word and afterwards advances DONE; a launch of before EN was set again does not count in it (R320, R327). DESIGN CHOICE (log 125):
such a launch writes its word too, at its sequence number modulo LLEN as it stands then, and at STATBASE as it stands then. -/
def State.finishLaunch (s : State) (k status : Nat) : State :=
  match s.launch? k with
  | none => s
  | some l =>
    let s := s.physWrite (s.qStat l.q + 8 * (l.seq % s.qLen l.q)) (clean (leBytes 8 (status + l.seq * 2 ^ 16)))
    let s := if l.old then { s with launches := Tab.erase s.launches k } else s.putLaunch k { l with done := true }
    s.advanceDone l.q (s.launches.length + 1)

/- Take-up (R326) -/

/-- The physical place of a span of virtual memory that the queue engine reads, or `none` when it cannot be read (R320, R324). -/
def State.enginePieces (s : State) (q va n : Nat) : Option (List (Nat × Nat)) := s.hostPieces (q / 4) va n false

/-- The bytes of the pieces, when none of them is uncorrectable. -/
def State.engineRead (s : State) (p : Option (List (Nat × Nat))) : Option Nat :=
  p.bind (fun l =>
    let r := s.hostRead l
    if anyBad r then none else some (natOf r))

/-- Every packet of the queue before `seq` of lower PHASE has completed. -/
def State.phaseOpen (s : State) (q seq phase : Nat) : Bool :=
  s.launches.all (fun x => x.2.q != q || x.2.done || x.2.old || decide (seq ≤ x.2.seq) || decide (phase ≤ x.2.pkt.phase))

/-- The access-control check of a packet that a peer's kick made available (R322). -/
def State.aclDenied (s : State) (q seq : Nat) (p : Packet) : Bool :=
  match s.kicks.find? (fun k => k.q == q && decide (k.lo ≤ seq) && decide (seq < k.hi)) with
  | some k => decide (p.prio < k.entry.maxPrio) || decide (p.key.toNat < k.entry.keyLo.toNat) || decide (k.entry.keyHi.toNat < p.key.toNat) ||
      (p.keyset && !k.entry.kset)
  | none => false

/-- Enters a taken-up packet and counts RIDX on. -/
def State.enter (s : State) (q seq : Nat) (p : Packet) (span : Option Span) : State × Nat :=
  let k := launchKeyOf s.nextLaunch seq q
  let l : Launch := { q := q, seq := seq, pkt := p, order := s.nextLaunch, pendingSince := s.cyc 0, span := span }
  let kicks := s.kicks.filter (fun x => !(x.q == q && decide (x.hi ≤ seq + 1)))
  let s := { s with nextLaunch := s.nextLaunch + 1, kicks := kicks }
  (((s.setQ q 32 (seq + 1)).putLaunch k l).count .launchesTaken, k)

/-- A packet that starts nothing completes at once. -/
def State.enterDone (s : State) (q seq : Nat) (p : Packet) (status : Nat) : State :=
  let y := s.enter q seq p none
  y.1.finishLaunch y.2 status

/-- Takes up a LAUNCH packet whose conditions hold. DESIGN CHOICE (logs 128, 129): the fields that read 0 at take-up are cleared only for a launch that is accepted,
and memory at CALBASE stays as it is. -/
def State.takeLaunch (s : State) (q seq x : Nat) (args : Option Nat) : State :=
  let words (a : Nat) : List DWord := (List.range 8).map (fun k => BitVec.ofNat 64 (a / 2 ^ (64 * k)))
  let p := packetOf x (words (args.getD 0))
  if packetBad x q seq p || args.isNone then s.enterDone q seq p 3
  else if s.aclDenied q seq p then s.enterDone q seq p 5
  else if p.mode = 2 then
    match s.spanDesc p.store with
    | none => s.enterDone q seq p 3
    | some d =>
      if descBad d then s.enterDone q seq p 3
      else
        match s.seeds d with
        | none => s.enterDone q seq p 3
        | some l => ((s.clearDesc p.store).enter q seq p (some { pend := l })).1
  else (s.enter q seq p none).1

/-- The take-up of packet `x` of sequence `seq`, read from its slot; `none` when the slot cannot be read. DESIGN CHOICE (log 126): such a packet, whose PHASE and
WAITFOR are not known, is taken up at once. -/
def State.takePacket (s : State) (q seq : Nat) (x : Option Nat) (args : Option Nat) : State :=
  match x with
  | none => s.enterDone q seq (packetOf 0 []) 3
  | some x =>
    let open_ := s.phaseOpen q seq (pktPhase x)
    let waits := waitOn x && !selfWait x q seq && decide (s.qDone (waitQueue x) ≤ waitSeq x)
    if !open_ || waits then s
    else if pktKind x = 1 then s.enterDone q seq { packetOf x [] with part := 0 } (if selfWait x q seq then 3 else 1)
    else if bitField (pktField x 1 1) 1 0 = 2 ∧ !s.readyBits.getLsbD 21 then s
    else s.takeLaunch q seq x args

/-- The physical memory that a SPAN packet's descriptor and seeds take (R366, R367). -/
def State.spanMemory (s : State) (store : Nat) : List (Nat × Nat) :=
  (store, 128) :: (if s.memReady store then
    match s.spanDesc store with
    | some d => if descBad d then [] else [(bitField d 120 64, max 1 (32 * bitField d 159 128))]
    | none => []
  else [])

/-- TAKE_UP of the next packet of a queue. The engine waits for memory that is not ready (R402). Of a MARKER it reads KIND, PHASE and WAITFOR only (R325). -/
def execTakeUp (q : BitVec 6) (s : State) : Host.Outcome State Fault Refusal :=
  alive s (fun s =>
    let q := q.toNat
    let s := if s.memReady (s.qaddr q) then s.restartQ q else s
    let seq := s.qRidx q
    if !s.readyBits.getLsbD 0 || !s.memReady (s.qaddr q) || s.noImage then s
    else if !s.qEn q || decide (s.qWidx q ≤ seq) then s
    else
      let slot := s.enginePieces q ((s.qBase q + 128 * (seq % s.qLen q)) % 2 ^ 57) 128
      let x := s.engineRead slot
      let launch := (x.map pktKind).getD 1 == 0
      let argsAt := (x.map (fun x => bitField (pktField x 0x60 8) 56 0)).getD 0
      let args := if launch then s.enginePieces q argsAt 64 else none
      let span := match x with
        | some x => if launch && bitField (pktField x 1 1) 1 0 == 2 then s.spanMemory (pktField x 0x68 8) else []
        | none => []
      let waits (va n : Nat) : Bool := s.hostWaits (q / 4) va n
      if waits ((s.qBase q + 128 * (seq % s.qLen q)) % 2 ^ 57) 128 || (launch && waits argsAt 64) then s
      else if s.anyNotReady (slot.getD [] ++ args.getD [] ++ span ++ [(s.qStat q, 8)]) then s
      else s.takePacket q seq x (s.engineRead args))

/- Completion (R327, R369, R383) -/

/-- The inbox holds a record to take (R369). -/
def inboxEmpty (d : Nat) : Bool := bitField d 504 448 == 0 || bitField d 543 512 == bitField d 575 544

/-- Nothing of the launch is left to run, commit or perform. DESIGN CHOICE (log 131): a span descriptor that has become uncorrectable since take-up counts as one
with HOLD = 0 and an empty inbox. -/
def State.launchOver (s : State) (k : Nat) (l : Launch) : Bool :=
  let quiet := !(s.crews.any (fun x => x.2.launch == k && x.2.stat != .committed)) && !(s.gangs.any (fun x => x.2.launch == k && x.2.slot != 32)) &&
    !(s.ctxs.any (fun x => x.2.launch == k)) &&
    !(s.far.any (fun f => match f.what with | .write _ _ _ _ _ n _ | .commit _ _ _ n _ | .check n _ => n == k | _ => false))
  quiet && (l.overflow ||
    match l.span with
    | none => decide (l.pkt.bandCount ≤ l.nextBand)
    | some p =>
      !p.running && (p.limit || (p.pend.isEmpty &&
        match s.spanDesc l.pkt.store with
        | some d => inboxEmpty d && !d.testBit 291
        | none => true)))

/-- What completion leaves of a launch: nothing but its packet's status (R158, R334). -/
def State.clearLaunch (s : State) (k : Nat) : State :=
  { s with crews := s.crews.filter (fun x => x.2.launch != k), leases := s.leases.filter (fun l => l.launch != k) }

def execLaunchComplete (launch : Nat) (s : State) : Host.Outcome State Fault Refusal :=
  alive s (fun s =>
    match s.launch? launch with
    | none => s
    | some l =>
      if l.done || s.anyNotReady ((s.qaddr l.q, 64) :: (s.qStat l.q, 8) :: (if l.span.isSome then [(l.pkt.store, 128)] else [])) || !s.launchOver launch l then s
      else (s.clearLaunch launch).finishLaunch launch (if l.overflow then 4 else if l.records then 2 else 1))

end Sys2Proof.Machine
end

