-- ==== Sys2Proof/Machine/Links.lean ====
section
/-! DEFINITION. The Dvorlek link (R246, R397 to R399, R402): far accesses that arrive, responses, failures with their imprecise faults (R355), and
ports. -/
namespace Sys2Proof.Machine

/- As owner -/

/-- An operation that changes memory, and is performed only under the requester's tag (R246). DESIGN CHOICE (log 27): an XRND with `.clr`, which R246 does not
list, is one of them. -/
def farWrites : FarOp → Bool
  | .load _ => false
  | .vload => false
  | .xrnd _ _ _ clr => clr
  | _ => true

/-- It is a write to the page rules and to its denial's KIND: an XRND is not, whether or not it has `.clr` (R213, R243, logs 27, 78). -/
def farKind : FarOp → Bool
  | .xrnd _ _ _ _ => false
  | op => farWrites op

/-- Bytes of the span an operation touches. -/
def farSpan : FarOp → Nat
  | .load n => n
  | .store d _ => d.length
  | .atm _ t _ _ => t.bytes
  | _ => 128

/-- A gang that holds nothing but the requester's `$rmode`. -/
def farGang (rmode : Word) : Gang :=
  { launch := 0, crew := 0, ix := 0, core := 0, slot := 0, age := 0, pc := 0, n := 8, rmode := rmode, base := 0 }

/-- A store that arrives over the link: a kick when it meets the kick page (R322). -/
def State.farStore (s : State) (peer : BitVec 6) (pa : Nat) (l : List PByte) : State :=
  if s.onKickPage pa then
    if l.length = 8 ∧ pa % 4096 < 512 then
      let q := BitVec.ofNat 6 (pa % 4096 / 8)
      match s.aclFor peer q with
      | some e => s.kick q.toNat (BitVec.ofNat 64 (natOf l)) (some e)
      | none => s.count .kickRejected
    else s
  else s.plainWrite pa l

/-- Performs an operation at a physical address: the new state and the bytes that answer it, poison and all (R108, R227, R228, R398). -/
def State.farPerform (s : State) (peer : BitVec 6) (pa : Nat) (op : FarOp) : State × List PByte :=
  let r := s.physRead pa (farSpan op)
  match op with
  | .load _ => (s, r)
  | .store d bad => (s.farStore peer pa (d.zip (bad ++ List.replicate d.length false)), [])
  | .atm o t c x => (match atmBytes r o t c.toNat x.toNat with | some l => s.plainWrite pa l | none => s, r)
  | .redx t c x => (s.plainWrite pa (redxBytes r t c.toNat (x.map (·.toNat))), [])
  | .xrnd t m rmode clr =>
    let g := farGang rmode
    let v := (Xa.ofBytes (rawBytes r)).readout t (g.mode m) g.sat
    (if clr && g.fpTrap v.2 == 0 then s.plainWrite pa (clean Xa.zero.bytes) else s, r)
  | .vload => (s, r ++ clean (leBytes 2 (s.verOf pa).toNat))
  | .vstore d v =>
    if s.verOf pa = v then ((s.plainWrite pa (clean d)).setVer pa (v + 1), clean (1 :: leBytes 2 (v + 1).toNat))
    else (s, clean (0 :: leBytes 2 (s.verOf pa).toNat))

def State.answer (s : State) (a : FarAns) : State := { s with farOut := s.farOut ++ [a] }

/-- An access of the same peer to the same line waits already: this one stays behind it (R398). -/
def State.farBehind (s : State) (peer : BitVec 6) (addr : VAddr) : Bool :=
  s.farIn.any (fun i => match i with
    | .farAccess r a _ _ => r.peer == peer && a.toNat / 128 == addr.toNat / 128
    | _ => false)

/-- A far access arrives with its requester's context, principal and tag (R397): context 0's translation here, the tag (R246), the access at the sill (R398).
One that must wait for memory (R402) is kept, and tried again in order of arrival. -/
def execFarAccess (from_ : Requester) (addr : VAddr) (tag : BitVec 20) (op : FarOp) (s : State) :
    Host.Outcome State Fault Refusal :=
  let peer := from_.peer
  let later (s : State) : State := { s with farIn := s.farIn ++ [.farAccess from_ addr tag op] }
  let fail (s : State) : State := s.answer { peer := peer, failed := true, ok := false, tag := 0, data := [] }
  alive s (fun s =>
    if s.farBehind peer addr then later s
    else
      match s.translate Config.engineCore 0 addr.toNat with
      | .fault _ => fail s
      | .wait => later s
      | .leaf l =>
        match l.loc addr.toNat with
        | .far _ _ _ => fail s
        | .here pa =>
          if !s.memReady pa then later s
          else if farKind op && !l.w then fail s
          else if farWrites op && l.door != tag then s.answer { peer := peer, failed := false, ok := false, tag := l.door, data := [] }
          else
            let y := s.farPerform peer pa op
            y.1.answer { peer := peer, failed := false, ok := true, tag := l.door, data := rawBytes y.2, bad := y.2.map (·.2) })

/- As requester -/

/-- A gang whose far accesses have all been answered is ready again. -/
def State.wakeFar (s : State) (core slot : Nat) : State :=
  if s.far.any (fun f => match f.what with | .gang c g _ => c == core && g == slot | _ => false) then s
  else s.modGang core slot (fun g => if g.stat = .waiting .far then g.ready else g)

/-- Gangs that waited for commits look again once none is under way (R303). -/
def State.wakeCommitted (s : State) : State :=
  if s.committing then s
  else s.wake (fun g => g.stat == .waiting .far && !s.far.any (fun f => match f.what with | .gang c t _ => c == g.core && t == g.slot | _ => false))

/-- A far write of a gang has been answered: an ended gang leaves its slot with its last one (R92), and a park that waited for them is reported (R307). -/
def State.sweep (s : State) (core slot : Nat) : State :=
  match s.gang? core slot with
  | some g =>
    match g.stat with
    | .ended => if g.ops.any (fun o => !o.done && o.cls != .cp) || s.farOf core slot then s else s.dropGang core slot
    | .waiting .far => s.wakeFar core slot
    | .waiting (.park p recs) => if s.farWriteOf g then s else s.reportPark g p recs
    | _ => s
  | none => s

/-- What a peer answered for a waiting lane. -/
def State.deliver (s : State) (core slot : Nat) (a : Arrived) : State :=
  (s.modGang core slot (fun g => g.arrive a)).wakeFar core slot

def State.deliverRow (s : State) (core ix : Nat) (a : Arrived) : State :=
  match s.ctx? core ix with
  | some c => s.putCtx core ix { c with arrived := c.arrived.filter (fun x => x.lane != a.lane) ++ [a] }
  | none => s

/-- The row, or the KLD, that a context waits for. -/
def rowAt (core ix : Nat) (c : CopyCtx) : RowAt :=
  match c.rows with
  | r :: _ => { core := core, ix := ix, c := c, key := r.key, wid := r.wid, pcofs := r.pcofs }
  | [] => { core := core, ix := ix, c := c, key := c.key, wid := c.wid, pcofs := c.pc.setWidth 32 }

/-- A read whose answer the requester checks with the owner's tag (R246). -/
def FarReq.reads (f : FarReq) : Bool := !farWrites f.op

/-- A read that the owner's tag itself decides, since it is to be the requester's: that of a page that a row is to write, which it first asks for the tag alone
(log 83), and that of a buffered atomic (R246). -/
def FarReq.probes (f : FarReq) : Bool :=
  f.same || (match f.what with
    | .row _ _ piece => decide (probePiece ≤ piece)
    | _ => false)

/-- A commit's look at a line's version, which is checked with no key (R88, R380). -/
def FarReq.looks (f : FarReq) : Bool :=
  match f.what with
  | .check _ ix => decide (ix < refetchBase)
  | _ => false

/-- A read that the owner's tag decides by the grants of its own core (R245, R246). -/
def FarReq.checked (f : FarReq) : Bool := f.reads && !f.probes && !f.looks

/-- The keys that the access is checked with and that the owner's tag denies; a write that the owner has turned away is denied with all of them (R246). -/
def State.deniedKeys (s : State) (f : FarReq) (tag : BitVec 20) : List FarKey :=
  if f.checked then f.keys.filter (fun k => !s.granted f.what.core f.ctx k.key tag) else if f.looks then [] else f.keys

/-- ENTRY of the program of the gang that stands in a slot, or of the launch of one that has left it. -/
def State.entryAt (s : State) (core slot launch : Nat) : VAddr :=
  match s.gang? core slot with
  | some g => if g.launch = launch then s.entryOf g else ((s.launch? launch).map (·.pkt.entry)).getD 0
  | none => ((s.launch? launch).map (·.pkt.entry)).getD 0

/-- A denial by the owner's tag: a record and a DENY bit for each lane denied, a record for each key of an effect at commit, and one record for each end of a row
and for a refetch, however many of its pages are denied (R117, R162, R242, R243, R246). What a row asks of its destination is a write, even where it only reads
there to learn the tag or the version. -/
def State.denyFar (s : State) (f : FarReq) (tag : BitVec 20) : State :=
  let va := f.line.toNat
  match f.what with
  | .gang core slot _ =>
    match s.gang? core slot with
    | none => s
    | some g =>
      let y := (s.deniedKeys f tag).foldl (fun x k => x.1.denyLane x.2 k.lane k.key tag f.kind va) (s, g)
      y.1.putGang y.2
  | .write core slot _ pc _ launch _ =>
    (s.deniedKeys f tag).foldl (fun s k =>
      (s.logDenial { ctx := f.ctx, wid := k.wid, key := k.key, tag := tag, core := core, agent := slot, write := true
                     pcofs := (pc - s.entryAt core slot launch).setWidth 32, va := va, cyc := s.cyc core }).modGang core slot
        (fun g => if g.launch = launch then { g with deny := g.deny ||| oneBit 64 k.lane } else g)) s
  | .row core ix piece =>
    let write := decide (writePiece ≤ piece)
    match s.ctx? core ix with
    | some c =>
      if c.arrived.any (fun a => decide (writePiece ≤ a.lane) == write && a.data.isNone && !a.failed) then s
      else (rowAt core ix c).deny s tag write va
    | none => s
  | .commit _ pc entry _ _ =>
    (s.deniedKeys f tag).foldl (fun s k =>
      s.logDenial { ctx := f.ctx, wid := k.wid, key := k.key, tag := tag, core := 0, agent := 0, write := true
                    pcofs := (pc - entry).setWidth 32, va := va, cyc := s.cyc 0 }) s
  | .check launch ix =>
    let same (a : Arrived) : Bool := a.lane / 16 == ix / 16 && a.data.isNone && !a.failed
    if ix < refetchBase ∨ (((s.launch? launch).map (·.checks)).getD []).any same then s
    else
      let core := refetchCore ix
      let pcofs := match s.gang? core (refetchAgent ix) with
        | some g => if refetchAgent ix < 64 then (g.pc - s.entryOf g).setWidth 32 else 0
        | none => 0
      (s.deniedKeys f tag).foldl (fun s k =>
        s.logDenial { ctx := f.ctx, wid := k.wid, key := k.key, tag := tag, core := core, agent := refetchAgent ix, write := false
                      pcofs := pcofs, va := va, cyc := s.cyc core }) s

/-- The answer lets the access stand. -/
def State.grantedFar (s : State) (f : FarReq) (ok : Bool) (tag : BitVec 20) : Bool :=
  if f.probes then tag == f.tag else if f.looks then true else if f.reads then (s.deniedKeys f tag).isEmpty else ok

/-- The address of the access itself: a load may begin before it in its cell, and translation keeps an address's place in its page. -/
def FarReq.own (f : FarReq) : VAddr := BitVec.ofNat 57 (cellOf f.va.toNat + f.line.toNat % 128)
/-- The bytes that a load reads. -/
def FarReq.span? (f : FarReq) : Option (Nat × Nat) :=
  match f.op with
  | .load n => some (f.va.toNat, n)
  | _ => none

/-- Hands an answer to what waits for it. -/
def State.handOver (s : State) (f : FarReq) (data : Option (List Byte)) (failed : Bool) (bad : List Bool := []) : State :=
  match f.what with
  | .gang core slot lane =>
    s.deliver core slot { lane := lane, data := data, failed := failed, bad := bad, place := some (.far f.peer f.own f.tag, f.ord), span := f.span? }
  | .row core ix piece => s.deliverRow core ix { lane := piece, data := data, failed := failed, bad := bad, span := f.span? }
  | .check launch ix => s.modLaunch launch (fun l => { l with checks := l.checks ++ [{ lane := ix, data := data, failed := failed, bad := bad }] })
  | .write core slot _ _ _ _ _ => s.sweep core slot
  | .commit _ _ _ _ _ => s.wakeCommitted

/-- The check of the answer must wait for the grant tables' memory (R402). -/
def State.answerWaits (s : State) (f : FarReq) (tag : BitVec 20) : Bool :=
  f.checked && f.keys.any (fun k => s.grantWaits f.what.core f.ctx k.key tag)

/-- FAR_RESPONSE (R246): a read is checked with the owner's tag here; a write that the owner did not perform was denied by its tag. An access that has not
left yet (R301) has no response. -/
def execFarResponse (id : Nat) (ok : Bool) (tag : BitVec 20) (data : List PByte) (s : State) : Host.Outcome State Fault Refusal :=
  alive s (fun s =>
    match s.far.find? (fun f => f.id == id && s.departed f) with
    | none => s
    | some f =>
      if s.answerWaits f tag then { s with farIn := s.farIn ++ [.farResponse id ok tag data] }
      else
        let s := s.dropFar id
        let noted := if f.checked then f.keys.foldl (fun s k => s.noteGrant f.what.core f.ctx k.key tag) s else s
        if s.grantedFar f ok tag then noted.handOver f (some (rawBytes data)) false (data.map (·.2)) else (noted.denyFar f tag).handOver f none false)

/-- A far access that fails (R399, R355). -/
def State.failFar (s : State) (f : FarReq) : State :=
  let s := s.dropFar f.id
  match f.what with
  | .write core slot _ pc wid launch op =>
    let here := match s.gang? core slot with
      | some g => g.launch == launch && g.stat != .ended && g.ops.any (fun o => o.id == op)
      | none => false
    let rerun := match s.gang? core slot with | some g => s.rcOf g != 0 | none => false
    let s := s.lostWrite launch wid pc core rerun (!here)
    (if here then s.modGang core slot (fun g => { g with failed := g.failed ++ [pc] }) else s).sweep core slot
  | .commit wid pc _ launch rerun =>
    (s.faultRecord { launch := launch, wid := wid, pc := pc, core := 0, cause := 34, kind := 3, rerun := rerun }).wakeCommitted
  | _ => s.handOver f none true

/-- FAR_TIMEOUT: no response within 2^24 cycles (R399). -/
def execFarTimeout (id : Nat) (s : State) : Host.Outcome State Fault Refusal :=
  alive s (fun s =>
    match s.far.find? (fun f => f.id == id && s.departed f) with
    | none => s
    | some f => if f.sent + 2 ^ 24 ≤ s.cyc f.what.core then s.failFar f else s)

def execFarRefused (id : Nat) (s : State) : Host.Outcome State Fault Refusal :=
  alive s (fun s =>
    match s.far.find? (fun f => f.id == id && s.departed f) with
    | none => s
    | some f => s.failFar f)

/-- FLIT_RETRY changes only timing (R397). -/
def execFlitRetry (_ : BitVec 6) (s : State) : Host.Outcome State Fault Refusal := .next s

/- Ports -/

/-- A port carries traffic when it is up and ready (R402). -/
def State.portUp (s : State) (p : Nat) : Bool := ((Tab.get? s.ports p).map (·.up)).getD false && s.readyBits.getLsbD (22 + p)

/-- The peer has a port. -/
def State.reachable (s : State) (peer : BitVec 6) : Bool :=
  s.ports.any (fun x => x.2.peer == peer && s.portUp x.1)

/-- A port goes down; with the last port of a peer its outstanding accesses fail (R399). -/
def execDvorlekPortDown (port : BitVec 6) (s : State) : Host.Outcome State Fault Refusal :=
  alive s (fun s =>
    match Tab.get? s.ports port.toNat with
    | none => s
    | some p =>
      let s := { s with ports := Tab.set s.ports port.toNat { p with up := false } }
      if s.reachable p.peer then s
      else (s.far.filter (fun f => f.peer == p.peer)).foldl State.failFar s)

/-- A port that went down rejoins; nothing that failed is retried (R399). -/
def execDvorlekPortRejoin (port : BitVec 6) (s : State) : Host.Outcome State Fault Refusal :=
  alive s (fun s =>
    match Tab.get? s.ports port.toNat with
    | none => s
    | some p => { s with ports := Tab.set s.ports port.toNat { p with up := true } })

end Sys2Proof.Machine
end

