-- ==== Sys2Proof/Machine/Admit.lean ====
section
/-! DEFINITION. The scheduler: admission (R74, R78 to R80, R90, R91, R104, R110, R158, R163, R200, R236, R329, R330, R356), retirement and commit (R84,
R87, R88, R303), saving and restoring crews (R161, R162, R335), parked gangs, register requests and the deadlock rule (R76, R124, R125), tokens (R185),
streams (R176) and refetches (R162). -/
namespace Sys2Proof.Machine

/- What a core has free (R74) -/

/-- Slots that gangs and their shadows occupy, reserved ones among them (R76). -/
def State.usedSlots (s : State) (core : Nat) : List Nat :=
  ((s.coreGangs core).map (fun g => g.slot :: g.shadowSlot.toList)).flatten

def State.freeSlots (s : State) (core : Nat) : List Nat :=
  let used := s.usedSlots core
  (List.range Config.slots).filter (fun x => !used.contains x)

/-- Scratch and effect bytes of the resident crews of a core. -/
def State.usedBytes (s : State) (core : Nat) : Nat :=
  ((s.coreCrews core).map (fun x => ((s.launch? x.2.launch).map (·.pkt.bytes)).getD 0)).foldl (· + ·) 0

def State.usedBlocks (s : State) (core : Nat) : Nat := ((s.coreGangs core).map s.blocksOf).foldl (· + ·) 0

/-- A crew of a launch with tiles holds the pane until it retires (R163). -/
def State.paneHeld (s : State) (core : Nat) : Bool :=
  (s.coreCrews core).any (fun x => (x.2.stat == .running || x.2.stat == .saving) &&
    decide (0 < ((s.launch? x.2.launch).map (·.pkt.acc)).getD 0))

def State.leasedSlots (s : State) (core : Nat) : Nat :=
  ((s.leases.filter (fun l => l.core == core)).map (·.size)).foldl (· + ·) 0

/-- Requests and restores go before new admissions (R124). -/
def State.restoreWaits (s : State) (core : Nat) : Bool :=
  !(s.growers core).isEmpty ||
    (s.coreGangs core).any (fun g => match g.stat with | .restoring => true | .parked (.deadlock _) => true | _ => false)

/-- The conditions of R74 for one crew whose gangs need `blocks`. -/
def State.fits (s : State) (launch : Nat) (p : Packet) (blocks core : Nat) : Bool :=
  let k := s.core core
  !k.closed && !(((s.launch? launch).map (·.closed)).getD []).contains core && s.readyBits.getLsbD (13 + core / 64) &&
    !s.restoreWaits core &&
    (match k.part with | some w => w == p.part | none => true) &&
    decide (p.slots ≤ (s.freeSlots core).length) &&
    decide (s.usedBlocks core + blocks ≤ 32 * p.reg) &&
    decide (s.usedBytes core + p.bytes ≤ 65536 * p.scr) &&
    (p.acc == 0 || !s.paneHeld core) &&
    ((s.lease? core launch).isSome || decide (s.leasedSlots core + p.tlease ≤ Config.transomSlots)) &&
    (!p.rns || chanMode k.en != 3)

/- Starting crews (R90) -/

/-- Fields 3 to 5 of the work identifier of a band, ascending (R78). -/
def bandFields (p : Packet) (band : Nat) : Nat :=
  let c (k : Nat) : Nat := p.counts.getD k 1
  let o (k : Nat) : Nat := (p.widths.take k).foldl (· + ·) 0
  band % c 3 * 2 ^ o 3 + band / c 3 % c 4 * 2 ^ o 4 + band / c 3 / c 4 % c 5 * 2 ^ o 5

/-- `$wid` of a lane (R78). -/
def widOf (p : Packet) (band inBand gang lane : Nat) : DWord :=
  let o (k : Nat) : Nat := (p.widths.take k).foldl (· + ·) 0
  BitVec.ofNat 64 (lane + gang * 2 ^ o 1 + inBand * 2 ^ o 2 + bandFields p band)

/-- The lanes of a FREE or PHASED gang at its start: work identifiers and keys (R79, R236). -/
def startLanes (p : Packet) (band inBand gang : Nat) (g : Gang) : Gang :=
  { g with
    base := maskOf 64 (List.range (p.counts.headD 1))
    wid := (List.range 64).foldl (fun m i => Store.set m i (widOf p band inBand gang i)) []
    key := (List.range 64).foldl (fun m i => Store.set m i p.key) [] }

/-- The lanes of a SPAN gang (R372); a re-run starts its children and statuses anew (R379). -/
def startEvents (l : List LaneEv) (g : Gang) : Gang :=
  (l.zip (List.range l.length)).foldl (fun g x =>
    let e := x.1.ev
    let i := x.2
    let g := { g with
      base := g.base ||| oneBit 64 i
      wid := Store.set g.wid i e.serial
      key := Store.set g.key i e.princ
      now := Store.set g.now i e.time
      evs := Tab.set g.evs i { x.1 with ch := 0, st := false } }
    (g.vSet 0 i (e.pay.toNat % 2 ^ 32)).vSet 1 i (e.pay.toNat / 2 ^ 32)) g

/-- A gang at its start (R90, R91, R110). -/
def startGang (p : Packet) (c : Crew) (launch crew gang slot age cyc : Nat) (shadowSlot : Option Nat) : Gang :=
  let g : Gang := {
    launch := launch, crew := crew, ix := gang, core := c.core, slot := slot, age := age, pc := c.entry, n := p.regs, base := 0
    s := (p.args.zip (List.range 8)).foldl (fun m x => Store.set m (x.2 + 1) x.1) [], since := cyc, notBefore := cyc, shadowSlot := shadowSlot }
  let g := if p.mode = 2 then startEvents c.events g else startLanes p c.band c.inBand gang g
  { g with shadow := shadowSlot.map (fun _ => { regs := g.regs }) }

/-- The lease of a launch on a core, allotted with its first crew there (R158). -/
def State.allotLease (s : State) (core launch size : Nat) : State :=
  if (s.lease? core launch).isSome then s else { s with leases := s.leases ++ [{ core := core, launch := launch, size := size }] }

/-- Takes the partition word on an empty core (R104). -/
def State.takePart (s : State) (core : Nat) (w : Word) : State :=
  s.modCore core (fun k => { k with part := some (k.part.getD w) })

/-- Places a crew on a core that fits it: every gang in its start state. -/
def State.startCrew (s : State) (key : Nat) (c : Crew) (p : Packet) (core : Nat) : State :=
  let free := s.freeSlots core
  let c := { c with core := core, stat := .running, live := p.crew, rc := c.rc, freed := false, afterLowest := false }
  let w := if p.shadow then 2 else 1
  let s := ((s.takePart core p.part).allotLease core c.launch p.tlease).putCrew key c
  let s := (List.range p.crew).foldl (fun s i =>
    s.putGang (startGang p c c.launch key i (free.getD (w * i) 0) (s.nextAge + i) (s.cyc core) (if p.shadow then free[w * i + 1]? else none))) s
  { s with nextAge := s.nextAge + p.crew }

/-- The first core of a cluster that fits a crew. -/
def State.findCore (s : State) (launch : Nat) (p : Packet) (blocks cluster : Nat) : Option Nat :=
  ((List.range 64).map (fun i => cluster * 64 + i)).find? (s.fits launch p blocks)

def firstSome {α β : Type} (f : α → Option β) : List α → Option β
  | [] => none
  | x :: r => match f x with | some y => some y | none => firstSome f r

/-- Places the crews of one band, all of them in one cluster (R74). -/
def State.placeBand (s : State) (launch : Nat) (p : Packet) (band cluster : Nat) : Option State :=
  (List.range p.band).foldl (fun (acc : Option State) i =>
    acc.bind (fun s =>
      (s.findCore launch p p.blocks cluster).map (fun core =>
        let s' := s.startCrew s.nextCrew
          { launch := launch, band := band, inBand := i, core := core, live := p.crew, entry := p.entry } p core
        { s' with nextCrew := s.nextCrew + 1 }))) (some s)

/-- Counts the wait since the given cycle of what has been admitted; the next band's wait begins (R329). -/
def State.admitted (s : State) (launch bands since : Nat) : State :=
  (s.count .admitWaitCycles (s.clock - since)).modLaunch launch (fun l =>
    { l with nextBand := l.nextBand + bands, pendingSince := if bands = 0 then l.pendingSince else s.clock, blocking := false })

/-- The crews that wait to run again and may (R87, R88, R372), lowest work identifier first. -/
def State.requeued (s : State) (launch : Nat) : List (Nat × Crew) :=
  s.crews.filter (fun x => x.2.launch == launch && x.2.stat == .requeued && !x.2.afterLowest)

def State.bandCrews (s : State) (launch band : Nat) : List (Nat × Crew) := s.crews.filter (fun x => x.2.launch == launch && x.2.band == band)

/-- The clusters that a crew of a band may go to: that of the band's resident crews, where it has any (R12, R73). -/
def State.bandClusters (s : State) (launch band : Nat) : List Nat :=
  match (s.bandCrews launch band).find? (fun x => x.2.resident) with
  | some x => [x.2.core / 64]
  | none => List.range 8

/-- The rest of the band is saved, or is being saved: a crew of it that runs again waits for its return (R12, log 91). -/
def State.bandAway (s : State) (launch band : Nat) : Bool :=
  (s.bandCrews launch band).any (fun x => x.2.stat == .saved || x.2.stat == .saving || s.preCrews.contains x.1)

/-- Places a crew that runs again, if a core of a cluster that it may go to fits it (R88). -/
def State.admitAgain (s : State) (launch : Nat) (p : Packet) (x : Nat × Crew) : Option State :=
  if s.bandAway launch x.2.band then none
  else (firstSome (s.findCore launch p p.blocks) (s.bandClusters launch x.2.band)).map (fun core =>
    (s.startCrew x.1 x.2 p core).admitted launch 0 x.2.queuedAt)

/-- Places crews that wait, all of them or none: the crews of a span under COSCHED (R330, R372). -/
def State.admitSpan (s : State) (launch : Nat) (p : Packet) (l : List (Nat × Crew)) : Option State :=
  (l.foldl (fun (acc : Option State) x =>
    acc.bind (fun s => (firstSome (s.findCore launch p p.blocks) (List.range 8)).map (s.startCrew x.1 x.2 p))) (some s)).map
    (fun s => s.admitted launch 0 ((l.head?.map (·.2.queuedAt)).getD s.clock))

/-- No crew of the launch's span has been admitted, or all of them wait to run again (log 108). -/
def State.spanWaits (s : State) (launch : Nat) : Bool :=
  s.crews.all (fun x => x.2.launch != launch || (x.2.stat == .requeued && !x.2.afterLowest))

/-- Admits the next crew that runs again, or the next band, of a launch (R88, R329, R330). DESIGN CHOICE (log 119): crews that wait to run again go before their own
launch's next band, and count as pending with it. -/
def State.admitNext (s : State) (launch : Nat) : Option State :=
  match s.launch? launch with
  | none => none
  | some l =>
    if l.done || l.overflow then none
    else
      let p := l.pkt
      match s.requeued launch with
      | [] =>
        if p.mode = 2 || decide (p.bandCount ≤ l.nextBand) then none
        else if p.cosched then
          ((List.range p.bandCount).foldl (fun (acc : Option State) b =>
            acc.bind (fun s => firstSome (s.placeBand launch p b) (List.range 8))) (some s)).map (fun s => s.admitted launch p.bandCount l.pendingSince)
        else (firstSome (s.placeBand launch p l.nextBand) (List.range 8)).map (fun s => s.admitted launch 1 l.pendingSince)
      | again => if p.mode = 2 && p.cosched && s.spanWaits launch then s.admitSpan launch p again else firstSome (s.admitAgain launch p) again

/-- The launches in the order of R329: PRIO, then take-up. -/
def insertLaunch (x : Nat × Launch) : List (Nat × Launch) → List (Nat × Launch)
  | [] => [x]
  | y :: r => if x.2.pkt.prio < y.2.pkt.prio then x :: y :: r else y :: insertLaunch x r
def State.byPriority (s : State) : List (Nat × Launch) := s.launches.foldl (fun l x => insertLaunch x l) []

/-- What a blocking band shuts out (R329). -/
def State.shutOut (s : State) (k : Nat) (l : Launch) : Bool :=
  s.launches.any (fun b => b.2.blocking && b.1 != k && !(decide (l.pkt.prio < b.2.pkt.prio) && decide (l.order < b.2.order)))

/- Refetches (R162) -/

/-- The outcome of a refetch. -/
inductive Refetched where
  | slot (x : Slot)
  | fault (l : List LaneFault)
  | lost
  | wait
  deriving DecidableEq, Repr

/-- Reads the recorded source of a slot through the context's tables, with the recorded key. `core` and `agent` name who reads it, and `den` is
the denial record but for its tag and address. -/
def State.refetch (s : State) (launch core agent slot : Nat) (src : VAddr × Word) (den : BitVec 20 → Nat → Denial) : State × Refetched :=
  let ctx := s.ctxOf launch
  let ps := piecesOf src.1.toNat imageBytes
  let c : CopyCtx := { crew := 0, launch := launch, program := false, slot := 0, op := 0, wid := 0, postPc := 0, pc := 0, latch := none, key := src.2,
                       owed := false, stat := .draining }
  let at_ : RowAt := { core := core, ix := agent - 64, c := c, key := src.2, wid := 0, pcofs := 0 }
  let x := at_.xlate s false ps
  let noted := at_.note s false ps
  if at_.waits s ps then (at_.noteWait s ps, .wait)
  else if !x.1.isEmpty then (noted, .fault x.1)
  else
    match x.2.find? (fun p => !at_.grants s p.2.2) with
    | some p => (noted.logDenial (den p.2.2.door p.1), .lost)
    | none =>
      let ixs := (List.range x.2.length).map (refetchIx core agent slot)
      let answers := ((s.launch? launch).map (·.checks)).getD []
      let got (ix : Nat) : Option Arrived := answers.find? (fun a => a.lane == ix)
      if x.2.any (fun p => match p.2.2.loc p.1 with | .here pa => !s.memReady pa | .far _ _ _ => false) then (s, .wait)
      else
        let asked := (x.2.zip ixs).foldl (fun s y =>
          match y.1.2.2.loc y.1.1 with
          | .far p fa tag =>
            if (got y.2).isSome || s.far.any (fun f => f.what == .check launch y.2) then s
            else s.sendFar p ctx [{ lane := 0, key := src.2, wid := (den 0 0).wid }] tag fa (y.1.1 - y.1.1 % 128) (.load y.1.2.1) (.check launch y.2)
          | .here _ => s) s
        if s.far.length < asked.far.length || s.far.any (fun f => ixs.any (fun ix => f.what == .check launch ix)) then (asked, .wait)
        else
          let l := ixs.filterMap got
          let s' := noted.modLaunch launch (fun k => { k with checks := k.checks.filter (fun a => !ixs.contains a.lane) })
          if l.any (fun a => a.failed || a.data.isNone) then (s', .lost)
          else
            let bytes := ((x.2.zip ixs).map (fun y =>
              match y.1.2.2.loc y.1.1 with
              | .here pa => s.physRead pa y.1.2.1
              | .far _ _ _ => ((got y.2).map Arrived.bytes).getD [])).flatten
            (s', .slot (slotOfBytes bytes (if anyBad bytes then none else some src)))

/-- TRANSOM_REFETCH of the slot that a gang's MWLD waits for. -/
def execTransomRefetch (core : BitVec 9) (slot : BitVec 6) (s : State) : Host.Outcome State Fault Refusal :=
  alive s (fun s =>
    match s.gang? core.toNat slot.toNat with
    | none => s
    | some g =>
      match g.stat with
      | .waiting (.refetch t) =>
        match (s.slotOf g.core g.launch t).src with
        | none => s.putGang g.ready
        | some src =>
          let den (tag : BitVec 20) (va : Nat) : Denial :=
            { ctx := s.ctxOf g.launch, wid := g.widOf g.lowLive, key := src.2, tag := tag, core := g.core, agent := g.slot, write := false
              pcofs := (g.pc - s.entryOf g).setWidth 32, va := va, cyc := s.cyc g.core }
          match s.refetch g.launch g.core g.slot t src den with
          | (s, .wait) => s
          | (s, .slot x) => (s.setSlot g.core g.launch t x).putGang g.ready
          | (s, .lost) => ((s.setSlot g.core g.launch t {}).countAt g.place .transomRefetchFailed).putGang g.ready
          | (s, .fault l) => s.parkGang g (.refetch t) g.replay (s.faultRecs g 5 (l.map (fun f => { f with lane := g.lowLive })))
      | _ => s)

/- Saving (R335) -/

/-- A crew that can be reported saved: its instructions, their results (R57), its array work and its accesses are done (R307, R335). -/
def State.quiet (s : State) (crew : Nat) : Bool :=
  (s.crewGangs crew).all (fun g => decide (g.endPend.notBefore ≤ s.cyc g.core) && g.busy.isEmpty && !g.ops.any (fun o => !o.done && o.cls != .cp) && !s.farOf g.core g.slot) &&
    !s.cores.any (fun k => k.2.streams.any (fun x => x.crew == crew)) &&
    s.ctxs.all (fun x => x.2.crew != crew || !s.ctxFar (x.1 / 16) (x.1 % 16))

/-- A gang as it is saved: a wait that is checked again after the restore is left (R101, R279, R280); pending results have arrived, and what peers have
answered stays with it, so that no access is made twice (R301, R307). -/
def Gang.toSave (g : Gang) : Gang :=
  let stat : Stat := match g.stat with
    | .waiting (.crewBarrier p) => .waiting (.crewBarrier p)
    | .waiting (.launchBarrier p) => .waiting (.launchBarrier p)
    | .parked (.deadlock (some p)) => .waiting (.crewBarrier p)
    | .stopped => .stopped
    | .ended => .ended
    | _ => .ready
  { g.noTokens with stat := stat, pend := [], granted := false, checked := false, mismatch := false, notBefore := 0 }

/-- The save image's slots: the source record of a clean slot, the image of every other (R161). -/
def State.imageSlots (s : State) (core launch : Nat) : Tab Slot :=
  (((s.lease? core launch).map (·.slots)).getD []).map (fun x => (x.1, if x.2.src.isSome then { src := x.2.src } else x.2))

/-- Saves a crew and releases what it held (R161, R335, R346). DESIGN CHOICE (log 127): a retired crew gives up its scratch for good, returns to no core, and commits
from its image. -/
def State.saveCrew (s : State) (crew : Nat) (c : Crew) : State :=
  let gangs := s.crewGangs crew
  let slots := gangs.map (·.slot)
  let k := s.core c.core
  let served := match k.run with | some r => r.stop.ofGang && !r.resolved && slots.contains r.stop.agent | none => false
  let mine (x : Stop) : Bool := x.ofGang && slots.contains x.agent
  let stops := (match k.run with | some r => if served then [r.stop] else [] | none => []) ++ k.stops.filter mine
  let k := { k.forgetWaiters crew with stops := k.stops.filter (fun x => !mine x), run := if served then none else k.run }
  let image := s.imageSlots c.core c.launch
  let s' := { s with
    gangs := s.gangs.filter (fun x => !(x.2.crew == crew && x.2.slot != 32) && !(served && x.1 == gkey c.core 32))
    ctxs := s.ctxs.filter (fun x => x.2.crew != crew) }
  let saved := if c.stat = .retired then { c with freed := true, scratch := {} }
    else { c with
      stat := .saved, saved := (gangs.filter (fun g => g.stat != .ended)).map Gang.toSave
      savedCtx := (s.ctxs.filter (fun x => x.2.crew == crew)).map (fun x => { x.2 with park := none })
      savedStops := stops, savedSlots := image }
  ((((s'.forgetFar c.core (if served then Config.handlerSlot :: slots else slots) []).putCore c.core k).putCrew crew saved).settle c.core).dropLease c.core c.launch

def execCrewSaveComplete (crew : Nat) (s : State) : Host.Outcome State Fault Refusal :=
  alive s (fun s =>
    match s.crew? crew with
    | none => { s with preCrews := s.preCrews.filter (· != crew) }.preDone
    | some c =>
      if s.preCrews.contains crew && s.quiet crew then
        let s := s.readCrew crew c.core
        let s := s.saveCrew crew ((s.crew? crew).getD c)
        { s with preCrews := s.preCrews.filter (· != crew), preSaved := s.preSaved + 1 }.preDone
      else s)

/- Restoring (R161, R162) -/

/-- Blocks of the saved gangs. -/
def Crew.savedBlocks (c : Crew) (p : Packet) : Nat := (c.saved.map (fun g => blocksFor g.n p.shadow)).foldl (· + ·) 0

/-- `$wid` of lane 0 of a crew's gang 0: its work identifier, or its first event's serial number (R78, R217, R372). -/
def Crew.firstWid (c : Crew) (p : Packet) : DWord :=
  if p.mode = 2 then ((c.events.head?).map (·.ev.serial)).getD 0 else widOf p c.band c.inBand 0 0
def State.firstWid (s : State) (c : Crew) : DWord := ((s.launch? c.launch).map (fun l => c.firstWid l.pkt)).getD 0

/-- The record of a crew that awaits a refetch (R217, R162). -/
def State.crewFault (s : State) (c : Crew) (core : Nat) (l : List LaneFault) : State :=
  (faultPages l).foldl (fun s f => s.postFault
    { ctx := s.ctxOf c.launch, wid := s.firstWid c, kind := 5, cause := f.cause, agent := 80, core := core, pc := 0, va := f.va }) s

/-- What refetching the clean slots of a save image comes to. -/
inductive Refilled where
  | done (s : State)
  | fault (s : State) (slot : Nat) (l : List LaneFault)
  | wait (s : State)
  deriving DecidableEq, Repr

/-- The outcome of a slot's refetch stays with the save image, and is not asked for again (R162). -/
def State.refilledSlot (s : State) (key t : Nat) (x : Slot) : State :=
  s.modCrew key (fun c => { c with savedSlots := Tab.set c.savedSlots t x, refilled := c.refilled ++ [t] })

/-- Refetches the clean slots of a save image in ascending order (R161, R162). DESIGN CHOICE (log 117): the record of a denial names the crew's first work
identifier, and PCOFS 0. -/
def refill (key : Nat) (c : Crew) (core : Nat) : Tab Slot → State → Refilled
  | [], s => .done s
  | (t, x) :: r, s =>
    match x.src, c.refilled.contains t with
    | some src, false =>
      let den (tag : BitVec 20) (va : Nat) : Denial :=
        { ctx := s.ctxOf c.launch, wid := s.firstWid c, key := src.2, tag := tag
          core := core, agent := 80, write := false, pcofs := 0, va := va, cyc := s.cyc core }
      match s.refetch c.launch core 80 t src den with
      | (s, .slot y) => refill key c core r (s.refilledSlot key t y)
      | (s, .lost) => refill key c core r ((s.refilledSlot key t {}).countAt (.core core) .transomRefetchFailed)
      | (s, .fault l) => .fault s t l
      | (s, .wait) => .wait s
    | _, _ => refill key c core r s

/-- A plane reloaded from its slot at a restore; an empty image, or one whose format is none, leaves it empty (R161, R172). DESIGN CHOICE (log 89): an image
of WFMT 1 or 2 whose groups of four slices differ, which MWLD would not load, is loaded; symbols that have become uncorrectable in a clean slot since poison
their columns, with no refetch and no count. -/
def reloadPlane (x : Slot) (p : Plane) : Option Plane :=
  let f := formatWord x.img
  if f = 0 ∨ !wfmtOk f then none else some { p with img := x.img, wfmt := f, bad := badColumns x.lost }

/-- The planes of a restored crew: those that stood for their slot are reloaded from it (R161). -/
def State.reloadPlanes (s : State) (c : Crew) (core : Nat) : Tab Plane :=
  c.planes.filterMap (fun p => if p.2.fresh then (reloadPlane (s.slotOf core c.launch p.2.slot) p.2).map (fun q => (p.1, q)) else some p)

/-- A gang back on a core: its slot is new, and a barrier phase that has moved lets it go on. -/
def State.backGang (s : State) (c : Crew) (core slot : Nat) (shadowSlot : Option Nat) (g : Gang) : Gang :=
  let cyc := s.cyc core
  let moved : Bool := match g.stat with
    | .waiting (.crewBarrier p) => c.bar.phase != p
    | .waiting (.launchBarrier p) => ((s.launch? c.launch).map (·.bar.phase)).getD 0 != p
    | _ => false
  { g with core := core, slot := slot, shadowSlot := shadowSlot, stat := if moved == true then .ready else g.stat, since := cyc, notBefore := cyc }

/-- Puts a saved crew on a core that fits it; its stops enter the core's queue afresh (R346). -/
def State.backCrew (s : State) (key : Nat) (c : Crew) (p : Packet) (core : Nat) : State :=
  let free := s.freeSlots core
  let w := if p.shadow then 2 else 1
  let had := (s.lease? core c.launch).isSome
  let s := (s.takePart core p.part).allotLease core c.launch p.tlease
  let s := if had then s else c.savedSlots.foldl (fun s x => s.setSlot core c.launch x.1 x.2) s
  let s := s.putCrew key { c with
    core := core, stat := .running, planes := s.reloadPlanes c core, saved := [], savedCtx := [], savedSlots := [], refilled := [], savedStops := [] }
  let put := (c.saved.zip (List.range c.saved.length)).map (fun x => (x.1.slot, s.backGang c core (free.getD (w * x.2) 0) (if p.shadow then free[w * x.2 + 1]? else none) x.1))
  let newSlot (old : Nat) : Nat := ((put.find? (fun y => y.1 == old)).map (·.2.slot)).getD old
  let s := put.foldl (fun s y => s.putGang y.2) s
  let ids := (List.range Config.contexts).filter (fun i => (s.ctx? core i).isNone)
  let s := (c.savedCtx.zip ids).foldl (fun s y => s.putCtx core y.2 { y.1 with slot := newSlot y.1.slot }) s
  s.modCore core (fun k => { k with stops := k.stops ++ c.savedStops.map (fun x => { x with agent := newSlot x.agent }) })

/-- A saved crew can go back to a core: it fits, the core has contexts for it, and no restore awaits there. -/
def State.fitsBack (s : State) (c : Crew) (p : Packet) (core : Nat) : Bool :=
  s.fits c.launch p (c.savedBlocks p) core && (s.core core).awaits.isNone &&
    decide (c.savedCtx.length ≤ ((List.range Config.contexts).filter (fun i => (s.ctx? core i).isNone)).length)

/-- Puts a saved crew back on the first core of a cluster that fits it. -/
def State.backOne (s : State) (key cluster : Nat) : Option (State × Nat) :=
  match s.crew? key with
  | none => none
  | some c =>
    match s.launch? c.launch with
    | none => none
    | some l =>
      (((List.range 64).map (fun i => cluster * 64 + i)).find? (s.fitsBack c l.pkt)).map (fun core => (s.backCrew key c l.pkt core, core))

/-- The cores of a cluster to which the saved crews of a band go, each fitting beside those before it; none when they do not all fit (R12, R74). -/
def State.planBand (s : State) (cluster : Nat) : List Nat → Option (List (Nat × Nat))
  | [] => some []
  | k :: r =>
    match s.backOne k cluster with
    | none => none
    | some (s, core) => (State.planBand s cluster r).map ((k, core) :: ·)

/-- How the restoring of a band ends: its crews are back, it is held by a refetch, or it fits nowhere. -/
inductive Back where
  | done (s : State)
  | held (s : State)
  | none_
  deriving DecidableEq, Repr

/-- Refetches what the crews of a plan need on cores where their launch has no lease (R161, R162), then puts all of them back. A crew that another of the
plan goes before to the same core finds the lease that this one brings. -/
def State.restorePlan (s : State) (plan : List (Nat × Nat)) : List Nat → List (Nat × Nat) → Back
  | _, [] =>
    .done (plan.foldl (fun s x =>
      match s.crew? x.1 with
      | some c => (match s.launch? c.launch with | some l => s.backCrew x.1 c l.pkt x.2 | none => s)
      | none => s) s)
  | leased, (k, core) :: r =>
    match s.crew? k with
    | none => .none_
    | some c =>
      if (s.lease? core c.launch).isSome || leased.contains core then State.restorePlan s plan leased r
      else
        match refill k c core c.savedSlots s with
        | .done s => State.restorePlan s plan (core :: leased) r
        | .wait s => .held s
        | .fault s t f => .held ((s.crewFault c core f).modCore core (fun x => { x with awaits := some (k, t) }))

/-- The saved crews of a crew's band, when none of the band is still being saved or awaits a RESOLVE. -/
def State.savedBand (s : State) (c : Crew) : List Nat :=
  let band := s.bandCrews c.launch c.band
  if band.any (fun x => s.preCrews.contains x.1) || s.cores.any (fun k => match k.2.awaits with | some a => band.any (fun x => x.1 == a.1) | none => false) then []
  else (band.filter (fun x => x.2.stat == .saved)).map (·.1)

/-- Where the saved crews of a crew's band can go back to, all of them in one cluster. -/
def State.bandPlan (s : State) (c : Crew) : Option (List (Nat × Nat)) :=
  match s.savedBand c with
  | [] => none
  | l => firstSome (fun k => s.planBand k l) (s.bandClusters c.launch c.band)

/-- CREW_RESTORE: a pre-empted crew returns with its band, as a whole (R12). -/
def execCrewRestore (crew : Nat) (s : State) : Host.Outcome State Fault Refusal :=
  alive s (fun s =>
    match s.crew? crew with
    | none => s
    | some c =>
      if c.stat ≠ .saved then s
      else
        match s.bandPlan c with
        | none => s
        | some plan =>
          match s.restorePlan plan [] plan with
          | .done s => s
          | .held s => s
          | .none_ => s)

/-- Some pre-empted crew could be restored now: that goes before new admissions (R329). -/
def State.canRestore (s : State) : Bool := s.crews.any (fun x => x.2.stat == .saved && (s.bandPlan x.2).isSome)

/-- ADMIT_BAND (R329): one admission step. -/
def State.admitStep (s : State) : State :=
  if s.canRestore then s
  else ((firstSome (fun x => if s.shutOut x.1 x.2 then none else s.admitNext x.1) s.byPriority)).getD s

def execAdmitBand (s : State) : Host.Outcome State Fault Refusal := alive s State.admitStep

/-- The cycles since which the next band of a launch, and its crews that run again, have waited for admission. -/
def State.pendingFrom (s : State) (k : Nat) (l : Launch) : List Nat :=
  if l.done || l.overflow then []
  else (s.requeued k).map (·.2.queuedAt) ++ (if l.pkt.mode != 2 && decide (l.nextBand < l.pkt.bandCount) then [l.pendingSince] else [])

/-- BAND_BLOCKING: a band that has waited 2^20 cycles (R329). -/
def execBandBlocking (s : State) : Host.Outcome State Fault Refusal :=
  alive s (fun s => { s with launches := s.launches.map (fun x =>
    if (s.pendingFrom x.1 x.2).any (fun t => decide (t + 2 ^ 20 ≤ s.clock)) then (x.1, { x.2 with blocking := true }) else x) })

/- Retirement and commit -/

/-- Every gang has exited, every copy context has ended, and no MMUL of the crew streams, whose token must not outlast it (R184); in PHASED and SPAN modes no
operation is outstanding either (R84, R92). -/
def State.mayRetire (s : State) (crew : Nat) (c : Crew) : Bool :=
  c.stat == .running && c.live == 0 && !s.ctxs.any (fun x => x.2.crew == crew) && !(s.core c.core).streams.any (fun x => x.crew == crew) &&
    (((s.launch? c.launch).map (·.pkt.mode)).getD 0 == 0 || (s.crewGangs crew).isEmpty)

/-- The effect log is written: each of the LOGLEN bytes at LOGBASE is a free value, translated in the launch's context (R77). DESIGN CHOICE (log 121): they change
when a crew that holds log space retires, and a log that cannot be reached leaves memory as it is. -/
def State.writeLog (s : State) (l : Launch) : State :=
  ((s.hostPieces (l.q / 4) l.pkt.logbase l.pkt.loglen true).getD []).foldl
    (fun s p => { s with nextId := s.nextId + 1 }.engineBytes p.1 ((List.range p.2).map (Config.logByte s.nextId))) s

/-- The crew can commit next: it is the lowest uncommitted one of a PHASED launch, or every other crew of a SPAN launch's span has retired (R84, R380). -/
def State.commitsNext (s : State) (crew : Nat) (c : Crew) : Bool :=
  match ((s.launch? c.launch).map (·.pkt.mode)).getD 0 with
  | 1 => (s.uncommitted c.launch).head? == some crew
  | _ => (s.uncommitted c.launch).all (fun k => k == crew || ((s.crew? k).map (fun x => x.stat == .retired)).getD true)

/-- A retired crew that is not the next to commit moves its buffer into the log, of which its launch uses `used` bytes, and releases its scratch, if the log has
the space (R84). -/
def State.moveToLog (s : State) (next : Bool) (used crew : Nat) (c : Crew) : State :=
  match s.launch? c.launch with
  | none => s
  | some l =>
    let all := effBytes c.effects
    let s := if used - c.inLog + all ≤ l.pkt.loglen && !next then
        (s.readEffects crew (fun _ => true)).modCrew crew (fun c => { c with inLog := all, freed := true, scratch := {} })
      else s
    if ((s.crew? crew).map (·.inLog)).getD 0 = 0 then s else s.writeLog l

/-- The crews that R87 holds back wait for admission from now on: the lowest uncommitted crew of their launch has committed, or, in a SPAN launch, where nothing
commits before every crew has retired, it has retired (log 42). -/
def State.releaseHeld (s : State) (launch : Nat) : State :=
  { s with crews := s.crews.map (fun x =>
      if x.2.launch == launch && x.2.afterLowest then (x.1, { x.2 with afterLowest := false, queuedAt := s.clock }) else x) }

/-- CREW_RETIRE (R84, R92, R163). -/
def State.retire (s : State) (crew : Nat) (c : Crew) : State :=
  let mode := ((s.launch? c.launch).map (·.pkt.mode)).getD 0
  let lowest := s.lowest? c.launch == some crew
  let used := s.logUsed c.launch
  let next := s.commitsNext crew c
  let vacated := s.preCrews.contains crew
  let s := s.modCore c.core (fun k => k.forgetWaiters crew)
  let s := if mode = 0 then s.putCrew crew { c with stat := .committed, freed := true, scratch := {}, tiles := [], planes := [] }
    else (s.putCrew crew { c with stat := .retired, tiles := [], planes := [] }).moveToLog next used crew { c with stat := .retired, tiles := [], planes := [] }
  let s := if mode = 2 && lowest then s.releaseHeld c.launch else s
  let gone := ((s.crew? crew).map (fun c => !c.vacates)).getD true
  let s := if gone then { s with preCrews := s.preCrews.filter (· != crew) }.preDone else s
  let s := if gone && vacated then s.dropLease c.core c.launch else s
  s.settle c.core

def execCrewRetire (crew : Nat) (s : State) : Host.Outcome State Fault Refusal :=
  alive s (fun s =>
    match s.crew? crew with
    | none => s
    | some c => if s.mayRetire crew c then s.retire crew c else s)

/-- What the commit engine checks of buffered VSTVs, in buffer order: each against the version current when its turn comes (R88, R380). -/
inductive Check where
  | good
  | mismatch
  | wait
  deriving DecidableEq, Repr

/-- Asks peers for the versions of far lines, numbered by their place in the buffer. -/
def State.askVersions (s : State) (launch : Nat) (l : List (Nat × Eff)) : State :=
  let have_ := ((s.launch? launch).map (·.checks)).getD []
  l.foldl (fun s x =>
    match x.2.kind with
    | .vstv (.far p va tag) _ _ =>
      if have_.any (fun a => a.lane == x.1) || s.far.any (fun f => f.what == .check launch x.1) then s
      else s.sendFar p (s.ctxOf launch) x.2.keys tag va va.toNat .vload (.check launch x.1)
    | _ => s) s

def State.versionAt (s : State) (launch : Nat) (l : List (Nat × Eff)) (ix : Nat) (loc : Loc) : Option (BitVec 16) :=
  let before := (l.filter (fun x => decide (x.1 < ix))).map (·.2)
  match loc with
  | .here pa => some (viewVer Loc.here? (s.verOf pa) before pa)
  | .far p va _ =>
    ((((s.launch? launch).map (·.checks)).getD []).find? (fun a => a.lane == ix)).map (fun a =>
      viewVer (Loc.farAt? p) (BitVec.ofNat 16 (ofLeBytes ((a.data.getD []).drop 128))) before va.toNat)

def State.checkVersions (s : State) (launch : Nat) (l : List (Nat × Eff)) : Check :=
  l.foldl (fun acc x =>
    match acc, x.2.kind with
    | .good, .vstv loc _ want =>
      match s.versionAt launch l x.1 loc with
      | none => .wait
      | some v => if v = want then .good else .mismatch
    | acc, _ => acc) .good

def numbered (l : List Eff) : List (Nat × Eff) := (List.range l.length).zip l

/-- A commit's version checks are over: what peers have answered, or answer later, serves no other check (R88, R380). -/
def State.endChecks (s : State) (launch : Nat) : State :=
  { s with far := s.far.filter (fun f => match f.what with | .check n ix => n != launch || decide (refetchBase ≤ ix) | _ => true) }.modLaunch launch
    (fun l => { l with checks := l.checks.filter (fun a => decide (refetchBase ≤ a.lane)) })

/-- Memory behind an effect is ready. -/
def State.effReady (s : State) (e : Eff) : Bool :=
  match e.kind with
  | .store (.here a) _ | .atm (.here a) _ _ _ _ | .redx (.here a) _ _ _ | .xclr (.here a) | .vstv (.here a) _ _ => s.memReady a
  | _ => true

/-- An effect of the launch's commits on a page with ORD = 1 that a peer has not answered stands before this one, which is on such a page too (R301). They go one
at a time over the whole launch, and not gang by gang (log 111). -/
def State.commitWaits (s : State) (launch : Nat) (e : Eff) : Bool := e.ord && s.far.any (fun f => f.ord && f.what.commitOf == some launch)

/-- One effect applied to memory, or sent to its owner (R82, R398); a lost one poisons what it would have written (log 112). `entry` is the ENTRY of the crew's
program, and `rerun` says that the crew is a re-run. Events are the span engine's. -/
def State.applyEff (s : State) (launch : Nat) (entry : VAddr) (rerun : Bool) (e : Eff) : State :=
  let far (s : State) (p : BitVec 6) (va : VAddr) (tag : BitVec 20) (op : FarOp) : State :=
    s.sendFar p (s.ctxOf launch) e.keys tag va va.toNat op (.commit e.wid e.pc entry launch rerun) e.ord
  match e.kind with
  | .store (.here a) d => if e.bad then s.plainWrite a (e.data d) else s.memWrite a (clean d)
  | .store (.far p va tag) d => far s p va tag (.store d (if e.bad then d.map (fun _ => true) else []))
  | .atm (.here a) op t c x =>
    match atmBytes (s.physRead a t.bytes) op t c.toNat x.toNat with
    | some l => s.memWrite a l
    | none => s
  | .atm (.far p va tag) op t c x => far s p va tag (.atm op t c x)
  | .redx (.here a) t c x => s.memWrite a (redxBytes (s.physRead a 128) t c.toNat (x.map (·.toNat)))
  | .redx (.far p va tag) t c x => far s p va tag (.redx t c x)
  | .xclr (.here a) => s.memWrite a (clean Xa.zero.bytes)
  | .xclr (.far p va tag) => far s p va tag (.store Xa.zero.bytes)
  | .vstv (.here a) d v => (s.memWrite a (clean d)).setVer a (v + 1)
  | .vstv (.far p va tag) d v => far s p va tag (.vstore d v)
  | .evs _ => s
  | .evc _ _ => s
  | .space => s

/-- Effects are applied in buffer order, as far as their turns on pages with ORD = 1 let them; how many have been is counted on from `n` (R84, R301). -/
def applyInOrder {α : Type} (st : α → State) (launch : Nat) (f : α → Eff → α) : List Eff → Nat → α → α × Nat
  | [], n, x => (x, n)
  | e :: r, n, x => if (st x).commitWaits launch e then (x, n) else applyInOrder st launch f r (n + 1) (f x e)

/-- The crew's commit goes on: it has committed once all its effects are applied, and gangs that wait for commits look again when none is under way (R84, R303). -/
def State.commitCrew (s : State) (launch k : Nat) (c : Crew) : State :=
  let n := c.applied.getD 0
  let y := applyInOrder id launch (fun s x => s.applyEff launch c.entry (c.rc != 0) x) (c.effects.drop n) n s
  if y.2 < c.effects.length then y.1.putCrew k { c with applied := some y.2 }
  else
    (((y.1.putCrew k { c with stat := .committed, effects := [], applied := none, inLog := 0, scratch := {}, freed := true }).releaseHeld launch).settle
      c.core).wakeCommitted

/-- CREW_COMMIT (R84, R303): the lowest uncommitted crew of a PHASED launch commits, or is aborted by a version (R88). The versions are checked, and the buffer
is read (R107), before its first effect is applied. -/
def execCrewCommit (launch : Nat) (s : State) : Host.Outcome State Fault Refusal :=
  alive s (fun s =>
    match s.launch? launch, (s.uncommitted launch).head? with
    | some l, some k =>
      match s.crew? k with
      | none => s
      | some c =>
        let e := numbered c.effects
        if l.pkt.mode ≠ 1 ∨ c.stat ≠ .retired ∨ s.preCrews.contains k ∨ !c.effects.all s.effReady then s
        else if c.applied.isSome then s.commitCrew launch k c
        else
          let asked := s.askVersions launch e
          match asked.checkVersions launch e with
          | .wait => asked
          | .mismatch => (asked.endChecks launch).abortCrew k
          | .good =>
            let s := (asked.endChecks launch).readEffects k (fun _ => true)
            s.commitCrew launch k ((s.crew? k).getD c)
    | _, _ => s)

/- Register blocks (R76, R124, R125) -/

/-- The oldest of some gangs by an order. -/
def eldest (f : Gang → Nat) (l : List Gang) : Option Gang := l.find? (fun g => l.all (fun o => decide (f g ≤ f o)))

/-- The gang whose registers a request is for: the requester, or the handler's selected gang (R349). -/
def State.growTarget (s : State) (g : Gang) : Option Gang :=
  if g.isHandler then ((s.core g.core).run.bind (·.sel)).bind (s.gang? g.core) else some g

/-- REGISTER_GRANT: the oldest request, if it fits; its RGROW then completes with the granted count (R123, R124). -/
def execRegisterGrant (core : BitVec 9) (s : State) : Host.Outcome State Fault Refusal :=
  alive s (fun s =>
    match eldest (·.age) (s.growers core.toNat) with
    | none => s
    | some g =>
      match g.growTo, s.growTarget g with
      | some t, some h =>
        if s.canGrow h t then
          let s := s.putGang { h with n := max h.n t }
          s.modGang g.core g.slot Gang.ready
        else s
      | _, none => s.putGang g.ready
      | none, _ => s)

/-- Gangs that the deadlock rule counts: resident and unparked. -/
def State.unparked (s : State) (core : Nat) : List Gang :=
  (s.coreGangs core).filter (fun g => match g.stat with | .parked _ => false | .restoring => false | .ended => false | _ => true)

def Gang.deadlockWait (g : Gang) : Bool :=
  match g.stat with
  | .waiting (.grow _) => true
  | .waiting (.crewBarrier _) => true
  | _ => false

/-- The oldest request of a core can be granted. -/
def State.canGrant (s : State) (core : Nat) : Bool :=
  match eldest (·.age) (s.growers core) with
  | none => false
  | some g =>
    match g.growTo, s.growTarget g with
    | some t, some h => s.canGrow h t
    | _, _ => false

/-- The oldest request of a core on which every unparked gang waits in RGROW or at a crew barrier, when it does not fit (R125). -/
def State.stuckOn (s : State) (core : Nat) : Option Gang :=
  match eldest (·.age) (s.growers core) with
  | none => none
  | some old => if (s.unparked core).all Gang.deadlockWait && !old.isHandler && !s.canGrow old (old.growTo.getD 0) then some old else none

/-- REGISTER_DEADLOCK_PARK (R125). -/
def execRegisterDeadlockPark (core : BitVec 9) (s : State) : Host.Outcome State Fault Refusal :=
  alive s (fun s =>
    match s.stuckOn core.toNat with
    | none => s
    | some old =>
      let young := ((s.unparked core.toNat).filter (fun g => g.slot != old.slot)).reverse
      match young.find? (fun g => young.all (fun o => decide (o.age ≤ g.age))) with
      | some g =>
        let phase := match g.stat with | .waiting (.crewBarrier p) => some p | _ => none
        (s.countAt g.place .rgrowParks).parkGang g (.deadlock phase) g.replay []
      | none => s)

/-- A parked gang that the slot manager may restore: one released by RESOLVE, or one that the deadlock rule parked, unless that rule is still making room for a
request, or has made it and the request is to be granted (R124, R125, R218, log 90). -/
def State.restorable (s : State) (g : Gang) : Bool :=
  match g.stat with
  | .restoring => true
  | .parked (.deadlock _) => (s.stuckOn g.core).isNone && !s.canGrant g.core
  | _ => false

/-- Its footprint fits (R76, R124, log 52). -/
def State.fitsAgain (s : State) (g : Gang) : Bool := decide (blocksFor g.n (s.shadowed g.launch) ≤ s.freeBlocks g.core)

/-- GANG_RESTORE: of the gangs that fit, the oldest by park time (R76, R124). Nothing of it is pending any longer (R57). DESIGN CHOICE (log 52): of gangs parked in
one cycle, the one in the lowest slot. -/
def execGangRestore (core : BitVec 9) (s : State) : Host.Outcome State Fault Refusal :=
  alive s (fun s =>
    match eldest (·.parkedAt) ((s.coreGangs core.toNat).filter (fun g => s.restorable g && s.fitsAgain g)) with
    | none => s
    | some g =>
      let g := { g with pend := [] }
      match g.stat with
      | .parked (.deadlock (some p)) =>
        if ((s.crew? g.crew).map (·.bar.phase)).getD 0 = p then s.putGang { g with stat := .waiting (.crewBarrier p) } else s.putGang (s.anew g)
      | _ => s.putGang (s.anew g))

/- Tokens and streams (R176, R185) -/

def State.lastGrant (s : State) (die : Nat) : Nat := if die = 0 then s.lastGrant0 else s.lastGrant1

/-- A token for a shuttered gang, or else for its shadow (R183, R356); it is ready from the next cycle. -/
def Gang.takeToken (g : Gang) (cyc : Nat) : Gang :=
  if g.stat = .waiting .token then { g with token := true, stat := .ready, notBefore := cyc + 1 }
  else { g with shadow := g.shadow.map (fun x => { x with token := true, shuttered := false }) }

/-- TOKEN_GRANT on a die (R185). -/
def execTokenGrant (die : Bool) (s : State) : Host.Outcome State Fault Refusal :=
  alive s (fun s =>
    let d := die.toNat
    let want (c : Nat) : List Gang := (s.shuttered c ++ s.shadowsShuttered c).filter (fun g => !s.preCrews.contains g.crew)
    let order := (List.range 256).map (fun i => d * 256 + (s.lastGrant d + 1 + i) % 256)
    if s.pool d ≤ s.tokensOut d then s
    else
      match order.find? (fun c => !(want c).isEmpty && decide (s.coreHeld c < 2)) with
      | none => s
      | some c =>
        match eldest (·.age) (want c) with
        | none => s
        | some g =>
          let s' := (s.countAt g.place .tokenGrants).putGang (g.takeToken (s.cyc c))
          if die then { s' with lastGrant1 := c % 256 } else { s' with lastGrant0 := c % 256 })

/-- Something still waits for the result. -/
def Busy.pending (b : Busy) : Bool := !b.refs.isEmpty || !b.hold.isEmpty

/-- MMUL_STREAM_END: the oldest stream of a core ends; its token returns, its activations may be written, and its plane may be loaded (R172, R176). -/
def execMmulStreamEnd (core : BitVec 9) (s : State) : Host.Outcome State Fault Refusal :=
  alive s (fun s =>
    let c := core.toNat
    match (s.core c).streams with
    | [] => s
    | x :: r =>
      let s := s.modCore c (fun k => { k with streams := r })
      let s := s.modGang c x.slot (fun g => { g with
        busy := (g.busy.map (fun b => if b.id = x.id then { b with hold := [] } else b)).filter Busy.pending })
      s.wake (fun g => g.core == c && (g.stat == .waiting .plane || (g.slot == x.slot && g.stat == .waiting .scoreboard))))

/- What the cards account as held (R77, R106, R166, R250) -/

/-- The counters that say how much of a thing is held now. -/
inductive Gauge where
  | gangSlotsBusy | gangSlotsReserved | poolUnitsReg | poolUnitsScr | poolUnitsAcc | regBlocksBusy | transomSlotsLeased | copyCtxBusy
  deriving DecidableEq, Repr

/-- What they read on a core (log 92). -/
def State.gauge (s : State) (core : Nat) : Gauge → Nat
  | .gangSlotsBusy => (s.usedSlots core).length
  | .gangSlotsReserved => ((s.coreGangs core).filter (fun g => match g.stat with | .parked _ => true | .restoring => true | _ => false)).length
  | .poolUnitsReg => bitField ((s.core core).part.getD 0).toNat 7 0
  | .poolUnitsScr => bitField ((s.core core).part.getD 0).toNat 15 8
  | .poolUnitsAcc => 5 * bitField ((s.core core).part.getD 0).toNat 23 16
  | .regBlocksBusy => s.usedBlocks core
  | .transomSlotsLeased => s.leasedSlots core
  | .copyCtxBusy => ((List.range Config.contexts).filter (fun i => (s.ctx? core i).isSome)).length

/-- EFFECT_LOG_USED of a launch, in units of 16 bytes (R77). -/
def State.effectLogUsed (s : State) (launch : Nat) : Nat := s.logUsed launch / 16

end Sys2Proof.Machine
end

