-- ==== Sys2Proof/Machine/CopyClass.lean ====
section
/-! DEFINITION. The copy-class instructions of a copy processor (R265 to R272). -/
namespace Sys2Proof.Machine

/-- How a copy-class instruction ends. -/
inductive KRes where
  | ok (s : State) (c : CopyCtx)
  | jump (s : State) (c : CopyCtx) (pc : VAddr)
  | fault (ecode : Nat)
  /-- the context issues it again later -/
  | again (s : State)
  deriving DecidableEq, Repr

def CopyCtx.kGet (c : CopyCtx) (n : BitVec 4) : DWord := Store.get c.k n.toNat
def CopyCtx.kSet (c : CopyCtx) (n : BitVec 4) (x : DWord) (bad : Bool := false) : CopyCtx :=
  { c with k := Store.set c.k n.toNat x, kp := Store.set c.kp n.toNat (BitVec.ofBool bad) }

/-- A scalar operand of R65. -/
def CopyCtx.src (c : CopyCtx) (lit : Option DWord) (x : KSc) : DWord :=
  match x with
  | .k n => c.kGet n
  | .lit => lit.getD 0
  | .imm i => BitVec.ofInt 64 ((i.toNat : Int) - 64)

def CopyCtx.bad (c : CopyCtx) (x : KSc) : Bool :=
  match x with
  | .k n => Store.get c.kp n.toNat != 0
  | _ => false

/-- The context may issue: it runs, is not parked, its crew is not being saved, and no XCOPYV owes it a status. -/
def State.copyReady (s : State) (c : CopyCtx) : Bool :=
  c.program && c.stat == .running && c.park.isNone && !s.preCrews.contains c.crew && !c.rows.any (·.versioned.isSome)

/-- Executes a copy-class instruction at the current context. -/
def runCopy (i : Instr) (srcs : List KSc) (s : State) (body : State → Nat → Nat → CopyCtx → KRes) : Host.Outcome State Fault Refusal :=
  match s.cur with
  | some (.copy core ix) =>
    match s.ctx? core ix with
    | none => .fault .noAgent
    | some c =>
      if !s.copyReady c then .next s
      else if srcs.any c.bad then .next (s.copyFault core ix c 12)
      else
        match body s core ix c with
        | .ok s c => .next (s.putCtx core ix { c with pc := c.pc + BitVec.ofNat 57 (shape i).len })
        | .jump s c pc => .next (s.putCtx core ix { c with pc := pc })
        | .fault e => .next (s.copyFault core ix c e)
        | .again s => .next s
  | _ => .fault .noAgent

def CopyCtx.jumpTo (c : CopyCtx) (ofs : Word) : VAddr := c.pc + BitVec.ofInt 57 ofs.toInt

/- Registers (R266) -/

def kAlu (i : Instr) (d : BitVec 4) (lit : Option DWord) (a b : KSc) (f : DWord → DWord → DWord) (s : State) : Host.Outcome State Fault Refusal :=
  runCopy i [a, b] s (fun s _ _ c => .ok s (c.kSet d (f (c.src lit a) (c.src lit b))))

def execKmov (h : SH) (d : BitVec 4) (a : KSc) (s : State) : Host.Outcome State Fault Refusal :=
  runCopy (.kmov h d a) [a] s (fun s _ _ c => .ok s (c.kSet d (c.src h.lit a)))
def execKadd (h : SH) (d : BitVec 4) (a b : KSc) (s : State) : Host.Outcome State Fault Refusal :=
  kAlu (.kadd h d a b) d h.lit a b (· + ·) s
def execKsub (h : SH) (d : BitVec 4) (a b : KSc) (s : State) : Host.Outcome State Fault Refusal :=
  kAlu (.ksub h d a b) d h.lit a b (· - ·) s
def execKmul (h : SH) (d : BitVec 4) (a b : KSc) (s : State) : Host.Outcome State Fault Refusal :=
  kAlu (.kmul h d a b) d h.lit a b (· * ·) s

def kShl (a b : DWord) : DWord := if b.toNat < 64 then a <<< b.toNat else 0
def execKshl (h : SH) (d : BitVec 4) (a b : KSc) (s : State) : Host.Outcome State Fault Refusal :=
  kAlu (.kshl h d a b) d h.lit a b kShl s

def kShr (t : Fmt) (a b : DWord) : DWord :=
  if t = .i64 then (if b.toNat < 64 then a.sshiftRight b.toNat else if a.msb then BitVec.allOnes 64 else 0)
  else if b.toNat < 64 then a >>> b.toNat else 0
def execKshr (h : SH) (t : Fmt) (d : BitVec 4) (a b : KSc) (s : State) : Host.Outcome State Fault Refusal :=
  kAlu (.kshr h t d a b) d h.lit a b (kShr t) s

def execKand (h : SH) (d : BitVec 4) (a b : KSc) (s : State) : Host.Outcome State Fault Refusal :=
  kAlu (.kand h d a b) d h.lit a b (· &&& ·) s

/-- Conditions 0 to 5 of R54 on 64-bit values. -/
def kCond (t : Fmt) (c : Cond) (a b : DWord) : Bool :=
  let less (x y : DWord) : Bool := if t = .n64 then decide (x.toNat < y.toNat) else decide (x.toInt < y.toInt)
  match c with
  | .eq => a == b
  | .ne => a != b
  | .lt => less a b
  | .le => !less b a
  | .gt => less b a
  | .ge => !less a b
  | .un => false
  | .ord => false

def execKcmp (h : SH) (t : Fmt) (cc : Cond) (d : BitVec 4) (a b : KSc) (s : State) : Host.Outcome State Fault Refusal :=
  kAlu (.kcmp h t cc d a b) d h.lit a b (fun x y => if kCond t cc x y then 1 else 0) s

/- Control (R267) -/

def execKbr (h : SH) (a : KSc) (ofs : Word) (s : State) : Host.Outcome State Fault Refusal :=
  runCopy (.kbr h a ofs) [a] s (fun s _ _ c => if c.src h.lit a = 0 then .ok s c else .jump s c (c.jumpTo ofs))

def execKloop (st : BitVec 3) (d : BitVec 4) (ofs : Word) (s : State) : Host.Outcome State Fault Refusal :=
  runCopy (.kloop st d ofs) [.k d] s (fun s _ _ c =>
    let x := c.kGet d - 1
    if x = 0 then .ok s (c.kSet d x) else .jump s (c.kSet d x) (c.jumpTo ofs))

/-- Pays the owed arrival; a latch that cannot take it is left as it is (R275). -/
def State.payArrival (s : State) (c : CopyCtx) : State :=
  match c.owed, c.latch with
  | true, some o => if latchArrive (s.latch c.crew o) = 0 then s else s.rowLatch c { arrive := 1 }
  | _, _ => s

def execKend (st : BitVec 3) (s : State) : Host.Outcome State Fault Refusal :=
  runCopy (.kend st) [] s (fun s _ _ c => .ok (s.payArrival c) { c with owed := false, stat := .draining })

def execKarv (h : SH) (a b : KSc) (s : State) : Host.Outcome State Fault Refusal :=
  runCopy (.karv h a b) [a, b] s (fun s _ _ c =>
    let o := (c.src h.lit a).toNat
    let n := (c.src h.lit b).toNat
    let x := s.latch c.crew o
    if s.latchOut c.crew o || !latchValid x || decide (2 ^ 20 ≤ n) || decide (latchArrive x < n) then .fault 12
    else .ok (s.updLatch c.crew o { arrive := n }) c)

def execKprom (h : SH) (a b : KSc) (s : State) : Host.Outcome State Fault Refusal :=
  runCopy (.kprom h a b) [a, b] s (fun s core _ c =>
    let o := (c.src h.lit a).toNat
    if o % 8 ≠ 0 ∨ s.scratchOf c.crew < o + 8 then .fault 12
    else .ok (s.scratchWrite c.crew o (clean (leBytes 8 (BitVec.ofNat 64 (s.cyc core) + c.src h.lit b).toNat))) c)

/- Generators (R268) -/

/-- The element of a KLD, extended to 64 bits (R26, R268). -/
def kldVal (t : Fmt) (l : List PByte) : DWord := BitVec.ofInt 64 (if t.signed then signedOf t.bits (natOf l) else (natOf l : Int))

/-- KLD (R268). It waits for the context's earlier rows, whose bytes it must see (R270). -/
def kldBody (t : Fmt) (d : BitVec 4) (g : Gen) (s : State) (core ix : Nat) (c : CopyCtx) : KRes :=
  let done (s : State) (x : DWord) (bad : Bool) : KRes := .ok s { (c.kSet d x bad).stepGen g with arrived := [], failNext := false }
  let lost (u : LatchUpd) (s : State) : KRes := done (s.kldLatch c u) (BitVec.allOnes 64) false
  match c.gen? g with
  | none => .fault 9
  | some x =>
    if c.failNext then lost { failed := true, ecode := 3 } s
    else if !c.rows.isEmpty || s.ctxFar core ix then .again s
    else
      match x.here with
      | .scratch o =>
        if o < 0 ∨ (s.scratchOf c.crew : Int) < o + t.bytes then lost { failed := true, ecode := 4 } s
        else
          let l := s.scratchRead c.crew o.toNat t.bytes
          done s (kldVal t l) (anyBad l)
      | .global va =>
        let at_ : RowAt := { core := core, ix := ix, c := c, key := c.key, wid := c.wid, pcofs := c.pc.setWidth 32 }
        match at_.read s .kld 0 va.toNat t.bytes with
        | (s, .data l) => done s (kldVal t l) (anyBad l)
        | (s, .denied) => lost { denied := true } s
        | (s, .fail _) => lost { failed := true, ecode := 2 } s
        | (s, .parked) => .again s
        | (s, .wait) => .again s
      | _ => .fault 9

def execKld (st : BitVec 3) (t : Fmt) (d : BitVec 4) (g : Gen) (s : State) : Host.Outcome State Fault Refusal :=
  runCopy (.kld st t d g) [] s (kldBody (t.or .n64) d g)

/-- GSET (R252); a descriptor that holds poison is consumed as a `k` register is (R265). -/
def execGset (h : SH) (g : Gen) (a : KSc) (s : State) : Host.Outcome State Fault Refusal :=
  runCopy (.gset h g a) [a] s (fun s _ _ c =>
    let o := (c.src h.lit a).toNat
    if o % 8 ≠ 0 ∨ s.scratchOf c.crew < o + 48 then .fault 10
    else
      let l := s.scratchRead c.crew o 48
      if anyBad l then .fault 12
      else
        match genOfDesc (natOf l) with
        | some x => .ok s (c.setGen g x)
        | none => .fault 10)

def execGstep (st : BitVec 3) (d : BitVec 4) (g : Gen) (s : State) : Host.Outcome State Fault Refusal :=
  runCopy (.gstep st d g) [] s (fun s _ _ c =>
    match c.gen? g with
    | none => .fault 9
    | some x => .ok s ((c.setGen g x.step.1).kSet d (BitVec.ofNat 64 x.step.2)))

/- Transfers (R269) -/

def rowLenBad (n : Nat) : Bool := n % 4 != 0 || decide (n < 4) || decide (16384 < n)

/-- Issues one row: COPY_MODE, then the latch (R269); the generators in `steps` move on. -/
def issueRow (s : State) (c : CopyCtx) (src dst : RowEnd) (n : Nat) (fail : Option Nat) (versioned : Option (BitVec 4 × BitVec 16))
    (steps : List Gen) : KRes :=
  let mode := ((s.launch? c.launch).map (·.pkt.mode)).getD 0
  let isGlobal := match dst with | .global _ => true | _ => false
  let u : LatchUpd := { add := rowSectors dst n }
  let bad := match c.latch with
    | some o => !latchValid (s.latch c.crew o) || u.over (s.latch c.crew o)
    | none => false
  if (isGlobal || versioned.isSome) && mode != 0 then .fault 11
  else if bad then .fault 12
  else
    let r : Row := { src := src, dst := dst, len := n, sectors := rowSectors dst n, lane := none, status := none, key := c.key, wid := c.wid
                     pcofs := c.pc.setWidth 32, fail := fail, versioned := versioned }
    .ok (s.rowLatch c u) (steps.foldl CopyCtx.stepGen { c with rows := c.rows ++ [r] })

def execXcopy (h : SH) (gd gs : Gen) (n : KSc) (s : State) : Host.Outcome State Fault Refusal :=
  runCopy (.xcopy h gd gs n) [n] s (fun s _ _ c =>
    match c.gen? gs, c.gen? gd with
    | some x, some y =>
      let len := (c.src h.lit n).toNat
      if rowLenBad len then .fault 12 else issueRow s c x.here y.here len none none [gs, gd]
    | _, _ => .fault 9)

/-- A row whose index is out of bounds fails (R261). -/
def boundsFail (i : Nat) (g : GenSt) : Option Nat := if i < g.ext.headD 0 then none else some 1

def execXgath (h : SH) (gd gs : Gen) (i n : KSc) (s : State) : Host.Outcome State Fault Refusal :=
  runCopy (.xgath h gd gs i n) [i, n] s (fun s _ _ c =>
    match c.gen? gs, c.gen? gd with
    | some x, some y =>
      let len := (c.src h.lit n).toNat
      let k := (c.src h.lit i).toNat
      if rowLenBad len then .fault 12 else issueRow s c (x.row k) y.here len (boundsFail k x) none [gd]
    | _, _ => .fault 9)

def execXscat (h : SH) (gd gs : Gen) (i n : KSc) (s : State) : Host.Outcome State Fault Refusal :=
  runCopy (.xscat h gd gs i n) [i, n] s (fun s _ _ c =>
    match c.gen? gs, c.gen? gd with
    | some x, some y =>
      let len := (c.src h.lit n).toNat
      let k := (c.src h.lit i).toNat
      if rowLenBad len then .fault 12 else issueRow s c x.here (y.row k) len (boundsFail k y) none [gs]
    | _, _ => .fault 9)

def execXtran (h : SH) (a : KSc) (gs : Gen) (s : State) : Host.Outcome State Fault Refusal :=
  runCopy (.xtran h a gs) [a] s (fun s _ _ c =>
    match c.gen? gs with
    | some x =>
      let t := (c.src h.lit a).toNat
      if s.tlease c.launch ≤ t then .fault 10 else issueRow s c x.here (.slot t) imageBytes none none [gs]
    | none => .fault 9)

def execXfill (h : SH) (gd : Gen) (v n : KSc) (s : State) : Host.Outcome State Fault Refusal :=
  runCopy (.xfill h gd v n) [v, n] s (fun s _ _ c =>
    match c.gen? gd with
    | some y =>
      let len := (c.src h.lit n).toNat
      if rowLenBad len then .fault 12 else issueRow s c (.fill (c.src h.lit v)) y.here len none none [gd]
    | none => .fault 9)

def execXcopyv (h : SH) (d : BitVec 4) (gs : Gen) (x : KSc) (gd : Gen) (s : State) : Host.Outcome State Fault Refusal :=
  runCopy (.xcopyv h d gs x gd) [x] s (fun s _ _ c =>
    match c.gen? gs, c.gen? gd with
    | some a, some b => issueRow s c a.here b.here 128 none (some (d, (c.src h.lit x).setWidth 16)) [gs, gd]
    | _, _ => .fault 9)

end Sys2Proof.Machine
end

