-- ==== Sys2Proof/Machine/Window.lean ====
section
/-! DEFINITION. The access window of the handler slot: WSEL, WRD, WWR, WRES (R347 to R349). -/
namespace Sys2Proof.Machine

/-- The stop of a gang, in service or queued (R349). -/
def State.stopOf (s : State) (core slot : Nat) : Option Stop :=
  let k := s.core core
  match k.run with
  | some r =>
    if r.stop.ofGang && !r.resolved && r.stop.agent == slot then some r.stop
    else k.stops.find? (fun x => x.ofGang && x.agent == slot)
  | none => k.stops.find? (fun x => x.ofGang && x.agent == slot)

/-- A gang that is stopped, with its stop. -/
def State.stoppedGang (s : State) (core slot : Nat) : Option (Gang × Stop) :=
  match s.gang? core slot, s.stopOf core slot with
  | some g, some x => if g.stat = .stopped then some (g, x) else none
  | _, _ => none

/-- The selected gang. -/
def State.selected (s : State) (core : Nat) : Option (Gang × Stop) :=
  ((s.core core).run.bind (·.sel)).bind (s.stoppedGang core)

def State.select (s : State) (core : Nat) (x : Option Nat) : State :=
  s.modCore core (fun k => { k with run := k.run.map (fun r => { r with sel := x }) })

/- Addresses (R347) -/

structure WinAddr where
  num : Nat
  cls : Nat
  lane : Nat
  deriving DecidableEq, Repr

def winAddr (x : DWord) : Option WinAddr :=
  if x.extractLsb' 18 46 = 0#46 then some { num := bitField x.toNat 7 0, cls := bitField x.toNat 11 8, lane := bitField x.toNat 17 12 }
  else none

/-- What an address holds, with its poison; `none` for an address of no gang or of no register. DESIGN CHOICE (log 118): the levels of the mask stack and the
outstanding-operation counters, which R77 and R250 say are read through the window, have no class in R347, and so no address. -/
def State.winGet (s : State) (g : Gang) (x : Stop) (a : WinAddr) : Option (DWord × Bool) :=
  match a.cls with
  | 0 => if a.num < 64 then some (g.sGet a.num, g.refBad (.s a.num)) else none
  | 1 => if a.num < g.n then some (BitVec.ofNat 64 (g.vGet a.num a.lane), g.vBad a.num a.lane) else none
  | 2 => if a.num < 16 then some (g.mGet a.num, g.refBad (.m a.num)) else none
  | 3 => if a.num < 16 then some ((g.bGet a.num).extractLsb' 0 64, wordsBad g.bp (4 * a.num) 2) else none
  | 4 => if a.num < 16 then some ((g.bGet a.num).extractLsb' 64 64, wordsBad g.bp (4 * a.num + 2) 2) else none
  | 5 => (SpReg.ofNum a.num).map (fun r => (s.spLane g r a.lane, g.refBad (.sp r)))
  | 6 => if a.num = 0 then some (g.pc.setWidth 64, g.pcBad) else none
  | 8 => if a.num = 0 then some (BitVec.ofNat 64 (Store.get x.codes a.lane).toNat, false) else none
  | _ => none

/- WSEL, WRD -/

def execWsel (h : SH) (d : BitVec 6) (a : Sc) (s : State) : Host.Outcome State Fault Refusal :=
  runGang (.wsel h d a) s onlyHandler (fun s g _ =>
    let t := s.sc g h.lit a
    let slot := if t = BitVec.allOnes 64 then (match (s.core g.core).run with | some r => if r.stop.ofGang then some r.stop.agent else none | none => none)
      else if t.toNat < 32 then some t.toNat else none
    let hit := slot.filter (fun k => (s.stoppedGang g.core k).isSome)
    let (s, g) := (s.select g.core hit).late (g.sSet d.toNat (if hit.isSome then 1 else 0)) (Shape.sRef d.toNat)
    .ok s g)

/-- WRD: the value, with its poison delivered (R347, R349). -/
def wrdValue (s : State) (core : Nat) (x : DWord) : Option (DWord × Bool) :=
  (winAddr x).bind (fun a =>
    if a.cls = 7 then (if a.num < 5 then (s.core core).run.map (fun r => (r.stop.word a.num, false)) else none)
    else (s.selected core).bind (fun y => s.winGet y.1 y.2 a))

def execWrd (h : SH) (d : BitVec 6) (a : Sc) (s : State) : Host.Outcome State Fault Refusal :=
  runGang (.wrd h d a) s onlyHandler (fun s g _ =>
    match wrdValue s g.core (s.sc g h.lit a) with
    | none => .trap 1
    | some (v, bad) =>
      let (s, g) := s.late (g.sSet d.toNat v bad) (Shape.sRef d.toNat)
      .ok s g)

/- WWR -/

/-- How a write through the window ends. -/
inductive WinSet where
  | set (s : State) (g : Gang)
  | bad (cause : Nat)
  /-- a register request that waits, to a count, at the stopped gang's age -/
  | grow (t : Nat)
  deriving DecidableEq, Repr

/-- `$regs` of a stopped gang (R349, R123, R126). -/
def winRegs (s : State) (g : Gang) (t : Nat) : WinSet :=
  if regCountBad t then .bad 8
  else if t ≤ g.n then .set s ((g.shrink t).spClean .regs)
  else if s.paneBlocks g.core < 1 + t / 8 then .bad 9
  else if s.canGrow g t then .set s ({ g with n := t }.spClean .regs)
  else .grow t

/-- A special register of the selected gang; `lane` is the addressed lane, none for the D form (R349). -/
def winSpecial (s : State) (hg g : Gang) (x : Stop) (r : SpReg) (lane : Option Nat) (b : DWord) : WinSet :=
  match r with
  | .rmode => if rmodeBad b then .bad 1 else .set s ({ g with rmode := rmodeOf b }.spClean .rmode)
  | .key =>
    let lanes := match lane with | some i => [i] | none => List.range 64
    let g' := { g with key := lanes.foldl (fun k i => Store.set k i (b.setWidth 32)) g.key }
    .set s (if lane.isNone then g'.spClean .key else g')
  | .dead =>
    let (s, g) := s.killLanes g b x.cause (fun i => (Store.get x.codes i).toNat) x.pc
    .set s (g.spClean .dead)
  | .deny => .set s ({ g with deny := g.deny &&& ~~~ b }.spClean .deny)
  | .regs => winRegs s g b.toNat
  | .chan => if s.hpriv hg then .set (s.modCore g.core (fun k => k.setChan b)) g else .bad 11
  | _ => .bad 1

def winSet (s : State) (hg g : Gang) (x : Stop) (a : WinAddr) (b : DWord) : WinSet :=
  match a.cls with
  | 0 => if a.num < 64 then .set s (g.sSet a.num b) else .bad 1
  | 1 => if a.num < g.n then .set s (g.vSet a.num a.lane (b.toNat % 2 ^ 32)) else .bad 1
  | 2 => if a.num < 16 then .set s (g.mSet a.num b) else .bad 1
  | 3 => if a.num < 16 then .set s (g.bHalf a.num false b) else .bad 1
  | 4 => if a.num < 16 then .set s (g.bHalf a.num true b) else .bad 1
  | 5 =>
    match SpReg.ofNum a.num with
    | some r => winSpecial s hg g x r (some a.lane) b
    | none => .bad 1
  | 6 => if a.num = 0 ∧ b.extractLsb' 0 2 = 0#2 then .set s { g with pc := b.setWidth 57, pcBad := false, replay := none } else .bad 1
  | _ => .bad 1

/-- The register that a window address names. -/
def WinAddr.took (a : WinAddr) (g : Gang) : List Took :=
  match a.cls with
  | 0 => g.takeRef [] (.s a.num)
  | 1 => g.takeRef [a.lane] (.v a.num)
  | 2 => g.takeRef [] (.m a.num)
  | 3 | 4 => g.takeRef [] (.b a.num)
  | _ => []

/-- A write through the window reaches the shadow gang behind the instructions that it has still to run (R356, log 82). -/
def Gang.lend (g : Gang) (l : List Took) : Gang :=
  { g with shadow := g.shadow.map (fun x =>
      { x with queue := x.queue ++ [{ pc := g.pc, dead := g.dead, replay := none, n := g.n, rmode := g.rmode, took := some l }] }) }

/-- The handler's write of the core's channel register is a result of its own, with WWR's latency (R56, R348). -/
def Gang.chanPend (g : Gang) (cyc : Nat) : Gang :=
  { g with pend := g.pend.filter (fun p => p.ref != .sp .chan) ++ [{ ref := .sp .chan, lat := 2, sum := 0, readyAt := cyc + 2 }] }
/-- The address of `$chan` (R347). -/
def WinAddr.isChan (a : WinAddr) : Bool := a.cls == 5 && SpReg.ofNum a.num == some .chan

/-- WWR. Every trap it raises is a double fault (R345). DESIGN CHOICE (log 122): what peers have answered for the instruction at the gang's PC is dropped, and asked
again. -/
def wwrBody (d : Option SpReg) (a b : DWord) (s : State) (g : Gang) (_ : LaneMask) : Res :=
  match s.selected g.core with
  | none => .trap 1
  | some (t, x) =>
    let w := match d with
      | some r => winSpecial s g t x r none b
      | none => match winAddr a with | some y => winSet s g t x y b | none => .bad 1
    match w with
    | .bad c => .trap c
    | .set s t =>
      let l := match d with | some _ => [] | none => ((winAddr a).map (·.took t)).getD []
      .ok (s.putGang ({ t with arrived := [] }.lend l)) (if d.isNone && ((winAddr a).map WinAddr.isChan).getD false then g.chanPend (s.cyc g.core) else g)
    | .grow n => .wait s { g with age := t.age } (.grow n)

def execWwr (h : SH) (d : Option SpReg) (a b : Sc) (s : State) : Host.Outcome State Fault Refusal :=
  runGang (.wwr h d a b) s onlyHandler (fun s g act => wwrBody d (s.sc g h.lit a) (s.sc g h.lit b) s g act)

/- WRES -/

/-- The stop is resolved and the window selects nothing (R349). -/
def State.resolveStop (s : State) (core slot : Nat) : State :=
  s.modCore core (fun k =>
    match k.run with
    | some r =>
      if r.stop.ofGang && !r.resolved && r.stop.agent == slot then { k with run := some { r with resolved := true, sel := none } }
      else { k with stops := k.stops.filter (fun y => !(y.ofGang && y.agent == slot)), run := some { r with sel := none } }
    | none => k)

/-- What happens to the gang. -/
def wresAct (n : DWord) (a : LaneMask) (s : State) (g : Gang) (x : Stop) : Option State :=
  if n = 0 then some (s.putGang (g.resume s g.pc (some (g.live a))))
  else if n = 1 then (if x.cause = 29 then some (s.putGang { g.resume s g.pc none with pwaitNt := true }) else none)
  else if n = 2 then some (s.exitGang g)
  else if n = 3 then some (s.defaultAction g x)
  else none

/-- WRES. An abort that action 3 leads to may end the run itself (R346). -/
def wresBody (a n : DWord) (s : State) (g : Gang) (_ : LaneMask) : Res :=
  match s.selected g.core with
  | none => .trap 1
  | some (t, x) =>
    match wresAct n a (s.resolveStop g.core t.slot) t x with
    | none => .trap 1
    | some s => if (s.gang? g.core Config.handlerSlot).isSome then .ok s g else .gone s

def execWres (h : SH) (a b : Sc) (s : State) : Host.Outcome State Fault Refusal :=
  runGang (.wres h a b) s onlyHandler (fun s g act => wresBody (s.sc g h.lit a) (s.sc g h.lit b) s g act)

end Sys2Proof.Machine
end

