-- ==== Sys2Proof/Machine/Fetch.lean ====
section
/-! DEFINITION. What a fetch that yields no instruction leads to (R64, R65, R66, R109, R216). -/
namespace Sys2Proof.Machine

/-- "Instruction words" of R338 for words that do not decode. -/
def rawInfo (l : List Word) : DWord :=
  let w0 := l.getD 0 0
  if w0.getLsbD 0 then l.getD 1 0 ++ w0 else w0.setWidth 64

/-- The address after an instruction of so many words. -/
def afterWords (pc : VAddr) (l : List Word) : VAddr := pc + BitVec.ofNat 57 (4 * l.length)

/-- Words that are no instruction, at a gang: ILLEGAL, behind a pending IMPRECISE stop (R64, R355). -/
def State.issueIllegal (s : State) (g : Gang) (l : List Word) : State :=
  let act := g.active (rawShape l)
  if !s.mayIssue g || decide (s.cyc g.core < g.notBefore) then s
  else
    let s := s.noteFetch g.core g.slot g.launch g.pc l.length
    match s.imprecise g act (afterWords g.pc l) with
    | some t => t
    | none => s.takeStop g 1 0 (rawInfo l) act [] g.pc (afterWords g.pc l)

/-- A pending IMPRECISE stop comes before a fetch that faults or waits: the words are not known, and NEXT is the PC itself (R355, log 104). -/
def State.impreciseFetch (s : State) (g : Gang) : Option State := s.imprecise g (g.replay.getD g.top) g.pc

/-- A fetch fault parks the gang with KIND 3 (R66, R216, R217); a poisoned PC is consumed first (R109, R340). -/
def State.parkFetch (s : State) (g : Gang) (f : LaneFault) : State :=
  if !s.mayIssue g || decide (s.cyc g.core < g.notBefore) then s
  else
    match s.impreciseFetch g with
    | some t => t
    | none =>
      if g.pcBad then s.poisonScalar g
      else
        let s := s.notePages g.core g.slot (s.ctxOf g.launch) [g.pc.toNat, f.va]
        s.parkGang g .fetch g.replay (s.faultRecs g 3 [{ f with lane := g.lowLive }])

/-- Memory behind a gang's PC that is not ready holds the gang (R402). -/
def State.waitFetch (s : State) (g : Gang) : State :=
  if !s.mayIssue g then s
  else
    match s.impreciseFetch g with
    | some t => t
    | none => if g.pcBad then s.poisonScalar g else (s.notePages g.core g.slot (s.ctxOf g.launch) [g.pc.toNat]).putGang { g with stat := .waiting .memory }

/-- What a gang meets where no instruction stands at its PC. -/
def State.noInstr (s : State) (g : Gang) (x : AtPc) : State :=
  match x with
  | .instr _ => s
  | .illegal l => s.issueIllegal g l
  | .fault f => s.parkFetch g f
  | .wait => s.waitFetch g

/-- What a copy context meets where no instruction stands at its PC: ILLEGAL is a copy fault (R65, R263). -/
def State.noCopyInstr (s : State) (core ix : Nat) (c : CopyCtx) (x : AtPc) : State :=
  if !s.copyReady c then s
  else
    match x with
    | .instr _ => s
    | .illegal l => (s.noteFetch core (64 + ix) c.launch c.pc l.length).copyFault core ix c 8
    | .fault f => RowAt.park { core := core, ix := ix, c := c, key := c.key, wid := c.wid, pcofs := 0 }
        (s.notePages core (64 + ix) (s.ctxOf c.launch) [c.pc.toNat, f.va]) .fetch [f]
    | .wait => s.notePages core (64 + ix) (s.ctxOf c.launch) [c.pc.toNat]

end Sys2Proof.Machine
end

