-- ==== Sys2Proof/Machine/Sched.lean ====
section
/-! DEFINITION. What happens beside the instructions: completions (R56, R283, R284), page walks (R214), records that wait (R217), grant fills (R245),
polls (R282), wake-ups (R101, R280), runs of the handler program (R342), shadow comparisons (R357, R358), and the selector with its
issue ports (R13, R331, R332). -/
namespace Sys2Proof.Machine

/- Completions -/

/-- MEMORY_ACCESS_COMPLETE: a counted operation whose far accesses, if any, have all been answered (R283, R284). -/
def execMemoryAccessComplete (core : BitVec 9) (slot : BitVec 6) (op : Nat) (s : State) : Host.Outcome State Fault Refusal :=
  alive s (fun s =>
    let cp := match s.gang? core.toNat slot.toNat with
      | some g => g.ops.any (fun o => o.id == op && o.cls == .cp)
      | none => true
    if cp || s.far.any (fun f => f.what.isOf core.toNat slot.toNat && f.what.opOf == some op) then s
    else s.opDone core.toNat slot.toNat op)

/-- VARIABLE_LATENCY_RESULT: the scoreboard releases the dependants; activations of an MMUL stay held until it has streamed (R56, R176). -/
def execVariableLatencyResult (core : BitVec 9) (slot : BitVec 6) (id : Nat) (s : State) : Host.Outcome State Fault Refusal :=
  alive s (fun s =>
    match s.gang? core.toNat slot.toNat with
    | none => s
    | some g =>
      if g.ops.any (fun o => o.id == id) || !g.busy.any (fun b => b.id == id) then s
      else
        let g := { g with busy := (g.busy.map (fun b => if b.id = id then { b with refs := [] } else b)).filter Busy.pending }
        s.putGang (if g.stat = .waiting .scoreboard then g.ready else g))

/- Translation, fault records, grants -/

/-- PAGE_WALK for a core: the page is looked up, and walked when no translation lookaside buffer holds it; only a valid leaf is held (R214, R215). -/
def execPageWalk (at_ : CoreCtx) (va : VAddr) (s : State) : Host.Outcome State Fault Refusal :=
  alive s (fun s => if s.translate at_.core.toNat at_.ctx.toNat va.toNat = .wait then s else s.noteXlate at_.core.toNat 0 at_.ctx.toNat va.toNat)

/-- FAULT_RECORD_POST: the oldest record of a context that waits for a free entry (R217). -/
def execFaultRecordPost (ctx : BitVec 4) (s : State) : Host.Outcome State Fault Refusal :=
  alive s (fun s =>
    let c := ctx.toNat
    match s.fqPend.find? (fun r => r.ctx == c) with
    | none => s
    | some r =>
      if s.ringFull c 0x88 0x90 0x98 then s
      else (({ s with fqPend := s.fqPend.erase r }).ringPut c 0x80 0x88 0x90 r.bytes).interrupt 1)

/-- GRANT_FILL of a core's cache: the 64 decisions of one entry, as the tables stand (R245). -/
def execGrantFill (at_ : CoreCtx) (key : Word) (group : BitVec 14) (s : State) : Host.Outcome State Fault Refusal :=
  alive s (fun s =>
    let core := at_.core.toNat
    let c := at_.ctx.toNat
    let k := group.toNat
    if s.grants.any (fun g => g.core == core && g.ctx == c && g.key == key && g.group == k) ||
        (List.range 64).any (fun i => s.grantWaits core c key (BitVec.ofNat 20 (k * 64 + i))) then s
    else s.fillGrant core c key k)

/- Polls and wake-ups -/

/-- LATCH_POLL: every 64 cycles, a gang without a waiter entry reads the latch again, and takes up an entry when there is one (R282). -/
def execLatchPoll (core : BitVec 9) (slot : BitVec 6) (s : State) : Host.Outcome State Fault Refusal :=
  alive s (fun s =>
    match s.gang? core.toNat slot.toNat with
    | none => s
    | some g =>
      match g.stat with
      | .waiting (.latchPoll ofs p) =>
        let age := s.cyc g.core - g.parkedAt
        if age = 0 ∨ age % 64 ≠ 0 then s
        else
          let s := s.readLatch g.core g.crew ofs
          let x := s.latch g.crew ofs
          let k := s.core g.core
          let hit (w : Waiter) : Bool := w.crew == g.crew && w.ofs == ofs
          if !latchValid x || latchPhase x != p then s.putGang (s.anew g)
          else if k.waiters.any hit || decide (k.waiters.length < Config.waiters) then
            match s.joinLatch g ofs p with
            | .wait s g w => s.putGang { g with stat := .waiting w }
            | _ => s
          else s
      | _ => s)

/-- SLEEP_WAKE (R101). -/
def execSleepWake (core : BitVec 9) (slot : BitVec 6) (s : State) : Host.Outcome State Fault Refusal :=
  alive s (fun s =>
    match s.gang? core.toNat slot.toNat with
    | none => s
    | some g =>
      match g.stat with
      | .sleeping till => if till ≤ s.cyc g.core then s.putGang (s.anew g) else s
      | _ => s)

/-- PWAIT_EXPIRY: the promise has passed, and the PWAIT checks its latch (R280). -/
def execPwaitExpiry (core : BitVec 9) (slot : BitVec 6) (s : State) : Host.Outcome State Fault Refusal :=
  alive s (fun s =>
    match s.gang? core.toNat slot.toNat with
    | none => s
    | some g =>
      match g.stat with
      | .waiting (.promise till) => if till ≤ s.cyc g.core then s.putGang (s.anew g) else s
      | _ => s)

/- Runs of the handler program -/

/-- The handler slot at the start of a run (R342). DESIGN CHOICE (log 123): its `$wid` reads 0 in every lane, since it belongs to no launch. -/
def State.handlerGang (s : State) (core : Nat) (x : Stop) : Gang :=
  let ctx := s.ctxOf x.launch
  { launch := x.launch, crew := 0, ix := 0, core := core, slot := Config.handlerSlot, age := 0
    pc := (s.ctxReg ctx 0x40).setWidth 57
    s := (List.range 5).foldl (fun m k => Store.set m (k + 1) (x.word k)) []
    key := (List.range 64).foldl (fun m i => Store.set m i ((s.ctxReg ctx 0x48).setWidth 32)) []
    n := 32, base := BitVec.allOnes 64, since := s.cyc core, notBefore := s.cyc core }

/-- HANDLER_RUN_START: the oldest stop of a core is served; with no handler program a gang takes its default action (R342, R344). -/
def execHandlerRunStart (core : BitVec 9) (s : State) : Host.Outcome State Fault Refusal :=
  alive s (fun s =>
    let c := core.toNat
    let k := s.core c
    match k.run, k.stops with
    | none, x :: r =>
      if s.hasHandler x.launch then
        (s.putCore c { k with stops := r, run := some { stop := x, sel := if x.ofGang then some x.agent else none } }).putGang (s.handlerGang c x)
      else
        let s := s.putCore c { k with stops := r }
        match s.gang? c x.agent with
        | some g => if x.ofGang ∧ g.stat = .stopped then s.defaultAction g x else s
        | none => s
    | _, _ => s)

/- Shadow gangs -/

/-- The gang as its shadow, about to run an instruction (R356). -/
def Gang.asShadow (g : Gang) (x : Shadow) (it : Item) : Gang :=
  { g.withRegs x.regs with
    pc := it.pc, dead := it.dead, replay := it.replay, n := it.n, pend := [], busy := [], ops := [], notBefore := 0, stat := .ready, failed := []
    arrived := [], checked := true, mismatch := false, shadow := none, isShadow := true, token := true, pcBad := false, baseBad := 0, spBad := [] }

/-- What an instruction reads is the same in both copies, in its live active lanes (R357). -/
def Gang.agrees (g : Gang) (x : Shadow) (sh : Shape) : Bool :=
  let h := g.withRegs x.regs
  let lanes := bitsOn (g.live (g.active sh))
  g.top == h.top && g.rmode == h.rmode && sh.reads.all (fun r => g.takeRef lanes r == h.takeRef lanes r)

/-- The shadow has run everything that the leading gang has. -/
def Gang.caughtUp (g : Gang) : Bool := (g.shadow.map (·.queue.isEmpty)).getD true

/-- The instruction at which the shadow has consumed poison or gone another way, with its active mask and its PC (R357). -/
def Gang.spoiledAt? (g : Gang) (s : State) : Option (Instr × LaneMask × VAddr) :=
  match g.shadow.map (fun x => (x, x.spoiledAt)) with
  | some (x, some it) => (match s.atPc g it.pc with | .instr i => some (i, (g.asShadow x it).active (shape i), it.pc) | _ => none)
  | _ => none

/-- SHADOW_COMPARE, once the shadow has caught up: the held item is released, or it is a mismatch (R357, R358). `same` is what the comparison of the two
copies' results says; the model's own copy of the shadow's registers has its say too. What the shadow has met at an earlier instruction is a mismatch at that
one, and the leading gang then resumes where it stands (log 107). -/
def execShadowCompare (core : BitVec 9) (slot : BitVec 6) (same : Bool) (s : State) : Host.Outcome State Fault Refusal :=
  alive s (fun s =>
    match s.gang? core.toNat slot.toNat with
    | none => s
    | some g =>
      if g.stat ≠ .waiting .shadow || !g.caughtUp then s
      else
        let agree (sh : Shape) : Bool := (g.shadow.map (fun x => g.agrees x sh)).getD true
        let fine := same && !g.mismatch && !g.shadowSpoiled && (match s.atGang g with | .instr i => agree (shape i) | _ => true)
        if fine then s.putGang { g.ready with checked := true }
        else if !s.errsAsFree g then s.errorAbort g.crew
        else
          match g.spoiledAt? s, s.atGang g with
          | some (i, act, pc), _ => s.takeStop g 33 0 (wordsInfo i) act [] pc g.pc
          | none, .instr i => s.takeStop { g with replay := none } 33 0 (wordsInfo i) (g.active (shape i)) [] g.pc (g.next (shape i))
          | none, _ => s.putGang { g.rebuild.ready with mismatch := false })

/-- The registers that the leading gang's instruction wrote, as they arrive from the queue. -/
def Gang.takeUp (g : Gang) (x : Took) : Gang :=
  match x.ref with
  | .s n => { g with s := Store.set g.s n (BitVec.ofNat 64 x.val), sp := Store.set g.sp n (BitVec.ofNat 1 x.bad) }
  | .m n => { g with
      m := Store.set g.m n (BitVec.ofNat 64 x.val)
      mp := Store.set (Store.set g.mp (2 * n) (BitVec.ofNat 1 x.bad)) (2 * n + 1) (BitVec.ofNat 1 (x.bad / 2)) }
  | .b n => { g with
      b := Store.set g.b n (BitVec.ofNat 128 x.val)
      bp := (List.range 4).foldl (fun p k => Store.set p (4 * n + k) (BitVec.ofNat 1 (x.bad / 2 ^ k))) g.bp }
  | .v n => g.vSet n x.lane x.val (x.bad % 2 == 1)
  | .top | .sp _ | .tile _ => g

/-- The shadow takes the results of the leading gang's instruction (R356); registers that it has discarded read 0 when it asks for them again (R123). -/
def Gang.shadowImport (g : Gang) (x : Shadow) (it : Item) (r : List Item) (l : List Took) : Gang :=
  let h := (l.foldl Gang.takeUp (g.withRegs x.regs)).shrink it.n
  { g with shadow := some { x with regs := { h.regs with n := it.n, rmode := it.rmode }, queue := r } }

/-- The shadow has consumed poison at an instruction, or gone another way there than its leading gang: the next comparison is a mismatch at it (R357). -/
def Gang.shadowSpoil (g : Gang) (it : Item) : Gang :=
  { g with shadow := g.shadow.map (fun x => { x with spoiled := true, queue := [], spoiledAt := some it }) }

/-- What an instruction of the shadow leaves: its registers, its tiles and its streams; `u` is the state in which it ran in the gang's place. DESIGN CHOICE
(log 110): a residue instruction that stops for the shadow and did not for its leading gang, EN having fallen below seven between the two (R199), leaves the
shadow spoiled, as any other that goes another way. -/
def State.shadowTook (s : State) (g : Gang) (x : Shadow) (it : Item) (r : List Item) (u : State) : State :=
  match u.gang? g.core g.slot with
  | none => s.putGang (g.shadowSpoil it)
  | some h =>
    match h.stat with
    | .ready =>
      if h.notBefore = 0 ∨ h.dead ≠ it.dead then s.putGang (g.shadowSpoil it)
      else
        let old := (s.core g.core).streams.length
        let l := (u.core g.core).streams
        let l := l.take old ++ (l.drop old).map (fun y => { y with slot := g.shadowSlot.getD g.slot })
        let s : State := ({ s with crews := u.crews, nextId := u.nextId }.modCore g.core (fun k => { k with streams := l })).putGang
          { g with shadow := some { x with regs := h.regs, queue := r, token := x.token && h.token, shuttered := false } }
        s.wake (fun o => o.core == g.core && o.stat == .waiting .plane)
    | .waiting .shadow => s.putGang (g.shadowSpoil it)
    | .waiting _ => s
    | _ => s.putGang (g.shadowSpoil it)

/-- The next instruction of a shadow is an MMUL that needs a token of its own (R356). -/
def State.shadowWants (s : State) (g : Gang) (x : Shadow) : Bool :=
  match x.queue with
  | [] => false
  | it :: _ =>
    it.took.isNone && (match s.atPc g it.pc with | .instr i => (g.asShadow x it).wantsToken (shape i) | _ => false)

/- The selector -/

/-- The issue ports of R13 by OPC, numbered in the order of R331: scalar, vector A, vector B or cross-lane, memory or async, array or select. DESIGN CHOICE
(log 2): OPC 0x78 to 0x7F, which R13 gives no port of a gang, goes to the scalar port, and the reserved OPC 0x77, which stands in the range of two of its rows
and in neither's list, to the memory or async port. -/
def portsOfOpc (o : Nat) : List Nat :=
  if o < 0x20 then [0]
  else if o < 0x50 then [1, 2]
  else if o = 0x56 ∨ o = 0x57 then [4]
  else if o < 0x58 then [2]
  else if o < 0x60 then [4]
  else if o < 0x64 then [1, 2]
  else if o < 0x76 then [3]
  else if o = 0x76 then [1, 2]
  else if o = 0x77 then [3]
  else [0]

def portsOf (i : Instr) : List Nat := portsOfOpc (shape i).opc.toNat

/-- The scoreboard releases an instruction, or its check raises STALL_SHORT (R56). -/
def Gang.released (g : Gang) (sh : Shape) (cyc : Nat) : Bool := g.short sh || (!g.unready sh cyc && !g.boarded sh)

/-- The gang may issue in this cycle. -/
def State.mayNow (s : State) (g : Gang) : Bool := s.mayIssue g && !decide (s.cyc g.core < g.notBefore)

/-- The ports a gang is ready for (R331). Words that are no instruction go by their OPC; a fetch that yields no words goes to the scalar port (log 2). A gang
whose MMUL has no token is not ready (R183). -/
def State.readyPorts (s : State) (g : Gang) : List Nat :=
  if !s.mayNow g then []
  else
    match s.atGang g with
    | .instr i =>
      if g.failing then portsOf i
      else if g.tokenless (shape i) then []
      else if g.released (shape i) (s.cyc g.core) then portsOf i
      else []
    | .illegal l => portsOfOpc (rawShape l).opc.toNat
    | _ => [0]

/-- The gang is shuttered: only the token holds its MMUL (R183). -/
def State.shutters (s : State) (g : Gang) : Bool :=
  s.mayNow g && !g.failing &&
    (match s.atGang g with
     | .instr i => g.tokenless (shape i) && !g.unready (shape i) (s.cyc g.core) && !g.boarded (shape i)
     | _ => false)

/-- The gang of greatest wait age from 256 up, ties to the oldest; else the oldest gang (R332). -/
def chooseGang (cyc : Nat) (l : List Gang) : Option Gang :=
  let late := l.filter (fun g => decide (256 ≤ cyc - g.since))
  if late.isEmpty then eldest (·.age) l
  else late.find? (fun g => late.all (fun o => decide (g.since < o.since) || (g.since == o.since && decide (g.age ≤ o.age))))

/-- The picks of one cycle of a core, port by port; at most four (R332). -/
def choosePorts (cyc : Nat) (handler : Option Gang) (l : List (Gang × List Nat)) (hports : List Nat) : List Nat → List Gang → List Gang
  | [], out => out
  | p :: r, out =>
    let free := l.filter (fun x => x.2.contains p && !out.any (fun o => o.slot == x.1.slot))
    let pick := match handler with
      | some h => if hports.contains p && !out.any (fun o => o.slot == h.slot) then some h else chooseGang cyc (free.map (·.1))
      | none => chooseGang cyc (free.map (·.1))
    match pick with
    | some g => choosePorts cyc handler l hports r (if out.length < 4 then out ++ [g] else out)
    | none => choosePorts cyc handler l hports r out

/-- The copy context whose turn it is, among those that are ready (R249). -/
def State.ctxTurn (s : State) (core : Nat) : Option Nat :=
  ((List.range Config.contexts).map (fun k => ((s.core core).lastCtx + 1 + k) % Config.contexts)).find?
    (fun i => ((s.ctx? core i).map s.copyReady).getD false)

/-- The shadow of a gang runs its next instruction, in a slot of its own (R356, log 82). A park or a stop takes the pair together. -/
def State.shadowRuns (s : State) (g : Gang) : Bool :=
  match g.shadow with
  | none => false
  | some x => g.going && !x.queue.isEmpty && !s.preCrews.contains g.crew && (x.token || !s.shadowWants g x)

/-- The agents that issue in the current cycle of a core: the picks of the five ports, one copy context, and the shadows that have something to run
(R332, R13, R249, R356). A core whose cluster is in a recovery issues nothing (R359). -/
def State.selectCore (s : State) (core : Nat) : List Agent :=
  if s.recovering.contains (core / 64) then []
  else
    let cyc := s.cyc core
    let h := s.gang? core Config.handlerSlot
    let hports := (h.map s.readyPorts).getD []
    let l := (s.coreGangs core).map (fun g => (g, s.readyPorts g))
    let order := (List.range 5).map (fun k => (cyc + k) % 5)
    let picks := choosePorts cyc h l hports order []
    picks.map (fun g => Agent.gang core g.slot) ++ (s.ctxTurn core).toList.map (Agent.copy core) ++
      ((s.coreGangs core).filter s.shadowRuns).map (fun g => Agent.shadow core g.slot)

/- A cycle of a core -/

/-- Gangs, and shadows, that only a token holds are shuttered from this cycle on (R183). -/
def State.shutter (s : State) (core : Nat) : State :=
  { s with gangs := s.gangs.map (fun y =>
      let g := y.2
      if g.core != core || g.isHandler then y
      else
        let g' := if s.shutters g then { g with stat := .waiting .token } else g
        (y.1, { g' with shadow := g'.shadow.map (fun x => if g.going && !x.token && s.shadowWants g x then { x with shuttered := true } else x) })) }

/-- The cycles of shuttered gangs and of gangs whose post finds no free context (R183, R249). -/
def State.countWaits (s : State) (core : Nat) : State :=
  (s.countAt (.core core) .tokenWaitCycles (s.shutteredCount core)).countAt (.core core) .copyCtxWaits
    ((s.coreGangs core).filter (fun g => g.stat == .waiting .context)).length

/-- Nothing of the cluster is outstanding at memory, at a peer, or as a row that is not parked (R359). -/
def State.settled (s : State) (cluster : Nat) : Bool :=
  s.gangList.all (fun g => g.core / 64 != cluster || (!g.ops.any (fun o => !o.done && o.cls != .cp) && !s.farOf g.core g.slot)) &&
    s.ctxs.all (fun x => x.1 / 16 / 64 != cluster || x.2.rows.isEmpty || x.2.park.isSome)

/-- A recovery ends once all is settled: wait ages restart, and a gang whose table row is uncorrectable has consumed scalar poison (R359). -/
def State.endRecovery (s : State) (cluster : Nat) : State :=
  if s.recovering.contains cluster && s.settled cluster then
    let mine (g : Gang) : Bool := g.core / 64 == cluster && g.slot != Config.handlerSlot
    let lost := s.gangList.filter (fun g => mine g && g.tableBad)
    let s := { s with
      recovering := s.recovering.filter (· != cluster)
      gangs := s.gangs.map (fun y => if y.2.core / 64 == cluster then (y.1, { y.2 with since := s.cyc y.2.core, tableBad := false }) else y) }
    lost.foldl (fun s g => match s.gang? g.core g.slot with | some h => s.poisonScalar h | none => s) s
  else s

/-- A cycle of a core begins (R111). -/
def State.tick (s : State) (core : Nat) : State :=
  let s := s.modCore core (fun k => { k with cyc := k.cyc + 1 })
  ((s.endRecovery (core / 64)).shutter core).countWaits core

/-- The rows of scratch, and of the crew's effect buffer, that an instruction of a copy context reads. -/
def State.contextRows (s : State) (c : CopyCtx) (i : Instr) : List RowHolds :=
  match i with
  | .kld _ t _ g =>
    match (c.gen? g).map GenSt.here with
    | some (.scratch o) =>
      if o < 0 ∨ (s.scratchOf c.crew : Int) < o + (t.or .n64).bytes then [] else scratchRows c.crew [(o.toNat, (t.or .n64).bytes)]
    | some (.global _) => s.effectRows c.crew (fun _ => true)
    | _ => []
  | .gset h _ a =>
    let o := (c.src h.lit a).toNat
    if s.scratchOf c.crew < o + 48 then [] else scratchRows c.crew [(o, 48)]
  | .karv h a _ => s.latchRows c.crew (c.src h.lit a).toNat
  | _ => []

/-- The rows of the selected gang that a WRD reads: that of the register, and the one with the PC for a special register and for the resume PC (log 12). -/
def State.windowRows (s : State) (g : Gang) (i : Instr) : List RowHolds :=
  match i with
  | .wrd h _ a =>
    match winAddr (s.sc g h.lit a), s.selected g.core with
    | some y, some (t, x) =>
      let control (l : List Nat) : List RowHolds := l.map (.control t.slot false)
      if (s.winGet t x y).isNone then []
      else
        match y.cls with
        | 0 => control (t.controlRows (.s y.num))
        | 1 => [.lanes t.slot false y.num (y.lane / 16)]
        | 2 => control (t.controlRows (.m y.num))
        | 3 | 4 => control (t.controlRows (.b y.num))
        | 5 | 6 => control [14]
        | _ => []
    | _, _ => []
  | _ => []

/-- The rows that the next instruction of an agent reads (R107, log 94). -/
def State.agentRows (s : State) : Agent → List RowHolds
  | .gang core slot =>
    match s.gang? core slot with
    | some g => (match s.atGang g with | .instr i => g.sourceRows false (shape i) ++ s.storageRows g i ++ s.windowRows g i | _ => [])
    | none => []
  | .copy core ix =>
    match s.ctx? core ix with
    | some c => (match s.atCopy core c with | .instr i => s.contextRows c i | _ => [])
    | none => []
  | .shadow core slot =>
    match s.gang? core slot with
    | some g =>
      (match g.shadow.map (fun x => (x, x.queue)) with
       | some (x, it :: _) =>
         if it.took.isSome then []
         else (match s.atPc g it.pc with
           | .instr i => (g.withRegs x.regs).sourceRows true (shape i) ++ s.storageRows (g.asShadow x it) i
           | _ => [])
       | _ => [])
    | none => []

/-- The next instruction of an agent reads its rows, which matters on a core that has banks marked failed (R107). -/
def State.readSources (s : State) (core : Nat) (a : Agent) : State := if s.poolsWhole then s else s.readRows core (s.agentRows a)

/-- The picks of a cycle read their sources, and the copy processor's turn passes on. -/
def State.issueFrom (s : State) (core : Nat) (l : List Agent) : State :=
  let s := l.foldl (fun s a => s.readSources core a) s
  l.foldl (fun s a => match a with | .copy _ i => s.modCore core (fun k => { k with lastCtx := i }) | _ => s) s

/-- ISSUE_SELECT: one cycle of a core (R332, R111). -/
def execIssueSelect (core : BitVec 9) (s : State) : Host.Outcome State Fault Refusal :=
  alive s (fun s =>
    let t := s.tick core.toNat
    let l := t.selectCore core.toNat
    let u := t.issueFrom core.toNat l
    { u with picks := u.picks ++ l })

end Sys2Proof.Machine
end

