-- ==== Sys2Proof/Machine/Span.lean ====
section
/-! DEFINITION. The span engine and the commit of a span (R364 to R373, R380 to R383). The engine's reads of the descriptor, the inbox and the
handler table take the bytes as they stand, once their memory is ready (R402). -/
namespace Sys2Proof.Machine

/- Order and records -/

/-- Canonical order: by (TIME, PRIO, SERIAL) (R365). -/
def Event.before (a b : Event) : Bool :=
  decide (a.time.toNat < b.time.toNat) || (a.time == b.time && (decide (a.prio.toNat < b.prio.toNat) ||
    (a.prio == b.prio && decide (a.serial.toNat < b.serial.toNat))))

def insertEv (x : PendEv) : List PendEv → List PendEv
  | [] => [x]
  | y :: r => if x.ev.before y.ev then x :: y :: r else y :: insertEv x r
def sortEvs (l : List PendEv) : List PendEv := l.foldl (fun acc x => insertEv x acc) []

/-- The 256 bits of a record (R364). -/
def Event.record (e : Event) (cancelled failed : Bool) : Nat :=
  e.time.toNat + e.serial.toNat * 2 ^ 64 + e.handler.toNat * 2 ^ 128 + e.prio.toNat * 2 ^ 144 + cancelled.toNat * 2 ^ 152 +
    failed.toNat * 2 ^ 153 + e.princ.toNat * 2 ^ 160 + e.pay.toNat * 2 ^ 192

/-- The descriptor as it stands. -/
def State.storeDesc (s : State) (store : Nat) : Nat := natOf (s.physRead store 128)

/-- Appends a record to the record log, or counts it in RLDROP (R382). -/
def State.logEvent (s : State) (store x : Nat) : State :=
  let d := s.storeDesc store
  let base := bitField d 248 192
  let size := 2 ^ bitField d 253 249
  let w := bitField d 351 320
  if base = 0 then s
  else if (w + 2 ^ 32 - bitField d 383 352) % 2 ^ 32 = size then s.setDesc store 48 8 (bitField d 447 384 + 1)
  else (s.engineWrite (base + 32 * (w % size)) (leBytes 32 x)).setDesc store 40 4 ((w + 1) % 2 ^ 32)

/-- A fault record of the span engine: CORE and PC are 0 (R354). DESIGN CHOICE (log 120): so is FAILED, whatever becomes of the event. -/
def State.spanRecord (s : State) (launch kind cause : Nat) (wid : DWord) : State :=
  s.faultRecord { launch := launch, wid := wid, pc := 0, core := 0, cause := cause, kind := kind }

/- The inbox (R369) -/

/-- Entries of the store in use: pending events and the running span's that have not left (R370). -/
def Span.used (p : Span) : Nat := p.pend.length + (p.run.filter (fun e => e.fate == .open_)).length

/-- Takes one record of the inbox: inserted, or logged with FAILED (R369). DESIGN CHOICE (logs 114, 130): the log holds its other FLAGS bits as the host
wrote them, and a record to which both exceptions apply is logged once and counts in INJECT_REJECTED alone. -/
def takeRecord (store : Nat) (p : Span) (x : Nat) (s : State) : State × Span :=
  let e := eventOf x
  let failed := x ||| 2 ^ 153
  if hostEventBad e || p.pend.any (fun y => y.ev.serial == e.1.serial) then ((s.logEvent store failed).count .injectRejected, p)
  else if (match p.last with | some l => e.1.before l | none => false) then ((s.logEvent store failed).count .injectLate, p)
  else (s, { p with pend := insertEv { ev := e.1, aborts := 0 } p.pend })

/-- Takes `n` records from record `j` on, while the store has room. -/
def takeInbox (store cap base size : Nat) : Nat → Nat → Span → State → State × Span
  | 0, _, p, s => (s, p)
  | n + 1, j, p, s =>
    if cap ≤ p.used then (s, p)
    else
      let (s, p) := takeRecord store p (natOf (s.physRead (base + 32 * (j % size)) 32)) s
      takeInbox store cap base size n ((j + 1) % 2 ^ 32) p (s.setDesc store 68 4 ((j + 1) % 2 ^ 32))

def State.emptyInbox (s : State) (store : Nat) (p : Span) : State × Span :=
  let d := s.storeDesc store
  let base := bitField d 504 448
  let size := 2 ^ bitField d 509 505
  let j := bitField d 575 544
  if base = 0 then (s, p)
  else takeInbox store (2 ^ bitField d 62 57) base size (min ((bitField d 543 512 + 2 ^ 32 - j) % 2 ^ 32) size) j p s

/- The gather (R371, R372) -/

/-- ENTRY of a handler; none when no handler serves the number (R366, R368). -/
def State.handlerEntry (s : State) (d htab : Nat) (h : BitVec 16) : Option VAddr :=
  let e := bitField (natOf (s.physRead (htab + 8 * h.toNat) 8)) 56 0
  if bitField d 191 176 < h.toNat ∨ e = 0 ∨ e % 4 ≠ 0 then none else some (BitVec.ofNat 57 e)

/-- Handlers named, each once. -/
def handlersOf (l : List PendEv) : List (BitVec 16) :=
  l.foldl (fun acc x => if acc.contains x.ev.handler then acc else acc ++ [x.ev.handler]) []

/-- The gangs that events with a handler pack into. -/
def gangsOf (l : List PendEv) : Nat :=
  ((handlersOf l).map (fun h => ((l.filter (fun x => x.ev.handler == h)).length + 63) / 64)).foldl (· + ·) 0

/-- The longest prefix of the candidates that makes a span (R371). -/
def spanPrefix (served : Event → Bool) (max gmax : Nat) : List PendEv → List PendEv → List PendEv
  | [], acc => acc
  | x :: r, acc =>
    if 2 ≤ x.aborts ∨ max ≤ acc.length ∨ gmax < gangsOf ((acc ++ [x]).filter (fun y => served y.ev)) then acc
    else spanPrefix served max gmax r (acc ++ [x])

def orWhenZero (x y : Nat) : Nat := if x = 0 then y else x

/-- The next span's events from the sorted pending set, whether it is a solo span, and whether it is truncated (R371). -/
def chooseSpan (served : Event → Bool) (look max gmax : Nat) (l : List PendEv) : List PendEv × Bool × Bool :=
  match l with
  | [] => ([], false, false)
  | x :: _ =>
    if 2 ≤ x.aborts then ([x], true, false)
    else
      let cand := l.filter (fun y => decide (y.ev.time.toNat ≤ x.ev.time.toNat + look))
      let p := spanPrefix served max gmax cand []
      (p, false, decide (p.length < cand.length))

def chunks : Nat → List RunEv → List (List RunEv)
  | 0, _ => []
  | n + 1, l => if l.isEmpty then [] else l.take 64 :: chunks n (l.drop 64)

def insertChunk (x : List RunEv) : List (List RunEv) → List (List RunEv)
  | [] => [x]
  | y :: r => if (x.head?.map (·.idx)).getD 0 < (y.head?.map (·.idx)).getD 0 then x :: y :: r else y :: insertChunk x r

/-- The gangs of a span, by handler in canonical order, sorted by the key of their first event (R372). -/
def packSpan (l : List RunEv) : List (List RunEv) :=
  let served := l.filter (fun e => !e.orphan)
  let hs := handlersOf (served.map (fun e => { ev := e.ev, aborts := 0 }))
  ((hs.map (fun h => chunks (served.length + 1) (served.filter (fun e => e.ev.handler == h)))).flatten).foldl (fun acc x => insertChunk x acc) []

/-- The crew of one gang of a span; it waits for admission from the given cycle on. -/
def spanCrew (launch band : Nat) (entry : VAddr) (l : List RunEv) (clock : Nat) : Crew :=
  { launch := launch, band := band, inBand := 0, core := 0, stat := .requeued, live := 1, entry := entry, queuedAt := clock
    events := l.map (fun e => { ev := e.ev, idx := e.idx, aborts := e.aborts }) }

/-- Forms the crews of a span, and notes each event's crew and lane. -/
def State.formCrews (s : State) (launch d htab : Nat) (l : List (List RunEv)) (run : List RunEv) : State × List RunEv :=
  l.foldl (fun (x : State × List RunEv) c =>
    let (s, run) := x
    let k := s.nextCrew
    let entry := ((c.head?).bind (fun e => s.handlerEntry d htab e.ev.handler)).getD 0
    let s' := { s.putCrew k (spanCrew launch k entry c s.clock) with nextCrew := k + 1 }
    (s', run.map (fun e =>
      match c.findIdx? (fun y => y.idx == e.idx) with
      | some i => { e with crew := k, lane := i }
      | none => e))) (s, run)

/-- Gathers the next span of a launch. -/
def State.gather (s : State) (launch : Nat) (l : Launch) (p : Span) : State :=
  let store := l.pkt.store
  let (s, p) := s.emptyInbox store { p with pend := sortEvs p.pend }
  let put (s : State) (p : Span) : State := s.modLaunch launch (fun l => { l with span := some p })
  if p.pend.isEmpty then put s p
  else if 2 ^ 32 - 1 ≤ p.no then put (s.spanRecord launch 3 39 0) { p with limit := true }
  else
    let d := s.storeDesc store
    let served (e : Event) : Bool := (s.handlerEntry d l.pkt.htab e.handler).isSome
    let (evs, solo, cut) := chooseSpan served l.pkt.look (orWhenZero (bitField d 275 256) (2 ^ 20)) (orWhenZero (bitField d 290 276) 16384) p.pend
    let s := if solo then s.count .evSolo else s
    let s := if cut then s.count .spanTruncated else s
    let s := s.count .eventsGathered evs.length
    let run := (evs.zip (List.range evs.length)).map (fun x =>
      { ev := x.1.ev, aborts := x.1.aborts, idx := x.2, orphan := !served x.1.ev, crew := 0, lane := 0 : RunEv })
    let (s, run) := s.formCrews launch d l.pkt.htab (packSpan run) run
    put s { p with no := p.no + 1, pend := p.pend.drop evs.length, run := run, running := true }

/-- The memory that a gather reads: the descriptor, the inbox and the handler table (R367 to R369). -/
def State.gatherMemory (s : State) (l : Launch) : List (Nat × Nat) :=
  let d := s.storeDesc l.pkt.store
  [(l.pkt.store, 128), (l.pkt.htab, 8 * (bitField d 191 176 + 1))] ++
    (if bitField d 504 448 = 0 then [] else [(bitField d 504 448, 32 * 2 ^ bitField d 509 505)])

/-- SPAN_GATHER (R371): at the gather no crew of the launch is running and no commit is pending. -/
def execSpanGather (launch : Nat) (s : State) : Host.Outcome State Fault Refusal :=
  alive s (fun s =>
    match s.launch? launch with
    | none => s
    | some l =>
      match l.span with
      | none => s
      | some p => if p.running || p.limit || l.done || l.overflow || !s.memReady l.pkt.store || s.anyNotReady (s.gatherMemory l) then s
        else s.gather launch l p)

/- The commit of a span (R380 to R383) -/

/-- Changes the fate of one event of the span. -/
def Span.setFate (p : Span) (idx : Nat) (f : Fate) : Span :=
  { p with run := p.run.map (fun e => if e.idx = idx then { e with fate := f } else e) }

/-- Defers every event that is still to be taken and whose key exceeds `k` (R380). -/
def deferAbove (k : Event) (s : State) (p : Span) : State × Span :=
  let hit (e : RunEv) : Bool := e.fate == .open_ && k.before e.ev
  let l := p.run.filter hit
  (s.count .evDeferred l.length,
   { p with pend := l.foldl (fun acc e => insertEv { ev := e.ev, aborts := e.aborts } acc) p.pend
            run := p.run.map (fun e => if hit e then { e with fate := .deferred } else e) })

/-- What an EVC may still mark of the span: neither committed nor revoked (R380). -/
def RunEv.revocable (e : RunEv) : Bool := e.fate == .open_ || e.fate == .deferred || e.fate == .left

/-- An EVC of event `idx` (R380). The mark decides what becomes of an event whose turn is still to come. DESIGN CHOICE (log 53): a deferred event that an EVC has
removed and logged, and that a second names before its turn, is revoked and logged again. -/
def cancelEvent (store idx : Nat) (time serial : DWord) (s : State) (p : Span) : State × Span :=
  let names (e : Event) : Bool := e.time == time && e.serial == serial
  match p.pend.find? (fun y => names y.ev) with
  | some y => (s.logEvent store (y.ev.record true false), { p with pend := p.pend.erase y })
  | none =>
    match p.run.find? (fun e => names e.ev && e.idx != idx && e.revocable) with
    | some e => (s.count .evRevoked, p.setFate e.idx (if e.idx < idx then .gone else .revoked))
    | none => (s.count .cancelMiss, p)

/-- Applies one effect of event `idx` (R380). -/
def commitEffect (launch store idx : Nat) (entry : VAddr) (rerun : Bool) (x : State × Span) (e : Eff) : State × Span :=
  match e.kind with
  | .evs child => (x.1, { x.2 with pend := insertEv { ev := child, aborts := 0 } x.2.pend })
  | .evc t n => cancelEvent store idx t n x.1 x.2
  | _ => (x.1.applyEff launch entry rerun e, x.2)

/-- Children that an event's effects schedule. -/
def childrenOf (l : List Eff) : List Event := l.filterMap (fun e => match e.kind with | .evs c => some c | _ => none)

/-- The child of least key that is still pending (R380). -/
def leastPending (p : Span) (l : List Event) : Option Event :=
  let there := l.filter (fun c => p.pend.any (fun y => y.ev == c))
  there.find? (fun c => there.all (fun o => !o.before c))

/-- The effects of an event, in the order of its crew's buffer (R379). -/
def State.eventEffects (s : State) (e : RunEv) : List Eff := (((s.crew? e.crew).map (·.effects)).getD []).filter (fun x => x.evIx == some e.idx)

/-- The event's commit goes on; `false` while an effect waits for its turn on a page with ORD = 1. Once all are applied the event is logged, and a child of it
that is still pending defers what comes after it (R301, R380). -/
def State.applyEvent (s : State) (launch store : Nat) (p : Span) (e : RunEv) : State × Span × Bool :=
  let c := s.crew? e.crew
  let eff := s.eventEffects e
  let n := e.applied.getD 0
  let y := applyInOrder Prod.fst launch (commitEffect launch store e.idx ((c.map (·.entry)).getD 0) ((c.map (·.rc)).getD 0 != 0)) (eff.drop n) n (s, p)
  let (s, p) := y.1
  let mark (a : Option Nat) (f : Fate) (p : Span) : Span := { p with run := p.run.map (fun x => if x.idx = e.idx then { x with applied := a, fate := f } else x) }
  if y.2 < eff.length then (s, mark (some y.2) .open_ p, false)
  else
    let s := s.logEvent store (e.ev.record false false)
    let p := { mark none .committed p with last := some e.ev }
    match leastPending p (childrenOf eff), p.run.getLast? with
    | some k, some g => if k.before g.ev then (let y := deferAbove k s p; (y.1, y.2, true)) else (s, p, true)
    | _, _ => (s, p, true)

/-- Takes one event of the span at its turn; `false` while the commit must wait for a peer's version or answer. The versions and the store's room are checked, and
the buffer is read (R107), before its first effect is applied (R380, R381). -/
def State.commitEvent (s : State) (launch : Nat) (l : Launch) (p : Span) (e : RunEv) : State × Span × Bool :=
  let store := l.pkt.store
  let eff := s.eventEffects e
  let left (p : Span) : Span := p.setFate e.idx .left
  if e.applied.isSome then s.applyEvent launch store p e
  else if e.fate = .revoked then (s.logEvent store (e.ev.record true false), p.setFate e.idx .gone, true)
  else if e.orphan then
    (((s.logEvent store (e.ev.record false true)).count .evNoHandler).spanRecord launch 0 38 e.ev.serial, left p, true)
  else if e.bad then (s.logEvent store (e.ev.record false true), left p, true)
  else
    let asked := s.askVersions launch (numbered eff)
    match asked.checkVersions launch (numbered eff) with
    | .wait => (asked, p, false)
    | .mismatch =>
      let s := (asked.endChecks launch).count .evAborts
      let (s, p) := deferAbove e.ev s { left p with pend := insertEv { ev := e.ev, aborts := e.aborts + 1 } p.pend }
      (s, p, true)
    | .good =>
      let s := (asked.endChecks launch).readEffects e.crew (fun x => x.evIx == some e.idx)
      if 2 ^ bitField (s.storeDesc store) 62 57 < (left p).used + (childrenOf (s.eventEffects e)).length then
        ((s.logEvent store (e.ev.record false true)).spanRecord launch 3 37 e.ev.serial, left p, true)
      else s.applyEvent launch store p e

/-- Whether an event still awaits its turn. -/
def RunEv.waits (e : RunEv) : Bool := e.fate == .open_ || e.fate == .revoked

/-- Takes the events in canonical order as far as they can be taken (R380). -/
def State.commitEvents (launch : Nat) (l : Launch) : Nat → State → Span → State × Span
  | 0, s, p => (s, p)
  | n + 1, s, p =>
    match p.run.find? RunEv.waits with
    | none => (s, p)
    | some e =>
      match s.commitEvent launch l p e with
      | (s, p, true) => State.commitEvents launch l n s p
      | (s, p, false) => (s, p)

/-- The span ends: its crews are gone, and SPANS and PENDING are written (R383). -/
def State.endSpan (s : State) (launch : Nat) (l : Launch) (p : Span) : State :=
  let cores := (s.crews.filter (fun x => x.2.launch == launch)).map (·.2.core)
  let s := { s with crews := s.crews.filter (fun x => x.2.launch != launch) }
  let s := cores.foldl State.settle s
  let s := (s.setDesc l.pkt.store 72 4 p.no).setDesc l.pkt.store 80 8 p.pend.length
  s.modLaunch launch (fun l => { l with span := some { p with run := [], running := false } })

/-- Every crew of the launch has retired, and what the span's effects write is ready (R373). -/
def State.spanRetired (s : State) (launch : Nat) : Bool :=
  s.crews.all (fun x => x.2.launch != launch || (x.2.stat == .retired && !s.preCrews.contains x.1 && x.2.effects.all s.effReady))

/-- Effects of the launch's commits that are still to be performed: every commit of a span happens before every access of the next (R373). -/
def State.commitsOut (s : State) (launch : Nat) : Bool := s.far.any (fun f => f.what.commitOf == some launch)

/-- SPAN_COMMIT (R380). -/
def execSpanCommit (launch : Nat) (s : State) : Host.Outcome State Fault Refusal :=
  alive s (fun s =>
    match s.launch? launch with
    | none => s
    | some l =>
      match l.span with
      | none => s
      | some p =>
        if !p.running || l.done || l.overflow || !s.spanRetired launch || !s.memReady l.pkt.store then s
        else
          let y := s.commitEvents launch l (p.run.length + 1) p
          let p := y.2
          let s := y.1.modLaunch launch (fun l => { l with span := some p })
          let s := s.wakeCommitted
          if p.run.any RunEv.waits || s.commitsOut launch then s else s.endSpan launch l p)

end Sys2Proof.Machine
end

