-- ==== Sys2Proof/Machine/Pool.lean ====
section
/-! DEFINITION. The pool of a core by rows (R104, R105, R107), and the coding of a region of 4 KiB (R336). -/
namespace Sys2Proof.Machine

/-- The crew that holds the accumulator pane of a core (R163). -/
def State.tileHolder (s : State) (core : Nat) : Option Nat :=
  ((s.coreCrews core).find? (fun x => (x.2.stat == .running || x.2.stat == .saving) && decide (0 < ((s.launch? x.2.launch).map (·.pkt.acc)).getD 0))).map (·.1)

/-- The panes lie in the order of R104: the register pane in blocks of 32 rows (R105), the scratch pane, the tiles of 5,120 rows. Which gang holds a block, which
crew a row of the scratch pane, whose effect buffer stands behind its scratch (R73), and where the words of a control block stand in it, is a free value (log 12). -/
def State.rowHolds (s : State) (core row : Nat) : RowHolds :=
  match (s.core core).part with
  | none => .nothing
  | some w =>
    let reg := 1024 * bitField w.toNat 7 0
    let scr := 1024 * bitField w.toNat 15 8
    let acc := 5120 * bitField w.toNat 23 16
    if row < reg then
      let b := Config.poolRow core (row / 32)
      let j := b / 64 % 33
      if j = 0 then .control (b % 32) (b / 32 % 2 == 1) (Config.poolRow core (poolRows + row) % 32)
      else .lanes (b % 32) (b / 32 % 2 == 1) (8 * (j - 1) + row % 32 / 4) (row % 4)
    else if row < reg + scr then
      let b := Config.poolRow core row
      match ((s.coreCrews core)[b % 32]?).map (·.1) with
      | some k =>
        let rows := (s.scratchOf k + 63) / 64
        if b / 32 < rows then .scratch k (b / 32) else .effect k (b / 32 - rows)
      | none => .nothing
    else if row < reg + scr + acc then
      match s.tileHolder core with
      | some k => .tile k ((row - reg - scr) / 5120) (64 * ((row - reg - scr) % 5120))
      | none => .nothing
    else .nothing

/-- Word `i` of a row. -/
def State.poolWord (s : State) (core row i : Nat) : Word × Bool := s.heldWord core (s.rowHolds core row) i

/-- An uncorrectable row of a pool (R107). -/
def State.loseRow (s : State) (core row : Nat) (many : Bool) : State := s.loseHeld core (s.rowHolds core row) many

/- The region coding (R336) -/

/-- The header word of a run record. -/
def runHeader (kind len : Nat) : Word := BitVec.ofNat 32 (kind * 2 ^ 30 + len)

/-- Words from the head on that equal `w`. -/
def sameAs (w : Word) : List Word → Nat
  | [] => 0
  | x :: r => if x = w then sameAs w r + 1 else 0

/-- The run records of some words, at most `fuel` of them. A run of zeros or of one word, or else a literal run; how long it is made is a free value
(log 11). -/
def codeRuns : Nat → List Word → List Word
  | 0, _ => []
  | _, [] => []
  | fuel + 1, w :: r =>
    let same := sameAs w r
    let cut := Config.runCut fuel
    if w = 0 then runHeader 0 (cut % (same + 1) + 1) :: codeRuns fuel (r.drop (cut % (same + 1)))
    else if same = 0 then runHeader 2 (cut % (r.length + 1) + 1) :: w :: (r.take (cut % (r.length + 1)) ++ codeRuns fuel (r.drop (cut % (r.length + 1))))
    else runHeader 1 (cut % (same + 1) + 1) :: w :: codeRuns fuel (r.drop (cut % (same + 1)))

/-- The words that run records restore. -/
def decodeRuns : Nat → List Word → List Word
  | 0, _ => []
  | _, [] => []
  | fuel + 1, h :: r =>
    let len := bitField h.toNat 10 0
    match bitField h.toNat 31 30 with
    | 0 => List.replicate len 0 ++ decodeRuns fuel r
    | 1 => List.replicate len (r.headD 0) ++ decodeRuns fuel (r.drop 1)
    | _ => r.take len ++ decodeRuns fuel (r.drop len)

/-- A coded region: its header, the poison bitmap when a word is poisoned, and the run records. -/
def codeRegion (n : Nat) (l : List (Word × Bool)) : List Byte :=
  let flag := l.any (·.2)
  leBytes 8 (n + flag.toNat * 2 ^ 16) ++
    (if flag then leBytes 128 ((l.zip (List.range l.length)).foldl (fun x y => x + y.1.2.toNat * 2 ^ y.2) 0) else []) ++
    ((codeRuns l.length (l.map (·.1))).map (fun w => leBytes 4 w.toNat)).flatten

/-- The 1,024 words of region `n` of a core's pool. -/
def State.poolRegion (s : State) (core n : Nat) : List (Word × Bool) :=
  ((List.range 64).map (fun r => (List.range 16).map (fun i => s.poolWord core (64 * n + r) i))).flatten

/-- The regions of a core's pool that hold something, coded (R336, R363). -/
def State.poolImage (s : State) (core : Nat) : List Byte :=
  if (s.core core).part.isNone then []
  else ((List.range 768).map (fun n =>
    let l := s.poolRegion core n
    if l.all (· == (0, false)) then [] else codeRegion n l)).flatten

end Sys2Proof.Machine
end

