-- ==== Sys2Proof/Machine/Bringup.lean ====
section
/-! DEFINITION. Upsets, firmware and bring-up: reads of pool rows and the scrubber (R107), scheduler recovery (R359), fatal errors and the dump (R361 to R363), the
thermal trip (R406), power (R405), residue channels (R194), images (R403), readiness (R401, R402) and module reset (R404). -/
namespace Sys2Proof.Machine

/- The pool (R107) -/

/-- Notes a corrected error of a bank; on the sixteenth distinct row the bank is marked failed (R107). -/
def State.noteCorrected (s : State) (core row bank : Nat) : State :=
  let k := s.core core
  if k.failedBanks.contains bank then s
  else
    let l := if k.corrected.contains (bank, row) then k.corrected else k.corrected ++ [(bank, row)]
    let mark := decide (16 ≤ (l.filter (fun x => x.1 == bank)).length)
    let s := s.putCore core { k with corrected := l, failedBanks := if mark then k.failedBanks ++ [bank] else k.failedBanks }
    if mark then { s with reports := s.reports ++ [.bankFailed core bank] } else s

/-- The outcome of reading a row in which the given unmarked banks are in error (R107). -/
def State.readRow (s : State) (core row : Nat) (banks : List Nat) : State :=
  let marked := (s.core core).failedBanks
  let new := banks.filter (fun b => !marked.contains b)
  match marked.length + new.length with
  | 0 => s
  | 1 =>
    let bank := (new ++ marked).headD 0
    let s := (s.countAt (.core core) .poolCorrected).noteCorrected core row bank
    { s with reports := s.reports ++ [.poolBank core bank] }
  | n => s.loseRow core row (decide (2 < n))

/-- Rows named in a list of errors, each once, with their banks. -/
def rowsOf (l : List (Nat × Nat)) : List (Nat × List Nat) :=
  let rows := l.foldl (fun acc x => if acc.contains x.1 then acc else acc ++ [x.1]) []
  rows.map (fun r => (r, ((l.filter (fun x => x.1 == r)).map (·.2)).eraseDups))

/-- The rows whose reading by the scrubber is not simply good: on a core that has a bank marked failed, every row (R107). -/
def State.scrubRows (s : State) (core : Nat) (bad : List (Nat × Nat)) : List (Nat × List Nat) :=
  if (s.core core).failedBanks.isEmpty then rowsOf bad
  else (List.range poolRows).map (fun r => (r, ((bad.filter (fun x => x.1 == r)).map (·.2)).eraseDups))

/-- SCRUB: the scrubber reads and rewrites the rows of a core; `bad` lists the rows and banks it finds in error (R107). -/
def execScrub (core : BitVec 9) (bad : List (Nat × Nat)) (s : State) : Host.Outcome State Fault Refusal :=
  alive s (fun s => (s.scrubRows core.toNat bad).foldl (fun s x => s.readRow core.toNat x.1 x.2) s)

/- Fatal errors (R361 to R363) -/

/-- Dump sections in the order in which firmware writes them: KIND and UNIT (log 11). -/
def dumpSections : List (Nat × Nat) :=
  let cores (k : Nat) : List (Nat × Nat) := (List.range 512).map (fun c => (k, c))
  cores 1 ++ cores 2 ++ cores 3 ++ cores 4 ++ [(5, 0xFFFFFFFF), (6, 0), (6, 1), (7, 0xFFFFFFFF), (8, 0xFFFFFFFF)] ++ cores 9

/-- One section entry (R363): the pool panes are in the region coding; whether another section is, is a free value (log 11). -/
def dumpEntry (kind unit offset length : Nat) : Nat :=
  kind + (kind == 2 || Config.dumpCoding kind unit).toNat * 2 ^ 8 + unit * 2 ^ 32 + offset * 2 ^ 128 + length * 2 ^ 192

/-- The bytes of a section that stands at a place of the area: the coded regions of a core's pool, with its side stores behind them; every other section
is free bytes (R363, log 11). -/
def State.sectionBytes (s : State) (kind unit at_ : Nat) : List Byte :=
  let coded := if kind = 2 then s.poolImage unit else []
  coded ++ (List.range (Config.dumpSectionBytes kind unit)).map (fun i => Config.dumpByte (at_ + coded.length + i))

/-- Writes the entries and the sections; one that does not fit has LENGTH 0. Answers where the last section ends. -/
def State.dumpRest (base len : Nat) : List (Nat × Nat) → Nat → Nat → State → State × Nat
  | [], _, at_, s => (s, at_)
  | (k, u) :: r, slot, at_, s =>
    let l := s.sectionBytes k u at_
    if at_ + l.length ≤ len then
      let s := s.engineBytes (base + slot) (leBytes 32 (dumpEntry k u at_ l.length))
      State.dumpRest base len r (slot + 32) (at_ + l.length) (s.engineBytes (base + at_) l)
    else State.dumpRest base len r (slot + 32) at_ (s.engineBytes (base + slot) (leBytes 32 (dumpEntry k u at_ 0)))

/-- The dump: the header, the section table as far as it fits, the sections. COUNT and SIZE are what is written. With no room for the header there is none. What
lies in memory that is not ready waits, as every access does (R402, log 11). -/
def State.dump (s : State) (code : Nat) : State :=
  if s.dumpLen < 32 then s
  else
    let l := dumpSections.take ((s.dumpLen - 32) / 32)
    let (s, size) := State.dumpRest s.dumpBase s.dumpLen l 32 (32 + 32 * l.length) s
    let header := 1 + code * 2 ^ 64 + l.length * 2 ^ 96 + size * 2 ^ 128 + s.cyc 0 % 2 ^ 64 * 2 ^ 192
    s.engineBytes s.dumpBase (leBytes 32 header)

/-- A fatal error: nothing issues and no engine works until reset; READY falls (R361, R402). -/
def State.fatalStop (s : State) (code : Nat) : State :=
  let s := s.dump code
  { s with fatal := some code, readyBits := 0, picks := [] }.interrupt 2

def execFatalError (code : BitVec 3) (s : State) : Host.Outcome State Fault Refusal :=
  alive s (fun s => if 1 ≤ code.toNat ∧ code.toNat ≤ 4 then s.fatalStop code.toNat else s)

/-- THERMAL_TRIP: 2^20 cycles after P has reached 0 on both dies, firmware makes a fatal request (R406). -/
def execThermalTrip (s : State) : Host.Outcome State Fault Refusal :=
  alive s (fun s =>
    match s.zeroAt with
    | some t => if t + 2 ^ 20 ≤ s.clock then s.fatalStop 4 else s
    | none => s)

/-- SCHED_RECOVERY (R359): the cores of the cluster stop issuing until everything outstanding there has completed or failed (`State.endRecovery`); a second
one within 2^24 cycles is fatal. -/
def execSchedRecovery (cluster : BitVec 3) (s : State) : Host.Outcome State Fault Refusal :=
  alive s (fun s =>
    let c := cluster.toNat
    let last := (Store.get s.recovered c).toNat
    if last ≠ 0 ∧ s.clock < last - 1 + 2 ^ 24 then s.fatalStop 1
    else
      let s := s.count .schedRecoveries
      { s with
        recovered := Store.set s.recovered c (BitVec.ofNat 64 (s.clock + 1))
        reports := s.reports ++ [.scheduler c]
        recovering := if s.recovering.contains c then s.recovering else s.recovering ++ [c] })

/- Firmware (R194, R405) -/

/-- P of R405. -/
def poolOf (watts : Nat) : Nat := min 256 ((watts - 825) * 2 / 5)

/-- P on both dies; the cycle at which it reaches 0 is kept while it stays 0 (R406). -/
def State.setPool (s : State) (p : Nat) : State :=
  { s with pool0 := p, pool1 := p, zeroAt := if p = 0 then some (s.zeroAt.getD s.clock) else none }

/-- SET_POWER_LIMIT: W, and the most that a temperature above its limit leaves of P (R405, R182). -/
def execSetPowerLimit (watts most : Nat) (s : State) : Host.Outcome State Fault Refusal :=
  alive s (fun s => if 900 ≤ watts ∧ watts ≤ 1600 then { s with watts := watts }.setPool (min most (poolOf watts)) else s)

/-- CHANNEL_ENABLE_WRITE: firmware writes EN (R194). -/
def execChannelEnableWrite (core : BitVec 9) (en : BitVec 8) (s : State) : Host.Outcome State Fault Refusal :=
  alive s (fun s => s.modCore core.toNat (fun k => { k with en := en }))

/- Bring-up (R402 to R404) -/

/-- An access-control entry (R322). -/
def aclOf (x : BitVec 192) : Acl :=
  { keyHi := x.extractLsb' 160 32, keyLo := x.extractLsb' 128 32, v := x.getLsbD 74, kset := x.getLsbD 73
    maxPrio := (x.extractLsb' 70 3).toNat, peer := x.extractLsb' 64 6, qmask := x.extractLsb' 0 64 }

/-- The 64 descriptors as firmware places them: BASE, LLEN, EN and STATBASE; every other field is zero, whatever the words given hold there (R8, R320). -/
def queueTable (l : List (BitVec 192)) : List Byte :=
  ((List.range 64).map (fun q => ((leBytes 64 (l.getD q 0).toNat).zip (List.range 64)).map (fun x => x.1 &&& queueRw x.2))).flatten

/-- What the firmware sets once it runs. -/
def State.startFirmware (s : State) (f : Firmware) : State :=
  let s : State := { s with
    qtbase := f.qtbase - f.qtbase % 4096, kickFrame := f.kickFrame, dumpBase := f.dumpBase - f.dumpBase % 4096, dumpLen := f.dumpLen
    peerNo := f.self, image := true
    acl := (f.acl.take 256).foldr (fun x acc => (0, aclOf x) :: acc.map (fun y => (y.1 + 1, y.2))) []
    ports := (f.peers.take 36).foldr (fun p acc => (0, { peer := p, up := true }) :: acc.map (fun y => (y.1 + 1, y.2))) [] }
  s.engineWrite s.qtbase (queueTable f.queues)

/-- BOOT_STATUS of an image (R403). -/
def bootStatus (ecdsaOk lmsOk : Bool) (version fuse : Nat) : Nat :=
  if !ecdsaOk then 1 else if !lmsOk then 2 else if version < fuse then 3 else 0

/-- IMAGE_LOAD: an image that fails a check is not run (R403). -/
def execImageLoad (ecdsaOk lmsOk : Bool) (version fuse : Nat) (fw : Firmware) (s : State) : Host.Outcome State Fault Refusal :=
  alive s (fun s =>
    let b := bootStatus ecdsaOk lmsOk version fuse
    if b = 0 then { s with boot := 0 }.startFirmware fw else { s with boot := b })

/-- FUNCTION_READY: a bit of READY rises, and what waited for memory looks again: records, kicks, commands, far accesses, gangs; with no valid image only MBOX
rises (R401 to R403). -/
def execFunctionReady (bit : BitVec 6) (s : State) : Host.Outcome State Fault Refusal :=
  alive s (fun s =>
    if 58 ≤ bit.toNat ∨ (s.noImage ∧ bit ≠ 0) then s
    else
      let s := { s with
        readyBits := s.readyBits ||| oneBit 64 bit.toNat, agenda := s.mbox ++ s.farIn ++ s.agenda, mbox := [], farIn := [], walking := [] }
      s.flushHeld.flushKicks.wake (fun g => g.stat == .waiting .memory))

/- What reaches the module from outside -/

/-- An access-control entry whose V firmware clears is reclaimed (R323). -/
def State.clearAcl (s : State) (n : Nat) : State :=
  { s with acl := s.acl.map (fun x => if x.1 = n then (x.1, { x.2 with v := false }) else x) }

/-- An upset hits a symbol of a transom slot (R160). -/
def State.upsetSymbol (s : State) (core launch slot symbol : Nat) : State :=
  { s with leases := s.leases.map (fun l =>
      if l.core = core ∧ l.launch = launch ∧ slot < l.size then
        let x := (Tab.get? l.slots slot).getD {}
        { l with slots := Tab.set l.slots slot { x with upset := Store.set x.upset symbol 1 } }
      else l) }

def State.meets (s : State) : Outside → State
  | .barWrite link ofs bytes mem => s.barWrite link ofs bytes mem
  | .barRead link ofs n => s.barRead link ofs n
  | .clearAcl n => if s.fatal.isSome then s else s.clearAcl n
  | .transomUpset core launch slot symbol => s.upsetSymbol core launch slot symbol
  | .tableUpset core slot => s.modGang core slot (fun g => { g with tableBad := true })

/- Reset -/

/-- The queue descriptors hold their reset values, 0 (R7, R320). -/
def State.clearQueues (s : State) : State := if s.image then s.physWrite s.qtbase (clean (queueTable [])) else s

/-- MODULE_RESET (R404): the state after reset, with memory but for the queue descriptors, and what has already left the module or has not reached it yet;
versions are 0 (R229). -/
def execModuleReset (s : State) : Host.Outcome State Fault Refusal :=
  let m := s.clearQueues
  .next { State.reset with
    mem := m.mem, memPois := m.memPois, host := s.host, farOut := s.farOut, reports := s.reports, outside := s.outside, agenda := s.agenda, nextId := s.nextId }

end Sys2Proof.Machine
end

