-- ==== Sys2Proof/Machine/Control.lean ====
section
/-! DEFINITION. Control instructions: TRAP (R350), branches, CALL, LOOP and RET (R94 to R96), mask regions (R97 to R99), EXIT (R100). -/
namespace Sys2Proof.Machine

/-- `target` of R95: wrap(addr + OFFSET, 57). -/
def branchTo (g : Gang) (ofs : Word) : VAddr := g.pc + BitVec.ofInt 57 ofs.toInt

/-- R350, for the code operand's value. -/
def trapBody (code : State → Gang → DWord) (s : State) (g : Gang) (act : LaneMask) : Res :=
  if g.live act = 0 then .jump s g (g.pc + 4) else .stop s g (code s g) (g.live act)

def execTrap (st : BitVec 3) (g : BitVec 4) (a : Sc) (s : State) : Host.Outcome State Fault Refusal :=
  runGang (.trap st g a) s anywhere (trapBody (fun s g => s.sc g none a))

/-- The code is the literal; the form is 12 bytes long. -/
def execTrapLit (st : BitVec 3) (g : BitVec 4) (v : DWord) (s : State) : Host.Outcome State Fault Refusal :=
  runGang (.trapLit st g v) s anywhere
    (fun s g act => if g.live act = 0 then .jump s g (g.pc + 12) else .stop s g v (g.live act))

def execBr (st : BitVec 3) (ofs : Word) (s : State) : Host.Outcome State Fault Refusal :=
  runGang (.br st ofs) s anywhere (fun s g _ => .jump s g (branchTo g ofs))

def execBrc (h : SH) (a : Sc) (ofs : Word) (s : State) : Host.Outcome State Fault Refusal :=
  runGang (.brc h a ofs) s anywhere
    (fun s g _ => .jump s g (if s.sc g h.lit a = 0 then g.next (shape (.brc h a ofs)) else branchTo g ofs))

def execCall (st : BitVec 3) (d : BitVec 6) (ofs : Word) (s : State) : Host.Outcome State Fault Refusal :=
  runGang (.call st d ofs) s anywhere (fun s g _ => .jump s (g.sSet d.toNat ((g.pc + 12).setWidth 64)) (branchTo g ofs))

def execLoop (st : BitVec 3) (d : BitVec 6) (ofs : Word) (s : State) : Host.Outcome State Fault Refusal :=
  runGang (.loop st d ofs) s anywhere (fun s g _ =>
    let x := g.sGet d.toNat - 1
    .jump s (g.sSet d.toNat x) (if x = 0 then g.pc + 12 else branchTo g ofs))

/-- RET's effect for a target value (R96). -/
def retBody (x : State → Gang → DWord) (s : State) (g : Gang) (_ : LaneMask) : Res :=
  let t := (x s g).setWidth 57
  if t.extractLsb' 0 2 = 0#2 then .jump s g t else .trap 7

def execRet (st : BitVec 3) (a : Sc) (s : State) : Host.Outcome State Fault Refusal :=
  runGang (.ret st a) s anywhere (retBody (fun s g => s.sc g none a))

def execRetLit (st : BitVec 3) (v : DWord) (s : State) : Host.Outcome State Fault Refusal :=
  runGang (.retLit st v) s anywhere (retBody (fun _ _ => v))

def execVif (st : BitVec 3) (m : BitVec 4) (s : State) : Host.Outcome State Fault Refusal :=
  runGang (.vif st m) s anywhere (fun s g _ =>
    if 16 ≤ g.stack.length then .trap 5
    else .ok s { g with stack := { parent := g.top, cond := g.mGet m.toNat, els := false } :: g.stack })

def execVelse (st : BitVec 3) (s : State) : Host.Outcome State Fault Refusal :=
  runGang (.velse st) s anywhere (fun s g _ =>
    match g.stack with
    | [] => .trap 6
    | l :: r => .ok s { g with stack := { l with els := !l.els } :: r })

def execVend (st : BitVec 3) (s : State) : Host.Outcome State Fault Refusal :=
  runGang (.vend st) s anywhere (fun s g _ =>
    match g.stack with
    | [] => .trap 6
    | _ :: r => .ok s { g with stack := r })

/-- R100; in the handler slot it ends the run (R344). -/
def execExit (st : BitVec 3) (s : State) : Host.Outcome State Fault Refusal :=
  runGang (.exit st) s anywhere (fun s g _ => .gone (if g.isHandler then s.endRun g.core false else s.exitGang g))

/-- OPC 0x7F is ILLEGAL with DETAIL 1, FILLER, whatever the gang holds (R63, R338, R340). -/
def execUndef (a d : BitVec 8) (g : BitVec 4) (st : BitVec 3) (l : BitVec 2) (s : State) : Host.Outcome State Fault Refusal :=
  runGang (.undef a d g st l) s nowhere (fun _ _ _ => .trapWith 1 1 (wordsInfo (.undef a d g st l)))

end Sys2Proof.Machine
end

