-- ==== Sys2Proof/Machine/LaneFp.lean ====
section
/-! DEFINITION. Vector floating-point instructions (R136 to R140). -/
namespace Sys2Proof.Machine

/-- A floating-point result into a lane with the lane code it raises (R31). -/
def fpLane (g : Gang) (r : FpRes) : Nat × Nat := (r.1, g.fpTrap r.2)

/-- The value a lane's source holds in its format. -/
def State.fval (s : State) (g : Gang) (h : VH) (t : Fmt) (a : VSrc) (i : Nat) : Val :=
  t.fp.read (s.vsrc g h.lit t a i % 2 ^ t.bits)

def fp1 (h : VH) (t : Fmt) (d : BitVec 8) (a : VSrc) (f : Gang → Val → FpRes) : State → Gang → LaneMask → Res :=
  lanewise (srcRegs t a) (fun s g i => fpLane g (f g (s.fval g h t a i))) (putV t d)

def fp2 (h : VH) (t : Fmt) (d : BitVec 8) (a b : VSrc) (f : Gang → Val → Val → FpRes) : State → Gang → LaneMask → Res :=
  lanewise (srcRegs t a ++ srcRegs t b) (fun s g i => fpLane g (f g (s.fval g h t a i) (s.fval g h t b i))) (putV t d)

def execFadd (h : VH) (r : Rnd) (t : Fmt) (d : BitVec 8) (a b : VSrc) (s : State) : Host.Outcome State Fault Refusal :=
  let t' := t.or .f32
  runGang (.fadd h r t d a b) s anywhere (fp2 h t' d a b (fun g x y => fpAdd t'.fp (g.mode r) g.sat x y))

def execFsub (h : VH) (r : Rnd) (t : Fmt) (d : BitVec 8) (a b : VSrc) (s : State) : Host.Outcome State Fault Refusal :=
  let t' := t.or .f32
  runGang (.fsub h r t d a b) s anywhere (fp2 h t' d a b (fun g x y => fpSub t'.fp (g.mode r) g.sat x y))

def execFmul (h : VH) (r : Rnd) (t : Fmt) (d : BitVec 8) (a b : VSrc) (s : State) : Host.Outcome State Fault Refusal :=
  let t' := t.or .f32
  runGang (.fmul h r t d a b) s anywhere (fp2 h t' d a b (fun g x y => fpMul t'.fp (g.mode r) g.sat x y))

def execFfma (h : VH) (r : Rnd) (t : Fmt) (d : BitVec 8) (a b c : VSrc) (s : State) : Host.Outcome State Fault Refusal :=
  let t' := t.or .f32
  runGang (.ffma h r t d a b c) s anywhere
    (lanewise (srcRegs t' a ++ srcRegs t' b ++ srcRegs t' c)
      (fun s g i => fpLane g (fpFma t'.fp (g.mode r) g.sat (s.fval g h t' a i) (s.fval g h t' b i) (s.fval g h t' c i))) (putV t' d))

/-- FMIN and FMAX keep the chosen operand's bits (R137). -/
def minMaxBody (max : Bool) (h : VH) (t : Fmt) (d : BitVec 8) (a b : VSrc) : State → Gang → LaneMask → Res :=
  lanewise (srcRegs t a ++ srcRegs t b)
    (fun s g i => fpLane g (fpMinMax t.fp max (s.vsrc g h.lit t a i % 2 ^ t.bits) (s.vsrc g h.lit t b i % 2 ^ t.bits))) (putV t d)

def execFmin (h : VH) (t : Fmt) (d : BitVec 8) (a b : VSrc) (s : State) : Host.Outcome State Fault Refusal :=
  runGang (.fmin h t d a b) s anywhere (minMaxBody false h (t.or .f32) d a b)

def execFmax (h : VH) (t : Fmt) (d : BitVec 8) (a b : VSrc) (s : State) : Host.Outcome State Fault Refusal :=
  runGang (.fmax h t d a b) s anywhere (minMaxBody true h (t.or .f32) d a b)

/-- FSGN: bit operations on the sign (R137). -/
def signAs (t : Fmt) (x : Nat) (neg : Bool) : Nat :=
  let k := 2 ^ (t.bits - 1)
  x % k + (if neg then k else 0)
def signOf (t : Fmt) (x : Nat) : Bool := x.testBit (t.bits - 1)

/-- FSGN (R137), on any value, a NaN included. DESIGN CHOICE (log 98): an F8 NaN with its sign set is written as it stands, though R23 says that every F8 NaN
written is 0x7F. -/
def execFsgn (h : VH) (op : SgnArg) (t : Fmt) (d : BitVec 8) (a : VSrc) (s : State) : Host.Outcome State Fault Refusal :=
  let t' := t.or .f32
  runGang (.fsgn h op t d a) s anywhere
    (match op with
      | .abs => lane1 h t' d a (fun t x => signAs t x false)
      | .neg => lane1 h t' d a (fun t x => signAs t x (!signOf t x))
      | .copy b => lane2 h t' d a b (fun t x y => signAs t x (signOf t y)))

def execFcmp (h : VH) (c : Cond) (t : Fmt) (d : BitVec 4) (a b : VSrc) (s : State) : Host.Outcome State Fault Refusal :=
  let t' := t.or .f32
  runGang (.fcmp h c t d a b) s anywhere
    (lanewise (srcRegs t' a ++ srcRegs t' b)
      (fun s g i => let r := c.fp? (s.fval g h t' a i) (s.fval g h t' b i); (r.1, g.fpTrap { inv := r.2 })) (putM d))

/-- The exact value a conversion starts from (R139). -/
def State.cvtVal (s : State) (g : Gang) (h : VH) (t : Fmt) (a : VSrc) (i : Nat) : Val :=
  if t.float then s.fval g h t a i else .fin (Dy.ofInt (rd t (s.vsrc g h.lit t a i)))

/-- Delivers a value in a floating-point or an integer type (R32, R136). -/
def deliverTo (t : Fmt) (md : Mode) (sat : Bool) (v : Val) : FpRes :=
  if t.float then t.fp.deliver md sat v else t.deliverInt md sat v

def execFcvt (h : VH) (r : Rnd) (f t : Fmt) (d : BitVec 8) (a : VSrc) (s : State) : Host.Outcome State Fault Refusal :=
  let f' := f.or .f32
  runGang (.fcvt h r f t d a) s anywhere
    (lanewise (srcRegs f' a) (fun s g i => fpLane g (deliverTo t (g.mode r) g.sat (s.cvtVal g h f' a i))) (putV t d))

def execFrint (h : VH) (r : Rnd) (t : Fmt) (d : BitVec 8) (a : VSrc) (s : State) : Host.Outcome State Fault Refusal :=
  let t' := t.or .f32
  runGang (.frint h r t d a) s anywhere (fp1 h t' d a (fun g x => fpRint t'.fp (g.mode r) x))

def execFdiv (h : VH) (r : Rnd) (t : Fmt) (d : BitVec 8) (a b : VSrc) (s : State) : Host.Outcome State Fault Refusal :=
  let t' := t.or .f32
  runGang (.fdiv h r t d a b) s anywhere (fun s g act =>
    lateRes [.v d.toNat] (fp2 h t' d a b (fun g x y => fpDiv t'.fp (g.mode r) g.sat x y) s g act))

def execFsqrt (h : VH) (r : Rnd) (t : Fmt) (d : BitVec 8) (a : VSrc) (s : State) : Host.Outcome State Fault Refusal :=
  let t' := t.or .f32
  runGang (.fsqrt h r t d a) s anywhere (fun s g act =>
    lateRes [.v d.toNat] (fp1 h t' d a (fun g x => fpSqrt t'.fp (g.mode r) g.sat x) s g act))

def execFclass (h : VH) (t : Fmt) (d : BitVec 8) (a : VSrc) (s : State) : Host.Outcome State Fault Refusal :=
  let t' := t.or .f32
  runGang (.fclass h t d a) s anywhere
    (lanewise (srcRegs t' a) (fun s g i => (2 ^ fpClass t'.fp (s.vsrc g h.lit t' a i % 2 ^ t'.bits), 0)) (putV .n32 d))

/-- A packed pair of results; the lane raises what its first raising half raises (R140). -/
def packLane (g : Gang) (p : Fmt) (lo hi : FpRes) : Nat × Nat :=
  (lo.1 + 2 ^ p.bits * hi.1, let c := g.fpTrap lo.2; if c = 0 then g.fpTrap hi.2 else c)

/-- FPACK (R140). DESIGN CHOICE (log 116): where an F8 result leaves half of a word of vd, the word keeps its poison bit, and no poison is consumed. -/
def execFpack (h : VH) (r : Rnd) (p wide : Fmt) (d : BitVec 8) (a : VSrc) (x : PackArg) (s : State) : Host.Outcome State Fault Refusal :=
  let p' := p.or .f16
  runGang (.fpack h r p wide d a x) s anywhere
    (match x with
      | .pack b c => fun s g act =>
        let lo := s.sc g h.lit c = 0
        let r := lanewise (srcRegs .f32 a ++ srcRegs .f32 b)
          (fun s g i =>
            let y := packLane g p' (p'.fp.deliver (g.mode r) g.sat (s.fval g h .f32 a i)) (p'.fp.deliver (g.mode r) g.sat (s.fval g h .f32 b i))
            let old := g.vGet d.toNat i
            (if p'.bits = 16 then y.1 else if lo then old / 65536 * 65536 + y.1 else y.1 * 65536 + old % 65536, y.2))
          (fun g l => l.foldl (fun g x => g.vSet d.toNat x.1 x.2 (p'.bits == 8 && g.vBad d.toNat x.1)) g)
        r s g act
      | .unpack b => fun s g act =>
        let n := 32 / p'.bits
        let j := (s.sc g h.lit b).toNat % n
        lanewise (srcRegs .f32 a)
          (fun s g i =>
            let v := p'.fp.read (s.vsrc g h.lit .f32 a i % 2 ^ 32 / 2 ^ (p'.bits * j) % 2 ^ p'.bits)
            fpLane g (match v with
              | .nan n f sg => (fp32.quiet n f, { inv := sg })
              | .inf n => (fp32.infBits n, {})
              | .fin x => fp32.round .rtz false x))
          (putV .f32 d) s g act)

end Sys2Proof.Machine
end

