-- ==== Sys2Proof/Machine/Cross.lean ====
section
/-! DEFINITION. Cross-lane instructions (R141 to R147), the select instructions (R148 to R153) and VRND (R154). -/
namespace Sys2Proof.Machine

/-- `src(j)` of R142: 0 from a dead lane, else the lane's value, with its poison. DESIGN CHOICE (log 100): a 64-bit pair of which one word is
poisoned is poisoned whole. -/
def State.srcOf (s : State) (g : Gang) (h : VH) (t : Fmt) (a : VSrc) (j : Nat) : Nat × Bool :=
  if g.dead.getLsbD j then (0, false)
  else (s.vsrc g h.lit t a j % 2 ^ t.bits, (srcRegs t a).any (fun r => g.vBad r j))

/-- A move between lanes: `from_ i` names the lane that lane i takes its value from (R131 case 2). -/
def moveLanes (h : VH) (t : Fmt) (d : BitVec 8) (a : VSrc) (from_ : State → Gang → Nat → Nat) (s : State) (g : Gang) (act : LaneMask) : Res :=
  let l := (bitsOn (g.live act)).map (fun i => (i, s.srcOf g h t a (from_ s g i)))
  .ok s (l.foldl (fun g x => g.vPut t d.toNat x.1 x.2.1 x.2.2) g)

def execLxch (h : VH) (t : Fmt) (d : BitVec 8) (a : VSrc) (b : Sc) (s : State) : Host.Outcome State Fault Refusal :=
  runGang (.lxch h t d a b) s anywhere (moveLanes h (t.or .b32) d a (fun s g i => i ^^^ ((s.sc g h.lit b).toNat % 64)))

def execLbcst (h : VH) (t : Fmt) (d : BitVec 8) (a : VSrc) (b : Sc) (s : State) : Host.Outcome State Fault Refusal :=
  runGang (.lbcst h t d a b) s anywhere (moveLanes h (t.or .b32) d a (fun s g _ => (s.sc g h.lit b).toNat % 64))

def execLfirst (h : VH) (t : Fmt) (d : BitVec 6) (a : VSrc) (s : State) : Host.Outcome State Fault Refusal :=
  let t' := t.or .b32
  runGang (.lfirst h t d a) s anywhere (fun s g act =>
    match bitsOn (g.live act) with
    | [] => .ok s (g.sSet d.toNat 0)
    | j :: _ =>
      let x := s.srcOf g h t' a j
      .ok s (g.sSet d.toNat (BitVec.ofInt 64 (rd t' x.1)) x.2))

/-- An instruction that combines lane values: poison is consumed first (R131 case 3), then `f` runs on the live active lanes left. -/
def combine (bad : Gang → LaneMask) (f : State → Gang → List Nat → Res) (s : State) (g : Gang) (act : LaneMask) : Res :=
  match s.consume g (bad g) with
  | (s, none) => .gone s
  | (s, some g) => f s g (bitsOn (g.live act))

def badSrc (t : Fmt) (a : VSrc) (act : LaneMask) (g : Gang) : LaneMask := g.badLanes (g.live act) (srcRegs t a)

def execLvote (h : VH) (t : Fmt) (d : VoteDst) (a : VSrc) (s : State) : Host.Outcome State Fault Refusal :=
  let t' := t.or .b32
  runGang (.lvote h t d a) s anywhere (fun s g act =>
    combine (badSrc t' a act) (fun s g l =>
      let votes := l.filter (fun i => s.vsrc g h.lit t' a i % 2 ^ t'.bits != 0)
      .ok s (match d with
        | .any n => g.sSet n.toNat (if votes.isEmpty then 0 else 1)
        | .all n => g.sSet n.toNat (if votes.length = l.length then 1 else 0)
        | .ballot n => g.mSet n.toNat (maskOf 64 votes))) s g act)

/-- Whole-mask operations (R144). -/
def lmskRun (g : Gang) (x : MaskArg) : Gang :=
  let m (n : BitVec 4) := g.mGet n.toNat
  match x with
  | .and d a b => g.mSet d.toNat (m a &&& m b)
  | .or d a b => g.mSet d.toNat (m a ||| m b)
  | .xor d a b => g.mSet d.toNat (m a ^^^ m b)
  | .andn d a b => g.mSet d.toNat (m a &&& ~~~ m b)
  | .not d a => g.mSet d.toNat (~~~ m a)
  | .mov d a => g.mSet d.toNat (m a)
  | .popc d a => g.sSet d.toNat (BitVec.ofNat 64 (bitsOn (m a)).length)

def execLmsk (st : BitVec 3) (x : MaskArg) (s : State) : Host.Outcome State Fault Refusal :=
  runGang (.lmsk st x) s anywhere (fun s g _ => .ok s (lmskRun g x))

/-- The identity of R145. -/
def scanIdentity (op : ScanOp) (t : Fmt) : Nat :=
  match op with
  | .add | .or | .xor => 0
  | .and => 2 ^ t.bits - 1
  | .min => if t.float then t.fp.infBits false else wrapInt t.bits t.hi
  | .max => if t.float then t.fp.infBits true else wrapInt t.bits t.lo

/-- The combine of R145 on bits of the type. -/
def scanCombine (op : ScanOp) (t : Fmt) (x y : Nat) : FpRes :=
  match op with
  | .add => ((x + y) % 2 ^ t.bits, {})
  | .min => if t.float then fpMinMax t.fp false x y else (arith (fun _ x y => min x y) t x y, {})
  | .max => if t.float then fpMinMax t.fp true x y else (arith (fun _ x y => max x y) t x y, {})
  | .and => (x &&& y, {})
  | .or => (x ||| y, {})
  | .xor => (x ^^^ y, {})

/-- The combine of the identity and a list of values; it signals when a step does (R145). -/
def reduceList (op : ScanOp) (t : Fmt) (l : List Nat) : FpRes :=
  l.foldl (fun acc x => let r := scanCombine op t acc.1 x; (r.1, acc.2.or r.2)) (scanIdentity op t, {})

/-- An exact sum read out (R146, R147). -/
def exactSum (t : Fmt) (l : List Nat) : Xa := l.foldl (fun x v => x.addTerm t v) Xa.zero

/-- One result for each lane, or the whole-instruction trap of the first that raises (R132): where lanes raise different traps, that of the
lowest lane that raises one, a DESIGN CHOICE (log 99). -/
def writeOrTrap (t : Fmt) (d : BitVec 8) (s : State) (g : Gang) (l : List (Nat × FpRes)) : Res :=
  match (l.map (fun x => g.fpTrap x.2.2)).find? (· != 0) with
  | some code => .whole s g 31 code
  | none => .ok s (l.foldl (fun g x => g.vPut t d.toNat x.1 x.2.1) g)

def execLscan (h : VH) (r : Rnd) (op : ScanOp) (excl : Bool) (t : Fmt) (d : BitVec 8) (a : VSrc) (s : State) :
    Host.Outcome State Fault Refusal :=
  let t' := t.or .i32
  runGang (.lscan h r op excl t d a) s anywhere (fun s g act =>
    combine (badSrc t' a act) (fun s g l =>
      let val (j : Nat) : Nat := s.vsrc g h.lit t' a j % 2 ^ t'.bits
      writeOrTrap t' d s g (l.map (fun i =>
        let terms := (l.filter (fun j => if excl then decide (j < i) else decide (j ≤ i))).map val
        (i, if op = .add ∧ t'.float then (exactSum t' terms).readout t' (g.mode r) g.sat else reduceList op t' terms)))) s g act)

def execLred (h : VH) (op : ScanOp) (t : Fmt) (d : BitVec 8) (a : VSrc) (s : State) : Host.Outcome State Fault Refusal :=
  let t' := t.or .i32
  runGang (.lred h op t d a) s anywhere (fun s g act =>
    combine (badSrc t' a act) (fun s g l =>
      let r := reduceList op t' (l.map (fun j => s.vsrc g h.lit t' a j % 2 ^ t'.bits))
      writeOrTrap t' d s g (l.map (fun i => (i, r)))) s g act)

/-- The type an exact reduction is read out into (R147). -/
def sumType (t : Fmt) : Fmt := if t.float then .f32 else if t.signed then .i64 else .n64

def execLredx (h : VH) (r : Rnd) (t : Fmt) (d : BitVec 8) (a : VSrc) (b : Option VSrc) (s : State) : Host.Outcome State Fault Refusal :=
  let t' := t.or .f32
  let regs := srcRegs t' a ++ (match b with | none => [] | some y => srcRegs t' y)
  let u := sumType t'
  runGang (.lredx h r t d a b) s anywhere (fun s g act =>
    lateRes (Shape.vRange d.toNat (Shape.regsOf u))
      (combine (fun g => g.badLanes (g.live act) regs) (fun s g l =>
        let x := l.foldl (fun x i =>
          match b with
          | none => x.addTerm t' (s.vsrc g h.lit t' a i)
          | some y => x.addTermProd t' (s.vsrc g h.lit t' a i) (s.vsrc g h.lit t' y i)) Xa.zero
        let v := x.readout u (g.mode r) g.sat
        writeOrTrap u d s g (l.map (fun i => (i, v)))) s g act))

/- TOPK -/

/-- x ranks strictly before y (R149). -/
def ranksBefore (t : Fmt) (x y : Nat) : Bool :=
  if t.float then
    let a := t.fp.read x
    let b := t.fp.read y
    if a.isNan then !b.isNan else if b.isNan then false else b.below a
  else decide (rd t y < rd t x)

/-- Inserts by rank; equal values keep their order. -/
def insertRanked (t : Fmt) (x : Nat × Nat) : List (Nat × Nat) → List (Nat × Nat)
  | [] => [x]
  | y :: r => if ranksBefore t x.2 y.2 then x :: y :: r else y :: insertRanked t x r

def topkFill (t : Fmt) : Nat :=
  match t with
  | .f32 => 0xFF800000
  | .f16 => 0xFC00
  | .bf16 => 0xFF80
  | .i32 => 0x80000000
  | _ => 0

/-- TOPK (R148). DESIGN CHOICE (log 80): when both sums would trap, the code is that of the selected ones' sum. -/
def topkBody (h : VH) (r : Rnd) (t : Fmt) (d : BitVec 8) (a : VSrc) (b : Sc) (s : State) (g : Gang) (l : List Nat) : Res :=
  let k := min (s.sc g h.lit b).toNat 64
  let vals := l.map (fun i => (i, s.vsrc g h.lit t a i % 2 ^ t.bits))
  if g.ordt && t.float && vals.any (fun x => (t.fp.read x.2).isNan) then .whole s g 30 0
  else
    let c := vals.foldl (fun acc x => insertRanked t x acc) []
    let u : Fmt := if t.float then .f32 else t
    let sel := (exactSum t ((c.take k).map (·.2))).readout u (g.mode r) g.sat
    let out := (exactSum t ((c.drop k).map (·.2))).readout u (g.mode r) g.sat
    let code := let x := g.fpTrap sel.2; if x = 0 then g.fpTrap out.2 else x
    if code != 0 && !l.isEmpty then .whole s g 31 code
    else
      let g := (List.range k).foldl (fun g j =>
        match getElem? c j with
        | some x => (g.vPut t d.toNat j x.2).vSet (d.toNat + 1) j x.1
        | none => (g.vPut t d.toNat j (topkFill t)).vSet (d.toNat + 1) j 0xFFFFFFFF) g
      .ok s (l.foldl (fun g i => (g.vPut u (d.toNat + 2) i sel.1).vPut u (d.toNat + 3) i out.1) g)

def execTopk (h : VH) (r : Rnd) (t : Fmt) (d : BitVec 8) (a : VSrc) (b : Sc) (s : State) : Host.Outcome State Fault Refusal :=
  let t' := t.or .f32
  runGang (.topk h r t d a b) s anywhere (fun s g act =>
    lateRes (Shape.vRange d.toNat 4) (combine (badSrc t' a act) (topkBody h r t' d a b) s g act))

/- MPATH and MERGE -/

/-- A ≤ B of R150 and R151: −0 equals +0, a NaN is greater than every number and equal to a NaN. -/
def keyLe (t : Fmt) (x y : Nat) : Bool :=
  if t.float then
    let a := t.fp.read x
    let b := t.fp.read y
    if b.isNan then true else if a.isNan then false else !b.lt a
  else decide (rd t x ≤ rd t y)

/-- Non-decreasing and free of NaN (R151). -/
def sortedList (t : Fmt) : List Nat → Bool
  | [] => true
  | [x] => !(t.float && (t.fp.read x).isNan)
  | x :: y :: r => !(t.float && (t.fp.read x).isNan) && keyLe t x y && sortedList t (y :: r)

/-- The bisection of R152, with fuel for the 7 halvings of at most 64 elements. -/
def mpathFrom (t : Fmt) (a b : List Nat) (d : Nat) : Nat → Nat → Nat → Nat
  | 0, lo, _ => lo
  | n + 1, lo, hi =>
    if lo < hi then
      let mid := (lo + hi) / 2
      if keyLe t (a.getD mid 0) (b.getD (d - 1 - mid) 0) then mpathFrom t a b d n (mid + 1) hi else mpathFrom t a b d n lo mid
    else lo

/-- The merged sequence of R153, with (value, tag). -/
def mergeFrom (t : Fmt) : Nat → List Nat → Nat → List Nat → Nat → List (Nat × Nat)
  | 0, _, _, _, _ => []
  | n + 1, a, j, b, k =>
    match a, b with
    | [], [] => []
    | x :: r, [] => (x, j) :: mergeFrom t n r (j + 1) [] k
    | [], y :: q => (y, k + 0x80000000) :: mergeFrom t n [] j q (k + 1)
    | x :: r, y :: q =>
      if keyLe t x y then (x, j) :: mergeFrom t n r (j + 1) (y :: q) k
      else (y, k + 0x80000000) :: mergeFrom t n (x :: r) j q (k + 1)

/-- The common part of MPATH and MERGE: the lists of R150, consumption (R131), the order check (R151). With no live active lane nothing is
written, and the lists are checked all the same (R130, R151; log 40). DEDUCED. -/
def listPair (h : VH) (t : Fmt) (d a b : BitVec 8) (c : Sc) (f : Nat → List Nat → List Nat → Nat → Nat × Nat) (s : State) (g : Gang)
    (act : LaneMask) : Res :=
  let x := (s.sc g h.lit c).toNat
  let na := min (bitField x 6 0) 64
  let nb := min (bitField x 14 8) 64
  let listed : Gang → LaneMask := fun g =>
    g.badLanes (g.live (maskOf 64 (List.range na))) [a.toNat] ||| g.badLanes (g.live (maskOf 64 (List.range nb))) [b.toNat]
  combine listed (fun s g l =>
    let as := (List.range na).map (fun j => (s.srcOf g h t (.v a) j).1)
    let bs := (List.range nb).map (fun j => (s.srcOf g h t (.v b) j).1)
    let ok := sortedList t as && sortedList t bs
    if !ok && g.ordt then .whole s g 30 0
    else
      let s := if ok then s else s.countAt g.place .orderViolations
      .ok s (l.foldl (fun g i => let r := f x as bs i; (g.vSet d.toNat i r.1).vSet (d.toNat + 1) i r.2) g)) s g act

def execMpath (h : VH) (t : Fmt) (d a b : BitVec 8) (c : Sc) (s : State) : Host.Outcome State Fault Refusal :=
  let t' := t.or .i32
  runGang (.mpath h t d a b c) s anywhere (fun s g act =>
    lateRes (Shape.vRange d.toNat 2) (listPair h t' d a b c (fun x as bs i =>
      let na := as.length
      let nb := bs.length
      let k := min (i * bitField x 23 16) (na + nb)
      let lo := mpathFrom t' as bs k 8 (k - nb) (min k na)
      (lo, k - lo)) s g act))

def execMerge (h : VH) (t : Fmt) (d a b : BitVec 8) (c : Sc) (s : State) : Host.Outcome State Fault Refusal :=
  let t' := t.or .i32
  runGang (.merge h t d a b c) s anywhere (fun s g act =>
    lateRes (Shape.vRange d.toNat 2) (listPair h t' d a b c (fun x as bs i =>
      (mergeFrom t' 128 as 0 bs 0).getD (bitField x 22 16 + i) (0, 0xFFFFFFFF)) s g act))

/-- VRND (R154): the offset must lie below RNGLEN (R39). -/
def execVrnd (h : VH) (t : Fmt) (d : BitVec 8) (a : VSrc) (s : State) : Host.Outcome State Fault Refusal :=
  let t' := t.or .n32
  runGang (.vrnd h t d a) s notHandler
    (lanewise (srcRegs t' a)
      (fun s g i =>
        let x := s.vsrc g h.lit t' a i % 2 ^ t'.bits
        match s.launch? g.launch with
        | some l => if x < l.pkt.rnglen then (vrndValue l.pkt.seed.toNat l.pkt.rngbase.toNat x, 0) else (0, 7)
        | none => (0, 7))
      (putV .n32 d))

end Sys2Proof.Machine
end

