-- ==== Sys2Proof/Machine/Events.lean ====
section
/-! DEFINITION. Event instructions of a SPAN launch (R374 to R379). -/
namespace Sys2Proof.Machine

/-- ILLEGAL outside a SPAN launch and in the handler slot (R375). -/
def notSpan (s : State) (g : Gang) : Bool := s.modeOf g != 2

/-- A lane's event, its index, children and status (R379). -/
def Gang.laneEv (g : Gang) (lane : Nat) : Option LaneEv := Tab.get? g.evs lane

/-- EVS in one lane (R376): the child and the lane's new state, or nothing when the lane raises EV_PAST. -/
def evsLane (span : DWord) (prio : BitVec 8) (abs : Bool) (a : Nat) (h : BitVec 16) (pay : DWord) (now : DWord) (key : Word) (e : LaneEv) :
    Option Event :=
  let t := if abs then a else now.toNat + a
  if t < now.toNat ∨ 2 ^ 64 ≤ t then none
  else
    some { time := BitVec.ofNat 64 t, serial := BitVec.ofNat 64 (span.toNat * 2 ^ 32 + e.idx * 2 ^ 12 + e.ch), handler := h, prio := prio
           princ := key, pay := pay }

def evsBody (h : VH) (prio : BitVec 8) (abs : Bool) (d : BitVec 8) (a b c : VSrc) (s : State) (g : Gang) (act : LaneMask) : Res :=
  if 63 ≤ g.counter .ev then .wait s g (.counter .ev)
  else if (bitsOn (g.live act)).any (fun i => match g.laneEv i with | some e => decide (4096 ≤ e.ch) | none => false) then .trap 36
  else
    match s.consume g (g.badLanes (g.live act) (srcRegs .n64 a ++ srcRegs .b32 b ++ srcRegs .n64 c)) with
    | (s, none) => .gone s
    | (s, some g) =>
      let span := s.spGet g .span
      let (s, g) := s.countOp g .ev (Shape.vRange d.toNat 2)
      let op := s.nextId - 1
      let kid (i : Nat) : Option (Nat × Event) := (g.laneEv i).bind (fun e =>
        (evsLane span prio abs (s.pair g h.lit a i) (BitVec.ofNat 16 (s.vsrc g h.lit .b32 b i)) (BitVec.ofNat 64 (s.pair g h.lit c i))
          (Store.get g.now i) (g.keyOf i) e).map (fun k => (i, k)))
      let kids := (bitsOn (g.live act)).filterMap kid
      let codes := ((bitsOn (g.live act)).filter (fun i => !kids.any (fun k => k.1 == i))).map (fun i => (i, 9))
      let eff := kids.map (fun k => { size := 48, pc := g.pc, wid := g.widOf k.1, keys := g.laneKey k.1, evIx := g.evIx k.1, kind := .evs k.2 : Eff })
      let g' := kids.foldl (fun g k =>
        let g := (g.vSet d.toNat k.1 (k.2.serial.toNat % 2 ^ 32)).vSet (d.toNat + 1) k.1 (k.2.serial.toNat / 2 ^ 32)
        match g.laneEv k.1 with
        | some e => { g with evs := Tab.set g.evs k.1 { e with ch := e.ch + 1 } }
        | none => g) g
      let (s, ok) := s.addEffects g.crew eff
      if !ok then .gone s
      else
        match codesOf codes with
        | [] => .ok s g'
        | l => .lanes s (g'.dropOp op) l

def execEvs (h : VH) (prio : BitVec 8) (abs : Bool) (d : BitVec 8) (a b c : VSrc) (s : State) : Host.Outcome State Fault Refusal :=
  runGang (.evs h prio abs d a b c) s notSpan (evsBody h prio abs d a b c)

/-- EVC (R377). -/
def evcBody (h : VH) (a b : VSrc) (s : State) (g : Gang) (act : LaneMask) : Res :=
  if 63 ≤ g.counter .ev then .wait s g (.counter .ev)
  else
    match s.consume g (g.badLanes (g.live act) (srcRegs .n64 a ++ srcRegs .n64 b)) with
    | (s, none) => .gone s
    | (s, some g) =>
      let (s, g) := s.countOp g .ev []
      let eff := (bitsOn (g.live act)).map (fun i =>
        { size := 32, pc := g.pc, wid := g.widOf i, keys := g.laneKey i, evIx := g.evIx i
          kind := .evc (BitVec.ofNat 64 (s.pair g h.lit a i)) (BitVec.ofNat 64 (s.pair g h.lit b i)) : Eff })
      let (s, ok) := s.addEffects g.crew eff
      if ok then .ok s g else .gone s

def execEvc (h : VH) (a b : VSrc) (s : State) : Host.Outcome State Fault Refusal :=
  runGang (.evc h a b) s notSpan (evcBody h a b)

/-- A field of a lane's event (R378). -/
def LaneEv.field (e : LaneEv) : EvField → Nat
  | .time => e.ev.time.toNat
  | .serial => e.ev.serial.toNat
  | .handler => e.ev.handler.toNat
  | .prio => e.ev.prio.toNat
  | .princ => e.ev.princ.toNat
  | .pay => e.ev.pay.toNat
  | .index => e.idx
  | .children => e.ch
  | .aborts => e.aborts

def evrType (f : EvField) : Fmt := if f.wide then .n64 else .n32

def execEvr (h : VH) (f : EvField) (d : BitVec 8) (s : State) : Host.Outcome State Fault Refusal :=
  runGang (.evr h f d) s notSpan (fun s g act =>
    let g := (bitsOn (g.live act)).foldl (fun g i =>
      match g.laneEv i with
      | some e => g.vPut (evrType f) d.toNat i (e.field f)
      | none => g) g
    let (s, g) := s.late g (Shape.vRange d.toNat (if f.wide then 2 else 1))
    .ok s g)

/-- EVX (R379). -/
def execEvx (h : VH) (a : VSrc) (s : State) : Host.Outcome State Fault Refusal :=
  runGang (.evx h a) s notSpan (fun s g act =>
    match s.consume g (g.badLanes (g.live act) (srcRegs .b32 a)) with
    | (s, none) => .gone s
    | (s, some g) =>
      .ok s ((bitsOn (g.live act)).foldl (fun g i =>
        match g.laneEv i with
        | some e => { g with evs := Tab.set g.evs i { e with st := s.vsrc g h.lit .b32 a i % 2 ^ 32 != 0 } }
        | none => g) g))

end Sys2Proof.Machine
end

