-- ==== Sys2Proof/Machine/Posts.lean ====
section
/-! DEFINITION. Posts: CPOST, CGATH, CSCAT, CCOPY, CCHAIN (R249, R254 to R260). -/
namespace Sys2Proof.Machine

/-- A latch or status operand; bit 63 names none (R254). -/
def postRef (x : DWord) : Option Nat := if x.getLsbD 63 then none else some x.toNat

/-- What a post asks for, once its operands are read. -/
structure Post where
  d : BitVec 6
  latch : DWord
  status : DWord := BitVec.allOnes 64
  typeBad : Bool := false
  roBad : Bool := false
  writes : Bool := false
  /-- vector registers of the index, whose poison kills its lane (R109) -/
  idx : List Nat := []
  rows : State → Gang → LaneMask → Option Nat → List Row := fun _ _ _ _ => []
  /-- the entry of a copy program and its argument -/
  program : Option (VAddr × DWord) := none

/-- The first check of R255 that fails, but for LATCH_OVERFLOW. -/
def Post.check (p : Post) (s : State) (g : Gang) : Option Nat :=
  let badLatch : Option Nat := match postRef p.latch with
    | none => none
    | some o => if s.latchOut g.crew o then some 21 else if latchValid (s.latch g.crew o) then none else some 22
  match badLatch with
  | some c => some c
  | none =>
    if (match postRef p.status with | some o => o % 8 != 0 || decide (s.scratchOf g.crew < o + 8) | none => false) then some 21
    else if p.typeBad then some 13
    else if p.roBad then some 14
    else if p.writes && s.modeOf g != 0 then some 28
    else none

/-- The context a post may take now (R249): what older waiting gangs and granted posts are owed is not free. -/
def State.freeCtx (s : State) (g : Gang) : Option Nat :=
  let free := (List.range Config.contexts).filter (fun c => (s.ctx? g.core c).isNone)
  let held := ((s.coreGangs g.core).filter (fun o => o.granted && o.slot != g.slot)).length
  let older := (s.coreGangs g.core).any (fun o => o.stat == .waiting .context && decide (o.age < g.age))
  if g.granted then free.head? else if older || decide (free.length ≤ held) then none else free.head?

/-- The update of the latch at the post (R256). -/
def Post.upd (p : Post) (rows : List Row) : LatchUpd :=
  { owe := if p.program.isSome then 1 else 0, add := (rows.map (·.sectors)).foldl (· + ·) 0 }

/-- Clears the status bits of the posting lanes (R257). DESIGN CHOICE (log 84): a poisoned word is read as it stands and written back whole, so clean. -/
def State.clearStatus (s : State) (crew : Nat) (status : Option Nat) (lanes : LaneMask) : State :=
  match status with
  | none => s
  | some o => s.scratchWrite crew o (clean (leBytes 8 (BitVec.ofNat 64 (natOf (s.scratchRead crew o 8)) &&& ~~~ lanes).toNat))

/-- The key and the `$wid` of R236 and R251 for what is not one lane's row. -/
def State.postKey (s : State) (g : Gang) (act : LaneMask) : Word × DWord :=
  match (bitsOn (g.live act)).head? with
  | some i => (g.keyOf i, g.widOf i)
  | none => (s.launchKey g, 0)

/-- The context of a post at its start (R251). -/
def Post.ctx (p : Post) (s : State) (g : Gang) (act : LaneMask) (rows : List Row) : CopyCtx :=
  let kw := s.postKey g act
  { crew := g.crew, launch := g.launch, program := p.program.isSome, slot := g.slot, op := s.nextId, wid := kw.2, postPc := g.pc
    pc := match p.program with | some e => e.1 | none => g.pc
    k := match p.program with | some e => Store.set (Store.set [] 1 e.2) 2 kw.2 | none => []
    latch := postRef p.latch, key := kw.1, owed := p.program.isSome && (postRef p.latch).isSome, rows := rows
    stat := if p.program.isSome then .running else .draining }

/-- The last check of R255, over the rows of every live active lane: their sectors or the owed arrival carry a field of the latch out. -/
def Post.overflows (p : Post) (s : State) (g : Gang) (act : LaneMask) : Bool :=
  match postRef p.latch with
  | some o => (p.upd (p.rows s g act (postRef p.status))).over (s.latch g.crew o)
  | none => false

/-- A post (R255, R256, R260). -/
def Post.body (p : Post) (s : State) (g : Gang) (act : LaneMask) : Res :=
  if 63 ≤ g.counter .cp then .wait s g (.counter .cp)
  else
    match p.check s g with
    | some c => .trap c
    | none =>
      if p.overflows s g act then .trap 24
      else
        match s.consume g (g.badLanes (g.live act) p.idx) with
        | (s, none) => .gone s
        | (s, some g) =>
          let rows := p.rows s g act (postRef p.status)
          let u := p.upd rows
          match s.freeCtx g with
          | none => .wait s g .context
          | some ix =>
            let s := match postRef p.latch with | some o => s.updLatch g.crew o u | none => s
            let s := s.clearStatus g.crew (postRef p.status) (g.live act)
            let s := s.putCtx g.core ix (p.ctx s g act rows)
            let g := g.sSet p.d.toNat (BitVec.ofNat 64 (s.cyc g.core + 1 + Config.promiseLead s.nextId))
            let (s, g) := s.countOp g .cp []
            .ok s g

def execCpost (h : VH) (d : BitVec 6) (a b : Sc) (ofs : Word) (s : State) : Host.Outcome State Fault Refusal :=
  runGang (.cpost h d a b ofs) s notHandler (fun s g act =>
    Post.body { d := d, latch := s.sc g h.lit b, program := some (branchTo g ofs, s.sc g h.lit a) } s g act)

/-- A row between the element of index `x` and a span of scratch (R256, R257). -/
def postRow (s : State) (g : Gang) (rec_ : BitVec 128) (out : Bool) (c len : Nat) (status : Option Nat) (i x : Nat) : Row :=
  let global : RowEnd := .global (BitVec.ofNat 57 (recAddr rec_ x))
  let span : RowEnd := .scratch (c + i * len : Nat)
  let dst := if out then global else span
  { src := if out then span else global, dst := dst, len := len, sectors := rowSectors dst len, lane := some i, status := status
    key := g.keyOf i, wid := g.widOf i, pcofs := (g.pc - s.entryOf g).setWidth 32
    fail := if x < recExtent rec_ then none else some 1, versioned := none }

/-- One row per live active lane; `x` gives a lane's index. -/
def postRows (rec_ : BitVec 128) (out : Bool) (c len : Nat) (x : Gang → Nat → Nat) (s : State) (g : Gang) (act : LaneMask)
    (status : Option Nat) : List Row :=
  (bitsOn (g.live act)).map (fun i => postRow s g rec_ out c len status i (x g i % 2 ^ 32))

/-- Bytes of a row (R254). -/
def rowBytes (rlen : BitVec 12) : Nat := (rlen.toNat + 1) * 4

/-- CGATH, CSCAT and CCOPY. -/
def rowsPost (h : VH) (d : BitVec 6) (k : BitVec 4) (c sl ss : Sc) (rlen : BitVec 12) (out : Bool) (idx : List Nat)
    (x : Gang → Nat → Nat) (s : State) (g : Gang) (act : LaneMask) : Res :=
  let rec_ := g.bGet k.toNat
  Post.body {
    d := d, latch := s.sc g h.lit sl, status := s.sc g h.lit ss, typeBad := recBadCell rec_, roBad := out && recRo rec_, writes := out
    idx := idx, rows := postRows rec_ out (s.sc g h.lit c).toNat (rowBytes rlen) x } s g act

def execCgath (h : VH) (d : BitVec 6) (k : BitVec 4) (a : BitVec 8) (c sl ss : Sc) (rlen : BitVec 12) (s : State) :
    Host.Outcome State Fault Refusal :=
  runGang (.cgath h d k a c sl ss rlen) s notHandler
    (rowsPost h d k c sl ss rlen false [a.toNat] (fun g i => g.vGet a.toNat i))

def execCscat (h : VH) (d : BitVec 6) (k : BitVec 4) (a : BitVec 8) (c sl ss : Sc) (rlen : BitVec 12) (s : State) :
    Host.Outcome State Fault Refusal :=
  runGang (.cscat h d k a c sl ss rlen) s notHandler
    (rowsPost h d k c sl ss rlen true [a.toNat] (fun g i => g.vGet a.toNat i))

def execCcopy (h : VH) (d : BitVec 6) (k : BitVec 4) (b c sl ss : Sc) (rlen : BitVec 12) (s : State) : Host.Outcome State Fault Refusal :=
  runGang (.ccopy h d k b c sl ss rlen) s notHandler (fun s g act =>
    rowsPost h d k c sl ss rlen false [] (fun _ i => (s.sc g h.lit b).toNat + i) s g act)

def execCcopyOut (h : VH) (d : BitVec 6) (k : BitVec 4) (b c sl ss : Sc) (rlen : BitVec 12) (s : State) :
    Host.Outcome State Fault Refusal :=
  runGang (.ccopyOut h d k b c sl ss rlen) s notHandler (fun s g act =>
    rowsPost h d k c sl ss rlen true [] (fun _ i => (s.sc g h.lit b).toNat + i) s g act)

/-- The one row of `CCOPY.tr` (R257, R236). -/
def imageRow (rec_ : BitVec 128) (x t : Nat) (s : State) (g : Gang) (act : LaneMask) : Row :=
  let kw := s.postKey g act
  { src := .global (BitVec.ofNat 57 (recAddr rec_ (x % 2 ^ 32))), dst := .slot t, len := imageBytes, sectors := 258, lane := none
    status := none, key := kw.1, wid := kw.2, pcofs := (g.pc - s.entryOf g).setWidth 32
    fail := if x % 2 ^ 32 < recExtent rec_ then none else some 1, versioned := none }

def execCcopyTr (h : VH) (d : BitVec 6) (k : BitVec 4) (b c sl : Sc) (s : State) : Host.Outcome State Fault Refusal :=
  runGang (.ccopyTr h d k b c sl) s notHandler (fun s g act =>
    let rec_ := g.bGet k.toNat
    let x := (s.sc g h.lit b).toNat
    let t := (s.sc g h.lit c).toNat
    Post.body {
      d := d, latch := s.sc g h.lit sl, typeBad := recBadCell rec_
      rows := fun s g act _ => [imageRow rec_ x t s g act] } s g act)

/-- The index records of a chain, the first level first (R258). -/
def chainRecs (l3 : Bool) (k : Nat) (g : Gang) : List (BitVec 128) :=
  (if l3 then [g.bGet (k + 2)] else []) ++ [g.bGet (k + 1)]

def execCchain (h : VH) (l3 : Bool) (d : BitVec 6) (k : BitVec 4) (a : BitVec 8) (c sl ss : Sc) (rlen : BitVec 12) (s : State) :
    Host.Outcome State Fault Refusal :=
  runGang (.cchain h l3 d k a c sl ss rlen) s notHandler (fun s g act =>
    let rec_ := g.bGet k.toNat
    let ix := chainRecs l3 k.toNat g
    let o := (s.sc g h.lit c).toNat
    let row (s : State) (g : Gang) (status : Option Nat) (i : Nat) : Row :=
      { postRow s g rec_ false o (rowBytes rlen) status i 0 with src := .chain (ix ++ [rec_]) 1 (g.vGet a.toNat i), fail := none }
    Post.body {
      d := d, latch := s.sc g h.lit sl, status := s.sc g h.lit ss
      typeBad := recBadCell rec_ || ix.any (fun r => recElem r != 2 && recElem r != 3)
      idx := [a.toNat], rows := fun s g act status => (bitsOn (g.live act)).map (row s g status) } s g act)

end Sys2Proof.Machine
end

