-- ==== Sys2Proof/Machine/Dispatch.lean ====
section
/-! DEFINITION. The meaning of every instruction: one arm per constructor of `Instr`, one direct call each. -/
namespace Sys2Proof.Machine

def exec (i : Instr) (s : State) : Host.Outcome State Fault Refusal :=
  match i with
  -- control (R94 to R101, R350)
  | .trap st g a => Sys2Proof.Machine.execTrap st g a s
  | .trapLit st g v => Sys2Proof.Machine.execTrapLit st g v s
  | .br st ofs => Sys2Proof.Machine.execBr st ofs s
  | .brc h a ofs => Sys2Proof.Machine.execBrc h a ofs s
  | .call st d ofs => Sys2Proof.Machine.execCall st d ofs s
  | .ret st a => Sys2Proof.Machine.execRet st a s
  | .retLit st v => Sys2Proof.Machine.execRetLit st v s
  | .loop st d ofs => Sys2Proof.Machine.execLoop st d ofs s
  | .vif st m => Sys2Proof.Machine.execVif st m s
  | .velse st => Sys2Proof.Machine.execVelse st s
  | .vend st => Sys2Proof.Machine.execVend st s
  | .exit st => Sys2Proof.Machine.execExit st s
  -- system (R119 to R126, R348)
  | .rgrow h d a => Sys2Proof.Machine.execRgrow h d a s
  | .rshr h d a => Sys2Proof.Machine.execRshr h d a s
  | .sleep h a => Sys2Proof.Machine.execSleep h a s
  | .getsr st d r => Sys2Proof.Machine.execGetsr st d r s
  | .setsr h d a => Sys2Proof.Machine.execSetsr h d a s
  | .wsel h d a => Sys2Proof.Machine.execWsel h d a s
  | .wrd h d a => Sys2Proof.Machine.execWrd h d a s
  | .wwr h d a b => Sys2Proof.Machine.execWwr h d a b s
  | .wres h a b => Sys2Proof.Machine.execWres h a b s
  -- scalar (R113 to R118)
  | .smov st d a => Sys2Proof.Machine.execSmov st d a s
  | .smovLit st d v => Sys2Proof.Machine.execSmovLit st d v s
  | .sli st d v => Sys2Proof.Machine.execSli st d v s
  | .sadd h t d a b => Sys2Proof.Machine.execSadd h t d a b s
  | .ssub h t d a b => Sys2Proof.Machine.execSsub h t d a b s
  | .smul h t d a b => Sys2Proof.Machine.execSmul h t d a b s
  | .smulh h t d a b => Sys2Proof.Machine.execSmulh h t d a b s
  | .sand h t d a b => Sys2Proof.Machine.execSand h t d a b s
  | .sor h t d a b => Sys2Proof.Machine.execSor h t d a b s
  | .sxor h t d a b => Sys2Proof.Machine.execSxor h t d a b s
  | .sshl h t d a b => Sys2Proof.Machine.execSshl h t d a b s
  | .sshr h t d a b => Sys2Proof.Machine.execSshr h t d a b s
  | .smin h t d a b => Sys2Proof.Machine.execSmin h t d a b s
  | .smax h t d a b => Sys2Proof.Machine.execSmax h t d a b s
  | .scmp h c t d a b => Sys2Proof.Machine.execScmp h c t d a b s
  | .ssel h t d a b c => Sys2Proof.Machine.execSsel h t d a b c s
  | .sld h strict t d bk b => Sys2Proof.Machine.execSld h strict t d bk b s
  | .sst h strict t bk b c => Sys2Proof.Machine.execSst h strict t bk b c s
  | .scnt h op t d a => Sys2Proof.Machine.execScnt h op t d a s
  | .sdiv h rem t d a b => Sys2Proof.Machine.execSdiv h rem t d a b s
  -- the permanently undefined opcode (R63)
  | .undef a d g st l => Sys2Proof.Machine.execUndef a d g st l s
  -- vector integer (R133 to R135)
  | .vmov h t d a => Sys2Proof.Machine.execVmov h t d a s
  | .vadd h t d a b => Sys2Proof.Machine.execVadd h t d a b s
  | .vsub h t d a b => Sys2Proof.Machine.execVsub h t d a b s
  | .vmul h t d a b => Sys2Proof.Machine.execVmul h t d a b s
  | .vmulh h t d a b => Sys2Proof.Machine.execVmulh h t d a b s
  | .vmad h t d a b c => Sys2Proof.Machine.execVmad h t d a b c s
  | .vand h t d a b => Sys2Proof.Machine.execVand h t d a b s
  | .vor h t d a b => Sys2Proof.Machine.execVor h t d a b s
  | .vxor h t d a b => Sys2Proof.Machine.execVxor h t d a b s
  | .vshl h t d a b => Sys2Proof.Machine.execVshl h t d a b s
  | .vshr h t d a b => Sys2Proof.Machine.execVshr h t d a b s
  | .vmin h t d a b => Sys2Proof.Machine.execVmin h t d a b s
  | .vmax h t d a b => Sys2Proof.Machine.execVmax h t d a b s
  | .vabs h t d a => Sys2Proof.Machine.execVabs h t d a s
  | .vcmp h c t d a b => Sys2Proof.Machine.execVcmp h c t d a b s
  | .vsel h t d a b c => Sys2Proof.Machine.execVsel h t d a b c s
  | .vcvt h src t d a => Sys2Proof.Machine.execVcvt h src t d a s
  | .vbit h op t d a => Sys2Proof.Machine.execVbit h op t d a s
  | .vsat h sub t d a b => Sys2Proof.Machine.execVsat h sub t d a b s
  -- vector floating point (R136 to R140)
  | .fadd h r t d a b => Sys2Proof.Machine.execFadd h r t d a b s
  | .fsub h r t d a b => Sys2Proof.Machine.execFsub h r t d a b s
  | .fmul h r t d a b => Sys2Proof.Machine.execFmul h r t d a b s
  | .ffma h r t d a b c => Sys2Proof.Machine.execFfma h r t d a b c s
  | .fmin h t d a b => Sys2Proof.Machine.execFmin h t d a b s
  | .fmax h t d a b => Sys2Proof.Machine.execFmax h t d a b s
  | .fsgn h op t d a => Sys2Proof.Machine.execFsgn h op t d a s
  | .fcmp h c t d a b => Sys2Proof.Machine.execFcmp h c t d a b s
  | .fcvt h r src t d a => Sys2Proof.Machine.execFcvt h r src t d a s
  | .frint h r t d a => Sys2Proof.Machine.execFrint h r t d a s
  | .fdiv h r t d a b => Sys2Proof.Machine.execFdiv h r t d a b s
  | .fsqrt h r t d a => Sys2Proof.Machine.execFsqrt h r t d a s
  | .fclass h t d a => Sys2Proof.Machine.execFclass h t d a s
  | .fpack h r p wide d a x => Sys2Proof.Machine.execFpack h r p wide d a x s
  -- cross-lane (R141 to R147)
  | .lxch h t d a b => Sys2Proof.Machine.execLxch h t d a b s
  | .lbcst h t d a b => Sys2Proof.Machine.execLbcst h t d a b s
  | .lfirst h t d a => Sys2Proof.Machine.execLfirst h t d a s
  | .lvote h t d a => Sys2Proof.Machine.execLvote h t d a s
  | .lscan h r op excl t d a => Sys2Proof.Machine.execLscan h r op excl t d a s
  | .lred h op t d a => Sys2Proof.Machine.execLred h op t d a s
  | .lredx h r t d a b => Sys2Proof.Machine.execLredx h r t d a b s
  | .lmsk st x => Sys2Proof.Machine.execLmsk st x s
  -- select (R148 to R153), VRND (R154)
  | .topk h r t d a b => Sys2Proof.Machine.execTopk h r t d a b s
  | .mpath h t d a b c => Sys2Proof.Machine.execMpath h t d a b c s
  | .merge h t d a b c => Sys2Proof.Machine.execMerge h t d a b c s
  | .vrnd h t d a => Sys2Proof.Machine.execVrnd h t d a s
  -- array (R169 to R179)
  | .mwld h d a p => Sys2Proof.Machine.execMwld h d a p s
  | .mmul h sr x w k a p => Sys2Proof.Machine.execMmul h sr x w k a p s
  | .maclr st f k => Sys2Proof.Machine.execMaclr st f k s
  | .mard h r t kind d k b nm1 => Sys2Proof.Machine.execMard h r t kind d k b nm1 s
  | .mawr h t kind k a b nm1 => Sys2Proof.Machine.execMawr h t kind k a b nm1 s
  -- residue (R201)
  | .rfwd h src f2 d a => Sys2Proof.Machine.execRfwd h src f2 d a s
  | .rrev h t f2 d a c => Sys2Proof.Machine.execRrev h t f2 d a c s
  | .rchk h d a => Sys2Proof.Machine.execRchk h d a s
  | .rmad h d a b c => Sys2Proof.Machine.execRmad h d a b c s
  -- memory (R221 to R229, R296)
  | .bset h k a b => Sys2Proof.Machine.execBset h k a b s
  | .ldb h m t d k b => Sys2Proof.Machine.execLdb h m t d k b s
  | .stb h m t k b c => Sys2Proof.Machine.execStb h m t k b c s
  | .lds h m t d b => Sys2Proof.Machine.execLds h m t d b s
  | .sts h m t b c => Sys2Proof.Machine.execSts h m t b c s
  | .ldc h m t d a b => Sys2Proof.Machine.execLdc h m t d a b s
  | .stc h m t a b c => Sys2Proof.Machine.execStc h m t a b c s
  | .atm h m op t d k b c x => Sys2Proof.Machine.execAtm h m op t d k b c x s
  | .redx h m t k b c x => Sys2Proof.Machine.execRedx h m t k b c x s
  | .xrnd h m r clr t d k b => Sys2Proof.Machine.execXrnd h m r clr t d k b s
  | .vldv h m d x k b => Sys2Proof.Machine.execVldv h m d x k b s
  | .vstv h m d k b c x => Sys2Proof.Machine.execVstv h m d k b c x s
  | .fence st src => Sys2Proof.Machine.execFence st src s
  -- posts (R254)
  | .cpost h d a b ofs => Sys2Proof.Machine.execCpost h d a b ofs s
  | .cgath h d k a c sl ss rlen => Sys2Proof.Machine.execCgath h d k a c sl ss rlen s
  | .cscat h d k a c sl ss rlen => Sys2Proof.Machine.execCscat h d k a c sl ss rlen s
  | .ccopy h d k b c sl ss rlen => Sys2Proof.Machine.execCcopy h d k b c sl ss rlen s
  | .ccopyOut h d k b c sl ss rlen => Sys2Proof.Machine.execCcopyOut h d k b c sl ss rlen s
  | .ccopyTr h d k b c sl => Sys2Proof.Machine.execCcopyTr h d k b c sl s
  | .cchain h l3 d k a c sl ss rlen => Sys2Proof.Machine.execCchain h l3 d k a c sl ss rlen s
  -- latches, counters, barriers (R276, R285, R286)
  | .lati h a b => Sys2Proof.Machine.execLati h a b s
  | .larv h a b c => Sys2Proof.Machine.execLarv h a b c s
  | .lrst h a b => Sys2Proof.Machine.execLrst h a b s
  | .lwait h d a b => Sys2Proof.Machine.execLwait h d a b s
  | .pwait h nt d a b c => Sys2Proof.Machine.execPwait h nt d a b c s
  | .owait h cls a => Sys2Proof.Machine.execOwait h cls a s
  | .cbar h a => Sys2Proof.Machine.execCbar h a s
  | .gbar h a => Sys2Proof.Machine.execGbar h a s
  -- events (R374)
  | .evs h prio abs d a b c => Sys2Proof.Machine.execEvs h prio abs d a b c s
  | .evc h a b => Sys2Proof.Machine.execEvc h a b s
  | .evr h f d => Sys2Proof.Machine.execEvr h f d s
  | .evx h a => Sys2Proof.Machine.execEvx h a s
  -- copy class (R265 to R269)
  | .kmov h d a => Sys2Proof.Machine.execKmov h d a s
  | .kadd h d a b => Sys2Proof.Machine.execKadd h d a b s
  | .ksub h d a b => Sys2Proof.Machine.execKsub h d a b s
  | .kmul h d a b => Sys2Proof.Machine.execKmul h d a b s
  | .kshl h d a b => Sys2Proof.Machine.execKshl h d a b s
  | .kshr h t d a b => Sys2Proof.Machine.execKshr h t d a b s
  | .kand h d a b => Sys2Proof.Machine.execKand h d a b s
  | .kcmp h t c d a b => Sys2Proof.Machine.execKcmp h t c d a b s
  | .kbr h a ofs => Sys2Proof.Machine.execKbr h a ofs s
  | .kloop st d ofs => Sys2Proof.Machine.execKloop st d ofs s
  | .kend st => Sys2Proof.Machine.execKend st s
  | .karv h a b => Sys2Proof.Machine.execKarv h a b s
  | .kprom h a b => Sys2Proof.Machine.execKprom h a b s
  | .kld st t d g => Sys2Proof.Machine.execKld st t d g s
  | .gset h g a => Sys2Proof.Machine.execGset h g a s
  | .gstep st d g => Sys2Proof.Machine.execGstep st d g s
  | .xcopy h gd gs n => Sys2Proof.Machine.execXcopy h gd gs n s
  | .xgath h gd gs ix n => Sys2Proof.Machine.execXgath h gd gs ix n s
  | .xscat h gd gs ix n => Sys2Proof.Machine.execXscat h gd gs ix n s
  | .xtran h src gs => Sys2Proof.Machine.execXtran h src gs s
  | .xfill h gd v n => Sys2Proof.Machine.execXfill h gd v n s
  | .xcopyv h d gs x gd => Sys2Proof.Machine.execXcopyv h d gs x gd s
  -- mailbox commands (R395): tag, completion address and the link whose vector 0 is raised, then the command's own fields
  | .writeVirtual tag caddr irq ctx addr data => Sys2Proof.Machine.execWriteVirtual tag caddr irq ctx addr data s
  | .writePhysical tag caddr irq addr data => Sys2Proof.Machine.execWritePhysical tag caddr irq addr data s
  | .writeRegister tag caddr irq ctx ofs v => Sys2Proof.Machine.execWriteRegister tag caddr irq ctx ofs v s
  | .readVirtual tag caddr irq ctx addr len haddr => Sys2Proof.Machine.execReadVirtual tag caddr irq ctx addr len haddr s
  | .readPhysical tag caddr irq addr len haddr => Sys2Proof.Machine.execReadPhysical tag caddr irq addr len haddr s
  | .readRegister tag caddr irq ctx ofs haddr => Sys2Proof.Machine.execReadRegister tag caddr irq ctx ofs haddr s
  | .kick tag caddr irq q v => Sys2Proof.Machine.execKick tag caddr irq q v s
  | .grantSync tag caddr irq ctx => Sys2Proof.Machine.execGrantSync tag caddr irq ctx s
  | .resolveReplay tag caddr irq core agent => Sys2Proof.Machine.execResolveReplay tag caddr irq core agent s
  | .resolveFail tag caddr irq core agent => Sys2Proof.Machine.execResolveFail tag caddr irq core agent s
  | .preempt tag caddr irq w0 w1 => Sys2Proof.Machine.execPreempt tag caddr irq w0 w1 s
  -- kicks, pre-emption and register writes reaching their target
  | .kickWrite q w => Sys2Proof.Machine.execKickWrite q w s
  | .preemptVacateLaunch q seq n => Sys2Proof.Machine.execPreemptVacateLaunch q seq n s
  | .preemptVacateCore core => Sys2Proof.Machine.execPreemptVacateCore core s
  | .preemptReopenLaunch q seq => Sys2Proof.Machine.execPreemptReopenLaunch q seq s
  | .preemptReopenCore core => Sys2Proof.Machine.execPreemptReopenCore core s
  | .registerWrite ctx ofs v => Sys2Proof.Machine.execRegisterWrite ctx ofs v s
  | .peerKick peer q w => Sys2Proof.Machine.execPeerKick peer q w s
  -- far accesses (R397 to R399)
  | .farAccess from_ addr tag op => Sys2Proof.Machine.execFarAccess from_ addr tag op s
  | .farResponse id ok tag data => Sys2Proof.Machine.execFarResponse id ok tag data s
  | .farTimeout id => Sys2Proof.Machine.execFarTimeout id s
  | .farRefused id => Sys2Proof.Machine.execFarRefused id s
  | .flitRetry port => Sys2Proof.Machine.execFlitRetry port s
  -- queues and scheduler
  | .takeUp q => Sys2Proof.Machine.execTakeUp q s
  | .launchComplete launch => Sys2Proof.Machine.execLaunchComplete launch s
  | .admitBand => Sys2Proof.Machine.execAdmitBand s
  | .bandBlocking => Sys2Proof.Machine.execBandBlocking s
  | .crewRetire crew => Sys2Proof.Machine.execCrewRetire crew s
  | .crewCommit launch => Sys2Proof.Machine.execCrewCommit launch s
  | .registerGrant core => Sys2Proof.Machine.execRegisterGrant core s
  | .registerDeadlockPark core => Sys2Proof.Machine.execRegisterDeadlockPark core s
  | .gangRestore core => Sys2Proof.Machine.execGangRestore core s
  | .crewRestore crew => Sys2Proof.Machine.execCrewRestore crew s
  | .tokenGrant die => Sys2Proof.Machine.execTokenGrant die s
  | .mmulStreamEnd core => Sys2Proof.Machine.execMmulStreamEnd core s
  | .transomRefetch core slot => Sys2Proof.Machine.execTransomRefetch core slot s
  | .pageWalk at_ va => Sys2Proof.Machine.execPageWalk at_ va s
  | .faultRecordPost ctx => Sys2Proof.Machine.execFaultRecordPost ctx s
  | .grantFill at_ key group => Sys2Proof.Machine.execGrantFill at_ key group s
  | .memoryAccessComplete core slot op => Sys2Proof.Machine.execMemoryAccessComplete core slot op s
  | .copyContextGrant core => Sys2Proof.Machine.execCopyContextGrant core s
  | .copyRowComplete core ctx => Sys2Proof.Machine.execCopyRowComplete core ctx s
  | .copyPostComplete core ctx => Sys2Proof.Machine.execCopyPostComplete core ctx s
  | .latchPoll core slot => Sys2Proof.Machine.execLatchPoll core slot s
  | .sleepWake core slot => Sys2Proof.Machine.execSleepWake core slot s
  | .pwaitExpiry core slot => Sys2Proof.Machine.execPwaitExpiry core slot s
  | .issueSelect core => Sys2Proof.Machine.execIssueSelect core s
  | .handlerRunStart core => Sys2Proof.Machine.execHandlerRunStart core s
  | .shadowCompare core slot same => Sys2Proof.Machine.execShadowCompare core slot same s
  | .spanGather launch => Sys2Proof.Machine.execSpanGather launch s
  | .spanCommit launch => Sys2Proof.Machine.execSpanCommit launch s
  -- upsets, firmware and bring-up
  | .scrub core bad => Sys2Proof.Machine.execScrub core bad s
  | .schedRecovery cluster => Sys2Proof.Machine.execSchedRecovery cluster s
  | .fatalError code => Sys2Proof.Machine.execFatalError code s
  | .thermalTrip => Sys2Proof.Machine.execThermalTrip s
  | .setPowerLimit watts most => Sys2Proof.Machine.execSetPowerLimit watts most s
  | .moduleReset => Sys2Proof.Machine.execModuleReset s
  | .imageLoad ecdsaOk lmsOk version fuse fw => Sys2Proof.Machine.execImageLoad ecdsaOk lmsOk version fuse fw s
  | .functionReady bit => Sys2Proof.Machine.execFunctionReady bit s
  | .variableLatencyResult core slot id => Sys2Proof.Machine.execVariableLatencyResult core slot id s
  | .crewSaveComplete crew => Sys2Proof.Machine.execCrewSaveComplete crew s
  | .channelEnableWrite core en => Sys2Proof.Machine.execChannelEnableWrite core en s
  | .dvorlekPortDown port => Sys2Proof.Machine.execDvorlekPortDown port s
  | .dvorlekPortRejoin port => Sys2Proof.Machine.execDvorlekPortRejoin port s

end Sys2Proof.Machine
end

