-- ==== Sys2Proof/Machine/Schedule.lean ====
section
/-! DEFINITION. What happens next: the agent picked in the current cycle, and, when nothing else is due, the default schedule of the engines and cores
(log 2), which is one order among those the manual allows; and the launch that stands for a loaded program (log 16). -/
namespace Sys2Proof.Machine

/-- A row that has words: an instruction, which only an agent executes. -/
def isCode (i : Instr) : Bool := !(encode i).isEmpty

/-- The shadow of a gang runs the next instruction of its queue: it takes the leading gang's results, or runs the instruction itself, in the gang's
place (R356). -/
def State.runShadow (s : State) (g : Gang) : Host.Outcome State Fault Refusal :=
  match g.shadow with
  | none => .next s
  | some x =>
    match x.queue with
    | [] => .next s
    | it :: r =>
      match it.took, s.atPc g it.pc with
      | some l, _ => .next (s.putGang (g.shadowImport x it r l))
      | none, .instr i =>
        let t := s.putGang (g.asShadow x it)
        match exec i { t with cur := some (.gang g.core g.slot) } with
        | .next u => .next (s.shadowTook g x it r u)
        | o => o
      | none, _ => .next (s.putGang (g.shadowSpoil it))

/-- The picked agent fetches, and executes what it finds. -/
def State.runAgent (s : State) (a : Agent) : Host.Outcome State Fault Refusal :=
  match a with
  | .gang core slot =>
    match s.gang? core slot with
    | none => .next s
    | some g =>
      match s.atGang g with
      | .instr i => exec i { s.noteFetch core slot g.launch g.pc ((shape i).len / 4) with cur := some a }
      | x => .next (s.noInstr g x)
  | .copy core ix =>
    match s.ctx? core ix with
    | none => .next s
    | some c =>
      match s.atCopy core c with
      | .instr i => exec i { s.noteFetch core (64 + ix) c.launch c.pc ((shape i).len / 4) with cur := some a }
      | x => .next (s.noCopyInstr core ix c x)
  | .shadow core slot =>
    match s.gang? core slot with
    | none => .next s
    | some g => s.runShadow g

/- The default schedule -/

def coreNo (n : Nat) : BitVec 9 := BitVec.ofNat 9 n
def slotNo (n : Nat) : BitVec 6 := BitVec.ofNat 6 n

/-- What may be due for a far access. -/
def State.dueFar (s : State) : List Instr :=
  (s.far.filter (fun f => !s.reachable f.peer)).map (fun f => .farRefused f.id) ++ s.far.map (fun f => .farTimeout f.id)

/-- What may be due for a gang. -/
def dueGang (g : Gang) : List Instr :=
  let c := coreNo g.core
  let t := slotNo g.slot
  (match g.stat with
    | .sleeping _ => [.sleepWake c t]
    | .waiting (.promise _) => [.pwaitExpiry c t]
    | .waiting (.latchPoll _ _) => [.latchPoll c t]
    | .waiting (.refetch _) => [.transomRefetch c t]
    | .waiting .shadow => [.shadowCompare c t true]
    | _ => []) ++
  g.busy.map (fun b => .variableLatencyResult c t b.id) ++ g.ops.map (fun o => .memoryAccessComplete c t o.id)

/-- What may be due for a core. -/
def dueCore (c : Nat) : List Instr :=
  [.mmulStreamEnd (coreNo c), .handlerRunStart (coreNo c), .registerGrant (coreNo c), .gangRestore (coreNo c), .registerDeadlockPark (coreNo c),
   .copyContextGrant (coreNo c)]

def dueCtx (key : Nat) : List Instr :=
  let c := coreNo (key / 16)
  let x := BitVec.ofNat 4 (key % 16)
  [.copyRowComplete c x, .copyPostComplete c x]

/-- What may be due, in the order in which it is tried. -/
def State.due (s : State) : List Instr :=
  s.dueFar ++ (s.gangList.map dueGang).flatten ++ (s.cores.map (fun x => dueCore x.1)).flatten ++ [.tokenGrant false, .tokenGrant true] ++
    (s.ctxs.map (fun x => dueCtx x.1)).flatten ++ s.fqPend.map (fun r => .faultRecordPost (BitVec.ofNat 4 r.ctx)) ++
    s.preCrews.map .crewSaveComplete ++ s.crews.map (fun x => .crewRetire x.1) ++ s.crews.map (fun x => .crewRestore x.1) ++
    (s.launches.map (fun x => [Instr.crewCommit x.1, .spanCommit x.1, .spanGather x.1, .launchComplete x.1])).flatten ++
    [.admitBand, .bandBlocking] ++ (List.range 64).map (fun q => .takeUp (slotNo q))

/-- A step of an engine that changes something. -/
def State.changes (s : State) (i : Instr) : Bool :=
  match exec i s with
  | .next t => t != s
  | _ => false

/-- Cores whose cycles advance: core 0, which is also the scheduler's clock, and every core in use. -/
def State.clocked (s : State) : List Nat := 0 :: (s.cores.map (·.1)).filter (· != 0)

/-- The default schedule: what is due first, else a cycle of the next core. -/
def State.runDefault (s : State) : Host.Outcome State Fault Refusal :=
  match s.due.find? s.changes with
  | some i => exec i s
  | none => exec (.issueSelect (coreNo (s.clocked.getD (s.turn % s.clocked.length) 0))) { s with turn := s.turn + 1 }

/- A loaded program (log 16) -/

/-- A FREE launch of one crew of one gang, or a SPAN launch for the event instructions. -/
def loadedPacket (mode : Nat) : Packet :=
  { mode := mode, prio := 0, keyset := true, shadow := false, cosched := true, rns := true, crew := 1, band := 1, widths := [6, 0, 0, 0, 0, 0]
    counts := [64, 1, 1, 1, 1, 1], tlease := 4, regs := 256, phase := 0, part := 0x00010102, scratch := 4096, effect := 4096, key := 0
    rnglen := 0, entry := 0, logbase := 0, loglen := 4096, seed := 0, rngbase := 0, args := [], store := 0, htab := 0, look := 0 }

def loadedLaunch (mode : Nat) : Launch := { q := 0, seq := 0, pkt := loadedPacket mode, order := 0, nextBand := 1 }
def loadedCrew : Crew := { launch := 0, band := 0, inBand := 0, core := 0, live := 1, entry := 0 }
def loadedGang : Gang :=
  { launch := 0, crew := 0, ix := 0, core := 0, slot := 0, age := 0, pc := 0, n := 256, base := BitVec.allOnes 64 }
def loadedStop : Stop :=
  { cause := 0, agent := 0, pc := 0, next := 0, replay := 0, info := 0, wid := 0, launch := 0, ofGang := true }
def loadedCtx : CopyCtx :=
  { crew := 0, launch := 0, program := true, slot := 0, op := 0, wid := 0, postPc := 0, pc := 0, latch := none, key := 0, owed := false, stat := .running }

/-- The frame that a loaded program stands in, mapped at virtual address 0 of context 0. -/
def loadedFrame : Nat := 16
def loadedLeaf : TlbEntry :=
  { core := 0, l2 := false, ctx := 0, page := 0, leaf := { pfn := loadedFrame, door := 0, size := 0, far := false, peer := 0, ord := false, ver := false, w := true } }

/-- Which agent runs a word: by its OPC and XOP, a copy context (R62), the handler slot (R348), or a gang. -/
def loadedAgent (w : Nat) : Agent :=
  let opc := w / 2 ^ 9 % 128
  if 0x78 ≤ opc ∧ opc ≤ 0x7B then .copy 0 0
  else if opc = 0x0B ∧ 16 ≤ w / 2 ^ 56 % 256 then .gang 0 32
  else .gang 0 0

/-- The launch, crew and agent that a loaded program needs. -/
def State.loaded (s : State) (w : Nat) : State :=
  let opc := w / 2 ^ 9 % 128
  let s := (s.putLaunch 0 (loadedLaunch (if 0x70 ≤ opc ∧ opc ≤ 0x73 then 2 else 0))).putCrew 0 loadedCrew
  let s := s.putCore 0 { s.core 0 with part := some 0x00010102, run := none, stops := [] }
  match loadedAgent w with
  | .copy _ _ => s.putCtx 0 0 loadedCtx
  | .gang _ 32 =>
    ((s.putGang { loadedGang with stat := .stopped }).putCore 0 { s.core 0 with run := some { stop := loadedStop, sel := some 0 } }).putGang
      { loadedGang with slot := 32, n := 32 }
  | .gang _ _ | .shadow _ _ => s.putGang loadedGang

/-- Places the words at the agent's PC and picks the agent. -/
def State.place (s : State) (nbits w : Nat) : State :=
  let s := (s.loaded w).physWrite (loadedFrame * 4096) (clean (leBytes 20 (w % 2 ^ nbits)))
  { s with tlb := loadedLeaf :: s.tlb, readyBits := BitVec.ofNat 64 (2 ^ 58 - 1), image := true, fatal := none, outside := [], agenda := [], submitted := [], picks := [loadedAgent w] }

end Sys2Proof.Machine
end

