-- ==== Sys2Proof/Machine/Step.lean ====
section
/-! DEFINITION. One step of the module: what reaches it from outside, else what stands on the agenda, else the next record submitted to the mailbox, else nothing
after a fatal error, else the agent picked in the current cycle, else the default schedule; and the state in which a given instruction is the next to run. -/
namespace Sys2Proof.Machine

/-- One step. An instruction of a program, on the agenda or among the records, has no agent to run it and is passed over. -/
def step (s : State) : Host.Outcome State Fault Refusal :=
  match s.outside, s.agenda, s.picks with
  | x :: r, _, _ => .next ({ s with outside := r }.meets x)
  | [], i :: r, _ => if isCode i then .next { s with agenda := r } else exec i { s with agenda := r }
  | [], [], p => match s.submitted with
    | i :: r => if isCode i then .next { s with submitted := r } else exec i { s with submitted := r }
    | [] => if s.fatal.isSome then .next s else match p with
      | a :: r => { s with picks := r }.runAgent a
      | [] => s.runDefault

def State.withFetchWord (s : State) (nbits w : Nat) : State := s.place nbits w

end Sys2Proof.Machine
end

