-- ==== Sys2Proof/Safety.lean ====
section
/-! DEFINITION. What the statements speak of: when an instruction issues at a gang or at a copy context, the state in which it completes, the lanes it
writes, what a frame leaves alone, and the freeze after a fatal error. -/
namespace Sys2Proof.Machine

/- Issue at a gang -/

/-- The gang `g` takes its next instruction: it is the current one, it is ready and its turn has come (R331, R4), its shadow has room for the instruction (R356), its
crew is not being saved (R335), and no IMPRECISE stop is pending (R355). -/
structure Steps (s : State) (g : Gang) : Prop where
  here : s.cur = some (.gang g.core g.slot)
  placed : s.gang? g.core g.slot = some g
  ready : g.stat = .ready
  roomy : g.roomy = true
  unsaved : g.isHandler = true ∨ s.preCrews.contains g.crew = false
  turn : g.notBefore ≤ s.cyc g.core
  noFailed : g.failed = []

/-- The instruction is the next one of the gang `g`, and nothing that is checked before it acts stands against it but, maybe, what it orders and its
comparison: an MMUL with a live active lane has its token (R183), it names no register beyond `$regs` (R49), no dependence is undersized under SCHK and none is unready (R56), no scalar, mask
or buffer source, and neither the PC nor the mask stack, holds poison (R109), and its shadow has gone no other way (R357). -/
structure Cleared (i : Instr) (s : State) (g : Gang) : Prop extends Steps s g where
  tokened : g.tokenless (shape i) = false
  regs : vTop (shape i) ≤ g.n
  counts : g.schk = true → ∀ p ∈ g.pend, p.ref ∈ (shape i).reads ++ (shape i).writes → p.lat ≤ p.sum
  fixed : ∀ p ∈ g.pend, p.ref ∈ (shape i).reads ++ (shape i).writes → p.readyAt ≤ s.cyc g.core
  late : ∀ b ∈ g.busy, (∀ r ∈ b.refs, r ∉ (shape i).reads ++ (shape i).writes) ∧ (∀ r ∈ b.hold, r ∉ (shape i).writes)
  clean : ∀ r ∈ (shape i).reads, g.refBad r = false
  cleanPc : g.pcBad = false
  cleanStack : g.stackBad (shape i).opc.toNat = false
  twin : g.shadowSpoiled = false

/-- The instruction issues: besides, no far access of the gang's stands before it that a release or a FENCE orders (R291, R296), and under SHADOW its
comparison has been made (R357). -/
structure Issues (i : Instr) (s : State) (g : Gang) : Prop extends Cleared i s g where
  ordered : s.ordered g (shape i) = false
  compared : Machine.compared (shape i) = true → g.checked = true ∨ g.isHandler = true ∨ s.shadowed g.launch = false

/-- The live active lanes of an instruction (R5). -/
def Gang.acting (g : Gang) (i : Instr) : LaneMask := g.live (g.active (shape i))

/-- The gang `h` that an instruction of `g` leaves, with the instruction queued for its shadow, if it has one (R356). -/
def Gang.leads (h : Gang) (i : Instr) (g : Gang) : Gang := h.follow (shape i) (h.live (g.active (shape i))) (shadowTakes (shape i))

/-- The state after the instruction `i` of gang `g` completes, leaving the rest of the module as `t` and the gang as `h`: the PC has advanced. -/
def State.completes (s : State) (i : Instr) (g : Gang) (t : State) (h : Gang) : State :=
  t.putGang ((h.leads i g).advance (shape i) (s.cyc g.core) (g.next (shape i)))

/-- The state after a control transfer to `pc` (R57). -/
def State.jumps (s : State) (i : Instr) (g : Gang) (t : State) (h : Gang) (pc : VAddr) : State :=
  t.putGang ((h.leads i g).transfer (shape i) (s.cyc g.core) pc)

/-- The state after `i` raises a gang-level trap: the gang stops at its own PC, with the active mask as its replay mask (R338, R343); it has issued, so its wait
age starts anew and its STALL counts (R55, R331). -/
def State.traps (s : State) (i : Instr) (g : Gang) (cause : Nat) : State :=
  s.takeStop (g.issuedAt (shape i) (s.cyc g.core)) cause 0 (wordsInfo i) (g.active (shape i)) [] g.pc (g.next (shape i))

/-- The state after `i`, issued in `s`, has left the rest of the module as `t`: lanes of it have raised lane traps, listed with their codes in rising lane
order, and the others have left the gang as `h`. The gang stops with LANE_TRAP, the lowest raising lane's code as DETAIL and the raising lanes as replay mask
(R132, R338, R339); its shadow, if it has one, takes what the other lanes wrote (R356). -/
def State.laneStops (s t : State) (i : Instr) (g h : Gang) (l : List (Nat × Nat)) : State :=
  let bad : LaneMask := maskOf 64 (l.map (·.1))
  t.takeStop ((h.follow (shape i) (h.live (g.active (shape i)) &&& ~~~ bad) true).issuedWith (shape i) (s.cyc g.core)) 31 ((l.head?.map (·.2)).getD 0)
    (wordsInfo i) bad (codesOf l) g.pc (g.next (shape i))

/-- The state after a gang-level access of `i` raises a lane code: LANE_TRAP with the code in every active lane (R117, R338). -/
def State.allStop (s : State) (i : Instr) (g : Gang) (code : Nat) : State :=
  let act := g.active (shape i)
  s.takeStop (g.issuedAt (shape i) (s.cyc g.core)) 31 (if act = 0 then 0 else code) (wordsInfo i) act (codesOf ((bitsOn act).map (fun k => (k, code)))) g.pc
    (g.next (shape i))

/-- The state after the gang goes on waiting with `i` still to be executed. -/
def State.waits (t : State) (h : Gang) (w : Wait) : State := t.putGang { h with stat := .waiting w }

/-- No register of the list holds poison in a lane of the mask. -/
def Gang.CleanIn (g : Gang) (m : LaneMask) (regs : List Nat) : Prop := ∀ i ∈ bitsOn m, ∀ r ∈ regs, g.vBad r i = false

/-- The gang with `f i`, as bits of type `t`, in lane `i` of register `d`, for every lane `i` of the mask. -/
def Gang.lanesTo (g : Gang) (t : Fmt) (d : Nat) (m : LaneMask) (f : Nat → Nat) : Gang :=
  (bitsOn m).foldl (fun h i => h.vPut t d i (f i)) g

/- Issue at a copy context -/

/-- The instruction is the next one of the copy context `c`: it runs a program, is neither parked nor draining, its crew is not being saved, it owes no
XCOPYV status, and no `k` register among the sources holds poison (R265, R270, R335). -/
structure CopyIssues (s : State) (core ix : Nat) (c : CopyCtx) (srcs : List KSc) : Prop where
  here : s.cur = some (.copy core ix)
  placed : s.ctx? core ix = some c
  program : c.program = true
  running : c.stat = .running
  unparked : c.park = none
  unsaved : s.preCrews.contains c.crew = false
  settled : ∀ r ∈ c.rows, r.versioned = none
  clean : ∀ x ∈ srcs, c.bad x = false

/-- The state after a copy-class instruction completes, leaving the rest as `t` and the context as `d`. -/
def State.copyNext (core ix : Nat) (i : Instr) (t : State) (d : CopyCtx) : State :=
  t.putCtx core ix { d with pc := d.pc + BitVec.ofNat 57 (shape i).len }

/- The host -/

/-- A mailbox command is served at once: no fatal error, MBOX ready, no earlier command waiting (R302, R361, R402). -/
structure Serves (s : State) : Prop where
  whole : s.fatal = none
  mbox : s.readyBits.getLsbD 0 = true
  first : s.mbox = []

/- Frames -/

/-- Nothing of the module but the gang in slot (core, slot), and the number that the model gives the next operation, differs: memory, the other
gangs, the crews, cores and queues are as they were. -/
def OnlyGang (core slot : Nat) (s t : State) : Prop := { t with gangs := [], nextId := 0 } = { s with gangs := [], nextId := 0 } ∧
  ∀ c k, gkey c k ≠ gkey core slot → t.gang? c k = s.gang? c k

/-- The register files of a gang but for what the predicates admit. -/
structure SameRegs (g h : Gang) (s : Nat → Prop) (v : Nat → Nat → Prop) (m b : Nat → Prop) : Prop where
  scalars : ∀ n, ¬ s n → h.sGet n = g.sGet n
  vectors : ∀ n lane, ¬ v n lane → h.vGet n lane = g.vGet n lane
  masks : ∀ n, ¬ m n → h.mGet n = g.mGet n
  buffers : ∀ n, ¬ b n → h.bGet n = g.bGet n

/-- The special registers that a gang holds (R111). -/
structure SameSpecials (g h : Gang) : Prop where
  rmode : h.rmode = g.rmode
  dead : h.dead = g.dead
  deny : h.deny = g.deny
  wid : h.wid = g.wid
  key : h.key = g.key
  now : h.now = g.now
  regs : h.n = g.n
  stack : h.stack = g.stack

/- The freeze -/

/-- After a fatal error, and with no module reset among what is to happen next. -/
def Frozen (code : Nat) (s : State) : Prop := s.fatal = some code ∧ Instr.moduleReset ∉ s.agenda ∧ Instr.moduleReset ∉ s.submitted

end Sys2Proof.Machine
end

