-- ==== Sys2Proof/Rows.lean ====
section
/-! DEFINITION. What the statements say of the rows that only compute: for each row of a shape, the destination and the value that the manual's
tables give, in terms of the operands read at the gang. -/
namespace Sys2Proof.Machine

/- Scalar rows (R113 to R116) -/

/-- `wr(f(rd a, rd b))` of R114; FMT 0 is i64. -/
def scalarAlu (s : State) (g : Gang) (h : SH) (t : Fmt) (a b : Sc) (f : Int → Int → Int) : DWord :=
  let t := t.or .i64
  wrS t (f (rd t (s.sc g h.lit a).toNat) (rd t (s.sc g h.lit b).toNat))

/-- The destination register and the value of a scalar row whose result has a fixed latency. -/
def scalarRow (s : State) (g : Gang) : Instr → Option (BitVec 6 × DWord)
  | .smov _ d a => some (d, s.sc g none a)
  | .smovLit _ d v | .sli _ d v => some (d, v)
  | .sadd h t d a b => some (d, scalarAlu s g h t a b (fun x y => x + y))
  | .ssub h t d a b => some (d, scalarAlu s g h t a b (fun x y => x - y))
  | .smul h t d a b => some (d, scalarAlu s g h t a b (fun x y => x * y))
  | .smulh h t d a b => some (d, scalarAlu s g h t a b (fun x y => x * y / 2 ^ (t.or .i64).bits))
  | .smin h t d a b => some (d, scalarAlu s g h t a b (fun x y => if x ≤ y then x else y))
  | .smax h t d a b => some (d, scalarAlu s g h t a b (fun x y => if x ≤ y then y else x))
  | .sand h _ d a b => some (d, s.sc g h.lit a &&& s.sc g h.lit b)
  | .sor h _ d a b => some (d, s.sc g h.lit a ||| s.sc g h.lit b)
  | .sxor h _ d a b => some (d, s.sc g h.lit a ^^^ s.sc g h.lit b)
  | .sshl h t d a b =>
    let n := (s.sc g h.lit b).toNat
    some (d, scalarAlu s g h t a b (fun x _ => if n < (t.or .i64).bits then x * 2 ^ n else 0))
  | .sshr h t d a b =>
    let n := (s.sc g h.lit b).toNat
    some (d, scalarAlu s g h t a b (fun x _ => if n < (t.or .i64).bits then x / 2 ^ n else if x < 0 then -1 else 0))
  | .scmp h c t d a b =>
    let t := t.or .i64
    some (d, if c.int? (rd t (s.sc g h.lit a).toNat) (rd t (s.sc g h.lit b).toNat) then 1 else 0)
  | .ssel h _ d a b c => some (d, if s.sc g h.lit c ≠ 0 then s.sc g h.lit a else s.sc g h.lit b)
  | .scnt h op t d a =>
    let w := (t.or .n64).bits
    some (d, BitVec.ofNat 64 (cntRun op w ((s.sc g h.lit a).toNat % 2 ^ w)))
  | _ => none

/-- The quotient and the remainder of R116: the remainder has the dividend's sign; by zero they are −1 and the dividend; the most negative number
by −1 gives itself and 0. -/
def divRow (t : Fmt) (rem : Bool) (x y : Int) : Int :=
  if y = 0 then (if rem then x else -1)
  else if t.signed ∧ x = -(2 ^ (t.bits - 1) : Nat) ∧ y = -1 then (if rem then 0 else x)
  else if rem then x.tmod y else x.tdiv y

/- Where an instruction is legal (R63, R64, R348, R375) -/

/-- An instruction of a gang that is legal at the gang `g`: the window instructions in the handler slot alone, the array, register and post rows, VRND and the
barriers outside it, the event rows in a SPAN launch; OPC 0x7F nowhere, and a SETSR of `$rmode` with no rounding code of 5 to 7 (R28, R121). -/
def legalAt (s : State) (g : Gang) (i : Instr) : Bool :=
  isCode i && decide ((shape i).opc.toNat < 0x78) &&
  match i with
  | .undef _ _ _ _ _ => false
  | .wsel _ _ _ | .wrd _ _ _ | .wwr _ _ _ _ | .wres _ _ _ => g.isHandler
  | .rgrow _ _ _ | .rshr _ _ _ | .vrnd _ _ _ _ | .mwld _ _ _ _ | .mmul _ _ _ _ _ _ _ | .maclr _ _ _ | .mard _ _ _ _ _ _ _ _ | .mawr _ _ _ _ _ _ _
  | .cpost _ _ _ _ _ | .cgath _ _ _ _ _ _ _ _ | .cscat _ _ _ _ _ _ _ _ | .ccopy _ _ _ _ _ _ _ _ | .ccopyOut _ _ _ _ _ _ _ _
  | .ccopyTr _ _ _ _ _ _ | .cchain _ _ _ _ _ _ _ _ _ | .cbar _ _ | .gbar _ _ => !g.isHandler
  | .evs _ _ _ _ _ _ _ | .evc _ _ _ | .evr _ _ _ | .evx _ _ => s.modeOf g == 2
  | .setsr h .rmode (.s x) => decide ((s.sc g h.lit x).toNat % 8 < 5)
  | _ => true

/- Lane rows -/

/-- A row that computes in each lane on its own: the vector registers whose poison a lane consumes (R131), a lane's result with the lane code it
raises, 0 for none (R132), where the result goes, and the registers for which dependants wait when the latency is not fixed (R56). -/
structure LaneRow where
  regs : List Nat
  res : Nat → Nat × Nat
  put : Gang → Nat → Nat → Gang
  late : List Ref := []

def lanesOf (t : Fmt) (d : BitVec 8) (regs : List Nat) (f : Nat → Nat) : LaneRow := { regs := regs, res := fun i => (f i, 0), put := fun h i x => h.vPut t d.toNat i x }
def lanesFp (g : Gang) (t : Fmt) (d : BitVec 8) (regs : List Nat) (f : Nat → FpRes) : LaneRow :=
  { regs := regs, res := fun i => ((f i).1, g.fpTrap (f i).2), put := fun h i x => h.vPut t d.toNat i x }

/-- Two sources read by `rd`, the result taken modulo the type's width (R129, R133). -/
def laneAlu (s : State) (g : Gang) (h : VH) (t : Fmt) (d : BitVec 8) (a b : VSrc) (f : Int → Int → Int) : LaneRow :=
  let t := t.or .i32
  lanesOf t d (srcRegs t a ++ srcRegs t b) (fun i => wrapInt t.bits (f (rd t (s.vsrc g h.lit t a i)) (rd t (s.vsrc g h.lit t b i))))

def laneBits (s : State) (g : Gang) (h : VH) (t : Fmt) (d : BitVec 8) (a b : VSrc) (f : Nat → Nat → Nat) : LaneRow :=
  let t := t.or .b32
  lanesOf t d (srcRegs t a ++ srcRegs t b) (fun i => f (s.vsrc g h.lit t a i % 2 ^ t.bits) (s.vsrc g h.lit t b i % 2 ^ t.bits))

/-- The vector integer rows with a vector destination (R133 to R135). -/
def intRow (s : State) (g : Gang) : Instr → Option LaneRow
  | .vmov h t d a => let t := t.or .b32; some (lanesOf t d (srcRegs t a) (fun i => s.vsrc g h.lit t a i))
  | .vadd h t d a b => some (laneAlu s g h t d a b (fun x y => x + y))
  | .vsub h t d a b => some (laneAlu s g h t d a b (fun x y => x - y))
  | .vmul h t d a b => some (laneAlu s g h t d a b (fun x y => x * y))
  | .vmulh h t d a b => some (laneAlu s g h t d a b (fun x y => x * y / 2 ^ (t.or .i32).bits))
  | .vmin h t d a b => some (laneAlu s g h t d a b (fun x y => if x ≤ y then x else y))
  | .vmax h t d a b => some (laneAlu s g h t d a b (fun x y => if x ≤ y then y else x))
  | .vsat h sub t d a b =>
    let u := t.or .i32
    some (laneAlu s g h t d a b (fun x y => let z := if sub then x - y else x + y; if z < u.lo then u.lo else if u.hi < z then u.hi else z))
  | .vshl h t d a b =>
    some (laneAlu s g h t d a b (fun x y => let n := wrapInt 32 y; if n < (t.or .i32).bits then x * 2 ^ n else 0))
  | .vshr h t d a b =>
    some (laneAlu s g h t d a b (fun x y => let n := wrapInt 32 y; if n < (t.or .i32).bits then x / 2 ^ n else if x < 0 then -1 else 0))
  | .vmad h t d a b c =>
    let t := t.or .i32
    some (lanesOf t d (srcRegs t a ++ srcRegs t b ++ srcRegs t c)
      (fun i => wrapInt t.bits (rd t (s.vsrc g h.lit t a i) * rd t (s.vsrc g h.lit t b i) + rd t (s.vsrc g h.lit t c i))))
  | .vand h t d a b => some (laneBits s g h t d a b (fun x y => x &&& y))
  | .vor h t d a b => some (laneBits s g h t d a b (fun x y => x ||| y))
  | .vxor h t d a b => some (laneBits s g h t d a b (fun x y => x ^^^ y))
  | .vabs h t d a => let t := t.or .i32; some (lanesOf t d (srcRegs t a) (fun i => wrapInt t.bits |rd t (s.vsrc g h.lit t a i)|))
  | .vsel h t d a b c =>
    let t := t.or .b32
    some (lanesOf t d (srcRegs t a ++ srcRegs t b)
      (fun i => if (g.mGet c.toNat).getLsbD i then s.vsrc g h.lit t a i else s.vsrc g h.lit t b i))
  | .vcvt h f t d a => some (lanesOf t d (srcRegs f a) (fun i => t.convInt g.sat (rd f (s.vsrc g h.lit f a i))))
  | .vbit h op t d a => let t := t.or .n32; some (lanesOf t d (srcRegs t a) (fun i => vbitRun op t (s.vsrc g h.lit t a i)))
  | _ => none

/-- The vector floating-point rows with a vector destination (R136 to R140); the operations are those of R29 to R37. -/
def fpRow (s : State) (g : Gang) : Instr → Option LaneRow
  | .fadd h r t d a b =>
    let t := t.or .f32
    some (lanesFp g t d (srcRegs t a ++ srcRegs t b) (fun i => fpAdd t.fp (g.mode r) g.sat (s.fval g h t a i) (s.fval g h t b i)))
  | .fsub h r t d a b =>
    let t := t.or .f32
    some (lanesFp g t d (srcRegs t a ++ srcRegs t b) (fun i => fpSub t.fp (g.mode r) g.sat (s.fval g h t a i) (s.fval g h t b i)))
  | .fmul h r t d a b =>
    let t := t.or .f32
    some (lanesFp g t d (srcRegs t a ++ srcRegs t b) (fun i => fpMul t.fp (g.mode r) g.sat (s.fval g h t a i) (s.fval g h t b i)))
  | .ffma h r t d a b c =>
    let t := t.or .f32
    some (lanesFp g t d (srcRegs t a ++ srcRegs t b ++ srcRegs t c)
      (fun i => fpFma t.fp (g.mode r) g.sat (s.fval g h t a i) (s.fval g h t b i) (s.fval g h t c i)))
  | .fmin h t d a b =>
    let t := t.or .f32
    some (lanesFp g t d (srcRegs t a ++ srcRegs t b)
      (fun i => fpMinMax t.fp false (s.vsrc g h.lit t a i % 2 ^ t.bits) (s.vsrc g h.lit t b i % 2 ^ t.bits)))
  | .fmax h t d a b =>
    let t := t.or .f32
    some (lanesFp g t d (srcRegs t a ++ srcRegs t b)
      (fun i => fpMinMax t.fp true (s.vsrc g h.lit t a i % 2 ^ t.bits) (s.vsrc g h.lit t b i % 2 ^ t.bits)))
  | .fsgn h op t d a =>
    let t := t.or .f32
    match op with
    | .abs => some (lanesOf t d (srcRegs t a) (fun i => signAs t (s.vsrc g h.lit t a i) false))
    | .neg => some (lanesOf t d (srcRegs t a) (fun i => signAs t (s.vsrc g h.lit t a i) (!signOf t (s.vsrc g h.lit t a i))))
    | .copy b =>
      some (lanesOf t d (srcRegs t a ++ srcRegs t b) (fun i => signAs t (s.vsrc g h.lit t a i) (signOf t (s.vsrc g h.lit t b i))))
  | .fcvt h r f t d a =>
    let f := f.or .f32
    some (lanesFp g t d (srcRegs f a) (fun i => deliverTo t (g.mode r) g.sat (s.cvtVal g h f a i)))
  | .frint h r t d a => let t := t.or .f32; some (lanesFp g t d (srcRegs t a) (fun i => fpRint t.fp (g.mode r) (s.fval g h t a i)))
  | .fdiv h r t d a b =>
    let t := t.or .f32
    some { lanesFp g t d (srcRegs t a ++ srcRegs t b) (fun i => fpDiv t.fp (g.mode r) g.sat (s.fval g h t a i) (s.fval g h t b i)) with
      late := [.v d.toNat] }
  | .fsqrt h r t d a =>
    let t := t.or .f32
    some { lanesFp g t d (srcRegs t a) (fun i => fpSqrt t.fp (g.mode r) g.sat (s.fval g h t a i)) with late := [.v d.toNat] }
  | .fclass h t d a =>
    let t := t.or .f32
    some (lanesOf .n32 d (srcRegs t a) (fun i => 2 ^ fpClass t.fp (s.vsrc g h.lit t a i % 2 ^ t.bits)))
  | .fpack h r p _ d a (.pack b c) =>
    let p := p.or .f16
    some {
      regs := srcRegs .f32 a ++ srcRegs .f32 b
      res := fun i =>
        let y := packLane g p (p.fp.deliver (g.mode r) g.sat (s.fval g h .f32 a i)) (p.fp.deliver (g.mode r) g.sat (s.fval g h .f32 b i))
        let old := g.vGet d.toNat i
        (if p.bits = 16 then y.1 else if s.sc g h.lit c = 0 then old / 65536 * 65536 + y.1 else y.1 * 65536 + old % 65536, y.2)
      put := fun k i x => k.vSet d.toNat i x (p.bits == 8 && k.vBad d.toNat i) }
  | .fpack h _ p _ d a (.unpack b) =>
    let p := p.or .f16
    let j := (s.sc g h.lit b).toNat % (32 / p.bits)
    some (lanesFp g .f32 d (srcRegs .f32 a) (fun i =>
      match p.fp.read (s.vsrc g h.lit .f32 a i % 2 ^ 32 / 2 ^ (p.bits * j) % 2 ^ p.bits) with
      | .nan n f sg => (fp32.quiet n f, { inv := sg })
      | .inf n => (fp32.infBits n, {})
      | .fin x => fp32.round .rtz false x))
  | _ => none

/-- The residue rows with an octet as result (R188, R201): RFWD and RMAD. -/
def octetRow (s : State) (g : Gang) : Instr → Option LaneRow
  | .rfwd h f _ d a => let t := f.or .i32; some (lanesOf .n64 d (srcRegs t a) (fun i => forward (rd t (s.vsrc g h.lit t a i))))
  | .rmad h d a b c =>
    some (lanesOf .n64 d (srcRegs .n64 a ++ srcRegs .n64 b ++ srcRegs .n64 c) (fun i => octetOf (fun k =>
      (octet (s.pair g h.lit a i) k * octet (s.pair g h.lit b i) k + octet (s.pair g h.lit c i) k) % modulus k)))
  | _ => none

/-- Rows whose result is one bit of a mask register in each lane: VCMP, FCMP, RCHK. -/
structure BitRow where
  regs : List Nat
  d : BitVec 4
  res : Nat → Bool × Nat

def bitRow (s : State) (g : Gang) : Instr → Option BitRow
  | .vcmp h c t d a b =>
    let t := t.or .i32
    some { regs := srcRegs t a ++ srcRegs t b, d := d, res := fun i => (c.int? (rd t (s.vsrc g h.lit t a i)) (rd t (s.vsrc g h.lit t b i)), 0) }
  | .fcmp h c t d a b =>
    let t := t.or .f32
    some { regs := srcRegs t a ++ srcRegs t b, d := d,
           res := fun i => let r := c.fp? (s.fval g h t a i) (s.fval g h t b i); (r.1, g.fpTrap { inv := r.2 }) }
  | .rchk h d a => some { regs := srcRegs .n64 a, d := d, res := fun i => (inRange (recon (s.en g) (s.pair g h.lit a i)), 0) }
  | _ => none

/- Cross-lane and select rows (R141 to R154) -/

/-- The lane that lane `i` of LXCH or LBCST takes its value from (R142). -/
def moveRow (s : State) (g : Gang) : Instr → Option (VH × Fmt × BitVec 8 × VSrc × (Nat → Nat))
  | .lxch h t d a b => some (h, t.or .b32, d, a, fun i => i ^^^ ((s.sc g h.lit b).toNat % 64))
  | .lbcst h t d a b => some (h, t.or .b32, d, a, fun _ => (s.sc g h.lit b).toNat % 64)
  | _ => none

/-- The destination of LVOTE after the votes of the lanes `l` (R143). -/
def voteRow (g : Gang) (d : VoteDst) (l votes : List Nat) : Gang :=
  match d with
  | .any n => g.sSet n.toNat (if votes = [] then 0 else 1)
  | .all n => g.sSet n.toNat (if votes.length = l.length then 1 else 0)
  | .ballot n => g.mSet n.toNat (maskOf 64 votes)

/-- The destination of LMSK (R144). -/
def maskRow (g : Gang) : MaskArg → Gang
  | .and d a b => g.mSet d.toNat (g.mGet a.toNat &&& g.mGet b.toNat)
  | .or d a b => g.mSet d.toNat (g.mGet a.toNat ||| g.mGet b.toNat)
  | .xor d a b => g.mSet d.toNat (g.mGet a.toNat ^^^ g.mGet b.toNat)
  | .andn d a b => g.mSet d.toNat (g.mGet a.toNat &&& ~~~ g.mGet b.toNat)
  | .not d a => g.mSet d.toNat (~~~ g.mGet a.toNat)
  | .mov d a => g.mSet d.toNat (g.mGet a.toNat)
  | .popc d a => g.sSet d.toNat (BitVec.ofNat 64 (bitsOn (g.mGet a.toNat)).length)

/-- A row that combines the values of the live active lanes `l` (R145 to R147): the registers consumed, the destination and its type, a lane's result,
and the registers for which dependants wait. -/
structure SumRow where
  regs : List Nat
  t : Fmt
  d : Nat
  res : Nat → FpRes
  late : List Ref := []

def sumRow (s : State) (g : Gang) (l : List Nat) : Instr → Option SumRow
  | .lscan h r op excl t d a =>
    let t := t.or .i32
    let terms (i : Nat) := (l.filter (fun j => if excl then decide (j < i) else decide (j ≤ i))).map (fun j => s.vsrc g h.lit t a j % 2 ^ t.bits)
    some { regs := srcRegs t a, t := t, d := d.toNat
           res := fun i => if op = .add ∧ t.float then (exactSum t (terms i)).readout t (g.mode r) g.sat else reduceList op t (terms i) }
  | .lred h op t d a =>
    let t := t.or .i32
    some { regs := srcRegs t a, t := t, d := d.toNat, res := fun _ => reduceList op t (l.map (fun j => s.vsrc g h.lit t a j % 2 ^ t.bits)) }
  | .lredx h r t d a none =>
    let t := t.or .f32
    some { regs := srcRegs t a, t := sumType t, d := d.toNat
           res := fun _ => (l.foldl (fun x i => x.addTerm t (s.vsrc g h.lit t a i)) Xa.zero).readout (sumType t) (g.mode r) g.sat
           late := Shape.vRange d.toNat (Shape.regsOf (sumType t)) }
  | .lredx h r t d a (some b) =>
    let t := t.or .f32
    some { regs := srcRegs t a ++ srcRegs t b, t := sumType t, d := d.toNat
           res := fun _ =>
             (l.foldl (fun x i => x.addTermProd t (s.vsrc g h.lit t a i) (s.vsrc g h.lit t b i)) Xa.zero).readout (sumType t) (g.mode r) g.sat
           late := Shape.vRange d.toNat (Shape.regsOf (sumType t)) }
  | _ => none

/-- The lanes' values in rank order, equal values in lane order (R149). -/
def ranked (s : State) (g : Gang) (h : VH) (t : Fmt) (a : VSrc) (l : List Nat) : List (Nat × Nat) :=
  (l.map (fun i => (i, s.vsrc g h.lit t a i % 2 ^ t.bits))).foldl (fun acc x => insertRanked t x acc) []

/-- TOPK's four registers (R148, R149): the first `k` values with their lanes, filled up; the sum of those selected and of the others. -/
def topkWrite (t u : Fmt) (d k : Nat) (c : List (Nat × Nat)) (l : List Nat) (sel out : Nat) (g : Gang) : Gang :=
  let g := (List.range k).foldl (fun g j =>
    match getElem? c j with
    | some x => (g.vPut t d j x.2).vSet (d + 1) j x.1
    | none => (g.vPut t d j (topkFill t)).vSet (d + 1) j 0xFFFFFFFF) g
  l.foldl (fun g i => (g.vPut u (d + 2) i sel).vPut u (d + 3) i out) g

/- Memory rows (R222) -/

/-- Nothing stands against a lane-wise access: its counter has room, the record is of its element size and writable when it writes, no lane consumes
poison, and each live active lane is out of bounds (`place` gives none) or reaches, at a virtual address, a physical place whose memory is ready, and
which, where its page has ORD = 1, waits for no access of the gang's at a peer; no lane has had its turn already (R301). -/
structure LaneAccess (i : Instr) (s : State) (g : Gang) (k : BitVec 4) (h : VH) (m : MH) (b : VSrc) (rule : MemRule) (cls : OpCls)
    (element : Bool) (data : List Nat) (place : Nat → Option (Nat × Nat)) : Prop where
  issues : Issues i s g
  room : g.counter cls < 63
  fits : (if element then recBadType (g.bGet k.toNat) rule.size else recBadCell (g.bGet k.toNat)) = false
  writable : rule.write = true → recRo (g.bGet k.toNat) = false
  clean : g.CleanIn (g.acting i) (srcRegs .b32 b)
  unbegun : g.turnsTaken = []
  dataClean : ∀ j ∈ bitsOn (g.acting i), place j ≠ none → ∀ r ∈ data, g.vBad r j = false
  out : ∀ j ∈ bitsOn (g.acting i), place j = none →
    s.reachLane g (g.bGet k.toNat) m rule j (s.vsrc g h.lit .b32 b j) = .oob
  reaches : ∀ j ∈ bitsOn (g.acting i), ∀ pa va, place j = some (pa, va) → ∃ ord,
    s.reachLane g (g.bGet k.toNat) m rule j (s.vsrc g h.lit .b32 b j) = .at_ (.here pa) va ord ∧ s.memReady pa = true ∧
      (ord = true → s.farOrdOf g = false)

/-- As `LaneAccess`, when some live active lanes raise lane traps: `code` gives a lane's code, 0 for none. No access that waits for a peer bears the number
that the model gives this operation. -/
structure LaneRaises (i : Instr) (s : State) (g : Gang) (k : BitVec 4) (h : VH) (m : MH) (b : VSrc) (rule : MemRule) (cls : OpCls)
    (element : Bool) (data : List Nat) (place : Nat → Option (Nat × Nat)) (code : Nat → Nat) : Prop where
  issues : Issues i s g
  room : g.counter cls < 63
  fits : (if element then recBadType (g.bGet k.toNat) rule.size else recBadCell (g.bGet k.toNat)) = false
  writable : rule.write = true → recRo (g.bGet k.toNat) = false
  clean : g.CleanIn (g.acting i) (srcRegs .b32 b)
  unbegun : g.turnsTaken = []
  dataClean : ∀ j ∈ bitsOn (g.acting i), code j = 0 → place j ≠ none → ∀ r ∈ data, g.vBad r j = false
  raises : ∀ j ∈ bitsOn (g.acting i), code j ≠ 0 → s.reachLane g (g.bGet k.toNat) m rule j (s.vsrc g h.lit .b32 b j) = .trap (code j)
  out : ∀ j ∈ bitsOn (g.acting i), code j = 0 → place j = none →
    s.reachLane g (g.bGet k.toNat) m rule j (s.vsrc g h.lit .b32 b j) = .oob
  reaches : ∀ j ∈ bitsOn (g.acting i), code j = 0 → ∀ pa va, place j = some (pa, va) → ∃ ord,
    s.reachLane g (g.bGet k.toNat) m rule j (s.vsrc g h.lit .b32 b j) = .at_ (.here pa) va ord ∧ s.memReady pa = true ∧
      (ord = true → s.farOrdOf g = false)
  fresh : ∀ f ∈ s.far, f.what.opOf ≠ some s.nextId
  raised : ∃ j ∈ bitsOn (g.acting i), code j ≠ 0

/-- The bounds mask after a lane-wise access (R208). -/
def Gang.boundsOf (g : Gang) (bm : BitVec 4) (l : List Nat) (place : Nat → Option (Nat × Nat)) : Gang :=
  g.mBits bm.toNat (l.map (fun j => (j, (place j).isNone)))

/-- The state once the lanes' translations and checks have counted and filled what they do (R209, R214, R245). -/
def State.noted (s : State) (g : Gang) (k : BitVec 4) (h : VH) (m : MH) (b : VSrc) (rule : MemRule) (lanes : LaneMask) : State :=
  s.noteLanes g rule (s.laneAddrs g (g.bGet k.toNat) h m b lanes)

/-- The same for a gang-level access at the index `ix`. -/
def State.notedLine (s : State) (g : Gang) (k : BitVec 4) (rule : MemRule) (ix : Int) : State :=
  s.lookUp g.core g.slot (s.ctxOf g.launch) ((s.keySet g).map (·.2)) rule (recAddr (g.bGet k.toNat) ix.toNat)

/-- The bounds mask after an access in which lanes raise: a lane that the bounds check itself stopped (STRICT_BOUNDS, 1) writes no bit (R132, R208). -/
def Gang.boundsRaised (g : Gang) (bm : BitVec 4) (l : List Nat) (place : Nat → Option (Nat × Nat)) (code : Nat → Nat) : Gang :=
  g.mBits bm.toNat ((l.filter (fun j => code j ≠ 1)).map (fun j => (j, code j == 0 && (place j).isNone)))

/-- Whether the page that a lane reaches has ORD = 1. -/
def Reach.ord : Reach → Bool
  | .at_ _ _ o => o
  | _ => false

/-- The ORD bits that the lanes of an access meet. -/
def ordsOf (s : State) (g : Gang) (k : BitVec 4) (h : VH) (m : MH) (b : VSrc) (rule : MemRule) (j : Nat) : Bool :=
  (s.reachLane g (g.bGet k.toNat) m rule j (s.vsrc g h.lit .b32 b j)).ord

/-- The ORD bit that a gang-level access at the index `ix` meets. -/
def State.lineOrd (s : State) (g : Gang) (k : BitVec 4) (rule : MemRule) (ix : Int) : Bool :=
  (s.reachLine g rule (recAddr (g.bGet k.toNat) ix.toNat)).ord

/-- An effect of a lane, with its key and the ORD bit of its page (R83, R246, R301), and with what it has read of such a page (log 106). -/
def Gang.effect (g : Gang) (lane size : Nat) (kind : EffKind) (ord : Bool := false) (seen : List PByte := []) : Eff :=
  { size := size, pc := g.pc, wid := g.widOf lane, keys := g.laneKey lane, evIx := g.evIx lane, kind := kind, ord := ord, seen := if ord then seen else [] }

/-- An effect of a gang-level access, with the key set that it is checked with, the first of them its principal (R117, R246, R379). -/
def State.lineEffect (s : State) (g : Gang) (size : Nat) (kind : EffKind) (ord : Bool) : Eff :=
  { size := size, pc := g.pc, wid := g.widOf g.ownLane, keys := s.farKeys g, evIx := g.evIx g.ownLane, kind := kind, ord := ord }

/-- The state `t` holds the effects `l` of the crew `w` of a gang besides those it had, and no byte of memory has changed since `s` (R82). -/
def State.Enters (s t : State) (g : Gang) (w : Crew) (l : List Eff) : Prop :=
  t.mem = s.mem ∧ t.memPois = s.memPois ∧ t.vers = s.vers ∧ ∃ w', t.crew? g.crew = some w' ∧ w'.effects = w.effects ++ l

/-- The bytes at an address as a crew sees them over memory and the given effects (R82). -/
def State.bytesWith (s : State) (l : List Eff) (pa n : Nat) : List PByte := (viewBytes Loc.here? s.phys l).read pa n

/-- The version of a line as a gang sees it (R229). -/
def State.verSeen (s : State) (g : Gang) (pa : Nat) : BitVec 16 :=
  if s.buffered g then viewVer Loc.here? (s.verOf pa) (s.effectsOf g) pa else s.verOf pa

/-- The bytes that a gang reads at a physical address: memory, or its crew's view of it in PHASED and SPAN modes (R82). -/
def State.bytesSeen (s : State) (g : Gang) (pa n : Nat) : List PByte :=
  if s.buffered g then (viewBytes Loc.here? s.phys (s.effectsOf g)).read pa n else s.memRead pa n

/-- A write of a gang to memory itself (R81), as the handler slot with HPRIV or not (R341). -/
def State.bytesPut (s : State) (g : Gang) (pa : Nat) (l : List PByte) : State := s.memWrite pa l (g.isHandler && s.hpriv g)

/-- As `LaneAccess`, for a gang-level access at one address with the gang's key set (R117, R229). -/
structure LineAccess (i : Instr) (s : State) (g : Gang) (k : BitVec 4) (rule : MemRule) (cls : OpCls) (element : Bool) (ix : Int) (pa va : Nat) : Prop where
  issues : Issues i s g
  room : g.counter cls < 63
  fits : (if element then recBadType (g.bGet k.toNat) rule.size else recBadCell (g.bGet k.toNat)) = false
  writable : rule.write = true → recRo (g.bGet k.toNat) = false
  inside : 0 ≤ ix ∧ ix < recExtent (g.bGet k.toNat)
  reaches : ∃ ord, s.reachLine g rule (recAddr (g.bGet k.toNat) ix.toNat) =
    .at_ (.here pa) va ord ∧ (ord = true → s.farOrdOf g = false)
  ready : s.memReady pa = true

/-- Nothing stands against a scratch access of the crew `c`, whose launch has `bytes` of scratch: each live active lane is out of bounds or has an aligned
offset (R219, R226). -/
structure ScratchAccess (i : Instr) (s : State) (g : Gang) (h : VH) (m : MH) (t : Fmt) (b : VSrc) (cls : OpCls) (data : List Nat) (bytes : Nat)
    (place : Nat → Option (Nat × Nat)) : Prop where
  issues : Issues i s g
  room : g.counter cls < 63
  clean : g.CleanIn (g.acting i) (srcRegs .b32 b)
  dataClean : ∀ j ∈ bitsOn (g.acting i), place j ≠ none → ∀ r ∈ data, g.vBad r j = false
  out : ∀ j ∈ bitsOn (g.acting i), place j = none → scratchReach t.bytes bytes m (s.vsrc g h.lit .b32 b j) = .oob
  reaches : ∀ j ∈ bitsOn (g.acting i), ∀ o va, place j = some (o, va) →
    scratchReach t.bytes bytes m (s.vsrc g h.lit .b32 b j) = .at_ (.here o) va false

/-- As `ScratchAccess`, when the lanes that `mis` marks have an offset that is not aligned (MISALIGNED, 2). -/
structure ScratchRaises (i : Instr) (s : State) (g : Gang) (h : VH) (m : MH) (t : Fmt) (b : VSrc) (cls : OpCls) (data : List Nat) (bytes : Nat)
    (place : Nat → Option (Nat × Nat)) (mis : Nat → Bool) : Prop where
  issues : Issues i s g
  room : g.counter cls < 63
  clean : g.CleanIn (g.acting i) (srcRegs .b32 b)
  dataClean : ∀ j ∈ bitsOn (g.acting i), mis j = false → place j ≠ none → ∀ r ∈ data, g.vBad r j = false
  raises : ∀ j ∈ bitsOn (g.acting i), mis j = true → scratchReach t.bytes bytes m (s.vsrc g h.lit .b32 b j) = .trap 2
  out : ∀ j ∈ bitsOn (g.acting i), mis j = false → place j = none → scratchReach t.bytes bytes m (s.vsrc g h.lit .b32 b j) = .oob
  reaches : ∀ j ∈ bitsOn (g.acting i), mis j = false → ∀ o va, place j = some (o, va) →
    scratchReach t.bytes bytes m (s.vsrc g h.lit .b32 b j) = .at_ (.here o) va false
  raised : ∃ j ∈ bitsOn (g.acting i), mis j = true

/- Posts (R254 to R260) -/

/-- What each post asks for: its destination, latch, status and record checks, its rows or its program. -/
def postOf (s : State) (g : Gang) : Instr → Option Post
  | .cpost h d a b ofs => some { d := d, latch := s.sc g h.lit b, program := some (g.pc + ofs.signExtend 57, s.sc g h.lit a) }
  | .cgath h d k a c sl ss n =>
    some { d := d, latch := s.sc g h.lit sl, status := s.sc g h.lit ss, typeBad := recBadCell (g.bGet k.toNat), idx := [a.toNat]
           rows := postRows (g.bGet k.toNat) false (s.sc g h.lit c).toNat (4 * (n.toNat + 1)) (fun g i => g.vGet a.toNat i) }
  | .cscat h d k a c sl ss n =>
    some { d := d, latch := s.sc g h.lit sl, status := s.sc g h.lit ss, typeBad := recBadCell (g.bGet k.toNat), idx := [a.toNat]
           roBad := recRo (g.bGet k.toNat), writes := true
           rows := postRows (g.bGet k.toNat) true (s.sc g h.lit c).toNat (4 * (n.toNat + 1)) (fun g i => g.vGet a.toNat i) }
  | .ccopy h d k b c sl ss n =>
    some { d := d, latch := s.sc g h.lit sl, status := s.sc g h.lit ss, typeBad := recBadCell (g.bGet k.toNat)
           rows := postRows (g.bGet k.toNat) false (s.sc g h.lit c).toNat (4 * (n.toNat + 1)) (fun _ i => (s.sc g h.lit b).toNat + i) }
  | .ccopyOut h d k b c sl ss n =>
    some { d := d, latch := s.sc g h.lit sl, status := s.sc g h.lit ss, typeBad := recBadCell (g.bGet k.toNat)
           roBad := recRo (g.bGet k.toNat), writes := true
           rows := postRows (g.bGet k.toNat) true (s.sc g h.lit c).toNat (4 * (n.toNat + 1)) (fun _ i => (s.sc g h.lit b).toNat + i) }
  | .ccopyTr h d k b c sl =>
    some { d := d, latch := s.sc g h.lit sl, typeBad := recBadCell (g.bGet k.toNat)
           rows := fun s' g' act _ => [imageRow (g.bGet k.toNat) (s.sc g h.lit b).toNat (s.sc g h.lit c).toNat s' g' act] }
  | .cchain h l3 d k a c sl ss n =>
    let r := g.bGet k.toNat
    let ix := chainRecs l3 k.toNat g
    some { d := d, latch := s.sc g h.lit sl, status := s.sc g h.lit ss
           typeBad := recBadCell r || ix.any (fun r => recElem r != 2 && recElem r != 3), idx := [a.toNat]
           rows := fun s' g' act st => (bitsOn (g'.live act)).map (fun i =>
             { postRow s' g' r false (s.sc g h.lit c).toNat (4 * (n.toNat + 1)) st i 0 with
               src := .chain (ix ++ [r]) 1 (g'.vGet a.toNat i), fail := none }) }
  | _ => none

/-- The state after a gang has begun to wait for phase `p` of a latch of its crew to end: its bit joins the latch's waiter entry, or takes up a free entry, or
the gang polls while all entries are in use (R282). -/
def State.waitsLatch (s : State) (g : Gang) (ofs p : Nat) : State :=
  let k := s.core g.core
  let here (w : Waiter) : Bool := w.crew == g.crew && w.ofs == ofs
  let bit : BitVec 32 := oneBit 32 g.slot
  if k.waiters.any here then
    (s.putCore g.core { k with waiters := k.waiters.map (fun w => if here w then { w with slots := w.slots ||| bit } else w) }).waits g (.latch ofs)
  else if k.waiters.length < Config.waiters then
    (s.putCore g.core { k with waiters := k.waiters ++ [{ crew := g.crew, ofs := ofs, slots := bit }] }).waits g (.latch ofs)
  else (s.countAt g.place .latchWaitersFull).waits { g with parkedAt := s.cyc g.core } (.latchPoll ofs p)

/- Copy-class rows that only compute (R266) -/

/-- The sources, the destination and the value of a copy-class register row. -/
def copyRow (c : CopyCtx) : Instr → Option (List KSc × BitVec 4 × DWord)
  | .kmov h d a => some ([a], d, c.src h.lit a)
  | .kadd h d a b => some ([a, b], d, c.src h.lit a + c.src h.lit b)
  | .ksub h d a b => some ([a, b], d, c.src h.lit a - c.src h.lit b)
  | .kmul h d a b => some ([a, b], d, c.src h.lit a * c.src h.lit b)
  | .kand h d a b => some ([a, b], d, c.src h.lit a &&& c.src h.lit b)
  | .kshl h d a b => some ([a, b], d, BitVec.ofNat 64 ((c.src h.lit a).toNat * 2 ^ (c.src h.lit b).toNat))
  | .kshr h t d a b =>
    some ([a, b], d, if t = .i64 then BitVec.ofInt 64 ((c.src h.lit a).toInt / 2 ^ (c.src h.lit b).toNat)
      else BitVec.ofNat 64 ((c.src h.lit a).toNat / 2 ^ (c.src h.lit b).toNat))
  | .kcmp h t q d a b => some ([a, b], d, if kCond t q (c.src h.lit a) (c.src h.lit b) then 1 else 0)
  | _ => none

/-- A transfer row (R269): its sources, the generators it needs and moves on, and the row it issues, given a generator's state. -/
structure XferRow where
  srcs : List KSc
  src : RowEnd
  dst : RowEnd
  len : Nat
  fail : Option Nat
  versioned : Option (BitVec 4 × BitVec 16) := none
  steps : List Gen

def xferRow (s : State) (c : CopyCtx) : Instr → Option XferRow
  | .xcopy h gd gs n =>
    match c.gen? gs, c.gen? gd with
    | some x, some y => some { srcs := [n], src := x.here, dst := y.here, len := (c.src h.lit n).toNat, fail := none, steps := [gs, gd] }
    | _, _ => none
  | .xgath h gd gs i n =>
    match c.gen? gs, c.gen? gd with
    | some x, some y =>
      let k := (c.src h.lit i).toNat
      some { srcs := [i, n], src := x.row k, dst := y.here, len := (c.src h.lit n).toNat
             fail := if k < x.ext.headD 0 then none else some 1, steps := [gd] }
    | _, _ => none
  | .xscat h gd gs i n =>
    match c.gen? gs, c.gen? gd with
    | some x, some y =>
      let k := (c.src h.lit i).toNat
      some { srcs := [i, n], src := x.here, dst := y.row k, len := (c.src h.lit n).toNat
             fail := if k < y.ext.headD 0 then none else some 1, steps := [gs] }
    | _, _ => none
  | .xtran h a gs =>
    match c.gen? gs with
    | some x =>
      if (c.src h.lit a).toNat < s.tlease c.launch then
        some { srcs := [a], src := x.here, dst := .slot (c.src h.lit a).toNat, len := 8228, fail := none, steps := [gs] }
      else none
    | none => none
  | .xfill h gd v n =>
    match c.gen? gd with
    | some y => some { srcs := [v, n], src := .fill (c.src h.lit v), dst := y.here, len := (c.src h.lit n).toNat, fail := none, steps := [gd] }
    | none => none
  | .xcopyv h d gs x gd =>
    match c.gen? gs, c.gen? gd with
    | some a, some b =>
      some { srcs := [x], src := a.here, dst := b.here, len := 128, fail := none, versioned := some (d, (c.src h.lit x).setWidth 16)
             steps := [gs, gd] }
    | _, _ => none
  | _ => none

/-- The length of a transfer is legal: a multiple of 4 from 4 to 16384 bytes (R269). -/
def XferRow.lenOk (r : XferRow) : Prop := r.len % 4 = 0 ∧ 4 ≤ r.len ∧ r.len ≤ 16384

/-- The row as it stands in the context. -/
def XferRow.row (r : XferRow) (c : CopyCtx) : Row :=
  { src := r.src, dst := r.dst, len := r.len, sectors := rowSectors r.dst r.len, lane := none, status := none, key := c.key, wid := c.wid
    pcofs := c.pc.setWidth 32, fail := r.fail, versioned := r.versioned }

/-- What a row leaves when its lanes have their results: its dependants wait for a result of no fixed latency. -/
def State.withLate (s : State) (g : Gang) (refs : List Ref) : State × Gang := if refs = [] then (s, g) else s.late g refs

/-- The gang with the results of a lane row in the lanes of a mask. -/
def LaneRow.write (r : LaneRow) (m : LaneMask) (g : Gang) : Gang := (bitsOn m).foldl (fun h i => r.put h i (r.res i).1) g

/-- No lane of the mask raises a lane trap. -/
def LaneRow.quiet (r : LaneRow) (m : LaneMask) : Prop := ∀ i ∈ bitsOn m, (r.res i).2 = 0

/- Queues -/

/-- The virtual address of the slot of a queue's next packet (R320). -/
def State.slotAddr (s : State) (q : Nat) : Nat := (s.qBase q + 128 * (s.qRidx q % s.qLen q)) % 2 ^ 57

/-- Packet `x` and its argument words `args` are the next of queue `q`, and nothing holds its take-up back: the module serves queues, the queue is in
service, not just put into it, and holds it, the spans are mapped and their memory is ready, every packet of a lower phase is complete, and what it waits for
is done (R325, R326, R402). Only a LAUNCH packet has argument words, and only a SPAN launch a descriptor and seeds. -/
structure TakesUp (s : State) (q : BitVec 6) (x args : Nat) : Prop where
  whole : s.fatal = none
  mbox : s.readyBits.getLsbD 0 = true
  image : s.image = true
  table : s.memReady (s.qaddr q.toNat) = true
  old : s.qFresh.getLsbD q.toNat = false
  enabled : s.qEn q.toNat = true
  behind : s.qRidx q.toNat < s.qWidx q.toNat
  packet : s.engineRead (s.enginePieces q.toNat (s.slotAddr q.toNat) 128) = some x
  words : pktKind x = 0 → s.engineRead (s.enginePieces q.toNat (bitField (pktField x 0x60 8) 56 0) 64) = some args
  none_ : pktKind x ≠ 0 → args = 0
  slotMapped : s.hostWaits (q.toNat / 4) (s.slotAddr q.toNat) 128 = false
  argsMapped : pktKind x = 0 → s.hostWaits (q.toNat / 4) (bitField (pktField x 0x60 8) 56 0) 64 = false
  ready : ∀ l m, s.enginePieces q.toNat (s.slotAddr q.toNat) 128 = some l →
    (if pktKind x = 0 then s.enginePieces q.toNat (bitField (pktField x 0x60 8) 56 0) 64 = some m else m = []) →
    s.anyNotReady (l ++ m ++ (if pktKind x = 0 ∧ bitField (pktField x 1 1) 1 0 = 2 then s.spanMemory (pktField x 0x68 8) else []) ++ [(s.qStat q.toNat, 8)]) =
      false
  phase : s.phaseOpen q.toNat (s.qRidx q.toNat) (pktPhase x) = true
  waits : waitOn x = true → selfWait x q.toNat (s.qRidx q.toNat) = false → waitSeq x < s.qDone (waitQueue x)

/- Spans of global memory -/

/-- The pieces of a span of global memory stand in this module's memory, which is ready, and are granted to the key: `at_` is the physical address of each
(R204, R213, R237, R402). -/
def State.Spans (s : State) (core ctx : Nat) (key : Word) (ps : List (Nat × Nat)) (at_ : Nat → Nat) : Prop :=
  ∀ p ∈ ps, ∃ l, s.translate core ctx p.1 = .leaf l ∧ l.loc p.1 = .here (at_ p.1) ∧ s.memReady (at_ p.1) = true ∧
    s.granted core ctx key l.door = true ∧ s.grantWaits core ctx key l.door = false

end Sys2Proof.Machine
end

