-- ==== Sys2Proof/Certificates/Slice0/Obligations.lean ====
section
/-! DEFINITION. The statements for the provers. Each docstring names the rules of spec/ it formalises, or says that it rests on the model's choice. -/
open Sys2Proof Sys2Proof.Machine

/-- R113 to R115: every scalar row of fixed latency completes, and its destination takes the value that the tables give for its operands.
R116: SDIV completes for every dividend and divisor, and its destination, which dependants wait for, takes the quotient or the remainder. -/
def Obligations.ScalarRowsComplete : Prop :=
  (∀ (i : Instr) (s : State) (g : Gang) (d : BitVec 6) (x : DWord), Issues i s g → scalarRow s g i = some (d, x) →
      exec i s = .next (s.completes i g s (g.sSet d.toNat x))) ∧
  (∀ (h : SH) (rem : Bool) (t : Fmt) (d : BitVec 6) (a b : Sc) (s : State) (g : Gang), Issues (.sdiv h rem t d a b) s g →
      let u := t.or .i64
      let r := s.late (g.sSet d.toNat (wrS u (divRow u rem (rd u (s.sc g h.lit a).toNat) (rd u (s.sc g h.lit b).toNat)))) (Shape.sRef d.toNat)
      exec (.sdiv h rem t d a b) s = .next (s.completes (.sdiv h rem t d a b) g r.1 r.2))

/-- R129 to R135: every vector integer row with a vector destination completes, and its live active lanes take the table's results. -/
def Obligations.VectorIntegerRowsComplete : Prop :=
  ∀ (i : Instr) (s : State) (g : Gang) (r : LaneRow), Issues i s g → intRow s g i = some r → g.CleanIn (g.acting i) r.regs →
    exec i s = .next (s.completes i g s (r.write (g.acting i) g))

/-- R136 to R140: every vector floating-point row with a vector destination completes when no live active lane raises a lane trap. That
FSGN may write an F8 NaN other than the canonical one (log 98), that an FPACK to F8 keeps the poison of the word of which it writes half (log 116), and the signs of
zero and infinite products and quotients (log 101), are the model's choice. -/
def Obligations.VectorFloatRowsComplete : Prop :=
  ∀ (i : Instr) (s : State) (g : Gang) (r : LaneRow), Issues i s g → fpRow s g i = some r → g.CleanIn (g.acting i) r.regs →
    r.quiet (g.acting i) →
    let y := s.withLate (r.write (g.acting i) g) r.late
    exec i s = .next (s.completes i g y.1 y.2)

/-- R132, R338, R339: where lanes of a floating-point row, of FCMP, VRND, RREV or MARD raise traps (FP_INVALID and the other floating-point codes, RNG_RANGE,
RESIDUE_OVERFLOW under OVT), the others take their results, and the gang stops with LANE_TRAP, its lanes' codes, the lowest raising lane's code as DETAIL and
the raising lanes as its replay mask. That RESIDUE_OVERFLOWS counts under OVT too is the model's choice (log 81).
R109, R131, R352, R353: live active lanes of a vector integer or floating-point row that consume poison are killed before anything is written, and the others take
their results, in a FREE launch and in a crew that is run again; else the crew is aborted. Under SHADOW the gang is held for the comparison (R357), and in the
handler slot the run ends (R345). -/
def Obligations.LaneTrapsStop : Prop :=
  (∀ (i : Instr) (s : State) (g : Gang) (r : LaneRow), Issues i s g → (intRow s g i = some r ∨ fpRow s g i = some r) →
    let bad := g.badLanes (g.acting i) r.regs
    (∀ k, bad.getLsbD k = true ↔ k ∈ bitsOn (g.acting i) ∧ ∃ n ∈ r.regs, g.vBad n k = true) ∧
    (bad ≠ 0 →
      (g.isHandler = true → exec i s = .next (s.endRun g.core true)) ∧
      (g.isHandler = false → s.shadowed g.launch = true → exec i s = .next (s.waits { g with mismatch := true } .shadow)) ∧
      (g.isHandler = false → s.shadowed g.launch = false → s.errsAsFree g = false → exec i s = .next (s.errorAbort g.crew)) ∧
      (g.isHandler = false → s.shadowed g.launch = false → s.errsAsFree g = true →
        let y := s.killLanes g bad 35 (fun _ => 0) g.pc
        let m := y.2.live (g.active (shape i))
        y.2 = { g with dead := g.dead ||| bad } ∧
        ∀ r', (intRow y.1 y.2 i = some r' ∨ fpRow y.1 y.2 i = some r') → r'.quiet m →
          let w := y.1.withLate (r'.write m y.2) r'.late
          exec i s = .next (s.completes i g w.1 w.2)))) ∧
  (∀ (i : Instr) (s : State) (g : Gang) (r : LaneRow), Issues i s g → fpRow s g i = some r → g.CleanIn (g.acting i) r.regs →
    ¬ r.quiet (g.acting i) →
    let good := maskOf 64 ((bitsOn (g.acting i)).filter (fun k => (r.res k).2 = 0))
    exec i s = .next (s.laneStops s i g (r.write good g)
      (((bitsOn (g.acting i)).filter (fun k => (r.res k).2 ≠ 0)).map (fun k => (k, (r.res k).2))))) ∧
  (∀ (i : Instr) (s : State) (g : Gang) (r : BitRow), Issues i s g → bitRow s g i = some r → g.CleanIn (g.acting i) r.regs →
    (∃ k ∈ bitsOn (g.acting i), (r.res k).2 ≠ 0) →
    exec i s = .next (s.laneStops s i g
      (g.mBits r.d.toNat (((bitsOn (g.acting i)).filter (fun k => (r.res k).2 = 0)).map (fun k => (k, (r.res k).1))))
      (((bitsOn (g.acting i)).filter (fun k => (r.res k).2 ≠ 0)).map (fun k => (k, (r.res k).2))))) ∧
  (∀ (s : State) (g : Gang) (h : VH) (t : Fmt) (d : BitVec 8) (a : VSrc) (n : Launch),
    let i := Instr.vrnd h t d a
    let u := t.or .n32
    let x (k : Nat) := s.vsrc g h.lit u a k % 2 ^ u.bits
    Issues i s g → g.isHandler = false → s.launch? g.launch = some n → g.CleanIn (g.acting i) (srcRegs u a) →
    (∃ k ∈ bitsOn (g.acting i), n.pkt.rnglen ≤ x k) →
    exec i s = .next (s.laneStops s i g
      (g.lanesTo .n32 d.toNat (maskOf 64 ((bitsOn (g.acting i)).filter (fun k => x k < n.pkt.rnglen)))
        (fun k => vrndValue n.pkt.seed.toNat n.pkt.rngbase.toNat (x k)))
      (((bitsOn (g.acting i)).filter (fun k => n.pkt.rnglen ≤ x k)).map (fun k => (k, 7))))) ∧
  (∀ (s : State) (g : Gang) (h : VH) (t f2 : Fmt) (d : BitVec 8) (a : VSrc) (c : BitVec 4),
    let i := Instr.rrev h t f2 d a c
    let u := t.or .i64
    let conv (k : Nat) := convert (s.core g.core).en (s.pair g h.lit a k)
    let good := (bitsOn (g.acting i)).filter (fun k => (conv k).isOverflow = false)
    Issues i s g → g.CleanIn (g.acting i) (srcRegs .n64 a) → 7 ≤ (bitsOn (s.core g.core).en).length → g.ovt = true →
    (∃ k ∈ bitsOn (g.acting i), (conv k).isOverflow = true) →
    exec i s = .next (s.laneStops (s.reportConv g ((bitsOn (g.acting i)).map conv)) i g
      ((good.foldl (fun v k => v.vPut u d.toNat k ((conv k).result u g.sat).1 ((conv k).result u g.sat).2) g).mBits c.toNat (good.map (fun k => (k, false))))
      (((bitsOn (g.acting i)).filter (fun k => (conv k).isOverflow = true)).map (fun k => (k, 8))))) ∧
  (∀ (s : State) (g : Gang) (h : VH) (r : Rnd) (t kind : Fmt) (d : BitVec 8) (k : BitVec 3) (b : Sc) (m : BitVec 6),
    let i := Instr.mard h r t kind d k b m
    let x := s.tile g k.toNat
    let c := (s.sc g h.lit b).toNat
    let n := m.toNat + 1
    let u := t.or .f32
    let e := x.valid &&& (s.core g.core).en
    let out (j q : Nat) := mardEntry (g.mode r) u kind e g x (x.entry j (c + q))
    let code (j : Nat) := (((List.range n).map (fun q => (out j q).code)).find? (· ≠ 0)).getD 0
    Issues i s g → g.isHandler = false → k.toNat < s.accOf g.launch → c + n ≤ tileCols x.fmt → kindMatches kind x.fmt = true →
    (kind = .i64 → 7 ≤ (bitsOn e).length) → (∃ j ∈ bitsOn (g.acting i), code j ≠ 0) →
    exec i s = .next (s.laneStops (s.reportConv g (((bitsOn (g.acting i)).map (fun j => (List.range n).filterMap (fun q => (out j q).conv))).flatten)) i g
      (((bitsOn (g.acting i)).filter (fun j => code j = 0)).foldl (fun v j => (List.range n).foldl (fun v q =>
        v.vPut u (d.toNat + Shape.regsOf u * q) j (out j q).bits (out j q).bad) v) g)
      (((bitsOn (g.acting i)).filter (fun j => code j ≠ 0)).map (fun j => (j, code j)))))

/-- R54, R134, R137, R203: VCMP, FCMP and RCHK write the bit of each live active lane and no other when no lane raises; RCHK needs seven channels. -/
def Obligations.LaneBitRowsComplete : Prop :=
  ∀ (i : Instr) (s : State) (g : Gang) (r : BitRow), Issues i s g → bitRow s g i = some r → g.CleanIn (g.acting i) r.regs →
    (∀ k ∈ bitsOn (g.acting i), (r.res k).2 = 0) →
    (match i with | .rchk _ _ _ => 7 ≤ (bitsOn (s.core g.core).en).length | _ => True) →
    exec i s = .next (s.completes i g s (g.mBits r.d.toNat ((bitsOn (g.acting i)).map (fun k => (k, (r.res k).1)))))

/-- R94 to R96: the branches complete: BR and BRC by their offset, CALL with its return address, LOOP by its counter, RET to an aligned address.
R96: RET to an address that is not a multiple of 4 raises BAD_TARGET (CAUSE 7), with the PC at the RET. -/
def Obligations.BranchesComplete : Prop :=
  (∀ (s : State) (g : Gang) (st : BitVec 3) (h : SH) (a : Sc) (d : BitVec 6) (v : DWord) (ofs : Word),
      (Issues (.br st ofs) s g → exec (.br st ofs) s = .next (s.jumps (.br st ofs) g s g (g.pc + ofs.signExtend 57))) ∧
      (Issues (.brc h a ofs) s g →
        exec (.brc h a ofs) s = .next (s.jumps (.brc h a ofs) g s g
          (if s.sc g h.lit a ≠ 0 then g.pc + ofs.signExtend 57 else g.next (shape (.brc h a ofs))))) ∧
      (Issues (.call st d ofs) s g →
        exec (.call st d ofs) s = .next (s.jumps (.call st d ofs) g s (g.sSet d.toNat ((g.pc + 12).setWidth 64))
          (g.pc + ofs.signExtend 57))) ∧
      (Issues (.loop st d ofs) s g →
        let x := g.sGet d.toNat - 1
        exec (.loop st d ofs) s = .next (s.jumps (.loop st d ofs) g s (g.sSet d.toNat x)
          (if x ≠ 0 then g.pc + ofs.signExtend 57 else g.pc + 12))) ∧
      (Issues (.ret st a) s g → (s.sc g none a).toNat % 4 = 0 →
        exec (.ret st a) s = .next (s.jumps (.ret st a) g s g ((s.sc g none a).setWidth 57))) ∧
      (Issues (.retLit st v) s g → v.toNat % 4 = 0 →
        exec (.retLit st v) s = .next (s.jumps (.retLit st v) g s g (v.setWidth 57)))) ∧
  (∀ (s : State) (g : Gang) (st : BitVec 3) (a : Sc) (v : DWord),
      (Issues (.ret st a) s g → (s.sc g none a).toNat % 4 ≠ 0 → exec (.ret st a) s = .next (s.traps (.ret st a) g 7)) ∧
      (Issues (.retLit st v) s g → v.toNat % 4 ≠ 0 → exec (.retLit st v) s = .next (s.traps (.retLit st v) g 7)))

/-- R98: VIF pushes a level while the depth is below 16; VELSE flips the innermost level, VEND pops it.
R98: a seventeenth level raises MASK_OVERFLOW (CAUSE 5), VELSE and VEND at depth 0 MASK_UNDERFLOW (CAUSE 6), with the stack as it was.
R93, R98: the mask in force after VIF, after a first and a second VELSE, and after VEND. -/
def Obligations.MaskRegionRows : Prop :=
  (∀ (s : State) (g : Gang) (st : BitVec 3) (m : BitVec 4) (l : Level) (r : List Level),
      (Issues (.vif st m) s g → g.stack.length < 16 →
        exec (.vif st m) s = .next (s.completes (.vif st m) g s
          { g with stack := { parent := g.top, cond := g.mGet m.toNat, els := false } :: g.stack })) ∧
      (Issues (.velse st) s g → g.stack = l :: r →
        exec (.velse st) s = .next (s.completes (.velse st) g s { g with stack := { l with els := !l.els } :: r })) ∧
      (Issues (.vend st) s g → g.stack = l :: r → exec (.vend st) s = .next (s.completes (.vend st) g s { g with stack := r }))) ∧
  (∀ (s : State) (g : Gang) (st : BitVec 3) (m : BitVec 4),
      (Issues (.vif st m) s g → 16 ≤ g.stack.length → exec (.vif st m) s = .next (s.traps (.vif st m) g 5)) ∧
      (Issues (.velse st) s g → g.stack = [] → exec (.velse st) s = .next (s.traps (.velse st) g 6)) ∧
      (Issues (.vend st) s g → g.stack = [] → exec (.vend st) s = .next (s.traps (.vend st) g 6))) ∧
  (∀ (g : Gang) (l : Level) (r : List Level) (c : LaneMask),
      ({ g with stack := { parent := g.top, cond := c, els := false } :: g.stack } : Gang).top = g.top &&& c ∧
      ({ g with stack := { l with els := !l.els } :: r } : Gang).top = l.parent &&& (if l.els then l.cond else ~~~ l.cond) ∧
      (∀ h : Gang, h.stack = [] → h.top = h.base))

/-- R350: with a live active lane TRAP completes and stops with CAUSE 0, its code as INFO, the live active lanes as replay mask and the next
instruction's address as PC; with none, nothing happens. OPC 0x7F stops with ILLEGAL and DETAIL 1 whatever else would stand against it (R63, R338, R340).
R100, R92, R344: EXIT ends a gang, and in the handler slot the run. -/
def Obligations.TrapAndExitRows : Prop :=
  (∀ (s : State) (g : Gang) (st : BitVec 3) (m : BitVec 4) (a : Sc) (v : DWord) (x y : BitVec 8) (n : BitVec 2),
      (Issues (.trap st m a) s g → g.acting (.trap st m a) ≠ 0 →
        let i := Instr.trap st m a
        exec i s = .next (s.takeStop ((g.follow (shape i) (g.acting i) true).transfer (shape i) (s.cyc g.core) (g.next (shape i))) 0 0 (s.sc g none a) (g.acting i) []
          (g.next (shape i)) (g.next (shape i)))) ∧
      (Issues (.trapLit st m v) s g → g.acting (.trapLit st m v) ≠ 0 →
        let i := Instr.trapLit st m v
        exec i s = .next (s.takeStop ((g.follow (shape i) (g.acting i) true).transfer (shape i) (s.cyc g.core) (g.next (shape i))) 0 0 v (g.acting i) []
          (g.next (shape i)) (g.next (shape i)))) ∧
      (Issues (.trap st m a) s g → g.acting (.trap st m a) = 0 →
        exec (.trap st m a) s = .next (s.jumps (.trap st m a) g s g (g.pc + 4))) ∧
      (Issues (.trapLit st m v) s g → g.acting (.trapLit st m v) = 0 →
        exec (.trapLit st m v) s = .next (s.jumps (.trapLit st m v) g s g (g.pc + 12))) ∧
      (Steps s g →
        let i := Instr.undef x y m st n
        exec i s = .next (s.takeStop g 1 1 (wordsInfo i) (g.active (shape i)) [] g.pc (g.next (shape i))))) ∧
  (∀ (s : State) (g : Gang) (st : BitVec 3), Issues (.exit st) s g →
      exec (.exit st) s = .next (if g.isHandler then s.endRun g.core false else s.exitGang g))

/-- R101, R122 to R124: SLEEP makes the gang not ready for the least of its operand and 2^32 − 1 cycles; RSHR discards registers; RGROW does nothing for a
count it has, and grows at once when the request fits and nothing older waits.
R123: a register count out of range raises REG_REQUEST (CAUSE 8), one that the pane can never hold REG_LIMIT (CAUSE 9), for which a shadow's blocks are not
counted, the model's reading (log 115); otherwise RGROW waits. -/
def Obligations.RegisterCountRows : Prop :=
  (∀ (s : State) (g : Gang) (h : SH) (d : BitVec 6) (a : Sc),
      (Issues (.sleep h a) s g →
        exec (.sleep h a) s = .next (s.completes (.sleep h a) g s
          { g with stat := .sleeping (s.cyc g.core + min (s.sc g h.lit a).toNat (2 ^ 32 - 1)) })) ∧
      (Issues (.rshr h d a) s g → g.isHandler = false →
        let t := (s.sc g h.lit a).toNat
        8 ≤ t → t ≤ 256 → t % 8 = 0 →
        exec (.rshr h d a) s = .next (s.completes (.rshr h d a) g s ((g.shrink t).sSet d.toNat (BitVec.ofNat 64 (min t g.n))))) ∧
      (Issues (.rgrow h d a) s g → g.isHandler = false →
        let t := (s.sc g h.lit a).toNat
        8 ≤ t → t ≤ 256 → t % 8 = 0 → (t ≤ g.n ∨ (1 + t / 8 ≤ s.paneBlocks g.core ∧ s.canGrow g t = true)) →
        exec (.rgrow h d a) s = .next (s.completes (.rgrow h d a) g s
          (({ g with n := max t g.n } : Gang).sSet d.toNat (BitVec.ofNat 64 (max t g.n)))))) ∧
  (∀ (s : State) (g : Gang) (h : SH) (d : BitVec 6) (a : Sc),
      (Issues (.rgrow h d a) s g → g.isHandler = false →
        let i := Instr.rgrow h d a
        let t := (s.sc g h.lit a).toNat
        (t < 8 ∨ 256 < t ∨ t % 8 ≠ 0 → exec i s = .next (s.traps i g 8)) ∧
        (8 ≤ t → t ≤ 256 → t % 8 = 0 → g.n < t → s.paneBlocks g.core < 1 + t / 8 → exec i s = .next (s.traps i g 9)) ∧
        (8 ≤ t → t ≤ 256 → t % 8 = 0 → g.n < t → 1 + t / 8 ≤ s.paneBlocks g.core → s.canGrow g t = false →
          exec i s = .next ((s.countAt g.place .rgrowWaits).waits g (.grow t)))) ∧
      (Issues (.rshr h d a) s g → g.isHandler = false →
        let i := Instr.rshr h d a
        let t := (s.sc g h.lit a).toNat
        t < 8 ∨ 256 < t ∨ t % 8 ≠ 0 → exec i s = .next (s.traps i g 8)))

/-- R120, R121, R242: GETSR reads a register once every older result is written and every older far access is answered, and `$deny` once the rows of every older
built-in post have their outcomes too; until then it waits. SETSR writes `$rmode`, `$deny`, `$key` with
KEYSET or HPRIV, and `$chan` in the
handler slot with HPRIV.
R121, R195: SETSR `$chan` by a gang, or by the handler slot without HPRIV, raises PRIVILEGED (CAUSE 11); SETSR `$key` without KEYSET, or in the handler
slot without HPRIV, KEY_DENIED (CAUSE 10); a rounding code of 5 to 7 for `$rmode` ILLEGAL (CAUSE 1). Every register stays as it was. -/
def Obligations.SpecialRegisterRows : Prop :=
  (∀ (s : State) (g : Gang) (st : BitVec 3) (h : VH) (d : BitVec 6) (r : SpReg) (x : Sc) (a : VSrc),
      (Issues (.getsr st d r) s g → g.busy ≠ [] → exec (.getsr st d r) s = .next (s.waits g .scoreboard)) ∧
      (Issues (.getsr st d r) s g → g.busy = [] → (∃ p ∈ g.pend, s.cyc g.core < p.readyAt) → exec (.getsr st d r) s = .next s) ∧
      (Issues (.getsr st d r) s g → g.busy = [] → (∀ p ∈ g.pend, p.readyAt ≤ s.cyc g.core) →
        (s.farOf g.core g.slot = true → exec (.getsr st d r) s = .next (s.waits g .far)) ∧
        (s.farOf g.core g.slot = false → r = .deny → s.postRowsOf g = true → exec (.getsr st d r) s = .next (s.waits g .rows)) ∧
        (s.farOf g.core g.slot = false → (r = .deny → s.postRowsOf g = false) →
          exec (.getsr st d r) s = .next (s.completes (.getsr st d r) g s (g.sSet d.toNat (s.spGet g r))))) ∧
      (let i := Instr.setsr h .rmode (.s x)
       Issues i s g → (s.sc g h.lit x).toNat % 8 < 5 →
        exec i s = .next (s.completes i g s ({ g with rmode := BitVec.ofNat 32 ((s.sc g h.lit x).toNat % 512) }.spClean .rmode))) ∧
      (let i := Instr.setsr h .deny (.s x)
       Issues i s g → exec i s = .next (s.completes i g s ({ g with deny := g.deny &&& ~~~ s.sc g h.lit x }.spClean .deny))) ∧
      (let i := Instr.setsr h .key a
       Issues i s g → (if g.isHandler then s.hpriv g else ((s.launch? g.launch).map (·.pkt.keyset)).getD false) = true →
        g.CleanIn (g.acting i) (srcRegs .b32 a) →
        let v : Gang := { g with key := (bitsOn (g.acting i)).foldl (fun k j => Store.set k j (BitVec.ofNat 32 (s.vsrc g h.lit .b32 a j))) g.key }
        exec i s = .next (s.completes i g s (if g.acting i = BitVec.allOnes 64 then v.spClean .key else v))) ∧
      (let i := Instr.setsr h .chan (.s x)
       Issues i s g → g.isHandler = true → s.hpriv g = true →
        exec i s = .next (s.completes i g (s.modCore g.core (fun k => k.setChan (s.sc g h.lit x))) g))) ∧
  (∀ (s : State) (g : Gang) (h : VH) (x : Sc) (a : VSrc),
      (Issues (.setsr h .chan (.s x)) s g → (g.isHandler && s.hpriv g) = false →
        exec (.setsr h .chan (.s x)) s = .next (s.traps (.setsr h .chan (.s x)) g 11)) ∧
      (Issues (.setsr h .key a) s g → (if g.isHandler then s.hpriv g else ((s.launch? g.launch).map (·.pkt.keyset)).getD false) = false →
        exec (.setsr h .key a) s = .next (s.traps (.setsr h .key a) g 10)) ∧
      (let i := Instr.setsr h .rmode (.s x)
       Issues i s g → 5 ≤ (s.sc g h.lit x).toNat % 8 → exec i s = .next (s.takeStop g 1 0 (wordsInfo i) (g.active (shape i)) [] g.pc (g.next (shape i)))))

/-- R347 to R349: in the handler slot WSEL selects a stopped gang, with −1 the one whose stop is in service, WRD reads through the window, WWR writes
through it; a WWR of `$regs` that must wait waits at the stopped gang's age. A WWR of `$chan` is a result of the handler slot's own, for which its later reads wait
(R56). That a shadow's blocks are not counted against the pane (log 115), that the write reaches the shadow behind the instructions it has still to run (log 82), and
that what peers have answered for the instruction at the gang's PC is dropped (log 122), are the model's choice.
R349: WRES resolves the selected gang's stop: action 0 resumes it at its PC with the operand as replay mask, action 1 lets a PWAIT that stopped with
PROMISE_LATE wait on, action 2 ends the gang, action 3 takes the default action; the window then selects nothing. Any other action, or action 1 for
another cause, is a double fault (R345). -/
def Obligations.WindowRows : Prop :=
  (∀ (s : State) (g : Gang) (h : SH) (d : BitVec 6) (a b : Sc) (n : Nat), g.isHandler = true →
      (let i := Instr.wsel h d a
       Issues i s g → s.sc g h.lit a = BitVec.ofNat 64 n → n < 32 → (s.stoppedGang g.core n).isSome = true →
        let y := (s.select g.core (some n)).late (g.sSet d.toNat 1) (Shape.sRef d.toNat)
        exec i s = .next (s.completes i g y.1 y.2)) ∧
      (let i := Instr.wsel h d a
       Issues i s g → s.sc g h.lit a = BitVec.ofNat 64 n → n < 2 ^ 64 - 1 → (n < 32 → (s.stoppedGang g.core n).isSome = false) →
        let y := (s.select g.core none).late (g.sSet d.toNat 0) (Shape.sRef d.toNat)
        exec i s = .next (s.completes i g y.1 y.2)) ∧
      (let i := Instr.wsel h d a
       ∀ r : Run, Issues i s g → s.sc g h.lit a = BitVec.allOnes 64 → (s.core g.core).run = some r →
        let hit := r.stop.ofGang && (s.stoppedGang g.core r.stop.agent).isSome
        let y := (s.select g.core (if hit then some r.stop.agent else none)).late (g.sSet d.toNat (if hit then 1 else 0)) (Shape.sRef d.toNat)
        exec i s = .next (s.completes i g y.1 y.2)) ∧
      (let i := Instr.wrd h d a
       ∀ v bad, Issues i s g → wrdValue s g.core (s.sc g h.lit a) = some (v, bad) →
        let y := s.late (g.sSet d.toNat v bad) (Shape.sRef d.toNat)
        exec i s = .next (s.completes i g y.1 y.2)) ∧
      (let i := Instr.wwr h none a b
       ∀ t x w u v, Issues i s g → s.selected g.core = some (t, x) → winAddr (s.sc g h.lit a) = some w →
        winSet s g t x w (s.sc g h.lit b) = .set u v →
        exec i s = .next (s.completes i g (u.putGang ({ v with arrived := [] }.lend (w.took v)))
          (if w.cls = 5 ∧ w.num = SpReg.chan.num then g.chanPend (s.cyc g.core) else g))) ∧
      (∀ r, let i := Instr.wwr h (some r) a b
       ∀ t x u v, Issues i s g → s.selected g.core = some (t, x) → winSpecial s g t x r none (s.sc g h.lit b) = .set u v →
        exec i s = .next (s.completes i g (u.putGang ({ v with arrived := [] }.lend [])) g)) ∧
      (let i := Instr.wwr h (some .regs) a b
       ∀ t x, Issues i s g → s.selected g.core = some (t, x) →
        let c := (s.sc g h.lit b).toNat
        8 ≤ c → c ≤ 256 → c % 8 = 0 → t.n < c → 1 + c / 8 ≤ s.paneBlocks t.core → s.canGrow t c = false →
        exec i s = .next (s.waits { g with age := t.age } (.grow c)))) ∧
  (∀ (s : State) (g : Gang) (h : SH) (a b : Sc) (t : Gang) (x : Stop), g.isHandler = true → Issues (.wres h a b) s g →
      s.selected g.core = some (t, x) →
      let i := Instr.wres h a b
      let n := s.sc g h.lit b
      let m := s.sc g h.lit a
      let u := s.resolveStop g.core t.slot
      (n = 0 → (u.putGang (t.resume u t.pc (some (t.live m)))).gang? g.core 32 ≠ none →
        exec i s = .next (s.completes i g (u.putGang (t.resume u t.pc (some (t.live m)))) g)) ∧
      (n = 1 → x.cause = 29 → (u.putGang { t.resume u t.pc none with pwaitNt := true }).gang? g.core 32 ≠ none →
        exec i s = .next (s.completes i g (u.putGang { t.resume u t.pc none with pwaitNt := true }) g)) ∧
      (n = 2 → (u.exitGang t).gang? g.core 32 ≠ none → exec i s = .next (s.completes i g (u.exitGang t) g)) ∧
      (n = 3 → (u.defaultAction t x).gang? g.core 32 ≠ none → exec i s = .next (s.completes i g (u.defaultAction t x) g)) ∧
      (4 ≤ n.toNat ∨ (n = 1 ∧ x.cause ≠ 29) → exec i s = .next (s.endRun g.core true)))

/-- R348: a window instruction outside the handler slot raises ILLEGAL (CAUSE 1); so does RGROW, RSHR, VRND, an array row, a post, CBAR or
GBAR in the handler slot (R64, R126), where it is a double fault that ends the run (R345).
What stands against every instruction of a gang that is legal where it is, in the order of R340: a vector register beyond `$regs` raises REG_RANGE (CAUSE 2) with
the highest register number named as INFO (R49); under SCHK a dependence whose stall counts do not cover its latency raises STALL_SHORT (CAUSE 3); the instruction
waits for the fixed-latency results that it names, and for the late ones (R56); then poison in a scalar, mask or buffer source, the PC or the mask stack raises
POISON_SCALAR (CAUSE 4): the gang ends, its lanes being killed, or its crew is aborted, in the handler slot the run ends, and under SHADOW the gang is held for its
comparison, as it is where its shadow has consumed poison or gone another way (R109, R353, R357). -/
def Obligations.PlaceOfInstructions : Prop :=
  (∀ (i : Instr) (s : State) (g : Gang), Steps s g → legalAt s g i = true → g.tokenless (shape i) = false →
    let sh := shape i
    let names (r : Ref) : Prop := r ∈ sh.reads ++ sh.writes
    let undersized : Prop := g.schk = true ∧ ∃ p ∈ g.pend, names p.ref ∧ p.sum < p.lat
    let unready : Prop := ∃ p ∈ g.pend, names p.ref ∧ s.cyc g.core < p.readyAt
    let boarded : Prop := ∃ b ∈ g.busy, (∃ r ∈ b.refs, names r) ∨ (∃ r ∈ b.hold, r ∈ sh.writes)
    let spoiled : Prop := (∃ r ∈ sh.reads, g.refBad r = true) ∨ g.pcBad = true ∨ g.stackBad sh.opc.toNat = true ∨ g.shadowSpoiled = true
    let stops (cause : Nat) (info : DWord) : State := s.takeStop g cause 0 info (g.active sh) [] g.pc (g.next sh)
    (g.n < vTop sh → exec i s = .next (stops 2 (BitVec.ofNat 64 (vTop sh - 1)))) ∧
    (vTop sh ≤ g.n →
      (undersized → exec i s = .next (stops 3 (wordsInfo i))) ∧
      (¬ undersized → unready → exec i s = .next s) ∧
      (¬ undersized → ¬ unready → boarded → exec i s = .next (s.waits g .scoreboard)) ∧
      (¬ undersized → ¬ unready → ¬ boarded → spoiled →
        (g.isHandler = true → exec i s = .next (s.endRun g.core true)) ∧
        (g.isHandler = false → s.shadowed g.launch = true → exec i s = .next (s.waits { g with mismatch := true } .shadow)) ∧
        (g.isHandler = false → s.shadowed g.launch = false →
          (s.errsAsFree g = true → exec i s = .next (s.endForError g 4 g.pc)) ∧
          (s.errsAsFree g = false → exec i s = .next (s.errorAbort g.crew)))))) ∧
  ∀ (i : Instr) (s : State) (g : Gang), Steps s g →
    let illegal := s.takeStop g 1 0 (wordsInfo i) (g.active (shape i)) [] g.pc (g.next (shape i))
    ((match i with | .wsel _ _ _ | .wrd _ _ _ | .wwr _ _ _ _ | .wres _ _ _ => True | _ => False) → g.isHandler = false →
      exec i s = .next illegal) ∧
    ((match i with
      | .rgrow _ _ _ | .rshr _ _ _ | .vrnd _ _ _ _ | .mwld _ _ _ _ | .mmul _ _ _ _ _ _ _ | .maclr _ _ _ | .mard _ _ _ _ _ _ _ _ | .mawr _ _ _ _ _ _ _
      | .cpost _ _ _ _ _ | .cgath _ _ _ _ _ _ _ _ | .cscat _ _ _ _ _ _ _ _ | .ccopy _ _ _ _ _ _ _ _ | .ccopyOut _ _ _ _ _ _ _ _
      | .ccopyTr _ _ _ _ _ _ | .cchain _ _ _ _ _ _ _ _ _ | .cbar _ _ | .gbar _ _ => True
      | _ => False) →
      g.isHandler = true → exec i s = .next (s.endRun g.core true))

/-- R142, R144: LXCH and LBCST move the value of the named lane, with its poison, and 0 from a dead lane; LFIRST takes the lowest live active lane's; LMSK
works on whole mask registers. That a pair of which one word is poisoned arrives poisoned in both is the model's choice (log 100).
R143, R131: LVOTE over the live active lanes. -/
def Obligations.LaneMoveRows : Prop :=
  ((∀ (i : Instr) (s : State) (g : Gang) (h : VH) (t : Fmt) (d : BitVec 8) (a : VSrc) (f : Nat → Nat), Issues i s g →
      moveRow s g i = some (h, t, d, a, f) →
      exec i s = .next (s.completes i g s ((bitsOn (g.acting i)).foldl (fun u k =>
        u.vPut t d.toNat k (s.srcOf g h t a (f k)).1 (s.srcOf g h t a (f k)).2) g))) ∧
    (∀ (s : State) (g : Gang) (h : VH) (t : Fmt) (d : BitVec 6) (a : VSrc), Issues (.lfirst h t d a) s g →
      let i := Instr.lfirst h t d a
      exec i s = .next (s.completes i g s
        (match (bitsOn (g.acting i)).head? with
          | none => g.sSet d.toNat 0
          | some j => g.sSet d.toNat (BitVec.ofInt 64 (rd (t.or .b32) (s.srcOf g h (t.or .b32) a j).1)) (s.srcOf g h (t.or .b32) a j).2))) ∧
    (∀ (s : State) (g : Gang) (st : BitVec 3) (x : MaskArg), Issues (.lmsk st x) s g →
      exec (.lmsk st x) s = .next (s.completes (.lmsk st x) g s (maskRow g x)))) ∧
  (∀ (s : State) (g : Gang) (h : VH) (t : Fmt) (d : VoteDst) (a : VSrc), Issues (.lvote h t d a) s g →
      let i := Instr.lvote h t d a
      let u := t.or .b32
      g.CleanIn (g.acting i) (srcRegs u a) →
      exec i s = .next (s.completes i g s (voteRow g d (bitsOn (g.acting i))
        ((bitsOn (g.acting i)).filter (fun k => s.vsrc g h.lit u a k % 2 ^ u.bits ≠ 0)))))

/-- R145 to R147: LSCAN, LRED and LREDX complete when no result raises, and write each live active lane's result.
R132: where a result of LSCAN, LRED or LREDX raises, nothing is written, the gang stops with LANE_TRAP and the replay mask is the active mask. That every live
active lane then carries the code of the first raising result in lane order, where results raise different ones, is the model's choice (log 99). -/
def Obligations.ReductionRows : Prop :=
  (∀ (i : Instr) (s : State) (g : Gang) (r : SumRow), Issues i s g → sumRow s g (bitsOn (g.acting i)) i = some r →
      g.CleanIn (g.acting i) r.regs → (∀ k ∈ bitsOn (g.acting i), g.fpTrap (r.res k).2 = 0) →
      let y := s.withLate ((bitsOn (g.acting i)).foldl (fun u k => u.vPut r.t r.d k (r.res k).1) g) r.late
      exec i s = .next (s.completes i g y.1 y.2)) ∧
  (∀ (i : Instr) (s : State) (g : Gang) (r : SumRow) (code : Nat), Issues i s g → sumRow s g (bitsOn (g.acting i)) i = some r →
      g.CleanIn (g.acting i) r.regs → ((bitsOn (g.acting i)).map (fun k => g.fpTrap (r.res k).2)).find? (· ≠ 0) = some code →
      let codes := codesOf ((bitsOn (g.acting i)).map (fun k => (k, code)))
      exec i s = .next (s.takeStop (g.issuedAt (shape i) (s.cyc g.core)) 31
        (match (bitsOn (g.active (shape i))).head? with | some k => (Store.get codes k).toNat | none => 0)
        (wordsInfo i) (g.active (shape i)) codes g.pc (g.next (shape i))))

/-- R148, R149: TOPK completes when it meets no NaN under ORDT and no sum raises; a NaN of a live active lane with ORDT = 1 raises ORDER_VIOLATION (CAUSE 30).
R132: where a sum raises, and a lane is live and active, nothing is written and the gang stops with LANE_TRAP, every live active lane carrying the code; that it is
the selected ones' sum when both raise is the model's choice (log 80).
R150 to R153: MPATH and MERGE on two lists complete, and count an order violation when a list is not sorted, unless ORDT is set, when they raise
ORDER_VIOLATION (CAUSE 30). With no live active lane they write nothing, and the lists are checked all the same (the model's reading, log 40). -/
def Obligations.SelectRows : Prop :=
  (∀ (s : State) (g : Gang) (h : VH) (r : Rnd) (t : Fmt) (d : BitVec 8) (a : VSrc) (b : Sc), Issues (.topk h r t d a b) s g →
      let i := Instr.topk h r t d a b
      let t := t.or .f32
      let u := if t.float then Fmt.f32 else t
      let l := bitsOn (g.acting i)
      let c := ranked s g h t a l
      let k := min (s.sc g h.lit b).toNat 64
      let sel := (exactSum t ((c.take k).map (·.2))).readout u (g.mode r) g.sat
      let out := (exactSum t ((c.drop k).map (·.2))).readout u (g.mode r) g.sat
      g.CleanIn (g.acting i) (srcRegs t a) → (g.ordt = true → t.float = true → ∀ j ∈ l, (t.fp.read (s.vsrc g h.lit t a j % 2 ^ t.bits)).isNan = false) →
      g.fpTrap sel.2 = 0 → g.fpTrap out.2 = 0 →
      let y := s.late (topkWrite t u d.toNat k c l sel.1 out.1 g) (Shape.vRange d.toNat 4)
      exec i s = .next (s.completes i g y.1 y.2)) ∧
  (∀ (s : State) (g : Gang) (h : VH) (r : Rnd) (t : Fmt) (d : BitVec 8) (a : VSrc) (b : Sc), Issues (.topk h r t d a b) s g →
      let i := Instr.topk h r t d a b
      let t := t.or .f32
      let u := if t.float then Fmt.f32 else t
      let l := bitsOn (g.acting i)
      let c := ranked s g h t a l
      let k := min (s.sc g h.lit b).toNat 64
      let nan : Prop := g.ordt = true ∧ t.float = true ∧ ∃ j ∈ l, (t.fp.read (s.vsrc g h.lit t a j % 2 ^ t.bits)).isNan = true
      let code (x : List (Nat × Nat)) := g.fpTrap ((exactSum t (x.map (·.2))).readout u (g.mode r) g.sat).2
      let raised := if code (c.take k) = 0 then code (c.drop k) else code (c.take k)
      let codes := codesOf (l.map (fun j => (j, raised)))
      g.CleanIn (g.acting i) (srcRegs t a) →
      (nan → exec i s = .next (s.traps i g 30)) ∧
      (¬ nan → raised ≠ 0 → l ≠ [] →
        exec i s = .next (s.takeStop (g.issuedAt (shape i) (s.cyc g.core)) 31
          (match (bitsOn (g.active (shape i))).head? with | some j => (Store.get codes j).toNat | none => 0)
          (wordsInfo i) (g.active (shape i)) codes g.pc (g.next (shape i))))) ∧
  (∀ (s : State) (g : Gang) (h : VH) (t : Fmt) (d a b : BitVec 8) (c : Sc) (merge : Bool),
      let i := if merge then Instr.merge h t d a b c else Instr.mpath h t d a b c
      Issues i s g →
      let t := t.or .i32
      let x := (s.sc g h.lit c).toNat
      let na := min (x % 128) 64
      let nb := min (x / 256 % 128) 64
      let l := bitsOn (g.acting i)
      let as := (List.range na).map (fun j => (s.srcOf g h t (.v a) j).1)
      let bs := (List.range nb).map (fun j => (s.srcOf g h t (.v b) j).1)
      let sorted := sortedList t as && sortedList t bs
      let res (k : Nat) : Nat × Nat :=
        if merge then (mergeFrom t 128 as 0 bs 0).getD (x / 65536 % 128 + k) (0, 0xFFFFFFFF)
        else
          let n := min (k * (x / 65536 % 256)) (na + nb)
          let lo := mpathFrom t as bs n 8 (n - nb) (min n na)
          (lo, n - lo)
      g.CleanIn (g.live (maskOf 64 (List.range na))) [a.toNat] → g.CleanIn (g.live (maskOf 64 (List.range nb))) [b.toNat] →
      (sorted = true ∨ g.ordt = false →
        let y := (if sorted then s else s.countAt g.place .orderViolations).late
          (l.foldl (fun u k => (u.vSet d.toNat k (res k).1).vSet (d.toNat + 1) k (res k).2) g) (Shape.vRange d.toNat 2)
        exec i s = .next (s.completes i g y.1 y.2)) ∧
      (sorted = false → g.ordt = true → exec i s = .next (s.traps i g 30)))

/-- R154, R39: VRND gives each live active lane the number of its offset in the launch's range. -/
def Obligations.RandomNumbersComplete : Prop :=
  ∀ (s : State) (g : Gang) (h : VH) (t : Fmt) (d : BitVec 8) (a : VSrc) (n : Launch), Issues (.vrnd h t d a) s g → g.isHandler = false →
    s.launch? g.launch = some n →
    let i := Instr.vrnd h t d a
    let u := t.or .n32
    g.CleanIn (g.acting i) (srcRegs u a) →
    (∀ k ∈ bitsOn (g.acting i), s.vsrc g h.lit u a k % 2 ^ u.bits < n.pkt.rnglen) →
    exec i s = .next (s.completes i g s (g.lanesTo .n32 d.toNat (g.acting i) (fun k =>
      vrndValue n.pkt.seed.toNat n.pkt.rngbase.toNat (s.vsrc g h.lit u a k % 2 ^ u.bits))))

/-- R188, R201 to R203: RFWD and RMAD complete with seven channels or more; RREV too, with its reports, when OVT is clear or nothing overflows.
R199: with fewer than seven channels enabled every residue lane row raises RESIDUE_UNAVAIL (CAUSE 20). -/
def Obligations.ResidueRows : Prop :=
  ((∀ (i : Instr) (s : State) (g : Gang) (r : LaneRow), Issues i s g → octetRow s g i = some r → g.CleanIn (g.acting i) r.regs →
      7 ≤ (bitsOn (s.core g.core).en).length → exec i s = .next (s.completes i g s (r.write (g.acting i) g))) ∧
    (∀ (s : State) (g : Gang) (h : VH) (t f2 : Fmt) (d : BitVec 8) (a : VSrc) (c : BitVec 4), Issues (.rrev h t f2 d a c) s g →
      let i := Instr.rrev h t f2 d a c
      let t := t.or .i64
      let conv (k : Nat) := convert (s.core g.core).en (s.pair g h.lit a k)
      g.CleanIn (g.acting i) (srcRegs .n64 a) → 7 ≤ (bitsOn (s.core g.core).en).length →
      (g.ovt = false ∨ ∀ k ∈ bitsOn (g.acting i), (conv k).isOverflow = false) →
      let u := (bitsOn (g.acting i)).foldl (fun v k => v.vPut t d.toNat k ((conv k).result t g.sat).1 ((conv k).result t g.sat).2) g
      exec i s = .next (s.completes i g (s.reportConv g ((bitsOn (g.acting i)).map conv))
        (u.mBits c.toNat ((bitsOn (g.acting i)).map (fun k => (k, (conv k).isOverflow))))))) ∧
  (∀ (i : Instr) (s : State) (g : Gang), Issues i s g → (bitsOn (s.core g.core).en).length < 7 →
      (match i with | .rfwd _ _ _ _ _ | .rrev _ _ _ _ _ _ | .rchk _ _ _ | .rmad _ _ _ _ _ => True | _ => False) →
      exec i s = .next (s.traps i g 20))

/-- R172, R156, R160, R180: MWLD of a leased slot whose image is readable loads the plane and gives 0, or empties the plane and gives 1 when the format word is
0; symbols that its codes correct are counted. A slot with uncorrectable symbols that was filled from memory is refetched while the gang waits (R162); while
the plane streams, or a shadow of the crew is behind (the model's choice, log 82), MWLD waits. A launch with ACC = 0 raises TILE_RANGE (CAUSE 15), a slot beyond
TLEASE SLOT_RANGE (CAUSE 16). That stored bits that are not correctable say the format is the model's choice (log 102). -/
def Obligations.PlaneLoadCompletes : Prop :=
  ∀ (s : State) (g : Gang) (h : SH) (d : BitVec 6) (a : Sc) (p : Bool), Issues (.mwld h d a p) s g → g.isHandler = false →
    let i := Instr.mwld h d a p
    let n := (s.sc g h.lit a).toNat
    let x := s.slotOf g.core g.launch n
    let f := formatWord x.img
    let s1 := s.countAt g.place .transomCorrected x.corrected
    (s.accUnits g.launch = 0 → exec i s = .next (s.traps i g 15)) ∧
    (s.accUnits g.launch ≠ 0 → s.tlease g.launch ≤ n → exec i s = .next (s.traps i g 16)) ∧
    (s.accUnits g.launch ≠ 0 → n < s.tlease g.launch →
    (((∃ y ∈ (s.core g.core).streams, y.plane = p) ∨ s.shadowsBehind g.crew = true) → exec i s = .next (s.waits g .plane)) ∧
    ((∀ y ∈ (s.core g.core).streams, y.plane ≠ p) → s.shadowsBehind g.crew = false →
      (x.lost ≠ [] → x.src ≠ none → exec i s = .next ((s1.countAt g.place .transomRefetch).waits g (.refetch n))) ∧
      ((x.lost = [] ∨ x.src = none) →
        (f = 0 →
          let y := (s1.modCrew g.crew (fun c => { c with planes := Tab.erase c.planes p.toNat })).late (g.sSet d.toNat 1) (Shape.sRef d.toNat)
          exec i s = .next (s.completes i g y.1 y.2)) ∧
        (f ≠ 0 → wfmtOk f = true → groupsAgree x.img f = true →
          let q : Plane := { img := x.img, wfmt := f, slot := n, bad := badColumns x.lost }
          let y := ((s1.countAt g.place .zskipGroups (zeroGroups x.img f)).modCrew g.crew (fun c => { c with planes := Tab.set c.planes p.toNat q })).late
            (g.sSet d.toNat 0) (Shape.sRef d.toNat)
          exec i s = .next (s.completes i g y.1 y.2)) ∧
        (f ≠ 0 → (wfmtOk f = false ∨ groupsAgree x.img f = false) → exec i s = .next (s1.traps i g 19)))))

/-- R177, R178, R179, R191: MACLR gives a tile its format and initial value; MARD reads N columns of each live active lane's row, MAWR writes them. -/
def Obligations.TileRowsComplete : Prop :=
  ∀ (s : State) (g : Gang) (h : VH) (st : BitVec 3) (f : TileFmt) (k : BitVec 3) (r : Rnd) (t kind : Fmt) (d a : BitVec 8) (b : Sc) (m : BitVec 6),
    g.isHandler = false → k.toNat < s.accOf g.launch →
    (Issues (.maclr st f k) s g → (f = .res → 7 ≤ (bitsOn (s.core g.core).en).length) →
      let i := Instr.maclr st f k
      let y := (s.setTile g k.toNat { fmt := f, valid := if f = .res then (s.core g.core).en else 0 }).late g [.tile k.toNat]
      exec i s = .next (s.completes i g y.1 y.2)) ∧
    (let i := Instr.mard h r t kind d k b m
     let x := s.tile g k.toNat
     let c := (s.sc g h.lit b).toNat
     let n := m.toNat + 1
     let u := t.or .f32
     let e := x.valid &&& (s.core g.core).en
     let out (j q : Nat) := mardEntry (g.mode r) u kind e g x (x.entry j (c + q))
     Issues i s g → c + n ≤ tileCols x.fmt → kindMatches kind x.fmt = true → (kind = .i64 → 7 ≤ (bitsOn e).length) →
     (∀ j ∈ bitsOn (g.acting i), ∀ q < n, (out j q).code = 0) →
      let v := (bitsOn (g.acting i)).foldl (fun v j => (List.range n).foldl (fun v q =>
        v.vPut u (d.toNat + Shape.regsOf u * q) j (out j q).bits (out j q).bad) v) g
      let w := s.reportConv g (((bitsOn (g.acting i)).map (fun j => (List.range n).filterMap (fun q => (out j q).conv))).flatten)
      let y := w.late v (Shape.vRange d.toNat (n * Shape.regsOf u))
      exec i s = .next (s.completes i g y.1 y.2)) ∧
    (let i := Instr.mawr h t kind k a b m
     let x := s.tile g k.toNat
     let c := (s.sc g h.lit b).toNat
     let n := m.toNat + 1
     let u := t.or .f32
     Issues i s g → c + n ≤ tileCols x.fmt → kindMatches kind x.fmt = true → (kind = .i64 → 7 ≤ (bitsOn (s.core g.core).en).length) →
     g.CleanIn (g.acting i) ((List.range (n * Shape.regsOf u)).map (fun q => a.toNat + q)) →
      let z := (bitsOn (g.acting i)).foldl (fun z j => (List.range n).foldl (fun z q =>
        mawrEntry u kind z (z.entry j (c + q)) (g.vraw u (a.toNat + Shape.regsOf u * q) j)) z) x
      let y := (s.setTile g k.toNat z).late g [.tile k.toNat]
      exec i s = .next (s.completes i g y.1 y.2))

/-- R174, R175, R176, R190, R191: MMUL with its token, a tile of its format and a plane of its weights adds, for each live active lane and each column, the
terms of the plane, and streams from the plane; with no live active lane it does nothing.
R182 to R184: an MMUL with a live active lane and no token waits for one, whatever else it would raise; R173, R175: a tile beyond ACC, a tile of another format, an empty plane or one of
other weights raise CAUSE 15, 17 and 18. -/
def Obligations.MatrixMultiplyRow : Prop :=
  (∀ (s : State) (g : Gang) (h : VH) (sr : Semi) (x w : Fmt) (k : BitVec 3) (a : BitVec 8) (pl : Bool) (p : Plane),
      let i := Instr.mmul h sr x w k a pl
      Issues i s g → g.isHandler = false → k.toNat < s.accOf g.launch → (s.tile g k.toNat).fmt = mmulTile sr w → s.plane? g pl = some p →
      p.wfmt = w.code.toNat → (mmulTile sr w = .res → 7 ≤ (bitsOn (s.core g.core).en).length) →
      let u := x.or .bf16
      let en := (s.core g.core).en
      let t := s.tile g k.toNat
      let rows := bitsOn (g.acting i)
      (g.acting i = 0 → exec i s = .next (s.completes i g s g)) ∧
      (g.acting i ≠ 0 → g.CleanIn (g.acting i) ((List.range (Shape.mmulRegs u w)).map (fun r => a.toNat + r)) →
        let t1 := rows.foldl (fun t j => (List.range (tileCols t.fmt)).foldl (fun t q => mmulEntry sr u w g a.toNat p en t j q) t) t
        let t2 := if t1.fmt = .res then { t1 with valid := t1.valid &&& en } else t1
        let s1 := s.setTile g k.toNat t2
        let s2 := if t2.fmt = .plus then
            (s1.countAt g.place .zskipCycles (zskipSaved u g a.toNat p rows)).countAt g.place .zgateProducts (zgated u g a.toNat p rows)
          else s1
        let s3 := s2.modCore g.core (fun c => { c with streams := c.streams ++ [{ crew := g.crew, slot := g.slot, id := s.nextId, plane := pl }] })
        let y := s3.late { g with token := false } [.tile k.toNat] (Shape.vRange a.toNat (Shape.mmulRegs u w))
        exec i s = .next (s.completes i g y.1 y.2))) ∧
  (∀ (s : State) (g : Gang) (h : VH) (sr : Semi) (x w : Fmt) (k : BitVec 3) (a : BitVec 8) (pl : Bool),
      let i := Instr.mmul h sr x w k a pl
      (s.cur = some (.gang g.core g.slot) → s.gang? g.core g.slot = some g → s.mayIssue g = true → g.notBefore ≤ s.cyc g.core → g.failed = [] →
        g.isHandler = false → g.acting i ≠ 0 → g.token = false →
        (∀ p ∈ g.pend, p.ref ∈ (shape i).reads ++ (shape i).writes → p.readyAt ≤ s.cyc g.core) →
        exec i s = .next (s.waits g (if g.boarded (shape i) then .scoreboard else .token))) ∧
      (Issues i s g → g.isHandler = false →
        (s.accOf g.launch ≤ k.toNat → exec i s = .next (s.traps i g 15)) ∧
        (k.toNat < s.accOf g.launch → (s.tile g k.toNat).fmt ≠ mmulTile sr w → exec i s = .next (s.traps i g 17)) ∧
        (k.toNat < s.accOf g.launch → (s.tile g k.toNat).fmt = mmulTile sr w →
          (∀ p, s.plane? g pl = some p → p.wfmt ≠ w.code.toNat) → exec i s = .next (s.traps i g 18))))

/-- R224: BSET writes a buffer register. R296, as the model has it (logs 4 and 69): FENCE completes at every scope, and it is the gang's later memory
instructions that wait for the far accesses it covers, as a release waits for the gang's far writes (R291, R299).
R117: SLD loads one element into a scalar register, sign or zero extended, and 0 when it is out of bounds; SST in FREE mode stores one, and nothing out of
bounds; STRICT_BOUNDS and the codes of R222 stop the gang with the code in every active lane. -/
def Obligations.ScalarMemoryRows : Prop :=
  (∀ (s : State) (g : Gang) (h : SH) (k : BitVec 4) (a b : Sc) (st : BitVec 3) (sc : Scope),
      (Issues (.bset h k a b) s g →
        let y := s.late (g.bSet k.toNat (s.sc g h.lit b ++ s.sc g h.lit a)) [.b k.toNat]
        exec (.bset h k a b) s = .next (s.completes (.bset h k a b) g y.1 y.2)) ∧
      (Issues (.fence st sc) s g → exec (.fence st sc) s = .next (s.completes (.fence st sc) g s { g with fence := s.nextId }))) ∧
  (∀ (i : Instr) (s : State) (g : Gang), Cleared i s g → g.isHandler = false → s.ordered g (shape i) = true →
      (match i with
        | .sld _ _ _ _ _ _ | .sst _ _ _ _ _ _ | .ldb _ _ _ _ _ _ | .stb _ _ _ _ _ _ | .atm _ _ _ _ _ _ _ _ _ | .redx _ _ _ _ _ _ _
        | .xrnd _ _ _ _ _ _ _ _ | .vldv _ _ _ _ _ _ | .vstv _ _ _ _ _ _ _ | .lds _ _ _ _ _ | .sts _ _ _ _ _ | .ldc _ _ _ _ _ _ | .stc _ _ _ _ _ _
        | .larv _ _ _ _ | .cbar _ _ | .gbar _ _ | .cpost _ _ _ _ _ => True
        | _ => False) →
      exec i s = .next (s.waits g .far)) ∧
  (∀ (s : State) (g : Gang) (h : SH) (strict : Bool) (t : Fmt) (d : BitVec 6) (k : BitVec 4) (b c : Sc) (pa va code : Nat),
      let u := t.or .n64
      let ix : Int := (s.sc g h.lit b).toNat
      (let i := Instr.sld h strict t d k b
       let rule : MemRule := { size := u.bytes }
       (LineAccess i s g k rule .ld true ix pa va →
        let y := (s.notedLine g k rule ix).countOp g .ld (Shape.sRef d.toNat)
        let x := s.bytesSeen g pa u.bytes
        exec i s = .next (s.completes i g y.1 (y.2.sSet d.toNat (BitVec.ofInt 64 (rd u (natOf x))) (anyBad x)))) ∧
       (Issues i s g → g.counter .ld < 63 → recBadType (g.bGet k.toNat) u.bytes = false →
        (recExtent (g.bGet k.toNat) ≤ ix →
          (strict = false → let y := s.countOp g .ld (Shape.sRef d.toNat); exec i s = .next (s.completes i g y.1 (y.2.sSet d.toNat 0))) ∧
          (strict = true → exec i s = .next (s.allStop i g 1))) ∧
        (ix < recExtent (g.bGet k.toNat) →
          s.reachLine g rule (recAddr (g.bGet k.toNat) ix.toNat) = .trap code →
          exec i s = .next ((s.notedLine g k rule ix).allStop i g code)))) ∧
      (let i := Instr.sst h strict t k b c
       let rule : MemRule := { size := u.bytes, write := true, noVer := true }
       (LineAccess i s g k rule .st true ix pa va → s.buffered g = false →
        let y := (s.notedLine g k rule ix).countOp g .st []
        exec i s = .next (s.completes i g (y.1.bytesPut g pa (clean (leBytes u.bytes (s.sc g h.lit c).toNat))) y.2)) ∧
       (Issues i s g → g.counter .st < 63 → recBadType (g.bGet k.toNat) u.bytes = false → recRo (g.bGet k.toNat) = false →
        (recExtent (g.bGet k.toNat) ≤ ix →
          (strict = false → let y := s.countOp g .st []; exec i s = .next (s.completes i g y.1 y.2)) ∧
          (strict = true → exec i s = .next (s.allStop i g 1))) ∧
        (ix < recExtent (g.bGet k.toNat) →
          s.reachLine g rule (recAddr (g.bGet k.toNat) ix.toNat) = .trap code →
          exec i s = .next ((s.notedLine g k rule ix).allStop i g code)))))

/-- R222, R225, R82, R208: LDB gives each live active lane the element at its address, 0 out of bounds, and sets the bounds mask.
R132, R222: where lanes raise (STRICT_BOUNDS, MISALIGNED and the page rules' codes), the others take their elements and the gang stops with LANE_TRAP. -/
def Obligations.RecordLoadsComplete : Prop :=
  ∀ (s : State) (g : Gang) (h : VH) (m : MH) (t : Fmt) (d : BitVec 8) (k : BitVec 4) (b : VSrc) (place : Nat → Option (Nat × Nat)) (code : Nat → Nat),
    let i := Instr.ldb h m t d k b
    let u := t.or .b32
    let rule : MemRule := { size := u.bytes }
    let y := (s.noted g k h m b rule (g.acting i)).countOp g .ld (Shape.vRange d.toNat (Shape.regsOf u) ++ Shape.mRef m.bm.toNat)
    let lane (v : Gang) (j : Nat) : Gang :=
      match place j with
      | some (pa, _) => v.vBytes u d.toNat j (s.bytesSeen g pa u.bytes)
      | none => v.vPut u d.toNat j 0
    let l := bitsOn (g.acting i)
    (LaneAccess i s g k h m b rule .ld true [] place → exec i s = .next (s.completes i g y.1 (l.foldl lane (y.2.boundsOf m.bm l place)))) ∧
    (LaneRaises i s g k h m b rule .ld true [] place code →
      exec i s = .next (s.laneStops y.1 i g (((l.filter (fun j => code j = 0)).foldl lane (y.2.boundsRaised m.bm l place code)).dropOp s.nextId)
        ((l.filter (fun j => code j ≠ 0)).map (fun j => (j, code j)))))

/-- R222, R225, R81: STB in FREE mode writes each live active lane's element at its address, in rising lane order, and nothing out of bounds.
R132, R222: where lanes raise, the others store and the gang stops with LANE_TRAP. -/
def Obligations.RecordStoresComplete : Prop :=
  ∀ (s : State) (g : Gang) (h : VH) (m : MH) (t : Fmt) (k : BitVec 4) (b : VSrc) (c : BitVec 8) (place : Nat → Option (Nat × Nat)) (code : Nat → Nat),
    let i := Instr.stb h m t k b c
    let u := t.or .b32
    let rule : MemRule := { size := u.bytes, write := true, noVer := true }
    let y := (s.noted g k h m b rule (g.acting i)).countOp g .st (Shape.mRef m.bm.toNat)
    let lane (t' : State) (j : Nat) : State :=
      match place j with
      | some (pa, _) => t'.bytesPut g pa (clean (leBytes u.bytes (g.vraw u c.toNat j)))
      | none => t'
    let l := bitsOn (g.acting i)
    s.buffered g = false →
    (LaneAccess i s g k h m b rule .st true (srcRegs u (.v c)) place →
      exec i s = .next (s.completes i g (l.foldl lane y.1) (y.2.boundsOf m.bm l place))) ∧
    (LaneRaises i s g k h m b rule .st true (srcRegs u (.v c)) place code →
      exec i s = .next (s.laneStops ((l.filter (fun j => code j = 0)).foldl lane y.1) i g ((y.2.boundsRaised m.bm l place code).dropOp s.nextId)
        ((l.filter (fun j => code j ≠ 0)).map (fun j => (j, code j)))))

/-- The frame of STB in FREE mode away from the kick page: every register, special register and byte of memory keeps its value but for the bounds mask and
the bytes at the lanes' addresses, which `place` gives as the access itself computes them. -/
def Obligations.RecordStoreFrame : Prop :=
  ∀ (s t : State) (g : Gang) (h : VH) (m : MH) (f : Fmt) (k : BitVec 4) (b : VSrc) (c : BitVec 8) (place : Nat → Option (Nat × Nat)),
    let i := Instr.stb h m f k b c
    let u := f.or .b32
    LaneAccess i s g k h m b { size := u.bytes, write := true, noVer := true } .st true (srcRegs u (.v c)) place → s.buffered g = false →
    (∀ j ∈ bitsOn (g.acting i), ∀ pa va, place j = some (pa, va) → s.onKickPage pa = false) → exec i s = .next t →
    (∀ a, (∀ j ∈ bitsOn (g.acting i), ∀ pa va, place j = some (pa, va) → a < pa ∨ pa + u.bytes ≤ a) → Store.get t.mem a = Store.get s.mem a) ∧
    (∀ c k, gkey c k ≠ gkey g.core g.slot → t.gang? c k = s.gang? c k) ∧
    t.crews = s.crews ∧ t.cores = s.cores ∧ t.ctxRegs = s.ctxRegs ∧ t.vers = s.vers ∧
    ∃ v, t.gang? g.core g.slot = some v ∧ SameRegs g v (fun _ => False) (fun _ _ => False) (fun n => n = m.bm.toNat) (fun _ => False) ∧
      SameSpecials g v

/-- R81, R82, R83: in PHASED and SPAN modes a write changes no byte of memory: STB, ATM, REDX, XRND with `.clr`, SST and a VSTV whose version is the one it
expects enter their effects, in lane order, in their crew's effects; a lane of ATM or REDX that is out of bounds takes its space too. What ATM and XRND read
is the crew's own view. That an XRND with `.clr` passes the page checks of a read, and no check of a write, is the model's reading (log 27). -/
def Obligations.BufferedStoresComplete : Prop :=
  ∀ (s : State) (g : Gang) (h : VH) (sh : SH) (m : MH) (t : Fmt) (op : AtmOp) (r : Rnd) (strict : Bool) (d : BitVec 8) (d6 : BitVec 6) (k : BitVec 4)
    (b : VSrc) (sb sc : Sc) (c x : BitVec 8) (p : Option (BitVec 8)) (place : Nat → Option (Nat × Nat)) (pa va : Nat) (w : Crew), s.buffered g = true →
    s.crew? g.crew = some w →
    (let i := Instr.stb h m t k b c
     let u := t.or .b32
     let rule : MemRule := { size := u.bytes, write := true, noVer := true }
     let l := bitsOn (g.acting i)
     let y := (s.noted g k h m b rule (g.acting i)).countOp g .st (Shape.mRef m.bm.toNat)
     let eff := l.foldl (fun e j =>
       match place j with
       | some (pa, _) => e ++ [g.effect j (storeSize e 0 (.here pa)) (.store (.here pa) (leBytes u.bytes (g.vraw u c.toNat j))) (ordsOf s g k h m b rule j)]
       | none => e) []
     LaneAccess i s g k h m b rule .st true (srcRegs u (.v c)) place → s.hasRoom w (effBytes eff) = true →
     ∃ t', exec i s = .next (s.completes i g t' (y.2.boundsOf m.bm l place)) ∧ s.Enters t' g w eff) ∧
    (let i := Instr.atm h m op t d k b c x
     let u := t.or .i32
     let rule : MemRule := { size := u.bytes, write := true, noVer := true }
     let l := bitsOn (g.acting i)
     let y := (s.noted g k h m b rule (g.acting i)).countOp g .st (Shape.vRange d.toNat (Shape.regsOf u) ++ Shape.mRef m.bm.toNat)
     let z := l.foldl (fun (z : List Eff × Gang) j =>
       match place j with
       | some (pa, _) =>
         let old := s.bytesWith (w.effects ++ z.1) pa u.bytes
         (z.1 ++ [g.effect j 16 (.atm (.here pa) op u (BitVec.ofNat 64 (z.2.vraw u c.toNat j)) (BitVec.ofNat 64 (z.2.vraw u x.toNat j)))
           (ordsOf s g k h m b rule j) old],
          z.2.vBytes u d.toNat j old)
       | none => (z.1 ++ [g.effect j 16 .space], z.2.vPut u d.toNat j 0)) ([], y.2.boundsOf m.bm l place)
     LaneAccess i s g k h m b rule .st true (srcRegs u (.v c) ++ (if op = .cas then srcRegs u (.v x) else [])) place →
     s.hasRoom w (effBytes z.1) = true →
     ∃ t', exec i s = .next (s.completes i g t' z.2) ∧ s.Enters t' g w z.1) ∧
    (let i := Instr.redx h m t k b c p
     let u := t.or .f32
     let rule : MemRule := { size := 128, write := true, noOrd := true, noVer := true }
     let l := bitsOn (g.acting i)
     let y := (s.noted g k h m b rule (g.acting i)).countOp g .st (Shape.mRef m.bm.toNat)
     let eff := l.map (fun j =>
       match place j with
       | some (pa, _) =>
         g.effect j 16 (.redx (.here pa) u (BitVec.ofNat 64 (g.vraw u c.toNat j)) (p.map (fun q => BitVec.ofNat 64 (g.vraw u q.toNat j)))) (ordsOf s g k h m b rule j)
       | none => g.effect j 16 .space)
     LaneAccess i s g k h m b rule .st false (srcRegs u (.v c) ++ (match p with | some q => srcRegs u (.v q) | none => [])) place →
     s.hasRoom w (effBytes eff) = true →
     ∃ t', exec i s = .next (s.completes i g t' (y.2.boundsOf m.bm l place)) ∧ s.Enters t' g w eff) ∧
    (let i := Instr.xrnd h m r true t d k b
     let u := t.or .f32
     let rule : MemRule := { size := 128 }
     let l := bitsOn (g.acting i)
     let y := (s.noted g k h m b rule (g.acting i)).countOp g .ld (Shape.vRange d.toNat (Shape.regsOf u) ++ Shape.mRef m.bm.toNat)
     let z := l.foldl (fun (z : List Eff × Gang × List Nat) j =>
       match place j with
       | some (pa, _) =>
         let old := s.bytesWith (w.effects ++ z.1) pa 128
         let out := (Xa.ofBytes (rawBytes old)).readout u (g.mode r) g.sat
         if g.fpTrap out.2 ≠ 0 then (z.1, z.2.1, z.2.2 ++ [j])
         else (z.1 ++ [g.effect j 16 (.xclr (.here pa)) (ordsOf s g k h m b rule j)], z.2.1.vPut u d.toNat j out.1 (anyBad old), z.2.2)
       | none => (z.1, z.2.1.vPut u d.toNat j 0, z.2.2)) ([], y.2.boundsOf m.bm l place, [])
     LaneAccess i s g k h m b rule .ld false [] place → z.2.2 = [] → s.hasRoom w (effBytes z.1) = true →
     ∃ t', exec i s = .next (s.completes i g t' z.2.1) ∧ s.Enters t' g w z.1) ∧
    (let i := Instr.sst sh strict t k sb sc
     let u := t.or .n64
     let rule : MemRule := { size := u.bytes, write := true, noVer := true }
     let ix : Int := (s.sc g sh.lit sb).toNat
     let y := (s.notedLine g k rule ix).countOp g .st []
     let eff := [s.lineEffect g (storeSize [] 0 (.here pa)) (.store (.here pa) (leBytes u.bytes (s.sc g sh.lit sc).toNat)) (s.lineOrd g k rule ix)]
     LineAccess i s g k rule .st true ix pa va → s.hasRoom w (effBytes eff) = true →
     ∃ t', exec i s = .next (s.completes i g t' y.2) ∧ s.Enters t' g w eff) ∧
    (let i := Instr.vstv sh m d6 k sb c sc
     let want := (s.sc g sh.lit sc).setWidth 16
     let rule : MemRule := { size := 128, write := true, noOrd := true, needVer := true }
     let ix := lineIndex m (s.sc g sh.lit sb)
     let y := (s.notedLine g k rule ix).countOp g .st (Shape.sRef d6.toNat)
     let eff := [s.lineEffect g 144 (.vstv (.here pa) (g.lineData c) want) (s.lineOrd g k rule ix)]
     LineAccess i s g k rule .st false ix pa va → g.lineBad c = 0 → s.verSeen g pa = want → s.hasRoom w (effBytes eff) = true →
     ∃ t', exec i s = .next (s.completes i g t' (y.2.sSet d6.toNat (vstvStatus true 0 (want + 1)))) ∧ s.Enters t' g w eff)

/-- R227: ATM in FREE mode: each live active lane in turn takes the old value and leaves the new one; on a poisoned word it leaves nothing but for `.xchg`. -/
def Obligations.AtomicsComplete : Prop :=
  ∀ (s : State) (g : Gang) (h : VH) (m : MH) (op : AtmOp) (t : Fmt) (d : BitVec 8) (k : BitVec 4) (b : VSrc) (c x : BitVec 8)
    (place : Nat → Option (Nat × Nat)),
    let i := Instr.atm h m op t d k b c x
    let u := t.or .i32
    LaneAccess i s g k h m b { size := u.bytes, write := true, noVer := true } .st true
      (srcRegs u (.v c) ++ (if op = .cas then srcRegs u (.v x) else [])) place → s.buffered g = false →
    let l := bitsOn (g.acting i)
    let y := (s.noted g k h m b { size := u.bytes, write := true, noVer := true } (g.acting i)).countOp g .st (Shape.vRange d.toNat (Shape.regsOf u) ++ Shape.mRef m.bm.toNat)
    let z := l.foldl (fun z j =>
      match place j with
      | some (pa, _) =>
        let old := z.1.memRead pa u.bytes
        let v := z.2.vBytes u d.toNat j old
        if anyBad old = true ∧ op ≠ .xchg then (z.1, v)
        else (z.1.bytesPut g pa (clean (leBytes u.bytes (atmNew op u (natOf old) (z.2.vraw u c.toNat j) (z.2.vraw u x.toNat j)))), v)
      | none => (z.1, z.2.vPut u d.toNat j 0)) (y.1, y.2.boundsOf m.bm l place)
    exec i s = .next (s.completes i g z.1 z.2)

/-- R228: REDX in FREE mode adds each live active lane's term, or product, to its cell, in rising lane order.
R228: XRND reads each live active lane's cell out, rounded; with `.clr` in FREE mode it resets the cell in the same turn, so that a later lane reads it
reset. Without `.clr` no memory changes. A lane whose readout raises neither writes nor resets, and the gang stops with LANE_TRAP (R132). That the reset of
`.clr` needs only the page checks of a read is the model's reading (log 27). -/
def Obligations.CellRows : Prop :=
  (∀ (s : State) (g : Gang) (h : VH) (m : MH) (t : Fmt) (k : BitVec 4) (b : VSrc) (c : BitVec 8) (x : Option (BitVec 8))
      (place : Nat → Option (Nat × Nat)),
      let i := Instr.redx h m t k b c x
      let u := t.or .f32
      let rule : MemRule := { size := 128, write := true, noOrd := true, noVer := true }
      LaneAccess i s g k h m b rule .st false (srcRegs u (.v c) ++ (match x with | some r => srcRegs u (.v r) | none => [])) place →
      s.buffered g = false →
      let l := bitsOn (g.acting i)
      let y := (s.noted g k h m b rule (g.acting i)).countOp g .st (Shape.mRef m.bm.toNat)
      let t' := l.foldl (fun t' j =>
        match place j with
        | some (pa, _) => t'.bytesPut g pa (redxBytes (t'.memRead pa 128) u (g.vraw u c.toNat j) (x.map (fun r => g.vraw u r.toNat j)))
        | none => t') y.1
      exec i s = .next (s.completes i g t' (y.2.boundsOf m.bm l place))) ∧
  (∀ (s : State) (g : Gang) (h : VH) (m : MH) (r : Rnd) (t : Fmt) (d : BitVec 8) (k : BitVec 4) (b : VSrc) (place : Nat → Option (Nat × Nat)),
      let i := Instr.xrnd h m r false t d k b
      let u := t.or .f32
      LaneAccess i s g k h m b { size := 128 } .ld false [] place →
      let out (pa : Nat) := (Xa.ofBytes (rawBytes (s.bytesSeen g pa 128))).readout u (g.mode r) g.sat
      (∀ j ∈ bitsOn (g.acting i), ∀ pa va, place j = some (pa, va) → g.fpTrap (out pa).2 = 0) →
      let l := bitsOn (g.acting i)
      let y := (s.noted g k h m b { size := 128 } (g.acting i)).countOp g .ld (Shape.vRange d.toNat (Shape.regsOf u) ++ Shape.mRef m.bm.toNat)
      exec i s = .next (s.completes i g y.1 (l.foldl (fun v j =>
        match place j with
        | some (pa, _) => v.vPut u d.toNat j (out pa).1 (anyBad (s.bytesSeen g pa 128))
        | none => v.vPut u d.toNat j 0) (y.2.boundsOf m.bm l place)))) ∧
  (∀ (s : State) (g : Gang) (h : VH) (m : MH) (r : Rnd) (clr : Bool) (t : Fmt) (d : BitVec 8) (k : BitVec 4) (b : VSrc)
      (place : Nat → Option (Nat × Nat)),
      let i := Instr.xrnd h m r clr t d k b
      let u := t.or .f32
      let l := bitsOn (g.acting i)
      let y := (s.noted g k h m b { size := 128 } (g.acting i)).countOp g .ld (Shape.vRange d.toNat (Shape.regsOf u) ++ Shape.mRef m.bm.toNat)
      let z := l.foldl (fun (z : State × Gang × List (Nat × Nat)) j =>
        match place j with
        | some (pa, _) =>
          let old := z.1.memRead pa 128
          let out := (Xa.ofBytes (rawBytes old)).readout u (g.mode r) g.sat
          if g.fpTrap out.2 ≠ 0 then (z.1, z.2.1, z.2.2 ++ [(j, g.fpTrap out.2)])
          else (if clr then z.1.bytesPut g pa (clean Xa.zero.bytes) else z.1, z.2.1.vPut u d.toNat j out.1 (anyBad old), z.2.2)
        | none => (z.1, z.2.1.vPut u d.toNat j 0, z.2.2)) (y.1, y.2.boundsOf m.bm l place, [])
      LaneAccess i s g k h m b { size := 128 } .ld false [] place → s.buffered g = false →
      (z.2.2 = [] → exec i s = .next (s.completes i g z.1 z.2.1)) ∧
      (z.2.2 ≠ [] → (∀ f ∈ s.far, f.what.opOf ≠ some s.nextId) → exec i s = .next (s.laneStops z.1 i g (z.2.1.dropOp s.nextId) z.2.2)))

/-- R229: VLDV loads a line into lanes 0 to 31 that are not dead, and its version, in PHASED and SPAN modes as the crew sees them; VSTV in FREE mode writes the
line and the next version when the expected version is the line's, and only a status word when it is not. -/
def Obligations.VersionedRowsComplete : Prop :=
  ∀ (s : State) (g : Gang) (h : SH) (m : MH) (d c : BitVec 8) (x d6 : BitVec 6) (k : BitVec 4) (b e : Sc) (pa va : Nat),
    let ix := lineIndex m (s.sc g h.lit b)
    (let i := Instr.vldv h m d x k b
     let rule : MemRule := { size := 128, noOrd := true, needVer := true }
     LineAccess i s g k rule .ld false ix pa va →
     let y := (s.notedLine g k rule ix).countOp g .ld (.v d.toNat :: Shape.sRef x.toNat)
     let l := s.bytesSeen g pa 128
     exec i s = .next (s.completes i g y.1 ((g.lineLanes.foldl (fun v w =>
       v.vSet d.toNat w (natOf ((l.drop (4 * w)).take 4)) (anyBad ((l.drop (4 * w)).take 4))) y.2).sSet x.toNat ((s.verSeen g pa).setWidth 64)))) ∧
    (let i := Instr.vstv h m d6 k b c e
     let want := (s.sc g h.lit e).setWidth 16
     let rule : MemRule := { size := 128, write := true, noOrd := true, needVer := true }
     LineAccess i s g k rule .st false ix pa va → g.lineBad c = 0 →
     let y := (s.notedLine g k rule ix).countOp g .st (Shape.sRef d6.toNat)
     (s.verSeen g pa = want → s.buffered g = false →
       exec i s = .next (s.completes i g ((y.1.bytesPut g pa (clean (g.lineData c))).setVer pa (want + 1)) (y.2.sSet d6.toNat (vstvStatus true 0 (want + 1))))) ∧
     (s.verSeen g pa ≠ want → exec i s = .next (s.completes i g y.1 (y.2.sSet d6.toNat (vstvStatus false 1 (s.verSeen g pa))))))

/-- R219, R226: LDS and LDC load from the scratch of the own crew and of a crew of the band, STS and STC store to it.
R132, R219: where lanes have a misaligned offset the others load or store, and the gang stops with LANE_TRAP, MISALIGNED in those lanes.
R86: in PHASED and SPAN modes LDC and STC of another crew's scratch raise ISOLATION (CAUSE 12). -/
def Obligations.ScratchRows : Prop :=
  (∀ (s : State) (g : Gang) (h : VH) (m : MH) (t : Fmt) (d : BitVec 8) (a : Sc) (b : VSrc) (place : Nat → Option (Nat × Nat)) (mis : Nat → Bool)
      (own : Bool) (n : Nat) (w : Crew) (p : Launch), s.launch? g.launch = some p → s.crew? n = some w →
      let u := t.or .b32
      let q := (s.sc g h.lit a).toNat
      (if own then s.ownScratch g = some n else s.isolated g q = false ∧ s.bandScratch g q = some n) →
      (let i := if own then Instr.lds h m t d b else Instr.ldc h m t d a b
       let l := bitsOn (g.acting i)
       let y := s.countOp g .ld (Shape.vRange d.toNat (Shape.regsOf u) ++ Shape.mRef m.bm.toNat)
       let lane (v : Gang) (j : Nat) : Gang :=
         match place j with
         | some (o, _) => v.vBytes u d.toNat j (w.scratch.read o u.bytes)
         | none => v.vPut u d.toNat j 0
       (ScratchAccess i s g h m u b .ld [] p.pkt.scratch place →
         exec i s = .next (s.completes i g y.1 (l.foldl lane (y.2.boundsOf m.bm l place)))) ∧
       (ScratchRaises i s g h m u b .ld [] p.pkt.scratch place mis →
         exec i s = .next (s.laneStops y.1 i g
           (((l.filter (fun j => mis j = false)).foldl lane (y.2.boundsRaised m.bm l place (fun j => 2 * (mis j).toNat))).dropOp s.nextId)
           ((l.filter (fun j => mis j = true)).map (fun j => (j, 2)))))) ∧
      (let i := if own then Instr.sts h m t b d else Instr.stc h m t a b d
       let l := bitsOn (g.acting i)
       let y := s.countOp g .st (Shape.mRef m.bm.toNat)
       let lane (t' : State) (j : Nat) : State :=
         match place j with
         | some (o, _) => t'.modCrew n (fun c => { c with scratch := c.scratch.write o (clean (leBytes u.bytes (g.vraw u d.toNat j))) })
         | none => t'
       (ScratchAccess i s g h m u b .st (srcRegs u (.v d)) p.pkt.scratch place →
         exec i s = .next (s.completes i g (l.foldl lane y.1) (y.2.boundsOf m.bm l place))) ∧
       (ScratchRaises i s g h m u b .st (srcRegs u (.v d)) p.pkt.scratch place mis →
         exec i s = .next (s.laneStops ((l.filter (fun j => mis j = false)).foldl lane y.1) i g
           ((y.2.boundsRaised m.bm l place (fun j => 2 * (mis j).toNat)).dropOp s.nextId)
           ((l.filter (fun j => mis j = true)).map (fun j => (j, 2))))))) ∧
  (∀ (s : State) (g : Gang) (h : VH) (m : MH) (t : Fmt) (d : BitVec 8) (a : Sc) (b : VSrc),
      (Issues (.ldc h m t d a b) s g → s.modeOf g ≠ 0 → ((s.crewOf g).map (·.inBand)).getD 0 ≠ (s.sc g h.lit a).toNat →
        exec (.ldc h m t d a b) s = .next (s.traps (.ldc h m t d a b) g 12)) ∧
      (Issues (.stc h m t a b d) s g → s.modeOf g ≠ 0 → ((s.crewOf g).map (·.inBand)).getD 0 ≠ (s.sc g h.lit a).toNat →
        exec (.stc h m t a b d) s = .next (s.traps (.stc h m t a b d) g 12)))

/-- R255, R256, R249, R257: a post that passes its checks, with a free context, adds to its latch what it will complete, clears the status bits of its
lanes, starts a context, and gives its promise: `$cyc` + 1 and a lead that no rule states (log 10). That it takes the free
context of the lowest number is the model's choice (log 18).
R255: the checks of a post in order: a bad latch (CAUSE 21, 22), a bad status word (21), a record of the wrong size (13), a read-only record (14), a
scatter outside FREE mode (28), and, over the rows of all live active lanes, poisoned ones too, LATCH_OVERFLOW (24). With every counter of its class in use,
or no context free, a post waits. -/
def Obligations.PostRows : Prop :=
  (∀ (i : Instr) (s : State) (g : Gang) (p : Post) (ix : Nat), Issues i s g → g.isHandler = false → postOf s g i = some p →
      g.counter .cp < 63 → p.check s g = none → g.CleanIn (g.acting i) p.idx → s.freeCtx g = some ix →
      let act := g.active (shape i)
      let rows := p.rows s g act (postRef p.status)
      (∀ o, postRef p.latch = some o → (p.upd rows).over (s.latch g.crew o) = false) →
      let s1 := match postRef p.latch with | some o => s.updLatch g.crew o (p.upd rows) | none => s
      let s2 := s1.clearStatus g.crew (postRef p.status) (g.acting i)
      let s3 := s2.putCtx g.core ix (p.ctx s2 g act rows)
      let y := s3.countOp (g.sSet p.d.toNat (BitVec.ofNat 64 (s2.cyc g.core + 1 + Config.promiseLead s2.nextId))) .cp []
      exec i s = .next (s.completes i g y.1 y.2)) ∧
  (∀ (i : Instr) (s : State) (g : Gang) (p : Post) (cause : Nat), Issues i s g → g.isHandler = false → postOf s g i = some p →
      (63 ≤ g.counter .cp → exec i s = .next (s.waits g (.counter .cp))) ∧
      (g.counter .cp < 63 → p.check s g = some cause → exec i s = .next (s.traps i g cause)) ∧
      (g.counter .cp < 63 → p.check s g = none →
        (∀ o, postRef p.latch = some o → (p.upd (p.rows s g (g.active (shape i)) (postRef p.status))).over (s.latch g.crew o) = true →
          exec i s = .next (s.traps i g 24)) ∧
        ((∀ o, postRef p.latch = some o → (p.upd (p.rows s g (g.active (shape i)) (postRef p.status))).over (s.latch g.crew o) = false) →
          g.CleanIn (g.acting i) p.idx → s.freeCtx g = none → exec i s = .next (s.waits g .context))))

/-- R277, R278, R280, R285: the latch rows and OWAIT complete: LATI on a latch that nothing uses, LARV by no more than ARRIVE, LRST, LWAIT and PWAIT on a
phase that is over, OWAIT at its bound.
R274, R277, R278, R280: what the latch rows raise, in the order of their checks: LATCH_RANGE 21, LATCH_INVALID 22, LATCH_BUSY 23, LATCH_OVERFLOW 24,
LATCH_UNDERFLOW 25, BARRIER_MISMATCH 26.
R278, R280, R282, R285: what they wait for: LWAIT for the phase that it names, a PWAIT for its promise, and with `.nt` after it for the phase; a PWAIT without
`.nt` stops with PROMISE_LATE 29 on an unfinished phase; OWAIT waits while more operations of its class are outstanding. -/
def Obligations.LatchRows : Prop :=
  (∀ (s : State) (g : Gang) (h : SH) (d : BitVec 6) (a b c : Sc) (nt : Bool) (cls : OpCls),
      (let i := Instr.lati h a b
       let o := (s.sc g h.lit a).toNat
       let n := (s.sc g h.lit b).toNat
       Issues i s g → s.latchRange g o = false → n < 2 ^ 20 → (∀ w ∈ (s.core g.core).waiters, w.crew = g.crew → w.ofs ≠ o) →
       (latchValid (s.latch g.crew o) = true → latchSect (s.latch g.crew o) = 0) →
        exec i s = .next (s.completes i g (s.putLatch g.crew o (n * 2 ^ 4 + n * 2 ^ 56 + 2 ^ 111)) g)) ∧
      (let i := Instr.larv h a b c
       let o := (s.sc g h.lit a).toNat
       let n := (s.sc g h.lit b).toNat
       let want := (s.sc g h.lit c).toNat
       let x := s.latch g.crew o
       Issues i s g → s.latchRange g o = false → latchValid x = true → n < 2 ^ 20 → (want = 0 ∨ want = latchReload x) → n ≤ latchArrive x →
        exec i s = .next (s.completes i g (s.updLatch g.crew o { arrive := n }) g)) ∧
      (let i := Instr.lrst h a b
       let o := (s.sc g h.lit a).toNat
       let n := (s.sc g h.lit b).toNat
       let x := s.latch g.crew o
       Issues i s g → s.latchRange g o = false → latchValid x = true → n < 2 ^ 20 →
        exec i s = .next (s.completes i g (s.putLatch g.crew o (putField (putField (putField x 99 76 0) 110 100 0) 75 56 n)) g)) ∧
      (let i := Instr.lwait h d a b
       let o := (s.sc g h.lit a).toNat
       let x := s.latch g.crew o
       Issues i s g → s.latchRange g o = false → latchValid x = true → latchPhase x ≠ (s.sc g h.lit b).toNat % 16 →
        exec i s = .next (s.completes i g s (g.sSet d.toNat (BitVec.ofNat 64 (bitField x 111 56))))) ∧
      (let i := Instr.pwait h nt d a b c
       let o := (s.sc g h.lit b).toNat
       let x := s.latch g.crew o
       Issues i s g → s.latchRange g o = false → (s.sc g h.lit a).toNat ≤ s.cyc g.core → latchValid x = true →
       latchPhase x ≠ (s.sc g h.lit c).toNat % 16 →
        exec i s = .next (s.completes i g s (g.sSet d.toNat (BitVec.ofNat 64 (bitField x 111 56))))) ∧
      (let i := Instr.owait h cls a
       let n := min (s.sc g h.lit a).toNat 63
       Issues i s g →
        (g.counter cls ≤ n → exec i s = .next (s.completes i g s g)) ∧
        (n < g.counter cls → exec i s = .next (s.waits g (.owait cls n))))) ∧
  (∀ (s : State) (g : Gang) (h : SH) (d : BitVec 6) (a b c : Sc) (nt : Bool),
      (let i := Instr.lati h a b
       let o := (s.sc g h.lit a).toNat
       let n := (s.sc g h.lit b).toNat
       let x := s.latch g.crew o
       Issues i s g →
        (s.latchRange g o = true → exec i s = .next (s.traps i g 21)) ∧
        (s.latchRange g o = false → 2 ^ 20 ≤ n → exec i s = .next (s.traps i g 24)) ∧
        (s.latchRange g o = false → n < 2 ^ 20 →
          ((∃ w ∈ (s.core g.core).waiters, w.crew = g.crew ∧ w.ofs = o) ∨ (latchValid x = true ∧ latchSect x ≠ 0)) →
          exec i s = .next (s.traps i g 23))) ∧
      (let i := Instr.larv h a b c
       let o := (s.sc g h.lit a).toNat
       let n := (s.sc g h.lit b).toNat
       let want := (s.sc g h.lit c).toNat
       let x := s.latch g.crew o
       Issues i s g →
        (s.latchRange g o = true → exec i s = .next (s.traps i g 21)) ∧
        (s.latchRange g o = false → latchValid x = false → exec i s = .next (s.traps i g 22)) ∧
        (s.latchRange g o = false → latchValid x = true → 2 ^ 20 ≤ n → exec i s = .next (s.traps i g 24)) ∧
        (s.latchRange g o = false → latchValid x = true → n < 2 ^ 20 → want ≠ 0 → want ≠ latchReload x → exec i s = .next (s.traps i g 26)) ∧
        (s.latchRange g o = false → latchValid x = true → n < 2 ^ 20 → (want = 0 ∨ want = latchReload x) → latchArrive x < n →
          exec i s = .next (s.traps i g 25))) ∧
      (let i := Instr.lrst h a b
       let o := (s.sc g h.lit a).toNat
       let x := s.latch g.crew o
       Issues i s g →
        (s.latchRange g o = true → exec i s = .next (s.traps i g 21)) ∧
        (s.latchRange g o = false → latchValid x = false → exec i s = .next (s.traps i g 22)) ∧
        (s.latchRange g o = false → latchValid x = true → 2 ^ 20 ≤ (s.sc g h.lit b).toNat → exec i s = .next (s.traps i g 24))) ∧
      (let i := Instr.lwait h d a b
       let o := (s.sc g h.lit a).toNat
       let p := (s.sc g h.lit b).toNat % 16
       let x := s.latch g.crew o
       Issues i s g →
        (s.latchRange g o = true → exec i s = .next (s.traps i g 21)) ∧
        (s.latchRange g o = false → latchValid x = false → exec i s = .next (s.traps i g 22)) ∧
        (s.latchRange g o = false → latchValid x = true → latchPhase x = p → exec i s = .next (s.waitsLatch g o p))) ∧
      (let i := Instr.pwait h nt d a b c
       let o := (s.sc g h.lit b).toNat
       let till := (s.sc g h.lit a).toNat
       let p := (s.sc g h.lit c).toNat % 16
       let x := s.latch g.crew o
       Issues i s g →
        (s.latchRange g o = true → exec i s = .next (s.traps i g 21)) ∧
        (s.latchRange g o = false → s.cyc g.core < till → exec i s = .next (s.waits g (.promise till))) ∧
        (s.latchRange g o = false → till ≤ s.cyc g.core →
          (latchValid x = false → exec i s = .next (s.traps i g 22)) ∧
          (latchValid x = true → latchPhase x = p →
            ((nt = true ∨ g.pwaitNt = true) → exec i s = .next ((s.countAt g.place .promiseLateCount).waitsLatch g o p)) ∧
            (nt = false → g.pwaitNt = false →
              exec i s = .next (s.takeStop (g.issuedAt (shape i) (s.cyc g.core)) 29 0 (BitVec.ofNat 64 till) (g.active (shape i)) [] g.pc (g.next (shape i))))))))

/-- R286: CBAR and GBAR arrive: the count rises by one, the gang waits past the instruction, and the phase completes when all have arrived.
R286: a count operand that is not the barrier's raises BARRIER_MISMATCH (CAUSE 26); GBAR in a launch that is not co-scheduled raises CAUSE 27, in one that is
not FREE ISOLATION (CAUSE 12); that GBAR's three traps rank in this order is the model's reading (log 41).
R286: the last arrival at either barrier completes the phase: the phase number rises, the count starts again, and every gang that waited on the old phase is
ready; before it neither barrier changes. -/
def Obligations.BarrierRows : Prop :=
  (∀ (s : State) (g : Gang) (h : SH) (a : Sc), g.isHandler = false →
      (let i := Instr.cbar h a
       ∀ c, Issues i s g → s.crew? g.crew = some c → ((s.sc g h.lit a).toNat = 0 ∨ (s.sc g h.lit a).toNat = c.live) →
        exec i s = .next (((s.putGang { g.advance (shape i) (s.cyc g.core) (g.next (shape i)) with
            stat := .waiting (.crewBarrier c.bar.phase) }).putCrew g.crew { c with bar := { c.bar with arrived := c.bar.arrived + 1 } }).crewBarCheck g.crew)) ∧
      (let i := Instr.cbar h a
       ∀ c, Issues i s g → s.crew? g.crew = some c → (s.sc g h.lit a).toNat ≠ 0 → (s.sc g h.lit a).toNat ≠ c.live → exec i s = .next (s.traps i g 26)) ∧
      (let i := Instr.gbar h a
       let n := (s.sc g h.lit a).toNat
       ∀ l, Issues i s g → s.launch? g.launch = some l →
        (n ≠ 0 → n ≠ s.launchReload g.launch → exec i s = .next (s.traps i g 26)) ∧
        ((n = 0 ∨ n = s.launchReload g.launch) → l.pkt.cosched = false → exec i s = .next (s.traps i g 27)) ∧
        ((n = 0 ∨ n = s.launchReload g.launch) → l.pkt.cosched = true → l.pkt.mode ≠ 0 → exec i s = .next (s.traps i g 12))) ∧
      (let i := Instr.gbar h a
       ∀ l, Issues i s g → s.launch? g.launch = some l →
        ((s.sc g h.lit a).toNat = 0 ∨ (s.sc g h.lit a).toNat = s.launchReload g.launch) → l.pkt.cosched = true → l.pkt.mode = 0 →
        exec i s = .next (((s.putGang { g.advance (shape i) (s.cyc g.core) (g.next (shape i)) with
            stat := .waiting (.launchBarrier l.bar.phase) }).putLaunch g.launch
              { l with bar := { l.bar with arrived := l.bar.arrived + 1 } }).launchBarCheck g.launch))) ∧
  (∀ (s : State) (k : Nat) (c : Crew), s.crew? k = some c → 0 < c.bar.arrived → c.live ≤ c.bar.arrived →
      (s.crewBarCheck k).crew? k = some { c with bar := { phase := c.bar.phase + 1, arrived := 0 } } ∧
      ∀ core slot g, s.gang? core slot = some g →
        (s.crewBarCheck k).gang? core slot =
          some (if g.crew = k ∧ g.stat = .waiting (.crewBarrier c.bar.phase) then { g with stat := .ready, since := s.cyc g.core } else g)) ∧
  (∀ (s : State) (k : Nat) (l : Launch), s.launch? k = some l → 0 < l.bar.arrived → l.pkt.gangCount - l.exited ≤ l.bar.arrived →
      (s.launchBarCheck k).launch? k = some { l with bar := { phase := l.bar.phase + 1, arrived := 0 } } ∧
      ∀ core slot g, s.gang? core slot = some g →
        (s.launchBarCheck k).gang? core slot =
          some (if g.launch = k ∧ g.stat = .waiting (.launchBarrier l.bar.phase) then { g with stat := .ready, since := s.cyc g.core } else g)) ∧
  (∀ (s : State) (k : Nat),
      (∀ c, s.crew? k = some c → c.bar.arrived < c.live → s.crewBarCheck k = s) ∧
      (∀ l, s.launch? k = some l → l.bar.arrived < l.pkt.gangCount - l.exited → s.launchBarCheck k = s))

/-- R376 to R379: in a SPAN launch EVS enters a child for each live active lane and gives its serial, EVC enters a cancellation, EVR reads a field of the
lane's event, EVX sets its status.
R375: an event instruction outside a SPAN launch, the handler slot included, raises ILLEGAL (CAUSE 1). -/
def Obligations.EventRows : Prop :=
  (∀ (s : State) (g : Gang) (h : VH) (prio : BitVec 8) (abs : Bool) (d : BitVec 8) (a b c : VSrc) (f : EvField) (w : Crew) (ev : Nat → LaneEv)
      (kid : Nat → Event), s.modeOf g = 2 → s.crew? g.crew = some w →
      (let i := Instr.evs h prio abs d a b c
       let l := bitsOn (g.acting i)
       Issues i s g → g.counter .ev < 63 → g.CleanIn (g.acting i) (srcRegs .n64 a ++ srcRegs .b32 b ++ srcRegs .n64 c) →
       (∀ j ∈ l, g.laneEv j = some (ev j) ∧ (ev j).ch < 4096 ∧
         evsLane (s.spGet g .span) prio abs (s.pair g h.lit a j) (BitVec.ofNat 16 (s.vsrc g h.lit .b32 b j)) (BitVec.ofNat 64 (s.pair g h.lit c j))
           (Store.get g.now j) (g.keyOf j) (ev j) = some (kid j)) →
       let y := s.countOp g .ev (Shape.vRange d.toNat 2)
       let eff := l.map (fun j => g.effect j 48 (.evs (kid j)))
       s.hasRoom w (effBytes eff) = true →
       let v := l.foldl (fun v j =>
         let v := (v.vSet d.toNat j ((kid j).serial.toNat % 2 ^ 32)).vSet (d.toNat + 1) j ((kid j).serial.toNat / 2 ^ 32)
         { v with evs := Tab.set v.evs j { ev j with ch := (ev j).ch + 1 } }) y.2
       exec i s = .next (s.completes i g (y.1.addEffects g.crew eff).1 v)) ∧
      (let i := Instr.evc h a b
       Issues i s g → g.counter .ev < 63 → g.CleanIn (g.acting i) (srcRegs .n64 a ++ srcRegs .n64 b) →
       let y := s.countOp g .ev []
       let eff := (bitsOn (g.acting i)).map (fun j => g.effect j 32
         (.evc (BitVec.ofNat 64 (s.pair g h.lit a j)) (BitVec.ofNat 64 (s.pair g h.lit b j))))
       s.hasRoom w (effBytes eff) = true → exec i s = .next (s.completes i g (y.1.addEffects g.crew eff).1 y.2)) ∧
      (let i := Instr.evr h f d
       Issues i s g → (∀ j ∈ bitsOn (g.acting i), g.laneEv j = some (ev j)) →
       let y := s.late (g.lanesTo (if f.wide then .n64 else .n32) d.toNat (g.acting i) (fun j => (ev j).field f))
         (Shape.vRange d.toNat (if f.wide then 2 else 1))
       exec i s = .next (s.completes i g y.1 y.2)) ∧
      (let i := Instr.evx h a
       Issues i s g → g.CleanIn (g.acting i) (srcRegs .b32 a) → (∀ j ∈ bitsOn (g.acting i), g.laneEv j = some (ev j)) →
       exec i s = .next (s.completes i g s ((bitsOn (g.acting i)).foldl (fun v j =>
         { v with evs := Tab.set v.evs j { ev j with st := s.vsrc g h.lit .b32 a j % 2 ^ 32 != 0 } }) g)))) ∧
  (∀ (i : Instr) (s : State) (g : Gang), Issues i s g → s.modeOf g ≠ 2 →
      (match i with | .evs _ _ _ _ _ _ _ | .evc _ _ _ | .evr _ _ _ | .evx _ _ => True | _ => False) →
      exec i s = .next (s.takeStop g 1 0 (wordsInfo i) (g.active (shape i)) [] g.pc (g.next (shape i))))

/-- R266: the copy-class register rows write their `k` register.
R267: KBR and KLOOP branch, KEND pays the owed arrival and drains the context, KARV arrives on a latch, KPROM writes a promise. -/
def Obligations.CopyRows : Prop :=
  (∀ (i : Instr) (s : State) (core ix : Nat) (c : CopyCtx) (l : List KSc) (d : BitVec 4) (x : DWord), copyRow c i = some (l, d, x) →
      CopyIssues s core ix c l → exec i s = .next (State.copyNext core ix i s (c.kSet d x))) ∧
  (∀ (s : State) (core ix : Nat) (c : CopyCtx) (h : SH) (st : BitVec 3) (a b : KSc) (d : BitVec 4) (ofs : Word),
      (CopyIssues s core ix c [a] → c.src h.lit a = 0 → exec (.kbr h a ofs) s = .next (State.copyNext core ix (.kbr h a ofs) s c)) ∧
      (CopyIssues s core ix c [a] → c.src h.lit a ≠ 0 →
        exec (.kbr h a ofs) s = .next (s.putCtx core ix { c with pc := c.pc + ofs.signExtend 57 })) ∧
      (CopyIssues s core ix c [.k d] → c.kGet d = 1 → exec (.kloop st d ofs) s = .next (State.copyNext core ix (.kloop st d ofs) s (c.kSet d 0))) ∧
      (CopyIssues s core ix c [.k d] → c.kGet d ≠ 1 →
        exec (.kloop st d ofs) s = .next (s.putCtx core ix { c.kSet d (c.kGet d - 1) with pc := c.pc + ofs.signExtend 57 })) ∧
      (CopyIssues s core ix c [] →
        exec (.kend st) s = .next (State.copyNext core ix (.kend st) (s.payArrival c) { c with owed := false, stat := .draining })) ∧
      (CopyIssues s core ix c [a, b] →
        let o := (c.src h.lit a).toNat
        let n := (c.src h.lit b).toNat
        s.latchOut c.crew o = false → latchValid (s.latch c.crew o) = true → n < 2 ^ 20 → n ≤ latchArrive (s.latch c.crew o) →
        exec (.karv h a b) s = .next (State.copyNext core ix (.karv h a b) (s.updLatch c.crew o { arrive := n }) c)) ∧
      (CopyIssues s core ix c [a, b] →
        let o := (c.src h.lit a).toNat
        o % 8 = 0 → o + 8 ≤ s.scratchOf c.crew →
        exec (.kprom h a b) s = .next (State.copyNext core ix (.kprom h a b)
          (s.scratchWrite c.crew o (clean (leBytes 8 (BitVec.ofNat 64 (s.cyc core) + c.src h.lit b).toNat))) c)))

/-- R252, R253, R268: GSET loads a generator from its descriptor, GSTEP moves it on and gives its address, KLD loads the element it stands at, in scratch or in
global memory. R268: a KLD of global memory whose page does not grant the context's key, that a peer does not answer, or that RESOLVE failed, gives all ones and
counts in the latch. That a descriptor with a nonzero '—' field is not loaded is the model's choice (log 113). -/
def Obligations.GeneratorRowsComplete : Prop :=
  ∀ (s : State) (core ix : Nat) (c : CopyCtx) (h : SH) (st : BitVec 3) (a : KSc) (d : BitVec 4) (g : Gen) (t : Fmt) (x : GenSt),
    (CopyIssues s core ix c [a] →
      let o := (c.src h.lit a).toNat
      o % 8 = 0 → o + 48 ≤ s.scratchOf c.crew → anyBad (s.scratchRead c.crew o 48) = false → genOfDesc (natOf (s.scratchRead c.crew o 48)) = some x →
      exec (.gset h g a) s = .next (State.copyNext core ix (.gset h g a) s (c.setGen g x))) ∧
    (CopyIssues s core ix c [] → c.gen? g = some x →
      exec (.gstep st d g) s = .next (State.copyNext core ix (.gstep st d g) s ((c.setGen g x.step.1).kSet d (BitVec.ofNat 64 x.step.2)))) ∧
    (∀ o : Nat, CopyIssues s core ix c [] → c.gen? g = some x → c.failNext = false → c.rows = [] → s.ctxFar core ix = false → x.here = .scratch o →
      o + (t.or .n64).bytes ≤ s.scratchOf c.crew →
      let l := s.scratchRead c.crew o (t.or .n64).bytes
      let v : DWord := if (t.or .n64).signed then BitVec.ofInt 64 (signedOf (t.or .n64).bits (natOf l)) else BitVec.ofNat 64 (natOf l)
      exec (.kld st t d g) s = .next (State.copyNext core ix (.kld st t d g) s
        { (c.kSet d v (anyBad l)).stepGen g with arrived := [], failNext := false })) ∧
    (∀ va : VAddr, CopyIssues s core ix c [] → c.gen? g = some x → c.rows = [] → s.ctxFar core ix = false → x.here = .global va →
      let n := (t.or .n64).bytes
      let at_ : RowAt := { core := core, ix := ix, c := c, key := c.key, wid := c.wid, pcofs := c.pc.setWidth 32 }
      let gives (u : State) (v : DWord) (bad : Bool) : State :=
        State.copyNext core ix (.kld st t d g) u { (c.kSet d v bad).stepGen g with arrived := [], failNext := false }
      let val (l : List PByte) : DWord :=
        if (t.or .n64).signed then BitVec.ofInt 64 (signedOf (t.or .n64).bits (natOf l)) else BitVec.ofNat 64 (natOf l)
      (c.failNext = false →
        (∀ u l, at_.read s .kld 0 va.toNat n = (u, .data l) → exec (.kld st t d g) s = .next (gives u (val l) (anyBad l))) ∧
        (∀ (leaf : Nat → Leaf) (pa : Nat → Nat),
          (∀ p ∈ piecesOf va.toNat n, s.translate core (s.ctxOf c.launch) p.1 = .leaf (leaf p.1) ∧ (leaf p.1).loc p.1 = .here (pa p.1) ∧
            s.granted core (s.ctxOf c.launch) c.key (leaf p.1).door = true ∧ s.grantWaits core (s.ctxOf c.launch) c.key (leaf p.1).door = false ∧
            s.memReady (pa p.1) = true) →
          c.arrived = [] →
          let l := ((piecesOf va.toNat n).map (fun p => at_.readHere s (pa p.1) p.2)).flatten
          exec (.kld st t d g) s = .next (gives (at_.note s false (piecesOf va.toNat n)) (val l) (anyBad l))) ∧
        (∀ u, at_.read s .kld 0 va.toNat n = (u, .denied) →
          exec (.kld st t d g) s = .next (gives (u.kldLatch c { denied := true }) (BitVec.allOnes 64) false)) ∧
        (∀ u e, at_.read s .kld 0 va.toNat n = (u, .fail e) →
          exec (.kld st t d g) s = .next (gives (u.kldLatch c { failed := true, ecode := 2 }) (BitVec.allOnes 64) false))) ∧
      (c.failNext = true → exec (.kld st t d g) s = .next (gives (s.kldLatch c { failed := true, ecode := 3 }) (BitVec.allOnes 64) false)))

/-- R269, R270, R271: a transfer row of a legal length, to scratch or in FREE mode, adds its sectors to the post's latch and joins the context's rows, and its
generators move on. -/
def Obligations.TransferRowsComplete : Prop :=
  ∀ (i : Instr) (s : State) (core ix : Nat) (c : CopyCtx) (r : XferRow), xferRow s c i = some r → CopyIssues s core ix c r.srcs →
    r.lenOk →
    ((∃ v, r.dst = .global v) ∨ r.versioned ≠ none → ((s.launch? c.launch).map (·.pkt.mode)).getD 0 = 0) →
    (∀ o, c.latch = some o → latchValid (s.latch c.crew o) = true ∧ latchSect (s.latch c.crew o) + rowSectors r.dst r.len < 2 ^ 32 ∧
      latchArrive (s.latch c.crew o) < 2 ^ 20) →
    exec i s = .next (State.copyNext core ix i (s.rowLatch c { add := rowSectors r.dst r.len })
      (r.steps.foldl CopyCtx.stepGen { c with rows := c.rows ++ [r.row c] }))

/-- R394, R395: WRITE stores its data and READ returns what it read, with STATUS 0, or 3 for uncorrectable data; STATUS 1 for a length that breaks R394,
2 for a span that translation does not allow. R402, R403: a command that needs memory, its own or that of a table its translation reads, waits in the mailbox until
it is ready; before a valid image is loaded only the
physical ones are served, without that wait (log 88), and every other command answers 1, which is the model's reading (log 45). -/
def Obligations.MailboxMemoryRows : Prop :=
  ∀ (s : State) (tag caddr haddr : DWord) (irq : Option (BitVec 1)) (ctx : BitVec 4) (a : VAddr) (data : List Byte) (n : Nat), Serves s →
    (let i := Instr.writePhysical tag caddr irq a data
     (lenBad data.length = false → s.image = true → s.anyNotReady [(a.toNat, data.length)] = true → exec i s = .next { s with mbox := [i] }) ∧
     (lenBad data.length = true → exec i s = .next (s.completion tag caddr irq 1)) ∧
     (lenBad data.length = false → (s.image = false ∨ s.anyNotReady [(a.toNat, data.length)] = false) →
      exec i s = .next ((s.hostWrite [(a.toNat, data.length)] data).completion tag caddr irq 0))) ∧
    (let i := Instr.readPhysical tag caddr irq a n haddr
     (lenBad n = false → s.image = true → s.anyNotReady [(a.toNat, n)] = true → exec i s = .next { s with mbox := [i] }) ∧
     (lenBad n = true → exec i s = .next (s.completion tag caddr irq 1)) ∧
     (lenBad n = false → (s.image = false ∨ s.anyNotReady [(a.toNat, n)] = false) →
      let d := s.hostRead [(a.toNat, n)]
      exec i s = .next ((s.tell (.data haddr (rawBytes d))).completion tag caddr irq (if anyBad d then 3 else 0)))) ∧
    (let i := Instr.writeVirtual tag caddr irq ctx a data
     (s.image = false → exec i s = .next (s.completion tag caddr irq 1)) ∧
     (s.image = true →
      (lenBad data.length = true → exec i s = .next (s.completion tag caddr irq 1)) ∧
      (lenBad data.length = false → s.hostWaits ctx.toNat a.toNat data.length = true → exec i s = .next { s with mbox := [i] }) ∧
      (∀ l, lenBad data.length = false → s.hostPieces ctx.toNat a.toNat data.length true = some l → s.anyNotReady l = true →
        exec i s = .next { s with mbox := [i] }) ∧
      (lenBad data.length = false → s.hostWaits ctx.toNat a.toNat data.length = false →
        (s.hostPieces ctx.toNat a.toNat data.length true = none → exec i s = .next (s.completion tag caddr irq 2)) ∧
        (∀ l, s.hostPieces ctx.toNat a.toNat data.length true = some l → s.anyNotReady l = false →
          exec i s = .next ((s.hostWrite l data).completion tag caddr irq 0))))) ∧
    (let i := Instr.readVirtual tag caddr irq ctx a n haddr
     (s.image = false → exec i s = .next (s.completion tag caddr irq 1)) ∧
     (s.image = true →
      (lenBad n = true → exec i s = .next (s.completion tag caddr irq 1)) ∧
      (lenBad n = false → s.hostWaits ctx.toNat a.toNat n = true → exec i s = .next { s with mbox := [i] }) ∧
      (∀ l, lenBad n = false → s.hostPieces ctx.toNat a.toNat n false = some l → s.anyNotReady l = true → exec i s = .next { s with mbox := [i] }) ∧
      (lenBad n = false → s.hostWaits ctx.toNat a.toNat n = false →
        (s.hostPieces ctx.toNat a.toNat n false = none → exec i s = .next (s.completion tag caddr irq 2)) ∧
        (∀ l, s.hostPieces ctx.toNat a.toNat n false = some l → s.anyNotReady l = false →
          let d := s.hostRead l
          exec i s = .next ((s.tell (.data haddr (rawBytes d))).completion tag caddr irq (if anyBad d then 3 else 0))))))

/-- R395, R396, R321, R215, R218, R333: the other mailbox commands complete: register accesses, KICK, GRANT_SYNC, both RESOLVEs, PREEMPT. -/
def Obligations.MailboxControlRows : Prop :=
  ∀ (s : State) (tag caddr haddr : DWord) (irq : Option (BitVec 1)) (ctx : BitVec 4) (v : VAddr) (x y : DWord) (q : BitVec 6) (core : BitVec 9) (agent : BitVec 7),
    Serves s → s.image = true →
    (∀ t, s.regWrite ctx.toNat v.toNat x = some t →
      exec (.writeRegister tag caddr irq ctx v x) s = .next (t.completion tag caddr irq 0)) ∧
    (s.regWrite ctx.toNat v.toNat x = none → exec (.writeRegister tag caddr irq ctx v x) s = .next (s.completion tag caddr irq 1)) ∧
    (regKind v.toNat ≠ none → exec (.readRegister tag caddr irq ctx v haddr) s =
      .next ((s.tell (.data haddr (leBytes 8 (s.ctxReg ctx.toNat v.toNat).toNat))).completion tag caddr irq 0)) ∧
    (regKind v.toNat = none → exec (.readRegister tag caddr irq ctx v haddr) s = .next (s.completion tag caddr irq 1)) ∧
    (s.memReady (s.qaddr q.toNat) = true →
      exec (.kick tag caddr irq q v) s = .next ((s.kick q.toNat (v.setWidth 64) none).completion tag caddr irq 0)) ∧
    (∃ t : State, exec (.grantSync tag caddr irq ctx) s = .next (t.completion tag caddr irq 0) ∧ t.grants = [] ∧ (∀ e ∈ t.tlb, e.ctx ≠ ctx.toNat) ∧
      ∀ e ∈ s.tlb, e.ctx ≠ ctx.toNat → e ∈ t.tlb) ∧
    exec (.resolveReplay tag caddr irq core agent) s = .next ((s.resolve core.toNat agent.toNat false).completion tag caddr irq 0) ∧
    exec (.resolveFail tag caddr irq core agent) s = .next ((s.resolve core.toNat agent.toNat true).completion tag caddr irq 0) ∧
    (s.busyPre = false → exec (.preempt tag caddr irq x y) s = .next (({ s with pre0 := x }.preemptWrite y).completion tag caddr irq 0)) ∧
    (s.busyPre = true → exec (.preempt tag caddr irq x y) s = .next (({ s with pre0 := x }.count .preemptRejected).completion tag caddr irq 4))

/-- R396: a write that reaches a context register: bases are physical addresses on 4 KiB, logarithms at most 24, fields of their width, a write of ones
clears, what is read-only stays; a value that breaks its rule, or an offset outside the table, changes nothing. No other register changes. -/
def Obligations.ContextRegisterWrites : Prop :=
  ∀ (s : State) (ctx : BitVec 4) (ofs : BitVec 8) (v : DWord), s.fatal = none →
    let old := s.ctxReg ctx.toNat ofs.toNat
    let becomes (x : DWord) : Prop := ∃ t, exec (.registerWrite ctx ofs v) s = .next t ∧ t.ctxReg ctx.toNat ofs.toNat = x ∧
      (∀ c o : Nat, c * 32 + o / 8 ≠ ctx.toNat * 32 + ofs.toNat / 8 → t.ctxReg c o = s.ctxReg c o) ∧ t.mem = s.mem ∧ t.gangs = s.gangs
    let stays : Prop := exec (.registerWrite ctx ofs v) s = .next s
    (ofs.toNat ∈ [0x00, 0x08, 0x18, 0x58, 0x80] → if v.toNat < 2 ^ 57 ∧ v.toNat % 4096 = 0 then becomes v else stays) ∧
    (ofs.toNat ∈ [0x10, 0x20, 0x60, 0x88] → if v.toNat ≤ 24 then becomes v else stays) ∧
    (ofs.toNat ∈ [0x30, 0x48, 0x70, 0x98] → if v.toNat < 2 ^ 32 then becomes v else stays) ∧
    (ofs.toNat = 0x40 → if v.toNat < 2 ^ 57 then becomes v else stays) ∧
    (ofs.toNat = 0x50 → if v.toNat < 2 then becomes v else stays) ∧
    (ofs.toNat ∈ [0x38, 0x78] → becomes (old &&& ~~~ v)) ∧
    (ofs.toNat ∈ [0x28, 0x68, 0x90] → becomes old) ∧
    (ofs.toNat ∉ [0x00, 0x08, 0x10, 0x18, 0x20, 0x28, 0x30, 0x38, 0x40, 0x48, 0x50, 0x58, 0x60, 0x68, 0x70, 0x78, 0x80, 0x88, 0x90, 0x98] → stays)

/-- R321, R322: a kick moves WIDX when its value is in the window, else it is counted; a peer's kick needs an access-control entry, which is recorded.
R402: a kick waits for the memory of its descriptor. R320: a queue that has just been put into service starts its numbers at 0 first.
R333, R334: a pre-emption request runs when none does; of one that meets another the write of word 1 is ignored and counted, and the write of word 0 stands.
That each request is both words, with word 0 the queue and the sequence, or zero, is the model's form (log 87). -/
def Obligations.KickAndPreemptRows : Prop :=
  ∀ (s : State) (q peer : BitVec 6) (w : DWord) (seq : BitVec 48) (n : BitVec 10) (core : BitVec 9), s.fatal = none →
    let r := s.restartQ q.toNat
    let fits : Prop := w.toNat < 2 ^ 48 ∧ r.qEn q.toNat = true ∧ r.qWidx q.toNat ≤ w.toNat ∧ w.toNat ≤ r.qDone q.toNat + r.qLen q.toNat
    let moved := r.setQ q.toNat 24 w.toNat
    (s.qFresh.getLsbD q.toNat = false → r = s) ∧
    (s.memReady (s.qaddr q.toNat) = true →
      (fits → exec (.kickWrite q w) s = .next moved) ∧
      (¬ fits → exec (.kickWrite q w) s = .next (r.count .kickRejected)) ∧
      (∀ e, s.aclFor peer q = some e →
        (fits → exec (.peerKick peer q w) s = .next
          { moved with kicks := r.kicks ++ [{ q := q.toNat, lo := r.qWidx q.toNat, hi := w.toNat, entry := e }] }) ∧
        (¬ fits → exec (.peerKick peer q w) s = .next (r.count .kickRejected)))) ∧
    (s.memReady (s.qaddr q.toNat) = false →
      exec (.kickWrite q w) s = .next { s with kicksHeld := s.kicksHeld ++ [(q.toNat, w, none)] } ∧
      ∀ e, s.aclFor peer q = some e → exec (.peerKick peer q w) s = .next { s with kicksHeld := s.kicksHeld ++ [(q.toNat, w, some e)] }) ∧
    (s.aclFor peer q = none → exec (.peerKick peer q w) s = .next (s.count .kickRejected)) ∧
    (s.busyPre = false →
      let v1 := ({ s with pre0 := 0 }.preStart 1 core.toNat 0).vacateCore core.toNat
      let r1 := ({ s with pre0 := 0 }.preStart 3 core.toNat 0).reopenCore core.toNat
      exec (.preemptVacateLaunch q seq n) s =
        .next (({ s with pre0 := 0#10 ++ q ++ seq }.preStart 0 0 n.toNat).vacateLaunch q.toNat seq.toNat n.toNat).preDone ∧
      exec (.preemptVacateCore core) s = .next v1.preDone ∧
      exec (.preemptReopenLaunch q seq) s = .next (({ s with pre0 := 0#10 ++ q ++ seq }.preStart 2 0 0).reopenLaunch q.toNat seq.toNat).preDone ∧
      exec (.preemptReopenCore core) s = .next r1.preDone ∧
      (v1.core core.toNat).closed = true ∧ (r1.core core.toNat).closed = false ∧
      ∀ k c, s.crew? k = some c → c.core = core.toNat → (c.stat = .running ∨ (c.stat = .retired ∧ c.freed = false)) → k ∈ v1.preCrews) ∧
    (s.busyPre = true →
      (∀ i ∈ [Instr.preemptVacateLaunch q seq n, .preemptReopenLaunch q seq],
        exec i s = .next ({ s with pre0 := 0#10 ++ q ++ seq }.count .preemptRejected)) ∧
      (∀ i ∈ [Instr.preemptVacateCore core, .preemptReopenCore core], exec i s = .next ({ s with pre0 := 0 }.count .preemptRejected)))

/-- R246, R397, R398: the owner performs a peer's access under context 0's tables, a write only when the requester's tag is the leaf's and the leaf may be
written, and answers with the leaf's tag; one that meets no leaf here fails, and one whose memory is not ready is kept in order (R402). The requester checks a
read with the owner's tag, that of a refetch too (R162), but no commit's look at a version (R88, R380), and takes a write that was not performed for a denial.
A read of what a row is to write, or of the part of a buffered atomic or XRND with `.clr`, stands only under the tag that the requester's own leaf has (R246, log 83).
R355, R397, R399: an access not answered within 2^24 cycles, refused, or whose last port goes down fails; a write's failure is noted at its gang, if that still
runs, and the gang stops with IMPRECISE (CAUSE 34) and the write's PC before its next instruction; a port that rejoins carries traffic again; a retry changes
nothing. The model's readings: poison crosses the link with the data (log 34), an XRND's W is a read's (log 27), the stop reports that instruction's active mask
(log 30), each failed write has a stop of its own, the oldest first (log 96), and none stands before an instruction that a peer has performed a part of
(log 105). -/
def Obligations.FarRows : Prop :=
  (∀ (s : State) (peer : BitVec 6) (ctx : BitVec 4) (princ : Word) (va : VAddr) (tag : BitVec 20) (op : FarOp), s.fatal = none → s.farBehind peer va = false →
      let i := Instr.farAccess { peer := peer, ctx := ctx, princ := princ } va tag op
      let failed : FarAns := { peer := peer, failed := true, ok := false, tag := 0, data := [] }
      (∀ n, s.translate Config.engineCore 0 va.toNat = .fault n → exec i s = .next (s.answer failed)) ∧
      (∀ l, s.translate Config.engineCore 0 va.toNat = .leaf l →
        (l.far = true → exec i s = .next (s.answer failed)) ∧
        (∀ pa, l.loc va.toNat = .here pa → s.memReady pa = false → exec i s = .next { s with farIn := s.farIn ++ [i] }) ∧
        (∀ pa, l.loc va.toNat = .here pa → s.memReady pa = true →
          (farKind op = true → l.w = false → exec i s = .next (s.answer failed)) ∧
          ((farKind op = true → l.w = true) → farWrites op = true → l.door ≠ tag →
            exec i s = .next (s.answer { peer := peer, failed := false, ok := false, tag := l.door, data := [] })) ∧
          ((farKind op = true → l.w = true) → (farWrites op = true → l.door = tag) → ∀ t d, s.farPerform peer pa op = (t, d) →
            exec i s = .next (t.answer { peer := peer, failed := false, ok := true, tag := l.door, data := rawBytes d, bad := d.map (·.2) })))) ∧
      ∀ pa, (∀ n, s.farPerform peer pa (.load n) = (s, s.physRead pa n)) ∧
        ∀ d bad, s.onKickPage pa = false → s.farPerform peer pa (.store d bad) = (s.plainWrite pa (d.zip (bad ++ List.replicate d.length false)), [])) ∧
  (∀ (s : State) (id : Nat) (ok : Bool) (tag : BitVec 20) (data : List PByte), s.fatal = none →
      let i := Instr.farResponse id ok tag data
      (s.far.find? (fun r => r.id == id && s.departed r) = none → exec i s = .next s) ∧
      ∀ f, s.far.find? (fun r => r.id == id && s.departed r) = some f → s.answerWaits f tag = false →
        let t := s.dropFar id
        let noted := if f.checked then f.keys.foldl (fun s k => s.noteGrant f.what.core f.ctx k.key tag) t else t
        let stands : Prop := if f.probes = true then tag = f.tag else if f.looks = true then True else if farWrites f.op = true then ok = true else t.deniedKeys f tag = []
        (stands → exec i s = .next (noted.handOver f (some (rawBytes data)) false (data.map (·.2)))) ∧
        (¬ stands → exec i s = .next ((noted.denyFar f tag).handOver f none false)) ∧
        (f.looks = false → f.probes = false → farWrites f.op = false →
          (t.deniedKeys f tag = [] ↔ ∀ k ∈ f.keys, t.granted f.what.core f.ctx k.key tag = true))) ∧
  (∀ (s : State) (id : Nat) (f : FarReq) (port : BitVec 6) (p : Port), s.fatal = none →
      (s.far.find? (fun r => r.id == id && s.departed r) = none → exec (.farTimeout id) s = .next s ∧ exec (.farRefused id) s = .next s) ∧
      (s.far.find? (fun r => r.id == id && s.departed r) = some f →
        (f.sent + 2 ^ 24 ≤ s.cyc f.what.core → exec (.farTimeout id) s = .next (s.failFar f)) ∧
        (s.cyc f.what.core < f.sent + 2 ^ 24 → exec (.farTimeout id) s = .next s) ∧
        exec (.farRefused id) s = .next (s.failFar f)) ∧
      (∀ core slot lane pc wid launch op g, f.what = .write core slot lane pc wid launch op → s.gang? core slot = some g → g.launch = launch →
        g.stat = .ready → g.ops.any (fun o => o.id == op) = true → gkey g.core g.slot = gkey core slot →
        (s.failFar f).gang? core slot = some { g with failed := g.failed ++ [pc] }) ∧
      exec (.flitRetry port) s = .next s ∧
      (Tab.get? s.ports port.toNat = none → exec (.dvorlekPortDown port) s = .next s ∧ exec (.dvorlekPortRejoin port) s = .next s) ∧
      (Tab.get? s.ports port.toNat = some p →
        let t := { s with ports := Tab.set s.ports port.toNat { p with up := false } }
        (t.reachable p.peer = true → exec (.dvorlekPortDown port) s = .next t) ∧
        (t.reachable p.peer = false →
          exec (.dvorlekPortDown port) s = .next ((s.far.filter (fun r => r.peer == p.peer)).foldl State.failFar t)) ∧
        exec (.dvorlekPortRejoin port) s = .next { s with ports := Tab.set s.ports port.toNat { p with up := true } })) ∧
  (∀ (i : Instr) (s : State) (g : Gang) (pc : VAddr) (l : List VAddr), isCode i = true → (shape i).opc.toNat < 0x78 → s.cur = some (.gang g.core g.slot) →
      s.gang? g.core g.slot = some g → s.mayIssue g = true → g.notBefore ≤ s.cyc g.core → g.failed = pc :: l →
      (g.arrived ≠ [] → ∀ act next, s.imprecise g act next = none) ∧ (g.arrived = [] →
      exec i s = .next (s.takeStop { g with failed := l } 34 0 (pc.setWidth 64) (g.active (shape i)) [] g.pc (g.next (shape i)))))

/-- R325 to R327: a LAUNCH packet that keeps every rule enters its launch and RIDX moves on, a SPAN packet with its seeds, once its engine is ready (R366, R367,
R402); one that breaks a rule, or that a peer's entry does not allow (R322), completes at once with STATUS 3 or 5, a packet that does both with 3 (the model's
choice, log 44), as does a SPAN packet with a nonzero '—' field in its descriptor (the model's choice, log 113) or whose descriptor or seeds cannot be read (its
reading, log 43); a MARKER completes with 1, or with 3 when it waits on itself. A launch with nothing left completes with 1, 2 after fault records, 4 after
an overflow. R320: a queue just put into service starts its numbers at 0 before it is looked at. -/
def Obligations.QueueRows : Prop :=
  (∀ (s : State) (q : BitVec 6) (x a : Nat), TakesUp s q x a →
    let seq := s.qRidx q.toNat
    let words : List DWord := (List.range 8).map (fun k => BitVec.ofNat 64 (a / 2 ^ (64 * k)))
    let p := packetOf x words
    let span : Prop := bitField (pktField x 1 1) 1 0 = 2
    (pktKind x = 0 → ¬ span → packetBad x q.toNat seq p = false → s.aclDenied q.toNat seq p = false →
      exec (.takeUp q) s = .next (s.enter q.toNat seq p none).1) ∧
    (pktKind x = 0 → span → s.readyBits.getLsbD 21 = true → packetBad x q.toNat seq p = false → s.aclDenied q.toNat seq p = false →
      (∀ d l, s.spanDesc p.store = some d → descBad d = false → s.seeds d = some l →
        exec (.takeUp q) s = .next ((s.clearDesc p.store).enter q.toNat seq p (some { pend := l })).1) ∧
      (∀ d, s.spanDesc p.store = some d → (descBad d = true ∨ s.seeds d = none) → exec (.takeUp q) s = .next (s.enterDone q.toNat seq p 3))) ∧
    (pktKind x = 0 → span → s.readyBits.getLsbD 21 = false → exec (.takeUp q) s = .next s) ∧
    (pktKind x ≠ 1 → (span → s.readyBits.getLsbD 21 = true) → packetBad x q.toNat seq p = true → exec (.takeUp q) s = .next (s.enterDone q.toNat seq p 3)) ∧
    (pktKind x ≠ 1 → (span → s.readyBits.getLsbD 21 = true) → packetBad x q.toNat seq p = false → s.aclDenied q.toNat seq p = true →
      exec (.takeUp q) s = .next (s.enterDone q.toNat seq p 5)) ∧
    (pktKind x = 1 → exec (.takeUp q) s =
      .next (s.enterDone q.toNat seq { packetOf x [] with part := 0 } (if selfWait x q.toNat seq = true then 3 else 1)))) ∧
  (∀ (s : State) (q : BitVec 6), s.fatal = none → s.memReady (s.qaddr q.toNat) = true → exec (.takeUp q) s = exec (.takeUp q) (s.restartQ q.toNat)) ∧
  (∀ (s : State) (k : Nat) (l : Launch), s.fatal = none → s.launch? k = some l → l.done = false → s.memReady (s.qaddr l.q) = true →
    s.memReady (s.qaddr l.q + 63) = true → s.anyNotReady [(s.qStat l.q, 8)] = false → (l.span.isSome = true → s.anyNotReady [(l.pkt.store, 128)] = false) →
    s.launchOver k l = true →
    exec (.launchComplete k) s = .next ((s.clearLaunch k).finishLaunch k (if l.overflow then 4 else if l.records then 2 else 1)))

/-- Crews. R74: a core fits a crew when it has the slots, the blocks, the bytes, the pane and the lease, and nothing else keeps it out.
R329: pre-empted crews go first; then, of the launches that can be admitted and are not shut out, the one of least PRIO, the earliest taken up of equals;
a band that has waited 2^20 cycles blocks, and while a launch is shut out nothing of it is admitted; that re-queued crews count as pending for it, and go before the next
band, is the model's choice (log 119). R12, R74: the crews of a band go to one cluster, the first
in rising order in which it fits, which is the model's choice (log 66, and for re-queued crews log 91).
R84, R92, R163: a crew that has ended gives back its tiles and planes, and its scratch at once in a FREE launch, else, when it cannot commit yet, as its effects move to
the log that has the space for them; no MMUL of a crew streams any more when it retires (R184). That the bytes of the log change then and only then is the model's
choice (R77, log 121).
R303: a PHASED crew whose versions hold commits its effects in order; that one on a page with ORD = 1 waits for every such effect of the launch that a peer has not
answered, and what comes after it with it, is the model's choice (log 111). R335: a saved crew keeps its registers, scratch, effects, tiles, planes, barriers and
copy contexts; that a commit and a save read the crew's rows first where a bank is marked failed, and which, is the model's choice (R107, log 94); it comes back with its whole band in one cluster, register for register. -/
def Obligations.CrewRows : Prop :=
  ∀ (s : State) (k : Nat), s.fatal = none →
    (∀ (p : Packet) (blocks core : Nat), s.fits k p blocks core = true ↔
      ((s.core core).closed = false ∧ (∀ l, s.launch? k = some l → core ∉ l.closed) ∧ s.readyBits.getLsbD (13 + core / 64) = true ∧
        s.restoreWaits core = false ∧ (∀ w, (s.core core).part = some w → w = p.part) ∧ p.slots ≤ (s.freeSlots core).length ∧
        s.usedBlocks core + blocks ≤ 32 * p.reg ∧ s.usedBytes core + p.bytes ≤ 65536 * p.scr ∧ (p.acc = 0 ∨ s.paneHeld core = false) ∧
        ((s.lease? core k).isSome = true ∨ s.leasedSlots core + p.tlease ≤ 512) ∧ (p.rns = true → chanMode (s.core core).en ≠ 3))) ∧
    (∀ l a b, s.canRestore = false → s.launches = a ++ (k, l) :: b → s.launch? k = some l → s.shutOut k l = false →
      (∀ x ∈ a, l.pkt.prio < x.2.pkt.prio ∨ s.shutOut x.1 x.2 = true ∨ s.admitNext x.1 = none) →
      (∀ x ∈ b, l.pkt.prio ≤ x.2.pkt.prio ∨ s.shutOut x.1 x.2 = true ∨ s.admitNext x.1 = none) →
      (∀ t, s.admitNext k = some t → exec .admitBand s = .next t) ∧
      (l.done = false → l.overflow = false → l.pkt.mode ≠ 2 → l.pkt.cosched = false → s.requeued k = [] → l.nextBand < l.pkt.bandCount →
        ∀ cluster u, cluster < 8 → (∀ c < cluster, s.placeBand k l.pkt l.nextBand c = none) → s.placeBand k l.pkt l.nextBand cluster = some u →
        ∃ t, exec .admitBand s = .next t ∧ t.launch? k = some { l with nextBand := l.nextBand + 1, pendingSince := s.clock, blocking := false } ∧
          t.mem = s.mem ∧ ∀ i < l.pkt.band, ∃ c, t.crew? (s.nextCrew + i) = some c ∧ c.stat = .running ∧ c.launch = k ∧ c.band = l.nextBand ∧
            c.inBand = i ∧ c.live = l.pkt.crew ∧ c.core / 64 = cluster)) ∧
    (s.canRestore = true → exec .admitBand s = .next s) ∧
    ((∀ x ∈ s.launches, s.shutOut x.1 x.2 = true) → exec .admitBand s = .next s) ∧
    (∃ t, exec .bandBlocking s = .next t ∧ t.gangs = s.gangs ∧ t.mem = s.mem ∧
      ∀ l, s.launch? k = some l → l.done = false → l.overflow = false →
        ((l.pkt.mode ≠ 2 ∧ l.nextBand < l.pkt.bandCount ∧ l.pendingSince + 2 ^ 20 ≤ s.clock) ∨ (∃ x ∈ s.requeued k, x.2.queuedAt + 2 ^ 20 ≤ s.clock)) →
        t.launch? k = some { l with blocking := true }) ∧
    (∀ c, s.crew? k = some c → c.stat = .running → c.live = 0 → c.afterLowest = false → s.ctxs.any (fun x => x.2.crew == k) = false →
      (s.core c.core).streams.any (fun x => x.crew == k) = false →
      let mode := ((s.launch? c.launch).map (·.pkt.mode)).getD 0
      (mode ≠ 0 → s.crewGangs k = []) →
      ∃ t, exec (.crewRetire k) s = .next t ∧ t.gangs = s.gangs ∧
        (mode = 0 → t.mem = s.mem ∧ t.crew? k = some { c with stat := .committed, freed := true, scratch := {}, tiles := [], planes := [] }) ∧
        (∀ l, s.launch? c.launch = some l → mode ≠ 0 →
          let e := effBytes c.effects
          let d : Crew := { c with stat := .retired, tiles := [], planes := [] }
          let next : Prop :=
            if mode = 1 then (s.uncommitted c.launch).head? = some k
            else ∀ n ∈ s.uncommitted c.launch, n = k ∨ ∃ x, s.crew? n = some x ∧ x.stat = .retired
          let region := (s.hostPieces (l.q / 4) l.pkt.logbase l.pkt.loglen true).getD []
          (next ∨ l.pkt.loglen < s.logUsed c.launch - c.inLog + e → t.crew? k = some d ∧ (c.inLog = 0 → t.mem = s.mem)) ∧
          (¬ next → s.logUsed c.launch - c.inLog + e ≤ l.pkt.loglen → ∃ f, t.crew? k = some { d with effects := f, inLog := e, freed := true, scratch := {} } ∧
            effBytes f = e ∧ (s.poolsWhole = true → f = c.effects)) ∧
          (s.poolsWhole = true → ∀ a, (∀ p ∈ region, a < p.1 ∨ p.1 + p.2 ≤ a) → Store.get t.mem a = Store.get s.mem a))) ∧
    (∀ l n c, s.launch? k = some l → l.pkt.mode = 1 → (s.uncommitted k).head? = some n → s.crew? n = some c → c.stat = .retired →
      s.preCrews.contains n = false → c.effects.all s.effReady = true →
      (c.applied = none → s.askVersions k (numbered c.effects) = s → s.checkVersions k (numbered c.effects) = .good →
        let u := (s.endChecks k).readEffects n (fun _ => true)
        exec (.crewCommit k) s = .next (u.commitCrew k n ((u.crew? n).getD c)) ∧ (s.poolsWhole = true → u = s.endChecks k)) ∧
      (c.applied ≠ none → exec (.crewCommit k) s = .next (s.commitCrew k n c))) ∧
    (∀ (c : Crew) (n : Nat), c.applied.getD 0 ≤ c.effects.length →
      ∃ m, c.applied.getD 0 ≤ m ∧ m ≤ c.effects.length ∧
        let t := ((c.effects.take m).drop (c.applied.getD 0)).foldl (fun t x => t.applyEff k c.entry (c.rc != 0) x) s
        (m < c.effects.length → (∃ x, c.effects[m]? = some x ∧ t.commitWaits k x = true) ∧ s.commitCrew k n c = t.putCrew n { c with applied := some m }) ∧
        (m = c.effects.length → s.commitCrew k n c =
          (((t.putCrew n { c with stat := .committed, effects := [], applied := none, inLog := 0, scratch := {}, freed := true }).releaseHeld
            k).settle c.core).wakeCommitted)) ∧
    (∀ x, s.commitWaits k x = true ↔ (x.ord = true ∧ ∃ f ∈ s.far, f.ord = true ∧ f.what.commitOf = some k)) ∧
    (∀ c, s.crew? k = some c → s.preCrews.contains k = true → s.quiet k = true → s.poolsWhole = false →
      let u := s.readCrew k c.core
      let v := u.saveCrew k ((u.crew? k).getD c)
      exec (.crewSaveComplete k) s = .next ({ v with preCrews := v.preCrews.filter (· != k), preSaved := v.preSaved + 1 }.preDone)) ∧
    (∀ c, s.crew? k = some c → c.stat ≠ .retired → s.preCrews.contains k = true → s.quiet k = true → s.poolsWhole = true →
      ∃ t stops, exec (.crewSaveComplete k) s = .next t ∧ t.mem = s.mem ∧ t.preCrews = s.preCrews.filter (· != k) ∧ t.preSaved = s.preSaved + 1 ∧
        t.crew? k = some { c with
          stat := .saved, saved := ((s.crewGangs k).filter (fun g => g.stat != .ended)).map Gang.toSave
          savedCtx := (s.ctxs.filter (fun x => x.2.crew == k)).map (fun x => { x.2 with park := none }), savedStops := stops
          savedSlots := s.imageSlots c.core c.launch } ∧
        (∀ x ∈ (s.core c.core).stops, x.ofGang = true → (∃ g ∈ s.crewGangs k, g.slot = x.agent) → x ∈ stops) ∧
        t.crewGangs k = [] ∧ t.ctxs.any (fun x => x.2.crew == k) = false) ∧
    (∀ g : Gang, g.toSave.s = g.s ∧ g.toSave.v = g.v ∧ g.toSave.m = g.m ∧ g.toSave.b = g.b ∧ g.toSave.pc = g.pc ∧ g.toSave.stack = g.stack ∧
      g.toSave.n = g.n ∧ g.toSave.rmode = g.rmode ∧ g.toSave.dead = g.dead ∧ g.toSave.deny = g.deny ∧ g.toSave.wid = g.wid ∧ g.toSave.key = g.key ∧
      g.toSave.replay = g.replay ∧ g.toSave.arrived = g.arrived) ∧
    (∀ c plan, s.crew? k = some c → c.stat = .saved → s.bandPlan c = some plan → (plan.map (·.1)).Nodup →
      (∀ x ∈ plan, ∀ d, s.crew? x.1 = some d → (s.lease? x.2 d.launch).isSome = true) →
      ∃ t cluster, exec (.crewRestore k) s = .next t ∧ t.mem = s.mem ∧
        ∀ x ∈ plan, x.2 / 64 = cluster ∧ ∃ d v, s.crew? x.1 = some d ∧ t.crew? x.1 = some v ∧ v.core = x.2 ∧ v.stat = .running ∧ v.scratch = d.scratch ∧
          v.effects = d.effects ∧ v.tiles = d.tiles ∧ v.bar = d.bar) ∧
    (∀ (c : Crew) (core slot : Nat) (h : Option Nat) (g : Gang), let v := s.backGang c core slot h g
      v.core = core ∧ v.slot = slot ∧ v.s = g.s ∧ v.v = g.v ∧ v.m = g.m ∧ v.b = g.b ∧ v.pc = g.pc ∧ v.stack = g.stack ∧ v.n = g.n ∧ v.rmode = g.rmode ∧
        v.dead = g.dead ∧ v.deny = g.deny ∧ v.wid = g.wid ∧ v.key = g.key ∧ v.replay = g.replay)

/-- R76, R123 to R125: the oldest request for registers is granted when it fits; when every resident gang waits for registers or at a crew barrier, the
youngest other than the oldest requester is parked, once its writes at peers are performed (R307; that it is no parked gang until then is the model's choice, log 134),
its pending results having ended when it issues again (R57), its context being read where a bank is marked failed (R107, log 94); of the parked gangs that fit, the one parked first comes back, with
nothing pending; that it need not wait for an older request of a resident gang is the model's reading (log 52), as is that a gang that the deadlock rule parked
comes back only when that rule makes room for no request and none is to be granted (log 90). That a resident gang's request is granted while an older gang
still waits to be restored is the model's choice (log 79), as is the lowest slot first of gangs parked in one cycle (log 52). -/
def Obligations.RegisterEngineRows : Prop :=
  ∀ (s : State) (core : BitVec 9) (g : Gang), s.fatal = none →
    (∀ t, eldest (·.age) (s.growers core.toNat) = some g → g.isHandler = false → g.stat = .waiting (.grow t) →
      (∀ o ∈ s.growers g.core, g.age ≤ o.age) → blocksFor t (s.shadowed g.launch) - blocksFor g.n (s.shadowed g.launch) ≤ s.freeBlocks g.core →
      s.gang? g.core g.slot = some g →
      ∃ u, exec (.registerGrant core) s = .next u ∧ u.gang? g.core g.slot = some { g with n := max g.n t, stat := .ready } ∧ u.mem = s.mem ∧
        ∀ c k, gkey c k ≠ gkey g.core g.slot → u.gang? c k = s.gang? c k) ∧
    (∀ old l r, eldest (·.age) (s.growers core.toNat) = some old → old.isHandler = false → (s.unparked core.toNat).all Gang.deadlockWait = true →
      s.canGrow old (old.growTo.getD 0) = false → ((s.unparked core.toNat).filter (fun x => x.slot != old.slot)).reverse = l ++ g :: r →
      (∀ o ∈ l, o.age < g.age) → (∀ o ∈ r, o.age ≤ g.age) →
      let c := s.countAt g.place .rgrowParks
      let p : Park := .deadlock (match g.stat with | .waiting (.crewBarrier p) => some p | _ => none)
      let b : Gang :=
        { g with pend := [], notBefore := g.pend.foldl (fun m x => max m x.readyAt) g.notBefore, token := false, arrived := [], granted := false
                 shadow := g.shadow.map (fun x => { x with token := false, shuttered := false }) }
      (s.farWriteOf g = true → exec (.registerDeadlockPark core) s = .next (c.waits b (.park p []))) ∧
      (s.farWriteOf g = false →
        let y := c.readContext b
        exec (.registerDeadlockPark core) s = .next (y.1.putGang { y.2 with stat := .parked p, parkedAt := y.1.cyc y.2.core }))) ∧
    ((s.core g.core).failedBanks = [] → s.readContext g = (s, g)) ∧
    (∀ h : Gang, s.restorable h = true ↔
      (h.stat = .restoring ∨ ((∃ p, h.stat = .parked (.deadlock p)) ∧ s.stuckOn h.core = none ∧ s.canGrant h.core = false))) ∧
    (∀ h : Gang, s.fitsAgain h = true ↔ blocksFor h.n (s.shadowed h.launch) ≤ s.freeBlocks h.core) ∧
    (eldest (·.parkedAt) ((s.coreGangs core.toNat).filter (fun h => s.restorable h && s.fitsAgain h)) = some g →
      ((g.stat = .restoring ∨ g.stat = .parked (.deadlock none)) →
        exec (.gangRestore core) s = .next (s.putGang { g with pend := [], stat := .ready, since := s.cyc g.core })) ∧
      (∀ p c, g.stat = .parked (.deadlock (some p)) → s.crew? g.crew = some c →
        exec (.gangRestore core) s = .next (s.putGang (if c.bar.phase = p then { g with pend := [], stat := .waiting (.crewBarrier p) }
          else { g with pend := [], stat := .ready, since := s.cyc g.core })))) ∧
    ((s.coreGangs core.toNat).filter (fun h => s.restorable h && s.fitsAgain h) = [] → exec (.gangRestore core) s = .next s)

/-- R183, R185, R356: a token goes to the oldest waiting gang of the next core in turn that holds fewer than two, or to its shadow when that is what waits.
R172, R176, R183: when the oldest stream of a core ends, the activations that its MMUL held may be written, its plane may be loaded, and its token is back in
the pool. R162: a refetched slot holds what its source holds now, clean where that is clean, and its gang goes on. -/
def Obligations.ArrayEngineRows : Prop :=
  ∀ (s : State) (core : BitVec 9) (slot : BitVec 6) (g : Gang) (die : Bool) (n : Nat), s.fatal = none →
    (s.tokensOut die.toNat < s.pool die.toNat →
      let want (c : Nat) : List Gang := (s.shuttered c ++ s.shadowsShuttered c).filter (fun g => !s.preCrews.contains g.crew)
      ((List.range 256).map (fun i => die.toNat * 256 + (s.lastGrant die.toNat + 1 + i) % 256)).find?
        (fun c => !(want c).isEmpty && decide (s.coreHeld c < 2)) = some n → eldest (·.age) (want n) = some g →
      ∃ t, exec (.tokenGrant die) s = .next t ∧ t.lastGrant die.toNat = n % 256 ∧ t.mem = s.mem ∧
        t.gang? g.core g.slot = some (if g.stat = .waiting .token then { g with token := true, stat := .ready, notBefore := s.cyc n + 1 }
          else { g with shadow := g.shadow.map (fun x => { x with token := true, shuttered := false }) })) ∧
    (s.pool die.toNat ≤ s.tokensOut die.toNat → exec (.tokenGrant die) s = .next s) ∧
    ((s.core core.toNat).streams = [] → exec (.mmulStreamEnd core) s = .next s) ∧
    (∀ x r, (s.core core.toNat).streams = x :: r → (∀ h, s.gang? core.toNat x.slot = some h → h.core = core.toNat ∧ h.slot = x.slot) →
      ∃ t, exec (.mmulStreamEnd core) s = .next t ∧ (t.core core.toNat).streams = r ∧ t.mem = s.mem ∧
        t.coreHeld core.toNat + 1 = s.coreHeld core.toNat ∧ t.tokensOut (core.toNat / 256) + 1 = s.tokensOut (core.toNat / 256) ∧
        (∀ v, t.gang? core.toNat x.slot = some v → ∀ b ∈ v.busy, b.id = x.id → b.hold = []) ∧
        (∀ k h, s.gang? core.toNat k = some h → h.core = core.toNat → h.stat = .waiting .plane →
          ∃ v, t.gang? core.toNat k = some v ∧ v.stat = .ready)) ∧
    (s.gang? core.toNat slot.toNat = some g → gkey g.core g.slot = gkey core.toNat slot.toNat → g.stat = .waiting (.refetch n) →
      ((s.slotOf g.core g.launch n).src = none → exec (.transomRefetch core slot) s = .next (s.putGang { g with stat := .ready })) ∧
      (∀ va key at_ l, (s.slotOf g.core g.launch n).src = some (va, key) → s.launch? g.launch = some l → l.checks = [] →
        (∀ f ∈ s.far, ∀ k, f.what ≠ .check g.launch k) → s.Spans g.core (s.ctxOf g.launch) key (piecesOf va.toNat 8228) at_ →
        let bytes := ((piecesOf va.toNat 8228).map (fun p => s.physRead (at_ p.1) p.2)).flatten
        ∃ t, exec (.transomRefetch core slot) s = .next t ∧ t.mem = s.mem ∧ t.gang? core.toNat slot.toNat = some { g with stat := .ready } ∧
          t.slotOf g.core g.launch n = slotOfBytes bytes (if anyBad bytes then none else some (va, key))))

/-- R214, R217, R245, R283, R284, R56: a lookup that misses both lookaside buffers walks, counts and fills them, one that misses a core's own only takes the
entry of its cluster, and one that hits changes nothing; a grant fill takes 64 decisions into a core's cache, and no decision changes by it; a waiting fault
record enters its ring and raises vector 1, on both links (log 74), and that no entry of a buffer or of the cache is ever replaced is the model's choice (log 64); a completed access is done, and a result that arrives frees its dependants. -/
def Obligations.MemoryEngineRows : Prop :=
  ∀ (s : State) (ctx : BitVec 4) (va : VAddr) (key : Word) (n : BitVec 14) (core : BitVec 9) (slot : BitVec 6) (g : Gang) (id : Nat), s.fatal = none →
    (∀ e, s.microTlb core.toNat ctx.toNat va.toNat = some e → exec (.pageWalk { core := core, ctx := ctx } va) s = .next s) ∧
    (∀ e, s.microTlb core.toNat ctx.toNat va.toNat = none → s.l2Tlb core.toNat ctx.toNat va.toNat = some e →
      ∃ t, exec (.pageWalk { core := core, ctx := ctx } va) s = .next t ∧ t.translate core.toNat ctx.toNat va.toNat = .leaf e.leaf ∧ t.ctr = (s.count .utlbMiss).ctr ∧
        t.tlb = s.tlb ++ [{ core := core.toNat, l2 := false, ctx := ctx.toNat, page := va.toNat / pageBytes e.leaf.size, leaf := e.leaf }]) ∧
    (∀ l, s.microTlb core.toNat ctx.toNat va.toNat = none → s.l2Tlb core.toNat ctx.toNat va.toNat = none → s.walk ctx.toNat va.toNat = .leaf l →
      let page := va.toNat / pageBytes l.size
      let home := core.toNat / 64 * 64 + (page % 64 ^^^ page / 64 % 64 ^^^ page / 4096 % 64 ^^^ page / 262144 % 64 ^^^ 21 * l.size % 64) % 64
      ∃ t, exec (.pageWalk { core := core, ctx := ctx } va) s = .next t ∧ t.translate core.toNat ctx.toNat va.toNat = .leaf l ∧
        t.ctr = (((s.count .utlbMiss).count .l2tlbMiss).count .walks).ctr ∧
        t.tlb = s.tlb ++ [{ core := core.toNat, l2 := false, ctx := ctx.toNat, page := page, leaf := l },
          { core := home, l2 := true, ctx := ctx.toNat, page := page, leaf := l }]) ∧
    (∀ r, s.fqPend.find? (fun r => r.ctx == ctx.toNat) = some r → s.ringFull ctx.toNat 0x88 0x90 0x98 = false →
      exec (.faultRecordPost ctx) s =
        .next ((({ s with fqPend := s.fqPend.erase r }.ringPut ctx.toNat 0x80 0x88 0x90 r.bytes).tell (.msi 0 1)).tell (.msi 1 1))) ∧
    ((∀ x ∈ s.grants, ¬ (x.core = core.toNat ∧ x.ctx = ctx.toNat ∧ x.key = key ∧ x.group = n.toNat)) →
      (∀ i < 64, s.grantWaits core.toNat ctx.toNat key (BitVec.ofNat 20 (n.toNat * 64 + i)) = false) →
      ∃ t, exec (.grantFill { core := core, ctx := ctx } key n) s = .next t ∧ t.ctr = (s.count .grantMisses).ctr ∧
        t.grants = s.grants ++ [{ core := core.toNat, ctx := ctx.toNat, key := key, group := n.toNat, bits := s.grantGroup ctx.toNat key n.toNat }] ∧
        ∀ c k y tag, t.granted c k y tag = s.granted c k y tag) ∧
    (s.gang? core.toNat slot.toNat = some g → (∀ o ∈ g.ops, o.id = id → o.cls ≠ .cp) →
      s.far.any (fun f => f.what.isOf core.toNat slot.toNat && f.what.opOf == some id) = false →
      exec (.memoryAccessComplete core slot id) s = .next (s.opDone core.toNat slot.toNat id)) ∧
    (∀ b ∈ g.busy, s.gang? core.toNat slot.toNat = some g → (∀ o ∈ g.ops, o.id ≠ id) → b.id = id → gkey g.core g.slot = gkey core.toNat slot.toNat →
      ∃ t v, exec (.variableLatencyResult core slot id) s = .next t ∧ t.gang? core.toNat slot.toNat = some v ∧
        (∀ b ∈ v.busy, b.id = id → b.refs = []) ∧ (g.stat = .waiting .scoreboard → v.stat = .ready))

/-- R249, R261 to R264: the oldest waiting post is granted a free context; of a context's rows the oldest moves on (the model's reading, log 17: R270 lets rows
that do not overlap become visible in any order), a scratch to scratch row to its end (R107; that it reads its rows first where a bank is marked failed, and
what it has read only once, is the model's choice, log 94); a context that has issued all and whose rows have ended is free and its
post is complete. -/
def Obligations.CopyEngineRows : Prop :=
  ∀ (s : State) (core : BitVec 9) (ix : BitVec 4) (c : CopyCtx) (r : Row) (g : Gang) (l : List Row), s.fatal = none →
    (((s.coreGangs core.toNat).filter (fun g => g.stat == .waiting .context)).find? (fun g =>
        ((s.coreGangs core.toNat).filter (fun g => g.stat == .waiting .context)).all (fun o => decide (g.age ≤ o.age))) = some g →
      ((s.coreGangs core.toNat).filter (·.granted)).length < ((List.range Config.contexts).filter (fun c => (s.ctx? core.toNat c).isNone)).length →
      exec (.copyContextGrant core) s = .next (s.putGang { g with granted := true, stat := .ready })) ∧
    (s.ctx? core.toNat ix.toNat = some c → c.rows = r :: l → c.park = none → s.ctxFar core.toNat ix.toNat = false →
      exec (.copyRowComplete core ix) s = .next (s.runRow core.toNat ix.toNat c r) ∧
      (∀ a b : Nat, r.src = .scratch a → r.dst = .scratch b → r.fail = none → r.versioned = none → a % 4 = 0 → b % 4 = 0 →
        a + r.len ≤ s.scratchOf c.crew → b + r.len ≤ s.scratchOf c.crew →
        (r.read = none →
          let u := s.readRows core.toNat (if s.poolsWhole then [] else scratchRows c.crew [(a, r.len)])
          s.runRow core.toNat ix.toNat c r =
            (u.scratchWrite c.crew b (u.scratchRead c.crew a r.len)).endRow core.toNat ix.toNat c r none false) ∧
        (∀ x, r.read = some (x, false) → s.runRow core.toNat ix.toNat c r = (s.scratchWrite c.crew b x).endRow core.toNat ix.toNat c r none false))) ∧
    (s.ctx? core.toNat ix.toNat = some c → c.stat = .draining → c.rows = [] → s.ctxFar core.toNat ix.toNat = false →
      exec (.copyPostComplete core ix) s = .next ((s.dropCtx core.toNat ix.toNat).opDone core.toNat c.slot c.op))

/-- R101, R280, R282, R331: a sleeper and a PWAIT wake when their cycle has come and not before, a polling LWAIT looks every 64 cycles from the start of its wait,
and their wait ages restart. R357, R358: once the shadow has caught up, a comparison that agrees, in the registers that the model keeps of both too, releases the
held instruction, and one that does not aborts the crew, or stops the gang with SDC_MISMATCH where errors are as in FREE mode, at the instruction at which the
shadow has consumed poison or gone another way when it has. What is compared is the model's choice (log 48), as is where the gang resumes after a mismatch at an
earlier instruction (log 107).
R13, R111, R332, R249, R359: a cycle of a core advances `$cyc` by one and picks at most four gangs, all of them ready with their turn come, and one copy
context; a cluster in a recovery issues nothing. -/
def Obligations.WakeAndSelectRows : Prop :=
  (∀ (s : State) (core : BitVec 9) (slot : BitVec 6) (g : Gang), s.fatal = none → s.gang? core.toNat slot.toNat = some g →
      let anew : Gang := { g with stat := .ready, since := s.cyc g.core }
      (∀ till, g.stat = .sleeping till →
        (till ≤ s.cyc g.core → exec (.sleepWake core slot) s = .next (s.putGang anew)) ∧
        (s.cyc g.core < till → exec (.sleepWake core slot) s = .next s)) ∧
      (∀ till, g.stat = .waiting (.promise till) →
        (till ≤ s.cyc g.core → exec (.pwaitExpiry core slot) s = .next (s.putGang anew)) ∧
        (s.cyc g.core < till → exec (.pwaitExpiry core slot) s = .next s)) ∧
      (∀ o p, g.stat = .waiting (.latchPoll o p) →
        (g.parkedAt < s.cyc g.core → (s.cyc g.core - g.parkedAt) % 64 = 0 →
          let u := s.readLatch g.core g.crew o
          (latchValid (u.latch g.crew o) = false ∨ latchPhase (u.latch g.crew o) ≠ p →
            exec (.latchPoll core slot) s = .next (u.putGang { g with stat := .ready, since := u.cyc g.core })) ∧
          (s.poolsWhole = true → u = s)) ∧
        ((s.cyc g.core - g.parkedAt) % 64 ≠ 0 → exec (.latchPoll core slot) s = .next s)) ∧
      (g.stat = .waiting .shadow →
        (g.caughtUp = false → ∀ same, exec (.shadowCompare core slot same) s = .next s) ∧
        (g.caughtUp = true → g.mismatch = false → g.shadowSpoiled = false →
          (∀ i x, s.atGang g = .instr i → g.shadow = some x → g.agrees x (shape i) = true) →
          exec (.shadowCompare core slot true) s = .next (s.putGang { g with stat := .ready, checked := true })) ∧
        (∀ same, g.caughtUp = true → (same = false ∨ g.mismatch = true ∨ g.shadowSpoiled = true) →
          (s.errsAsFree g = false → exec (.shadowCompare core slot same) s = .next (s.errorAbort g.crew)) ∧
          (∀ i, s.errsAsFree g = true → g.spoiledAt? s = none → s.atGang g = .instr i →
            exec (.shadowCompare core slot same) s =
              .next (s.takeStop { g with replay := none } 33 0 (wordsInfo i) (g.active (shape i)) [] g.pc (g.next (shape i)))) ∧
          (∀ i act pc, s.errsAsFree g = true → g.spoiledAt? s = some (i, act, pc) →
            exec (.shadowCompare core slot same) s = .next (s.takeStop g 33 0 (wordsInfo i) act [] pc g.pc))))) ∧
  (∀ (s : State) (core : BitVec 9), s.fatal = none →
      let t := s.tick core.toNat
      let l := t.selectCore core.toNat
      let u := t.issueFrom core.toNat l
      exec (.issueSelect core) s = .next { u with picks := u.picks ++ l } ∧
      (s.recovering.contains (core.toNat / 64) = false → t.cyc core.toNat = s.cyc core.toNat + 1) ∧
      (t.recovering.contains (core.toNat / 64) = true → l = []) ∧
      (l.filter (fun a => match a with | .gang _ _ => true | _ => false)).length ≤ 4 ∧
      (l.filter (fun a => match a with | .copy _ _ => true | _ => false)).length ≤ 1 ∧
      ∀ slot, Agent.gang core.toNat slot ∈ l →
        ∃ g, g.slot = slot ∧ (g ∈ t.coreGangs core.toNat ∨ t.gang? core.toNat 32 = some g) ∧ t.mayIssue g = true ∧ g.notBefore ≤ t.cyc g.core)

/-- R365, R369 to R371: with no span running the engine empties the inbox and gathers the next span: the pending events stand in canonical order, and a
prefix of them is taken, all within the launch's lookahead of the first, an event that has been aborted twice alone.
R380, R382, R383: with every crew retired the events are taken in canonical order, each from the first that still waits for its turn, all in one step as far as
they can be taken (the model's choice, log 61): a revoked event is logged with CANCELLED, one that no handler serves or whose lane failed with FAILED, one whose
versions have moved is aborted and defers every later one, and any other applies its effects in order and is logged plain. When none is left the span
ends: its crews are gone. R373: it waits for the effects that peers have still to perform. -/
def Obligations.SpanRows : Prop :=
  ∀ (s : State) (k : Nat) (l : Launch) (p : Span), s.fatal = none → s.launch? k = some l → l.span = some p → l.done = false → l.overflow = false →
    s.memReady l.pkt.store = true →
    let ordered (l : List Event) : Prop := l.Pairwise (fun a b => b.before a = false)
    (p.running = false → p.limit = false → s.anyNotReady (s.gatherMemory l) = false →
      let y := s.emptyInbox l.pkt.store { p with pend := sortEvs p.pend }
      let q := y.2.pend
      ordered (q.map (·.ev)) ∧
      (bitField (s.storeDesc l.pkt.store) 504 448 = 0 → y = (s, { p with pend := sortEvs p.pend })) ∧
      (q = [] → exec (.spanGather k) s = .next (y.1.modLaunch k (fun l => { l with span := some y.2 }))) ∧
      (∀ a r, q = a :: r → y.2.no < 2 ^ 32 - 1 →
        ∃ t n e, exec (.spanGather k) s = .next t ∧ 1 ≤ n ∧ n ≤ q.length ∧ e.map RunEv.ev = (q.take n).map PendEv.ev ∧ (∀ x ∈ e, x.fate = .open_) ∧
          (∀ x ∈ q.take n, x.ev.time.toNat ≤ a.ev.time.toNat + l.pkt.look ∧ (2 ≤ x.aborts → n = 1)) ∧
          t.launch? k = (y.1.launch? k).map (fun l => { l with span := some { y.2 with no := y.2.no + 1, pend := q.drop n, run := e, running := true } }) ∧
          Store.get t.ctr Ctr.eventsGathered.ctorIdx = Store.get y.1.ctr Ctr.eventsGathered.ctorIdx + BitVec.ofNat 64 n)) ∧
    (p.running = true → s.spanRetired k = true →
      let y := State.commitEvents k l (p.run.length + 1) s p
      let t := (y.1.modLaunch k (fun l => { l with span := some y.2 })).wakeCommitted
      exec (.spanCommit k) s = .next (if y.2.run.any RunEv.waits || t.commitsOut k then t else t.endSpan k l y.2)) ∧
    (∀ n e, p.run.find? RunEv.waits = some e →
      (ordered (p.run.map (·.ev)) → ∀ f ∈ p.run, f.waits = true → f.ev.before e.ev = false) ∧
      (∀ u q, s.commitEvent k l p e = (u, q, true) → State.commitEvents k l (n + 1) s p = State.commitEvents k l n u q) ∧
      (∀ u q, s.commitEvent k l p e = (u, q, false) → State.commitEvents k l (n + 1) s p = (u, q))) ∧
    (∀ e, e.applied = none → e.fate = .revoked → s.commitEvent k l p e = (s.logEvent l.pkt.store (e.ev.record true false), p.setFate e.idx .gone, true)) ∧
    (∀ e, e.applied = none → e.fate = .open_ → e.orphan = true → s.commitEvent k l p e =
      (((s.logEvent l.pkt.store (e.ev.record false true)).count .evNoHandler).spanRecord k 0 38 e.ev.serial, p.setFate e.idx .left, true)) ∧
    (∀ e, e.applied = none → e.fate = .open_ → e.orphan = false → e.bad = true →
      s.commitEvent k l p e = (s.logEvent l.pkt.store (e.ev.record false true), p.setFate e.idx .left, true)) ∧
    (∀ e, e.applied ≠ none → s.commitEvent k l p e = s.applyEvent k l.pkt.store p e) ∧
    (∀ e, let eff := s.eventEffects e
      let c := s.crew? e.crew
      let n := e.applied.getD 0
      let mark (a : Option Nat) (f : Fate) (q : Span) : Span := { q with run := q.run.map (fun x => if x.idx = e.idx then { x with applied := a, fate := f } else x) }
      n ≤ eff.length → ∃ m, n ≤ m ∧ m ≤ eff.length ∧
        let y := ((eff.take m).drop n).foldl (commitEffect k l.pkt.store e.idx ((c.map (·.entry)).getD 0) ((c.map (·.rc)).getD 0 != 0)) (s, p)
        let q : Span := { mark none .committed y.2 with last := some e.ev }
        (m < eff.length → (∃ x, eff[m]? = some x ∧ y.1.commitWaits k x = true) ∧
          s.applyEvent k l.pkt.store p e = (y.1, mark (some m) .open_ y.2, false)) ∧
        (m = eff.length → (∀ c g, leastPending q (childrenOf eff) = some c → q.run.getLast? = some g → c.before g.ev = false) →
          s.applyEvent k l.pkt.store p e = (y.1.logEvent l.pkt.store (e.ev.record false false), q, true))) ∧
    (∀ e, e.applied = none → e.fate = .open_ → e.orphan = false → e.bad = false →
      let eff := s.eventEffects e
      let u := (s.endChecks k).readEffects e.crew (fun x => x.evIx == some e.idx)
      s.askVersions k (numbered eff) = s →
      (s.checkVersions k (numbered eff) = .good →
        ((p.setFate e.idx .left).used + (childrenOf (u.eventEffects e)).length ≤ 2 ^ bitField (u.storeDesc l.pkt.store) 62 57 →
          s.commitEvent k l p e = u.applyEvent k l.pkt.store p e) ∧
        (2 ^ bitField (u.storeDesc l.pkt.store) 62 57 < (p.setFate e.idx .left).used + (childrenOf (u.eventEffects e)).length →
          s.commitEvent k l p e = ((u.logEvent l.pkt.store (e.ev.record false true)).spanRecord k 3 37 e.ev.serial, p.setFate e.idx .left, true))) ∧
      (s.checkVersions k (numbered eff) = .mismatch →
        ∃ t q, s.commitEvent k l p e = (t, q, true) ∧ t.mem = s.mem ∧ (∃ y ∈ q.pend, y.ev = e.ev ∧ y.aborts = e.aborts + 1) ∧
          ∀ f ∈ p.run, f.fate = .open_ → f.idx ≠ e.idx → e.ev.before f.ev = true → ∃ h ∈ q.run, h.idx = f.idx ∧ h.fate = .deferred)) ∧
    (∀ (x : State × Span) (e : Eff) (ix : Nat) (entry : VAddr) (rerun : Bool),
      (∀ c, e.kind = .evs c → commitEffect k l.pkt.store ix entry rerun x e = (x.1, { x.2 with pend := insertEv { ev := c, aborts := 0 } x.2.pend })) ∧
      ((∀ c, e.kind ≠ .evs c) → (∀ a b, e.kind ≠ .evc a b) → commitEffect k l.pkt.store ix entry rerun x e = (x.1.applyEff k entry rerun e, x.2))) ∧
    ∀ q, (∀ x ∈ (s.endSpan k l q).crews, x.2.launch ≠ k) ∧
      (s.endSpan k l q).launch? k = some { l with span := some { q with run := [], running := false } }

/-- R107: the scrubber reads each row it finds in error, and on a core that has a bank marked failed every row. R359: a recovery counts, is reported and stops the
cluster's issue, and twice within 2^24 cycles, counted from the last recovery (the model's reading, log 57), is fatal; it ends once nothing of the cluster is
outstanding (log 95), and wait ages restart then.
R361, R362: a fatal error stops the module with its code; that READY is 0 then is the model's reading (log 54), and that vector 2 is raised on both links its
choice (log 74). R406: the thermal trip is fatal 2^20 cycles
after P has reached 0 on both dies, and not before. -/
def Obligations.UpsetRows : Prop :=
  ∀ (s : State) (core : BitVec 9) (bad : List (Nat × Nat)) (cluster : BitVec 3) (code : BitVec 3), s.fatal = none →
    ((s.core core.toNat).failedBanks = [] →
      exec (.scrub core bad) s = .next ((rowsOf bad).foldl (fun t x => t.readRow core.toNat x.1 x.2) s)) ∧
    ((s.core core.toNat).failedBanks ≠ [] → exec (.scrub core bad) s = .next ((List.range 49152).foldl
      (fun t r => t.readRow core.toNat r (((bad.filter (fun x => x.1 == r)).map (·.2)).eraseDups)) s)) ∧
    (∀ row bank, (s.core core.toNat).failedBanks = [] →
      (s.readRow core.toNat row [bank]).mem = s.mem ∧ (s.readRow core.toNat row [bank]).gangs = s.gangs ∧
        (s.readRow core.toNat row [bank]).crews = s.crews ∧ Store.get (s.readRow core.toNat row [bank]).ctr Ctr.poolCorrected.ctorIdx =
          Store.get s.ctr Ctr.poolCorrected.ctorIdx + 1) ∧
    (let last := (Store.get s.recovered cluster.toNat).toNat
     (last = 0 ∨ last - 1 + 2 ^ 24 ≤ s.clock →
       ∃ t, exec (.schedRecovery cluster) s = .next t ∧ t.fatal = none ∧ t.mem = s.mem ∧ t.crews = s.crews ∧ t.gangs = s.gangs ∧
         t.reports = s.reports ++ [.scheduler cluster.toNat] ∧ t.recovering.contains cluster.toNat = true ∧
         ∀ c, c / 64 = cluster.toNat → t.selectCore c = []) ∧
     (last ≠ 0 → s.clock < last - 1 + 2 ^ 24 → exec (.schedRecovery cluster) s = .next (s.fatalStop 1))) ∧
    (∀ c, s.recovering.contains c = true → s.settled c = true → (∀ h ∈ s.gangList, h.tableBad = false) →
      let t := s.endRecovery c
      c ∉ t.recovering ∧ t.mem = s.mem ∧ t.crews = s.crews ∧
        ∀ a k h, s.gang? a k = some h → t.gang? a k = some (if h.core / 64 = c then { h with since := s.cyc h.core } else h)) ∧
    (1 ≤ code.toNat → code.toNat ≤ 4 → ∃ t, exec (.fatalError code) s = .next t ∧ t.fatal = some code.toNat ∧ t.readyBits = 0 ∧
      t.host = s.host ++ [.msi 0 2, .msi 1 2] ∧ (Instr.moduleReset ∉ s.agenda → Frozen code.toNat t)) ∧
    ((code.toNat = 0 ∨ 4 < code.toNat) → exec (.fatalError code) s = .next s) ∧
    (∀ z, s.zeroAt = some z → z + 2 ^ 20 ≤ s.clock → ∃ t, exec .thermalTrip s = .next t ∧ t.fatal = some 4 ∧ t.readyBits = 0) ∧
    (∀ z, s.zeroAt = some z → s.clock < z + 2 ^ 20 → exec .thermalTrip s = .next s) ∧
    (s.zeroAt = none → exec .thermalTrip s = .next s)

/-- R182, R405, R406: the power limit sets P on both dies, and keeps since when it is 0. R194: firmware writes EN. R403: an image that verifies runs and one that
does not leaves its BOOT_STATUS and nothing else, the lowest code of several (the model's reading, log 56). R401 to R403: a READY bit rises; with no valid image
only that of MBOX. The values that the firmware sets are taken up as the image verifies (the model's choice, log 60), a queue table base on its multiple of 4,096
(log 6). R404, R229: module reset starts again; R7, R320: the queue descriptors read 0; that memory else keeps what it holds is the model's reading
(log 55). -/
def Obligations.BringUpRows : Prop :=
  ∀ (s : State) (w most : Nat) (core : BitVec 9) (en : BitVec 8) (a b : Bool) (v fuse : Nat) (fw : Firmware) (bit : BitVec 6),
    (∃ t, exec .moduleReset s = .next t ∧ t.fatal = none ∧ t.readyBits = 0 ∧ t.launches = [] ∧ t.gangs = [] ∧ t.crews = [] ∧
      t.ctxRegs = [] ∧ t.vers = [] ∧ t.farIn = [] ∧ t.mbox = [] ∧ t.submitted = [] ∧ t.image = false ∧ (s.image = false → t.mem = s.mem) ∧
      (∀ x, x < s.qtbase ∨ s.qtbase + 4096 ≤ x → Store.get t.mem x = Store.get s.mem x) ∧
      (s.image = true → s.qtbase + 4096 ≤ Config.physBytes → ∀ x, s.qtbase ≤ x → x < s.qtbase + 4096 → Store.get t.mem x = 0)) ∧
    (s.fatal = none →
      (900 ≤ w → w ≤ 1600 →
        let n := min most (min 256 ((w - 825) * 2 / 5))
        exec (.setPowerLimit w most) s =
          .next { s with watts := w, pool0 := n, pool1 := n, zeroAt := if n = 0 then some (s.zeroAt.getD s.clock) else none }) ∧
      (w < 900 ∨ 1600 < w → exec (.setPowerLimit w most) s = .next s) ∧
      (∃ t, exec (.channelEnableWrite core en) s = .next t ∧ (t.core core.toNat).en = en ∧ t.gangs = s.gangs ∧ t.mem = s.mem ∧
        ∀ c, c ≠ core.toNat → t.core c = s.core c) ∧
      (∃ t, exec (.imageLoad a b v fuse fw) s = .next t ∧ t.boot = (if a = false then 1 else if b = false then 2 else if v < fuse then 3 else 0) ∧
        (t.boot ≠ 0 → t = { s with boot := t.boot }) ∧
        (t.boot = 0 → t.image = true ∧ t.qtbase = fw.qtbase - fw.qtbase % 4096 ∧ t.kickFrame = fw.kickFrame ∧ t.peerNo = fw.self ∧
          t.dumpLen = fw.dumpLen)) ∧
      (bit.toNat < 58 → (s.image = true ∨ bit = 0) → ∃ t, exec (.functionReady bit) s = .next t ∧ t.readyBits = s.readyBits ||| oneBit 64 bit.toNat ∧
        t.mbox = [] ∧ t.farIn = [] ∧ t.agenda = s.mbox ++ s.farIn ++ s.agenda ∧ (s.held = [] → s.kicksHeld = [] → t.mem = s.mem)) ∧
      ((58 ≤ bit.toNat ∨ (s.image = false ∧ bit ≠ 0)) → exec (.functionReady bit) s = .next s))

/-- R337, R341 to R345: a stop with a handler program joins its core's queue and the gang waits, with its PC reported; with none the gang takes its default
action at once; in the handler slot it ends the run. The results that are pending end before the gang issues again (R57). That an
IMPRECISE stop keeps the gang's replay mask and what the peers of a partly performed instruction have answered is met by stopping only where there is none of
it, an inference of the model (log 105), as is the replay mask that a mismatch keeps (log 107); that the NEXT of a TRAP's record is its PC's (log 24); R358: a
mismatch rebuilds the shadow. A run begins with the oldest stop, at HENTRY, with the record in `s1` to `s5` and all else zero.
R344, R353: the default actions by cause, in a FREE launch or a re-run, and in a PHASED or SPAN crew that has not been re-run; R184: a token is kept over a resumption only when the next instruction takes it up.
R216, R217, R307, R57, R360: a park posts its records once every write of the gang at a peer is performed, its tokens return, and what peers have answered for an
instruction that cannot be fetched stays; in the handler slot it ends the run. -/
def Obligations.TakingAnException : Prop :=
  (∀ (s : State) (g : Gang) (cause detail : Nat) (info : DWord) (replay : LaneMask) (codes : Store 4) (pc next : VAddr),
    let b : Gang := if cause = 33 then g.rebuild else g
    let h : Gang :=
      { b with pc := pc, pend := [], notBefore := g.pend.foldl (fun m x => max m x.readyAt) g.notBefore
               replay := if cause = 33 ∨ cause = 34 then g.replay else none, arrived := [], granted := false, checked := false, mismatch := false, stat := .stopped }
    let x : Stop := { cause := cause, detail := detail, agent := g.slot, pc := pc, next := next, replay := replay, info := info
                      wid := g.stopWid replay, codes := codes, launch := g.launch, ofGang := true }
    let t := s.takeStop g cause detail info replay codes pc next
    (g.isHandler = true → t = s.endRun g.core true) ∧
    (g.isHandler = false → s.hasHandler g.launch = false → t = s.defaultAction h x) ∧
    (g.isHandler = false → s.hasHandler g.launch = true →
      t.gang? g.core g.slot = some h ∧ (t.core g.core).stops = (s.core g.core).stops ++ [x] ∧ t.mem = s.mem ∧
      ∀ c k, gkey c k ≠ gkey g.core g.slot → t.gang? c k = s.gang? c k)) ∧
  (∀ (s : State) (core : BitVec 9) (x : Stop) (r : List Stop), s.fatal = none → (s.core core.toNat).run = none → (s.core core.toNat).stops = x :: r →
    (s.hasHandler x.launch = true → ∃ t v, exec (.handlerRunStart core) s = .next t ∧ (t.core core.toNat).stops = r ∧
      (t.core core.toNat).run = some { stop := x, sel := if x.ofGang then some x.agent else none } ∧ t.gang? core.toNat 32 = some v ∧
      v.pc = (s.ctxReg (s.ctxOf x.launch) 0x40).setWidth 57 ∧ (∀ k < 5, v.sGet (k + 1) = x.word k) ∧ (∀ n, n = 0 ∨ 5 < n → v.sGet n = 0) ∧
      (∀ n lane, v.vGet n lane = 0) ∧ (∀ n, n ≠ 0 → v.mGet n = 0) ∧ v.rmode = 0 ∧ v.base = BitVec.allOnes 64 ∧ v.stack = [] ∧ v.n = 32 ∧
      ∀ lane < 64, v.keyOf lane = (s.ctxReg (s.ctxOf x.launch) 0x48).setWidth 32) ∧
    (∀ g, s.hasHandler x.launch = false → x.ofGang = true → s.gang? core.toNat x.agent = some g → g.stat = .stopped →
      exec (.handlerRunStart core) s = .next ((s.putCore core.toNat { s.core core.toNat with stops := r }).defaultAction g x))) ∧
  (∀ (s : State) (g : Gang) (x : Stop),
    (x.cause = 3 → s.defaultAction g x = s.putGang { s.tokenAt { g with replay := some x.replay } with stat := .ready }) ∧
    (x.cause = 34 → s.defaultAction g x = s.putGang { s.tokenAt g with stat := .ready }) ∧
    (x.cause = 29 → s.defaultAction g x = s.putGang { s.tokenAt { g with replay := none } with stat := .ready, pwaitNt := true }) ∧
    (x.cause ≤ 28 → x.cause ≠ 3 → x.cause ≠ 4 →
      (s.errsAsFree g = false → s.defaultAction g x = s.errorAbort g.crew) ∧
      (s.errsAsFree g = true → s.defaultAction g x = s.endForError g x.cause x.pc)) ∧
    (x.cause = 30 ∨ x.cause = 31 →
      (s.errsAsFree g = false → s.defaultAction g x = s.errorAbort g.crew) ∧
      (s.errsAsFree g = true → ∃ (u : State) (v : Gang), s.defaultAction g x = u.putGang v ∧ v.pc = x.next ∧ v.stat = .ready ∧ v.replay = none ∧
        v.dead = g.dead ||| x.replay)) ∧
    (s.errsAsFree g = true ↔ (s.modeOf g = 0 ∨ s.rcOf g ≠ 0)) ∧
    (∀ k c, (s.abortCrew k).crew? k = some c → (s.errorAbort k).crew? k = some { c with rc := 1 } ∧
      (s.errorAbort k).mem = (s.abortCrew k).mem ∧ (s.errorAbort k).ctr = ((s.abortCrew k).count .crewReruns).ctr) ∧
    (g.token = false → s.tokenAt g = g) ∧
    (∀ i, g.token = true → s.atGang g = .instr i → s.tokenAt g = if g.wantsToken (shape i) = true then g else { g with token := false })) ∧
  (∀ (s : State) (g : Gang) (p : Park) (replay : Option LaneMask) (recs : List FqInfo),
    let b : Gang :=
      { g with pend := [], notBefore := g.pend.foldl (fun m x => max m x.readyAt) g.notBefore, token := false, granted := false, replay := replay
               shadow := g.shadow.map (fun x => { x with token := false, shuttered := false }), arrived := if p = .fetch then g.arrived else [] }
    (g.isHandler = true → s.parkGang g p replay recs = s.endRun g.core true) ∧
    (g.isHandler = false →
      (s.farWriteOf g = true → s.parkGang g p replay recs = s.waits b (.park p recs)) ∧
      (s.farWriteOf g = false → (s.core g.core).failedBanks = [] →
        s.parkGang g p replay recs = (recs.foldl State.postFault s).putGang { b with stat := .parked p, parkedAt := s.cyc g.core })))

/-- The state after reset. R401, R404, R396, R229, R403: READY is 0, no function serves, no image is loaded, no launch, crew or gang exists, every context
register, `$cyc` and version is 0. The model's choices: memory lists nothing (log 1); EN, P, the last core granted and W (log 5); QTBASE and the dump area
(log 6); the kick page and PREEMPT (log 7); the counters (log 8); the ports (log 9). -/
def Obligations.ResetState : Prop :=
  let s := State.reset
  s.readyBits = 0 ∧ s.fatal = none ∧ s.image = false ∧ s.boot = 0 ∧ s.launches = [] ∧ s.crews = [] ∧ s.gangs = [] ∧ s.ctxs = [] ∧
    s.mem = [] ∧ s.memPois = [] ∧ Memory.wf s.mem ∧
    (∀ ctx ofs, s.ctxReg ctx ofs = 0) ∧
    (∀ core, s.cyc core = 0 ∧ (s.core core).run = none ∧ (s.core core).stops = [] ∧ (s.core core).part = none ∧ (s.core core).en = 0xFF) ∧
    (∀ pa, s.verOf pa = 0 ∧ s.memReady pa = false) ∧
    s.pool0 = 256 ∧ s.pool1 = 256 ∧ s.lastGrant0 = 255 ∧ s.lastGrant1 = 255 ∧ s.watts = 1600 ∧ s.qtbase = 0 ∧ s.dumpBase = 0 ∧ s.dumpLen = 0 ∧
    s.kickFrame = none ∧ s.pre0 = 0 ∧ s.pre1 = 0 ∧ (∀ c : Ctr, Store.get s.ctr c.ctorIdx = 0) ∧ s.ports = [] ∧ s.far = [] ∧ s.host = []

/-- A step runs the instruction that stands at the picked agent's PC: its words, fetched as R66 says, decode to it, and the step is its meaning with that agent
current; for a shadow that runs an instruction itself (R356), with its own copy in the gang's place. Words that decode to nothing do not run.
What arrives from outside, then what stands on the agenda, and then a submitted record, goes first: the model's order among those that the spec allows (log 2). -/
def Obligations.StepRunsDecoded : Prop :=
  ∀ (s : State) (r : List Agent) (i : Instr) (l : List Word),
    let u := { s with picks := r }
    (∀ core slot g, s.outside = [] → s.agenda = [] → s.submitted = [] → s.fatal = none → s.picks = .gang core slot :: r → s.gang? core slot = some g →
      u.fetch g.core (u.ctxOf g.launch) g.pc = .words l → decodeGang (l.getD 0 0) (l.getD 1 0) (l.getD 2 0) (l.getD 3 0) (l.getD 4 0) = .ok i →
      step s = exec i { u.noteFetch core slot g.launch g.pc ((shape i).len / 4) with cur := some (.gang core slot) }) ∧
    (∀ core ix c, s.outside = [] → s.agenda = [] → s.submitted = [] → s.fatal = none → s.picks = .copy core ix :: r → s.ctx? core ix = some c →
      u.fetch core (u.ctxOf c.launch) c.pc = .words l → decodeCopy (l.getD 0 0) (l.getD 1 0) (l.getD 2 0) (l.getD 3 0) (l.getD 4 0) = .ok i →
      step s = exec i { u.noteFetch core (64 + ix) c.launch c.pc ((shape i).len / 4) with cur := some (.copy core ix) }) ∧
    (∀ core slot g x it q v, s.outside = [] → s.agenda = [] → s.submitted = [] → s.fatal = none → s.picks = .shadow core slot :: r → s.gang? core slot = some g →
      g.shadow = some x → x.queue = it :: q → it.took = none →
      u.fetch g.core (u.ctxOf g.launch) it.pc = .words l → decodeGang (l.getD 0 0) (l.getD 1 0) (l.getD 2 0) (l.getD 3 0) (l.getD 4 0) = .ok i →
      exec i { u.putGang (g.asShadow x it) with cur := some (.gang g.core g.slot) } = .next v → step s = .next (u.shadowTook g x it q v)) ∧
    (∀ core slot g e, s.outside = [] → s.agenda = [] → s.submitted = [] → s.fatal = none → s.picks = .gang core slot :: r → s.gang? core slot = some g →
      u.fetch g.core (u.ctxOf g.launch) g.pc = .words l → decodeGang (l.getD 0 0) (l.getD 1 0) (l.getD 2 0) (l.getD 3 0) (l.getD 4 0) = .error e →
      step s = .next (u.issueIllegal g l)) ∧
    (∀ a, s.outside = [] → s.agenda = i :: a → isCode i = false → step s = exec i { s with agenda := a }) ∧
    (∀ a, s.outside = [] → s.agenda = [] → s.submitted = i :: a → isCode i = false → step s = exec i { s with submitted := a }) ∧
    (∀ x o, s.outside = x :: o → step s = .next ({ s with outside := o }.meets x))

/-- Words written out from the encodings of R42 to R46 and R58 to R62 decode to the instructions they stand for; a reserved bit or a length that the opcode
does not have is refused; and whatever decodes encodes to the words that were read. -/
def Obligations.DecodedWords : Prop :=
  decodeGang 0x00001401#32 0x03000000#32 0 0 0 = .error .field ∧
  decodeGang 0xC5000040#32 0 0 0 0 = .ok (.trap 0 2 (.imm 0x45)) ∧
  decodeGang 0x1E000800#32 0 0 0 0 = .ok (.ret 0 (.r 30)) ∧
  decodeGang 0x03000C00#32 0 0 0 0 = .ok (.vif 0 3) ∧
  decodeGang 0x00001200#32 0 0 0 0 = .ok (.exit 0) ∧
  decodeGang 0x00090A01#32 0 0xFFFFFFC0#32 0 0 = .ok (.loop 0 9 0xFFFFFFC0#32) ∧
  decodeGang 0xE8001401#32 0x02000000#32 0 0 0 = .ok (.sleep { stall := 0, lit := none } (.imm 0x68)) ∧
  decodeGang 0x40011403#32 0 0 0x80#32 0 = .ok (.rgrow { stall := 0, lit := some 0x80#64 } 1 .lit) ∧
  decodeGang 0x01034201#32 0x00000002#32 0 0 0 = .ok (.vadd { stall := 0, guard := 0, gneg := false, lit := none } .dflt 3 (.v 1) (.v 2)) ∧
  decodeGang 0x0205C801#32 0x00000007#32 0 0 0 =
    .ok (.ldb { stall := 0, guard := 0, gneg := false, lit := none } { ordq := .none, scope := .gang, strict := false, bm := 0, iofs := 0 } .dflt 5 2 (.v 7)) ∧
  decodeCopy 0x0103F001#32 0x01000002#32 0 0 0 = .ok (.kadd { stall := 0, lit := none } 3 (.k 1) (.k 2)) ∧
  decodeCopy 0x01034201#32 0x00000002#32 0 0 0 = .error .opcode ∧
  decodeGang 0x0103F001#32 0x01000002#32 0 0 0 = .error .opcode ∧
  decodeGang 0x00001201#32 0 0 0 0 = .error .reserved ∧
  (∀ w0 w1 w2 w3 w4 i, decodeGang w0 w1 w2 w3 w4 = .ok i → w0.extractLsb' 9 7 ≠ 0x7F#7 →
    encode i = [w0, w1, w2, w3, w4].take (wordCount w0) ∧ i.wf = true)

/-- R41 to R66: decoding the words of a well-formed instruction gives it back, every operand at every value its encoding admits, whatever words follow it;
a copy-class opcode by the copy processor's decoder and every other one by the gang's. -/
def Obligations.EncodeThenDecode : Prop :=
  ∀ (i : Instr) (after : Nat → Word), i.wf = true → isCode i = true →
    let w (k : Nat) : Word := (encode i).getD k (after k)
    if (w 0).extractLsb' 9 7 ∈ [0x78#7, 0x79#7, 0x7A#7, 0x7B#7] then decodeCopy (w 0) (w 1) (w 2) (w 3) (w 4) = .ok i
    else decodeGang (w 0) (w 1) (w 2) (w 3) (w 4) = .ok i

/-- R361: after a fatal error every step goes on and changes nothing but what was waiting to happen, until module reset; what reaches the module from outside
meets only what no engine serves: BAR0, transom symbols and rows of the gang table. -/
def Obligations.FrozenKept : Prop :=
  ∀ (code : Nat) (s : State), Frozen code s → ∃ t, step s = .next t ∧ Frozen code t ∧
    (s.outside = [] → t = { s with agenda := t.agenda, submitted := t.submitted }) ∧
    t = { s with agenda := t.agenda, submitted := t.submitted, outside := t.outside, host := t.host, bar0 := t.bar0, bar1 := t.bar1, leases := t.leases, gangs := t.gangs }

/-- The frame of the scalar rows of fixed latency: nothing outside the gang changes, memory included, and in the gang no register but the
destination, which takes the row's value; `s0` discards it (R1). -/
def Obligations.ScalarRowsFrame : Prop :=
  ∀ (i : Instr) (s t : State) (g : Gang) (d : BitVec 6) (x : DWord), Issues i s g → scalarRow s g i = some (d, x) → exec i s = .next t →
    OnlyGang g.core g.slot s t ∧
    ∃ v, t.gang? g.core g.slot = some v ∧ v.pc = g.next (shape i) ∧ (d ≠ 0 → v.sGet d.toNat = x) ∧ v.sGet 0 = 0 ∧
      SameRegs g v (fun n => n = d.toNat ∧ d ≠ 0) (fun _ _ => False) (fun _ => False) (fun _ => False) ∧ SameSpecials g v

/-- The frame of the vector integer and floating-point rows: nothing outside the gang changes, memory included, and in the gang only the live active lanes of
the destination registers. -/
def Obligations.VectorRowsFrame : Prop :=
  ∀ (i : Instr) (s t : State) (g : Gang) (r : LaneRow), Issues i s g → (intRow s g i = some r ∨ fpRow s g i = some r) →
    g.CleanIn (g.acting i) r.regs → r.quiet (g.acting i) → exec i s = .next t →
    OnlyGang g.core g.slot s t ∧
    ∃ v, t.gang? g.core g.slot = some v ∧ v.pc = g.next (shape i) ∧
      SameRegs g v (fun _ => False) (fun n lane => 64 ≤ lane ∨ (Ref.v n ∈ (shape i).writes ∧ (g.acting i).getLsbD lane = true)) (fun _ => False)
        (fun _ => False) ∧ SameSpecials g v

/-- R1, R15, R108: a register reads back what was written, `s0` reads 0 and `m0` all ones whatever is written to them, and no other register changes; a write of
memory within the module's DRAM reads back, leaves every other byte, and keeps the canonical form. R11: a count of a core or of a gang adds to its counter, and to what that
counter has counted at that core number or slot identifier, and to nothing else; which core or gang an event counts at is the model's choice (log 8). -/
def Obligations.StorageLaws : Prop :=
  (∀ (g : Gang) (n k : Nat) (x : DWord) (m : LaneMask) (y : BitVec 128) (p : Bool),
    (g.sSet 0 x p = g ∧ g.sGet 0 = 0 ∧ g.mSet 0 m = g ∧ g.mGet 0 = BitVec.allOnes 64) ∧
    (n ≠ 0 → (g.sSet n x p).sGet n = x ∧ (g.mSet n m).mGet n = m) ∧ (g.bSet n y).bGet n = y ∧
    (k ≠ n → (g.sSet n x p).sGet k = g.sGet k ∧ (g.mSet n m).mGet k = g.mGet k ∧ (g.bSet n y).bGet k = g.bGet k)) ∧
  (∀ (g : Gang) (n lane k l x : Nat) (p : Bool), lane < 64 → l < 64 →
    (g.vSet n lane x p).vGet n lane = x % 2 ^ 32 ∧ (g.vSet n lane x p).vBad n lane = p ∧
    ((k, l) ≠ (n, lane) → (g.vSet n lane x p).vGet k l = g.vGet k l)) ∧
  (∀ (s : State) (p : CtrPlace) (c : Ctr) (n : Nat), p ≠ .core Config.engineCore →
    let t := s.countAt p c n
    t.counted p c = s.counted p c + BitVec.ofNat 64 n ∧ Store.get t.ctr c.ctorIdx = Store.get s.ctr c.ctorIdx + BitVec.ofNat 64 n ∧
    t = { s with ctr := t.ctr, ctrAt := t.ctrAt } ∧ ∀ (q : CtrPlace) (d : Ctr), (d ≠ c → Store.get t.ctr d.ctorIdx = Store.get s.ctr d.ctorIdx) ∧
      (p.num < 2 ^ 16 → q.num < 2 ^ 16 → (d ≠ c ∨ q.num ≠ p.num) → t.counted q d = s.counted q d)) ∧
  (∀ (s : State) (a : Nat) (d : List PByte),
    (a + d.length ≤ Config.physBytes →
      (∀ k < d.length, Store.get (s.physWrite a d).mem (a + k) = (d.getD k (0, false)).1) ∧
      rawBytes ((s.physWrite a d).physRead a d.length) = rawBytes d) ∧
    (∀ b, b < a ∨ a + d.length ≤ b → Store.get (s.physWrite a d).mem b = Store.get s.mem b) ∧
    (Memory.wf s.mem → Memory.wf (s.physWrite a d).mem))
end

