-- ==== Sys2Proof/Laws/Issue.lean ====
section
/-! SUPPORT. What happens around an instruction, said once: an instruction that issues comes down to its own effect. -/
namespace Sys2Proof.Machine

theorem any_false {α : Type} {l : List α} {p : α → Bool} (h : ∀ x ∈ l, p x = false) : l.any p = false := by
  simpa using h

/-- An instruction that issues, and is legal where it is, does what its body says. -/
theorem issue_eq {i : Instr} {s : State} {g : Gang} {body : State → Gang → LaneMask → Res} (h : Issues i s g) :
    issue i s g false body = settleRes i s g (g.active (shape i)) (body s g (g.active (shape i))) := by
  have hs : (g.schk && g.pend.any (fun p => ((shape i).reads ++ (shape i).writes).contains p.ref && decide (p.sum < p.lat))) = false := by
    cases hk : g.schk
    · rfl
    · refine (Bool.true_and _).trans (any_false fun p hp => ?_)
      by_cases hm : p.ref ∈ (shape i).reads ++ (shape i).writes
      · have := h.counts hk p hp hm
        simp only [Bool.and_eq_false_iff, decide_eq_false_iff_not]
        exact .inr (by omega)
      · simp only [Bool.and_eq_false_iff]
        exact .inl (by simpa using hm)
  have hf : g.pend.any (fun p => ((shape i).reads ++ (shape i).writes).contains p.ref && decide (s.cyc g.core < p.readyAt)) = false := by
    refine any_false fun p hp => ?_
    by_cases hm : p.ref ∈ (shape i).reads ++ (shape i).writes
    · have := h.fixed p hp hm
      simp only [Bool.and_eq_false_iff, decide_eq_false_iff_not]
      exact .inr (by omega)
    · simp only [Bool.and_eq_false_iff]
      exact .inl (by simpa using hm)
  have hb : g.busy.any (fun b => b.refs.any (((shape i).reads ++ (shape i).writes).contains ·) || b.hold.any ((shape i).writes.contains ·)) = false := by
    refine any_false fun b hb => ?_
    obtain ⟨h1, h2⟩ := h.late b hb
    simp only [Bool.or_eq_false_iff]
    exact ⟨any_false fun r hr => by simpa using h1 r hr, any_false fun r hr => by simpa using h2 r hr⟩
  have hc : (shape i).reads.any g.refBad = false := any_false h.clean
  have hk : (Machine.compared (shape i) && !g.checked && !g.isHandler && s.shadowed g.launch) = false := by
    cases hq : Machine.compared (shape i)
    · rfl
    · rcases h.compared hq with h | h | h <;> simp [h]
  have ht : ¬ s.cyc g.core < g.notBefore := by have := h.turn; omega
  have hr : ¬ g.n < vTop (shape i) := by have := h.regs; omega
  have hd : g.readsBad (shape i) = false := by simp only [Gang.readsBad, hc, h.cleanPc, h.cleanStack, Bool.or_self]
  have hi : s.imprecise g (g.active (shape i)) (g.next (shape i)) = none := by
    unfold State.imprecise
    rw [h.noFailed]
  unfold issue Gang.short Gang.unready Gang.boarded
  simp only [ht, hi, h.tokened, hr, hs, hf, hb, hd, h.twin, h.ordered, hk, Bool.or_self, Bool.false_eq_true, ↓reduceIte]

theorem mayIssue_of {i : Instr} {s : State} {g : Gang} (h : Issues i s g) : s.mayIssue g = true := by
  unfold State.mayIssue
  rcases h.unsaved with hu | hu
  · simp [h.ready, h.roomy, hu]
  · simp only [h.ready, h.roomy, hu, beq_self_eq_true, Bool.not_false, Bool.or_true, Bool.and_self]

/-- A gang-class instruction that issues and is legal. -/
theorem runGang_eq {i : Instr} {s : State} {g : Gang} {bad : State → Gang → Bool} {body : State → Gang → LaneMask → Res} (h : Issues i s g)
    (hb : bad s g = false) :
    runGang i s bad body = .next (settleRes i s g (g.active (shape i)) (body s g (g.active (shape i)))) := by
  unfold runGang
  simp only [h.here, h.placed, mayIssue_of h, if_true, hb, issue_eq h]

theorem settle_ok (i : Instr) (s t : State) (g h : Gang) : settleRes i s g (g.active (shape i)) (.ok t h) = s.completes i g t h := rfl
theorem settle_jump (i : Instr) (s t : State) (g h : Gang) (pc : VAddr) :
    settleRes i s g (g.active (shape i)) (.jump t h pc) = s.jumps i g t h pc := rfl
theorem settle_trap (i : Instr) (s : State) (g : Gang) (cause : Nat) :
    settleRes i s g (g.active (shape i)) (.trap cause) = s.traps i g cause := rfl

/-- An instruction that issues and completes. -/
theorem runGang_ok {i : Instr} {s t : State} {g h : Gang} {bad : State → Gang → Bool} {body : State → Gang → LaneMask → Res} (hi : Issues i s g)
    (hb : bad s g = false) (hr : body s g (g.active (shape i)) = .ok t h) :
    runGang i s bad body = .next (s.completes i g t h) := by
  rw [runGang_eq hi hb, hr, settle_ok]

theorem runGang_jump {i : Instr} {s t : State} {g h : Gang} {pc : VAddr} {bad : State → Gang → Bool} {body : State → Gang → LaneMask → Res}
    (hi : Issues i s g) (hb : bad s g = false) (hr : body s g (g.active (shape i)) = .jump t h pc) :
    runGang i s bad body = .next (s.jumps i g t h pc) := by
  rw [runGang_eq hi hb, hr, settle_jump]

theorem runGang_trap {i : Instr} {s : State} {g : Gang} {cause : Nat} {bad : State → Gang → Bool} {body : State → Gang → LaneMask → Res}
    (hi : Issues i s g) (hb : bad s g = false) (hr : body s g (g.active (shape i)) = .trap cause) :
    runGang i s bad body = .next (s.traps i g cause) := by
  rw [runGang_eq hi hb, hr, settle_trap]

end Sys2Proof.Machine
end

