-- ==== Sys2Proof/Laws/Lanes.lean ====
section
/-! SUPPORT. Masks as lists of lanes, and what a lane-wise instruction does when no lane consumes poison. -/
namespace Sys2Proof

theorem getLsbD_oneBit {w i k : Nat} : (oneBit w i).getLsbD k = (decide (k < w) && decide (k = i)) := by
  unfold oneBit
  rw [BitVec.getLsbD_ofNat, Nat.testBit_two_pow]
  by_cases h : i = k
  · simp [h]
  · have : k ≠ i := fun e => h e.symm
    simp [h, this]

theorem getLsbD_maskOf_aux {w : Nat} (l : List Nat) (m : BitVec w) (k : Nat) :
    (l.foldl (fun m i => m ||| oneBit w i) m).getLsbD k = (m.getLsbD k || (decide (k < w) && decide (k ∈ l))) := by
  induction l generalizing m with
  | nil => simp
  | cons x r ih =>
    rw [List.foldl_cons, ih, BitVec.getLsbD_or, getLsbD_oneBit]
    by_cases h2 : k = x
    · subst h2
      cases m.getLsbD k <;> simp
      tauto
    · simp [h2]

/-- The bits of a mask are the listed numbers below its width. -/
theorem getLsbD_maskOf {w : Nat} (l : List Nat) (k : Nat) : (maskOf w l).getLsbD k = (decide (k < w) && decide (k ∈ l)) := by
  unfold maskOf
  rw [getLsbD_maskOf_aux]
  simp

theorem mem_bitsOn {w : Nat} {m : BitVec w} {k : Nat} : k ∈ bitsOn m ↔ m.getLsbD k = true := by
  unfold bitsOn
  rw [List.mem_filter, List.mem_range]
  exact ⟨fun h => h.2, fun h => ⟨BitVec.lt_of_getLsbD h, h⟩⟩

theorem bitsOn_zero {w : Nat} : bitsOn (0#w) = [] := by simp [bitsOn]

/-- The lanes of a mask made of some lanes of another. -/
theorem bitsOn_maskOf_filter {w : Nat} (m : BitVec w) (p : Nat → Bool) : bitsOn (maskOf w ((bitsOn m).filter p)) = (bitsOn m).filter p := by
  show (List.range w).filter _ = _
  conv => rhs; unfold bitsOn
  rw [List.filter_filter]
  apply List.filter_congr
  intro k hk
  rw [getLsbD_maskOf]
  have hw : k < w := by simpa using hk
  simp only [hw, decide_true, Bool.true_and, List.mem_filter, mem_bitsOn]
  cases m.getLsbD k <;> cases p k <;> simp

namespace Machine

theorem badLanes_clean {g : Gang} {m : LaneMask} {regs : List Nat} (h : g.CleanIn m regs) : g.badLanes m regs = 0 := by
  have : (bitsOn m).filter (fun i => regs.any (fun r => g.vBad r i)) = [] := by
    rw [List.filter_eq_nil_iff]
    intro i hi
    simpa using fun r hr => h i hi r hr
  unfold Gang.badLanes
  rw [this]
  rfl

theorem live_zero (g : Gang) : g.live 0 = 0 := by simp [Gang.live]

/-- No lane consumes poison: nothing happens. -/
theorem consume_none {s : State} {g : Gang} {m : LaneMask} (h : g.live m = 0) : s.consume g m = (s, some g) := by
  unfold State.consume
  simp [h]

/-- What a lane-wise instruction does when no live active lane consumes poison. -/
theorem lanewise_clean {α : Type} {regs : List Nat} {f : State → Gang → Nat → α × Nat} {put : Gang → List (Nat × α) → Gang} {s : State}
    {g : Gang} {act : LaneMask} (h : g.CleanIn (g.live act) regs) :
    lanewise regs f put s g act =
      (let l := (bitsOn (g.live act)).map (fun i => (i, f s g i))
       let g' := put g ((l.filter (fun x => x.2.2 == 0)).map (fun x => (x.1, x.2.1)))
       match codesOf ((l.filter (fun x => x.2.2 != 0)).map (fun x => (x.1, x.2.2))) with
       | [] => .ok s g'
       | codes => .lanes s g' codes) := by
  unfold lanewise
  rw [badLanes_clean h, consume_none (live_zero g)] <;> rfl

/-- And when no lane raises. -/
theorem lanewise_quiet {α : Type} {regs : List Nat} {f : State → Gang → Nat → α × Nat} {put : Gang → List (Nat × α) → Gang} {s : State}
    {g : Gang} {act : LaneMask} (h : g.CleanIn (g.live act) regs) (hq : ∀ i ∈ bitsOn (g.live act), (f s g i).2 = 0) :
    lanewise regs f put s g act = .ok s (put g ((bitsOn (g.live act)).map (fun i => (i, (f s g i).1)))) := by
  rw [lanewise_clean h]
  have h1 : ((bitsOn (g.live act)).map (fun i => (i, f s g i))).filter (fun x => x.2.2 == 0) = (bitsOn (g.live act)).map (fun i => (i, f s g i)) := by
    rw [List.filter_eq_self]
    intro x hx
    obtain ⟨i, hi, rfl⟩ := List.mem_map.mp hx
    simp [hq i hi]
  have h2 : ((bitsOn (g.live act)).map (fun i => (i, f s g i))).filter (fun x => x.2.2 != 0) = [] := by
    rw [List.filter_eq_nil_iff]
    intro x hx
    obtain ⟨i, hi, rfl⟩ := List.mem_map.mp hx
    simp [hq i hi]
  simp only [h1, h2, List.map_nil, codesOf, List.foldl_nil, List.map_map]
  rfl

theorem set_append {w : Nat} (l : Store w) {a : Nat} {x : BitVec w} (hx : x ≠ 0#w) (h : ∀ y ∈ l, y.1 < a) : Store.set l a x = l ++ [(a, x)] := by
  unfold Store.set
  simp only [hx, if_false]
  induction l with
  | nil => rfl
  | cons y r ih =>
    have h1 := h y (by simp)
    have h2 : ¬ a < y.1 := by omega
    have h3 : a ≠ y.1 := by omega
    simp only [Store.insert, h2, h3, if_false, List.cons_append]
    rw [ih (fun z hz => h z (by simp [hz]))]

/-- Lane codes in rising lane order are listed as they stand. -/
theorem codesOf_eq {l : List (Nat × Nat)} (hs : (l.map (·.1)).Pairwise (· < ·)) (hc : ∀ x ∈ l, 0 < x.2 ∧ x.2 < 16) :
    codesOf l = l.map (fun x => (x.1, BitVec.ofNat 4 x.2)) := by
  suffices h : ∀ (acc : Store 4) (l : List (Nat × Nat)), (l.map (·.1)).Pairwise (· < ·) → (∀ x ∈ l, 0 < x.2 ∧ x.2 < 16) →
      (∀ y ∈ acc, ∀ x ∈ l, y.1 < x.1) →
      l.foldl (fun m x => Store.set m x.1 (BitVec.ofNat 4 x.2)) acc = acc ++ l.map (fun x => (x.1, BitVec.ofNat 4 x.2)) by
    simpa [codesOf] using h [] l hs hc (by simp)
  intro acc l
  induction l generalizing acc with
  | nil => simp
  | cons x r ih =>
    intro hs hc ha
    have hx := hc x (by simp)
    have hne : BitVec.ofNat 4 x.2 ≠ 0#4 := by
      intro he
      have := congrArg BitVec.toNat he
      simp only [BitVec.toNat_ofNat] at this
      omega
    rw [List.foldl_cons, set_append acc hne (fun y hy => ha y hy x (by simp)), ih]
    · simp
    · exact (List.pairwise_cons.mp (by simpa using hs)).2
    · exact fun y hy => hc y (by simp [hy])
    · intro y hy z hz
      rcases List.mem_append.mp hy with hy | hy
      · exact ha y hy z (by simp [hz])
      · obtain rfl : y = (x.1, BitVec.ofNat 4 x.2) := by simpa using hy
        exact (List.pairwise_cons.mp (by simpa using hs)).1 _ (List.mem_map.mpr ⟨z, hz, rfl⟩)

theorem bitsOn_sorted {w : Nat} (m : BitVec w) : (bitsOn m).Pairwise (· < ·) := List.Pairwise.filter _ List.pairwise_lt_range

theorem fpTrap_lt (g : Gang) (x : Sig) : g.fpTrap x < 16 := by
  unfold Gang.fpTrap
  split
  · decide
  · split <;> decide

end Machine
end Sys2Proof
end

