-- ==== Sys2Proof/Laws/Rows.lean ====
section
/-! SUPPORT. A lane-wise body that computes a given lane row, said once for a row that raises nothing and for one that does. -/
namespace Sys2Proof.Machine

theorem row_quiet {r : LaneRow} {f : State → Gang → Nat → Nat × Nat} {put : Gang → List (Nat × Nat) → Gang} {s : State} {g : Gang}
    {act : LaneMask} (hf : ∀ i, f s g i = r.res i) (hp : ∀ l, put g l = l.foldl (fun h x => r.put h x.1 x.2) g)
    (hc : g.CleanIn (g.live act) r.regs) (hq : r.quiet (g.live act)) :
    lanewise r.regs f put s g act = .ok s (r.write (g.live act) g) := by
  rw [lanewise_quiet hc (fun i hi => by rw [hf]; exact hq i hi), hp, List.foldl_map]
  simp only [hf]
  rfl

theorem row_raises {r : LaneRow} {f : State → Gang → Nat → Nat × Nat} {put : Gang → List (Nat × Nat) → Gang} {s : State} {g : Gang}
    {act : LaneMask} (hf : ∀ i, f s g i = r.res i) (hp : ∀ l, put g l = l.foldl (fun h x => r.put h x.1 x.2) g)
    (hc : g.CleanIn (g.live act) r.regs) (hq : ¬ r.quiet (g.live act)) (hb : ∀ i, (r.res i).2 < 16) :
    lanewise r.regs f put s g act =
      .lanes s (r.write (maskOf 64 ((bitsOn (g.live act)).filter (fun k => (r.res k).2 = 0))) g)
        (codesOf (((bitsOn (g.live act)).filter (fun k => (r.res k).2 ≠ 0)).map (fun k => (k, (r.res k).2)))) := by
  rw [lanewise_clean hc]
  simp only [hf, hp]
  have h1 : (((bitsOn (g.live act)).map (fun i => (i, r.res i))).filter (fun x => x.2.2 == 0)).map (fun x => (x.1, x.2.1)) =
      ((bitsOn (g.live act)).filter (fun k => (r.res k).2 = 0)).map (fun i => (i, (r.res i).1)) := by
    rw [List.filter_map, List.map_map]
    congr 1
  have h2 : (((bitsOn (g.live act)).map (fun i => (i, r.res i))).filter (fun x => x.2.2 != 0)).map (fun x => (x.1, x.2.2)) =
      ((bitsOn (g.live act)).filter (fun k => (r.res k).2 ≠ 0)).map (fun i => (i, (r.res i).2)) := by
    rw [List.filter_map, List.map_map]
    congr 1
    apply List.filter_congr
    intro k _
    simp [Function.comp, bne, decide_not]
    rfl
  simp only [h1, h2, List.foldl_map]
  have h3 : codesOf (((bitsOn (g.live act)).filter (fun k => (r.res k).2 ≠ 0)).map (fun k => (k, (r.res k).2))) ≠ [] := by
    rw [codesOf_eq]
    · intro he
      apply hq
      intro i hi
      by_contra hn
      have : i ∈ (bitsOn (g.live act)).filter (fun k => (r.res k).2 ≠ 0) := List.mem_filter.mpr ⟨hi, by simpa using hn⟩
      simp only [List.map_map, List.map_eq_nil_iff] at he
      rw [he] at this
      simp at this
    · rw [List.map_map]
      exact (List.Pairwise.filter _ (bitsOn_sorted _)).map _ (fun _ _ h => h)
    · intro x hx
      obtain ⟨k, hk, rfl⟩ := List.mem_map.mp hx
      have := (List.mem_filter.mp hk).2
      simp only [ne_eq, decide_not, Bool.not_eq_eq_eq_not, Bool.not_true, decide_eq_false_iff_not] at this
      exact ⟨by omega, hb k⟩
  unfold LaneRow.write
  rw [bitsOn_maskOf_filter]
  split
  · exact absurd (by assumption) h3
  · rfl

end Sys2Proof.Machine
end

