-- ==== Sys2Proof/Laws/Access.lean ====
section
/-! SUPPORT. What a lane-wise memory access comes to when every live active lane is out of bounds or reaches a place in this module. -/
namespace Sys2Proof.Machine

theorem live_eq_self {g : Gang} {m : LaneMask} : g.live (g.live m) = g.live m := by
  simp [Gang.live, BitVec.and_assoc]

theorem not_dead_of_mem {g : Gang} {m : LaneMask} {j : Nat} (h : j ∈ bitsOn (g.live m)) : g.dead.getLsbD j = false := by
  have := mem_bitsOn.mp h
  simp only [Gang.live, BitVec.getLsbD_and, BitVec.getLsbD_not, Bool.and_eq_true, Bool.not_eq_true'] at this
  exact this.2.2

/-- No far request is made for lanes that all stay in this module. -/
theorem farAsks_here {s : State} {g : Gang} {how : Ask} {l : List (Nat × List FarKey × Reach)} {ask : Nat → Option FarOp}
    (h : ∀ x ∈ l, x.2.2 = .oob ∨ ∃ pa va ord, x.2.2 = .at_ (.here pa) va ord) : farAsks s g how l ask = s := by
  unfold farAsks
  induction l generalizing s with
  | nil => rfl
  | cons x r ih =>
    rw [List.foldl_cons]
    have hx := h x (by simp)
    rcases hx with hx | ⟨pa, va, ord, hx⟩ <;> rw [hx] <;> exact ih (fun y hy => h y (by simp [hy]))

theorem foldl_congr_mem {α β : Type} {f f' : β → α → β} {l : List α} {b : β} (h : ∀ b, ∀ a ∈ l, f b a = f' b a) : l.foldl f b = l.foldl f' b := by
  induction l generalizing b with
  | nil => rfl
  | cons x r ih =>
    rw [List.foldl_cons, List.foldl_cons, h b x (by simp), ih (fun b a ha => h b a (by simp [ha]))]

/-- The reaches of the lanes of an access, by their places and the ORD bits of their pages. -/
def reachOf (place : Nat → Option (Nat × Nat)) (ord : Nat → Bool) (j : Nat) : Reach :=
  match place j with
  | some (pa, va) => .at_ (.here pa) va (ord j)
  | none => .oob

theorem bounds_reachOf (g : Gang) (bm : BitVec 4) (l : List Nat) (place : Nat → Option (Nat × Nat)) (ord : Nat → Bool) :
    g.bounds bm (l.map (fun j => (j, reachOf place ord j))) = g.boundsOf bm l place := by
  unfold Gang.bounds Gang.boundsOf
  congr 1
  induction l with
  | nil => rfl
  | cons j r ih =>
    have hj : (reachOf place ord j).bound? = some (place j).isNone := by
      unfold reachOf
      cases place j <;> rfl
    rw [List.map_cons, List.map_cons, List.filterMap_cons, hj, ih]
    rfl

/-- What a lane does in its turn, when it is alive and out of bounds or in place. -/
def LaneMem.turn (x : LaneMem) (place : Nat → Option (Nat × Nat)) (ord : Nat → Bool) (a : Acc) (j : Nat) : Acc :=
  match place j with
  | some (pa, va) => x.run { a with ord := ord j } j (.here pa) va
  | none => x.skip a j

/-- The lanes of an access in their turns, when all are alive and out of bounds or in place. -/
theorem lanes_eq {x : LaneMem} {place : Nat → Option (Nat × Nat)} {ord : Nat → Bool} (hz : ∀ (u : Gang) (j : Nat), (x.zero u j).dead = u.dead)
    (hr : ∀ (a : Acc) (j : Nat) (pa va : Nat), (x.run a j (.here pa) va).g.dead = a.g.dead) {l : List Nat} {a : Acc}
    (hd : ∀ j ∈ l, a.g.dead.getLsbD j = false) :
    (l.map (fun j => (j, reachOf place ord j))).foldl x.lane a = l.foldl (x.turn place ord) a := by
  induction l generalizing a with
  | nil => rfl
  | cons j r ih =>
    have hj := hd j (by simp)
    rw [List.map_cons, List.foldl_cons, List.foldl_cons]
    have e : x.lane a (j, reachOf place ord j) = x.turn place ord a j := by
      unfold LaneMem.lane LaneMem.turn reachOf
      simp only [hj, Bool.false_eq_true, if_false]
      cases place j <;> rfl
    rw [e]
    refine ih fun k hk => ?_
    have : (x.turn place ord a j).g.dead = a.g.dead := by
      unfold LaneMem.turn LaneMem.skip Acc.push
      cases place j with
      | none => dsimp only; split <;> exact hz _ _
      | some q => exact hr _ _ _ _
    rw [this]
    exact hd k (by simp [hk])

/-- Lanes that all stay in this module take no turns. -/
theorem mixedOrd_here {l : List (Nat × Reach)} (h : ∀ y ∈ l, y.2 = .oob ∨ ∃ pa va ord, y.2 = .at_ (.here pa) va ord) : mixedOrd l = false := by
  unfold mixedOrd
  rw [Bool.and_eq_false_iff]
  refine .inr (any_false fun y hy => ?_)
  rcases h y hy with hy | ⟨_, _, _, hy⟩ <;> rw [hy]

/-- No lane consumes poison at step 7: nothing is noted and nobody dies. -/
theorem takeBad_none (x : LaneMem) (s : State) (g : Gang) (rec_ : BitVec 128) (l : List (Nat × Reach)) : x.takeBad s g rec_ l 0 = (s, some g) := rfl

/-- A lane-wise access against which nothing stands runs its lanes in rising order and enters what they did. -/
theorem laneMem_eq {i : Instr} {s : State} {g : Gang} {x : LaneMem} {place : Nat → Option (Nat × Nat)}
    (h : LaneAccess i s g x.k x.h x.m x.b x.rule x.cls x.element x.data place)
    (hw : (x.kind == 1 || x.kind == 2) = x.rule.write)
    (hz : ∀ (u : Gang) (j : Nat), (x.zero u j).dead = u.dead)
    (hr : ∀ (a : Acc) (j : Nat) (pa va : Nat), (x.run a j (.here pa) va).g.dead = a.g.dead) :
    x.body s g (g.active (shape i)) =
      (let n := s.noted g x.k x.h x.m x.b x.rule (g.acting i)
       let y := n.countOp g x.cls (x.refs ++ Shape.mRef x.m.bm.toNat)
       let a : Acc := { s := y.1, g := y.2.boundsOf x.m.bm (bitsOn (g.acting i)) place, buffered := y.1.buffered y.2, base := y.1.effectsOf y.2
                        op := n.nextId }
       let a := (bitsOn (g.acting i)).foldl (x.turn place (ordsOf s g x.k x.h x.m x.b x.rule)) a
       a.finish x.kind [] a.codes) := by
  have hc := h.clean
  unfold Gang.acting at hc ⊢
  unfold LaneMem.body
  have h1 : ¬ 63 ≤ g.counter x.cls := by have := h.room; omega
  have h2 : ¬ ((if x.element then recBadType (g.bGet x.k.toNat) x.rule.size else recBadCell (g.bGet x.k.toNat)) = true) := by
    rw [h.fits]; simp
  have h3 : ¬ (x.writes && recRo (g.bGet x.k.toNat)) = true := by
    rw [show x.writes = x.rule.write from hw]
    cases hq : x.rule.write
    · simp
    · simp [h.writable hq]
  have hl : (bitsOn (g.live (g.active (shape i)))).map
        (fun j => (j, s.reachLane g (g.bGet x.k.toNat) x.m x.rule j (s.vsrc g x.h.lit .b32 x.b j))) =
      (bitsOn (g.live (g.active (shape i)))).map (fun j => (j, reachOf place (ordsOf s g x.k x.h x.m x.b x.rule) j)) := by
    apply List.map_congr_left
    intro j hj
    congr 1
    unfold reachOf ordsOf
    cases hp : place j with
    | none => exact h.out j hj hp
    | some q =>
      obtain ⟨o, ho, -⟩ := h.reaches j hj q.1 q.2 hp
      rw [ho]
      rfl
  rw [if_neg h1, if_neg h2, if_neg h3, badLanes_clean hc, consume_none (live_zero _)]
  dsimp only
  rw [hl]
  have hall : ∀ j, reachOf place (ordsOf s g x.k x.h x.m x.b x.rule) j = .oob ∨
      ∃ pa va ord, reachOf place (ordsOf s g x.k x.h x.m x.b x.rule) j = .at_ (.here pa) va ord := by
    intro j
    unfold reachOf
    cases place j with
    | none => exact .inl rfl
    | some q => exact .inr ⟨q.1, q.2, _, rfl⟩
  have hn : s.notReady (((bitsOn (g.live (g.active (shape i)))).map
      (fun j => (j, reachOf place (ordsOf s g x.k x.h x.m x.b x.rule) j))).map (·.2)) = false := by
    unfold State.notReady
    refine any_false fun r hr => ?_
    simp only [List.map_map, List.mem_map, Function.comp] at hr
    obtain ⟨j, hj, rfl⟩ := hr
    unfold reachOf
    cases hp : place j with
    | none => rfl
    | some q =>
      obtain ⟨o, -, ho, -⟩ := h.reaches j hj q.1 q.2 hp
      simp [ho]
  have ho : s.ordWaits g (((bitsOn (g.live (g.active (shape i)))).map
      (fun j => (j, reachOf place (ordsOf s g x.k x.h x.m x.b x.rule) j))).map (·.2)) = false := by
    unfold State.ordWaits
    rw [Bool.and_eq_false_iff]
    by_cases hf : s.farOrdOf g = true
    · refine .inr (any_false fun r hr => ?_)
      simp only [List.map_map, List.mem_map, Function.comp] at hr
      obtain ⟨j, hj, rfl⟩ := hr
      unfold reachOf
      cases hp : place j with
      | none => rfl
      | some q =>
        obtain ⟨o, hq, -, hx⟩ := h.reaches j hj q.1 q.2 hp
        show ordsOf s g x.k x.h x.m x.b x.rule j = false
        unfold ordsOf
        rw [hq]
        cases o
        · rfl
        · exact absurd (hx rfl) (by simp [hf])
    · exact .inl (by simpa using hf)
  have hd : g.badLanes (g.live (maskOf 64 ((((bitsOn (g.live (g.active (shape i)))).map
      (fun j => (j, reachOf place (ordsOf s g x.k x.h x.m x.b x.rule) j))).filter (fun y => y.2.isAt)).map (·.1)))) x.data = 0 := by
    apply badLanes_clean
    intro j hj r hr
    have hm := mem_bitsOn.mp hj
    simp only [Gang.live, BitVec.getLsbD_and, getLsbD_maskOf, Bool.and_eq_true, decide_eq_true_eq] at hm
    obtain ⟨y, hy, rfl⟩ := List.mem_map.mp hm.1.2
    obtain ⟨hy1, hy2⟩ := List.mem_filter.mp hy
    obtain ⟨j, hj', rfl⟩ := List.mem_map.mp hy1
    change j ∈ bitsOn (g.live (g.active (shape i))) at hj'
    refine h.dataClean j hj' ?_ r hr
    intro hp
    simp [reachOf, hp, Reach.isAt] at hy2
  rw [hn, hd, takeBad_none]
  have hmx : mixedOrd ((bitsOn (g.live (g.active (shape i)))).map (fun j => (j, reachOf place (ordsOf s g x.k x.h x.m x.b x.rule) j))) = false :=
    mixedOrd_here (by
      intro y hy
      obtain ⟨j, _, rfl⟩ := List.mem_map.mp hy
      exact hall j)
  simp only [Bool.false_eq_true, if_false, hmx]
  rw [farAsks_here (by
    intro y hy
    obtain ⟨z, hz', rfl⟩ := List.mem_map.mp hy
    obtain ⟨j, _, rfl⟩ := List.mem_map.mp (List.mem_filter.mp hz').1
    exact hall j)]
  simp only [Nat.lt_irrefl, if_false, ho, Bool.false_eq_true, h.unbegun]
  rw [bounds_reachOf]
  have hf1 : ((bitsOn (g.live (g.active (shape i)))).map (fun j => (j, reachOf place (ordsOf s g x.k x.h x.m x.b x.rule) j))).filterMap
      (fun y => y.2.fault?) = [] := by
    simp only [List.filterMap_eq_nil_iff, List.mem_map]
    rintro y ⟨j, _, rfl⟩
    rcases hall j with hj | ⟨_, _, _, hj⟩ <;> simp [hj, Reach.fault?]
  have hf2 : ((bitsOn (g.live (g.active (shape i)))).map (fun j => (j, reachOf place (ordsOf s g x.k x.h x.m x.b x.rule) j))).filterMap
      (fun y => y.2.code?.map (fun c => (y.1, c))) = [] := by
    simp only [List.filterMap_eq_nil_iff, List.mem_map]
    rintro y ⟨j, _, rfl⟩
    rcases hall j with hj | ⟨_, _, _, hj⟩ <;> simp [hj, Reach.code?]
  rw [hf1, hf2, List.nil_append]
  have hdead : ∀ (t : State), ∀ j ∈ bitsOn (g.live (g.active (shape i))),
      ((t.countOp g x.cls (x.refs ++ Shape.mRef x.m.bm.toNat)).2.boundsOf x.m.bm (bitsOn (g.live (g.active (shape i)))) place).dead.getLsbD j = false := by
    intro t j hj
    have : ((t.countOp g x.cls (x.refs ++ Shape.mRef x.m.bm.toNat)).2.boundsOf x.m.bm (bitsOn (g.live (g.active (shape i)))) place).dead = g.dead := by
      unfold Gang.boundsOf Gang.mBits
      split <;> rfl
    rw [this]
    exact not_dead_of_mem hj
  rw [lanes_eq hz hr (hdead _)]
  rfl

@[simp] theorem vSet_dead (g : Gang) (n lane x : Nat) (p : Bool) : (g.vSet n lane x p).dead = g.dead := rfl
@[simp] theorem vPut_dead (g : Gang) (t : Fmt) (n lane x : Nat) (p : Bool) : (g.vPut t n lane x p).dead = g.dead := by
  unfold Gang.vPut
  dsimp only
  split <;> rfl
@[simp] theorem vBytes_dead (g : Gang) (t : Fmt) (n lane : Nat) (l : List PByte) : (g.vBytes t n lane l).dead = g.dead := by
  unfold Gang.vBytes
  split <;> [rfl; exact vPut_dead _ _ _ _ _ _]

/-- A fold that keeps a shape is a fold over what varies in it. -/
theorem fold_mk {α β γ : Type} {l : List γ} {F : β → γ → β} {G : α → γ → α} (mk : α → β) (h : ∀ a, ∀ j ∈ l, F (mk a) j = mk (G a j)) (a : α) :
    l.foldl F (mk a) = mk (l.foldl G a) := by
  induction l generalizing a with
  | nil => rfl
  | cons x r ih => rw [List.foldl_cons, List.foldl_cons, h a x (by simp), ih (fun a j hj => h a j (by simp [hj]))]

/-- What the translations and checks of accesses change: counters, the caches, and the walks that wait. -/
def State.LooksLike (s t : State) : Prop := ∃ c d x w y, t = { s with ctr := c, ctrAt := d, tlb := x, walking := w, grants := y }

theorem State.LooksLike.refl (s : State) : s.LooksLike s := ⟨_, _, _, _, _, rfl⟩
theorem State.LooksLike.trans {s t u : State} : s.LooksLike t → t.LooksLike u → s.LooksLike u := by
  rintro ⟨_, _, _, _, _, rfl⟩ ⟨_, _, _, _, _, rfl⟩
  exact ⟨_, _, _, _, _, rfl⟩
theorem State.LooksLike.foldl {α : Type} {f : State → α → State} (h : ∀ (s : State) x, s.LooksLike (f s x)) (l : List α) (s : State) :
    s.LooksLike (l.foldl f s) := by
  induction l generalizing s with
  | nil => exact .refl s
  | cons x r ih => exact (h s x).trans (ih _)

theorem countAt_looks (s : State) (p : CtrPlace) (c : Ctr) (n : Nat) : s.LooksLike (s.countAt p c n) := ⟨_, _, _, _, _, rfl⟩
theorem fillTlb_looks (s : State) (core ctx va : Nat) (l : Leaf) (l2 : Bool) : s.LooksLike (s.fillTlb core ctx va l l2) := ⟨_, _, _, _, _, rfl⟩

theorem noteXlate_looks (s : State) (core agent ctx va : Nat) : s.LooksLike (s.noteXlate core agent ctx va) := by
  unfold State.noteXlate
  split
  · exact .refl s
  · split
    · exact (countAt_looks ..).trans (fillTlb_looks ..)
    · split
      · dsimp only
        split
        · exact .refl s
        · split
          · exact (countAt_looks s (.core core) .walksMerged 1).trans ⟨_, _, _, _, _, rfl⟩
          · exact ⟨_, _, _, _, _, rfl⟩
      · exact ((countAt_looks ..).trans (countAt_looks ..)).trans (countAt_looks ..)
      · exact (((countAt_looks ..).trans (countAt_looks ..)).trans (countAt_looks ..)).trans (fillTlb_looks ..)

theorem noteGrant_looks (s : State) (core ctx : Nat) (key : Word) (tag : BitVec 20) : s.LooksLike (s.noteGrant core ctx key tag) := by
  unfold State.noteGrant
  split
  · exact .refl s
  · split
    · exact countAt_looks ..
    · exact (countAt_looks s (.core core) .grantMisses 1).trans ⟨_, _, _, _, _, rfl⟩

theorem noteCheck_looks (s : State) (core ctx : Nat) (keys : List Word) (r : MemRule) (va : Nat) : s.LooksLike (s.noteCheck core ctx keys r va) := by
  unfold State.noteCheck
  split
  · exact .refl s
  · split
    · split
      · exact ⟨_, _, _, _, _, rfl⟩
      · split
        · exact .refl s
        · exact .foldl (fun t k => noteGrant_looks t core ctx k _) _ _
    · exact .refl s

theorem lookUp_looks (s : State) (core agent ctx : Nat) (keys : List Word) (r : MemRule) (va : Nat) :
    s.LooksLike (s.lookUp core agent ctx keys r va) := by
  unfold State.lookUp
  split
  · exact noteCheck_looks ..
  · exact (noteXlate_looks ..).trans (noteCheck_looks ..)

theorem notePages_looks (s : State) (core agent ctx : Nat) (l : List Nat) : s.LooksLike (s.notePages core agent ctx l) :=
  .foldl (fun _ _ => noteXlate_looks ..) _ _

/-- The translations and checks of a lane-wise access leave all but counters and caches alone. -/
theorem noted_looks (s : State) (g : Gang) (k : BitVec 4) (h : VH) (m : MH) (b : VSrc) (r : MemRule) (lanes : LaneMask) :
    s.LooksLike (s.noted g k h m b r lanes) := (notePages_looks ..).trans (.foldl (fun _ _ => noteCheck_looks ..) _ _)

theorem notedLine_looks (s : State) (g : Gang) (k : BitVec 4) (r : MemRule) (ix : Int) : s.LooksLike (s.notedLine g k r ix) := lookUp_looks ..

/-- What an access reads of the state that its translations and checks leave is what it reads of the state before them. -/
theorem State.LooksLike.reads {s t : State} (h : s.LooksLike t) :
    (∀ pa n, t.memRead pa n = s.memRead pa n) ∧ t.phys = s.phys ∧ (∀ g, t.buffered g = s.buffered g) ∧ (∀ g, t.effectsOf g = s.effectsOf g) ∧
      t.nextId = s.nextId ∧ t.far = s.far := by
  obtain ⟨_, _, _, _, _, rfl⟩ := h
  exact ⟨fun _ _ => rfl, rfl, fun _ => rfl, fun _ => rfl, rfl, rfl⟩

theorem countOp_memRead (s : State) (g : Gang) (c : OpCls) (r : List Ref) (pa n : Nat) : (s.countOp g c r).1.memRead pa n = s.memRead pa n := rfl
theorem countOp_phys (s : State) (g : Gang) (c : OpCls) (r : List Ref) : (s.countOp g c r).1.phys = s.phys := rfl

theorem finish_ok {a : Acc} {kind : Nat} (h1 : a.eff = []) (h2 : a.codes = []) : a.finish kind [] a.codes = .ok a.s a.g := by
  unfold Acc.finish
  rw [h1, h2]
  simp [codesOf]

/-- What an access reads of its gang. -/
structure Gang.Like (g v : Gang) : Prop where
  regs : v.v = g.v
  keys : v.key = g.key
  wids : v.wid = g.wid
  evs : v.evs = g.evs
  pc : v.pc = g.pc
  crew : v.crew = g.crew
  launch : v.launch = g.launch
  core : v.core = g.core
  slot : v.slot = g.slot
  dead : v.dead = g.dead

/-- Counting an operation and writing the bounds mask leave what an access reads of its gang. -/
theorem bounds_like (s : State) (g : Gang) (c : OpCls) (r : List Ref) (bm : BitVec 4) (l : List Nat) (place : Nat → Option (Nat × Nat)) :
    g.Like ((s.countOp g c r).2.boundsOf bm l place) := by
  unfold Gang.boundsOf Gang.mBits
  split <;> constructor <;> rfl

/-- A lane-wise access against which nothing stands, when every lane's turn keeps the shape `mk`: what finishes is the fold over what varies. -/
theorem laneMem_fold {i : Instr} {s : State} {g : Gang} {x : LaneMem} {place : Nat → Option (Nat × Nat)}
    (h : LaneAccess i s g x.k x.h x.m x.b x.rule x.cls x.element x.data place)
    (hw : (x.kind == 1 || x.kind == 2) = x.rule.write)
    (hz : ∀ (u : Gang) (j : Nat), (x.zero u j).dead = u.dead)
    (hr : ∀ (a : Acc) (j : Nat) (pa va : Nat), (x.run a j (.here pa) va).g.dead = a.g.dead)
    {α : Type} (mk : α → Acc) (G : α → Nat → α) (a0 : α)
    (h0 : mk a0 =
      (let n := s.noted g x.k x.h x.m x.b x.rule (g.acting i)
       { s := (n.countOp g x.cls (x.refs ++ Shape.mRef x.m.bm.toNat)).1
         g := (n.countOp g x.cls (x.refs ++ Shape.mRef x.m.bm.toNat)).2.boundsOf x.m.bm (bitsOn (g.acting i)) place
         buffered := n.buffered g, base := n.effectsOf g, op := n.nextId }))
    (hG : ∀ a, ∀ j ∈ bitsOn (g.acting i), x.turn place (ordsOf s g x.k x.h x.m x.b x.rule) (mk a) j = mk (G a j)) :
    x.body s g (g.active (shape i)) =
      (mk ((bitsOn (g.acting i)).foldl G a0)).finish x.kind [] (mk ((bitsOn (g.acting i)).foldl G a0)).codes := by
  rw [laneMem_eq h hw hz hr]
  dsimp only at h0 ⊢
  rw [← fold_mk mk hG, h0]
  rfl

/-- As `laneMem_fold`, for an access that enters no effect and raises nothing: it completes. -/
theorem laneMem_ok {i : Instr} {s : State} {g : Gang} {x : LaneMem} {place : Nat → Option (Nat × Nat)}
    (h : LaneAccess i s g x.k x.h x.m x.b x.rule x.cls x.element x.data place)
    (hw : (x.kind == 1 || x.kind == 2) = x.rule.write)
    (hz : ∀ (u : Gang) (j : Nat), (x.zero u j).dead = u.dead)
    (hr : ∀ (a : Acc) (j : Nat) (pa va : Nat), (x.run a j (.here pa) va).g.dead = a.g.dead)
    {α : Type} (mk : α → Acc) (G : α → Nat → α) (a0 : α)
    (h0 : mk a0 =
      (let n := s.noted g x.k x.h x.m x.b x.rule (g.acting i)
       { s := (n.countOp g x.cls (x.refs ++ Shape.mRef x.m.bm.toNat)).1
         g := (n.countOp g x.cls (x.refs ++ Shape.mRef x.m.bm.toNat)).2.boundsOf x.m.bm (bitsOn (g.acting i)) place
         buffered := n.buffered g, base := n.effectsOf g, op := n.nextId }))
    (hG : ∀ a, ∀ j ∈ bitsOn (g.acting i), x.turn place (ordsOf s g x.k x.h x.m x.b x.rule) (mk a) j = mk (G a j))
    (he : ∀ a, (mk a).eff = [] ∧ (mk a).codes = []) :
    x.body s g (g.active (shape i)) = .ok (mk ((bitsOn (g.acting i)).foldl G a0)).s (mk ((bitsOn (g.acting i)).foldl G a0)).g := by
  rw [laneMem_fold h hw hz hr mk G a0 h0 hG]
  exact finish_ok (he _).1 (he _).2

end Sys2Proof.Machine
end

