-- ==== Sys2Proof/Laws/Checks.lean ====
section
/-! SUPPORT. The conditions of the statements as checks that can be evaluated, so that a state that meets them is shown by evaluation. -/
namespace Sys2Proof.Machine

/-- The `n`-th of some checks that all hold. -/
theorem check_at {l : List Bool} (h : l.all id = true) (n : Nat) : l.getD n true = true := by
  cases hn : l[n]? with
  | none => rw [List.getD_eq_getElem?_getD, hn]; rfl
  | some x => rw [List.getD_eq_getElem?_getD, hn]; exact List.all_eq_true.mp h x (List.mem_of_getElem? hn)
/-- A check of which one part or the other holds. -/
theorem check_or {a b : Bool} (h : (a || b) = true) (ha : a = false) : b = true := by rw [ha] at h; exact h

def cleanInB (g : Gang) (m : LaneMask) (regs : List Nat) : Bool := (bitsOn m).all (fun i => regs.all (fun r => !g.vBad r i))

theorem cleanIn_of {g : Gang} {m : LaneMask} {regs : List Nat} (h : cleanInB g m regs = true) : g.CleanIn m regs := by
  intro i hi r hr
  have := List.all_eq_true.mp (List.all_eq_true.mp h i hi) r hr
  simpa using this

/-- Every register of `refs` is free of a condition of the pending result `p`. -/
def freeOf (refs : List Ref) (r : Ref) (ok : Bool) : Bool := !refs.contains r || ok
theorem freeOf_mem {refs : List Ref} {r : Ref} {ok : Bool} (h : freeOf refs r ok = true) (hm : r ∈ refs) : ok = true :=
  check_or h (by simpa using hm)

/-- The check of `Steps`. -/
def stepsB (s : State) (g : Gang) : Bool :=
  [s.cur == some (.gang g.core g.slot), s.gang? g.core g.slot == some g, g.stat == .ready, g.roomy, g.isHandler || !s.preCrews.contains g.crew,
    decide (g.notBefore ≤ s.cyc g.core), g.failed == []].all id

theorem steps_of {s : State} {g : Gang} (h : stepsB s g = true) : Steps s g where
  here := by simpa using check_at h 0
  placed := by simpa using check_at h 1
  ready := by simpa using check_at h 2
  roomy := by simpa using check_at h 3
  unsaved := by simpa using check_at h 4
  turn := by simpa using check_at h 5
  noFailed := by simpa using check_at h 6

/-- The check of `Cleared`. -/
def clearedB (i : Instr) (s : State) (g : Gang) : Bool :=
  let sh := shape i
  let refs := sh.reads ++ sh.writes
  [stepsB s g, !g.tokenless sh, decide (vTop sh ≤ g.n),
    !g.schk || g.pend.all (fun p => freeOf refs p.ref (decide (p.lat ≤ p.sum))), g.pend.all (fun p => freeOf refs p.ref (decide (p.readyAt ≤ s.cyc g.core))),
    g.busy.all (fun b => b.refs.all (fun r => !refs.contains r) && b.hold.all (fun r => !sh.writes.contains r)), sh.reads.all (fun r => !g.refBad r),
    !g.pcBad, !g.stackBad sh.opc.toNat, !g.shadowSpoiled].all id

theorem cleared_of {i : Instr} {s : State} {g : Gang} (h : clearedB i s g = true) : Cleared i s g where
  toSteps := steps_of (check_at h 0)
  tokened := by simpa using check_at h 1
  regs := by simpa using check_at h 2
  counts hk p hp hm := by
    have := List.all_eq_true.mp (check_or (check_at h 3) (by simp [hk])) p hp
    simpa using freeOf_mem this hm
  fixed p hp hm := by simpa using freeOf_mem (List.all_eq_true.mp (check_at h 4) p hp) hm
  late := by simpa using check_at h 5
  clean := by simpa using check_at h 6
  cleanPc := by simpa using check_at h 7
  cleanStack := by simpa using check_at h 8
  twin := by simpa using check_at h 9

/-- The check of `Issues`. -/
def issuesB (i : Instr) (s : State) (g : Gang) : Bool :=
  [clearedB i s g, !s.ordered g (shape i), !compared (shape i) || (g.checked || (g.isHandler || !s.shadowed g.launch))].all id

theorem issues_of {i : Instr} {s : State} {g : Gang} (h : issuesB i s g = true) : Issues i s g where
  toCleared := cleared_of (check_at h 0)
  ordered := by simpa using check_at h 1
  compared hc := by simpa using check_or (check_at h 2) (by simp [hc])

def copyIssuesB (s : State) (core ix : Nat) (c : CopyCtx) (srcs : List KSc) : Bool :=
  [s.cur == some (.copy core ix), s.ctx? core ix == some c, c.program, c.stat == .running, c.park == none, !s.preCrews.contains c.crew,
    c.rows.all (fun r => r.versioned == none), srcs.all (fun x => !c.bad x)].all id

theorem copyIssues_of {s : State} {core ix : Nat} {c : CopyCtx} {srcs : List KSc} (h : copyIssuesB s core ix c srcs = true) :
    CopyIssues s core ix c srcs where
  here := by simpa using check_at h 0
  placed := by simpa using check_at h 1
  program := check_at h 2
  running := by simpa using check_at h 3
  unparked := by simpa using check_at h 4
  unsaved := by simpa using check_at h 5
  settled := by simpa using check_at h 6
  clean := by simpa using check_at h 7

def servesB (s : State) : Bool := [s.fatal == none, s.readyBits.getLsbD 0, s.mbox == []].all id

theorem serves_of {s : State} (h : servesB s = true) : Serves s where
  whole := by simpa using check_at h 0
  mbox := check_at h 1
  first := by simpa using check_at h 2

/-- The checks that an access by lanes and one in which lanes raise share. -/
def laneAccessChecks (i : Instr) (s : State) (g : Gang) (k : BitVec 4) (b : VSrc) (rule : MemRule) (cls : OpCls) (element : Bool) : List Bool :=
  [issuesB i s g, decide (g.counter cls < 63), !(if element then recBadType (g.bGet k.toNat) rule.size else recBadCell (g.bGet k.toNat)),
    !rule.write || !recRo (g.bGet k.toNat), cleanInB g (g.acting i) (srcRegs .b32 b), g.turnsTaken == []]

/-- What a lane's access comes to: out of bounds where `q` is none, else a ready place that waits for no peer. -/
def lanePlaced (s : State) (g : Gang) (r : Reach) (q : Option (Nat × Nat)) (dataBad : Bool) : Bool :=
  match q with
  | none => r == .oob
  | some (pa, va) => (r == .at_ (.here pa) va false || (r == .at_ (.here pa) va true && !s.farOrdOf g)) && (s.memReady pa && !dataBad)

theorem lanePlaced_none {s : State} {g : Gang} {r : Reach} {b : Bool} (h : lanePlaced s g r none b = true) : r = .oob := by
  simpa [lanePlaced] using h
theorem lanePlaced_some {s : State} {g : Gang} {r : Reach} {pa va : Nat} {b : Bool} (h : lanePlaced s g r (some (pa, va)) b = true) :
    (∃ ord, r = .at_ (.here pa) va ord ∧ s.memReady pa = true ∧ (ord = true → s.farOrdOf g = false)) ∧ b = false := by
  simp only [lanePlaced, Bool.and_eq_true, Bool.or_eq_true, beq_iff_eq, Bool.not_eq_true'] at h
  refine ⟨?_, h.2.2⟩
  cases h.1 with
  | inl e => exact ⟨false, e, h.2.1, nofun⟩
  | inr e => exact ⟨true, e.1, h.2.1, fun _ => e.2⟩

def laneAccessB (i : Instr) (s : State) (g : Gang) (k : BitVec 4) (h : VH) (m : MH) (b : VSrc) (rule : MemRule) (cls : OpCls)
    (element : Bool) (data : List Nat) (place : Nat → Option (Nat × Nat)) : Bool :=
  (laneAccessChecks i s g k b rule cls element).all id && (bitsOn (g.acting i)).all (fun j =>
    lanePlaced s g (s.reachLane g (g.bGet k.toNat) m rule j (s.vsrc g h.lit .b32 b j)) (place j) (data.any (fun r => g.vBad r j)))

theorem laneAccess_of {i : Instr} {s : State} {g : Gang} {k : BitVec 4} {h : VH} {m : MH} {b : VSrc} {rule : MemRule} {cls : OpCls}
    {element : Bool} {data : List Nat} {place : Nat → Option (Nat × Nat)} (hq : laneAccessB i s g k h m b rule cls element data place = true) :
    LaneAccess i s g k h m b rule cls element data place := by
  have hc := (Bool.and_eq_true_iff.mp hq).1
  have hl (j : Nat) (hj : j ∈ bitsOn (g.acting i)) := List.all_eq_true.mp (Bool.and_eq_true_iff.mp hq).2 j hj
  exact {
    issues := issues_of (check_at hc 0), room := by simpa [laneAccessChecks] using check_at hc 1, fits := by simpa [laneAccessChecks] using check_at hc 2
    writable := fun hw => by simpa [laneAccessChecks] using check_or (check_at hc 3) (by simp [hw])
    clean := cleanIn_of (check_at hc 4), unbegun := by simpa [laneAccessChecks] using check_at hc 5
    dataClean := fun j hj hp r hr => by
      obtain ⟨q, hq⟩ := Option.ne_none_iff_exists'.mp hp
      have := (lanePlaced_some (hq ▸ hl j hj)).2
      simpa using List.any_eq_false.mp this r hr
    out := fun j hj hp => lanePlaced_none (hp ▸ hl j hj)
    reaches := fun j hj pa va hp => (lanePlaced_some (hp ▸ hl j hj)).1 }

def laneRaisesB (i : Instr) (s : State) (g : Gang) (k : BitVec 4) (h : VH) (m : MH) (b : VSrc) (rule : MemRule) (cls : OpCls)
    (element : Bool) (data : List Nat) (place : Nat → Option (Nat × Nat)) (code : Nat → Nat) : Bool :=
  ((laneAccessChecks i s g k b rule cls element).all id && s.far == []) && ((bitsOn (g.acting i)).any (fun j => code j != 0) &&
    (bitsOn (g.acting i)).all (fun j =>
      let r := s.reachLane g (g.bGet k.toNat) m rule j (s.vsrc g h.lit .b32 b j)
      if code j = 0 then lanePlaced s g r (place j) (data.any (fun r => g.vBad r j)) else r == .trap (code j)))

theorem laneRaises_of {i : Instr} {s : State} {g : Gang} {k : BitVec 4} {h : VH} {m : MH} {b : VSrc} {rule : MemRule} {cls : OpCls}
    {element : Bool} {data : List Nat} {place : Nat → Option (Nat × Nat)} {code : Nat → Nat}
    (hq : laneRaisesB i s g k h m b rule cls element data place code = true) : LaneRaises i s g k h m b rule cls element data place code := by
  have hf := Bool.and_eq_true_iff.mp (Bool.and_eq_true_iff.mp hq).1
  have hr := Bool.and_eq_true_iff.mp (Bool.and_eq_true_iff.mp hq).2
  have hc := hf.1
  have hl (j : Nat) (hj : j ∈ bitsOn (g.acting i)) (h0 : code j = 0) := by
    have := List.all_eq_true.mp hr.2 j hj
    rwa [if_pos h0] at this
  exact {
    issues := issues_of (check_at hc 0), room := by simpa [laneAccessChecks] using check_at hc 1, fits := by simpa [laneAccessChecks] using check_at hc 2
    writable := fun hw => by simpa [laneAccessChecks] using check_or (check_at hc 3) (by simp [hw])
    clean := cleanIn_of (check_at hc 4), unbegun := by simpa [laneAccessChecks] using check_at hc 5
    dataClean := fun j hj h0 hp r hr => by
      obtain ⟨q, hq⟩ := Option.ne_none_iff_exists'.mp hp
      have := (lanePlaced_some (hq ▸ hl j hj h0)).2
      simpa using List.any_eq_false.mp this r hr
    raises := fun j hj h0 => by
      have := List.all_eq_true.mp hr.2 j hj
      rw [if_neg h0] at this
      simpa using this
    out := fun j hj h0 hp => lanePlaced_none (hp ▸ hl j hj h0)
    reaches := fun j hj h0 pa va hp => (lanePlaced_some (hp ▸ hl j hj h0)).1
    fresh := fun f hm => by rw [eq_of_beq hf.2] at hm; cases hm
    raised := by simpa using List.any_eq_true.mp hr.1 }

def lineAccessB (i : Instr) (s : State) (g : Gang) (k : BitVec 4) (rule : MemRule) (cls : OpCls) (element : Bool) (ix : Int) (pa va : Nat) : Bool :=
  [issuesB i s g, decide (g.counter cls < 63), !(if element then recBadType (g.bGet k.toNat) rule.size else recBadCell (g.bGet k.toNat)),
    !rule.write || !recRo (g.bGet k.toNat), decide (0 ≤ ix), decide (ix < recExtent (g.bGet k.toNat)),
    lanePlaced s g (s.reachLine g rule (recAddr (g.bGet k.toNat) ix.toNat)) (some (pa, va))
      false].all id

theorem lineAccess_of {i : Instr} {s : State} {g : Gang} {k : BitVec 4} {rule : MemRule} {cls : OpCls} {element : Bool} {ix : Int} {pa va : Nat}
    (hq : lineAccessB i s g k rule cls element ix pa va = true) : LineAccess i s g k rule cls element ix pa va where
  issues := issues_of (check_at hq 0)
  room := by simpa using check_at hq 1
  fits := by simpa using check_at hq 2
  writable hw := by simpa using check_or (check_at hq 3) (by simp [hw])
  inside := ⟨by simpa using check_at hq 4, by simpa using check_at hq 5⟩
  reaches := (lanePlaced_some (check_at hq 6)).1.imp fun _ h => ⟨h.1, h.2.2⟩
  ready := (lanePlaced_some (check_at hq 6)).1.elim fun _ h => h.2.1

/-- What a lane's scratch access comes to. -/
def scratchPlaced (r : Reach) (q : Option (Nat × Nat)) (dataBad : Bool) : Bool :=
  match q with
  | none => r == .oob
  | some (o, va) => r == .at_ (.here o) va false && !dataBad

def scratchAccessB (i : Instr) (s : State) (g : Gang) (h : VH) (m : MH) (t : Fmt) (b : VSrc) (cls : OpCls) (data : List Nat) (bytes : Nat)
    (place : Nat → Option (Nat × Nat)) : Bool :=
  [issuesB i s g, decide (g.counter cls < 63), cleanInB g (g.acting i) (srcRegs .b32 b), (bitsOn (g.acting i)).all (fun j =>
    scratchPlaced (scratchReach t.bytes bytes m (s.vsrc g h.lit .b32 b j)) (place j) (data.any (fun r => g.vBad r j)))].all id

theorem scratchPlaced_none {r : Reach} {b : Bool} (h : scratchPlaced r none b = true) : r = .oob := by simpa [scratchPlaced] using h
theorem scratchPlaced_some {r : Reach} {o va : Nat} {b : Bool} (h : scratchPlaced r (some (o, va)) b = true) :
    r = .at_ (.here o) va false ∧ b = false := by simpa [scratchPlaced] using h

theorem scratchAccess_of {i : Instr} {s : State} {g : Gang} {h : VH} {m : MH} {t : Fmt} {b : VSrc} {cls : OpCls} {data : List Nat} {bytes : Nat}
    {place : Nat → Option (Nat × Nat)} (hq : scratchAccessB i s g h m t b cls data bytes place = true) :
    ScratchAccess i s g h m t b cls data bytes place where
  issues := issues_of (check_at hq 0)
  room := by simpa using check_at hq 1
  clean := cleanIn_of (check_at hq 2)
  dataClean j hj hp r hr := by
    obtain ⟨q, e⟩ := Option.ne_none_iff_exists'.mp hp
    have := (scratchPlaced_some (e ▸ List.all_eq_true.mp (check_at hq 3) j hj)).2
    simpa using List.any_eq_false.mp this r hr
  out j hj hp := scratchPlaced_none (hp ▸ List.all_eq_true.mp (check_at hq 3) j hj)
  reaches j hj o va hp := (scratchPlaced_some (hp ▸ List.all_eq_true.mp (check_at hq 3) j hj)).1

def scratchRaisesB (i : Instr) (s : State) (g : Gang) (h : VH) (m : MH) (t : Fmt) (b : VSrc) (cls : OpCls) (data : List Nat) (bytes : Nat)
    (place : Nat → Option (Nat × Nat)) (mis : Nat → Bool) : Bool :=
  [issuesB i s g, decide (g.counter cls < 63), cleanInB g (g.acting i) (srcRegs .b32 b), (bitsOn (g.acting i)).any mis, (bitsOn (g.acting i)).all (fun j =>
    let r := scratchReach t.bytes bytes m (s.vsrc g h.lit .b32 b j)
    if mis j = false then scratchPlaced r (place j) (data.any (fun r => g.vBad r j)) else r == .trap 2)].all id

theorem scratchRaises_of {i : Instr} {s : State} {g : Gang} {h : VH} {m : MH} {t : Fmt} {b : VSrc} {cls : OpCls} {data : List Nat} {bytes : Nat}
    {place : Nat → Option (Nat × Nat)} {mis : Nat → Bool} (hq : scratchRaisesB i s g h m t b cls data bytes place mis = true) :
    ScratchRaises i s g h m t b cls data bytes place mis := by
  have hl (j : Nat) (hj : j ∈ bitsOn (g.acting i)) (h0 : mis j = false) := by
    have := List.all_eq_true.mp (check_at hq 4) j hj
    rwa [if_pos h0] at this
  exact {
    issues := issues_of (check_at hq 0), room := by simpa using check_at hq 1, clean := cleanIn_of (check_at hq 2)
    dataClean := fun j hj h0 hp r hr => by
      obtain ⟨q, e⟩ := Option.ne_none_iff_exists'.mp hp
      have := (scratchPlaced_some (e ▸ hl j hj h0)).2
      simpa using List.any_eq_false.mp this r hr
    raises := fun j hj h1 => by
      have := List.all_eq_true.mp (check_at hq 4) j hj
      rw [if_neg (by simp [h1])] at this
      simpa using this
    out := fun j hj h0 hp => scratchPlaced_none (hp ▸ hl j hj h0)
    reaches := fun j hj h0 o va hp => (scratchPlaced_some (hp ▸ hl j hj h0)).1
    raised := by simpa using List.any_eq_true.mp (check_at hq 3) }

end Sys2Proof.Machine
end

