-- ==== Sys2Proof/Laws/Commit.lean ====
section
/-! SUPPORT. How a commit goes through a buffer: what it applies is a front part, and it stops only where an effect waits for its turn (R84, R301, R303). -/
namespace Sys2Proof.Machine

theorem applyInOrder_front {α : Type} (st : α → State) (launch : Nat) (f : α → Eff → α) (l : List Eff) (n : Nat) (x : α) :
    ∃ m ≤ l.length, applyInOrder st launch f l n x = ((l.take m).foldl f x, n + m) ∧
      (m < l.length → ∃ e, l[m]? = some e ∧ (st ((l.take m).foldl f x)).commitWaits launch e = true) := by
  induction l generalizing n x with
  | nil => exact ⟨0, by simp, rfl, by simp⟩
  | cons e r ih =>
    unfold applyInOrder
    split
    · next h => exact ⟨0, by simp, by simp, fun _ => ⟨e, by simp, by simpa using h⟩⟩
    · obtain ⟨m, hm, he, hw⟩ := ih (n + 1) (f x e)
      refine ⟨m + 1, by simpa using hm, by rw [he]; simp; omega, fun h => ?_⟩
      obtain ⟨y, h1, h2⟩ := hw (by simpa using h)
      exact ⟨y, by simpa using h1, by simpa using h2⟩

/-- With no commit of the launch unanswered nothing waits, and all is applied. -/
theorem applyInOrder_all {α : Type} (st : α → State) (launch : Nat) (f : α → Eff → α) (l : List Eff) (n : Nat) (x : α)
    (h : ∀ y, ∀ e ∈ l, (st y).commitWaits launch e = false) : applyInOrder st launch f l n x = (l.foldl f x, n + l.length) := by
  obtain ⟨m, hm, he, hw⟩ := applyInOrder_front st launch f l n x
  rcases Nat.lt_or_eq_of_le hm with hlt | rfl
  · obtain ⟨e, h1, h2⟩ := hw hlt
    rw [h _ e (List.mem_of_getElem? h1)] at h2
    cases h2
  · rw [he, List.take_length]

/-- An effect on a page with ORD = 0 waits for nothing. -/
theorem commitWaits_relaxed (s : State) (launch : Nat) {e : Eff} (h : e.ord = false) : s.commitWaits launch e = false := by simp [State.commitWaits, h]

end Sys2Proof.Machine
end

