-- ==== Sys2Proof/Laws/State.lean ====
section
/-! SUPPORT. What each update of the state leaves of each field. -/
namespace Sys2Proof.Machine

@[simp] theorem State.putGang_mem (s : State) (g : Gang) : (s.putGang g).mem = s.mem := rfl
@[simp] theorem State.putGang_memPois (s : State) (g : Gang) : (s.putGang g).memPois = s.memPois := rfl
@[simp] theorem State.putGang_vers (s : State) (g : Gang) : (s.putGang g).vers = s.vers := rfl
@[simp] theorem State.putGang_ctxRegs (s : State) (g : Gang) : (s.putGang g).ctxRegs = s.ctxRegs := rfl
@[simp] theorem State.putGang_tlb (s : State) (g : Gang) : (s.putGang g).tlb = s.tlb := rfl
@[simp] theorem State.putGang_walking (s : State) (g : Gang) : (s.putGang g).walking = s.walking := rfl
@[simp] theorem State.putGang_grants (s : State) (g : Gang) : (s.putGang g).grants = s.grants := rfl
@[simp] theorem State.putGang_fqPend (s : State) (g : Gang) : (s.putGang g).fqPend = s.fqPend := rfl
@[simp] theorem State.putGang_held (s : State) (g : Gang) : (s.putGang g).held = s.held := rfl
@[simp] theorem State.putGang_qtbase (s : State) (g : Gang) : (s.putGang g).qtbase = s.qtbase := rfl
@[simp] theorem State.putGang_kickFrame (s : State) (g : Gang) : (s.putGang g).kickFrame = s.kickFrame := rfl
@[simp] theorem State.putGang_qFresh (s : State) (g : Gang) : (s.putGang g).qFresh = s.qFresh := rfl
@[simp] theorem State.putGang_pre0 (s : State) (g : Gang) : (s.putGang g).pre0 = s.pre0 := rfl
@[simp] theorem State.putGang_pre1 (s : State) (g : Gang) : (s.putGang g).pre1 = s.pre1 := rfl
@[simp] theorem State.putGang_preCrews (s : State) (g : Gang) : (s.putGang g).preCrews = s.preCrews := rfl
@[simp] theorem State.putGang_preSaved (s : State) (g : Gang) : (s.putGang g).preSaved = s.preSaved := rfl
@[simp] theorem State.putGang_acl (s : State) (g : Gang) : (s.putGang g).acl = s.acl := rfl
@[simp] theorem State.putGang_kicks (s : State) (g : Gang) : (s.putGang g).kicks = s.kicks := rfl
@[simp] theorem State.putGang_kicksHeld (s : State) (g : Gang) : (s.putGang g).kicksHeld = s.kicksHeld := rfl
@[simp] theorem State.putGang_pool0 (s : State) (g : Gang) : (s.putGang g).pool0 = s.pool0 := rfl
@[simp] theorem State.putGang_pool1 (s : State) (g : Gang) : (s.putGang g).pool1 = s.pool1 := rfl
@[simp] theorem State.putGang_lastGrant0 (s : State) (g : Gang) : (s.putGang g).lastGrant0 = s.lastGrant0 := rfl
@[simp] theorem State.putGang_lastGrant1 (s : State) (g : Gang) : (s.putGang g).lastGrant1 = s.lastGrant1 := rfl
@[simp] theorem State.putGang_ctr (s : State) (g : Gang) : (s.putGang g).ctr = s.ctr := rfl
@[simp] theorem State.putGang_ctrAt (s : State) (g : Gang) : (s.putGang g).ctrAt = s.ctrAt := rfl
@[simp] theorem State.putGang_readyBits (s : State) (g : Gang) : (s.putGang g).readyBits = s.readyBits := rfl
@[simp] theorem State.putGang_boot (s : State) (g : Gang) : (s.putGang g).boot = s.boot := rfl
@[simp] theorem State.putGang_image (s : State) (g : Gang) : (s.putGang g).image = s.image := rfl
@[simp] theorem State.putGang_watts (s : State) (g : Gang) : (s.putGang g).watts = s.watts := rfl
@[simp] theorem State.putGang_zeroAt (s : State) (g : Gang) : (s.putGang g).zeroAt = s.zeroAt := rfl
@[simp] theorem State.putGang_fatal (s : State) (g : Gang) : (s.putGang g).fatal = s.fatal := rfl
@[simp] theorem State.putGang_dumpBase (s : State) (g : Gang) : (s.putGang g).dumpBase = s.dumpBase := rfl
@[simp] theorem State.putGang_dumpLen (s : State) (g : Gang) : (s.putGang g).dumpLen = s.dumpLen := rfl
@[simp] theorem State.putGang_host (s : State) (g : Gang) : (s.putGang g).host = s.host := rfl
@[simp] theorem State.putGang_bar0 (s : State) (g : Gang) : (s.putGang g).bar0 = s.bar0 := rfl
@[simp] theorem State.putGang_bar1 (s : State) (g : Gang) : (s.putGang g).bar1 = s.bar1 := rfl
@[simp] theorem State.putGang_submitted (s : State) (g : Gang) : (s.putGang g).submitted = s.submitted := rfl
@[simp] theorem State.putGang_mbox (s : State) (g : Gang) : (s.putGang g).mbox = s.mbox := rfl
@[simp] theorem State.putGang_reports (s : State) (g : Gang) : (s.putGang g).reports = s.reports := rfl
@[simp] theorem State.putGang_ports (s : State) (g : Gang) : (s.putGang g).ports = s.ports := rfl
@[simp] theorem State.putGang_peerNo (s : State) (g : Gang) : (s.putGang g).peerNo = s.peerNo := rfl
@[simp] theorem State.putGang_far (s : State) (g : Gang) : (s.putGang g).far = s.far := rfl
@[simp] theorem State.putGang_farOut (s : State) (g : Gang) : (s.putGang g).farOut = s.farOut := rfl
@[simp] theorem State.putGang_farIn (s : State) (g : Gang) : (s.putGang g).farIn = s.farIn := rfl
@[simp] theorem State.putGang_launches (s : State) (g : Gang) : (s.putGang g).launches = s.launches := rfl
@[simp] theorem State.putGang_crews (s : State) (g : Gang) : (s.putGang g).crews = s.crews := rfl
@[simp] theorem State.putGang_cores (s : State) (g : Gang) : (s.putGang g).cores = s.cores := rfl
@[simp] theorem State.putGang_ctxs (s : State) (g : Gang) : (s.putGang g).ctxs = s.ctxs := rfl
@[simp] theorem State.putGang_leases (s : State) (g : Gang) : (s.putGang g).leases = s.leases := rfl
@[simp] theorem State.putGang_recovered (s : State) (g : Gang) : (s.putGang g).recovered = s.recovered := rfl
@[simp] theorem State.putGang_recovering (s : State) (g : Gang) : (s.putGang g).recovering = s.recovering := rfl
@[simp] theorem State.putGang_outside (s : State) (g : Gang) : (s.putGang g).outside = s.outside := rfl
@[simp] theorem State.putGang_cur (s : State) (g : Gang) : (s.putGang g).cur = s.cur := rfl
@[simp] theorem State.putGang_agenda (s : State) (g : Gang) : (s.putGang g).agenda = s.agenda := rfl
@[simp] theorem State.putGang_picks (s : State) (g : Gang) : (s.putGang g).picks = s.picks := rfl
@[simp] theorem State.putGang_nextId (s : State) (g : Gang) : (s.putGang g).nextId = s.nextId := rfl
@[simp] theorem State.putGang_nextLaunch (s : State) (g : Gang) : (s.putGang g).nextLaunch = s.nextLaunch := rfl
@[simp] theorem State.putGang_nextCrew (s : State) (g : Gang) : (s.putGang g).nextCrew = s.nextCrew := rfl
@[simp] theorem State.putGang_nextAge (s : State) (g : Gang) : (s.putGang g).nextAge = s.nextAge := rfl
@[simp] theorem State.putGang_turn (s : State) (g : Gang) : (s.putGang g).turn = s.turn := rfl

@[simp] theorem State.dropGang_mem (s : State) (c k : Nat) : (s.dropGang c k).mem = s.mem := rfl
@[simp] theorem State.dropGang_memPois (s : State) (c k : Nat) : (s.dropGang c k).memPois = s.memPois := rfl
@[simp] theorem State.dropGang_vers (s : State) (c k : Nat) : (s.dropGang c k).vers = s.vers := rfl
@[simp] theorem State.dropGang_ctxRegs (s : State) (c k : Nat) : (s.dropGang c k).ctxRegs = s.ctxRegs := rfl
@[simp] theorem State.dropGang_tlb (s : State) (c k : Nat) : (s.dropGang c k).tlb = s.tlb := rfl
@[simp] theorem State.dropGang_walking (s : State) (c k : Nat) : (s.dropGang c k).walking = s.walking := rfl
@[simp] theorem State.dropGang_grants (s : State) (c k : Nat) : (s.dropGang c k).grants = s.grants := rfl
@[simp] theorem State.dropGang_fqPend (s : State) (c k : Nat) : (s.dropGang c k).fqPend = s.fqPend := rfl
@[simp] theorem State.dropGang_held (s : State) (c k : Nat) : (s.dropGang c k).held = s.held := rfl
@[simp] theorem State.dropGang_qtbase (s : State) (c k : Nat) : (s.dropGang c k).qtbase = s.qtbase := rfl
@[simp] theorem State.dropGang_kickFrame (s : State) (c k : Nat) : (s.dropGang c k).kickFrame = s.kickFrame := rfl
@[simp] theorem State.dropGang_qFresh (s : State) (c k : Nat) : (s.dropGang c k).qFresh = s.qFresh := rfl
@[simp] theorem State.dropGang_pre0 (s : State) (c k : Nat) : (s.dropGang c k).pre0 = s.pre0 := rfl
@[simp] theorem State.dropGang_pre1 (s : State) (c k : Nat) : (s.dropGang c k).pre1 = s.pre1 := rfl
@[simp] theorem State.dropGang_preCrews (s : State) (c k : Nat) : (s.dropGang c k).preCrews = s.preCrews := rfl
@[simp] theorem State.dropGang_preSaved (s : State) (c k : Nat) : (s.dropGang c k).preSaved = s.preSaved := rfl
@[simp] theorem State.dropGang_acl (s : State) (c k : Nat) : (s.dropGang c k).acl = s.acl := rfl
@[simp] theorem State.dropGang_kicks (s : State) (c k : Nat) : (s.dropGang c k).kicks = s.kicks := rfl
@[simp] theorem State.dropGang_kicksHeld (s : State) (c k : Nat) : (s.dropGang c k).kicksHeld = s.kicksHeld := rfl
@[simp] theorem State.dropGang_pool0 (s : State) (c k : Nat) : (s.dropGang c k).pool0 = s.pool0 := rfl
@[simp] theorem State.dropGang_pool1 (s : State) (c k : Nat) : (s.dropGang c k).pool1 = s.pool1 := rfl
@[simp] theorem State.dropGang_lastGrant0 (s : State) (c k : Nat) : (s.dropGang c k).lastGrant0 = s.lastGrant0 := rfl
@[simp] theorem State.dropGang_lastGrant1 (s : State) (c k : Nat) : (s.dropGang c k).lastGrant1 = s.lastGrant1 := rfl
@[simp] theorem State.dropGang_ctr (s : State) (c k : Nat) : (s.dropGang c k).ctr = s.ctr := rfl
@[simp] theorem State.dropGang_ctrAt (s : State) (c k : Nat) : (s.dropGang c k).ctrAt = s.ctrAt := rfl
@[simp] theorem State.dropGang_readyBits (s : State) (c k : Nat) : (s.dropGang c k).readyBits = s.readyBits := rfl
@[simp] theorem State.dropGang_boot (s : State) (c k : Nat) : (s.dropGang c k).boot = s.boot := rfl
@[simp] theorem State.dropGang_image (s : State) (c k : Nat) : (s.dropGang c k).image = s.image := rfl
@[simp] theorem State.dropGang_watts (s : State) (c k : Nat) : (s.dropGang c k).watts = s.watts := rfl
@[simp] theorem State.dropGang_zeroAt (s : State) (c k : Nat) : (s.dropGang c k).zeroAt = s.zeroAt := rfl
@[simp] theorem State.dropGang_fatal (s : State) (c k : Nat) : (s.dropGang c k).fatal = s.fatal := rfl
@[simp] theorem State.dropGang_dumpBase (s : State) (c k : Nat) : (s.dropGang c k).dumpBase = s.dumpBase := rfl
@[simp] theorem State.dropGang_dumpLen (s : State) (c k : Nat) : (s.dropGang c k).dumpLen = s.dumpLen := rfl
@[simp] theorem State.dropGang_host (s : State) (c k : Nat) : (s.dropGang c k).host = s.host := rfl
@[simp] theorem State.dropGang_bar0 (s : State) (c k : Nat) : (s.dropGang c k).bar0 = s.bar0 := rfl
@[simp] theorem State.dropGang_bar1 (s : State) (c k : Nat) : (s.dropGang c k).bar1 = s.bar1 := rfl
@[simp] theorem State.dropGang_submitted (s : State) (c k : Nat) : (s.dropGang c k).submitted = s.submitted := rfl
@[simp] theorem State.dropGang_mbox (s : State) (c k : Nat) : (s.dropGang c k).mbox = s.mbox := rfl
@[simp] theorem State.dropGang_reports (s : State) (c k : Nat) : (s.dropGang c k).reports = s.reports := rfl
@[simp] theorem State.dropGang_ports (s : State) (c k : Nat) : (s.dropGang c k).ports = s.ports := rfl
@[simp] theorem State.dropGang_peerNo (s : State) (c k : Nat) : (s.dropGang c k).peerNo = s.peerNo := rfl
@[simp] theorem State.dropGang_far (s : State) (c k : Nat) : (s.dropGang c k).far = s.far := rfl
@[simp] theorem State.dropGang_farOut (s : State) (c k : Nat) : (s.dropGang c k).farOut = s.farOut := rfl
@[simp] theorem State.dropGang_farIn (s : State) (c k : Nat) : (s.dropGang c k).farIn = s.farIn := rfl
@[simp] theorem State.dropGang_launches (s : State) (c k : Nat) : (s.dropGang c k).launches = s.launches := rfl
@[simp] theorem State.dropGang_crews (s : State) (c k : Nat) : (s.dropGang c k).crews = s.crews := rfl
@[simp] theorem State.dropGang_cores (s : State) (c k : Nat) : (s.dropGang c k).cores = s.cores := rfl
@[simp] theorem State.dropGang_ctxs (s : State) (c k : Nat) : (s.dropGang c k).ctxs = s.ctxs := rfl
@[simp] theorem State.dropGang_leases (s : State) (c k : Nat) : (s.dropGang c k).leases = s.leases := rfl
@[simp] theorem State.dropGang_recovered (s : State) (c k : Nat) : (s.dropGang c k).recovered = s.recovered := rfl
@[simp] theorem State.dropGang_recovering (s : State) (c k : Nat) : (s.dropGang c k).recovering = s.recovering := rfl
@[simp] theorem State.dropGang_outside (s : State) (c k : Nat) : (s.dropGang c k).outside = s.outside := rfl
@[simp] theorem State.dropGang_cur (s : State) (c k : Nat) : (s.dropGang c k).cur = s.cur := rfl
@[simp] theorem State.dropGang_agenda (s : State) (c k : Nat) : (s.dropGang c k).agenda = s.agenda := rfl
@[simp] theorem State.dropGang_picks (s : State) (c k : Nat) : (s.dropGang c k).picks = s.picks := rfl
@[simp] theorem State.dropGang_nextId (s : State) (c k : Nat) : (s.dropGang c k).nextId = s.nextId := rfl
@[simp] theorem State.dropGang_nextLaunch (s : State) (c k : Nat) : (s.dropGang c k).nextLaunch = s.nextLaunch := rfl
@[simp] theorem State.dropGang_nextCrew (s : State) (c k : Nat) : (s.dropGang c k).nextCrew = s.nextCrew := rfl
@[simp] theorem State.dropGang_nextAge (s : State) (c k : Nat) : (s.dropGang c k).nextAge = s.nextAge := rfl
@[simp] theorem State.dropGang_turn (s : State) (c k : Nat) : (s.dropGang c k).turn = s.turn := rfl

@[simp] theorem State.putCore_mem (s : State) (c : Nat) (x : Core) : (s.putCore c x).mem = s.mem := rfl
@[simp] theorem State.putCore_memPois (s : State) (c : Nat) (x : Core) : (s.putCore c x).memPois = s.memPois := rfl
@[simp] theorem State.putCore_vers (s : State) (c : Nat) (x : Core) : (s.putCore c x).vers = s.vers := rfl
@[simp] theorem State.putCore_ctxRegs (s : State) (c : Nat) (x : Core) : (s.putCore c x).ctxRegs = s.ctxRegs := rfl
@[simp] theorem State.putCore_tlb (s : State) (c : Nat) (x : Core) : (s.putCore c x).tlb = s.tlb := rfl
@[simp] theorem State.putCore_walking (s : State) (c : Nat) (x : Core) : (s.putCore c x).walking = s.walking := rfl
@[simp] theorem State.putCore_grants (s : State) (c : Nat) (x : Core) : (s.putCore c x).grants = s.grants := rfl
@[simp] theorem State.putCore_fqPend (s : State) (c : Nat) (x : Core) : (s.putCore c x).fqPend = s.fqPend := rfl
@[simp] theorem State.putCore_held (s : State) (c : Nat) (x : Core) : (s.putCore c x).held = s.held := rfl
@[simp] theorem State.putCore_qtbase (s : State) (c : Nat) (x : Core) : (s.putCore c x).qtbase = s.qtbase := rfl
@[simp] theorem State.putCore_kickFrame (s : State) (c : Nat) (x : Core) : (s.putCore c x).kickFrame = s.kickFrame := rfl
@[simp] theorem State.putCore_qFresh (s : State) (c : Nat) (x : Core) : (s.putCore c x).qFresh = s.qFresh := rfl
@[simp] theorem State.putCore_pre0 (s : State) (c : Nat) (x : Core) : (s.putCore c x).pre0 = s.pre0 := rfl
@[simp] theorem State.putCore_pre1 (s : State) (c : Nat) (x : Core) : (s.putCore c x).pre1 = s.pre1 := rfl
@[simp] theorem State.putCore_preCrews (s : State) (c : Nat) (x : Core) : (s.putCore c x).preCrews = s.preCrews := rfl
@[simp] theorem State.putCore_preSaved (s : State) (c : Nat) (x : Core) : (s.putCore c x).preSaved = s.preSaved := rfl
@[simp] theorem State.putCore_acl (s : State) (c : Nat) (x : Core) : (s.putCore c x).acl = s.acl := rfl
@[simp] theorem State.putCore_kicks (s : State) (c : Nat) (x : Core) : (s.putCore c x).kicks = s.kicks := rfl
@[simp] theorem State.putCore_kicksHeld (s : State) (c : Nat) (x : Core) : (s.putCore c x).kicksHeld = s.kicksHeld := rfl
@[simp] theorem State.putCore_pool0 (s : State) (c : Nat) (x : Core) : (s.putCore c x).pool0 = s.pool0 := rfl
@[simp] theorem State.putCore_pool1 (s : State) (c : Nat) (x : Core) : (s.putCore c x).pool1 = s.pool1 := rfl
@[simp] theorem State.putCore_lastGrant0 (s : State) (c : Nat) (x : Core) : (s.putCore c x).lastGrant0 = s.lastGrant0 := rfl
@[simp] theorem State.putCore_lastGrant1 (s : State) (c : Nat) (x : Core) : (s.putCore c x).lastGrant1 = s.lastGrant1 := rfl
@[simp] theorem State.putCore_ctr (s : State) (c : Nat) (x : Core) : (s.putCore c x).ctr = s.ctr := rfl
@[simp] theorem State.putCore_ctrAt (s : State) (c : Nat) (x : Core) : (s.putCore c x).ctrAt = s.ctrAt := rfl
@[simp] theorem State.putCore_readyBits (s : State) (c : Nat) (x : Core) : (s.putCore c x).readyBits = s.readyBits := rfl
@[simp] theorem State.putCore_boot (s : State) (c : Nat) (x : Core) : (s.putCore c x).boot = s.boot := rfl
@[simp] theorem State.putCore_image (s : State) (c : Nat) (x : Core) : (s.putCore c x).image = s.image := rfl
@[simp] theorem State.putCore_watts (s : State) (c : Nat) (x : Core) : (s.putCore c x).watts = s.watts := rfl
@[simp] theorem State.putCore_zeroAt (s : State) (c : Nat) (x : Core) : (s.putCore c x).zeroAt = s.zeroAt := rfl
@[simp] theorem State.putCore_fatal (s : State) (c : Nat) (x : Core) : (s.putCore c x).fatal = s.fatal := rfl
@[simp] theorem State.putCore_dumpBase (s : State) (c : Nat) (x : Core) : (s.putCore c x).dumpBase = s.dumpBase := rfl
@[simp] theorem State.putCore_dumpLen (s : State) (c : Nat) (x : Core) : (s.putCore c x).dumpLen = s.dumpLen := rfl
@[simp] theorem State.putCore_host (s : State) (c : Nat) (x : Core) : (s.putCore c x).host = s.host := rfl
@[simp] theorem State.putCore_bar0 (s : State) (c : Nat) (x : Core) : (s.putCore c x).bar0 = s.bar0 := rfl
@[simp] theorem State.putCore_bar1 (s : State) (c : Nat) (x : Core) : (s.putCore c x).bar1 = s.bar1 := rfl
@[simp] theorem State.putCore_submitted (s : State) (c : Nat) (x : Core) : (s.putCore c x).submitted = s.submitted := rfl
@[simp] theorem State.putCore_mbox (s : State) (c : Nat) (x : Core) : (s.putCore c x).mbox = s.mbox := rfl
@[simp] theorem State.putCore_reports (s : State) (c : Nat) (x : Core) : (s.putCore c x).reports = s.reports := rfl
@[simp] theorem State.putCore_ports (s : State) (c : Nat) (x : Core) : (s.putCore c x).ports = s.ports := rfl
@[simp] theorem State.putCore_peerNo (s : State) (c : Nat) (x : Core) : (s.putCore c x).peerNo = s.peerNo := rfl
@[simp] theorem State.putCore_far (s : State) (c : Nat) (x : Core) : (s.putCore c x).far = s.far := rfl
@[simp] theorem State.putCore_farOut (s : State) (c : Nat) (x : Core) : (s.putCore c x).farOut = s.farOut := rfl
@[simp] theorem State.putCore_farIn (s : State) (c : Nat) (x : Core) : (s.putCore c x).farIn = s.farIn := rfl
@[simp] theorem State.putCore_launches (s : State) (c : Nat) (x : Core) : (s.putCore c x).launches = s.launches := rfl
@[simp] theorem State.putCore_crews (s : State) (c : Nat) (x : Core) : (s.putCore c x).crews = s.crews := rfl
@[simp] theorem State.putCore_gangs (s : State) (c : Nat) (x : Core) : (s.putCore c x).gangs = s.gangs := rfl
@[simp] theorem State.putCore_ctxs (s : State) (c : Nat) (x : Core) : (s.putCore c x).ctxs = s.ctxs := rfl
@[simp] theorem State.putCore_leases (s : State) (c : Nat) (x : Core) : (s.putCore c x).leases = s.leases := rfl
@[simp] theorem State.putCore_recovered (s : State) (c : Nat) (x : Core) : (s.putCore c x).recovered = s.recovered := rfl
@[simp] theorem State.putCore_recovering (s : State) (c : Nat) (x : Core) : (s.putCore c x).recovering = s.recovering := rfl
@[simp] theorem State.putCore_outside (s : State) (c : Nat) (x : Core) : (s.putCore c x).outside = s.outside := rfl
@[simp] theorem State.putCore_cur (s : State) (c : Nat) (x : Core) : (s.putCore c x).cur = s.cur := rfl
@[simp] theorem State.putCore_agenda (s : State) (c : Nat) (x : Core) : (s.putCore c x).agenda = s.agenda := rfl
@[simp] theorem State.putCore_picks (s : State) (c : Nat) (x : Core) : (s.putCore c x).picks = s.picks := rfl
@[simp] theorem State.putCore_nextId (s : State) (c : Nat) (x : Core) : (s.putCore c x).nextId = s.nextId := rfl
@[simp] theorem State.putCore_nextLaunch (s : State) (c : Nat) (x : Core) : (s.putCore c x).nextLaunch = s.nextLaunch := rfl
@[simp] theorem State.putCore_nextCrew (s : State) (c : Nat) (x : Core) : (s.putCore c x).nextCrew = s.nextCrew := rfl
@[simp] theorem State.putCore_nextAge (s : State) (c : Nat) (x : Core) : (s.putCore c x).nextAge = s.nextAge := rfl
@[simp] theorem State.putCore_turn (s : State) (c : Nat) (x : Core) : (s.putCore c x).turn = s.turn := rfl

@[simp] theorem State.modCore_mem (s : State) (c : Nat) (f : Core → Core) : (s.modCore c f).mem = s.mem := rfl
@[simp] theorem State.modCore_memPois (s : State) (c : Nat) (f : Core → Core) : (s.modCore c f).memPois = s.memPois := rfl
@[simp] theorem State.modCore_vers (s : State) (c : Nat) (f : Core → Core) : (s.modCore c f).vers = s.vers := rfl
@[simp] theorem State.modCore_ctxRegs (s : State) (c : Nat) (f : Core → Core) : (s.modCore c f).ctxRegs = s.ctxRegs := rfl
@[simp] theorem State.modCore_tlb (s : State) (c : Nat) (f : Core → Core) : (s.modCore c f).tlb = s.tlb := rfl
@[simp] theorem State.modCore_walking (s : State) (c : Nat) (f : Core → Core) : (s.modCore c f).walking = s.walking := rfl
@[simp] theorem State.modCore_grants (s : State) (c : Nat) (f : Core → Core) : (s.modCore c f).grants = s.grants := rfl
@[simp] theorem State.modCore_fqPend (s : State) (c : Nat) (f : Core → Core) : (s.modCore c f).fqPend = s.fqPend := rfl
@[simp] theorem State.modCore_held (s : State) (c : Nat) (f : Core → Core) : (s.modCore c f).held = s.held := rfl
@[simp] theorem State.modCore_qtbase (s : State) (c : Nat) (f : Core → Core) : (s.modCore c f).qtbase = s.qtbase := rfl
@[simp] theorem State.modCore_kickFrame (s : State) (c : Nat) (f : Core → Core) : (s.modCore c f).kickFrame = s.kickFrame := rfl
@[simp] theorem State.modCore_qFresh (s : State) (c : Nat) (f : Core → Core) : (s.modCore c f).qFresh = s.qFresh := rfl
@[simp] theorem State.modCore_pre0 (s : State) (c : Nat) (f : Core → Core) : (s.modCore c f).pre0 = s.pre0 := rfl
@[simp] theorem State.modCore_pre1 (s : State) (c : Nat) (f : Core → Core) : (s.modCore c f).pre1 = s.pre1 := rfl
@[simp] theorem State.modCore_preCrews (s : State) (c : Nat) (f : Core → Core) : (s.modCore c f).preCrews = s.preCrews := rfl
@[simp] theorem State.modCore_preSaved (s : State) (c : Nat) (f : Core → Core) : (s.modCore c f).preSaved = s.preSaved := rfl
@[simp] theorem State.modCore_acl (s : State) (c : Nat) (f : Core → Core) : (s.modCore c f).acl = s.acl := rfl
@[simp] theorem State.modCore_kicks (s : State) (c : Nat) (f : Core → Core) : (s.modCore c f).kicks = s.kicks := rfl
@[simp] theorem State.modCore_kicksHeld (s : State) (c : Nat) (f : Core → Core) : (s.modCore c f).kicksHeld = s.kicksHeld := rfl
@[simp] theorem State.modCore_pool0 (s : State) (c : Nat) (f : Core → Core) : (s.modCore c f).pool0 = s.pool0 := rfl
@[simp] theorem State.modCore_pool1 (s : State) (c : Nat) (f : Core → Core) : (s.modCore c f).pool1 = s.pool1 := rfl
@[simp] theorem State.modCore_lastGrant0 (s : State) (c : Nat) (f : Core → Core) : (s.modCore c f).lastGrant0 = s.lastGrant0 := rfl
@[simp] theorem State.modCore_lastGrant1 (s : State) (c : Nat) (f : Core → Core) : (s.modCore c f).lastGrant1 = s.lastGrant1 := rfl
@[simp] theorem State.modCore_ctr (s : State) (c : Nat) (f : Core → Core) : (s.modCore c f).ctr = s.ctr := rfl
@[simp] theorem State.modCore_ctrAt (s : State) (c : Nat) (f : Core → Core) : (s.modCore c f).ctrAt = s.ctrAt := rfl
@[simp] theorem State.modCore_readyBits (s : State) (c : Nat) (f : Core → Core) : (s.modCore c f).readyBits = s.readyBits := rfl
@[simp] theorem State.modCore_boot (s : State) (c : Nat) (f : Core → Core) : (s.modCore c f).boot = s.boot := rfl
@[simp] theorem State.modCore_image (s : State) (c : Nat) (f : Core → Core) : (s.modCore c f).image = s.image := rfl
@[simp] theorem State.modCore_watts (s : State) (c : Nat) (f : Core → Core) : (s.modCore c f).watts = s.watts := rfl
@[simp] theorem State.modCore_zeroAt (s : State) (c : Nat) (f : Core → Core) : (s.modCore c f).zeroAt = s.zeroAt := rfl
@[simp] theorem State.modCore_fatal (s : State) (c : Nat) (f : Core → Core) : (s.modCore c f).fatal = s.fatal := rfl
@[simp] theorem State.modCore_dumpBase (s : State) (c : Nat) (f : Core → Core) : (s.modCore c f).dumpBase = s.dumpBase := rfl
@[simp] theorem State.modCore_dumpLen (s : State) (c : Nat) (f : Core → Core) : (s.modCore c f).dumpLen = s.dumpLen := rfl
@[simp] theorem State.modCore_host (s : State) (c : Nat) (f : Core → Core) : (s.modCore c f).host = s.host := rfl
@[simp] theorem State.modCore_bar0 (s : State) (c : Nat) (f : Core → Core) : (s.modCore c f).bar0 = s.bar0 := rfl
@[simp] theorem State.modCore_bar1 (s : State) (c : Nat) (f : Core → Core) : (s.modCore c f).bar1 = s.bar1 := rfl
@[simp] theorem State.modCore_submitted (s : State) (c : Nat) (f : Core → Core) : (s.modCore c f).submitted = s.submitted := rfl
@[simp] theorem State.modCore_mbox (s : State) (c : Nat) (f : Core → Core) : (s.modCore c f).mbox = s.mbox := rfl
@[simp] theorem State.modCore_reports (s : State) (c : Nat) (f : Core → Core) : (s.modCore c f).reports = s.reports := rfl
@[simp] theorem State.modCore_ports (s : State) (c : Nat) (f : Core → Core) : (s.modCore c f).ports = s.ports := rfl
@[simp] theorem State.modCore_peerNo (s : State) (c : Nat) (f : Core → Core) : (s.modCore c f).peerNo = s.peerNo := rfl
@[simp] theorem State.modCore_far (s : State) (c : Nat) (f : Core → Core) : (s.modCore c f).far = s.far := rfl
@[simp] theorem State.modCore_farOut (s : State) (c : Nat) (f : Core → Core) : (s.modCore c f).farOut = s.farOut := rfl
@[simp] theorem State.modCore_farIn (s : State) (c : Nat) (f : Core → Core) : (s.modCore c f).farIn = s.farIn := rfl
@[simp] theorem State.modCore_launches (s : State) (c : Nat) (f : Core → Core) : (s.modCore c f).launches = s.launches := rfl
@[simp] theorem State.modCore_crews (s : State) (c : Nat) (f : Core → Core) : (s.modCore c f).crews = s.crews := rfl
@[simp] theorem State.modCore_gangs (s : State) (c : Nat) (f : Core → Core) : (s.modCore c f).gangs = s.gangs := rfl
@[simp] theorem State.modCore_ctxs (s : State) (c : Nat) (f : Core → Core) : (s.modCore c f).ctxs = s.ctxs := rfl
@[simp] theorem State.modCore_leases (s : State) (c : Nat) (f : Core → Core) : (s.modCore c f).leases = s.leases := rfl
@[simp] theorem State.modCore_recovered (s : State) (c : Nat) (f : Core → Core) : (s.modCore c f).recovered = s.recovered := rfl
@[simp] theorem State.modCore_recovering (s : State) (c : Nat) (f : Core → Core) : (s.modCore c f).recovering = s.recovering := rfl
@[simp] theorem State.modCore_outside (s : State) (c : Nat) (f : Core → Core) : (s.modCore c f).outside = s.outside := rfl
@[simp] theorem State.modCore_cur (s : State) (c : Nat) (f : Core → Core) : (s.modCore c f).cur = s.cur := rfl
@[simp] theorem State.modCore_agenda (s : State) (c : Nat) (f : Core → Core) : (s.modCore c f).agenda = s.agenda := rfl
@[simp] theorem State.modCore_picks (s : State) (c : Nat) (f : Core → Core) : (s.modCore c f).picks = s.picks := rfl
@[simp] theorem State.modCore_nextId (s : State) (c : Nat) (f : Core → Core) : (s.modCore c f).nextId = s.nextId := rfl
@[simp] theorem State.modCore_nextLaunch (s : State) (c : Nat) (f : Core → Core) : (s.modCore c f).nextLaunch = s.nextLaunch := rfl
@[simp] theorem State.modCore_nextCrew (s : State) (c : Nat) (f : Core → Core) : (s.modCore c f).nextCrew = s.nextCrew := rfl
@[simp] theorem State.modCore_nextAge (s : State) (c : Nat) (f : Core → Core) : (s.modCore c f).nextAge = s.nextAge := rfl
@[simp] theorem State.modCore_turn (s : State) (c : Nat) (f : Core → Core) : (s.modCore c f).turn = s.turn := rfl

@[simp] theorem State.putCrew_mem (s : State) (k : Nat) (x : Crew) : (s.putCrew k x).mem = s.mem := rfl
@[simp] theorem State.putCrew_memPois (s : State) (k : Nat) (x : Crew) : (s.putCrew k x).memPois = s.memPois := rfl
@[simp] theorem State.putCrew_vers (s : State) (k : Nat) (x : Crew) : (s.putCrew k x).vers = s.vers := rfl
@[simp] theorem State.putCrew_ctxRegs (s : State) (k : Nat) (x : Crew) : (s.putCrew k x).ctxRegs = s.ctxRegs := rfl
@[simp] theorem State.putCrew_tlb (s : State) (k : Nat) (x : Crew) : (s.putCrew k x).tlb = s.tlb := rfl
@[simp] theorem State.putCrew_walking (s : State) (k : Nat) (x : Crew) : (s.putCrew k x).walking = s.walking := rfl
@[simp] theorem State.putCrew_grants (s : State) (k : Nat) (x : Crew) : (s.putCrew k x).grants = s.grants := rfl
@[simp] theorem State.putCrew_fqPend (s : State) (k : Nat) (x : Crew) : (s.putCrew k x).fqPend = s.fqPend := rfl
@[simp] theorem State.putCrew_held (s : State) (k : Nat) (x : Crew) : (s.putCrew k x).held = s.held := rfl
@[simp] theorem State.putCrew_qtbase (s : State) (k : Nat) (x : Crew) : (s.putCrew k x).qtbase = s.qtbase := rfl
@[simp] theorem State.putCrew_kickFrame (s : State) (k : Nat) (x : Crew) : (s.putCrew k x).kickFrame = s.kickFrame := rfl
@[simp] theorem State.putCrew_qFresh (s : State) (k : Nat) (x : Crew) : (s.putCrew k x).qFresh = s.qFresh := rfl
@[simp] theorem State.putCrew_pre0 (s : State) (k : Nat) (x : Crew) : (s.putCrew k x).pre0 = s.pre0 := rfl
@[simp] theorem State.putCrew_pre1 (s : State) (k : Nat) (x : Crew) : (s.putCrew k x).pre1 = s.pre1 := rfl
@[simp] theorem State.putCrew_preCrews (s : State) (k : Nat) (x : Crew) : (s.putCrew k x).preCrews = s.preCrews := rfl
@[simp] theorem State.putCrew_preSaved (s : State) (k : Nat) (x : Crew) : (s.putCrew k x).preSaved = s.preSaved := rfl
@[simp] theorem State.putCrew_acl (s : State) (k : Nat) (x : Crew) : (s.putCrew k x).acl = s.acl := rfl
@[simp] theorem State.putCrew_kicks (s : State) (k : Nat) (x : Crew) : (s.putCrew k x).kicks = s.kicks := rfl
@[simp] theorem State.putCrew_kicksHeld (s : State) (k : Nat) (x : Crew) : (s.putCrew k x).kicksHeld = s.kicksHeld := rfl
@[simp] theorem State.putCrew_pool0 (s : State) (k : Nat) (x : Crew) : (s.putCrew k x).pool0 = s.pool0 := rfl
@[simp] theorem State.putCrew_pool1 (s : State) (k : Nat) (x : Crew) : (s.putCrew k x).pool1 = s.pool1 := rfl
@[simp] theorem State.putCrew_lastGrant0 (s : State) (k : Nat) (x : Crew) : (s.putCrew k x).lastGrant0 = s.lastGrant0 := rfl
@[simp] theorem State.putCrew_lastGrant1 (s : State) (k : Nat) (x : Crew) : (s.putCrew k x).lastGrant1 = s.lastGrant1 := rfl
@[simp] theorem State.putCrew_ctr (s : State) (k : Nat) (x : Crew) : (s.putCrew k x).ctr = s.ctr := rfl
@[simp] theorem State.putCrew_ctrAt (s : State) (k : Nat) (x : Crew) : (s.putCrew k x).ctrAt = s.ctrAt := rfl
@[simp] theorem State.putCrew_readyBits (s : State) (k : Nat) (x : Crew) : (s.putCrew k x).readyBits = s.readyBits := rfl
@[simp] theorem State.putCrew_boot (s : State) (k : Nat) (x : Crew) : (s.putCrew k x).boot = s.boot := rfl
@[simp] theorem State.putCrew_image (s : State) (k : Nat) (x : Crew) : (s.putCrew k x).image = s.image := rfl
@[simp] theorem State.putCrew_watts (s : State) (k : Nat) (x : Crew) : (s.putCrew k x).watts = s.watts := rfl
@[simp] theorem State.putCrew_zeroAt (s : State) (k : Nat) (x : Crew) : (s.putCrew k x).zeroAt = s.zeroAt := rfl
@[simp] theorem State.putCrew_fatal (s : State) (k : Nat) (x : Crew) : (s.putCrew k x).fatal = s.fatal := rfl
@[simp] theorem State.putCrew_dumpBase (s : State) (k : Nat) (x : Crew) : (s.putCrew k x).dumpBase = s.dumpBase := rfl
@[simp] theorem State.putCrew_dumpLen (s : State) (k : Nat) (x : Crew) : (s.putCrew k x).dumpLen = s.dumpLen := rfl
@[simp] theorem State.putCrew_host (s : State) (k : Nat) (x : Crew) : (s.putCrew k x).host = s.host := rfl
@[simp] theorem State.putCrew_bar0 (s : State) (k : Nat) (x : Crew) : (s.putCrew k x).bar0 = s.bar0 := rfl
@[simp] theorem State.putCrew_bar1 (s : State) (k : Nat) (x : Crew) : (s.putCrew k x).bar1 = s.bar1 := rfl
@[simp] theorem State.putCrew_submitted (s : State) (k : Nat) (x : Crew) : (s.putCrew k x).submitted = s.submitted := rfl
@[simp] theorem State.putCrew_mbox (s : State) (k : Nat) (x : Crew) : (s.putCrew k x).mbox = s.mbox := rfl
@[simp] theorem State.putCrew_reports (s : State) (k : Nat) (x : Crew) : (s.putCrew k x).reports = s.reports := rfl
@[simp] theorem State.putCrew_ports (s : State) (k : Nat) (x : Crew) : (s.putCrew k x).ports = s.ports := rfl
@[simp] theorem State.putCrew_peerNo (s : State) (k : Nat) (x : Crew) : (s.putCrew k x).peerNo = s.peerNo := rfl
@[simp] theorem State.putCrew_far (s : State) (k : Nat) (x : Crew) : (s.putCrew k x).far = s.far := rfl
@[simp] theorem State.putCrew_farOut (s : State) (k : Nat) (x : Crew) : (s.putCrew k x).farOut = s.farOut := rfl
@[simp] theorem State.putCrew_farIn (s : State) (k : Nat) (x : Crew) : (s.putCrew k x).farIn = s.farIn := rfl
@[simp] theorem State.putCrew_launches (s : State) (k : Nat) (x : Crew) : (s.putCrew k x).launches = s.launches := rfl
@[simp] theorem State.putCrew_gangs (s : State) (k : Nat) (x : Crew) : (s.putCrew k x).gangs = s.gangs := rfl
@[simp] theorem State.putCrew_cores (s : State) (k : Nat) (x : Crew) : (s.putCrew k x).cores = s.cores := rfl
@[simp] theorem State.putCrew_ctxs (s : State) (k : Nat) (x : Crew) : (s.putCrew k x).ctxs = s.ctxs := rfl
@[simp] theorem State.putCrew_leases (s : State) (k : Nat) (x : Crew) : (s.putCrew k x).leases = s.leases := rfl
@[simp] theorem State.putCrew_recovered (s : State) (k : Nat) (x : Crew) : (s.putCrew k x).recovered = s.recovered := rfl
@[simp] theorem State.putCrew_recovering (s : State) (k : Nat) (x : Crew) : (s.putCrew k x).recovering = s.recovering := rfl
@[simp] theorem State.putCrew_outside (s : State) (k : Nat) (x : Crew) : (s.putCrew k x).outside = s.outside := rfl
@[simp] theorem State.putCrew_cur (s : State) (k : Nat) (x : Crew) : (s.putCrew k x).cur = s.cur := rfl
@[simp] theorem State.putCrew_agenda (s : State) (k : Nat) (x : Crew) : (s.putCrew k x).agenda = s.agenda := rfl
@[simp] theorem State.putCrew_picks (s : State) (k : Nat) (x : Crew) : (s.putCrew k x).picks = s.picks := rfl
@[simp] theorem State.putCrew_nextId (s : State) (k : Nat) (x : Crew) : (s.putCrew k x).nextId = s.nextId := rfl
@[simp] theorem State.putCrew_nextLaunch (s : State) (k : Nat) (x : Crew) : (s.putCrew k x).nextLaunch = s.nextLaunch := rfl
@[simp] theorem State.putCrew_nextCrew (s : State) (k : Nat) (x : Crew) : (s.putCrew k x).nextCrew = s.nextCrew := rfl
@[simp] theorem State.putCrew_nextAge (s : State) (k : Nat) (x : Crew) : (s.putCrew k x).nextAge = s.nextAge := rfl
@[simp] theorem State.putCrew_turn (s : State) (k : Nat) (x : Crew) : (s.putCrew k x).turn = s.turn := rfl

@[simp] theorem State.putLaunch_mem (s : State) (k : Nat) (x : Launch) : (s.putLaunch k x).mem = s.mem := rfl
@[simp] theorem State.putLaunch_memPois (s : State) (k : Nat) (x : Launch) : (s.putLaunch k x).memPois = s.memPois := rfl
@[simp] theorem State.putLaunch_vers (s : State) (k : Nat) (x : Launch) : (s.putLaunch k x).vers = s.vers := rfl
@[simp] theorem State.putLaunch_ctxRegs (s : State) (k : Nat) (x : Launch) : (s.putLaunch k x).ctxRegs = s.ctxRegs := rfl
@[simp] theorem State.putLaunch_tlb (s : State) (k : Nat) (x : Launch) : (s.putLaunch k x).tlb = s.tlb := rfl
@[simp] theorem State.putLaunch_walking (s : State) (k : Nat) (x : Launch) : (s.putLaunch k x).walking = s.walking := rfl
@[simp] theorem State.putLaunch_grants (s : State) (k : Nat) (x : Launch) : (s.putLaunch k x).grants = s.grants := rfl
@[simp] theorem State.putLaunch_fqPend (s : State) (k : Nat) (x : Launch) : (s.putLaunch k x).fqPend = s.fqPend := rfl
@[simp] theorem State.putLaunch_held (s : State) (k : Nat) (x : Launch) : (s.putLaunch k x).held = s.held := rfl
@[simp] theorem State.putLaunch_qtbase (s : State) (k : Nat) (x : Launch) : (s.putLaunch k x).qtbase = s.qtbase := rfl
@[simp] theorem State.putLaunch_kickFrame (s : State) (k : Nat) (x : Launch) : (s.putLaunch k x).kickFrame = s.kickFrame := rfl
@[simp] theorem State.putLaunch_qFresh (s : State) (k : Nat) (x : Launch) : (s.putLaunch k x).qFresh = s.qFresh := rfl
@[simp] theorem State.putLaunch_pre0 (s : State) (k : Nat) (x : Launch) : (s.putLaunch k x).pre0 = s.pre0 := rfl
@[simp] theorem State.putLaunch_pre1 (s : State) (k : Nat) (x : Launch) : (s.putLaunch k x).pre1 = s.pre1 := rfl
@[simp] theorem State.putLaunch_preCrews (s : State) (k : Nat) (x : Launch) : (s.putLaunch k x).preCrews = s.preCrews := rfl
@[simp] theorem State.putLaunch_preSaved (s : State) (k : Nat) (x : Launch) : (s.putLaunch k x).preSaved = s.preSaved := rfl
@[simp] theorem State.putLaunch_acl (s : State) (k : Nat) (x : Launch) : (s.putLaunch k x).acl = s.acl := rfl
@[simp] theorem State.putLaunch_kicks (s : State) (k : Nat) (x : Launch) : (s.putLaunch k x).kicks = s.kicks := rfl
@[simp] theorem State.putLaunch_kicksHeld (s : State) (k : Nat) (x : Launch) : (s.putLaunch k x).kicksHeld = s.kicksHeld := rfl
@[simp] theorem State.putLaunch_pool0 (s : State) (k : Nat) (x : Launch) : (s.putLaunch k x).pool0 = s.pool0 := rfl
@[simp] theorem State.putLaunch_pool1 (s : State) (k : Nat) (x : Launch) : (s.putLaunch k x).pool1 = s.pool1 := rfl
@[simp] theorem State.putLaunch_lastGrant0 (s : State) (k : Nat) (x : Launch) : (s.putLaunch k x).lastGrant0 = s.lastGrant0 := rfl
@[simp] theorem State.putLaunch_lastGrant1 (s : State) (k : Nat) (x : Launch) : (s.putLaunch k x).lastGrant1 = s.lastGrant1 := rfl
@[simp] theorem State.putLaunch_ctr (s : State) (k : Nat) (x : Launch) : (s.putLaunch k x).ctr = s.ctr := rfl
@[simp] theorem State.putLaunch_ctrAt (s : State) (k : Nat) (x : Launch) : (s.putLaunch k x).ctrAt = s.ctrAt := rfl
@[simp] theorem State.putLaunch_readyBits (s : State) (k : Nat) (x : Launch) : (s.putLaunch k x).readyBits = s.readyBits := rfl
@[simp] theorem State.putLaunch_boot (s : State) (k : Nat) (x : Launch) : (s.putLaunch k x).boot = s.boot := rfl
@[simp] theorem State.putLaunch_image (s : State) (k : Nat) (x : Launch) : (s.putLaunch k x).image = s.image := rfl
@[simp] theorem State.putLaunch_watts (s : State) (k : Nat) (x : Launch) : (s.putLaunch k x).watts = s.watts := rfl
@[simp] theorem State.putLaunch_zeroAt (s : State) (k : Nat) (x : Launch) : (s.putLaunch k x).zeroAt = s.zeroAt := rfl
@[simp] theorem State.putLaunch_fatal (s : State) (k : Nat) (x : Launch) : (s.putLaunch k x).fatal = s.fatal := rfl
@[simp] theorem State.putLaunch_dumpBase (s : State) (k : Nat) (x : Launch) : (s.putLaunch k x).dumpBase = s.dumpBase := rfl
@[simp] theorem State.putLaunch_dumpLen (s : State) (k : Nat) (x : Launch) : (s.putLaunch k x).dumpLen = s.dumpLen := rfl
@[simp] theorem State.putLaunch_host (s : State) (k : Nat) (x : Launch) : (s.putLaunch k x).host = s.host := rfl
@[simp] theorem State.putLaunch_bar0 (s : State) (k : Nat) (x : Launch) : (s.putLaunch k x).bar0 = s.bar0 := rfl
@[simp] theorem State.putLaunch_bar1 (s : State) (k : Nat) (x : Launch) : (s.putLaunch k x).bar1 = s.bar1 := rfl
@[simp] theorem State.putLaunch_submitted (s : State) (k : Nat) (x : Launch) : (s.putLaunch k x).submitted = s.submitted := rfl
@[simp] theorem State.putLaunch_mbox (s : State) (k : Nat) (x : Launch) : (s.putLaunch k x).mbox = s.mbox := rfl
@[simp] theorem State.putLaunch_reports (s : State) (k : Nat) (x : Launch) : (s.putLaunch k x).reports = s.reports := rfl
@[simp] theorem State.putLaunch_ports (s : State) (k : Nat) (x : Launch) : (s.putLaunch k x).ports = s.ports := rfl
@[simp] theorem State.putLaunch_peerNo (s : State) (k : Nat) (x : Launch) : (s.putLaunch k x).peerNo = s.peerNo := rfl
@[simp] theorem State.putLaunch_far (s : State) (k : Nat) (x : Launch) : (s.putLaunch k x).far = s.far := rfl
@[simp] theorem State.putLaunch_farOut (s : State) (k : Nat) (x : Launch) : (s.putLaunch k x).farOut = s.farOut := rfl
@[simp] theorem State.putLaunch_farIn (s : State) (k : Nat) (x : Launch) : (s.putLaunch k x).farIn = s.farIn := rfl
@[simp] theorem State.putLaunch_crews (s : State) (k : Nat) (x : Launch) : (s.putLaunch k x).crews = s.crews := rfl
@[simp] theorem State.putLaunch_gangs (s : State) (k : Nat) (x : Launch) : (s.putLaunch k x).gangs = s.gangs := rfl
@[simp] theorem State.putLaunch_cores (s : State) (k : Nat) (x : Launch) : (s.putLaunch k x).cores = s.cores := rfl
@[simp] theorem State.putLaunch_ctxs (s : State) (k : Nat) (x : Launch) : (s.putLaunch k x).ctxs = s.ctxs := rfl
@[simp] theorem State.putLaunch_leases (s : State) (k : Nat) (x : Launch) : (s.putLaunch k x).leases = s.leases := rfl
@[simp] theorem State.putLaunch_recovered (s : State) (k : Nat) (x : Launch) : (s.putLaunch k x).recovered = s.recovered := rfl
@[simp] theorem State.putLaunch_recovering (s : State) (k : Nat) (x : Launch) : (s.putLaunch k x).recovering = s.recovering := rfl
@[simp] theorem State.putLaunch_outside (s : State) (k : Nat) (x : Launch) : (s.putLaunch k x).outside = s.outside := rfl
@[simp] theorem State.putLaunch_cur (s : State) (k : Nat) (x : Launch) : (s.putLaunch k x).cur = s.cur := rfl
@[simp] theorem State.putLaunch_agenda (s : State) (k : Nat) (x : Launch) : (s.putLaunch k x).agenda = s.agenda := rfl
@[simp] theorem State.putLaunch_picks (s : State) (k : Nat) (x : Launch) : (s.putLaunch k x).picks = s.picks := rfl
@[simp] theorem State.putLaunch_nextId (s : State) (k : Nat) (x : Launch) : (s.putLaunch k x).nextId = s.nextId := rfl
@[simp] theorem State.putLaunch_nextLaunch (s : State) (k : Nat) (x : Launch) : (s.putLaunch k x).nextLaunch = s.nextLaunch := rfl
@[simp] theorem State.putLaunch_nextCrew (s : State) (k : Nat) (x : Launch) : (s.putLaunch k x).nextCrew = s.nextCrew := rfl
@[simp] theorem State.putLaunch_nextAge (s : State) (k : Nat) (x : Launch) : (s.putLaunch k x).nextAge = s.nextAge := rfl
@[simp] theorem State.putLaunch_turn (s : State) (k : Nat) (x : Launch) : (s.putLaunch k x).turn = s.turn := rfl

@[simp] theorem State.putCtx_mem (s : State) (c k : Nat) (x : CopyCtx) : (s.putCtx c k x).mem = s.mem := rfl
@[simp] theorem State.putCtx_memPois (s : State) (c k : Nat) (x : CopyCtx) : (s.putCtx c k x).memPois = s.memPois := rfl
@[simp] theorem State.putCtx_vers (s : State) (c k : Nat) (x : CopyCtx) : (s.putCtx c k x).vers = s.vers := rfl
@[simp] theorem State.putCtx_ctxRegs (s : State) (c k : Nat) (x : CopyCtx) : (s.putCtx c k x).ctxRegs = s.ctxRegs := rfl
@[simp] theorem State.putCtx_tlb (s : State) (c k : Nat) (x : CopyCtx) : (s.putCtx c k x).tlb = s.tlb := rfl
@[simp] theorem State.putCtx_walking (s : State) (c k : Nat) (x : CopyCtx) : (s.putCtx c k x).walking = s.walking := rfl
@[simp] theorem State.putCtx_grants (s : State) (c k : Nat) (x : CopyCtx) : (s.putCtx c k x).grants = s.grants := rfl
@[simp] theorem State.putCtx_fqPend (s : State) (c k : Nat) (x : CopyCtx) : (s.putCtx c k x).fqPend = s.fqPend := rfl
@[simp] theorem State.putCtx_held (s : State) (c k : Nat) (x : CopyCtx) : (s.putCtx c k x).held = s.held := rfl
@[simp] theorem State.putCtx_qtbase (s : State) (c k : Nat) (x : CopyCtx) : (s.putCtx c k x).qtbase = s.qtbase := rfl
@[simp] theorem State.putCtx_kickFrame (s : State) (c k : Nat) (x : CopyCtx) : (s.putCtx c k x).kickFrame = s.kickFrame := rfl
@[simp] theorem State.putCtx_qFresh (s : State) (c k : Nat) (x : CopyCtx) : (s.putCtx c k x).qFresh = s.qFresh := rfl
@[simp] theorem State.putCtx_pre0 (s : State) (c k : Nat) (x : CopyCtx) : (s.putCtx c k x).pre0 = s.pre0 := rfl
@[simp] theorem State.putCtx_pre1 (s : State) (c k : Nat) (x : CopyCtx) : (s.putCtx c k x).pre1 = s.pre1 := rfl
@[simp] theorem State.putCtx_preCrews (s : State) (c k : Nat) (x : CopyCtx) : (s.putCtx c k x).preCrews = s.preCrews := rfl
@[simp] theorem State.putCtx_preSaved (s : State) (c k : Nat) (x : CopyCtx) : (s.putCtx c k x).preSaved = s.preSaved := rfl
@[simp] theorem State.putCtx_acl (s : State) (c k : Nat) (x : CopyCtx) : (s.putCtx c k x).acl = s.acl := rfl
@[simp] theorem State.putCtx_kicks (s : State) (c k : Nat) (x : CopyCtx) : (s.putCtx c k x).kicks = s.kicks := rfl
@[simp] theorem State.putCtx_kicksHeld (s : State) (c k : Nat) (x : CopyCtx) : (s.putCtx c k x).kicksHeld = s.kicksHeld := rfl
@[simp] theorem State.putCtx_pool0 (s : State) (c k : Nat) (x : CopyCtx) : (s.putCtx c k x).pool0 = s.pool0 := rfl
@[simp] theorem State.putCtx_pool1 (s : State) (c k : Nat) (x : CopyCtx) : (s.putCtx c k x).pool1 = s.pool1 := rfl
@[simp] theorem State.putCtx_lastGrant0 (s : State) (c k : Nat) (x : CopyCtx) : (s.putCtx c k x).lastGrant0 = s.lastGrant0 := rfl
@[simp] theorem State.putCtx_lastGrant1 (s : State) (c k : Nat) (x : CopyCtx) : (s.putCtx c k x).lastGrant1 = s.lastGrant1 := rfl
@[simp] theorem State.putCtx_ctr (s : State) (c k : Nat) (x : CopyCtx) : (s.putCtx c k x).ctr = s.ctr := rfl
@[simp] theorem State.putCtx_ctrAt (s : State) (c k : Nat) (x : CopyCtx) : (s.putCtx c k x).ctrAt = s.ctrAt := rfl
@[simp] theorem State.putCtx_readyBits (s : State) (c k : Nat) (x : CopyCtx) : (s.putCtx c k x).readyBits = s.readyBits := rfl
@[simp] theorem State.putCtx_boot (s : State) (c k : Nat) (x : CopyCtx) : (s.putCtx c k x).boot = s.boot := rfl
@[simp] theorem State.putCtx_image (s : State) (c k : Nat) (x : CopyCtx) : (s.putCtx c k x).image = s.image := rfl
@[simp] theorem State.putCtx_watts (s : State) (c k : Nat) (x : CopyCtx) : (s.putCtx c k x).watts = s.watts := rfl
@[simp] theorem State.putCtx_zeroAt (s : State) (c k : Nat) (x : CopyCtx) : (s.putCtx c k x).zeroAt = s.zeroAt := rfl
@[simp] theorem State.putCtx_fatal (s : State) (c k : Nat) (x : CopyCtx) : (s.putCtx c k x).fatal = s.fatal := rfl
@[simp] theorem State.putCtx_dumpBase (s : State) (c k : Nat) (x : CopyCtx) : (s.putCtx c k x).dumpBase = s.dumpBase := rfl
@[simp] theorem State.putCtx_dumpLen (s : State) (c k : Nat) (x : CopyCtx) : (s.putCtx c k x).dumpLen = s.dumpLen := rfl
@[simp] theorem State.putCtx_host (s : State) (c k : Nat) (x : CopyCtx) : (s.putCtx c k x).host = s.host := rfl
@[simp] theorem State.putCtx_bar0 (s : State) (c k : Nat) (x : CopyCtx) : (s.putCtx c k x).bar0 = s.bar0 := rfl
@[simp] theorem State.putCtx_bar1 (s : State) (c k : Nat) (x : CopyCtx) : (s.putCtx c k x).bar1 = s.bar1 := rfl
@[simp] theorem State.putCtx_submitted (s : State) (c k : Nat) (x : CopyCtx) : (s.putCtx c k x).submitted = s.submitted := rfl
@[simp] theorem State.putCtx_mbox (s : State) (c k : Nat) (x : CopyCtx) : (s.putCtx c k x).mbox = s.mbox := rfl
@[simp] theorem State.putCtx_reports (s : State) (c k : Nat) (x : CopyCtx) : (s.putCtx c k x).reports = s.reports := rfl
@[simp] theorem State.putCtx_ports (s : State) (c k : Nat) (x : CopyCtx) : (s.putCtx c k x).ports = s.ports := rfl
@[simp] theorem State.putCtx_peerNo (s : State) (c k : Nat) (x : CopyCtx) : (s.putCtx c k x).peerNo = s.peerNo := rfl
@[simp] theorem State.putCtx_far (s : State) (c k : Nat) (x : CopyCtx) : (s.putCtx c k x).far = s.far := rfl
@[simp] theorem State.putCtx_farOut (s : State) (c k : Nat) (x : CopyCtx) : (s.putCtx c k x).farOut = s.farOut := rfl
@[simp] theorem State.putCtx_farIn (s : State) (c k : Nat) (x : CopyCtx) : (s.putCtx c k x).farIn = s.farIn := rfl
@[simp] theorem State.putCtx_launches (s : State) (c k : Nat) (x : CopyCtx) : (s.putCtx c k x).launches = s.launches := rfl
@[simp] theorem State.putCtx_crews (s : State) (c k : Nat) (x : CopyCtx) : (s.putCtx c k x).crews = s.crews := rfl
@[simp] theorem State.putCtx_gangs (s : State) (c k : Nat) (x : CopyCtx) : (s.putCtx c k x).gangs = s.gangs := rfl
@[simp] theorem State.putCtx_cores (s : State) (c k : Nat) (x : CopyCtx) : (s.putCtx c k x).cores = s.cores := rfl
@[simp] theorem State.putCtx_leases (s : State) (c k : Nat) (x : CopyCtx) : (s.putCtx c k x).leases = s.leases := rfl
@[simp] theorem State.putCtx_recovered (s : State) (c k : Nat) (x : CopyCtx) : (s.putCtx c k x).recovered = s.recovered := rfl
@[simp] theorem State.putCtx_recovering (s : State) (c k : Nat) (x : CopyCtx) : (s.putCtx c k x).recovering = s.recovering := rfl
@[simp] theorem State.putCtx_outside (s : State) (c k : Nat) (x : CopyCtx) : (s.putCtx c k x).outside = s.outside := rfl
@[simp] theorem State.putCtx_cur (s : State) (c k : Nat) (x : CopyCtx) : (s.putCtx c k x).cur = s.cur := rfl
@[simp] theorem State.putCtx_agenda (s : State) (c k : Nat) (x : CopyCtx) : (s.putCtx c k x).agenda = s.agenda := rfl
@[simp] theorem State.putCtx_picks (s : State) (c k : Nat) (x : CopyCtx) : (s.putCtx c k x).picks = s.picks := rfl
@[simp] theorem State.putCtx_nextId (s : State) (c k : Nat) (x : CopyCtx) : (s.putCtx c k x).nextId = s.nextId := rfl
@[simp] theorem State.putCtx_nextLaunch (s : State) (c k : Nat) (x : CopyCtx) : (s.putCtx c k x).nextLaunch = s.nextLaunch := rfl
@[simp] theorem State.putCtx_nextCrew (s : State) (c k : Nat) (x : CopyCtx) : (s.putCtx c k x).nextCrew = s.nextCrew := rfl
@[simp] theorem State.putCtx_nextAge (s : State) (c k : Nat) (x : CopyCtx) : (s.putCtx c k x).nextAge = s.nextAge := rfl
@[simp] theorem State.putCtx_turn (s : State) (c k : Nat) (x : CopyCtx) : (s.putCtx c k x).turn = s.turn := rfl

@[simp] theorem State.dropCtx_mem (s : State) (c k : Nat) : (s.dropCtx c k).mem = s.mem := rfl
@[simp] theorem State.dropCtx_memPois (s : State) (c k : Nat) : (s.dropCtx c k).memPois = s.memPois := rfl
@[simp] theorem State.dropCtx_vers (s : State) (c k : Nat) : (s.dropCtx c k).vers = s.vers := rfl
@[simp] theorem State.dropCtx_ctxRegs (s : State) (c k : Nat) : (s.dropCtx c k).ctxRegs = s.ctxRegs := rfl
@[simp] theorem State.dropCtx_tlb (s : State) (c k : Nat) : (s.dropCtx c k).tlb = s.tlb := rfl
@[simp] theorem State.dropCtx_walking (s : State) (c k : Nat) : (s.dropCtx c k).walking = s.walking := rfl
@[simp] theorem State.dropCtx_grants (s : State) (c k : Nat) : (s.dropCtx c k).grants = s.grants := rfl
@[simp] theorem State.dropCtx_fqPend (s : State) (c k : Nat) : (s.dropCtx c k).fqPend = s.fqPend := rfl
@[simp] theorem State.dropCtx_held (s : State) (c k : Nat) : (s.dropCtx c k).held = s.held := rfl
@[simp] theorem State.dropCtx_qtbase (s : State) (c k : Nat) : (s.dropCtx c k).qtbase = s.qtbase := rfl
@[simp] theorem State.dropCtx_kickFrame (s : State) (c k : Nat) : (s.dropCtx c k).kickFrame = s.kickFrame := rfl
@[simp] theorem State.dropCtx_qFresh (s : State) (c k : Nat) : (s.dropCtx c k).qFresh = s.qFresh := rfl
@[simp] theorem State.dropCtx_pre0 (s : State) (c k : Nat) : (s.dropCtx c k).pre0 = s.pre0 := rfl
@[simp] theorem State.dropCtx_pre1 (s : State) (c k : Nat) : (s.dropCtx c k).pre1 = s.pre1 := rfl
@[simp] theorem State.dropCtx_preCrews (s : State) (c k : Nat) : (s.dropCtx c k).preCrews = s.preCrews := rfl
@[simp] theorem State.dropCtx_preSaved (s : State) (c k : Nat) : (s.dropCtx c k).preSaved = s.preSaved := rfl
@[simp] theorem State.dropCtx_acl (s : State) (c k : Nat) : (s.dropCtx c k).acl = s.acl := rfl
@[simp] theorem State.dropCtx_kicks (s : State) (c k : Nat) : (s.dropCtx c k).kicks = s.kicks := rfl
@[simp] theorem State.dropCtx_kicksHeld (s : State) (c k : Nat) : (s.dropCtx c k).kicksHeld = s.kicksHeld := rfl
@[simp] theorem State.dropCtx_pool0 (s : State) (c k : Nat) : (s.dropCtx c k).pool0 = s.pool0 := rfl
@[simp] theorem State.dropCtx_pool1 (s : State) (c k : Nat) : (s.dropCtx c k).pool1 = s.pool1 := rfl
@[simp] theorem State.dropCtx_lastGrant0 (s : State) (c k : Nat) : (s.dropCtx c k).lastGrant0 = s.lastGrant0 := rfl
@[simp] theorem State.dropCtx_lastGrant1 (s : State) (c k : Nat) : (s.dropCtx c k).lastGrant1 = s.lastGrant1 := rfl
@[simp] theorem State.dropCtx_ctr (s : State) (c k : Nat) : (s.dropCtx c k).ctr = s.ctr := rfl
@[simp] theorem State.dropCtx_ctrAt (s : State) (c k : Nat) : (s.dropCtx c k).ctrAt = s.ctrAt := rfl
@[simp] theorem State.dropCtx_readyBits (s : State) (c k : Nat) : (s.dropCtx c k).readyBits = s.readyBits := rfl
@[simp] theorem State.dropCtx_boot (s : State) (c k : Nat) : (s.dropCtx c k).boot = s.boot := rfl
@[simp] theorem State.dropCtx_image (s : State) (c k : Nat) : (s.dropCtx c k).image = s.image := rfl
@[simp] theorem State.dropCtx_watts (s : State) (c k : Nat) : (s.dropCtx c k).watts = s.watts := rfl
@[simp] theorem State.dropCtx_zeroAt (s : State) (c k : Nat) : (s.dropCtx c k).zeroAt = s.zeroAt := rfl
@[simp] theorem State.dropCtx_fatal (s : State) (c k : Nat) : (s.dropCtx c k).fatal = s.fatal := rfl
@[simp] theorem State.dropCtx_dumpBase (s : State) (c k : Nat) : (s.dropCtx c k).dumpBase = s.dumpBase := rfl
@[simp] theorem State.dropCtx_dumpLen (s : State) (c k : Nat) : (s.dropCtx c k).dumpLen = s.dumpLen := rfl
@[simp] theorem State.dropCtx_host (s : State) (c k : Nat) : (s.dropCtx c k).host = s.host := rfl
@[simp] theorem State.dropCtx_bar0 (s : State) (c k : Nat) : (s.dropCtx c k).bar0 = s.bar0 := rfl
@[simp] theorem State.dropCtx_bar1 (s : State) (c k : Nat) : (s.dropCtx c k).bar1 = s.bar1 := rfl
@[simp] theorem State.dropCtx_submitted (s : State) (c k : Nat) : (s.dropCtx c k).submitted = s.submitted := rfl
@[simp] theorem State.dropCtx_mbox (s : State) (c k : Nat) : (s.dropCtx c k).mbox = s.mbox := rfl
@[simp] theorem State.dropCtx_reports (s : State) (c k : Nat) : (s.dropCtx c k).reports = s.reports := rfl
@[simp] theorem State.dropCtx_ports (s : State) (c k : Nat) : (s.dropCtx c k).ports = s.ports := rfl
@[simp] theorem State.dropCtx_peerNo (s : State) (c k : Nat) : (s.dropCtx c k).peerNo = s.peerNo := rfl
@[simp] theorem State.dropCtx_far (s : State) (c k : Nat) : (s.dropCtx c k).far = s.far := rfl
@[simp] theorem State.dropCtx_farOut (s : State) (c k : Nat) : (s.dropCtx c k).farOut = s.farOut := rfl
@[simp] theorem State.dropCtx_farIn (s : State) (c k : Nat) : (s.dropCtx c k).farIn = s.farIn := rfl
@[simp] theorem State.dropCtx_launches (s : State) (c k : Nat) : (s.dropCtx c k).launches = s.launches := rfl
@[simp] theorem State.dropCtx_crews (s : State) (c k : Nat) : (s.dropCtx c k).crews = s.crews := rfl
@[simp] theorem State.dropCtx_gangs (s : State) (c k : Nat) : (s.dropCtx c k).gangs = s.gangs := rfl
@[simp] theorem State.dropCtx_cores (s : State) (c k : Nat) : (s.dropCtx c k).cores = s.cores := rfl
@[simp] theorem State.dropCtx_leases (s : State) (c k : Nat) : (s.dropCtx c k).leases = s.leases := rfl
@[simp] theorem State.dropCtx_recovered (s : State) (c k : Nat) : (s.dropCtx c k).recovered = s.recovered := rfl
@[simp] theorem State.dropCtx_recovering (s : State) (c k : Nat) : (s.dropCtx c k).recovering = s.recovering := rfl
@[simp] theorem State.dropCtx_outside (s : State) (c k : Nat) : (s.dropCtx c k).outside = s.outside := rfl
@[simp] theorem State.dropCtx_cur (s : State) (c k : Nat) : (s.dropCtx c k).cur = s.cur := rfl
@[simp] theorem State.dropCtx_agenda (s : State) (c k : Nat) : (s.dropCtx c k).agenda = s.agenda := rfl
@[simp] theorem State.dropCtx_picks (s : State) (c k : Nat) : (s.dropCtx c k).picks = s.picks := rfl
@[simp] theorem State.dropCtx_nextId (s : State) (c k : Nat) : (s.dropCtx c k).nextId = s.nextId := rfl
@[simp] theorem State.dropCtx_nextLaunch (s : State) (c k : Nat) : (s.dropCtx c k).nextLaunch = s.nextLaunch := rfl
@[simp] theorem State.dropCtx_nextCrew (s : State) (c k : Nat) : (s.dropCtx c k).nextCrew = s.nextCrew := rfl
@[simp] theorem State.dropCtx_nextAge (s : State) (c k : Nat) : (s.dropCtx c k).nextAge = s.nextAge := rfl
@[simp] theorem State.dropCtx_turn (s : State) (c k : Nat) : (s.dropCtx c k).turn = s.turn := rfl

@[simp] theorem State.count_mem (s : State) (c : Ctr) (n : Nat) : (s.count c n).mem = s.mem := rfl
@[simp] theorem State.count_memPois (s : State) (c : Ctr) (n : Nat) : (s.count c n).memPois = s.memPois := rfl
@[simp] theorem State.count_vers (s : State) (c : Ctr) (n : Nat) : (s.count c n).vers = s.vers := rfl
@[simp] theorem State.count_ctxRegs (s : State) (c : Ctr) (n : Nat) : (s.count c n).ctxRegs = s.ctxRegs := rfl
@[simp] theorem State.count_tlb (s : State) (c : Ctr) (n : Nat) : (s.count c n).tlb = s.tlb := rfl
@[simp] theorem State.count_walking (s : State) (c : Ctr) (n : Nat) : (s.count c n).walking = s.walking := rfl
@[simp] theorem State.count_grants (s : State) (c : Ctr) (n : Nat) : (s.count c n).grants = s.grants := rfl
@[simp] theorem State.count_fqPend (s : State) (c : Ctr) (n : Nat) : (s.count c n).fqPend = s.fqPend := rfl
@[simp] theorem State.count_held (s : State) (c : Ctr) (n : Nat) : (s.count c n).held = s.held := rfl
@[simp] theorem State.count_qtbase (s : State) (c : Ctr) (n : Nat) : (s.count c n).qtbase = s.qtbase := rfl
@[simp] theorem State.count_kickFrame (s : State) (c : Ctr) (n : Nat) : (s.count c n).kickFrame = s.kickFrame := rfl
@[simp] theorem State.count_qFresh (s : State) (c : Ctr) (n : Nat) : (s.count c n).qFresh = s.qFresh := rfl
@[simp] theorem State.count_pre0 (s : State) (c : Ctr) (n : Nat) : (s.count c n).pre0 = s.pre0 := rfl
@[simp] theorem State.count_pre1 (s : State) (c : Ctr) (n : Nat) : (s.count c n).pre1 = s.pre1 := rfl
@[simp] theorem State.count_preCrews (s : State) (c : Ctr) (n : Nat) : (s.count c n).preCrews = s.preCrews := rfl
@[simp] theorem State.count_preSaved (s : State) (c : Ctr) (n : Nat) : (s.count c n).preSaved = s.preSaved := rfl
@[simp] theorem State.count_acl (s : State) (c : Ctr) (n : Nat) : (s.count c n).acl = s.acl := rfl
@[simp] theorem State.count_kicks (s : State) (c : Ctr) (n : Nat) : (s.count c n).kicks = s.kicks := rfl
@[simp] theorem State.count_kicksHeld (s : State) (c : Ctr) (n : Nat) : (s.count c n).kicksHeld = s.kicksHeld := rfl
@[simp] theorem State.count_pool0 (s : State) (c : Ctr) (n : Nat) : (s.count c n).pool0 = s.pool0 := rfl
@[simp] theorem State.count_pool1 (s : State) (c : Ctr) (n : Nat) : (s.count c n).pool1 = s.pool1 := rfl
@[simp] theorem State.count_lastGrant0 (s : State) (c : Ctr) (n : Nat) : (s.count c n).lastGrant0 = s.lastGrant0 := rfl
@[simp] theorem State.count_lastGrant1 (s : State) (c : Ctr) (n : Nat) : (s.count c n).lastGrant1 = s.lastGrant1 := rfl
@[simp] theorem State.count_ctrAt (s : State) (c : Ctr) (n : Nat) : (s.count c n).ctrAt = s.ctrAt := rfl
@[simp] theorem State.count_readyBits (s : State) (c : Ctr) (n : Nat) : (s.count c n).readyBits = s.readyBits := rfl
@[simp] theorem State.count_boot (s : State) (c : Ctr) (n : Nat) : (s.count c n).boot = s.boot := rfl
@[simp] theorem State.count_image (s : State) (c : Ctr) (n : Nat) : (s.count c n).image = s.image := rfl
@[simp] theorem State.count_watts (s : State) (c : Ctr) (n : Nat) : (s.count c n).watts = s.watts := rfl
@[simp] theorem State.count_zeroAt (s : State) (c : Ctr) (n : Nat) : (s.count c n).zeroAt = s.zeroAt := rfl
@[simp] theorem State.count_fatal (s : State) (c : Ctr) (n : Nat) : (s.count c n).fatal = s.fatal := rfl
@[simp] theorem State.count_dumpBase (s : State) (c : Ctr) (n : Nat) : (s.count c n).dumpBase = s.dumpBase := rfl
@[simp] theorem State.count_dumpLen (s : State) (c : Ctr) (n : Nat) : (s.count c n).dumpLen = s.dumpLen := rfl
@[simp] theorem State.count_host (s : State) (c : Ctr) (n : Nat) : (s.count c n).host = s.host := rfl
@[simp] theorem State.count_bar0 (s : State) (c : Ctr) (n : Nat) : (s.count c n).bar0 = s.bar0 := rfl
@[simp] theorem State.count_bar1 (s : State) (c : Ctr) (n : Nat) : (s.count c n).bar1 = s.bar1 := rfl
@[simp] theorem State.count_submitted (s : State) (c : Ctr) (n : Nat) : (s.count c n).submitted = s.submitted := rfl
@[simp] theorem State.count_mbox (s : State) (c : Ctr) (n : Nat) : (s.count c n).mbox = s.mbox := rfl
@[simp] theorem State.count_reports (s : State) (c : Ctr) (n : Nat) : (s.count c n).reports = s.reports := rfl
@[simp] theorem State.count_ports (s : State) (c : Ctr) (n : Nat) : (s.count c n).ports = s.ports := rfl
@[simp] theorem State.count_peerNo (s : State) (c : Ctr) (n : Nat) : (s.count c n).peerNo = s.peerNo := rfl
@[simp] theorem State.count_far (s : State) (c : Ctr) (n : Nat) : (s.count c n).far = s.far := rfl
@[simp] theorem State.count_farOut (s : State) (c : Ctr) (n : Nat) : (s.count c n).farOut = s.farOut := rfl
@[simp] theorem State.count_farIn (s : State) (c : Ctr) (n : Nat) : (s.count c n).farIn = s.farIn := rfl
@[simp] theorem State.count_launches (s : State) (c : Ctr) (n : Nat) : (s.count c n).launches = s.launches := rfl
@[simp] theorem State.count_crews (s : State) (c : Ctr) (n : Nat) : (s.count c n).crews = s.crews := rfl
@[simp] theorem State.count_gangs (s : State) (c : Ctr) (n : Nat) : (s.count c n).gangs = s.gangs := rfl
@[simp] theorem State.count_cores (s : State) (c : Ctr) (n : Nat) : (s.count c n).cores = s.cores := rfl
@[simp] theorem State.count_ctxs (s : State) (c : Ctr) (n : Nat) : (s.count c n).ctxs = s.ctxs := rfl
@[simp] theorem State.count_leases (s : State) (c : Ctr) (n : Nat) : (s.count c n).leases = s.leases := rfl
@[simp] theorem State.count_recovered (s : State) (c : Ctr) (n : Nat) : (s.count c n).recovered = s.recovered := rfl
@[simp] theorem State.count_recovering (s : State) (c : Ctr) (n : Nat) : (s.count c n).recovering = s.recovering := rfl
@[simp] theorem State.count_outside (s : State) (c : Ctr) (n : Nat) : (s.count c n).outside = s.outside := rfl
@[simp] theorem State.count_cur (s : State) (c : Ctr) (n : Nat) : (s.count c n).cur = s.cur := rfl
@[simp] theorem State.count_agenda (s : State) (c : Ctr) (n : Nat) : (s.count c n).agenda = s.agenda := rfl
@[simp] theorem State.count_picks (s : State) (c : Ctr) (n : Nat) : (s.count c n).picks = s.picks := rfl
@[simp] theorem State.count_nextId (s : State) (c : Ctr) (n : Nat) : (s.count c n).nextId = s.nextId := rfl
@[simp] theorem State.count_nextLaunch (s : State) (c : Ctr) (n : Nat) : (s.count c n).nextLaunch = s.nextLaunch := rfl
@[simp] theorem State.count_nextCrew (s : State) (c : Ctr) (n : Nat) : (s.count c n).nextCrew = s.nextCrew := rfl
@[simp] theorem State.count_nextAge (s : State) (c : Ctr) (n : Nat) : (s.count c n).nextAge = s.nextAge := rfl
@[simp] theorem State.count_turn (s : State) (c : Ctr) (n : Nat) : (s.count c n).turn = s.turn := rfl

@[simp] theorem State.countAt_mem (s : State) (p : CtrPlace) (c : Ctr) (n : Nat) : (s.countAt p c n).mem = s.mem := rfl
@[simp] theorem State.countAt_memPois (s : State) (p : CtrPlace) (c : Ctr) (n : Nat) : (s.countAt p c n).memPois = s.memPois := rfl
@[simp] theorem State.countAt_vers (s : State) (p : CtrPlace) (c : Ctr) (n : Nat) : (s.countAt p c n).vers = s.vers := rfl
@[simp] theorem State.countAt_ctxRegs (s : State) (p : CtrPlace) (c : Ctr) (n : Nat) : (s.countAt p c n).ctxRegs = s.ctxRegs := rfl
@[simp] theorem State.countAt_tlb (s : State) (p : CtrPlace) (c : Ctr) (n : Nat) : (s.countAt p c n).tlb = s.tlb := rfl
@[simp] theorem State.countAt_walking (s : State) (p : CtrPlace) (c : Ctr) (n : Nat) : (s.countAt p c n).walking = s.walking := rfl
@[simp] theorem State.countAt_grants (s : State) (p : CtrPlace) (c : Ctr) (n : Nat) : (s.countAt p c n).grants = s.grants := rfl
@[simp] theorem State.countAt_fqPend (s : State) (p : CtrPlace) (c : Ctr) (n : Nat) : (s.countAt p c n).fqPend = s.fqPend := rfl
@[simp] theorem State.countAt_held (s : State) (p : CtrPlace) (c : Ctr) (n : Nat) : (s.countAt p c n).held = s.held := rfl
@[simp] theorem State.countAt_qtbase (s : State) (p : CtrPlace) (c : Ctr) (n : Nat) : (s.countAt p c n).qtbase = s.qtbase := rfl
@[simp] theorem State.countAt_kickFrame (s : State) (p : CtrPlace) (c : Ctr) (n : Nat) : (s.countAt p c n).kickFrame = s.kickFrame := rfl
@[simp] theorem State.countAt_qFresh (s : State) (p : CtrPlace) (c : Ctr) (n : Nat) : (s.countAt p c n).qFresh = s.qFresh := rfl
@[simp] theorem State.countAt_pre0 (s : State) (p : CtrPlace) (c : Ctr) (n : Nat) : (s.countAt p c n).pre0 = s.pre0 := rfl
@[simp] theorem State.countAt_pre1 (s : State) (p : CtrPlace) (c : Ctr) (n : Nat) : (s.countAt p c n).pre1 = s.pre1 := rfl
@[simp] theorem State.countAt_preCrews (s : State) (p : CtrPlace) (c : Ctr) (n : Nat) : (s.countAt p c n).preCrews = s.preCrews := rfl
@[simp] theorem State.countAt_preSaved (s : State) (p : CtrPlace) (c : Ctr) (n : Nat) : (s.countAt p c n).preSaved = s.preSaved := rfl
@[simp] theorem State.countAt_acl (s : State) (p : CtrPlace) (c : Ctr) (n : Nat) : (s.countAt p c n).acl = s.acl := rfl
@[simp] theorem State.countAt_kicks (s : State) (p : CtrPlace) (c : Ctr) (n : Nat) : (s.countAt p c n).kicks = s.kicks := rfl
@[simp] theorem State.countAt_kicksHeld (s : State) (p : CtrPlace) (c : Ctr) (n : Nat) : (s.countAt p c n).kicksHeld = s.kicksHeld := rfl
@[simp] theorem State.countAt_pool0 (s : State) (p : CtrPlace) (c : Ctr) (n : Nat) : (s.countAt p c n).pool0 = s.pool0 := rfl
@[simp] theorem State.countAt_pool1 (s : State) (p : CtrPlace) (c : Ctr) (n : Nat) : (s.countAt p c n).pool1 = s.pool1 := rfl
@[simp] theorem State.countAt_lastGrant0 (s : State) (p : CtrPlace) (c : Ctr) (n : Nat) : (s.countAt p c n).lastGrant0 = s.lastGrant0 := rfl
@[simp] theorem State.countAt_lastGrant1 (s : State) (p : CtrPlace) (c : Ctr) (n : Nat) : (s.countAt p c n).lastGrant1 = s.lastGrant1 := rfl
@[simp] theorem State.countAt_readyBits (s : State) (p : CtrPlace) (c : Ctr) (n : Nat) : (s.countAt p c n).readyBits = s.readyBits := rfl
@[simp] theorem State.countAt_boot (s : State) (p : CtrPlace) (c : Ctr) (n : Nat) : (s.countAt p c n).boot = s.boot := rfl
@[simp] theorem State.countAt_image (s : State) (p : CtrPlace) (c : Ctr) (n : Nat) : (s.countAt p c n).image = s.image := rfl
@[simp] theorem State.countAt_watts (s : State) (p : CtrPlace) (c : Ctr) (n : Nat) : (s.countAt p c n).watts = s.watts := rfl
@[simp] theorem State.countAt_zeroAt (s : State) (p : CtrPlace) (c : Ctr) (n : Nat) : (s.countAt p c n).zeroAt = s.zeroAt := rfl
@[simp] theorem State.countAt_fatal (s : State) (p : CtrPlace) (c : Ctr) (n : Nat) : (s.countAt p c n).fatal = s.fatal := rfl
@[simp] theorem State.countAt_dumpBase (s : State) (p : CtrPlace) (c : Ctr) (n : Nat) : (s.countAt p c n).dumpBase = s.dumpBase := rfl
@[simp] theorem State.countAt_dumpLen (s : State) (p : CtrPlace) (c : Ctr) (n : Nat) : (s.countAt p c n).dumpLen = s.dumpLen := rfl
@[simp] theorem State.countAt_host (s : State) (p : CtrPlace) (c : Ctr) (n : Nat) : (s.countAt p c n).host = s.host := rfl
@[simp] theorem State.countAt_bar0 (s : State) (p : CtrPlace) (c : Ctr) (n : Nat) : (s.countAt p c n).bar0 = s.bar0 := rfl
@[simp] theorem State.countAt_bar1 (s : State) (p : CtrPlace) (c : Ctr) (n : Nat) : (s.countAt p c n).bar1 = s.bar1 := rfl
@[simp] theorem State.countAt_submitted (s : State) (p : CtrPlace) (c : Ctr) (n : Nat) : (s.countAt p c n).submitted = s.submitted := rfl
@[simp] theorem State.countAt_mbox (s : State) (p : CtrPlace) (c : Ctr) (n : Nat) : (s.countAt p c n).mbox = s.mbox := rfl
@[simp] theorem State.countAt_reports (s : State) (p : CtrPlace) (c : Ctr) (n : Nat) : (s.countAt p c n).reports = s.reports := rfl
@[simp] theorem State.countAt_ports (s : State) (p : CtrPlace) (c : Ctr) (n : Nat) : (s.countAt p c n).ports = s.ports := rfl
@[simp] theorem State.countAt_peerNo (s : State) (p : CtrPlace) (c : Ctr) (n : Nat) : (s.countAt p c n).peerNo = s.peerNo := rfl
@[simp] theorem State.countAt_far (s : State) (p : CtrPlace) (c : Ctr) (n : Nat) : (s.countAt p c n).far = s.far := rfl
@[simp] theorem State.countAt_farOut (s : State) (p : CtrPlace) (c : Ctr) (n : Nat) : (s.countAt p c n).farOut = s.farOut := rfl
@[simp] theorem State.countAt_farIn (s : State) (p : CtrPlace) (c : Ctr) (n : Nat) : (s.countAt p c n).farIn = s.farIn := rfl
@[simp] theorem State.countAt_launches (s : State) (p : CtrPlace) (c : Ctr) (n : Nat) : (s.countAt p c n).launches = s.launches := rfl
@[simp] theorem State.countAt_crews (s : State) (p : CtrPlace) (c : Ctr) (n : Nat) : (s.countAt p c n).crews = s.crews := rfl
@[simp] theorem State.countAt_gangs (s : State) (p : CtrPlace) (c : Ctr) (n : Nat) : (s.countAt p c n).gangs = s.gangs := rfl
@[simp] theorem State.countAt_cores (s : State) (p : CtrPlace) (c : Ctr) (n : Nat) : (s.countAt p c n).cores = s.cores := rfl
@[simp] theorem State.countAt_ctxs (s : State) (p : CtrPlace) (c : Ctr) (n : Nat) : (s.countAt p c n).ctxs = s.ctxs := rfl
@[simp] theorem State.countAt_leases (s : State) (p : CtrPlace) (c : Ctr) (n : Nat) : (s.countAt p c n).leases = s.leases := rfl
@[simp] theorem State.countAt_recovered (s : State) (p : CtrPlace) (c : Ctr) (n : Nat) : (s.countAt p c n).recovered = s.recovered := rfl
@[simp] theorem State.countAt_recovering (s : State) (p : CtrPlace) (c : Ctr) (n : Nat) : (s.countAt p c n).recovering = s.recovering := rfl
@[simp] theorem State.countAt_outside (s : State) (p : CtrPlace) (c : Ctr) (n : Nat) : (s.countAt p c n).outside = s.outside := rfl
@[simp] theorem State.countAt_cur (s : State) (p : CtrPlace) (c : Ctr) (n : Nat) : (s.countAt p c n).cur = s.cur := rfl
@[simp] theorem State.countAt_agenda (s : State) (p : CtrPlace) (c : Ctr) (n : Nat) : (s.countAt p c n).agenda = s.agenda := rfl
@[simp] theorem State.countAt_picks (s : State) (p : CtrPlace) (c : Ctr) (n : Nat) : (s.countAt p c n).picks = s.picks := rfl
@[simp] theorem State.countAt_nextId (s : State) (p : CtrPlace) (c : Ctr) (n : Nat) : (s.countAt p c n).nextId = s.nextId := rfl
@[simp] theorem State.countAt_nextLaunch (s : State) (p : CtrPlace) (c : Ctr) (n : Nat) : (s.countAt p c n).nextLaunch = s.nextLaunch := rfl
@[simp] theorem State.countAt_nextCrew (s : State) (p : CtrPlace) (c : Ctr) (n : Nat) : (s.countAt p c n).nextCrew = s.nextCrew := rfl
@[simp] theorem State.countAt_nextAge (s : State) (p : CtrPlace) (c : Ctr) (n : Nat) : (s.countAt p c n).nextAge = s.nextAge := rfl
@[simp] theorem State.countAt_turn (s : State) (p : CtrPlace) (c : Ctr) (n : Nat) : (s.countAt p c n).turn = s.turn := rfl

@[simp] theorem State.setCtxReg_mem (s : State) (c o : Nat) (v : DWord) : (s.setCtxReg c o v).mem = s.mem := rfl
@[simp] theorem State.setCtxReg_memPois (s : State) (c o : Nat) (v : DWord) : (s.setCtxReg c o v).memPois = s.memPois := rfl
@[simp] theorem State.setCtxReg_vers (s : State) (c o : Nat) (v : DWord) : (s.setCtxReg c o v).vers = s.vers := rfl
@[simp] theorem State.setCtxReg_tlb (s : State) (c o : Nat) (v : DWord) : (s.setCtxReg c o v).tlb = s.tlb := rfl
@[simp] theorem State.setCtxReg_walking (s : State) (c o : Nat) (v : DWord) : (s.setCtxReg c o v).walking = s.walking := rfl
@[simp] theorem State.setCtxReg_grants (s : State) (c o : Nat) (v : DWord) : (s.setCtxReg c o v).grants = s.grants := rfl
@[simp] theorem State.setCtxReg_fqPend (s : State) (c o : Nat) (v : DWord) : (s.setCtxReg c o v).fqPend = s.fqPend := rfl
@[simp] theorem State.setCtxReg_held (s : State) (c o : Nat) (v : DWord) : (s.setCtxReg c o v).held = s.held := rfl
@[simp] theorem State.setCtxReg_qtbase (s : State) (c o : Nat) (v : DWord) : (s.setCtxReg c o v).qtbase = s.qtbase := rfl
@[simp] theorem State.setCtxReg_kickFrame (s : State) (c o : Nat) (v : DWord) : (s.setCtxReg c o v).kickFrame = s.kickFrame := rfl
@[simp] theorem State.setCtxReg_qFresh (s : State) (c o : Nat) (v : DWord) : (s.setCtxReg c o v).qFresh = s.qFresh := rfl
@[simp] theorem State.setCtxReg_pre0 (s : State) (c o : Nat) (v : DWord) : (s.setCtxReg c o v).pre0 = s.pre0 := rfl
@[simp] theorem State.setCtxReg_pre1 (s : State) (c o : Nat) (v : DWord) : (s.setCtxReg c o v).pre1 = s.pre1 := rfl
@[simp] theorem State.setCtxReg_preCrews (s : State) (c o : Nat) (v : DWord) : (s.setCtxReg c o v).preCrews = s.preCrews := rfl
@[simp] theorem State.setCtxReg_preSaved (s : State) (c o : Nat) (v : DWord) : (s.setCtxReg c o v).preSaved = s.preSaved := rfl
@[simp] theorem State.setCtxReg_acl (s : State) (c o : Nat) (v : DWord) : (s.setCtxReg c o v).acl = s.acl := rfl
@[simp] theorem State.setCtxReg_kicks (s : State) (c o : Nat) (v : DWord) : (s.setCtxReg c o v).kicks = s.kicks := rfl
@[simp] theorem State.setCtxReg_kicksHeld (s : State) (c o : Nat) (v : DWord) : (s.setCtxReg c o v).kicksHeld = s.kicksHeld := rfl
@[simp] theorem State.setCtxReg_pool0 (s : State) (c o : Nat) (v : DWord) : (s.setCtxReg c o v).pool0 = s.pool0 := rfl
@[simp] theorem State.setCtxReg_pool1 (s : State) (c o : Nat) (v : DWord) : (s.setCtxReg c o v).pool1 = s.pool1 := rfl
@[simp] theorem State.setCtxReg_lastGrant0 (s : State) (c o : Nat) (v : DWord) : (s.setCtxReg c o v).lastGrant0 = s.lastGrant0 := rfl
@[simp] theorem State.setCtxReg_lastGrant1 (s : State) (c o : Nat) (v : DWord) : (s.setCtxReg c o v).lastGrant1 = s.lastGrant1 := rfl
@[simp] theorem State.setCtxReg_ctr (s : State) (c o : Nat) (v : DWord) : (s.setCtxReg c o v).ctr = s.ctr := rfl
@[simp] theorem State.setCtxReg_ctrAt (s : State) (c o : Nat) (v : DWord) : (s.setCtxReg c o v).ctrAt = s.ctrAt := rfl
@[simp] theorem State.setCtxReg_readyBits (s : State) (c o : Nat) (v : DWord) : (s.setCtxReg c o v).readyBits = s.readyBits := rfl
@[simp] theorem State.setCtxReg_boot (s : State) (c o : Nat) (v : DWord) : (s.setCtxReg c o v).boot = s.boot := rfl
@[simp] theorem State.setCtxReg_image (s : State) (c o : Nat) (v : DWord) : (s.setCtxReg c o v).image = s.image := rfl
@[simp] theorem State.setCtxReg_watts (s : State) (c o : Nat) (v : DWord) : (s.setCtxReg c o v).watts = s.watts := rfl
@[simp] theorem State.setCtxReg_zeroAt (s : State) (c o : Nat) (v : DWord) : (s.setCtxReg c o v).zeroAt = s.zeroAt := rfl
@[simp] theorem State.setCtxReg_fatal (s : State) (c o : Nat) (v : DWord) : (s.setCtxReg c o v).fatal = s.fatal := rfl
@[simp] theorem State.setCtxReg_dumpBase (s : State) (c o : Nat) (v : DWord) : (s.setCtxReg c o v).dumpBase = s.dumpBase := rfl
@[simp] theorem State.setCtxReg_dumpLen (s : State) (c o : Nat) (v : DWord) : (s.setCtxReg c o v).dumpLen = s.dumpLen := rfl
@[simp] theorem State.setCtxReg_host (s : State) (c o : Nat) (v : DWord) : (s.setCtxReg c o v).host = s.host := rfl
@[simp] theorem State.setCtxReg_bar0 (s : State) (c o : Nat) (v : DWord) : (s.setCtxReg c o v).bar0 = s.bar0 := rfl
@[simp] theorem State.setCtxReg_bar1 (s : State) (c o : Nat) (v : DWord) : (s.setCtxReg c o v).bar1 = s.bar1 := rfl
@[simp] theorem State.setCtxReg_submitted (s : State) (c o : Nat) (v : DWord) : (s.setCtxReg c o v).submitted = s.submitted := rfl
@[simp] theorem State.setCtxReg_mbox (s : State) (c o : Nat) (v : DWord) : (s.setCtxReg c o v).mbox = s.mbox := rfl
@[simp] theorem State.setCtxReg_reports (s : State) (c o : Nat) (v : DWord) : (s.setCtxReg c o v).reports = s.reports := rfl
@[simp] theorem State.setCtxReg_ports (s : State) (c o : Nat) (v : DWord) : (s.setCtxReg c o v).ports = s.ports := rfl
@[simp] theorem State.setCtxReg_peerNo (s : State) (c o : Nat) (v : DWord) : (s.setCtxReg c o v).peerNo = s.peerNo := rfl
@[simp] theorem State.setCtxReg_far (s : State) (c o : Nat) (v : DWord) : (s.setCtxReg c o v).far = s.far := rfl
@[simp] theorem State.setCtxReg_farOut (s : State) (c o : Nat) (v : DWord) : (s.setCtxReg c o v).farOut = s.farOut := rfl
@[simp] theorem State.setCtxReg_farIn (s : State) (c o : Nat) (v : DWord) : (s.setCtxReg c o v).farIn = s.farIn := rfl
@[simp] theorem State.setCtxReg_launches (s : State) (c o : Nat) (v : DWord) : (s.setCtxReg c o v).launches = s.launches := rfl
@[simp] theorem State.setCtxReg_crews (s : State) (c o : Nat) (v : DWord) : (s.setCtxReg c o v).crews = s.crews := rfl
@[simp] theorem State.setCtxReg_gangs (s : State) (c o : Nat) (v : DWord) : (s.setCtxReg c o v).gangs = s.gangs := rfl
@[simp] theorem State.setCtxReg_cores (s : State) (c o : Nat) (v : DWord) : (s.setCtxReg c o v).cores = s.cores := rfl
@[simp] theorem State.setCtxReg_ctxs (s : State) (c o : Nat) (v : DWord) : (s.setCtxReg c o v).ctxs = s.ctxs := rfl
@[simp] theorem State.setCtxReg_leases (s : State) (c o : Nat) (v : DWord) : (s.setCtxReg c o v).leases = s.leases := rfl
@[simp] theorem State.setCtxReg_recovered (s : State) (c o : Nat) (v : DWord) : (s.setCtxReg c o v).recovered = s.recovered := rfl
@[simp] theorem State.setCtxReg_recovering (s : State) (c o : Nat) (v : DWord) : (s.setCtxReg c o v).recovering = s.recovering := rfl
@[simp] theorem State.setCtxReg_outside (s : State) (c o : Nat) (v : DWord) : (s.setCtxReg c o v).outside = s.outside := rfl
@[simp] theorem State.setCtxReg_cur (s : State) (c o : Nat) (v : DWord) : (s.setCtxReg c o v).cur = s.cur := rfl
@[simp] theorem State.setCtxReg_agenda (s : State) (c o : Nat) (v : DWord) : (s.setCtxReg c o v).agenda = s.agenda := rfl
@[simp] theorem State.setCtxReg_picks (s : State) (c o : Nat) (v : DWord) : (s.setCtxReg c o v).picks = s.picks := rfl
@[simp] theorem State.setCtxReg_nextId (s : State) (c o : Nat) (v : DWord) : (s.setCtxReg c o v).nextId = s.nextId := rfl
@[simp] theorem State.setCtxReg_nextLaunch (s : State) (c o : Nat) (v : DWord) : (s.setCtxReg c o v).nextLaunch = s.nextLaunch := rfl
@[simp] theorem State.setCtxReg_nextCrew (s : State) (c o : Nat) (v : DWord) : (s.setCtxReg c o v).nextCrew = s.nextCrew := rfl
@[simp] theorem State.setCtxReg_nextAge (s : State) (c o : Nat) (v : DWord) : (s.setCtxReg c o v).nextAge = s.nextAge := rfl
@[simp] theorem State.setCtxReg_turn (s : State) (c o : Nat) (v : DWord) : (s.setCtxReg c o v).turn = s.turn := rfl

@[simp] theorem State.setVer_mem (s : State) (a : Nat) (v : BitVec 16) : (s.setVer a v).mem = s.mem := rfl
@[simp] theorem State.setVer_memPois (s : State) (a : Nat) (v : BitVec 16) : (s.setVer a v).memPois = s.memPois := rfl
@[simp] theorem State.setVer_ctxRegs (s : State) (a : Nat) (v : BitVec 16) : (s.setVer a v).ctxRegs = s.ctxRegs := rfl
@[simp] theorem State.setVer_tlb (s : State) (a : Nat) (v : BitVec 16) : (s.setVer a v).tlb = s.tlb := rfl
@[simp] theorem State.setVer_walking (s : State) (a : Nat) (v : BitVec 16) : (s.setVer a v).walking = s.walking := rfl
@[simp] theorem State.setVer_grants (s : State) (a : Nat) (v : BitVec 16) : (s.setVer a v).grants = s.grants := rfl
@[simp] theorem State.setVer_fqPend (s : State) (a : Nat) (v : BitVec 16) : (s.setVer a v).fqPend = s.fqPend := rfl
@[simp] theorem State.setVer_held (s : State) (a : Nat) (v : BitVec 16) : (s.setVer a v).held = s.held := rfl
@[simp] theorem State.setVer_qtbase (s : State) (a : Nat) (v : BitVec 16) : (s.setVer a v).qtbase = s.qtbase := rfl
@[simp] theorem State.setVer_kickFrame (s : State) (a : Nat) (v : BitVec 16) : (s.setVer a v).kickFrame = s.kickFrame := rfl
@[simp] theorem State.setVer_qFresh (s : State) (a : Nat) (v : BitVec 16) : (s.setVer a v).qFresh = s.qFresh := rfl
@[simp] theorem State.setVer_pre0 (s : State) (a : Nat) (v : BitVec 16) : (s.setVer a v).pre0 = s.pre0 := rfl
@[simp] theorem State.setVer_pre1 (s : State) (a : Nat) (v : BitVec 16) : (s.setVer a v).pre1 = s.pre1 := rfl
@[simp] theorem State.setVer_preCrews (s : State) (a : Nat) (v : BitVec 16) : (s.setVer a v).preCrews = s.preCrews := rfl
@[simp] theorem State.setVer_preSaved (s : State) (a : Nat) (v : BitVec 16) : (s.setVer a v).preSaved = s.preSaved := rfl
@[simp] theorem State.setVer_acl (s : State) (a : Nat) (v : BitVec 16) : (s.setVer a v).acl = s.acl := rfl
@[simp] theorem State.setVer_kicks (s : State) (a : Nat) (v : BitVec 16) : (s.setVer a v).kicks = s.kicks := rfl
@[simp] theorem State.setVer_kicksHeld (s : State) (a : Nat) (v : BitVec 16) : (s.setVer a v).kicksHeld = s.kicksHeld := rfl
@[simp] theorem State.setVer_pool0 (s : State) (a : Nat) (v : BitVec 16) : (s.setVer a v).pool0 = s.pool0 := rfl
@[simp] theorem State.setVer_pool1 (s : State) (a : Nat) (v : BitVec 16) : (s.setVer a v).pool1 = s.pool1 := rfl
@[simp] theorem State.setVer_lastGrant0 (s : State) (a : Nat) (v : BitVec 16) : (s.setVer a v).lastGrant0 = s.lastGrant0 := rfl
@[simp] theorem State.setVer_lastGrant1 (s : State) (a : Nat) (v : BitVec 16) : (s.setVer a v).lastGrant1 = s.lastGrant1 := rfl
@[simp] theorem State.setVer_ctr (s : State) (a : Nat) (v : BitVec 16) : (s.setVer a v).ctr = s.ctr := rfl
@[simp] theorem State.setVer_ctrAt (s : State) (a : Nat) (v : BitVec 16) : (s.setVer a v).ctrAt = s.ctrAt := rfl
@[simp] theorem State.setVer_readyBits (s : State) (a : Nat) (v : BitVec 16) : (s.setVer a v).readyBits = s.readyBits := rfl
@[simp] theorem State.setVer_boot (s : State) (a : Nat) (v : BitVec 16) : (s.setVer a v).boot = s.boot := rfl
@[simp] theorem State.setVer_image (s : State) (a : Nat) (v : BitVec 16) : (s.setVer a v).image = s.image := rfl
@[simp] theorem State.setVer_watts (s : State) (a : Nat) (v : BitVec 16) : (s.setVer a v).watts = s.watts := rfl
@[simp] theorem State.setVer_zeroAt (s : State) (a : Nat) (v : BitVec 16) : (s.setVer a v).zeroAt = s.zeroAt := rfl
@[simp] theorem State.setVer_fatal (s : State) (a : Nat) (v : BitVec 16) : (s.setVer a v).fatal = s.fatal := rfl
@[simp] theorem State.setVer_dumpBase (s : State) (a : Nat) (v : BitVec 16) : (s.setVer a v).dumpBase = s.dumpBase := rfl
@[simp] theorem State.setVer_dumpLen (s : State) (a : Nat) (v : BitVec 16) : (s.setVer a v).dumpLen = s.dumpLen := rfl
@[simp] theorem State.setVer_host (s : State) (a : Nat) (v : BitVec 16) : (s.setVer a v).host = s.host := rfl
@[simp] theorem State.setVer_bar0 (s : State) (a : Nat) (v : BitVec 16) : (s.setVer a v).bar0 = s.bar0 := rfl
@[simp] theorem State.setVer_bar1 (s : State) (a : Nat) (v : BitVec 16) : (s.setVer a v).bar1 = s.bar1 := rfl
@[simp] theorem State.setVer_submitted (s : State) (a : Nat) (v : BitVec 16) : (s.setVer a v).submitted = s.submitted := rfl
@[simp] theorem State.setVer_mbox (s : State) (a : Nat) (v : BitVec 16) : (s.setVer a v).mbox = s.mbox := rfl
@[simp] theorem State.setVer_reports (s : State) (a : Nat) (v : BitVec 16) : (s.setVer a v).reports = s.reports := rfl
@[simp] theorem State.setVer_ports (s : State) (a : Nat) (v : BitVec 16) : (s.setVer a v).ports = s.ports := rfl
@[simp] theorem State.setVer_peerNo (s : State) (a : Nat) (v : BitVec 16) : (s.setVer a v).peerNo = s.peerNo := rfl
@[simp] theorem State.setVer_far (s : State) (a : Nat) (v : BitVec 16) : (s.setVer a v).far = s.far := rfl
@[simp] theorem State.setVer_farOut (s : State) (a : Nat) (v : BitVec 16) : (s.setVer a v).farOut = s.farOut := rfl
@[simp] theorem State.setVer_farIn (s : State) (a : Nat) (v : BitVec 16) : (s.setVer a v).farIn = s.farIn := rfl
@[simp] theorem State.setVer_launches (s : State) (a : Nat) (v : BitVec 16) : (s.setVer a v).launches = s.launches := rfl
@[simp] theorem State.setVer_crews (s : State) (a : Nat) (v : BitVec 16) : (s.setVer a v).crews = s.crews := rfl
@[simp] theorem State.setVer_gangs (s : State) (a : Nat) (v : BitVec 16) : (s.setVer a v).gangs = s.gangs := rfl
@[simp] theorem State.setVer_cores (s : State) (a : Nat) (v : BitVec 16) : (s.setVer a v).cores = s.cores := rfl
@[simp] theorem State.setVer_ctxs (s : State) (a : Nat) (v : BitVec 16) : (s.setVer a v).ctxs = s.ctxs := rfl
@[simp] theorem State.setVer_leases (s : State) (a : Nat) (v : BitVec 16) : (s.setVer a v).leases = s.leases := rfl
@[simp] theorem State.setVer_recovered (s : State) (a : Nat) (v : BitVec 16) : (s.setVer a v).recovered = s.recovered := rfl
@[simp] theorem State.setVer_recovering (s : State) (a : Nat) (v : BitVec 16) : (s.setVer a v).recovering = s.recovering := rfl
@[simp] theorem State.setVer_outside (s : State) (a : Nat) (v : BitVec 16) : (s.setVer a v).outside = s.outside := rfl
@[simp] theorem State.setVer_cur (s : State) (a : Nat) (v : BitVec 16) : (s.setVer a v).cur = s.cur := rfl
@[simp] theorem State.setVer_agenda (s : State) (a : Nat) (v : BitVec 16) : (s.setVer a v).agenda = s.agenda := rfl
@[simp] theorem State.setVer_picks (s : State) (a : Nat) (v : BitVec 16) : (s.setVer a v).picks = s.picks := rfl
@[simp] theorem State.setVer_nextId (s : State) (a : Nat) (v : BitVec 16) : (s.setVer a v).nextId = s.nextId := rfl
@[simp] theorem State.setVer_nextLaunch (s : State) (a : Nat) (v : BitVec 16) : (s.setVer a v).nextLaunch = s.nextLaunch := rfl
@[simp] theorem State.setVer_nextCrew (s : State) (a : Nat) (v : BitVec 16) : (s.setVer a v).nextCrew = s.nextCrew := rfl
@[simp] theorem State.setVer_nextAge (s : State) (a : Nat) (v : BitVec 16) : (s.setVer a v).nextAge = s.nextAge := rfl
@[simp] theorem State.setVer_turn (s : State) (a : Nat) (v : BitVec 16) : (s.setVer a v).turn = s.turn := rfl

@[simp] theorem State.wake_mem (s : State) (p : Gang → Bool) : (s.wake p).mem = s.mem := rfl
@[simp] theorem State.wake_memPois (s : State) (p : Gang → Bool) : (s.wake p).memPois = s.memPois := rfl
@[simp] theorem State.wake_vers (s : State) (p : Gang → Bool) : (s.wake p).vers = s.vers := rfl
@[simp] theorem State.wake_ctxRegs (s : State) (p : Gang → Bool) : (s.wake p).ctxRegs = s.ctxRegs := rfl
@[simp] theorem State.wake_tlb (s : State) (p : Gang → Bool) : (s.wake p).tlb = s.tlb := rfl
@[simp] theorem State.wake_walking (s : State) (p : Gang → Bool) : (s.wake p).walking = s.walking := rfl
@[simp] theorem State.wake_grants (s : State) (p : Gang → Bool) : (s.wake p).grants = s.grants := rfl
@[simp] theorem State.wake_fqPend (s : State) (p : Gang → Bool) : (s.wake p).fqPend = s.fqPend := rfl
@[simp] theorem State.wake_held (s : State) (p : Gang → Bool) : (s.wake p).held = s.held := rfl
@[simp] theorem State.wake_qtbase (s : State) (p : Gang → Bool) : (s.wake p).qtbase = s.qtbase := rfl
@[simp] theorem State.wake_kickFrame (s : State) (p : Gang → Bool) : (s.wake p).kickFrame = s.kickFrame := rfl
@[simp] theorem State.wake_qFresh (s : State) (p : Gang → Bool) : (s.wake p).qFresh = s.qFresh := rfl
@[simp] theorem State.wake_pre0 (s : State) (p : Gang → Bool) : (s.wake p).pre0 = s.pre0 := rfl
@[simp] theorem State.wake_pre1 (s : State) (p : Gang → Bool) : (s.wake p).pre1 = s.pre1 := rfl
@[simp] theorem State.wake_preCrews (s : State) (p : Gang → Bool) : (s.wake p).preCrews = s.preCrews := rfl
@[simp] theorem State.wake_preSaved (s : State) (p : Gang → Bool) : (s.wake p).preSaved = s.preSaved := rfl
@[simp] theorem State.wake_acl (s : State) (p : Gang → Bool) : (s.wake p).acl = s.acl := rfl
@[simp] theorem State.wake_kicks (s : State) (p : Gang → Bool) : (s.wake p).kicks = s.kicks := rfl
@[simp] theorem State.wake_kicksHeld (s : State) (p : Gang → Bool) : (s.wake p).kicksHeld = s.kicksHeld := rfl
@[simp] theorem State.wake_pool0 (s : State) (p : Gang → Bool) : (s.wake p).pool0 = s.pool0 := rfl
@[simp] theorem State.wake_pool1 (s : State) (p : Gang → Bool) : (s.wake p).pool1 = s.pool1 := rfl
@[simp] theorem State.wake_lastGrant0 (s : State) (p : Gang → Bool) : (s.wake p).lastGrant0 = s.lastGrant0 := rfl
@[simp] theorem State.wake_lastGrant1 (s : State) (p : Gang → Bool) : (s.wake p).lastGrant1 = s.lastGrant1 := rfl
@[simp] theorem State.wake_ctr (s : State) (p : Gang → Bool) : (s.wake p).ctr = s.ctr := rfl
@[simp] theorem State.wake_ctrAt (s : State) (p : Gang → Bool) : (s.wake p).ctrAt = s.ctrAt := rfl
@[simp] theorem State.wake_readyBits (s : State) (p : Gang → Bool) : (s.wake p).readyBits = s.readyBits := rfl
@[simp] theorem State.wake_boot (s : State) (p : Gang → Bool) : (s.wake p).boot = s.boot := rfl
@[simp] theorem State.wake_image (s : State) (p : Gang → Bool) : (s.wake p).image = s.image := rfl
@[simp] theorem State.wake_watts (s : State) (p : Gang → Bool) : (s.wake p).watts = s.watts := rfl
@[simp] theorem State.wake_zeroAt (s : State) (p : Gang → Bool) : (s.wake p).zeroAt = s.zeroAt := rfl
@[simp] theorem State.wake_fatal (s : State) (p : Gang → Bool) : (s.wake p).fatal = s.fatal := rfl
@[simp] theorem State.wake_dumpBase (s : State) (p : Gang → Bool) : (s.wake p).dumpBase = s.dumpBase := rfl
@[simp] theorem State.wake_dumpLen (s : State) (p : Gang → Bool) : (s.wake p).dumpLen = s.dumpLen := rfl
@[simp] theorem State.wake_host (s : State) (p : Gang → Bool) : (s.wake p).host = s.host := rfl
@[simp] theorem State.wake_bar0 (s : State) (p : Gang → Bool) : (s.wake p).bar0 = s.bar0 := rfl
@[simp] theorem State.wake_bar1 (s : State) (p : Gang → Bool) : (s.wake p).bar1 = s.bar1 := rfl
@[simp] theorem State.wake_submitted (s : State) (p : Gang → Bool) : (s.wake p).submitted = s.submitted := rfl
@[simp] theorem State.wake_mbox (s : State) (p : Gang → Bool) : (s.wake p).mbox = s.mbox := rfl
@[simp] theorem State.wake_reports (s : State) (p : Gang → Bool) : (s.wake p).reports = s.reports := rfl
@[simp] theorem State.wake_ports (s : State) (p : Gang → Bool) : (s.wake p).ports = s.ports := rfl
@[simp] theorem State.wake_peerNo (s : State) (p : Gang → Bool) : (s.wake p).peerNo = s.peerNo := rfl
@[simp] theorem State.wake_far (s : State) (p : Gang → Bool) : (s.wake p).far = s.far := rfl
@[simp] theorem State.wake_farOut (s : State) (p : Gang → Bool) : (s.wake p).farOut = s.farOut := rfl
@[simp] theorem State.wake_farIn (s : State) (p : Gang → Bool) : (s.wake p).farIn = s.farIn := rfl
@[simp] theorem State.wake_launches (s : State) (p : Gang → Bool) : (s.wake p).launches = s.launches := rfl
@[simp] theorem State.wake_crews (s : State) (p : Gang → Bool) : (s.wake p).crews = s.crews := rfl
@[simp] theorem State.wake_cores (s : State) (p : Gang → Bool) : (s.wake p).cores = s.cores := rfl
@[simp] theorem State.wake_ctxs (s : State) (p : Gang → Bool) : (s.wake p).ctxs = s.ctxs := rfl
@[simp] theorem State.wake_leases (s : State) (p : Gang → Bool) : (s.wake p).leases = s.leases := rfl
@[simp] theorem State.wake_recovered (s : State) (p : Gang → Bool) : (s.wake p).recovered = s.recovered := rfl
@[simp] theorem State.wake_recovering (s : State) (p : Gang → Bool) : (s.wake p).recovering = s.recovering := rfl
@[simp] theorem State.wake_outside (s : State) (p : Gang → Bool) : (s.wake p).outside = s.outside := rfl
@[simp] theorem State.wake_cur (s : State) (p : Gang → Bool) : (s.wake p).cur = s.cur := rfl
@[simp] theorem State.wake_agenda (s : State) (p : Gang → Bool) : (s.wake p).agenda = s.agenda := rfl
@[simp] theorem State.wake_picks (s : State) (p : Gang → Bool) : (s.wake p).picks = s.picks := rfl
@[simp] theorem State.wake_nextId (s : State) (p : Gang → Bool) : (s.wake p).nextId = s.nextId := rfl
@[simp] theorem State.wake_nextLaunch (s : State) (p : Gang → Bool) : (s.wake p).nextLaunch = s.nextLaunch := rfl
@[simp] theorem State.wake_nextCrew (s : State) (p : Gang → Bool) : (s.wake p).nextCrew = s.nextCrew := rfl
@[simp] theorem State.wake_nextAge (s : State) (p : Gang → Bool) : (s.wake p).nextAge = s.nextAge := rfl
@[simp] theorem State.wake_turn (s : State) (p : Gang → Bool) : (s.wake p).turn = s.turn := rfl

@[simp] theorem State.wakeAnew_mem (s : State) (p : Gang → Bool) : (s.wakeAnew p).mem = s.mem := rfl
@[simp] theorem State.wakeAnew_memPois (s : State) (p : Gang → Bool) : (s.wakeAnew p).memPois = s.memPois := rfl
@[simp] theorem State.wakeAnew_vers (s : State) (p : Gang → Bool) : (s.wakeAnew p).vers = s.vers := rfl
@[simp] theorem State.wakeAnew_ctxRegs (s : State) (p : Gang → Bool) : (s.wakeAnew p).ctxRegs = s.ctxRegs := rfl
@[simp] theorem State.wakeAnew_tlb (s : State) (p : Gang → Bool) : (s.wakeAnew p).tlb = s.tlb := rfl
@[simp] theorem State.wakeAnew_walking (s : State) (p : Gang → Bool) : (s.wakeAnew p).walking = s.walking := rfl
@[simp] theorem State.wakeAnew_grants (s : State) (p : Gang → Bool) : (s.wakeAnew p).grants = s.grants := rfl
@[simp] theorem State.wakeAnew_fqPend (s : State) (p : Gang → Bool) : (s.wakeAnew p).fqPend = s.fqPend := rfl
@[simp] theorem State.wakeAnew_held (s : State) (p : Gang → Bool) : (s.wakeAnew p).held = s.held := rfl
@[simp] theorem State.wakeAnew_qtbase (s : State) (p : Gang → Bool) : (s.wakeAnew p).qtbase = s.qtbase := rfl
@[simp] theorem State.wakeAnew_kickFrame (s : State) (p : Gang → Bool) : (s.wakeAnew p).kickFrame = s.kickFrame := rfl
@[simp] theorem State.wakeAnew_qFresh (s : State) (p : Gang → Bool) : (s.wakeAnew p).qFresh = s.qFresh := rfl
@[simp] theorem State.wakeAnew_pre0 (s : State) (p : Gang → Bool) : (s.wakeAnew p).pre0 = s.pre0 := rfl
@[simp] theorem State.wakeAnew_pre1 (s : State) (p : Gang → Bool) : (s.wakeAnew p).pre1 = s.pre1 := rfl
@[simp] theorem State.wakeAnew_preCrews (s : State) (p : Gang → Bool) : (s.wakeAnew p).preCrews = s.preCrews := rfl
@[simp] theorem State.wakeAnew_preSaved (s : State) (p : Gang → Bool) : (s.wakeAnew p).preSaved = s.preSaved := rfl
@[simp] theorem State.wakeAnew_acl (s : State) (p : Gang → Bool) : (s.wakeAnew p).acl = s.acl := rfl
@[simp] theorem State.wakeAnew_kicks (s : State) (p : Gang → Bool) : (s.wakeAnew p).kicks = s.kicks := rfl
@[simp] theorem State.wakeAnew_kicksHeld (s : State) (p : Gang → Bool) : (s.wakeAnew p).kicksHeld = s.kicksHeld := rfl
@[simp] theorem State.wakeAnew_pool0 (s : State) (p : Gang → Bool) : (s.wakeAnew p).pool0 = s.pool0 := rfl
@[simp] theorem State.wakeAnew_pool1 (s : State) (p : Gang → Bool) : (s.wakeAnew p).pool1 = s.pool1 := rfl
@[simp] theorem State.wakeAnew_lastGrant0 (s : State) (p : Gang → Bool) : (s.wakeAnew p).lastGrant0 = s.lastGrant0 := rfl
@[simp] theorem State.wakeAnew_lastGrant1 (s : State) (p : Gang → Bool) : (s.wakeAnew p).lastGrant1 = s.lastGrant1 := rfl
@[simp] theorem State.wakeAnew_ctr (s : State) (p : Gang → Bool) : (s.wakeAnew p).ctr = s.ctr := rfl
@[simp] theorem State.wakeAnew_ctrAt (s : State) (p : Gang → Bool) : (s.wakeAnew p).ctrAt = s.ctrAt := rfl
@[simp] theorem State.wakeAnew_readyBits (s : State) (p : Gang → Bool) : (s.wakeAnew p).readyBits = s.readyBits := rfl
@[simp] theorem State.wakeAnew_boot (s : State) (p : Gang → Bool) : (s.wakeAnew p).boot = s.boot := rfl
@[simp] theorem State.wakeAnew_image (s : State) (p : Gang → Bool) : (s.wakeAnew p).image = s.image := rfl
@[simp] theorem State.wakeAnew_watts (s : State) (p : Gang → Bool) : (s.wakeAnew p).watts = s.watts := rfl
@[simp] theorem State.wakeAnew_zeroAt (s : State) (p : Gang → Bool) : (s.wakeAnew p).zeroAt = s.zeroAt := rfl
@[simp] theorem State.wakeAnew_fatal (s : State) (p : Gang → Bool) : (s.wakeAnew p).fatal = s.fatal := rfl
@[simp] theorem State.wakeAnew_dumpBase (s : State) (p : Gang → Bool) : (s.wakeAnew p).dumpBase = s.dumpBase := rfl
@[simp] theorem State.wakeAnew_dumpLen (s : State) (p : Gang → Bool) : (s.wakeAnew p).dumpLen = s.dumpLen := rfl
@[simp] theorem State.wakeAnew_host (s : State) (p : Gang → Bool) : (s.wakeAnew p).host = s.host := rfl
@[simp] theorem State.wakeAnew_bar0 (s : State) (p : Gang → Bool) : (s.wakeAnew p).bar0 = s.bar0 := rfl
@[simp] theorem State.wakeAnew_bar1 (s : State) (p : Gang → Bool) : (s.wakeAnew p).bar1 = s.bar1 := rfl
@[simp] theorem State.wakeAnew_submitted (s : State) (p : Gang → Bool) : (s.wakeAnew p).submitted = s.submitted := rfl
@[simp] theorem State.wakeAnew_mbox (s : State) (p : Gang → Bool) : (s.wakeAnew p).mbox = s.mbox := rfl
@[simp] theorem State.wakeAnew_reports (s : State) (p : Gang → Bool) : (s.wakeAnew p).reports = s.reports := rfl
@[simp] theorem State.wakeAnew_ports (s : State) (p : Gang → Bool) : (s.wakeAnew p).ports = s.ports := rfl
@[simp] theorem State.wakeAnew_peerNo (s : State) (p : Gang → Bool) : (s.wakeAnew p).peerNo = s.peerNo := rfl
@[simp] theorem State.wakeAnew_far (s : State) (p : Gang → Bool) : (s.wakeAnew p).far = s.far := rfl
@[simp] theorem State.wakeAnew_farOut (s : State) (p : Gang → Bool) : (s.wakeAnew p).farOut = s.farOut := rfl
@[simp] theorem State.wakeAnew_farIn (s : State) (p : Gang → Bool) : (s.wakeAnew p).farIn = s.farIn := rfl
@[simp] theorem State.wakeAnew_launches (s : State) (p : Gang → Bool) : (s.wakeAnew p).launches = s.launches := rfl
@[simp] theorem State.wakeAnew_crews (s : State) (p : Gang → Bool) : (s.wakeAnew p).crews = s.crews := rfl
@[simp] theorem State.wakeAnew_cores (s : State) (p : Gang → Bool) : (s.wakeAnew p).cores = s.cores := rfl
@[simp] theorem State.wakeAnew_ctxs (s : State) (p : Gang → Bool) : (s.wakeAnew p).ctxs = s.ctxs := rfl
@[simp] theorem State.wakeAnew_leases (s : State) (p : Gang → Bool) : (s.wakeAnew p).leases = s.leases := rfl
@[simp] theorem State.wakeAnew_recovered (s : State) (p : Gang → Bool) : (s.wakeAnew p).recovered = s.recovered := rfl
@[simp] theorem State.wakeAnew_recovering (s : State) (p : Gang → Bool) : (s.wakeAnew p).recovering = s.recovering := rfl
@[simp] theorem State.wakeAnew_outside (s : State) (p : Gang → Bool) : (s.wakeAnew p).outside = s.outside := rfl
@[simp] theorem State.wakeAnew_cur (s : State) (p : Gang → Bool) : (s.wakeAnew p).cur = s.cur := rfl
@[simp] theorem State.wakeAnew_agenda (s : State) (p : Gang → Bool) : (s.wakeAnew p).agenda = s.agenda := rfl
@[simp] theorem State.wakeAnew_picks (s : State) (p : Gang → Bool) : (s.wakeAnew p).picks = s.picks := rfl
@[simp] theorem State.wakeAnew_nextId (s : State) (p : Gang → Bool) : (s.wakeAnew p).nextId = s.nextId := rfl
@[simp] theorem State.wakeAnew_nextLaunch (s : State) (p : Gang → Bool) : (s.wakeAnew p).nextLaunch = s.nextLaunch := rfl
@[simp] theorem State.wakeAnew_nextCrew (s : State) (p : Gang → Bool) : (s.wakeAnew p).nextCrew = s.nextCrew := rfl
@[simp] theorem State.wakeAnew_nextAge (s : State) (p : Gang → Bool) : (s.wakeAnew p).nextAge = s.nextAge := rfl
@[simp] theorem State.wakeAnew_turn (s : State) (p : Gang → Bool) : (s.wakeAnew p).turn = s.turn := rfl

@[simp] theorem State.tell_mem (s : State) (m : HostMsg) : (s.tell m).mem = s.mem := rfl
@[simp] theorem State.tell_memPois (s : State) (m : HostMsg) : (s.tell m).memPois = s.memPois := rfl
@[simp] theorem State.tell_vers (s : State) (m : HostMsg) : (s.tell m).vers = s.vers := rfl
@[simp] theorem State.tell_ctxRegs (s : State) (m : HostMsg) : (s.tell m).ctxRegs = s.ctxRegs := rfl
@[simp] theorem State.tell_tlb (s : State) (m : HostMsg) : (s.tell m).tlb = s.tlb := rfl
@[simp] theorem State.tell_walking (s : State) (m : HostMsg) : (s.tell m).walking = s.walking := rfl
@[simp] theorem State.tell_grants (s : State) (m : HostMsg) : (s.tell m).grants = s.grants := rfl
@[simp] theorem State.tell_fqPend (s : State) (m : HostMsg) : (s.tell m).fqPend = s.fqPend := rfl
@[simp] theorem State.tell_held (s : State) (m : HostMsg) : (s.tell m).held = s.held := rfl
@[simp] theorem State.tell_qtbase (s : State) (m : HostMsg) : (s.tell m).qtbase = s.qtbase := rfl
@[simp] theorem State.tell_kickFrame (s : State) (m : HostMsg) : (s.tell m).kickFrame = s.kickFrame := rfl
@[simp] theorem State.tell_qFresh (s : State) (m : HostMsg) : (s.tell m).qFresh = s.qFresh := rfl
@[simp] theorem State.tell_pre0 (s : State) (m : HostMsg) : (s.tell m).pre0 = s.pre0 := rfl
@[simp] theorem State.tell_pre1 (s : State) (m : HostMsg) : (s.tell m).pre1 = s.pre1 := rfl
@[simp] theorem State.tell_preCrews (s : State) (m : HostMsg) : (s.tell m).preCrews = s.preCrews := rfl
@[simp] theorem State.tell_preSaved (s : State) (m : HostMsg) : (s.tell m).preSaved = s.preSaved := rfl
@[simp] theorem State.tell_acl (s : State) (m : HostMsg) : (s.tell m).acl = s.acl := rfl
@[simp] theorem State.tell_kicks (s : State) (m : HostMsg) : (s.tell m).kicks = s.kicks := rfl
@[simp] theorem State.tell_kicksHeld (s : State) (m : HostMsg) : (s.tell m).kicksHeld = s.kicksHeld := rfl
@[simp] theorem State.tell_pool0 (s : State) (m : HostMsg) : (s.tell m).pool0 = s.pool0 := rfl
@[simp] theorem State.tell_pool1 (s : State) (m : HostMsg) : (s.tell m).pool1 = s.pool1 := rfl
@[simp] theorem State.tell_lastGrant0 (s : State) (m : HostMsg) : (s.tell m).lastGrant0 = s.lastGrant0 := rfl
@[simp] theorem State.tell_lastGrant1 (s : State) (m : HostMsg) : (s.tell m).lastGrant1 = s.lastGrant1 := rfl
@[simp] theorem State.tell_ctr (s : State) (m : HostMsg) : (s.tell m).ctr = s.ctr := rfl
@[simp] theorem State.tell_ctrAt (s : State) (m : HostMsg) : (s.tell m).ctrAt = s.ctrAt := rfl
@[simp] theorem State.tell_readyBits (s : State) (m : HostMsg) : (s.tell m).readyBits = s.readyBits := rfl
@[simp] theorem State.tell_boot (s : State) (m : HostMsg) : (s.tell m).boot = s.boot := rfl
@[simp] theorem State.tell_image (s : State) (m : HostMsg) : (s.tell m).image = s.image := rfl
@[simp] theorem State.tell_watts (s : State) (m : HostMsg) : (s.tell m).watts = s.watts := rfl
@[simp] theorem State.tell_zeroAt (s : State) (m : HostMsg) : (s.tell m).zeroAt = s.zeroAt := rfl
@[simp] theorem State.tell_fatal (s : State) (m : HostMsg) : (s.tell m).fatal = s.fatal := rfl
@[simp] theorem State.tell_dumpBase (s : State) (m : HostMsg) : (s.tell m).dumpBase = s.dumpBase := rfl
@[simp] theorem State.tell_dumpLen (s : State) (m : HostMsg) : (s.tell m).dumpLen = s.dumpLen := rfl
@[simp] theorem State.tell_bar0 (s : State) (m : HostMsg) : (s.tell m).bar0 = s.bar0 := rfl
@[simp] theorem State.tell_bar1 (s : State) (m : HostMsg) : (s.tell m).bar1 = s.bar1 := rfl
@[simp] theorem State.tell_submitted (s : State) (m : HostMsg) : (s.tell m).submitted = s.submitted := rfl
@[simp] theorem State.tell_mbox (s : State) (m : HostMsg) : (s.tell m).mbox = s.mbox := rfl
@[simp] theorem State.tell_reports (s : State) (m : HostMsg) : (s.tell m).reports = s.reports := rfl
@[simp] theorem State.tell_ports (s : State) (m : HostMsg) : (s.tell m).ports = s.ports := rfl
@[simp] theorem State.tell_peerNo (s : State) (m : HostMsg) : (s.tell m).peerNo = s.peerNo := rfl
@[simp] theorem State.tell_far (s : State) (m : HostMsg) : (s.tell m).far = s.far := rfl
@[simp] theorem State.tell_farOut (s : State) (m : HostMsg) : (s.tell m).farOut = s.farOut := rfl
@[simp] theorem State.tell_farIn (s : State) (m : HostMsg) : (s.tell m).farIn = s.farIn := rfl
@[simp] theorem State.tell_launches (s : State) (m : HostMsg) : (s.tell m).launches = s.launches := rfl
@[simp] theorem State.tell_crews (s : State) (m : HostMsg) : (s.tell m).crews = s.crews := rfl
@[simp] theorem State.tell_gangs (s : State) (m : HostMsg) : (s.tell m).gangs = s.gangs := rfl
@[simp] theorem State.tell_cores (s : State) (m : HostMsg) : (s.tell m).cores = s.cores := rfl
@[simp] theorem State.tell_ctxs (s : State) (m : HostMsg) : (s.tell m).ctxs = s.ctxs := rfl
@[simp] theorem State.tell_leases (s : State) (m : HostMsg) : (s.tell m).leases = s.leases := rfl
@[simp] theorem State.tell_recovered (s : State) (m : HostMsg) : (s.tell m).recovered = s.recovered := rfl
@[simp] theorem State.tell_recovering (s : State) (m : HostMsg) : (s.tell m).recovering = s.recovering := rfl
@[simp] theorem State.tell_outside (s : State) (m : HostMsg) : (s.tell m).outside = s.outside := rfl
@[simp] theorem State.tell_cur (s : State) (m : HostMsg) : (s.tell m).cur = s.cur := rfl
@[simp] theorem State.tell_agenda (s : State) (m : HostMsg) : (s.tell m).agenda = s.agenda := rfl
@[simp] theorem State.tell_picks (s : State) (m : HostMsg) : (s.tell m).picks = s.picks := rfl
@[simp] theorem State.tell_nextId (s : State) (m : HostMsg) : (s.tell m).nextId = s.nextId := rfl
@[simp] theorem State.tell_nextLaunch (s : State) (m : HostMsg) : (s.tell m).nextLaunch = s.nextLaunch := rfl
@[simp] theorem State.tell_nextCrew (s : State) (m : HostMsg) : (s.tell m).nextCrew = s.nextCrew := rfl
@[simp] theorem State.tell_nextAge (s : State) (m : HostMsg) : (s.tell m).nextAge = s.nextAge := rfl
@[simp] theorem State.tell_turn (s : State) (m : HostMsg) : (s.tell m).turn = s.turn := rfl

@[simp] theorem State.fillTlb_mem (s : State) (c x a : Nat) (l : Leaf) (b : Bool) : (s.fillTlb c x a l b).mem = s.mem := rfl
@[simp] theorem State.fillTlb_memPois (s : State) (c x a : Nat) (l : Leaf) (b : Bool) : (s.fillTlb c x a l b).memPois = s.memPois := rfl
@[simp] theorem State.fillTlb_vers (s : State) (c x a : Nat) (l : Leaf) (b : Bool) : (s.fillTlb c x a l b).vers = s.vers := rfl
@[simp] theorem State.fillTlb_ctxRegs (s : State) (c x a : Nat) (l : Leaf) (b : Bool) : (s.fillTlb c x a l b).ctxRegs = s.ctxRegs := rfl
@[simp] theorem State.fillTlb_walking (s : State) (c x a : Nat) (l : Leaf) (b : Bool) : (s.fillTlb c x a l b).walking = s.walking := rfl
@[simp] theorem State.fillTlb_grants (s : State) (c x a : Nat) (l : Leaf) (b : Bool) : (s.fillTlb c x a l b).grants = s.grants := rfl
@[simp] theorem State.fillTlb_fqPend (s : State) (c x a : Nat) (l : Leaf) (b : Bool) : (s.fillTlb c x a l b).fqPend = s.fqPend := rfl
@[simp] theorem State.fillTlb_held (s : State) (c x a : Nat) (l : Leaf) (b : Bool) : (s.fillTlb c x a l b).held = s.held := rfl
@[simp] theorem State.fillTlb_qtbase (s : State) (c x a : Nat) (l : Leaf) (b : Bool) : (s.fillTlb c x a l b).qtbase = s.qtbase := rfl
@[simp] theorem State.fillTlb_kickFrame (s : State) (c x a : Nat) (l : Leaf) (b : Bool) : (s.fillTlb c x a l b).kickFrame = s.kickFrame := rfl
@[simp] theorem State.fillTlb_qFresh (s : State) (c x a : Nat) (l : Leaf) (b : Bool) : (s.fillTlb c x a l b).qFresh = s.qFresh := rfl
@[simp] theorem State.fillTlb_pre0 (s : State) (c x a : Nat) (l : Leaf) (b : Bool) : (s.fillTlb c x a l b).pre0 = s.pre0 := rfl
@[simp] theorem State.fillTlb_pre1 (s : State) (c x a : Nat) (l : Leaf) (b : Bool) : (s.fillTlb c x a l b).pre1 = s.pre1 := rfl
@[simp] theorem State.fillTlb_preCrews (s : State) (c x a : Nat) (l : Leaf) (b : Bool) : (s.fillTlb c x a l b).preCrews = s.preCrews := rfl
@[simp] theorem State.fillTlb_preSaved (s : State) (c x a : Nat) (l : Leaf) (b : Bool) : (s.fillTlb c x a l b).preSaved = s.preSaved := rfl
@[simp] theorem State.fillTlb_acl (s : State) (c x a : Nat) (l : Leaf) (b : Bool) : (s.fillTlb c x a l b).acl = s.acl := rfl
@[simp] theorem State.fillTlb_kicks (s : State) (c x a : Nat) (l : Leaf) (b : Bool) : (s.fillTlb c x a l b).kicks = s.kicks := rfl
@[simp] theorem State.fillTlb_kicksHeld (s : State) (c x a : Nat) (l : Leaf) (b : Bool) : (s.fillTlb c x a l b).kicksHeld = s.kicksHeld := rfl
@[simp] theorem State.fillTlb_pool0 (s : State) (c x a : Nat) (l : Leaf) (b : Bool) : (s.fillTlb c x a l b).pool0 = s.pool0 := rfl
@[simp] theorem State.fillTlb_pool1 (s : State) (c x a : Nat) (l : Leaf) (b : Bool) : (s.fillTlb c x a l b).pool1 = s.pool1 := rfl
@[simp] theorem State.fillTlb_lastGrant0 (s : State) (c x a : Nat) (l : Leaf) (b : Bool) : (s.fillTlb c x a l b).lastGrant0 = s.lastGrant0 := rfl
@[simp] theorem State.fillTlb_lastGrant1 (s : State) (c x a : Nat) (l : Leaf) (b : Bool) : (s.fillTlb c x a l b).lastGrant1 = s.lastGrant1 := rfl
@[simp] theorem State.fillTlb_ctr (s : State) (c x a : Nat) (l : Leaf) (b : Bool) : (s.fillTlb c x a l b).ctr = s.ctr := rfl
@[simp] theorem State.fillTlb_ctrAt (s : State) (c x a : Nat) (l : Leaf) (b : Bool) : (s.fillTlb c x a l b).ctrAt = s.ctrAt := rfl
@[simp] theorem State.fillTlb_readyBits (s : State) (c x a : Nat) (l : Leaf) (b : Bool) : (s.fillTlb c x a l b).readyBits = s.readyBits := rfl
@[simp] theorem State.fillTlb_boot (s : State) (c x a : Nat) (l : Leaf) (b : Bool) : (s.fillTlb c x a l b).boot = s.boot := rfl
@[simp] theorem State.fillTlb_image (s : State) (c x a : Nat) (l : Leaf) (b : Bool) : (s.fillTlb c x a l b).image = s.image := rfl
@[simp] theorem State.fillTlb_watts (s : State) (c x a : Nat) (l : Leaf) (b : Bool) : (s.fillTlb c x a l b).watts = s.watts := rfl
@[simp] theorem State.fillTlb_zeroAt (s : State) (c x a : Nat) (l : Leaf) (b : Bool) : (s.fillTlb c x a l b).zeroAt = s.zeroAt := rfl
@[simp] theorem State.fillTlb_fatal (s : State) (c x a : Nat) (l : Leaf) (b : Bool) : (s.fillTlb c x a l b).fatal = s.fatal := rfl
@[simp] theorem State.fillTlb_dumpBase (s : State) (c x a : Nat) (l : Leaf) (b : Bool) : (s.fillTlb c x a l b).dumpBase = s.dumpBase := rfl
@[simp] theorem State.fillTlb_dumpLen (s : State) (c x a : Nat) (l : Leaf) (b : Bool) : (s.fillTlb c x a l b).dumpLen = s.dumpLen := rfl
@[simp] theorem State.fillTlb_host (s : State) (c x a : Nat) (l : Leaf) (b : Bool) : (s.fillTlb c x a l b).host = s.host := rfl
@[simp] theorem State.fillTlb_bar0 (s : State) (c x a : Nat) (l : Leaf) (b : Bool) : (s.fillTlb c x a l b).bar0 = s.bar0 := rfl
@[simp] theorem State.fillTlb_bar1 (s : State) (c x a : Nat) (l : Leaf) (b : Bool) : (s.fillTlb c x a l b).bar1 = s.bar1 := rfl
@[simp] theorem State.fillTlb_submitted (s : State) (c x a : Nat) (l : Leaf) (b : Bool) : (s.fillTlb c x a l b).submitted = s.submitted := rfl
@[simp] theorem State.fillTlb_mbox (s : State) (c x a : Nat) (l : Leaf) (b : Bool) : (s.fillTlb c x a l b).mbox = s.mbox := rfl
@[simp] theorem State.fillTlb_reports (s : State) (c x a : Nat) (l : Leaf) (b : Bool) : (s.fillTlb c x a l b).reports = s.reports := rfl
@[simp] theorem State.fillTlb_ports (s : State) (c x a : Nat) (l : Leaf) (b : Bool) : (s.fillTlb c x a l b).ports = s.ports := rfl
@[simp] theorem State.fillTlb_peerNo (s : State) (c x a : Nat) (l : Leaf) (b : Bool) : (s.fillTlb c x a l b).peerNo = s.peerNo := rfl
@[simp] theorem State.fillTlb_far (s : State) (c x a : Nat) (l : Leaf) (b : Bool) : (s.fillTlb c x a l b).far = s.far := rfl
@[simp] theorem State.fillTlb_farOut (s : State) (c x a : Nat) (l : Leaf) (b : Bool) : (s.fillTlb c x a l b).farOut = s.farOut := rfl
@[simp] theorem State.fillTlb_farIn (s : State) (c x a : Nat) (l : Leaf) (b : Bool) : (s.fillTlb c x a l b).farIn = s.farIn := rfl
@[simp] theorem State.fillTlb_launches (s : State) (c x a : Nat) (l : Leaf) (b : Bool) : (s.fillTlb c x a l b).launches = s.launches := rfl
@[simp] theorem State.fillTlb_crews (s : State) (c x a : Nat) (l : Leaf) (b : Bool) : (s.fillTlb c x a l b).crews = s.crews := rfl
@[simp] theorem State.fillTlb_gangs (s : State) (c x a : Nat) (l : Leaf) (b : Bool) : (s.fillTlb c x a l b).gangs = s.gangs := rfl
@[simp] theorem State.fillTlb_cores (s : State) (c x a : Nat) (l : Leaf) (b : Bool) : (s.fillTlb c x a l b).cores = s.cores := rfl
@[simp] theorem State.fillTlb_ctxs (s : State) (c x a : Nat) (l : Leaf) (b : Bool) : (s.fillTlb c x a l b).ctxs = s.ctxs := rfl
@[simp] theorem State.fillTlb_leases (s : State) (c x a : Nat) (l : Leaf) (b : Bool) : (s.fillTlb c x a l b).leases = s.leases := rfl
@[simp] theorem State.fillTlb_recovered (s : State) (c x a : Nat) (l : Leaf) (b : Bool) : (s.fillTlb c x a l b).recovered = s.recovered := rfl
@[simp] theorem State.fillTlb_recovering (s : State) (c x a : Nat) (l : Leaf) (b : Bool) : (s.fillTlb c x a l b).recovering = s.recovering := rfl
@[simp] theorem State.fillTlb_outside (s : State) (c x a : Nat) (l : Leaf) (b : Bool) : (s.fillTlb c x a l b).outside = s.outside := rfl
@[simp] theorem State.fillTlb_cur (s : State) (c x a : Nat) (l : Leaf) (b : Bool) : (s.fillTlb c x a l b).cur = s.cur := rfl
@[simp] theorem State.fillTlb_agenda (s : State) (c x a : Nat) (l : Leaf) (b : Bool) : (s.fillTlb c x a l b).agenda = s.agenda := rfl
@[simp] theorem State.fillTlb_picks (s : State) (c x a : Nat) (l : Leaf) (b : Bool) : (s.fillTlb c x a l b).picks = s.picks := rfl
@[simp] theorem State.fillTlb_nextId (s : State) (c x a : Nat) (l : Leaf) (b : Bool) : (s.fillTlb c x a l b).nextId = s.nextId := rfl
@[simp] theorem State.fillTlb_nextLaunch (s : State) (c x a : Nat) (l : Leaf) (b : Bool) : (s.fillTlb c x a l b).nextLaunch = s.nextLaunch := rfl
@[simp] theorem State.fillTlb_nextCrew (s : State) (c x a : Nat) (l : Leaf) (b : Bool) : (s.fillTlb c x a l b).nextCrew = s.nextCrew := rfl
@[simp] theorem State.fillTlb_nextAge (s : State) (c x a : Nat) (l : Leaf) (b : Bool) : (s.fillTlb c x a l b).nextAge = s.nextAge := rfl
@[simp] theorem State.fillTlb_turn (s : State) (c x a : Nat) (l : Leaf) (b : Bool) : (s.fillTlb c x a l b).turn = s.turn := rfl

@[simp] theorem State.countAt_ctr (s : State) (p : CtrPlace) (c : Ctr) (n : Nat) : (s.countAt p c n).ctr = (s.count c n).ctr := rfl

end Sys2Proof.Machine
end

