-- ==== Sys2Proof/Laws/Store.lean ====
section
/-! SUPPORT. The laws of the sparse containers: a read after a write gives what was written, a write leaves every other key alone, and every
operation keeps the canonical form. -/
namespace Sys2Proof

theorem Store.get_erase_self {w : Nat} (m : Store w) (a : Nat) : Store.get (Store.erase m a) a = 0#w := by
  induction m with
  | nil => rfl
  | cons x r ih =>
    unfold Store.erase
    split
    · exact ih
    · simp [Store.get, *]

theorem Store.get_erase_of_ne {w : Nat} (m : Store w) {a b : Nat} (h : b ≠ a) : Store.get (Store.erase m a) b = Store.get m b := by
  induction m with
  | nil => rfl
  | cons x r ih =>
    unfold Store.erase
    split
    · subst_vars
      rw [ih]
      simp [Store.get, h]
    · simp [Store.get, ih]

theorem Store.get_insert_self {w : Nat} (m : Store w) (a : Nat) (x : BitVec w) : Store.get (Store.insert m a x) a = x := by
  induction m with
  | nil => simp [Store.insert, Store.get]
  | cons y r ih =>
    unfold Store.insert
    split
    · simp [Store.get]
    · split
      · simp [Store.get]
      · simp [Store.get, *]

theorem Store.get_insert_of_ne {w : Nat} (m : Store w) {a b : Nat} (x : BitVec w) (h : b ≠ a) :
    Store.get (Store.insert m a x) b = Store.get m b := by
  induction m with
  | nil => simp [Store.insert, Store.get, h]
  | cons y r ih =>
    unfold Store.insert
    split
    · simp [Store.get, h]
    · split
      · subst_vars
        simp [Store.get, h]
      · simp [Store.get, ih]

/-- A read after a write to the same key. -/
@[simp] theorem Store.get_set_self {w : Nat} (m : Store w) (a : Nat) (x : BitVec w) : Store.get (Store.set m a x) a = x := by
  unfold Store.set
  split
  · subst_vars
    exact Store.get_erase_self m a
  · exact Store.get_insert_self m a x

/-- A write leaves every other key alone. -/
theorem Store.get_set_of_ne {w : Nat} (m : Store w) {a b : Nat} (x : BitVec w) (h : b ≠ a) : Store.get (Store.set m a x) b = Store.get m b := by
  unfold Store.set
  split
  · exact Store.get_erase_of_ne m h
  · exact Store.get_insert_of_ne m x h

theorem Store.wfFrom_mono {w : Nat} {m : Store w} {lo hi : Nat} (h : lo ≤ hi) (hm : Store.wfFrom hi m = true) : Store.wfFrom lo m = true := by
  cases m with
  | nil => rfl
  | cons x r =>
    simp only [Store.wfFrom, Bool.and_eq_true, decide_eq_true_eq] at hm ⊢
    exact ⟨⟨by omega, hm.1.2⟩, hm.2⟩

theorem Store.wfFrom_erase {w : Nat} {m : Store w} {lo : Nat} (a : Nat) (hm : Store.wfFrom lo m = true) :
    Store.wfFrom lo (Store.erase m a) = true := by
  induction m generalizing lo with
  | nil => rfl
  | cons x r ih =>
    simp only [Store.wfFrom, Bool.and_eq_true, decide_eq_true_eq] at hm
    unfold Store.erase
    split
    · exact Store.wfFrom_mono (by omega) (ih hm.2)
    · simp only [Store.wfFrom, Bool.and_eq_true, decide_eq_true_eq]
      exact ⟨hm.1, ih hm.2⟩

theorem Store.wfFrom_insert {w : Nat} {m : Store w} {lo a : Nat} {x : BitVec w} (h : lo ≤ a) (hx : x ≠ 0#w) (hm : Store.wfFrom lo m = true) :
    Store.wfFrom lo (Store.insert m a x) = true := by
  induction m generalizing lo with
  | nil => simp [Store.insert, Store.wfFrom, h, hx]
  | cons y r ih =>
    simp only [Store.wfFrom, Bool.and_eq_true, decide_eq_true_eq] at hm
    unfold Store.insert
    split
    · rename_i hlt
      simp only [Store.wfFrom, Bool.and_eq_true, decide_eq_true_eq]
      exact ⟨⟨h, hx⟩, ⟨hlt, hm.1.2⟩, hm.2⟩
    · split
      · subst_vars
        simp only [Store.wfFrom, Bool.and_eq_true, decide_eq_true_eq]
        exact ⟨⟨h, hx⟩, hm.2⟩
      · simp only [Store.wfFrom, Bool.and_eq_true, decide_eq_true_eq]
        exact ⟨hm.1, ih (by omega) hm.2⟩

/-- A write keeps the canonical form. -/
theorem Store.wf_set {w : Nat} {m : Store w} (a : Nat) (x : BitVec w) (h : Store.wf m = true) : Store.wf (Store.set m a x) = true := by
  unfold Store.set
  split
  · exact Store.wfFrom_erase a h
  · exact Store.wfFrom_insert (by omega) (by assumption) h

@[simp] theorem Tab.get?_set_self {α : Type} (m : Tab α) (a : Nat) (x : α) : Tab.get? (Tab.set m a x) a = some x := by
  induction m with
  | nil => simp [Tab.set, Tab.get?]
  | cons y r ih =>
    unfold Tab.set
    split
    · simp [Tab.get?]
    · split
      · simp [Tab.get?]
      · simp [Tab.get?, *]

theorem Tab.get?_set_of_ne {α : Type} (m : Tab α) {a b : Nat} (x : α) (h : b ≠ a) : Tab.get? (Tab.set m a x) b = Tab.get? m b := by
  induction m with
  | nil => simp [Tab.set, Tab.get?, h]
  | cons y r ih =>
    unfold Tab.set
    split
    · simp [Tab.get?, h]
    · split
      · subst_vars
        simp [Tab.get?, h]
      · simp [Tab.get?, ih]

theorem Tab.get?_erase_self {α : Type} (m : Tab α) (a : Nat) : Tab.get? (Tab.erase m a) a = none := by
  induction m with
  | nil => rfl
  | cons x r ih =>
    unfold Tab.erase
    split
    · exact ih
    · simp [Tab.get?, *]

theorem Tab.get?_erase_of_ne {α : Type} (m : Tab α) {a b : Nat} (h : b ≠ a) : Tab.get? (Tab.erase m a) b = Tab.get? m b := by
  induction m with
  | nil => rfl
  | cons x r ih =>
    unfold Tab.erase
    split
    · subst_vars
      rw [ih]
      simp [Tab.get?, h]
    · simp [Tab.get?, ih]

end Sys2Proof
end

