-- ==== Sys2Proof/Laws/Memory.lean ====
section
/-! SUPPORT. Memory, said once: what a write of physical bytes leaves, that it reads back and keeps the canonical form; what a record written to a
ring leaves; what a fault record leaves. -/
namespace Sys2Proof.Machine

@[simp] theorem State.physWrite_vers (s : State) (a : Nat) (l : List PByte) : (s.physWrite a l).vers = s.vers := by unfold State.physWrite; split <;> rfl
@[simp] theorem State.physWrite_ctxRegs (s : State) (a : Nat) (l : List PByte) : (s.physWrite a l).ctxRegs = s.ctxRegs := by unfold State.physWrite; split <;> rfl
@[simp] theorem State.physWrite_tlb (s : State) (a : Nat) (l : List PByte) : (s.physWrite a l).tlb = s.tlb := by unfold State.physWrite; split <;> rfl
@[simp] theorem State.physWrite_walking (s : State) (a : Nat) (l : List PByte) : (s.physWrite a l).walking = s.walking := by unfold State.physWrite; split <;> rfl
@[simp] theorem State.physWrite_grants (s : State) (a : Nat) (l : List PByte) : (s.physWrite a l).grants = s.grants := by unfold State.physWrite; split <;> rfl
@[simp] theorem State.physWrite_fqPend (s : State) (a : Nat) (l : List PByte) : (s.physWrite a l).fqPend = s.fqPend := by unfold State.physWrite; split <;> rfl
@[simp] theorem State.physWrite_held (s : State) (a : Nat) (l : List PByte) : (s.physWrite a l).held = s.held := by unfold State.physWrite; split <;> rfl
@[simp] theorem State.physWrite_qtbase (s : State) (a : Nat) (l : List PByte) : (s.physWrite a l).qtbase = s.qtbase := by unfold State.physWrite; split <;> rfl
@[simp] theorem State.physWrite_kickFrame (s : State) (a : Nat) (l : List PByte) : (s.physWrite a l).kickFrame = s.kickFrame := by unfold State.physWrite; split <;> rfl
@[simp] theorem State.physWrite_qFresh (s : State) (a : Nat) (l : List PByte) : (s.physWrite a l).qFresh = s.qFresh := by unfold State.physWrite; split <;> rfl
@[simp] theorem State.physWrite_pre0 (s : State) (a : Nat) (l : List PByte) : (s.physWrite a l).pre0 = s.pre0 := by unfold State.physWrite; split <;> rfl
@[simp] theorem State.physWrite_pre1 (s : State) (a : Nat) (l : List PByte) : (s.physWrite a l).pre1 = s.pre1 := by unfold State.physWrite; split <;> rfl
@[simp] theorem State.physWrite_preCrews (s : State) (a : Nat) (l : List PByte) : (s.physWrite a l).preCrews = s.preCrews := by unfold State.physWrite; split <;> rfl
@[simp] theorem State.physWrite_preSaved (s : State) (a : Nat) (l : List PByte) : (s.physWrite a l).preSaved = s.preSaved := by unfold State.physWrite; split <;> rfl
@[simp] theorem State.physWrite_acl (s : State) (a : Nat) (l : List PByte) : (s.physWrite a l).acl = s.acl := by unfold State.physWrite; split <;> rfl
@[simp] theorem State.physWrite_kicks (s : State) (a : Nat) (l : List PByte) : (s.physWrite a l).kicks = s.kicks := by unfold State.physWrite; split <;> rfl
@[simp] theorem State.physWrite_kicksHeld (s : State) (a : Nat) (l : List PByte) : (s.physWrite a l).kicksHeld = s.kicksHeld := by unfold State.physWrite; split <;> rfl
@[simp] theorem State.physWrite_pool0 (s : State) (a : Nat) (l : List PByte) : (s.physWrite a l).pool0 = s.pool0 := by unfold State.physWrite; split <;> rfl
@[simp] theorem State.physWrite_pool1 (s : State) (a : Nat) (l : List PByte) : (s.physWrite a l).pool1 = s.pool1 := by unfold State.physWrite; split <;> rfl
@[simp] theorem State.physWrite_lastGrant0 (s : State) (a : Nat) (l : List PByte) : (s.physWrite a l).lastGrant0 = s.lastGrant0 := by unfold State.physWrite; split <;> rfl
@[simp] theorem State.physWrite_lastGrant1 (s : State) (a : Nat) (l : List PByte) : (s.physWrite a l).lastGrant1 = s.lastGrant1 := by unfold State.physWrite; split <;> rfl
@[simp] theorem State.physWrite_ctr (s : State) (a : Nat) (l : List PByte) : (s.physWrite a l).ctr = s.ctr := by unfold State.physWrite; split <;> rfl
@[simp] theorem State.physWrite_readyBits (s : State) (a : Nat) (l : List PByte) : (s.physWrite a l).readyBits = s.readyBits := by unfold State.physWrite; split <;> rfl
@[simp] theorem State.physWrite_boot (s : State) (a : Nat) (l : List PByte) : (s.physWrite a l).boot = s.boot := by unfold State.physWrite; split <;> rfl
@[simp] theorem State.physWrite_image (s : State) (a : Nat) (l : List PByte) : (s.physWrite a l).image = s.image := by unfold State.physWrite; split <;> rfl
@[simp] theorem State.physWrite_watts (s : State) (a : Nat) (l : List PByte) : (s.physWrite a l).watts = s.watts := by unfold State.physWrite; split <;> rfl
@[simp] theorem State.physWrite_zeroAt (s : State) (a : Nat) (l : List PByte) : (s.physWrite a l).zeroAt = s.zeroAt := by unfold State.physWrite; split <;> rfl
@[simp] theorem State.physWrite_fatal (s : State) (a : Nat) (l : List PByte) : (s.physWrite a l).fatal = s.fatal := by unfold State.physWrite; split <;> rfl
@[simp] theorem State.physWrite_dumpBase (s : State) (a : Nat) (l : List PByte) : (s.physWrite a l).dumpBase = s.dumpBase := by unfold State.physWrite; split <;> rfl
@[simp] theorem State.physWrite_dumpLen (s : State) (a : Nat) (l : List PByte) : (s.physWrite a l).dumpLen = s.dumpLen := by unfold State.physWrite; split <;> rfl
@[simp] theorem State.physWrite_host (s : State) (a : Nat) (l : List PByte) : (s.physWrite a l).host = s.host := by unfold State.physWrite; split <;> rfl
@[simp] theorem State.physWrite_bar0 (s : State) (a : Nat) (l : List PByte) : (s.physWrite a l).bar0 = s.bar0 := by unfold State.physWrite; split <;> rfl
@[simp] theorem State.physWrite_bar1 (s : State) (a : Nat) (l : List PByte) : (s.physWrite a l).bar1 = s.bar1 := by unfold State.physWrite; split <;> rfl
@[simp] theorem State.physWrite_mbox (s : State) (a : Nat) (l : List PByte) : (s.physWrite a l).mbox = s.mbox := by unfold State.physWrite; split <;> rfl
@[simp] theorem State.physWrite_reports (s : State) (a : Nat) (l : List PByte) : (s.physWrite a l).reports = s.reports := by unfold State.physWrite; split <;> rfl
@[simp] theorem State.physWrite_ports (s : State) (a : Nat) (l : List PByte) : (s.physWrite a l).ports = s.ports := by unfold State.physWrite; split <;> rfl
@[simp] theorem State.physWrite_peerNo (s : State) (a : Nat) (l : List PByte) : (s.physWrite a l).peerNo = s.peerNo := by unfold State.physWrite; split <;> rfl
@[simp] theorem State.physWrite_far (s : State) (a : Nat) (l : List PByte) : (s.physWrite a l).far = s.far := by unfold State.physWrite; split <;> rfl
@[simp] theorem State.physWrite_farOut (s : State) (a : Nat) (l : List PByte) : (s.physWrite a l).farOut = s.farOut := by unfold State.physWrite; split <;> rfl
@[simp] theorem State.physWrite_farIn (s : State) (a : Nat) (l : List PByte) : (s.physWrite a l).farIn = s.farIn := by unfold State.physWrite; split <;> rfl
@[simp] theorem State.physWrite_launches (s : State) (a : Nat) (l : List PByte) : (s.physWrite a l).launches = s.launches := by unfold State.physWrite; split <;> rfl
@[simp] theorem State.physWrite_crews (s : State) (a : Nat) (l : List PByte) : (s.physWrite a l).crews = s.crews := by unfold State.physWrite; split <;> rfl
@[simp] theorem State.physWrite_gangs (s : State) (a : Nat) (l : List PByte) : (s.physWrite a l).gangs = s.gangs := by unfold State.physWrite; split <;> rfl
@[simp] theorem State.physWrite_cores (s : State) (a : Nat) (l : List PByte) : (s.physWrite a l).cores = s.cores := by unfold State.physWrite; split <;> rfl
@[simp] theorem State.physWrite_ctxs (s : State) (a : Nat) (l : List PByte) : (s.physWrite a l).ctxs = s.ctxs := by unfold State.physWrite; split <;> rfl
@[simp] theorem State.physWrite_leases (s : State) (a : Nat) (l : List PByte) : (s.physWrite a l).leases = s.leases := by unfold State.physWrite; split <;> rfl
@[simp] theorem State.physWrite_recovered (s : State) (a : Nat) (l : List PByte) : (s.physWrite a l).recovered = s.recovered := by unfold State.physWrite; split <;> rfl
@[simp] theorem State.physWrite_recovering (s : State) (a : Nat) (l : List PByte) : (s.physWrite a l).recovering = s.recovering := by unfold State.physWrite; split <;> rfl
@[simp] theorem State.physWrite_outside (s : State) (a : Nat) (l : List PByte) : (s.physWrite a l).outside = s.outside := by unfold State.physWrite; split <;> rfl
@[simp] theorem State.physWrite_cur (s : State) (a : Nat) (l : List PByte) : (s.physWrite a l).cur = s.cur := by unfold State.physWrite; split <;> rfl
@[simp] theorem State.physWrite_agenda (s : State) (a : Nat) (l : List PByte) : (s.physWrite a l).agenda = s.agenda := by unfold State.physWrite; split <;> rfl
@[simp] theorem State.physWrite_picks (s : State) (a : Nat) (l : List PByte) : (s.physWrite a l).picks = s.picks := by unfold State.physWrite; split <;> rfl
@[simp] theorem State.physWrite_nextId (s : State) (a : Nat) (l : List PByte) : (s.physWrite a l).nextId = s.nextId := by unfold State.physWrite; split <;> rfl
@[simp] theorem State.physWrite_nextLaunch (s : State) (a : Nat) (l : List PByte) : (s.physWrite a l).nextLaunch = s.nextLaunch := by unfold State.physWrite; split <;> rfl
@[simp] theorem State.physWrite_nextCrew (s : State) (a : Nat) (l : List PByte) : (s.physWrite a l).nextCrew = s.nextCrew := by unfold State.physWrite; split <;> rfl
@[simp] theorem State.physWrite_nextAge (s : State) (a : Nat) (l : List PByte) : (s.physWrite a l).nextAge = s.nextAge := by unfold State.physWrite; split <;> rfl
@[simp] theorem State.physWrite_turn (s : State) (a : Nat) (l : List PByte) : (s.physWrite a l).turn = s.turn := by unfold State.physWrite; split <;> rfl

@[simp] theorem State.engineWrite_vers (s : State) (a : Nat) (l : List Byte) : (s.engineWrite a l).vers = s.vers := by unfold State.engineWrite; split <;> simp
@[simp] theorem State.engineWrite_ctxRegs (s : State) (a : Nat) (l : List Byte) : (s.engineWrite a l).ctxRegs = s.ctxRegs := by unfold State.engineWrite; split <;> simp
@[simp] theorem State.engineWrite_tlb (s : State) (a : Nat) (l : List Byte) : (s.engineWrite a l).tlb = s.tlb := by unfold State.engineWrite; split <;> simp
@[simp] theorem State.engineWrite_walking (s : State) (a : Nat) (l : List Byte) : (s.engineWrite a l).walking = s.walking := by unfold State.engineWrite; split <;> simp
@[simp] theorem State.engineWrite_grants (s : State) (a : Nat) (l : List Byte) : (s.engineWrite a l).grants = s.grants := by unfold State.engineWrite; split <;> simp
@[simp] theorem State.engineWrite_fqPend (s : State) (a : Nat) (l : List Byte) : (s.engineWrite a l).fqPend = s.fqPend := by unfold State.engineWrite; split <;> simp
@[simp] theorem State.engineWrite_qtbase (s : State) (a : Nat) (l : List Byte) : (s.engineWrite a l).qtbase = s.qtbase := by unfold State.engineWrite; split <;> simp
@[simp] theorem State.engineWrite_kickFrame (s : State) (a : Nat) (l : List Byte) : (s.engineWrite a l).kickFrame = s.kickFrame := by unfold State.engineWrite; split <;> simp
@[simp] theorem State.engineWrite_qFresh (s : State) (a : Nat) (l : List Byte) : (s.engineWrite a l).qFresh = s.qFresh := by unfold State.engineWrite; split <;> simp
@[simp] theorem State.engineWrite_pre0 (s : State) (a : Nat) (l : List Byte) : (s.engineWrite a l).pre0 = s.pre0 := by unfold State.engineWrite; split <;> simp
@[simp] theorem State.engineWrite_pre1 (s : State) (a : Nat) (l : List Byte) : (s.engineWrite a l).pre1 = s.pre1 := by unfold State.engineWrite; split <;> simp
@[simp] theorem State.engineWrite_preCrews (s : State) (a : Nat) (l : List Byte) : (s.engineWrite a l).preCrews = s.preCrews := by unfold State.engineWrite; split <;> simp
@[simp] theorem State.engineWrite_preSaved (s : State) (a : Nat) (l : List Byte) : (s.engineWrite a l).preSaved = s.preSaved := by unfold State.engineWrite; split <;> simp
@[simp] theorem State.engineWrite_acl (s : State) (a : Nat) (l : List Byte) : (s.engineWrite a l).acl = s.acl := by unfold State.engineWrite; split <;> simp
@[simp] theorem State.engineWrite_kicks (s : State) (a : Nat) (l : List Byte) : (s.engineWrite a l).kicks = s.kicks := by unfold State.engineWrite; split <;> simp
@[simp] theorem State.engineWrite_kicksHeld (s : State) (a : Nat) (l : List Byte) : (s.engineWrite a l).kicksHeld = s.kicksHeld := by unfold State.engineWrite; split <;> simp
@[simp] theorem State.engineWrite_pool0 (s : State) (a : Nat) (l : List Byte) : (s.engineWrite a l).pool0 = s.pool0 := by unfold State.engineWrite; split <;> simp
@[simp] theorem State.engineWrite_pool1 (s : State) (a : Nat) (l : List Byte) : (s.engineWrite a l).pool1 = s.pool1 := by unfold State.engineWrite; split <;> simp
@[simp] theorem State.engineWrite_lastGrant0 (s : State) (a : Nat) (l : List Byte) : (s.engineWrite a l).lastGrant0 = s.lastGrant0 := by unfold State.engineWrite; split <;> simp
@[simp] theorem State.engineWrite_lastGrant1 (s : State) (a : Nat) (l : List Byte) : (s.engineWrite a l).lastGrant1 = s.lastGrant1 := by unfold State.engineWrite; split <;> simp
@[simp] theorem State.engineWrite_ctr (s : State) (a : Nat) (l : List Byte) : (s.engineWrite a l).ctr = s.ctr := by unfold State.engineWrite; split <;> simp
@[simp] theorem State.engineWrite_readyBits (s : State) (a : Nat) (l : List Byte) : (s.engineWrite a l).readyBits = s.readyBits := by unfold State.engineWrite; split <;> simp
@[simp] theorem State.engineWrite_boot (s : State) (a : Nat) (l : List Byte) : (s.engineWrite a l).boot = s.boot := by unfold State.engineWrite; split <;> simp
@[simp] theorem State.engineWrite_image (s : State) (a : Nat) (l : List Byte) : (s.engineWrite a l).image = s.image := by unfold State.engineWrite; split <;> simp
@[simp] theorem State.engineWrite_watts (s : State) (a : Nat) (l : List Byte) : (s.engineWrite a l).watts = s.watts := by unfold State.engineWrite; split <;> simp
@[simp] theorem State.engineWrite_zeroAt (s : State) (a : Nat) (l : List Byte) : (s.engineWrite a l).zeroAt = s.zeroAt := by unfold State.engineWrite; split <;> simp
@[simp] theorem State.engineWrite_fatal (s : State) (a : Nat) (l : List Byte) : (s.engineWrite a l).fatal = s.fatal := by unfold State.engineWrite; split <;> simp
@[simp] theorem State.engineWrite_dumpBase (s : State) (a : Nat) (l : List Byte) : (s.engineWrite a l).dumpBase = s.dumpBase := by unfold State.engineWrite; split <;> simp
@[simp] theorem State.engineWrite_dumpLen (s : State) (a : Nat) (l : List Byte) : (s.engineWrite a l).dumpLen = s.dumpLen := by unfold State.engineWrite; split <;> simp
@[simp] theorem State.engineWrite_host (s : State) (a : Nat) (l : List Byte) : (s.engineWrite a l).host = s.host := by unfold State.engineWrite; split <;> simp
@[simp] theorem State.engineWrite_bar0 (s : State) (a : Nat) (l : List Byte) : (s.engineWrite a l).bar0 = s.bar0 := by unfold State.engineWrite; split <;> simp
@[simp] theorem State.engineWrite_bar1 (s : State) (a : Nat) (l : List Byte) : (s.engineWrite a l).bar1 = s.bar1 := by unfold State.engineWrite; split <;> simp
@[simp] theorem State.engineWrite_mbox (s : State) (a : Nat) (l : List Byte) : (s.engineWrite a l).mbox = s.mbox := by unfold State.engineWrite; split <;> simp
@[simp] theorem State.engineWrite_reports (s : State) (a : Nat) (l : List Byte) : (s.engineWrite a l).reports = s.reports := by unfold State.engineWrite; split <;> simp
@[simp] theorem State.engineWrite_ports (s : State) (a : Nat) (l : List Byte) : (s.engineWrite a l).ports = s.ports := by unfold State.engineWrite; split <;> simp
@[simp] theorem State.engineWrite_peerNo (s : State) (a : Nat) (l : List Byte) : (s.engineWrite a l).peerNo = s.peerNo := by unfold State.engineWrite; split <;> simp
@[simp] theorem State.engineWrite_far (s : State) (a : Nat) (l : List Byte) : (s.engineWrite a l).far = s.far := by unfold State.engineWrite; split <;> simp
@[simp] theorem State.engineWrite_farOut (s : State) (a : Nat) (l : List Byte) : (s.engineWrite a l).farOut = s.farOut := by unfold State.engineWrite; split <;> simp
@[simp] theorem State.engineWrite_farIn (s : State) (a : Nat) (l : List Byte) : (s.engineWrite a l).farIn = s.farIn := by unfold State.engineWrite; split <;> simp
@[simp] theorem State.engineWrite_launches (s : State) (a : Nat) (l : List Byte) : (s.engineWrite a l).launches = s.launches := by unfold State.engineWrite; split <;> simp
@[simp] theorem State.engineWrite_crews (s : State) (a : Nat) (l : List Byte) : (s.engineWrite a l).crews = s.crews := by unfold State.engineWrite; split <;> simp
@[simp] theorem State.engineWrite_gangs (s : State) (a : Nat) (l : List Byte) : (s.engineWrite a l).gangs = s.gangs := by unfold State.engineWrite; split <;> simp
@[simp] theorem State.engineWrite_cores (s : State) (a : Nat) (l : List Byte) : (s.engineWrite a l).cores = s.cores := by unfold State.engineWrite; split <;> simp
@[simp] theorem State.engineWrite_ctxs (s : State) (a : Nat) (l : List Byte) : (s.engineWrite a l).ctxs = s.ctxs := by unfold State.engineWrite; split <;> simp
@[simp] theorem State.engineWrite_leases (s : State) (a : Nat) (l : List Byte) : (s.engineWrite a l).leases = s.leases := by unfold State.engineWrite; split <;> simp
@[simp] theorem State.engineWrite_recovered (s : State) (a : Nat) (l : List Byte) : (s.engineWrite a l).recovered = s.recovered := by unfold State.engineWrite; split <;> simp
@[simp] theorem State.engineWrite_recovering (s : State) (a : Nat) (l : List Byte) : (s.engineWrite a l).recovering = s.recovering := by unfold State.engineWrite; split <;> simp
@[simp] theorem State.engineWrite_outside (s : State) (a : Nat) (l : List Byte) : (s.engineWrite a l).outside = s.outside := by unfold State.engineWrite; split <;> simp
@[simp] theorem State.engineWrite_cur (s : State) (a : Nat) (l : List Byte) : (s.engineWrite a l).cur = s.cur := by unfold State.engineWrite; split <;> simp
@[simp] theorem State.engineWrite_agenda (s : State) (a : Nat) (l : List Byte) : (s.engineWrite a l).agenda = s.agenda := by unfold State.engineWrite; split <;> simp
@[simp] theorem State.engineWrite_picks (s : State) (a : Nat) (l : List Byte) : (s.engineWrite a l).picks = s.picks := by unfold State.engineWrite; split <;> simp
@[simp] theorem State.engineWrite_nextId (s : State) (a : Nat) (l : List Byte) : (s.engineWrite a l).nextId = s.nextId := by unfold State.engineWrite; split <;> simp
@[simp] theorem State.engineWrite_nextLaunch (s : State) (a : Nat) (l : List Byte) : (s.engineWrite a l).nextLaunch = s.nextLaunch := by unfold State.engineWrite; split <;> simp
@[simp] theorem State.engineWrite_nextCrew (s : State) (a : Nat) (l : List Byte) : (s.engineWrite a l).nextCrew = s.nextCrew := by unfold State.engineWrite; split <;> simp
@[simp] theorem State.engineWrite_nextAge (s : State) (a : Nat) (l : List Byte) : (s.engineWrite a l).nextAge = s.nextAge := by unfold State.engineWrite; split <;> simp
@[simp] theorem State.engineWrite_turn (s : State) (a : Nat) (l : List Byte) : (s.engineWrite a l).turn = s.turn := by unfold State.engineWrite; split <;> simp

@[simp] theorem State.ringPut_vers (s : State) (c b l w : Nat) (r : List Byte) : (s.ringPut c b l w r).vers = s.vers := by simp [State.ringPut]
@[simp] theorem State.ringPut_tlb (s : State) (c b l w : Nat) (r : List Byte) : (s.ringPut c b l w r).tlb = s.tlb := by simp [State.ringPut]
@[simp] theorem State.ringPut_walking (s : State) (c b l w : Nat) (r : List Byte) : (s.ringPut c b l w r).walking = s.walking := by simp [State.ringPut]
@[simp] theorem State.ringPut_grants (s : State) (c b l w : Nat) (r : List Byte) : (s.ringPut c b l w r).grants = s.grants := by simp [State.ringPut]
@[simp] theorem State.ringPut_fqPend (s : State) (c b l w : Nat) (r : List Byte) : (s.ringPut c b l w r).fqPend = s.fqPend := by simp [State.ringPut]
@[simp] theorem State.ringPut_qtbase (s : State) (c b l w : Nat) (r : List Byte) : (s.ringPut c b l w r).qtbase = s.qtbase := by simp [State.ringPut]
@[simp] theorem State.ringPut_kickFrame (s : State) (c b l w : Nat) (r : List Byte) : (s.ringPut c b l w r).kickFrame = s.kickFrame := by simp [State.ringPut]
@[simp] theorem State.ringPut_qFresh (s : State) (c b l w : Nat) (r : List Byte) : (s.ringPut c b l w r).qFresh = s.qFresh := by simp [State.ringPut]
@[simp] theorem State.ringPut_pre0 (s : State) (c b l w : Nat) (r : List Byte) : (s.ringPut c b l w r).pre0 = s.pre0 := by simp [State.ringPut]
@[simp] theorem State.ringPut_pre1 (s : State) (c b l w : Nat) (r : List Byte) : (s.ringPut c b l w r).pre1 = s.pre1 := by simp [State.ringPut]
@[simp] theorem State.ringPut_preCrews (s : State) (c b l w : Nat) (r : List Byte) : (s.ringPut c b l w r).preCrews = s.preCrews := by simp [State.ringPut]
@[simp] theorem State.ringPut_preSaved (s : State) (c b l w : Nat) (r : List Byte) : (s.ringPut c b l w r).preSaved = s.preSaved := by simp [State.ringPut]
@[simp] theorem State.ringPut_acl (s : State) (c b l w : Nat) (r : List Byte) : (s.ringPut c b l w r).acl = s.acl := by simp [State.ringPut]
@[simp] theorem State.ringPut_kicks (s : State) (c b l w : Nat) (r : List Byte) : (s.ringPut c b l w r).kicks = s.kicks := by simp [State.ringPut]
@[simp] theorem State.ringPut_kicksHeld (s : State) (c b l w : Nat) (r : List Byte) : (s.ringPut c b l w r).kicksHeld = s.kicksHeld := by simp [State.ringPut]
@[simp] theorem State.ringPut_pool0 (s : State) (c b l w : Nat) (r : List Byte) : (s.ringPut c b l w r).pool0 = s.pool0 := by simp [State.ringPut]
@[simp] theorem State.ringPut_pool1 (s : State) (c b l w : Nat) (r : List Byte) : (s.ringPut c b l w r).pool1 = s.pool1 := by simp [State.ringPut]
@[simp] theorem State.ringPut_lastGrant0 (s : State) (c b l w : Nat) (r : List Byte) : (s.ringPut c b l w r).lastGrant0 = s.lastGrant0 := by simp [State.ringPut]
@[simp] theorem State.ringPut_lastGrant1 (s : State) (c b l w : Nat) (r : List Byte) : (s.ringPut c b l w r).lastGrant1 = s.lastGrant1 := by simp [State.ringPut]
@[simp] theorem State.ringPut_ctr (s : State) (c b l w : Nat) (r : List Byte) : (s.ringPut c b l w r).ctr = s.ctr := by simp [State.ringPut]
@[simp] theorem State.ringPut_readyBits (s : State) (c b l w : Nat) (r : List Byte) : (s.ringPut c b l w r).readyBits = s.readyBits := by simp [State.ringPut]
@[simp] theorem State.ringPut_boot (s : State) (c b l w : Nat) (r : List Byte) : (s.ringPut c b l w r).boot = s.boot := by simp [State.ringPut]
@[simp] theorem State.ringPut_image (s : State) (c b l w : Nat) (r : List Byte) : (s.ringPut c b l w r).image = s.image := by simp [State.ringPut]
@[simp] theorem State.ringPut_watts (s : State) (c b l w : Nat) (r : List Byte) : (s.ringPut c b l w r).watts = s.watts := by simp [State.ringPut]
@[simp] theorem State.ringPut_zeroAt (s : State) (c b l w : Nat) (r : List Byte) : (s.ringPut c b l w r).zeroAt = s.zeroAt := by simp [State.ringPut]
@[simp] theorem State.ringPut_fatal (s : State) (c b l w : Nat) (r : List Byte) : (s.ringPut c b l w r).fatal = s.fatal := by simp [State.ringPut]
@[simp] theorem State.ringPut_dumpBase (s : State) (c b l w : Nat) (r : List Byte) : (s.ringPut c b l w r).dumpBase = s.dumpBase := by simp [State.ringPut]
@[simp] theorem State.ringPut_dumpLen (s : State) (c b l w : Nat) (r : List Byte) : (s.ringPut c b l w r).dumpLen = s.dumpLen := by simp [State.ringPut]
@[simp] theorem State.ringPut_host (s : State) (c b l w : Nat) (r : List Byte) : (s.ringPut c b l w r).host = s.host := by simp [State.ringPut]
@[simp] theorem State.ringPut_bar0 (s : State) (c b l w : Nat) (r : List Byte) : (s.ringPut c b l w r).bar0 = s.bar0 := by simp [State.ringPut]
@[simp] theorem State.ringPut_bar1 (s : State) (c b l w : Nat) (r : List Byte) : (s.ringPut c b l w r).bar1 = s.bar1 := by simp [State.ringPut]
@[simp] theorem State.ringPut_mbox (s : State) (c b l w : Nat) (r : List Byte) : (s.ringPut c b l w r).mbox = s.mbox := by simp [State.ringPut]
@[simp] theorem State.ringPut_reports (s : State) (c b l w : Nat) (r : List Byte) : (s.ringPut c b l w r).reports = s.reports := by simp [State.ringPut]
@[simp] theorem State.ringPut_ports (s : State) (c b l w : Nat) (r : List Byte) : (s.ringPut c b l w r).ports = s.ports := by simp [State.ringPut]
@[simp] theorem State.ringPut_peerNo (s : State) (c b l w : Nat) (r : List Byte) : (s.ringPut c b l w r).peerNo = s.peerNo := by simp [State.ringPut]
@[simp] theorem State.ringPut_far (s : State) (c b l w : Nat) (r : List Byte) : (s.ringPut c b l w r).far = s.far := by simp [State.ringPut]
@[simp] theorem State.ringPut_farOut (s : State) (c b l w : Nat) (r : List Byte) : (s.ringPut c b l w r).farOut = s.farOut := by simp [State.ringPut]
@[simp] theorem State.ringPut_farIn (s : State) (c b l w : Nat) (r : List Byte) : (s.ringPut c b l w r).farIn = s.farIn := by simp [State.ringPut]
@[simp] theorem State.ringPut_launches (s : State) (c b l w : Nat) (r : List Byte) : (s.ringPut c b l w r).launches = s.launches := by simp [State.ringPut]
@[simp] theorem State.ringPut_crews (s : State) (c b l w : Nat) (r : List Byte) : (s.ringPut c b l w r).crews = s.crews := by simp [State.ringPut]
@[simp] theorem State.ringPut_gangs (s : State) (c b l w : Nat) (r : List Byte) : (s.ringPut c b l w r).gangs = s.gangs := by simp [State.ringPut]
@[simp] theorem State.ringPut_cores (s : State) (c b l w : Nat) (r : List Byte) : (s.ringPut c b l w r).cores = s.cores := by simp [State.ringPut]
@[simp] theorem State.ringPut_ctxs (s : State) (c b l w : Nat) (r : List Byte) : (s.ringPut c b l w r).ctxs = s.ctxs := by simp [State.ringPut]
@[simp] theorem State.ringPut_leases (s : State) (c b l w : Nat) (r : List Byte) : (s.ringPut c b l w r).leases = s.leases := by simp [State.ringPut]
@[simp] theorem State.ringPut_recovered (s : State) (c b l w : Nat) (r : List Byte) : (s.ringPut c b l w r).recovered = s.recovered := by simp [State.ringPut]
@[simp] theorem State.ringPut_recovering (s : State) (c b l w : Nat) (r : List Byte) : (s.ringPut c b l w r).recovering = s.recovering := by simp [State.ringPut]
@[simp] theorem State.ringPut_outside (s : State) (c b l w : Nat) (r : List Byte) : (s.ringPut c b l w r).outside = s.outside := by simp [State.ringPut]
@[simp] theorem State.ringPut_cur (s : State) (c b l w : Nat) (r : List Byte) : (s.ringPut c b l w r).cur = s.cur := by simp [State.ringPut]
@[simp] theorem State.ringPut_agenda (s : State) (c b l w : Nat) (r : List Byte) : (s.ringPut c b l w r).agenda = s.agenda := by simp [State.ringPut]
@[simp] theorem State.ringPut_picks (s : State) (c b l w : Nat) (r : List Byte) : (s.ringPut c b l w r).picks = s.picks := by simp [State.ringPut]
@[simp] theorem State.ringPut_nextId (s : State) (c b l w : Nat) (r : List Byte) : (s.ringPut c b l w r).nextId = s.nextId := by simp [State.ringPut]
@[simp] theorem State.ringPut_nextLaunch (s : State) (c b l w : Nat) (r : List Byte) : (s.ringPut c b l w r).nextLaunch = s.nextLaunch := by simp [State.ringPut]
@[simp] theorem State.ringPut_nextCrew (s : State) (c b l w : Nat) (r : List Byte) : (s.ringPut c b l w r).nextCrew = s.nextCrew := by simp [State.ringPut]
@[simp] theorem State.ringPut_nextAge (s : State) (c b l w : Nat) (r : List Byte) : (s.ringPut c b l w r).nextAge = s.nextAge := by simp [State.ringPut]
@[simp] theorem State.ringPut_turn (s : State) (c b l w : Nat) (r : List Byte) : (s.ringPut c b l w r).turn = s.turn := by simp [State.ringPut]

@[simp] theorem State.interrupt_mem (s : State) (v : Nat) : (s.interrupt v).mem = s.mem := by rfl
@[simp] theorem State.interrupt_memPois (s : State) (v : Nat) : (s.interrupt v).memPois = s.memPois := by rfl
@[simp] theorem State.interrupt_vers (s : State) (v : Nat) : (s.interrupt v).vers = s.vers := by rfl
@[simp] theorem State.interrupt_ctxRegs (s : State) (v : Nat) : (s.interrupt v).ctxRegs = s.ctxRegs := by rfl
@[simp] theorem State.interrupt_tlb (s : State) (v : Nat) : (s.interrupt v).tlb = s.tlb := by rfl
@[simp] theorem State.interrupt_walking (s : State) (v : Nat) : (s.interrupt v).walking = s.walking := by rfl
@[simp] theorem State.interrupt_grants (s : State) (v : Nat) : (s.interrupt v).grants = s.grants := by rfl
@[simp] theorem State.interrupt_fqPend (s : State) (v : Nat) : (s.interrupt v).fqPend = s.fqPend := by rfl
@[simp] theorem State.interrupt_held (s : State) (v : Nat) : (s.interrupt v).held = s.held := by rfl
@[simp] theorem State.interrupt_qtbase (s : State) (v : Nat) : (s.interrupt v).qtbase = s.qtbase := by rfl
@[simp] theorem State.interrupt_kickFrame (s : State) (v : Nat) : (s.interrupt v).kickFrame = s.kickFrame := by rfl
@[simp] theorem State.interrupt_qFresh (s : State) (v : Nat) : (s.interrupt v).qFresh = s.qFresh := by rfl
@[simp] theorem State.interrupt_pre0 (s : State) (v : Nat) : (s.interrupt v).pre0 = s.pre0 := by rfl
@[simp] theorem State.interrupt_pre1 (s : State) (v : Nat) : (s.interrupt v).pre1 = s.pre1 := by rfl
@[simp] theorem State.interrupt_preCrews (s : State) (v : Nat) : (s.interrupt v).preCrews = s.preCrews := by rfl
@[simp] theorem State.interrupt_preSaved (s : State) (v : Nat) : (s.interrupt v).preSaved = s.preSaved := by rfl
@[simp] theorem State.interrupt_acl (s : State) (v : Nat) : (s.interrupt v).acl = s.acl := by rfl
@[simp] theorem State.interrupt_kicks (s : State) (v : Nat) : (s.interrupt v).kicks = s.kicks := by rfl
@[simp] theorem State.interrupt_kicksHeld (s : State) (v : Nat) : (s.interrupt v).kicksHeld = s.kicksHeld := by rfl
@[simp] theorem State.interrupt_pool0 (s : State) (v : Nat) : (s.interrupt v).pool0 = s.pool0 := by rfl
@[simp] theorem State.interrupt_pool1 (s : State) (v : Nat) : (s.interrupt v).pool1 = s.pool1 := by rfl
@[simp] theorem State.interrupt_lastGrant0 (s : State) (v : Nat) : (s.interrupt v).lastGrant0 = s.lastGrant0 := by rfl
@[simp] theorem State.interrupt_lastGrant1 (s : State) (v : Nat) : (s.interrupt v).lastGrant1 = s.lastGrant1 := by rfl
@[simp] theorem State.interrupt_ctr (s : State) (v : Nat) : (s.interrupt v).ctr = s.ctr := by rfl
@[simp] theorem State.interrupt_readyBits (s : State) (v : Nat) : (s.interrupt v).readyBits = s.readyBits := by rfl
@[simp] theorem State.interrupt_boot (s : State) (v : Nat) : (s.interrupt v).boot = s.boot := by rfl
@[simp] theorem State.interrupt_image (s : State) (v : Nat) : (s.interrupt v).image = s.image := by rfl
@[simp] theorem State.interrupt_watts (s : State) (v : Nat) : (s.interrupt v).watts = s.watts := by rfl
@[simp] theorem State.interrupt_zeroAt (s : State) (v : Nat) : (s.interrupt v).zeroAt = s.zeroAt := by rfl
@[simp] theorem State.interrupt_fatal (s : State) (v : Nat) : (s.interrupt v).fatal = s.fatal := by rfl
@[simp] theorem State.interrupt_dumpBase (s : State) (v : Nat) : (s.interrupt v).dumpBase = s.dumpBase := by rfl
@[simp] theorem State.interrupt_dumpLen (s : State) (v : Nat) : (s.interrupt v).dumpLen = s.dumpLen := by rfl
@[simp] theorem State.interrupt_bar0 (s : State) (v : Nat) : (s.interrupt v).bar0 = s.bar0 := by rfl
@[simp] theorem State.interrupt_bar1 (s : State) (v : Nat) : (s.interrupt v).bar1 = s.bar1 := by rfl
@[simp] theorem State.interrupt_mbox (s : State) (v : Nat) : (s.interrupt v).mbox = s.mbox := by rfl
@[simp] theorem State.interrupt_reports (s : State) (v : Nat) : (s.interrupt v).reports = s.reports := by rfl
@[simp] theorem State.interrupt_ports (s : State) (v : Nat) : (s.interrupt v).ports = s.ports := by rfl
@[simp] theorem State.interrupt_peerNo (s : State) (v : Nat) : (s.interrupt v).peerNo = s.peerNo := by rfl
@[simp] theorem State.interrupt_far (s : State) (v : Nat) : (s.interrupt v).far = s.far := by rfl
@[simp] theorem State.interrupt_farOut (s : State) (v : Nat) : (s.interrupt v).farOut = s.farOut := by rfl
@[simp] theorem State.interrupt_farIn (s : State) (v : Nat) : (s.interrupt v).farIn = s.farIn := by rfl
@[simp] theorem State.interrupt_launches (s : State) (v : Nat) : (s.interrupt v).launches = s.launches := by rfl
@[simp] theorem State.interrupt_crews (s : State) (v : Nat) : (s.interrupt v).crews = s.crews := by rfl
@[simp] theorem State.interrupt_gangs (s : State) (v : Nat) : (s.interrupt v).gangs = s.gangs := by rfl
@[simp] theorem State.interrupt_cores (s : State) (v : Nat) : (s.interrupt v).cores = s.cores := by rfl
@[simp] theorem State.interrupt_ctxs (s : State) (v : Nat) : (s.interrupt v).ctxs = s.ctxs := by rfl
@[simp] theorem State.interrupt_leases (s : State) (v : Nat) : (s.interrupt v).leases = s.leases := by rfl
@[simp] theorem State.interrupt_recovered (s : State) (v : Nat) : (s.interrupt v).recovered = s.recovered := by rfl
@[simp] theorem State.interrupt_recovering (s : State) (v : Nat) : (s.interrupt v).recovering = s.recovering := by rfl
@[simp] theorem State.interrupt_outside (s : State) (v : Nat) : (s.interrupt v).outside = s.outside := by rfl
@[simp] theorem State.interrupt_cur (s : State) (v : Nat) : (s.interrupt v).cur = s.cur := by rfl
@[simp] theorem State.interrupt_agenda (s : State) (v : Nat) : (s.interrupt v).agenda = s.agenda := by rfl
@[simp] theorem State.interrupt_picks (s : State) (v : Nat) : (s.interrupt v).picks = s.picks := by rfl
@[simp] theorem State.interrupt_nextId (s : State) (v : Nat) : (s.interrupt v).nextId = s.nextId := by rfl
@[simp] theorem State.interrupt_nextLaunch (s : State) (v : Nat) : (s.interrupt v).nextLaunch = s.nextLaunch := by rfl
@[simp] theorem State.interrupt_nextCrew (s : State) (v : Nat) : (s.interrupt v).nextCrew = s.nextCrew := by rfl
@[simp] theorem State.interrupt_nextAge (s : State) (v : Nat) : (s.interrupt v).nextAge = s.nextAge := by rfl
@[simp] theorem State.interrupt_turn (s : State) (v : Nat) : (s.interrupt v).turn = s.turn := by rfl

@[simp] theorem State.faultRecord_vers (s : State) (r : FRec) : (s.faultRecord r).vers = s.vers := by unfold State.faultRecord State.putRecord; split <;> split <;> simp
@[simp] theorem State.faultRecord_tlb (s : State) (r : FRec) : (s.faultRecord r).tlb = s.tlb := by unfold State.faultRecord State.putRecord; split <;> split <;> simp
@[simp] theorem State.faultRecord_walking (s : State) (r : FRec) : (s.faultRecord r).walking = s.walking := by unfold State.faultRecord State.putRecord; split <;> split <;> simp
@[simp] theorem State.faultRecord_grants (s : State) (r : FRec) : (s.faultRecord r).grants = s.grants := by unfold State.faultRecord State.putRecord; split <;> split <;> simp
@[simp] theorem State.faultRecord_fqPend (s : State) (r : FRec) : (s.faultRecord r).fqPend = s.fqPend := by unfold State.faultRecord State.putRecord; split <;> split <;> simp
@[simp] theorem State.faultRecord_qtbase (s : State) (r : FRec) : (s.faultRecord r).qtbase = s.qtbase := by unfold State.faultRecord State.putRecord; split <;> split <;> simp
@[simp] theorem State.faultRecord_kickFrame (s : State) (r : FRec) : (s.faultRecord r).kickFrame = s.kickFrame := by unfold State.faultRecord State.putRecord; split <;> split <;> simp
@[simp] theorem State.faultRecord_qFresh (s : State) (r : FRec) : (s.faultRecord r).qFresh = s.qFresh := by unfold State.faultRecord State.putRecord; split <;> split <;> simp
@[simp] theorem State.faultRecord_pre0 (s : State) (r : FRec) : (s.faultRecord r).pre0 = s.pre0 := by unfold State.faultRecord State.putRecord; split <;> split <;> simp
@[simp] theorem State.faultRecord_pre1 (s : State) (r : FRec) : (s.faultRecord r).pre1 = s.pre1 := by unfold State.faultRecord State.putRecord; split <;> split <;> simp
@[simp] theorem State.faultRecord_preCrews (s : State) (r : FRec) : (s.faultRecord r).preCrews = s.preCrews := by unfold State.faultRecord State.putRecord; split <;> split <;> simp
@[simp] theorem State.faultRecord_preSaved (s : State) (r : FRec) : (s.faultRecord r).preSaved = s.preSaved := by unfold State.faultRecord State.putRecord; split <;> split <;> simp
@[simp] theorem State.faultRecord_acl (s : State) (r : FRec) : (s.faultRecord r).acl = s.acl := by unfold State.faultRecord State.putRecord; split <;> split <;> simp
@[simp] theorem State.faultRecord_kicks (s : State) (r : FRec) : (s.faultRecord r).kicks = s.kicks := by unfold State.faultRecord State.putRecord; split <;> split <;> simp
@[simp] theorem State.faultRecord_kicksHeld (s : State) (r : FRec) : (s.faultRecord r).kicksHeld = s.kicksHeld := by unfold State.faultRecord State.putRecord; split <;> split <;> simp
@[simp] theorem State.faultRecord_pool0 (s : State) (r : FRec) : (s.faultRecord r).pool0 = s.pool0 := by unfold State.faultRecord State.putRecord; split <;> split <;> simp
@[simp] theorem State.faultRecord_pool1 (s : State) (r : FRec) : (s.faultRecord r).pool1 = s.pool1 := by unfold State.faultRecord State.putRecord; split <;> split <;> simp
@[simp] theorem State.faultRecord_lastGrant0 (s : State) (r : FRec) : (s.faultRecord r).lastGrant0 = s.lastGrant0 := by unfold State.faultRecord State.putRecord; split <;> split <;> simp
@[simp] theorem State.faultRecord_lastGrant1 (s : State) (r : FRec) : (s.faultRecord r).lastGrant1 = s.lastGrant1 := by unfold State.faultRecord State.putRecord; split <;> split <;> simp
@[simp] theorem State.faultRecord_ctr (s : State) (r : FRec) : (s.faultRecord r).ctr = s.ctr := by unfold State.faultRecord State.putRecord; split <;> split <;> simp
@[simp] theorem State.faultRecord_readyBits (s : State) (r : FRec) : (s.faultRecord r).readyBits = s.readyBits := by unfold State.faultRecord State.putRecord; split <;> split <;> simp
@[simp] theorem State.faultRecord_boot (s : State) (r : FRec) : (s.faultRecord r).boot = s.boot := by unfold State.faultRecord State.putRecord; split <;> split <;> simp
@[simp] theorem State.faultRecord_image (s : State) (r : FRec) : (s.faultRecord r).image = s.image := by unfold State.faultRecord State.putRecord; split <;> split <;> simp
@[simp] theorem State.faultRecord_watts (s : State) (r : FRec) : (s.faultRecord r).watts = s.watts := by unfold State.faultRecord State.putRecord; split <;> split <;> simp
@[simp] theorem State.faultRecord_zeroAt (s : State) (r : FRec) : (s.faultRecord r).zeroAt = s.zeroAt := by unfold State.faultRecord State.putRecord; split <;> split <;> simp
@[simp] theorem State.faultRecord_fatal (s : State) (r : FRec) : (s.faultRecord r).fatal = s.fatal := by unfold State.faultRecord State.putRecord; split <;> split <;> simp
@[simp] theorem State.faultRecord_dumpBase (s : State) (r : FRec) : (s.faultRecord r).dumpBase = s.dumpBase := by unfold State.faultRecord State.putRecord; split <;> split <;> simp
@[simp] theorem State.faultRecord_dumpLen (s : State) (r : FRec) : (s.faultRecord r).dumpLen = s.dumpLen := by unfold State.faultRecord State.putRecord; split <;> split <;> simp
@[simp] theorem State.faultRecord_bar0 (s : State) (r : FRec) : (s.faultRecord r).bar0 = s.bar0 := by unfold State.faultRecord State.putRecord; split <;> split <;> simp
@[simp] theorem State.faultRecord_bar1 (s : State) (r : FRec) : (s.faultRecord r).bar1 = s.bar1 := by unfold State.faultRecord State.putRecord; split <;> split <;> simp
@[simp] theorem State.faultRecord_mbox (s : State) (r : FRec) : (s.faultRecord r).mbox = s.mbox := by unfold State.faultRecord State.putRecord; split <;> split <;> simp
@[simp] theorem State.faultRecord_reports (s : State) (r : FRec) : (s.faultRecord r).reports = s.reports := by unfold State.faultRecord State.putRecord; split <;> split <;> simp
@[simp] theorem State.faultRecord_ports (s : State) (r : FRec) : (s.faultRecord r).ports = s.ports := by unfold State.faultRecord State.putRecord; split <;> split <;> simp
@[simp] theorem State.faultRecord_peerNo (s : State) (r : FRec) : (s.faultRecord r).peerNo = s.peerNo := by unfold State.faultRecord State.putRecord; split <;> split <;> simp
@[simp] theorem State.faultRecord_far (s : State) (r : FRec) : (s.faultRecord r).far = s.far := by unfold State.faultRecord State.putRecord; split <;> split <;> simp
@[simp] theorem State.faultRecord_farOut (s : State) (r : FRec) : (s.faultRecord r).farOut = s.farOut := by unfold State.faultRecord State.putRecord; split <;> split <;> simp
@[simp] theorem State.faultRecord_farIn (s : State) (r : FRec) : (s.faultRecord r).farIn = s.farIn := by unfold State.faultRecord State.putRecord; split <;> split <;> simp
@[simp] theorem State.faultRecord_crews (s : State) (r : FRec) : (s.faultRecord r).crews = s.crews := by unfold State.faultRecord State.putRecord; split <;> split <;> simp
@[simp] theorem State.faultRecord_gangs (s : State) (r : FRec) : (s.faultRecord r).gangs = s.gangs := by unfold State.faultRecord State.putRecord; split <;> split <;> simp
@[simp] theorem State.faultRecord_cores (s : State) (r : FRec) : (s.faultRecord r).cores = s.cores := by unfold State.faultRecord State.putRecord; split <;> split <;> simp
@[simp] theorem State.faultRecord_ctxs (s : State) (r : FRec) : (s.faultRecord r).ctxs = s.ctxs := by unfold State.faultRecord State.putRecord; split <;> split <;> simp
@[simp] theorem State.faultRecord_leases (s : State) (r : FRec) : (s.faultRecord r).leases = s.leases := by unfold State.faultRecord State.putRecord; split <;> split <;> simp
@[simp] theorem State.faultRecord_recovered (s : State) (r : FRec) : (s.faultRecord r).recovered = s.recovered := by unfold State.faultRecord State.putRecord; split <;> split <;> simp
@[simp] theorem State.faultRecord_recovering (s : State) (r : FRec) : (s.faultRecord r).recovering = s.recovering := by unfold State.faultRecord State.putRecord; split <;> split <;> simp
@[simp] theorem State.faultRecord_outside (s : State) (r : FRec) : (s.faultRecord r).outside = s.outside := by unfold State.faultRecord State.putRecord; split <;> split <;> simp
@[simp] theorem State.faultRecord_cur (s : State) (r : FRec) : (s.faultRecord r).cur = s.cur := by unfold State.faultRecord State.putRecord; split <;> split <;> simp
@[simp] theorem State.faultRecord_agenda (s : State) (r : FRec) : (s.faultRecord r).agenda = s.agenda := by unfold State.faultRecord State.putRecord; split <;> split <;> simp
@[simp] theorem State.faultRecord_picks (s : State) (r : FRec) : (s.faultRecord r).picks = s.picks := by unfold State.faultRecord State.putRecord; split <;> split <;> simp
@[simp] theorem State.faultRecord_nextId (s : State) (r : FRec) : (s.faultRecord r).nextId = s.nextId := by unfold State.faultRecord State.putRecord; split <;> split <;> simp
@[simp] theorem State.faultRecord_nextLaunch (s : State) (r : FRec) : (s.faultRecord r).nextLaunch = s.nextLaunch := by unfold State.faultRecord State.putRecord; split <;> split <;> simp
@[simp] theorem State.faultRecord_nextCrew (s : State) (r : FRec) : (s.faultRecord r).nextCrew = s.nextCrew := by unfold State.faultRecord State.putRecord; split <;> split <;> simp
@[simp] theorem State.faultRecord_nextAge (s : State) (r : FRec) : (s.faultRecord r).nextAge = s.nextAge := by unfold State.faultRecord State.putRecord; split <;> split <;> simp
@[simp] theorem State.faultRecord_turn (s : State) (r : FRec) : (s.faultRecord r).turn = s.turn := by unfold State.faultRecord State.putRecord; split <;> split <;> simp

@[simp] theorem State.logDenial_vers (s : State) (d : Denial) : (s.logDenial d).vers = s.vers := by unfold State.logDenial; split <;> simp
@[simp] theorem State.logDenial_tlb (s : State) (d : Denial) : (s.logDenial d).tlb = s.tlb := by unfold State.logDenial; split <;> simp
@[simp] theorem State.logDenial_walking (s : State) (d : Denial) : (s.logDenial d).walking = s.walking := by unfold State.logDenial; split <;> simp
@[simp] theorem State.logDenial_grants (s : State) (d : Denial) : (s.logDenial d).grants = s.grants := by unfold State.logDenial; split <;> simp
@[simp] theorem State.logDenial_fqPend (s : State) (d : Denial) : (s.logDenial d).fqPend = s.fqPend := by unfold State.logDenial; split <;> simp
@[simp] theorem State.logDenial_qtbase (s : State) (d : Denial) : (s.logDenial d).qtbase = s.qtbase := by unfold State.logDenial; split <;> simp
@[simp] theorem State.logDenial_kickFrame (s : State) (d : Denial) : (s.logDenial d).kickFrame = s.kickFrame := by unfold State.logDenial; split <;> simp
@[simp] theorem State.logDenial_qFresh (s : State) (d : Denial) : (s.logDenial d).qFresh = s.qFresh := by unfold State.logDenial; split <;> simp
@[simp] theorem State.logDenial_pre0 (s : State) (d : Denial) : (s.logDenial d).pre0 = s.pre0 := by unfold State.logDenial; split <;> simp
@[simp] theorem State.logDenial_pre1 (s : State) (d : Denial) : (s.logDenial d).pre1 = s.pre1 := by unfold State.logDenial; split <;> simp
@[simp] theorem State.logDenial_preCrews (s : State) (d : Denial) : (s.logDenial d).preCrews = s.preCrews := by unfold State.logDenial; split <;> simp
@[simp] theorem State.logDenial_preSaved (s : State) (d : Denial) : (s.logDenial d).preSaved = s.preSaved := by unfold State.logDenial; split <;> simp
@[simp] theorem State.logDenial_acl (s : State) (d : Denial) : (s.logDenial d).acl = s.acl := by unfold State.logDenial; split <;> simp
@[simp] theorem State.logDenial_kicks (s : State) (d : Denial) : (s.logDenial d).kicks = s.kicks := by unfold State.logDenial; split <;> simp
@[simp] theorem State.logDenial_kicksHeld (s : State) (d : Denial) : (s.logDenial d).kicksHeld = s.kicksHeld := by unfold State.logDenial; split <;> simp
@[simp] theorem State.logDenial_pool0 (s : State) (d : Denial) : (s.logDenial d).pool0 = s.pool0 := by unfold State.logDenial; split <;> simp
@[simp] theorem State.logDenial_pool1 (s : State) (d : Denial) : (s.logDenial d).pool1 = s.pool1 := by unfold State.logDenial; split <;> simp
@[simp] theorem State.logDenial_lastGrant0 (s : State) (d : Denial) : (s.logDenial d).lastGrant0 = s.lastGrant0 := by unfold State.logDenial; split <;> simp
@[simp] theorem State.logDenial_lastGrant1 (s : State) (d : Denial) : (s.logDenial d).lastGrant1 = s.lastGrant1 := by unfold State.logDenial; split <;> simp
@[simp] theorem State.logDenial_ctr (s : State) (d : Denial) : (s.logDenial d).ctr = s.ctr := by unfold State.logDenial; split <;> simp
@[simp] theorem State.logDenial_readyBits (s : State) (d : Denial) : (s.logDenial d).readyBits = s.readyBits := by unfold State.logDenial; split <;> simp
@[simp] theorem State.logDenial_boot (s : State) (d : Denial) : (s.logDenial d).boot = s.boot := by unfold State.logDenial; split <;> simp
@[simp] theorem State.logDenial_image (s : State) (d : Denial) : (s.logDenial d).image = s.image := by unfold State.logDenial; split <;> simp
@[simp] theorem State.logDenial_watts (s : State) (d : Denial) : (s.logDenial d).watts = s.watts := by unfold State.logDenial; split <;> simp
@[simp] theorem State.logDenial_zeroAt (s : State) (d : Denial) : (s.logDenial d).zeroAt = s.zeroAt := by unfold State.logDenial; split <;> simp
@[simp] theorem State.logDenial_fatal (s : State) (d : Denial) : (s.logDenial d).fatal = s.fatal := by unfold State.logDenial; split <;> simp
@[simp] theorem State.logDenial_dumpBase (s : State) (d : Denial) : (s.logDenial d).dumpBase = s.dumpBase := by unfold State.logDenial; split <;> simp
@[simp] theorem State.logDenial_dumpLen (s : State) (d : Denial) : (s.logDenial d).dumpLen = s.dumpLen := by unfold State.logDenial; split <;> simp
@[simp] theorem State.logDenial_host (s : State) (d : Denial) : (s.logDenial d).host = s.host := by unfold State.logDenial; split <;> simp
@[simp] theorem State.logDenial_bar0 (s : State) (d : Denial) : (s.logDenial d).bar0 = s.bar0 := by unfold State.logDenial; split <;> simp
@[simp] theorem State.logDenial_bar1 (s : State) (d : Denial) : (s.logDenial d).bar1 = s.bar1 := by unfold State.logDenial; split <;> simp
@[simp] theorem State.logDenial_mbox (s : State) (d : Denial) : (s.logDenial d).mbox = s.mbox := by unfold State.logDenial; split <;> simp
@[simp] theorem State.logDenial_reports (s : State) (d : Denial) : (s.logDenial d).reports = s.reports := by unfold State.logDenial; split <;> simp
@[simp] theorem State.logDenial_ports (s : State) (d : Denial) : (s.logDenial d).ports = s.ports := by unfold State.logDenial; split <;> simp
@[simp] theorem State.logDenial_peerNo (s : State) (d : Denial) : (s.logDenial d).peerNo = s.peerNo := by unfold State.logDenial; split <;> simp
@[simp] theorem State.logDenial_far (s : State) (d : Denial) : (s.logDenial d).far = s.far := by unfold State.logDenial; split <;> simp
@[simp] theorem State.logDenial_farOut (s : State) (d : Denial) : (s.logDenial d).farOut = s.farOut := by unfold State.logDenial; split <;> simp
@[simp] theorem State.logDenial_farIn (s : State) (d : Denial) : (s.logDenial d).farIn = s.farIn := by unfold State.logDenial; split <;> simp
@[simp] theorem State.logDenial_launches (s : State) (d : Denial) : (s.logDenial d).launches = s.launches := by unfold State.logDenial; split <;> simp
@[simp] theorem State.logDenial_crews (s : State) (d : Denial) : (s.logDenial d).crews = s.crews := by unfold State.logDenial; split <;> simp
@[simp] theorem State.logDenial_gangs (s : State) (d : Denial) : (s.logDenial d).gangs = s.gangs := by unfold State.logDenial; split <;> simp
@[simp] theorem State.logDenial_cores (s : State) (d : Denial) : (s.logDenial d).cores = s.cores := by unfold State.logDenial; split <;> simp
@[simp] theorem State.logDenial_ctxs (s : State) (d : Denial) : (s.logDenial d).ctxs = s.ctxs := by unfold State.logDenial; split <;> simp
@[simp] theorem State.logDenial_leases (s : State) (d : Denial) : (s.logDenial d).leases = s.leases := by unfold State.logDenial; split <;> simp
@[simp] theorem State.logDenial_recovered (s : State) (d : Denial) : (s.logDenial d).recovered = s.recovered := by unfold State.logDenial; split <;> simp
@[simp] theorem State.logDenial_recovering (s : State) (d : Denial) : (s.logDenial d).recovering = s.recovering := by unfold State.logDenial; split <;> simp
@[simp] theorem State.logDenial_outside (s : State) (d : Denial) : (s.logDenial d).outside = s.outside := by unfold State.logDenial; split <;> simp
@[simp] theorem State.logDenial_cur (s : State) (d : Denial) : (s.logDenial d).cur = s.cur := by unfold State.logDenial; split <;> simp
@[simp] theorem State.logDenial_agenda (s : State) (d : Denial) : (s.logDenial d).agenda = s.agenda := by unfold State.logDenial; split <;> simp
@[simp] theorem State.logDenial_picks (s : State) (d : Denial) : (s.logDenial d).picks = s.picks := by unfold State.logDenial; split <;> simp
@[simp] theorem State.logDenial_nextId (s : State) (d : Denial) : (s.logDenial d).nextId = s.nextId := by unfold State.logDenial; split <;> simp
@[simp] theorem State.logDenial_nextLaunch (s : State) (d : Denial) : (s.logDenial d).nextLaunch = s.nextLaunch := by unfold State.logDenial; split <;> simp
@[simp] theorem State.logDenial_nextCrew (s : State) (d : Denial) : (s.logDenial d).nextCrew = s.nextCrew := by unfold State.logDenial; split <;> simp
@[simp] theorem State.logDenial_nextAge (s : State) (d : Denial) : (s.logDenial d).nextAge = s.nextAge := by unfold State.logDenial; split <;> simp
@[simp] theorem State.logDenial_turn (s : State) (d : Denial) : (s.logDenial d).turn = s.turn := by unfold State.logDenial; split <;> simp

@[simp] theorem State.postFault_vers (s : State) (f : FqInfo) : (s.postFault f).vers = s.vers := by unfold State.postFault; dsimp only; split <;> simp
@[simp] theorem State.postFault_tlb (s : State) (f : FqInfo) : (s.postFault f).tlb = s.tlb := by unfold State.postFault; dsimp only; split <;> simp
@[simp] theorem State.postFault_walking (s : State) (f : FqInfo) : (s.postFault f).walking = s.walking := by unfold State.postFault; dsimp only; split <;> simp
@[simp] theorem State.postFault_grants (s : State) (f : FqInfo) : (s.postFault f).grants = s.grants := by unfold State.postFault; dsimp only; split <;> simp
@[simp] theorem State.postFault_qtbase (s : State) (f : FqInfo) : (s.postFault f).qtbase = s.qtbase := by unfold State.postFault; dsimp only; split <;> simp
@[simp] theorem State.postFault_kickFrame (s : State) (f : FqInfo) : (s.postFault f).kickFrame = s.kickFrame := by unfold State.postFault; dsimp only; split <;> simp
@[simp] theorem State.postFault_qFresh (s : State) (f : FqInfo) : (s.postFault f).qFresh = s.qFresh := by unfold State.postFault; dsimp only; split <;> simp
@[simp] theorem State.postFault_pre0 (s : State) (f : FqInfo) : (s.postFault f).pre0 = s.pre0 := by unfold State.postFault; dsimp only; split <;> simp
@[simp] theorem State.postFault_pre1 (s : State) (f : FqInfo) : (s.postFault f).pre1 = s.pre1 := by unfold State.postFault; dsimp only; split <;> simp
@[simp] theorem State.postFault_preCrews (s : State) (f : FqInfo) : (s.postFault f).preCrews = s.preCrews := by unfold State.postFault; dsimp only; split <;> simp
@[simp] theorem State.postFault_preSaved (s : State) (f : FqInfo) : (s.postFault f).preSaved = s.preSaved := by unfold State.postFault; dsimp only; split <;> simp
@[simp] theorem State.postFault_acl (s : State) (f : FqInfo) : (s.postFault f).acl = s.acl := by unfold State.postFault; dsimp only; split <;> simp
@[simp] theorem State.postFault_kicks (s : State) (f : FqInfo) : (s.postFault f).kicks = s.kicks := by unfold State.postFault; dsimp only; split <;> simp
@[simp] theorem State.postFault_kicksHeld (s : State) (f : FqInfo) : (s.postFault f).kicksHeld = s.kicksHeld := by unfold State.postFault; dsimp only; split <;> simp
@[simp] theorem State.postFault_pool0 (s : State) (f : FqInfo) : (s.postFault f).pool0 = s.pool0 := by unfold State.postFault; dsimp only; split <;> simp
@[simp] theorem State.postFault_pool1 (s : State) (f : FqInfo) : (s.postFault f).pool1 = s.pool1 := by unfold State.postFault; dsimp only; split <;> simp
@[simp] theorem State.postFault_lastGrant0 (s : State) (f : FqInfo) : (s.postFault f).lastGrant0 = s.lastGrant0 := by unfold State.postFault; dsimp only; split <;> simp
@[simp] theorem State.postFault_lastGrant1 (s : State) (f : FqInfo) : (s.postFault f).lastGrant1 = s.lastGrant1 := by unfold State.postFault; dsimp only; split <;> simp
@[simp] theorem State.postFault_readyBits (s : State) (f : FqInfo) : (s.postFault f).readyBits = s.readyBits := by unfold State.postFault; dsimp only; split <;> simp
@[simp] theorem State.postFault_boot (s : State) (f : FqInfo) : (s.postFault f).boot = s.boot := by unfold State.postFault; dsimp only; split <;> simp
@[simp] theorem State.postFault_image (s : State) (f : FqInfo) : (s.postFault f).image = s.image := by unfold State.postFault; dsimp only; split <;> simp
@[simp] theorem State.postFault_watts (s : State) (f : FqInfo) : (s.postFault f).watts = s.watts := by unfold State.postFault; dsimp only; split <;> simp
@[simp] theorem State.postFault_zeroAt (s : State) (f : FqInfo) : (s.postFault f).zeroAt = s.zeroAt := by unfold State.postFault; dsimp only; split <;> simp
@[simp] theorem State.postFault_fatal (s : State) (f : FqInfo) : (s.postFault f).fatal = s.fatal := by unfold State.postFault; dsimp only; split <;> simp
@[simp] theorem State.postFault_dumpBase (s : State) (f : FqInfo) : (s.postFault f).dumpBase = s.dumpBase := by unfold State.postFault; dsimp only; split <;> simp
@[simp] theorem State.postFault_dumpLen (s : State) (f : FqInfo) : (s.postFault f).dumpLen = s.dumpLen := by unfold State.postFault; dsimp only; split <;> simp
@[simp] theorem State.postFault_bar0 (s : State) (f : FqInfo) : (s.postFault f).bar0 = s.bar0 := by unfold State.postFault; dsimp only; split <;> simp
@[simp] theorem State.postFault_bar1 (s : State) (f : FqInfo) : (s.postFault f).bar1 = s.bar1 := by unfold State.postFault; dsimp only; split <;> simp
@[simp] theorem State.postFault_mbox (s : State) (f : FqInfo) : (s.postFault f).mbox = s.mbox := by unfold State.postFault; dsimp only; split <;> simp
@[simp] theorem State.postFault_reports (s : State) (f : FqInfo) : (s.postFault f).reports = s.reports := by unfold State.postFault; dsimp only; split <;> simp
@[simp] theorem State.postFault_ports (s : State) (f : FqInfo) : (s.postFault f).ports = s.ports := by unfold State.postFault; dsimp only; split <;> simp
@[simp] theorem State.postFault_peerNo (s : State) (f : FqInfo) : (s.postFault f).peerNo = s.peerNo := by unfold State.postFault; dsimp only; split <;> simp
@[simp] theorem State.postFault_far (s : State) (f : FqInfo) : (s.postFault f).far = s.far := by unfold State.postFault; dsimp only; split <;> simp
@[simp] theorem State.postFault_farOut (s : State) (f : FqInfo) : (s.postFault f).farOut = s.farOut := by unfold State.postFault; dsimp only; split <;> simp
@[simp] theorem State.postFault_farIn (s : State) (f : FqInfo) : (s.postFault f).farIn = s.farIn := by unfold State.postFault; dsimp only; split <;> simp
@[simp] theorem State.postFault_launches (s : State) (f : FqInfo) : (s.postFault f).launches = s.launches := by unfold State.postFault; dsimp only; split <;> simp
@[simp] theorem State.postFault_crews (s : State) (f : FqInfo) : (s.postFault f).crews = s.crews := by unfold State.postFault; dsimp only; split <;> simp
@[simp] theorem State.postFault_gangs (s : State) (f : FqInfo) : (s.postFault f).gangs = s.gangs := by unfold State.postFault; dsimp only; split <;> simp
@[simp] theorem State.postFault_cores (s : State) (f : FqInfo) : (s.postFault f).cores = s.cores := by unfold State.postFault; dsimp only; split <;> simp
@[simp] theorem State.postFault_ctxs (s : State) (f : FqInfo) : (s.postFault f).ctxs = s.ctxs := by unfold State.postFault; dsimp only; split <;> simp
@[simp] theorem State.postFault_leases (s : State) (f : FqInfo) : (s.postFault f).leases = s.leases := by unfold State.postFault; dsimp only; split <;> simp
@[simp] theorem State.postFault_recovered (s : State) (f : FqInfo) : (s.postFault f).recovered = s.recovered := by unfold State.postFault; dsimp only; split <;> simp
@[simp] theorem State.postFault_recovering (s : State) (f : FqInfo) : (s.postFault f).recovering = s.recovering := by unfold State.postFault; dsimp only; split <;> simp
@[simp] theorem State.postFault_outside (s : State) (f : FqInfo) : (s.postFault f).outside = s.outside := by unfold State.postFault; dsimp only; split <;> simp
@[simp] theorem State.postFault_cur (s : State) (f : FqInfo) : (s.postFault f).cur = s.cur := by unfold State.postFault; dsimp only; split <;> simp
@[simp] theorem State.postFault_agenda (s : State) (f : FqInfo) : (s.postFault f).agenda = s.agenda := by unfold State.postFault; dsimp only; split <;> simp
@[simp] theorem State.postFault_picks (s : State) (f : FqInfo) : (s.postFault f).picks = s.picks := by unfold State.postFault; dsimp only; split <;> simp
@[simp] theorem State.postFault_nextId (s : State) (f : FqInfo) : (s.postFault f).nextId = s.nextId := by unfold State.postFault; dsimp only; split <;> simp
@[simp] theorem State.postFault_nextLaunch (s : State) (f : FqInfo) : (s.postFault f).nextLaunch = s.nextLaunch := by unfold State.postFault; dsimp only; split <;> simp
@[simp] theorem State.postFault_nextCrew (s : State) (f : FqInfo) : (s.postFault f).nextCrew = s.nextCrew := by unfold State.postFault; dsimp only; split <;> simp
@[simp] theorem State.postFault_nextAge (s : State) (f : FqInfo) : (s.postFault f).nextAge = s.nextAge := by unfold State.postFault; dsimp only; split <;> simp
@[simp] theorem State.postFault_turn (s : State) (f : FqInfo) : (s.postFault f).turn = s.turn := by unfold State.postFault; dsimp only; split <;> simp

/-- The bytes of a write. -/
theorem cellsWrite_get (m : Store 8) (a : Nat) (l : List PByte) (b : Nat) :
    Store.get (cellsWrite m a l) b = if a ≤ b ∧ b < a + l.length then (l.getD (b - a) (0, false)).1 else Store.get m b := by
  induction l generalizing m a with
  | nil => simp [cellsWrite]
  | cons x r ih =>
    obtain ⟨x, p⟩ := x
    rw [cellsWrite, ih]
    by_cases h : b = a
    · subst h
      simp
    · rw [Store.get_set_of_ne _ _ h]
      by_cases h1 : a + 1 ≤ b ∧ b < a + 1 + r.length
      · rw [if_pos h1, if_pos (by simp; omega)]
        have : b - a = (b - (a + 1)) + 1 := by omega
        rw [this, List.getD_cons_succ]
      · rw [if_neg h1, if_neg (by simp; omega)]

theorem cellsWrite_wf {m : Store 8} (a : Nat) (l : List PByte) (h : Store.wf m = true) : Store.wf (cellsWrite m a l) = true := by
  induction l generalizing m a with
  | nil => exact h
  | cons x r ih => exact ih _ (Store.wf_set _ _ h)

/-- Every write of physical memory keeps the canonical form. -/
theorem State.physWrite_wf {s : State} (a : Nat) (l : List PByte) (h : Memory.wf s.mem) : Memory.wf (s.physWrite a l).mem := by
  unfold State.physWrite
  split
  · exact cellsWrite_wf _ _ h
  · exact h

/-- So does a record of an engine, and those that waited for memory. -/
theorem State.engineWrite_wf {s : State} (a : Nat) (l : List Byte) (h : Memory.wf s.mem) : Memory.wf (s.engineWrite a l).mem := by
  unfold State.engineWrite
  split
  · exact State.physWrite_wf _ _ h
  · exact h

theorem State.flushHeld_wf {s : State} (h : Memory.wf s.mem) : Memory.wf s.flushHeld.mem := by
  suffices k : ∀ (l : List (Nat × List Byte)) (t : State), Memory.wf t.mem →
      Memory.wf (l.foldl (fun t x => t.physWrite x.1 (clean x.2)) t).mem from k _ _ h
  intro l
  induction l with
  | nil => exact fun _ h => h
  | cons x r ih => exact fun t h => ih _ (State.physWrite_wf _ _ h)

theorem State.ringPut_wf {s : State} (c b l w : Nat) (r : List Byte) (h : Memory.wf s.mem) : Memory.wf (s.ringPut c b l w r).mem :=
  State.engineWrite_wf _ _ h

/-- The memory of reset has the canonical form. -/
theorem reset_wf : Memory.wf State.reset.mem := rfl

theorem Bytes.read_length (m : Bytes) (a n : Nat) : (m.read a n).length = n := by
  induction n generalizing a with
  | zero => rfl
  | succ n ih => simp [Bytes.read, ih]

theorem Bytes.read_getD (m : Bytes) (a n k : Nat) (h : k < n) : ((m.read a n).getD k (0, false)).1 = Store.get m.cells (a + k) := by
  induction n generalizing a k with
  | zero => omega
  | succ n ih =>
    cases k with
    | zero => simp [Bytes.read]
    | succ k => rw [Bytes.read, List.getD_cons_succ, ih _ _ (by omega)]; congr 1; omega

end Sys2Proof.Machine
end

