-- ==== Sys2Proof/Laws/Engine.lean ====
section
/-! SUPPORT. The engines, the host and the copy processors, said once: what acts when no fatal error stands, what a mailbox command that is served does,
and what a copy-class instruction that issues comes down to. -/
namespace Sys2Proof.Machine

theorem alive_none {s : State} {f : State → State} (h : s.fatal = none) : alive s f = .next (f s) := by simp [alive, h]

theorem alive_some {s : State} {f : State → State} {k : Nat} (h : s.fatal = some k) : alive s f = .next s := by simp [alive, h]

theorem mailbox_serves {i : Instr} {s : State} {w : Bool} {f : State → State} (h : Serves s) (hw : w = false) : mailbox i s w f = .next (f s) := by
  unfold mailbox
  simp [h.whole, h.mbox, h.first, hw]

theorem mailboxImage_serves {i : Instr} {s : State} {t c : DWord} {q : Option (BitVec 1)} {w : Bool} {f : State → State} (h : Serves s) (hb : s.image = true)
    (hw : w = false) : mailboxImage i s t c q w f = .next (f s) := by
  unfold mailboxImage
  rw [mailbox_serves h (by simp [hw])]
  simp [State.noImage, hb]

theorem mailbox_some {i : Instr} {s : State} {w : Bool} {f : State → State} {k : Nat} (h : s.fatal = some k) : mailbox i s w f = .next s := by
  unfold mailbox
  simp [h]

theorem mailboxImage_some {i : Instr} {s : State} {t c : DWord} {q : Option (BitVec 1)} {w : Bool} {f : State → State} {k : Nat} (h : s.fatal = some k) :
    mailboxImage i s t c q w f = .next s := mailbox_some h

theorem copyReady_of {s : State} {core ix : Nat} {c : CopyCtx} {l : List KSc} (h : CopyIssues s core ix c l) : s.copyReady c = true := by
  have : c.rows.any (·.versioned.isSome) = false := by
    simp only [List.any_eq_false]
    intro r hr
    simp [h.settled r hr]
  unfold State.copyReady
  rw [h.program, h.running, h.unparked, h.unsaved, this]
  rfl

/-- A copy-class instruction that issues comes down to its own effect. -/
theorem runCopy_eq {i : Instr} {l : List KSc} {s : State} {core ix : Nat} {c : CopyCtx} {body : State → Nat → Nat → CopyCtx → KRes}
    (h : CopyIssues s core ix c l) :
    runCopy i l s body = .next (match body s core ix c with
      | .ok t d => State.copyNext core ix i t d
      | .jump t d pc => t.putCtx core ix { d with pc := pc }
      | .fault e => s.copyFault core ix c e
      | .again t => t) := by
  have hb : l.any c.bad = false := by
    simp only [List.any_eq_false]
    intro x hx
    simp [h.clean x hx]
  unfold runCopy
  simp only [h.here, h.placed, copyReady_of h, hb, Bool.not_true, Bool.false_eq_true, if_false]
  cases body s core ix c <;> rfl

theorem runCopy_ok {i : Instr} {l : List KSc} {s t : State} {core ix : Nat} {c d : CopyCtx} {body : State → Nat → Nat → CopyCtx → KRes}
    (h : CopyIssues s core ix c l) (hb : body s core ix c = .ok t d) : runCopy i l s body = .next (State.copyNext core ix i t d) := by
  rw [runCopy_eq h, hb]

end Sys2Proof.Machine
end

