-- ==== Sys2Proof/Laws/Lookup.lean ====
section
/-! SUPPORT. What each lookup of the module's tables gives after each update: the entry just put, and every other entry as before. -/
namespace Sys2Proof.Machine

@[simp] theorem State.putGang_core (s : State) (g : Gang) (c : Nat) : (s.putGang g).core c = s.core c := rfl
@[simp] theorem State.putGang_crew (s : State) (g : Gang) (k : Nat) : (s.putGang g).crew? k = s.crew? k := rfl
@[simp] theorem State.putGang_launch (s : State) (g : Gang) (k : Nat) : (s.putGang g).launch? k = s.launch? k := rfl
@[simp] theorem State.putGang_ctx (s : State) (g : Gang) (c k : Nat) : (s.putGang g).ctx? c k = s.ctx? c k := rfl
@[simp] theorem State.putGang_ctxReg (s : State) (g : Gang) (c k : Nat) : (s.putGang g).ctxReg c k = s.ctxReg c k := rfl
@[simp] theorem State.putGang_verOf (s : State) (g : Gang) (a : Nat) : (s.putGang g).verOf a = s.verOf a := rfl
@[simp] theorem State.putCore_gang (s : State) (n : Nat) (x : Core) (c k : Nat) : (s.putCore n x).gang? c k = s.gang? c k := rfl
@[simp] theorem State.putCore_crew (s : State) (n : Nat) (x : Core) (k : Nat) : (s.putCore n x).crew? k = s.crew? k := rfl
@[simp] theorem State.putCore_launch (s : State) (n : Nat) (x : Core) (k : Nat) : (s.putCore n x).launch? k = s.launch? k := rfl
@[simp] theorem State.putCore_ctx (s : State) (n : Nat) (x : Core) (c k : Nat) : (s.putCore n x).ctx? c k = s.ctx? c k := rfl
@[simp] theorem State.putCore_ctxReg (s : State) (n : Nat) (x : Core) (c k : Nat) : (s.putCore n x).ctxReg c k = s.ctxReg c k := rfl
@[simp] theorem State.putCore_verOf (s : State) (n : Nat) (x : Core) (a : Nat) : (s.putCore n x).verOf a = s.verOf a := rfl
@[simp] theorem State.putCrew_gang (s : State) (n : Nat) (x : Crew) (c k : Nat) : (s.putCrew n x).gang? c k = s.gang? c k := rfl
@[simp] theorem State.putCrew_core (s : State) (n : Nat) (x : Crew) (c : Nat) : (s.putCrew n x).core c = s.core c := rfl
@[simp] theorem State.putCrew_launch (s : State) (n : Nat) (x : Crew) (k : Nat) : (s.putCrew n x).launch? k = s.launch? k := rfl
@[simp] theorem State.putCrew_ctx (s : State) (n : Nat) (x : Crew) (c k : Nat) : (s.putCrew n x).ctx? c k = s.ctx? c k := rfl
@[simp] theorem State.putCrew_ctxReg (s : State) (n : Nat) (x : Crew) (c k : Nat) : (s.putCrew n x).ctxReg c k = s.ctxReg c k := rfl
@[simp] theorem State.putCrew_verOf (s : State) (n : Nat) (x : Crew) (a : Nat) : (s.putCrew n x).verOf a = s.verOf a := rfl
@[simp] theorem State.putLaunch_gang (s : State) (n : Nat) (x : Launch) (c k : Nat) : (s.putLaunch n x).gang? c k = s.gang? c k := rfl
@[simp] theorem State.putLaunch_core (s : State) (n : Nat) (x : Launch) (c : Nat) : (s.putLaunch n x).core c = s.core c := rfl
@[simp] theorem State.putLaunch_crew (s : State) (n : Nat) (x : Launch) (k : Nat) : (s.putLaunch n x).crew? k = s.crew? k := rfl
@[simp] theorem State.putLaunch_ctx (s : State) (n : Nat) (x : Launch) (c k : Nat) : (s.putLaunch n x).ctx? c k = s.ctx? c k := rfl
@[simp] theorem State.putLaunch_ctxReg (s : State) (n : Nat) (x : Launch) (c k : Nat) : (s.putLaunch n x).ctxReg c k = s.ctxReg c k := rfl
@[simp] theorem State.putLaunch_verOf (s : State) (n : Nat) (x : Launch) (a : Nat) : (s.putLaunch n x).verOf a = s.verOf a := rfl
@[simp] theorem State.putCtx_gang (s : State) (n m : Nat) (x : CopyCtx) (c k : Nat) : (s.putCtx n m x).gang? c k = s.gang? c k := rfl
@[simp] theorem State.putCtx_core (s : State) (n m : Nat) (x : CopyCtx) (c : Nat) : (s.putCtx n m x).core c = s.core c := rfl
@[simp] theorem State.putCtx_crew (s : State) (n m : Nat) (x : CopyCtx) (k : Nat) : (s.putCtx n m x).crew? k = s.crew? k := rfl
@[simp] theorem State.putCtx_launch (s : State) (n m : Nat) (x : CopyCtx) (k : Nat) : (s.putCtx n m x).launch? k = s.launch? k := rfl
@[simp] theorem State.putCtx_ctxReg (s : State) (n m : Nat) (x : CopyCtx) (c k : Nat) : (s.putCtx n m x).ctxReg c k = s.ctxReg c k := rfl
@[simp] theorem State.putCtx_verOf (s : State) (n m : Nat) (x : CopyCtx) (a : Nat) : (s.putCtx n m x).verOf a = s.verOf a := rfl

@[simp] theorem State.gang_putGang (s : State) (g : Gang) : (s.putGang g).gang? g.core g.slot = some g := Tab.get?_set_self _ _ _
theorem State.gang_putGang_of_eq (s : State) (g : Gang) {c k : Nat} (h : gkey c k = gkey g.core g.slot) : (s.putGang g).gang? c k = some g := by
  unfold State.gang? State.putGang
  rw [h]
  exact Tab.get?_set_self _ _ _
theorem State.gang_putGang_of_ne (s : State) (g : Gang) {c k : Nat} (h : gkey c k ≠ gkey g.core g.slot) : (s.putGang g).gang? c k = s.gang? c k :=
  Tab.get?_set_of_ne _ _ h
theorem State.gang_dropGang (s : State) (c k : Nat) : (s.dropGang c k).gang? c k = none := Tab.get?_erase_self _ _
theorem State.gang_dropGang_of_ne (s : State) {c k d l : Nat} (h : gkey d l ≠ gkey c k) : (s.dropGang c k).gang? d l = s.gang? d l :=
  Tab.get?_erase_of_ne _ h
@[simp] theorem State.core_putCore (s : State) (n : Nat) (x : Core) : (s.putCore n x).core n = x := by
  unfold State.core State.putCore
  rw [Tab.get?_set_self]
  rfl
theorem State.core_putCore_of_ne (s : State) (x : Core) {n c : Nat} (h : c ≠ n) : (s.putCore n x).core c = s.core c := by
  unfold State.core State.putCore
  rw [Tab.get?_set_of_ne _ _ h]
@[simp] theorem State.crew_putCrew (s : State) (n : Nat) (x : Crew) : (s.putCrew n x).crew? n = some x := Tab.get?_set_self _ _ _
theorem State.crew_putCrew_of_ne (s : State) (x : Crew) {n k : Nat} (h : k ≠ n) : (s.putCrew n x).crew? k = s.crew? k := Tab.get?_set_of_ne _ _ h
@[simp] theorem State.launch_putLaunch (s : State) (n : Nat) (x : Launch) : (s.putLaunch n x).launch? n = some x := Tab.get?_set_self _ _ _
theorem State.launch_putLaunch_of_ne (s : State) (x : Launch) {n k : Nat} (h : k ≠ n) : (s.putLaunch n x).launch? k = s.launch? k := Tab.get?_set_of_ne _ _ h
@[simp] theorem State.ctx_putCtx (s : State) (c k : Nat) (x : CopyCtx) : (s.putCtx c k x).ctx? c k = some x := Tab.get?_set_self _ _ _
theorem State.ctx_putCtx_of_ne (s : State) (x : CopyCtx) {c k d l : Nat} (h : ckey d l ≠ ckey c k) : (s.putCtx c k x).ctx? d l = s.ctx? d l :=
  Tab.get?_set_of_ne _ _ h

theorem State.modCore_eq (s : State) (n : Nat) (f : Core → Core) : s.modCore n f = s.putCore n (f (s.core n)) := rfl
theorem State.modCrew_some {s : State} {n : Nat} {c : Crew} (f : Crew → Crew) (h : s.crew? n = some c) : s.modCrew n f = s.putCrew n (f c) := by
  unfold State.modCrew
  rw [h]
theorem State.modLaunch_some {s : State} {n : Nat} {l : Launch} (f : Launch → Launch) (h : s.launch? n = some l) :
    s.modLaunch n f = s.putLaunch n (f l) := by
  unfold State.modLaunch
  rw [h]
theorem State.modGang_some {s : State} {c k : Nat} {g : Gang} (f : Gang → Gang) (h : s.gang? c k = some g) : s.modGang c k f = s.putGang (f g) := by
  unfold State.modGang
  rw [h]
@[simp] theorem State.core_modCore (s : State) (n : Nat) (f : Core → Core) : (s.modCore n f).core n = f (s.core n) := by simp [State.modCore_eq]
@[simp] theorem State.gang_modCore (s : State) (n : Nat) (f : Core → Core) (c k : Nat) : (s.modCore n f).gang? c k = s.gang? c k := rfl
@[simp] theorem State.crew_modCore (s : State) (n : Nat) (f : Core → Core) (k : Nat) : (s.modCore n f).crew? k = s.crew? k := rfl
@[simp] theorem State.launch_modCore (s : State) (n : Nat) (f : Core → Core) (k : Nat) : (s.modCore n f).launch? k = s.launch? k := rfl
@[simp] theorem State.mem_modCore (s : State) (n : Nat) (f : Core → Core) : (s.modCore n f).mem = s.mem := rfl

theorem Tab.get?_map {α : Type} (m : Tab α) (f : Nat → α → α) (a : Nat) :
    Tab.get? (m.map (fun x => (x.1, f x.1 x.2))) a = (Tab.get? m a).map (f a) := by
  induction m with
  | nil => rfl
  | cons x r ih =>
    obtain ⟨k, v⟩ := x
    unfold Tab.get?
    rw [List.map_cons]
    by_cases h : a = k
    · subst h; simp
    · simp [h, ih]

/-- A wake makes ready the gangs that the test picks and leaves the others. -/
theorem State.gang_wake (s : State) (p : Gang → Bool) (c k : Nat) :
    (s.wake p).gang? c k = (s.gang? c k).map (fun g => if p g then g.ready else g) := by
  unfold State.gang? State.wake
  have e : s.gangs.map (fun x => if p x.2 = true then (x.1, x.2.ready) else x) =
      s.gangs.map (fun x => (x.1, if p x.2 then x.2.ready else x.2)) := by
    apply List.map_congr_left
    intro x _
    by_cases h : p x.2 = true <;> simp [h]
  dsimp only
  rw [e]
  exact Tab.get?_map s.gangs (fun _ g => if p g then g.ready else g) (gkey c k)

/-- As `gang_wake`, for a wake from a latch or barrier wait. -/
theorem State.gang_wakeAnew (s : State) (p : Gang → Bool) (c k : Nat) :
    (s.wakeAnew p).gang? c k = (s.gang? c k).map (fun g => if p g then s.anew g else g) := by
  unfold State.gang? State.wakeAnew
  have e : s.gangs.map (fun x => if p x.2 = true then (x.1, s.anew x.2) else x) =
      s.gangs.map (fun x => (x.1, if p x.2 then s.anew x.2 else x.2)) := by
    apply List.map_congr_left
    intro x _
    by_cases h : p x.2 = true <;> simp [h]
  dsimp only
  rw [e]
  exact Tab.get?_map s.gangs (fun _ g => if p g then s.anew g else g) (gkey c k)

end Sys2Proof.Machine
end

