-- ==== Sys2Proof/Laws/PoolRows.lean ====
section
/-! SUPPORT. What reading the rows of a pool can do (R107): nothing where no bank is marked failed, and nowhere anything to memory, launches, copy contexts or
the agenda. -/
namespace Sys2Proof.Machine

/-- The parts of a state that no read of a pool row changes. -/
structure Untouched (s t : State) : Prop where
  mem : t.mem = s.mem
  ctxs : t.ctxs = s.ctxs
  launches : t.launches = s.launches
  agenda : t.agenda = s.agenda
  fatal : t.fatal = s.fatal

theorem Untouched.rfl {s : State} : Untouched s s := ⟨Eq.refl _, Eq.refl _, Eq.refl _, Eq.refl _, Eq.refl _⟩

theorem Untouched.trans {s t u : State} (h : Untouched s t) (k : Untouched t u) : Untouched s u :=
  ⟨k.mem.trans h.mem, k.ctxs.trans h.ctxs, k.launches.trans h.launches, k.agenda.trans h.agenda, k.fatal.trans h.fatal⟩

theorem Untouched.foldl {α : Type} {f : State → α → State} (h : ∀ s a, Untouched s (f s a)) (l : List α) (s : State) : Untouched s (l.foldl f s) := by
  induction l generalizing s with
  | nil => exact .rfl
  | cons a l ih => exact (h s a).trans (ih _)

/-- A changed gang, and a changed crew, touch nothing of these. -/
theorem modGang_untouched (s : State) (core slot : Nat) (f : Gang → Gang) : Untouched s (s.modGang core slot f) := by
  unfold State.modGang; split <;> exact ⟨rfl, rfl, rfl, rfl, rfl⟩

theorem modCrew_untouched (s : State) (k : Nat) (f : Crew → Crew) : Untouched s (s.modCrew k f) := by
  unfold State.modCrew; split <;> exact ⟨rfl, rfl, rfl, rfl, rfl⟩

theorem wakeLatch_untouched (s : State) (crew ofs : Nat) : Untouched s (s.wakeLatch crew ofs) := by
  unfold State.wakeLatch; split <;> exact ⟨rfl, rfl, rfl, rfl, rfl⟩

theorem wakeBadLatches_untouched (s : State) (crew : Nat) : Untouched s (s.wakeBadLatches crew) := by
  unfold State.wakeBadLatches
  split
  · exact .rfl
  · exact .foldl (fun s w => by split; exacts [wakeLatch_untouched .., .rfl]) ..

theorem spoilHeld_untouched (s : State) (core : Nat) (x : RowHolds) (f : Nat → Option Word) : Untouched s (s.spoilHeld core x f) := by
  cases x with
  | lanes | control => exact modGang_untouched ..
  | scratch => exact (modCrew_untouched ..).trans (wakeBadLatches_untouched ..)
  | tile | effect => exact modCrew_untouched ..
  | nothing => exact .rfl

theorem rowLost_untouched (s : State) (core : Nat) (many : Bool) : Untouched s (s.rowLost core many).1 := by
  unfold State.rowLost
  dsimp only
  split
  · constructor <;> simp [State.rowsCorrected]
  · constructor <;> simp

theorem loseHeld_untouched (s : State) (core : Nat) (x : RowHolds) (many : Bool) : Untouched s (s.loseHeld core x many) := by
  exact (rowLost_untouched s core many).trans (spoilHeld_untouched ..)

theorem readHeld_untouched (s : State) (core : Nat) (l : List RowHolds) : Untouched s (s.readHeld core l) := by
  unfold State.readHeld
  split
  · exact .rfl
  · exact ⟨rfl, rfl, rfl, rfl, rfl⟩
  · exact .foldl (fun s x => loseHeld_untouched ..) ..

theorem readRows_untouched (s : State) (core : Nat) (l : List RowHolds) : Untouched s (s.readRows core l) :=
  .foldl (fun _ _ => readHeld_untouched ..) ..

/-- Reading the sources of an instruction, or a crew that is saved. -/
theorem readSources_untouched (s : State) (core : Nat) (a : Agent) : Untouched s (s.readSources core a) := by
  unfold State.readSources; split; exacts [.rfl, readRows_untouched ..]

theorem readCrew_untouched (s : State) (crew core : Nat) : Untouched s (s.readCrew crew core) := by
  unfold State.readCrew; split; exacts [.rfl, readHeld_untouched ..]

theorem readEffects_untouched (s : State) (crew : Nat) (which : Eff → Bool) : Untouched s (s.readEffects crew which) := by
  unfold State.readEffects; split; exacts [.rfl, readRows_untouched ..]

theorem spoilRows_untouched (l : List RowHolds) (many : Bool) (x : State × Gang) :
    Untouched x.1 (l.foldl (State.spoilInto many) x).1 := by
  induction l generalizing x with
  | nil => exact .rfl
  | cons r l ih => exact (rowLost_untouched x.1 x.2.core many).trans (ih (State.spoilInto many x r))

/-- A gang whose context is read changes nothing of these either (R125, R216). -/
theorem readContext_untouched (s : State) (g : Gang) : Untouched s (s.readContext g).1 := by
  unfold State.readContext
  generalize g.contextRows = l
  split
  · exact .rfl
  · exact ⟨rfl, rfl, rfl, rfl, rfl⟩
  · exact spoilRows_untouched l _ (s, g)

/-- With no bank marked failed, nothing is read in error. -/
theorem readSources_whole {s : State} (core : Nat) (a : Agent) (h : s.poolsWhole = true) : s.readSources core a = s := by simp [State.readSources, h]

theorem readEffects_whole {s : State} (crew : Nat) (which : Eff → Bool) (h : s.poolsWhole = true) : s.readEffects crew which = s := by
  simp [State.readEffects, h]

theorem readContext_whole {s : State} (g : Gang) (h : (s.core g.core).failedBanks = []) : s.readContext g = (s, g) := by simp [State.readContext, h]

theorem readCrew_whole {s : State} (crew core : Nat) (h : s.poolsWhole = true) : s.readCrew crew core = s := by simp [State.readCrew, h]

end Sys2Proof.Machine
end

