-- ==== Sys2Proof/Laws/Region.lean ====
section
/-! SUPPORT. The coding of a region of the pool (R363): reading back what was coded gives the words coded, wherever the coder cuts its runs. -/
namespace Sys2Proof.Machine

theorem sameAs_le (w : Word) (r : List Word) : sameAs w r ≤ r.length := by
  induction r with
  | nil => simp [sameAs]
  | cons x r ih => simp only [sameAs, List.length_cons]; split <;> omega

/-- The first words of a run are copies of its word. -/
theorem take_run (w : Word) (r : List Word) (k : Nat) (h : k ≤ sameAs w r) : List.replicate k w ++ r.drop k = r := by
  induction k generalizing r with
  | zero => simp
  | succ k ih =>
    cases r with
    | nil => simp [sameAs] at h
    | cons x r =>
      simp only [sameAs] at h
      split at h
      · subst x; simp only [List.replicate_succ, List.cons_append, List.drop_succ_cons, ih r (by omega)]
      · omega

theorem runHeader_fields (kind len : Nat) (hk : kind < 4) (hl : len < 2048) :
    bitField (runHeader kind len).toNat 10 0 = len ∧ bitField (runHeader kind len).toNat 31 30 = kind := by
  simp only [bitField, runHeader, BitVec.toNat_ofNat]; omega

/-- What one record of each kind restores. -/
theorem decodeRuns_zeros (fuel len : Nat) (r : List Word) (h : len < 2048) :
    decodeRuns (fuel + 1) (runHeader 0 len :: r) = List.replicate len 0 ++ decodeRuns fuel r := by
  obtain ⟨hl, hk⟩ := runHeader_fields 0 len (by omega) h
  rw [decodeRuns]; simp only [hl, hk]

theorem decodeRuns_same (fuel len : Nat) (w : Word) (r : List Word) (h : len < 2048) :
    decodeRuns (fuel + 1) (runHeader 1 len :: w :: r) = List.replicate len w ++ decodeRuns fuel r := by
  obtain ⟨hl, hk⟩ := runHeader_fields 1 len (by omega) h
  rw [decodeRuns]; simp only [hl, hk, List.headD_cons, List.drop_succ_cons, List.drop_zero]

theorem decodeRuns_literal (fuel : Nat) (l r : List Word) (h : l.length < 2048) :
    decodeRuns (fuel + 1) (runHeader 2 l.length :: (l ++ r)) = l ++ decodeRuns fuel r := by
  obtain ⟨hl, hk⟩ := runHeader_fields 2 l.length (by omega) h
  rw [decodeRuns]; simp only [hl, hk, List.take_left', List.drop_left']

/-- Decoding undoes coding, for the words of one region and records enough for them. -/
theorem decodeRuns_codeRuns (fuel : Nat) (ws : List Word) (hf : ws.length ≤ fuel) (hw : ws.length ≤ 1024) :
    decodeRuns fuel (codeRuns fuel ws) = ws := by
  induction fuel generalizing ws with
  | zero => simp [decodeRuns, List.length_eq_zero_iff.1 (Nat.le_zero.1 hf)]
  | succ fuel ih =>
    cases ws with
    | nil => simp [codeRuns, decodeRuns]
    | cons w r =>
      simp only [List.length_cons] at hf hw
      have hs := sameAs_le w r
      have rest (k : Nat) : decodeRuns fuel (codeRuns fuel (r.drop k)) = r.drop k :=
        ih _ (by simp only [List.length_drop]; omega) (by simp only [List.length_drop]; omega)
      have hk : Config.runCut fuel % (sameAs w r + 1) ≤ sameAs w r := Nat.lt_succ_iff.1 (Nat.mod_lt _ (Nat.succ_pos _))
      have hj : Config.runCut fuel % (r.length + 1) ≤ r.length := Nat.lt_succ_iff.1 (Nat.mod_lt _ (Nat.succ_pos _))
      have run := take_run w r _ hk
      simp only [codeRuns]
      split
      · subst w
        rw [decodeRuns_zeros _ _ _ (by omega), rest]
        exact congrArg (0 :: ·) run
      · split
        · have hl : (w :: r.take (Config.runCut fuel % (r.length + 1))).length = Config.runCut fuel % (r.length + 1) + 1 := by
            simp only [List.length_cons, List.length_take]; omega
          rw [← hl, ← List.cons_append, decodeRuns_literal _ _ _ (by omega), rest, List.cons_append, List.take_append_drop]
        · rw [decodeRuns_same _ _ _ _ (by omega), rest]
          exact congrArg (w :: ·) run

end Sys2Proof.Machine
end

