-- ==== Sys2Proof/Tests/Slice0.lean ====
section
/-! SUPPORT. Tests: words written out from the encodings of the manual decode to their instructions; each check of `Instr.wf` refuses an ill-formed
term; single steps against the manual's worked examples and tables; and, for each statement, a concrete state and operands that meet its hypotheses. -/
namespace Sys2Proof.Tests
open Sys2Proof Sys2Proof.Machine
set_option Elab.async false

def h : SH := { stall := 0, lit := none }
def v : VH := { stall := 0, guard := 0, gneg := false, lit := none }
def m : MH := { ordq := .none, scope := .gang, strict := false, bm := 0, iofs := 0 }

def reads (l : List Word) (i : Instr) : Bool := decide (decodeGang (l.getD 0 0) (l.getD 1 0) (l.getD 2 0) (l.getD 3 0) (l.getD 4 0) = .ok i)
def readsCopy (l : List Word) (i : Instr) : Bool := decide (decodeCopy (l.getD 0 0) (l.getD 1 0) (l.getD 2 0) (l.getD 3 0) (l.getD 4 0) = .ok i)

def counter (s : State) (c : Ctr) : DWord := Store.get s.ctr c.ctorIdx
/- Small steps -/

/-- A FREE launch of one crew of one gang with eight base lanes, mapped at address 0. -/
def tGang : Gang := { loadedGang with base := 0xFF }
def tWorld (g : Gang) (mode : Nat := 0) : State :=
  { ((((State.reset.putLaunch 0 (loadedLaunch mode)).putCrew 0 loadedCrew).putCore 0 { part := some 0x00010102 }).putGang g) with
    cur := some (.gang g.core g.slot), tlb := [loadedLeaf], readyBits := BitVec.allOnes 64, image := true }

/-- The state and the gang after an instruction. -/
def after (i : Instr) (s : State) : State := match exec i s with
  | .next t => t
  | _ => {}
def ran (i : Instr) (g : Gang) (mode : Nat := 0) : Gang := ((after i (tWorld g mode)).gang? g.core g.slot).getD g
def lanes (g : Gang) (r : Nat) (l : List Nat) : Gang := ((List.range l.length).zip l).foldl (fun g x => g.vSet r x.1 x.2) g
def row (g : Gang) (r n : Nat) : List Nat := (List.range n).map (g.vGet r)

def tCtx : CopyCtx := { loadedCtx with k := [(1, 7), (2, 0xFFFFFFFFFFFFFFF8)] }
def cWorld (c : CopyCtx) : State := { (tWorld tGang).putCtx 0 0 c with cur := some (.copy 0 0) }
def kRan (i : Instr) (c : CopyCtx) : CopyCtx := ((after i (cWorld c)).ctx? 0 0).getD c
theorem allIssue {l : List Instr} {s : State} {g : Gang} (h : l.all (issuesB · s g) = true) : ∀ i ∈ l, Issues i s g :=
  fun i hi => issues_of (List.all_eq_true.mp h i hi)
def isNext (o : Host.Outcome State Fault Refusal) : Bool := match o with | .next _ => true | _ => false
theorem isNext_spec {o : Host.Outcome State Fault Refusal} (h : isNext o = true) : ∃ t, o = .next t := by
  cases o <;> first | exact ⟨_, rfl⟩ | cases h

/- Decoding -/

/-- Words written from R58, R63 and the entries' tables. -/
theorem test_decode_control :
    (reads [0xC5000040] (.trap 0 2 (.imm 0x45)) &&
      reads [0x40000002, 0x23456789, 1] (.trapLit 0 0 0x123456789) &&
      reads [0x00000201, 0, 0xFFFFFF9C] (.br 0 0xFFFFFF9C) &&
      reads [0x05000401, 0, 0x0000005C] (.brc h (.r 5) 0x5C) &&
      reads [0x001E0601, 0, 0x00000040] (.call 0 30 0x40) &&
      reads [0x1E000800] (.ret 0 (.r 30)) &&
      reads [0x40000802, 0x00010000, 0] (.retLit 0 0x10000) &&
      reads [0x00090A01, 0, 0xFFFFFFC0] (.loop 0 9 0xFFFFFFC0) &&
      reads [0x03000C00] (.vif 0 3) &&
      reads [0x00000E00] (.velse 0) &&
      reads [0x00001000] (.vend 0) &&
      reads [0x00001200] (.exit 0) &&
      reads [0x0000FE00] (.undef 0 0 0 0 0)) = true := by decide +kernel

/-- Words written from R58 and the entries' tables. -/
theorem test_decode_system :
    (reads [0x40011403, 0, 0, 0x00000080, 0] (.rgrow { h with lit := some 128 } 1 .lit) &&
      reads [0x02011401, 0x01000000, 0] (.rshr h 1 (.r 2)) &&
      reads [0xE8001401, 0x02000000, 0] (.sleep h (.imm 0x68)) &&
      reads [0x42031601, 0, 0] (.getsr 0 3 .cyc) &&
      reads [0xC9411601, 0x01000000, 0] (.setsr v .rmode (.s (.imm 0x49))) &&
      reads [0x04451601, 0x01000000, 1] (.setsr v .key (.v 4)) &&
      reads [0x07041601, 0x10000000, 0] (.wsel h 4 (.r 7)) &&
      reads [0x07041601, 0x11000000, 0] (.wrd h 4 (.r 7)) &&
      reads [0x0A001601, 0x120000C0, 0] (.wwr h none (.r 10) (.imm 0x40)) &&
      reads [0x00471609, 0x12000003, 0] (.wwr { h with stall := 2 } (some .dead) (.r 0) (.r 3)) &&
      reads [0xC0001601, 0x130000C0, 0] (.wres h (.imm 0x40) (.imm 0x40))) = true := by decide +kernel

/-- Words written from R58 and the entries' tables. -/
theorem test_decode_scalar :
    (reads [0x42011800] (.smov 0 1 (.sp .cyc)) &&
      reads [0x40011802, 1, 0xFFFFFFFF] (.smovLit 0 1 0xFFFFFFFF00000001) &&
      reads [0x00041A0A, 0, 1] (.sli 2 4 0x100000000) &&
      reads [0x04051C01, 0x000000BD, 0] (.sadd h .dflt 5 (.r 4) (.imm 0x3D)) &&
      reads [0x04051E01, 0x000000BD, 0] (.ssub h .dflt 5 (.r 4) (.imm 0x3D)) &&
      reads [0x04052001, 0x000000BD, 0] (.smul h .dflt 5 (.r 4) (.imm 0x3D)) &&
      reads [0x04052201, 0x000000BD, 0] (.smulh h .dflt 5 (.r 4) (.imm 0x3D)) &&
      reads [0x04052401, 6, 0] (.sand h .dflt 5 (.r 4) (.r 6)) &&
      reads [0x04052601, 6, 0] (.sor h .dflt 5 (.r 4) (.r 6)) &&
      reads [0x04052801, 6, 0] (.sxor h .dflt 5 (.r 4) (.r 6)) &&
      reads [0x04052A01, 0x00300006, 0] (.sshl h .i32 5 (.r 4) (.r 6)) &&
      reads [0x06072C01, 0x007000E1, 0] (.sshr h .n32 7 (.r 6) (.imm 0x61)) &&
      reads [0x04052E01, 6, 0] (.smin h .dflt 5 (.r 4) (.r 6)) &&
      reads [0x04053001, 0x00800006, 0] (.smax h .n64 5 (.r 4) (.r 6)) &&
      reads [0x01033201, 0x02000002, 0] (.scmp h .lt .dflt 3 (.r 1) (.r 2)) &&
      reads [0x01053401, 0x00000302, 0] (.ssel h .dflt 5 (.r 1) (.r 2) (.r 3)) &&
      reads [0x02093601, 0x00200004, 0] (.sld h false .i16 9 2 (.r 4)) &&
      reads [0x02003801, 0x00500504, 0x00000020] (.sst h true .n8 2 (.r 4) (.r 5)) &&
      reads [0x04053A01, 0x02700000, 0] (.scnt h .ctz .n32 5 (.r 4)) &&
      reads [0x05053C01, 0x010000BD, 0] (.sdiv h true .dflt 5 (.r 5) (.imm 0x3D))) = true := by decide +kernel

/-- Words written from R59 and the entries' tables. -/
theorem test_decode_vector_integer :
    (reads [0x460C4009, 0, 1] (.vmov { v with stall := 2 } .dflt 12 (.s (.sp .now))) &&
      reads [0x0408426B, 0x00380040, 2, 0x000186A0, 0] (.vadd { stall := 2, guard := 3, gneg := true, lit := some 100000 } .i32 8 (.v 4) (.s .lit)) &&
      reads [0x01034401, 2, 0] (.vsub v .dflt 3 (.v 1) (.v 2)) &&
      reads [0x01034601, 2, 0] (.vmul v .dflt 3 (.v 1) (.v 2)) &&
      reads [0x01034801, 2, 0] (.vmulh v .dflt 3 (.v 1) (.v 2)) &&
      reads [0x01034C01, 2, 0] (.vand v .dflt 3 (.v 1) (.v 2)) &&
      reads [0x01034E01, 2, 0] (.vor v .dflt 3 (.v 1) (.v 2)) &&
      reads [0x01035001, 2, 0] (.vxor v .dflt 3 (.v 1) (.v 2)) &&
      reads [0x01035201, 2, 0] (.vshl v .dflt 3 (.v 1) (.v 2)) &&
      reads [0x01035401, 2, 0] (.vshr v .dflt 3 (.v 1) (.v 2)) &&
      reads [0x01035601, 2, 0] (.vmin v .dflt 3 (.v 1) (.v 2)) &&
      reads [0x01035801, 2, 0] (.vmax v .dflt 3 (.v 1) (.v 2)) &&
      reads [0x02044A01, 0x00400906, 4] (.vmad v .i64 4 (.v 2) (.v 6) (.s (.r 9))) &&
      reads [0x01035A01, 0x00100000, 0] (.vabs v .i8 3 (.v 1)) &&
      reads [0x05025C01, 0x027000D1, 2] (.vcmp v .lt .n32 2 (.v 5) (.s (.imm 0x51))) &&
      reads [0x01035E01, 0x00900702, 0] (.vsel v .b32 3 (.v 1) (.v 2) 7) &&
      reads [0x01036001, 0x00300000, 0x00000050] (.vcvt v .i32 .n8 3 (.v 1)) &&
      reads [0x02046201, 0x03800000, 0] (.vbit v .rev .n64 4 (.v 2)) &&
      reads [0x01036401, 0x01600002, 0] (.vsat v true .n16 3 (.v 1) (.v 2))) = true := by decide +kernel

/-- Words written from R59 and the entries' tables. -/
theorem test_decode_vector_floating_point :
    (reads [0x01037001, 0x00020002, 0] (.fadd v .rtz .dflt 3 (.v 1) (.v 2)) &&
      reads [0x01037201, 0x00020002, 0] (.fsub v .rtz .dflt 3 (.v 1) (.v 2)) &&
      reads [0x01037401, 0x00020002, 0] (.fmul v .rtz .dflt 3 (.v 1) (.v 2)) &&
      reads [0x01087611, 0x00000302, 0] (.ffma { v with stall := 4 } .dflt .dflt 8 (.v 1) (.v 2) (.v 3)) &&
      reads [0x01037801, 0x00B00002, 0] (.fmin v .f16 3 (.v 1) (.v 2)) &&
      reads [0x01037A01, 0x00C00002, 0] (.fmax v .bf16 3 (.v 1) (.v 2)) &&
      reads [0x01037C01, 0x02A00002, 0] (.fsgn v (.copy (.v 2)) .f32 3 (.v 1)) &&
      reads [0x01027E01, 0x07D00002, 0] (.fcmp v .ord .f8 2 (.v 1) (.v 2)) &&
      reads [0x02038001, 0x00A10000, 0x000000D0] (.fcvt v .rne .f32 .f8 3 (.v 2)) &&
      reads [0x01038201, 0x00040000, 0] (.frint v .rup .dflt 3 (.v 1)) &&
      reads [0x02088401, 3, 0] (.fdiv v .dflt .dflt 8 (.v 2) (.v 3)) &&
      reads [0x01038601, 0x00B00000, 0] (.fsqrt v .dflt .f16 3 (.v 1)) &&
      reads [0x01038801, 0, 0] (.fclass v .dflt 3 (.v 1)) &&
      reads [0x01038A01, 0x00D1C102, 0] (.fpack v .rne .f8 .dflt 3 (.v 1) (.pack (.v 2) (.imm 0x41))) &&
      reads [0x01038A01, 0x01C000C1, 0x000000A0] (.fpack v .dflt .bf16 .f32 3 (.v 1) (.unpack (.imm 0x41)))) = true := by decide +kernel

/-- Words written from R60, R61 and the entries' tables. -/
theorem test_decode_cross_lane_and_select :
    (reads [0x0809A001, 0x000000C4, 0] (.lxch v .dflt 9 (.v 8) (.imm 0x44)) &&
      reads [0x080AA201, 0x00800005, 0] (.lbcst v .n64 10 (.v 8) (.r 5)) &&
      reads [0x430AA20D, 0x01800000, 1] (.lfirst { v with stall := 3 } .n64 10 (.s (.sp .wid))) &&
      reads [0x0403A401, 0x02000000, 0] (.lvote v .dflt (.ballot 3) (.v 4)) &&
      reads [0x0406A601, 0x08000000, 0] (.lscan v .dflt .add true .dflt 6 (.v 4)) &&
      reads [0x0406A801, 0x05900000, 0] (.lred v .xor .b32 6 (.v 4)) &&
      reads [0x040CA801, 0x10000000, 0] (.lredx v .dflt .dflt 12 (.v 4) none) &&
      reads [0x040CA801, 0x10B00005, 0x00000100] (.lredx v .dflt .f16 12 (.v 4) (some (.v 5))) &&
      reads [0x0105AA01, 0x03000002, 0] (.lmsk 0 (.andn 5 1 2)) &&
      reads [0x0414AC01, 0x00A000C8, 0] (.topk v .dflt .f32 20 (.v 4) (.imm 0x48)) &&
      reads [0x021EAE01, 0x00000603, 0] (.mpath v .dflt 30 2 3 (.r 6)) &&
      reads [0x0206AE01, 0x01000D01, 0] (.merge v .dflt 6 2 1 (.r 13)) &&
      reads [0x4407EC01, 0, 1] (.vrnd v .dflt 7 (.s (.sp .lane)))) = true := by decide +kernel

/-- Words written from R60 and the entries' tables. -/
theorem test_decode_array_and_residue :
    (reads [0x0702B001, 0, 1] (.mwld h 2 (.r 7) true) &&
      reads [0x0000B221, 0x00C00000, 0x000000C0] (.mmul { v with guard := 1 } .plus .bf16 .bf16 0 0 false) &&
      reads [0x1001B201, 0x00D00000, 0x000000E1] (.mmul v .plus .f8 .cb4 1 16 true) &&
      reads [0x0002B401, 0x01000000, 0] (.maclr 0 .min 2) &&
      reads [0x0028B601, 0x00A00005, 0x00000700] (.mard v .dflt .f32 .dflt 40 0 (.r 5) 7) &&
      reads [0x0803B801, 0x00A000C0, 0x00000300] (.mawr v .f32 .dflt 3 8 (.imm 0x40) 3) &&
      reads [0x040AC001, 0x00400000, 0] (.rfwd v .i64 .dflt 10 (.v 4)) &&
      reads [0x0A0CC201, 0x00400400, 0] (.rrev v .i64 .dflt 12 (.v 10) 4) &&
      reads [0x0A05C401, 0, 0] (.rchk v 5 (.v 10)) &&
      reads [0x0A14C601, 0x00000E03, 2] (.rmad v 20 (.v 10) (.s (.r 3)) (.v 14))) = true := by decide +kernel

/-- Words written from R61 and the entries' tables. -/
theorem test_decode_memory :
    (reads [0x0402CC01, 5, 0x000000C0] (.bset h 2 (.r 4) (.r 5)) &&
      reads [0x0208C821, 0x00A00004, 0x00500300] (.ldb { v with guard := 1 } { m with bm := 5, iofs := 3 } .f32 8 2 (.v 4)) &&
      reads [0x0200CA01, 0x00B00201, 0x00000012] (.stb v { m with ordq := .rel, scope := .dev } .f16 2 (.v 1) 2) &&
      reads [0x0006CC01, 3, 0x00000080] (.lds v m .dflt 6 (.s (.r 3))) &&
      reads [0x0000CE01, 0x00300903, 0x00000100] (.sts v { m with iofs := 1 } .i32 (.v 3) 9) &&
      reads [0x0206CC01, 0x01100003, 0] (.ldc v m .i8 6 (.r 2) (.v 3)) &&
      reads [0x0200CE01, 0x01600603, 0] (.stc v m .n16 (.r 2) (.v 3) 6) &&
      reads [0x0306D001, 0x07300702, 0x09000000] (.atm v m .cas .i32 6 3 (.v 2) 7 9) &&
      reads [0x0100D201, 0x00B00302, 0] (.redx v m .f16 1 (.v 2) 3 none) &&
      reads [0x0200D241, 0x00000D0B, 0x10000040] (.redx { v with guard := 2 } m .dflt 2 (.v 11) 13 (some 16)) &&
      reads [0x0202D201, 0x01A00001, 0x00000040] (.xrnd v m .dflt true .f32 2 2 (.v 1)) &&
      reads [0x040AD401, 2, 0x09000095] (.vldv h { m with ordq := .acq, scope := .sys } 10 9 4 (.r 2)) &&
      reads [0x0409D401, 0x01000A02, 0x03000080] (.vstv h m 9 4 (.r 2) 10 (.r 3)) &&
      reads [0x0000D601, 0x04000000, 0] (.fence 0 .dev)) = true := by decide +kernel

/-- Words written from R61 and the entries' tables. -/
theorem test_decode_posts_latches_and_barriers :
    (reads [0x1013D801, 0x0000000B, 0x00000034] (.cpost v 19 (.r 16) (.r 11) 0x34) &&
      reads [0x0208D801, 0x01000504, 0x02BF0030] (.cgath v 8 2 4 (.r 5) (.r 2) (.imm 0x3F) 3) &&
      reads [0x0109D801, 0x02000504, 0x0B0C0000] (.cscat v 9 1 4 (.r 5) (.r 11) (.r 12) 0) &&
      reads [0x0109D881, 0x0300C0C0, 0x0BBF00F0] (.ccopy { v with guard := 4 } 9 1 (.imm 0x40) (.imm 0x40) (.r 11) (.imm 0x3F) 15) &&
      reads [0x0109D801, 0x03000504, 0x0B0C0031] (.ccopyOut v 9 1 (.r 4) (.r 5) (.r 11) (.r 12) 3) &&
      reads [0x0109D801, 0x03000504, 0x0B000002] (.ccopyTr v 9 1 (.r 4) (.r 5) (.r 11)) &&
      reads [0x0109D801, 0x04000504, 0x0B0C0031] (.cchain v true 9 1 4 (.r 5) (.r 11) (.r 12) 3) &&
      reads [0x0200DA01, 0x000000C1, 0] (.lati h (.r 2) (.imm 0x41)) &&
      reads [0x0200DA01, 0x0100C0C1, 0] (.larv h (.r 2) (.imm 0x41) (.imm 0x40)) &&
      reads [0x0100DA01, 0x02000002, 0] (.lrst h (.r 1) (.r 2)) &&
      reads [0x0203DC01, 0x000000C0, 0] (.lwait h 3 (.r 2) (.imm 0x40)) &&
      reads [0x0104DC01, 0x01000302, 1] (.pwait h true 4 (.r 1) (.r 2) (.r 3)) &&
      reads [0xC000DE01, 0x01000000, 0] (.owait h .st (.imm 0x40)) &&
      reads [0xC000E801, 0, 0] (.cbar h (.imm 0x40)) &&
      reads [0x0100EA01, 0, 0] (.gbar h (.r 1))) = true := by decide +kernel

/-- Words written from R61 and the entries' tables. -/
theorem test_decode_events :
    (reads [0x0414E001, 0x000006C3, 2] (.evs v 0 false 20 (.v 4) (.s (.imm 0x43)) (.v 6)) &&
      reads [0x060EE041, 0x000008C0, 0x0000000A] (.evs { v with guard := 2 } 0 true 14 (.v 6) (.s (.imm 0x40)) (.v 8)) &&
      reads [0x0800E201, 0x0000000A, 0] (.evc v (.v 8) (.v 10)) &&
      reads [0x000CE401, 0, 0x00000010] (.evr v .serial 12) &&
      reads [0xC100E601, 0, 1] (.evx v (.s (.imm 0x41)))) = true := by decide +kernel

/-- Words written from R62, by the copy processor's decoder and the entries' tables. -/
theorem test_decode_copy :
    (readsCopy [0x0103F001, 0, 0] (.kmov h 3 (.k 1)) &&
      readsCopy [0x0104F001, 0x010000F0, 0] (.kadd h 4 (.k 1) (.imm 0x70)) &&
      readsCopy [0x0103F001, 0x02000002, 0] (.ksub h 3 (.k 1) (.k 2)) &&
      readsCopy [0x0103F001, 0x03000002, 0] (.kmul h 3 (.k 1) (.k 2)) &&
      readsCopy [0x0103F001, 0x04000002, 0] (.kshl h 3 (.k 1) (.k 2)) &&
      readsCopy [0x0103F001, 0x06000002, 0] (.kand h 3 (.k 1) (.k 2)) &&
      readsCopy [0x0103F001, 0x054000C4, 0] (.kshr h .i64 3 (.k 1) (.imm 0x44)) &&
      readsCopy [0x0103F001, 0x07800002, 3] (.kcmp h .n64 .le 3 (.k 1) (.k 2)) &&
      readsCopy [0x0100F201, 0, 0x00000018] (.kbr h (.k 1) 0x18) &&
      readsCopy [0x0001F201, 0x01000000, 0xFFFFFFE8] (.kloop 0 1 0xFFFFFFE8) &&
      readsCopy [0x0000F201, 0x02000000, 0] (.kend 0) &&
      readsCopy [0x0100F201, 0x03000002, 0] (.karv h (.k 1) (.k 2)) &&
      readsCopy [0x0100F201, 0x04000002, 0] (.kprom h (.k 1) (.k 2)) &&
      readsCopy [0x0206F401, 0x00700000, 0] (.kld 0 .n32 6 2) &&
      readsCopy [0x0102F401, 0x01000000, 0] (.gset h 2 (.k 1)) &&
      readsCopy [0x0203F401, 0x02000000, 0] (.gstep 0 3 2) &&
      readsCopy [0x0100F601, 5, 0] (.xcopy h 0 1 (.k 5)) &&
      readsCopy [0x0100F601, 0x0100D006, 0] (.xgath h 0 1 (.k 6) (.imm 0x50)) &&
      readsCopy [0x0100F601, 0x02000706, 0] (.xscat h 0 1 (.k 6) (.k 7)) &&
      readsCopy [0x0500F601, 0x03000002, 0] (.xtran h (.k 5) 2) &&
      readsCopy [0x0501F601, 0x04000006, 0] (.xfill h 1 (.k 5) (.k 6)) &&
      readsCopy [0x0104F601, 0x05000206, 0] (.xcopyv h 4 1 (.k 6) 2)) = true := by decide +kernel


/- Ill-formed terms -/

/-- Ill-formed: literal and operand rules (R45, R46, R48). -/
theorem test_ill_literal_and_operand_rules :
    ([.sadd { h with lit := some 5 } .dflt 1 (.r 2) (.r 3),
      .sadd h .dflt 1 .lit (.r 3),
      .trap 0 0 .lit,
      .ret 0 .lit,
      .smov 0 1 .lit,
      .brc h (.sp .lane) 8,
      .sadd h .dflt 1 (.sp .wid) (.r 3)] : List Instr).all (fun i => !i.wf) = true := by decide +kernel

/-- Ill-formed: branch offsets and LOOP (R53, R95). -/
theorem test_ill_branch_offsets_and_LOOP :
    ([.br 0 2,
      .brc h (.r 1) 1,
      .call 0 1 6,
      .loop 0 1 2,
      .loop 0 0 4,
      .cpost v 1 (.r 1) (.r 2) 2,
      .kbr h (.k 1) 2,
      .kloop 0 1 2] : List Instr).all (fun i => !i.wf) = true := by decide +kernel

/-- Ill-formed: system rows (R119 to R121, R348). -/
theorem test_ill_system_rows :
    ([.getsr 0 1 .wid,
      .setsr v .cyc (.s (.r 1)),
      .setsr { v with guard := 1 } .rmode (.s (.r 1)),
      .setsr v .deny (.v 1),
      .wwr h (some .rmode) (.r 1) (.r 2)] : List Instr).all (fun i => !i.wf) = true := by decide +kernel

/-- Ill-formed: scalar types (R115). -/
theorem test_ill_scalar_types :
    ([.sadd h .i8 1 (.r 2) (.r 3),
      .sdiv h false .f32 1 (.r 2) (.r 3),
      .sand h .i64 1 (.r 2) (.r 3),
      .ssel h .n32 1 (.r 2) (.r 3) (.r 4),
      .scmp h .un .dflt 1 (.r 2) (.r 3),
      .sld h false .f32 1 0 (.r 2),
      .sst h false .b32 0 (.r 2) (.r 3),
      .scnt h .popc .i64 1 (.r 2)] : List Instr).all (fun i => !i.wf) = true := by decide +kernel

/-- Ill-formed: vector integer types (R133 to R135). -/
theorem test_ill_vector_integer_types :
    ([.vmov v .i32 1 (.v 2),
      .vadd v .f32 1 (.v 2) (.v 3),
      .vmulh v .i8 1 (.v 2) (.v 3),
      .vand v .i32 1 (.v 2) (.v 3),
      .vsel v .n32 1 (.v 2) (.v 3) 4,
      .vabs v .n32 1 (.v 2),
      .vcmp v .ord .dflt 1 (.v 2) (.v 3),
      .vcvt v .dflt .i32 1 (.v 2),
      .vbit v .popc .i32 1 (.v 2),
      .vsat v false .b32 1 (.v 2) (.v 3),
      .vmad v .f16 1 (.v 2) (.v 3) (.v 4)] : List Instr).all (fun i => !i.wf) = true := by decide +kernel

/-- Ill-formed: pairs of registers (R2, R128). -/
theorem test_ill_pairs_of_registers :
    ([.vadd v .i64 1 (.v 2) (.v 4),
      .vadd v .i64 2 (.v 3) (.v 4),
      .topk v .dflt .dflt 21 (.v 4) (.r 1),
      .mpath v .dflt 31 2 4 (.r 1),
      .rfwd v .dflt .dflt 11 (.v 4),
      .rmad v 20 (.v 11) (.v 12) (.v 14),
      .evs v 0 false 21 (.v 4) (.v 6) (.v 8)] : List Instr).all (fun i => !i.wf) = true := by decide +kernel

/-- Ill-formed: floating-point types (R137 to R140). -/
theorem test_ill_floating_point_types :
    ([.fadd v .dflt .i32 1 (.v 2) (.v 3),
      .fcvt v .dflt .i32 .i64 1 (.v 2),
      .fcvt v .dflt .b32 .f32 1 (.v 2),
      .fdiv v .dflt .f8 1 (.v 2) (.v 3),
      .fsqrt v .dflt .f8 1 (.v 2),
      .fpack v .dflt .f32 .dflt 1 (.v 2) (.pack (.v 3) (.r 0)),
      .fpack v .dflt .dflt .f16 1 (.v 2) (.pack (.v 3) (.r 0)),
      .fpack v .dflt .f16 .dflt 1 (.v 2) (.pack (.v 3) (.r 1)),
      .fpack v .rne .f16 .dflt 1 (.v 2) (.unpack (.r 1))] : List Instr).all (fun i => !i.wf) = true := by decide +kernel

/-- Ill-formed: cross-lane and select rows (R142 to R154). -/
theorem test_ill_cross_lane_and_select_rows :
    ([.lxch v .f32 1 (.v 2) (.r 1),
      .lbcst v .i32 1 (.v 2) (.r 1),
      .lfirst v .f32 1 (.v 2),
      .lvote v .i32 (.any 1) (.v 2),
      .lscan v .dflt .and false .f32 1 (.v 2),
      .lscan v .rne .min false .f32 1 (.v 2),
      .lred v .add .f32 1 (.v 2),
      .lred v .or .f32 1 (.v 2),
      .lredx v .dflt .i8 1 (.v 2) none,
      .lredx v .dflt .i32 1 (.v 2) (some (.v 3)),
      .topk v .dflt .f8 20 (.v 4) (.r 1),
      .mpath v .f16 30 2 3 (.r 1),
      .merge v .n64 30 2 4 (.r 1),
      .vrnd v .i32 1 (.v 2)] : List Instr).all (fun i => !i.wf) = true := by decide +kernel

/-- Ill-formed: array and residue rows (R173, R178, R201). -/
theorem test_ill_array_and_residue_rows :
    ([.mmul v .plus .f8 .bf16 0 0 false,
      .mmul v .or .bf16 .bf16 0 0 false,
      .mmul v .min .i8 .i8 0 0 false,
      .mard v .dflt .i8 .dflt 1 0 (.r 1) 0,
      .mard v .dflt .f32 .n8 1 0 (.r 1) 0,
      .mard v .dflt .dflt .dflt 250 0 (.r 1) 7,
      .mawr v .i8 .dflt 0 1 (.r 1) 0,
      .mawr v .n32 .i64 0 2 (.r 1) 0,
      .rfwd v .n32 .dflt 2 (.v 4),
      .rfwd v .i32 .i8 2 (.v 4),
      .rrev v .i8 .dflt 2 (.v 4) 1] : List Instr).all (fun i => !i.wf) = true := by decide +kernel

/-- Ill-formed: memory rows (R52, R206, R225 to R229). -/
theorem test_ill_memory_rows :
    ([.ldb v { m with ordq := .rel } .dflt 1 0 (.v 2),
      .ldb v { m with scope := .dev } .dflt 1 0 (.v 2),
      .ldb v m .cb4 1 0 (.v 2),
      .stb v { m with ordq := .acq } .dflt 0 (.v 2) 3,
      .stb v m .cb4 0 (.v 2) 3,
      .lds v { m with strict := true } .dflt 1 (.v 2),
      .ldc v { m with strict := true } .dflt 1 (.r 1) (.v 2),
      .sts v { m with ordq := .acqrel } .dflt (.v 1) 2,
      .stc v { m with strict := true } .dflt (.r 1) (.v 1) 2,
      .atm v m .add .i8 1 0 (.v 2) 3 0,
      .atm v m .add .i32 1 0 (.v 2) 3 4,
      .redx v m .i8 0 (.v 1) 2 none,
      .redx v m .i32 0 (.v 1) 2 (some 3),
      .xrnd v { m with ordq := .rel } .dflt false .f32 1 0 (.v 2),
      .xrnd v m .dflt false .b32 1 0 (.v 2),
      .vldv h { m with bm := 1 } 1 2 0 (.r 1),
      .vstv h { m with ordq := .acq } 2 0 (.r 1) 3 (.r 4)] : List Instr).all (fun i => !i.wf) = true := by decide +kernel

/-- Ill-formed: chains and the copy class (R258, R266, R268). -/
theorem test_ill_chains_and_the_copy_class :
    ([.cchain v false 1 15 4 (.r 5) (.r 6) (.r 7) 0,
      .cchain v true 1 14 4 (.r 5) (.r 6) (.r 7) 0,
      .kshr h .n32 1 (.k 1) (.k 2),
      .kcmp h .i32 .eq 1 (.k 1) (.k 2),
      .kcmp h .dflt .un 1 (.k 1) (.k 2),
      .kld 0 .f32 1 0,
      .kadd h 1 .lit (.k 2)] : List Instr).all (fun i => !i.wf) = true := by decide +kernel


/- Steps -/

/-- R113, R118: the manual's listing: `SADD s5, s4, -3` with 2^32 in `s4` gives 0xFFFF_FFFD and goes on 12 bytes later. -/
theorem test_step_sadd :
    let g := ran (.sadd h .dflt 5 (.r 4) (.imm 0x3D)) (tGang.sSet 4 0x100000000)
    g.sGet 5 = 0xFFFFFFFD ∧ g.pc = 12 := by decide +kernel
/-- R118's example: a shift by 33 of a 32-bit value is 0. -/
theorem test_step_sshr : (ran (.sshr h .n32 7 (.r 6) (.imm 0x61)) (tGang.sSet 6 0xFFFFFFFF)).sGet 7 = 0 := by decide +kernel
/-- R118's example: −7 rem −3 is −1. -/
theorem test_step_sdiv : (ran (.sdiv h true .dflt 5 (.r 5) (.imm 0x3D)) (tGang.sSet 5 (BitVec.ofInt 64 (-7)))).sGet 5 = BitVec.allOnes 64 := by
  decide +kernel
/-- R1: `s0` discards what is written. -/
theorem test_step_s0 : (ran (.smov 0 0 (.imm 0x45)) tGang).sGet 0 = 0 := by decide +kernel
/-- R95: LOOP at 1 falls through, at 0 it wraps and branches. -/
theorem test_step_loop :
    (ran (.loop 0 9 0xFFFFFFC0) { tGang.sSet 9 1 with pc := 0x100 }).pc = 0x10C ∧
      (ran (.loop 0 9 0xFFFFFFC0) { tGang with pc := 0x100 }).pc = 0xC0 := by decide +kernel
/-- R95, R96: CALL keeps the address 12 bytes on, and RET goes there. -/
theorem test_step_call : (ran (.call 0 30 0x40) { tGang with pc := 0x100 }).sGet 30 = 0x10C ∧ (ran (.call 0 30 0x40) { tGang with pc := 0x100 }).pc = 0x140 ∧
    (ran (.ret 0 (.r 30)) (tGang.sSet 30 0x10C)).pc = 0x10C := by decide +kernel
/-- R98: VELSE gives the lanes of the region that VIF left out. -/
theorem test_step_velse :
    (ran (.vif 0 3) (tGang.mSet 3 0xF0F)).top = 0x0F ∧ (ran (.velse 0) { ran (.vif 0 3) (tGang.mSet 3 0xF0F) with notBefore := 0, pend := [] }).top = 0xF0 := by decide +kernel
/-- R133: integer addition wraps in the type and zero-extends in the register; a lane that is not active keeps its value. -/
theorem test_step_vadd :
    row (ran (.vadd { v with guard := 1 } .n8 3 (.v 1) (.v 2)) ((lanes (lanes (lanes tGang 1 [255, 7]) 2 [2, 7]) 3 [9, 9]).mSet 1 1)) 3 2 = [1, 9] := by
  decide +kernel
/-- The manual's three terms (R29): 2^24 + 1 under RNE is 2^24. -/
theorem test_step_fadd : row (ran (.fadd v .rne .f32 3 (.v 1) (.v 2)) (lanes (lanes tGang 1 [0x4B800000]) 2 [0x3F800000])) 3 1 = [0x4B800000] := by
  decide +kernel
/-- R32's example: 230.0 to F8 under RUP is 0x7E. -/
theorem test_step_fcvt : row (ran (.fcvt v .rup .f32 .f8 3 (.v 2)) (lanes tGang 2 [0x43660000])) 3 1 = [0x7E] := by decide +kernel
/-- The manual's three terms: summed exactly, 2^24, 1 and −2^24 give 1.0. -/
theorem test_step_lredx :
    row (ran (.lredx v .dflt .dflt 12 (.v 4) none) { lanes tGang 4 [0x4B800000, 0x3F800000, 0xCB800000] with base := 7 }) 12 3 =
      [0x3F800000, 0x3F800000, 0x3F800000] := by decide +kernel

/-- The gang of "A gang with a dead lane": lane 2 dead. -/
def deadGang : Gang := (lanes { tGang with dead := 4 } 4 [5, 9, 7, 9, 0xFFFFFFFE, 0, 3, 9]).mSet 2 0xF4
theorem test_step_lxch : row (ran (.lxch v .dflt 5 (.v 4) (.imm 0x41)) deadGang) 5 8 = [9, 5, 0, 0, 0, 0xFFFFFFFE, 9, 3] := by decide +kernel
theorem test_step_lscan : row (ran (.lscan v .dflt .add true .dflt 6 (.v 4)) deadGang) 6 8 = [0, 5, 0, 14, 23, 21, 21, 24] := by decide +kernel
theorem test_step_lred : row (ran (.lred v .max .dflt 7 (.v 4)) deadGang) 7 8 = [9, 9, 0, 9, 9, 9, 9, 9] := by decide +kernel
theorem test_step_lfirst : (ran (.lfirst { v with guard := 2 } .i32 3 (.v 4)) deadGang).sGet 3 = 0xFFFFFFFFFFFFFFFE := by decide +kernel
theorem test_step_lvote : (ran (.lvote v .dflt (.ballot 3) (.v 4)) deadGang).mGet 3 = 0xDB := by decide +kernel
theorem test_step_topk :
    let g := ran (.topk v .dflt .i32 8 (.v 4) (.imm 0x43)) deadGang
    row g 8 4 = [9, 9, 9, 0] ∧ row g 9 4 = [1, 3, 7, 0] ∧ row g 10 3 = [27, 27, 0] ∧ row g 11 3 = [6, 6, 0] := by decide +kernel
/-- The lists of R153's example: 2, 4, 4 and 4, 5. -/
def listGang : Gang := lanes (lanes tGang 2 [2, 4, 4]) 4 [4, 5]
theorem test_step_merge :
    let g := ran (.merge v .dflt 30 2 4 (.r 5)) (listGang.sSet 5 (3 + 2 * 256))
    row g 30 6 = [2, 4, 4, 4, 5, 0] ∧ row g 31 6 = [0, 1, 2, 0x80000000, 0x80000001, 0xFFFFFFFF] := by decide +kernel
theorem test_step_mpath :
    let g := ran (.mpath v .dflt 30 2 4 (.r 5)) (listGang.sSet 5 (3 + 2 * 256 + 2 * 65536))
    (row g 30 2).getD 1 9 = 2 ∧ (row g 31 2).getD 1 9 = 0 := by decide +kernel

/-- "A corrupted channel": −5 in lane 0. -/
def fiveGang : Gang := lanes (lanes { tGang with base := 1 } 4 [0xFFFFFFFB]) 5 [0xFFFFFFFF]
theorem test_step_rfwd : let g := ran (.rfwd v .i64 .dflt 10 (.v 4)) fiveGang; row g 10 1 = [0xE4EAECF6] ∧ row g 11 1 = [0xCEDADEE0] := by decide +kernel
theorem test_step_rchk :
    (ran (.rchk v 5 (.v 10)) (lanes (lanes fiveGang 10 [0xE4EAECF6]) 11 [0xCEDADEE0])).mGet 5 = 1 ∧
      (ran (.rchk v 5 (.v 10)) (lanes (lanes fiveGang 10 [0x00EAECF6]) 11 [0xCEDADEE0])).mGet 5 = 0 := by decide +kernel
theorem test_step_rrev :
    let g := ran (.rrev v .i64 .dflt 12 (.v 10) 4) (lanes (lanes fiveGang 10 [0x00EAECF6]) 11 [0xCEDADEE0])
    row g 12 1 = [0xFFFFFFFB] ∧ row g 13 1 = [0xFFFFFFFF] ∧ g.mGet 4 = 0 := by decide +kernel

/-- "A gather with an out-of-bounds tail", with its record at address 0 of the mapped page. -/
theorem test_step_ldb :
    let s := tWorld ((lanes tGang 4 [0, 1, 2, 5, 6, 7, 2, 9]).bSet 2 (0x0000000C0000000A0400000000000000 : BitVec 128))
    let s := s.physWrite (loadedFrame * 4096 + 36) (clean (leBytes 4 0x41100000))
    let s := s.physWrite (loadedFrame * 4096 + 108) (clean (leBytes 4 0x41D80000))
    let g := ((after (.ldb v { m with bm := 5, iofs := 3 } .f32 8 2 (.v 4)) s).gang? 0 0).getD tGang
    row g 8 8 = [0x41100000, 0, 0, 0, 0x41D80000, 0, 0, 0] ∧ g.mGet 5 = 0xA0 := by decide +kernel
/-- R222, R81: the highest lane that names an address leaves its value; R1: an `n8` store writes one byte. -/
theorem test_step_stb :
    let s := tWorld ((lanes (lanes { tGang with base := 3 } 4 [1, 1]) 6 [0x1AA, 0x2BB]).bSet 2 (0x00000001000000080000000000000000 : BitVec 128))
    (after (.stb v m .n8 2 (.v 4) 6) s).mem = [(loadedFrame * 4096 + 1, 0xBB)] := by decide +kernel
/-- R227: each lane takes the old value in turn. -/
theorem test_step_atm :
    let s := tWorld ((lanes (lanes { tGang with base := 3 } 4 [1, 1]) 6 [5, 7]).bSet 2 (0x00000004000000080400000000000000 : BitVec 128))
    let t := after (.atm v m .add .i32 8 2 (.v 4) 6 0) s
    row ((t.gang? 0 0).getD tGang) 8 2 = [0, 5] ∧ t.mem = [(loadedFrame * 4096 + 4, 12)] := by decide +kernel
/-- R82: in a PHASED launch a store changes no byte of memory. -/
theorem test_step_phased :
    let s := tWorld ((lanes (lanes { tGang with base := 1 } 4 [1]) 6 [5]).bSet 2 (0x00000004000000080400000000000000 : BitVec 128)) 1
    let t := after (.stb v m .dflt 2 (.v 4) 6) s
    t.mem = [] ∧ ((t.crew? 0).map (fun c => c.effects.length)) = some 1 := by decide +kernel

/-- "A handler that repairs invalid lanes": the stop of the FDIV, with its words of R343. -/
def trapWorld : State :=
  (tWorld (lanes { tGang with base := 15, slot := 5, pc := 0x10040, rmode := 0x80, wid := [(1, 7)] } 2 [0x3F800000, 0, 0x40000000, 0])).setCtxReg 0 0x40 0x20000
theorem test_step_lane_trap :
    let t := after (.fdiv v .dflt .dflt 8 (.v 2) (.v 3)) trapWorld
    row ((t.gang? 0 5).getD tGang) 8 4 = [0x7F800000, 0, 0x7F800000, 0] ∧
      ((t.core 0).stops.map (fun x => (x.word 0, x.word 1, x.word 2, x.word 3))) = [(0x0005051F, 0x10040, 0xA, 0x0000000302088401)] := by decide +kernel
/-- R342: the run that serves it starts at HENTRY with the record in `s1` on. -/
theorem test_step_handler :
    let t := after (.handlerRunStart 0) (after (.fdiv v .dflt .dflt 8 (.v 2) (.v 3)) trapWorld)
    ((t.gang? 0 32).map (fun g => (g.pc, g.sGet 1, g.sGet 3, g.sGet 6))) = some (0x20000, 0x0005051F, 0xA, 0) := by decide +kernel
/-- R63, R338: OPC 0x7F is ILLEGAL with DETAIL 1. -/
theorem test_step_undef :
    ((after (.undef 0 0 0 0 0) trapWorld).core 0).stops.map (fun x => (x.cause, x.detail)) = [(1, 1)] := by decide +kernel
/-- R345: a trap in the handler slot ends the run. -/
theorem test_step_double_fault :
    let s := after (.handlerRunStart 0) (after (.undef 0 0 0 0 0) trapWorld)
    (((after (.vend 0) { s with cur := some (.gang 0 32) }).core 0).run) = none := by decide +kernel
/-- R121: writing 1001 to `$rmode` selects RTZ with SAT. -/
theorem test_step_setsr : (ran (.setsr v .rmode (.s (.imm 0x49))) tGang).rmode = 9 := by decide +kernel
/-- R101: SLEEP 40 leaves the gang not ready for 40 cycles. -/
theorem test_step_sleep : (ran (.sleep h (.imm 0x68)) tGang).stat = .sleeping 40 := by decide +kernel
/-- R277: LATI with count 1, then LARV of 1 completes the phase. -/
theorem test_step_latch :
    let s := after (.lati h (.r 2) (.imm 0x41)) (tWorld (tGang.sSet 2 32))
    let t := after (.larv h (.r 2) (.imm 0x41) (.imm 0x40)) (s.modGang 0 0 (fun g => { g with notBefore := 0 }))
    latchPhase (s.latch 0 32) = 0 ∧ latchArrive (s.latch 0 32) = 1 ∧ latchPhase (t.latch 0 32) = 1 ∧ latchArrive (t.latch 0 32) = 1 := by decide +kernel
/-- R286: a crew of one gang completes its barrier at once. -/
theorem test_step_cbar :
    let t := after (.cbar h (.imm 0x40)) (tWorld tGang)
    ((t.crew? 0).map (fun c => c.bar)) = some { phase := 1, arrived := 0 } ∧ ((t.gang? 0 0).map (·.stat)) = some .ready := by decide +kernel
/-- R376: the first child of event 0 of span 1 has SERIAL 0x1_0000_0000 (the ring program's first row). -/
theorem test_step_evs :
    let e : LaneEv := { ev := { time := 10, serial := 1, handler := 0, prio := 0, princ := 0x51, pay := 0 }, idx := 0, aborts := 0 }
    let g := { tGang with base := 1, evs := [(0, e)], now := [(0, 10)] }
    let s := (tWorld g 2).putLaunch 0 { loadedLaunch 2 with span := some { no := 1, running := true } }
    let u := ((after (.evs v 0 false 14 (.s (.imm 0x40)) (.s (.imm 0x40)) (.v 8)) s).gang? 0 0).getD tGang
    row u 14 1 = [0] ∧ row u 15 1 = [1] := by decide +kernel
/-- R172, R180: the manual's image of 64 zero columns but one has 64 qualifying groups; MWLD gives 0. -/
theorem test_step_mwld :
    let x : Slot := { img := [(0, 0x80), (1, 0x3F), (3, 0x3B), (4, 0x80), (5, 0x3F), (7, 0x3F), (8224, 12)] }
    let s := { tWorld (tGang.sSet 7 7) with leases := [{ core := 0, launch := 0, size := 8, slots := [(7, x)] }] }
    let s := s.putLaunch 0 { loadedLaunch 0 with pkt := { loadedPacket 0 with tlease := 8 } }
    let t := after (.mwld h 2 (.r 7) false) s
    ((t.gang? 0 0).map (fun g => g.sGet 2)) = some 0 ∧ counter t .zskipGroups = 64 := by decide +kernel
/-- R177, R178: a cleared PLUS tile reads +0, and what MAWR puts into it reads back. -/
theorem test_step_tile :
    let g := lanes { tGang with base := 1 } 8 [0x3B800000]
    let s := after (.mawr v .f32 .dflt 0 8 (.imm 0x40) 0) (tWorld g)
    let s := { s with gangs := (tWorld g).gangs }
    row (((after (.mard v .dflt .f32 .dflt 40 0 (.imm 0x40) 1) s).gang? 0 0).getD g) 40 1 = [0x3B800000] ∧
      row (((after (.mard v .dflt .f32 .dflt 40 0 (.imm 0x40) 1) s).gang? 0 0).getD g) 41 1 = [0] := by decide +kernel

/- The copy processor -/

/-- R266: KSHR of an `.i64` is a floor; KADD wraps; KCMP compares `.n64` as naturals. -/
theorem test_step_k :
    (kRan (.kshr h .i64 3 (.k 2) (.imm 0x44)) tCtx).kGet 3 = BitVec.allOnes 64 ∧ (kRan (.kadd h 4 (.k 1) (.imm 0x70)) tCtx).kGet 4 = 55 ∧
      (kRan (.kcmp h .n64 .le 5 (.k 2) (.k 1)) tCtx).kGet 5 = 0 ∧ (kRan (.kcmp h .dflt .le 5 (.k 2) (.k 1)) tCtx).kGet 5 = 1 := by decide +kernel
/-- R267: KLOOP branches until its register is 0. -/
theorem test_step_kloop : (kRan (.kloop 0 1 0xFFFFFFE8) { tCtx with pc := 0x40 }).pc = 0x28 := by decide +kernel

/- The engines, the host and a step -/

/-- R321: a kick moves WIDX when the value is in the window, else it is counted. -/
theorem test_step_kick :
    let s := { State.reset with readyBits := BitVec.allOnes 64 }.setQ 3 0 (2 ^ 63)
    (after (.kickWrite 3 0) s).qWidx 3 = 0 ∧ counter (after (.kickWrite 3 (2 ^ 48)) s) .kickRejected = 1 := by decide +kernel
/-- R396: FQ_STATUS clears by a write of ones; a base must lie on 4 KiB. -/
theorem test_step_register :
    (after (.registerWrite 1 0x38 1) (State.reset.setCtxReg 1 0x38 3)).ctxReg 1 0x38 = 2 ∧
      (after (.registerWrite 1 0x00 0x1001) (State.reset.setCtxReg 1 0 0x2000)).ctxReg 1 0 = 0x2000 := by decide +kernel
/-- R404: module reset before any image leaves memory and lowers READY. -/
theorem test_step_reset :
    let t := after .moduleReset { (tWorld tGang).physWrite 5 [(9, false)] with image := false }
    t.mem = [(5, 9)] ∧ t.gangs = [] ∧ t.readyBits = 0 := by decide +kernel
/-- R361: after a fatal error nothing runs. -/
theorem test_step_fatal :
    let s := { tWorld tGang with fatal := some 2, picks := [.gang 0 0] }
    (match step s with
      | .next t => decide (t = s)
      | _ => false) = true := by decide +kernel
/-- A step runs the word at the PC: NOP, 0x0000_1800, goes on by 4. -/
theorem test_step_runs : (match step (State.reset.withFetchWord 32 0x00001800) with
    | .next t => (t.gang? 0 0).map (·.pc)
    | _ => none) = some 4 := by decide +kernel

/- Each statement's hypotheses are met: a concrete state and operands for each of its clauses. -/

def W : State := tWorld tGang
def five : Sc := .imm 0x45
def zero : Sc := .imm 0x40

/-- The handler slot of core 0, serving the stop of gang 0 at a LANE_TRAP, under HPRIV. -/
def hGang : Gang := { tGang with slot := 32, base := BitVec.allOnes 64 }
def hStop : Stop := { loadedStop with cause := 31, replay := 3, pc := 0x20, next := 0x28 }
def stoppedGang : Gang := { tGang with stat := .stopped, pc := 0x20 }
def HW : State :=
  { (((tWorld stoppedGang).putGang hGang).putCore 0 { part := some 0x00010102, run := some { stop := hStop, sel := some 0 } }).setCtxReg 0 0x50 1 with
    cur := some (.gang 0 32) }

def scalarForms : List Instr :=
  [.smov 0 0 five, .smovLit 0 63 5, .sli 0 1 5, .sadd h .i32 1 (.r 2) five, .ssub h .n64 1 five (.r 2), .smul h .dflt 1 five five,
   .smulh h .i64 1 five five, .sand h .dflt 1 five (.r 2), .sor h .dflt 1 five (.r 2), .sxor h .dflt 1 five (.r 2), .sshl h .dflt 1 five (.imm 0x7F),
   .sshr h .dflt 1 five (.imm 0x7F), .smin h .dflt 1 five five, .smax h .dflt 1 five five, .scmp h .lt .dflt 1 five five, .ssel h .dflt 1 five zero zero,
   .scnt h .ctz .dflt 1 five]
theorem witness_ScalarRowsComplete :
    (∀ i ∈ scalarForms, Issues i W tGang ∧ (scalarRow W tGang i).isSome = true) ∧
      Issues (.sdiv h true .dflt 1 five zero) W tGang ∧ Issues (.sdiv h false .dflt 0 five (.imm 0x3F)) W tGang :=
  ⟨fun i hi => ⟨allIssue (by decide +kernel) i hi, by revert i; decide +kernel⟩, issues_of (by decide +kernel), issues_of (by decide +kernel)⟩

def intForms : List Instr :=
  [.vmov v .dflt 255 (.v 1), .vadd v .n8 3 (.v 1) (.v 2), .vsub v .dflt 3 (.v 1) (.v 2), .vmul v .i64 2 (.v 4) (.v 6), .vmulh v .dflt 3 (.v 1) (.v 2),
   .vmad v .dflt 3 (.v 1) (.v 2) (.v 3), .vand v .dflt 3 (.v 1) (.v 2), .vor v .dflt 3 (.v 1) (.v 2), .vxor v .dflt 3 (.v 1) (.v 2),
   .vshl v .dflt 3 (.v 1) (.s (.imm 0x60)), .vshr v .dflt 3 (.v 1) (.v 2), .vmin v .dflt 3 (.v 1) (.v 2), .vmax v .dflt 3 (.v 1) (.v 2),
   .vabs v .dflt 3 (.v 1), .vsel v .dflt 3 (.v 1) (.v 2) 0, .vcvt v .i32 .i64 2 (.v 1), .vbit v .rev .dflt 3 (.v 1),
   .vsat v true .dflt 3 (.v 1) (.v 2)]
/-- Two live active lanes, every source clean. -/
def G2 : Gang := lanes { tGang with base := 3 } 2 [0x3F800000, 0x40000000]
theorem witness_VectorIntegerRowsComplete :
    ∀ i ∈ intForms, ∃ r, Issues i (tWorld G2) G2 ∧ intRow (tWorld G2) G2 i = some r ∧ G2.CleanIn (G2.acting i) r.regs ∧ G2.acting i = 3 := by
  have ha : ∀ i ∈ intForms, G2.acting i = 3 := by decide +kernel
  intro i hi
  have hs : (intRow (tWorld G2) G2 i).isSome = true := by revert i; decide +kernel
  obtain ⟨r, hr⟩ := Option.isSome_iff_exists.mp hs
  refine ⟨r, allIssue (by decide +kernel) i hi, hr, ?_, ha i hi⟩
  intro _ _ _ _; rfl

def fpForms : List Instr :=
  [.fadd v .dflt .f32 4 (.v 2) (.v 2), .fsub v .rup .dflt 3 (.v 2) (.v 2), .fmul v .dflt .dflt 3 (.v 2) (.v 2), .ffma v .dflt .dflt 3 (.v 2) (.v 2) (.v 2),
   .fmin v .dflt 3 (.v 2) (.v 2), .fmax v .dflt 3 (.v 2) (.v 2), .fsgn v .neg .dflt 3 (.v 2), .fcvt v .dflt .f32 .f16 3 (.v 2),
   .frint v .dflt .dflt 3 (.v 2), .fdiv v .dflt .dflt 3 (.v 2) (.v 2), .fsqrt v .dflt .dflt 3 (.v 2), .fclass v .dflt 3 (.v 2),
   .fpack v .dflt .f8 .dflt 3 (.v 2) (.pack (.v 2) zero), .fpack v .dflt .dflt .f32 3 (.v 2) (.unpack five)]
def quietB (r : Option LaneRow) (m : LaneMask) : Bool := match r with
  | some r => (bitsOn m).all (fun k => decide ((r.res k).2 = 0))
  | none => false
theorem quietB_spec {o : Option LaneRow} {m : LaneMask} (h : quietB o m = true) : ∃ r, o = some r ∧ r.quiet m := by
  cases o with
  | none => cases h
  | some r => exact ⟨r, rfl, by simpa [quietB, LaneRow.quiet] using h⟩
theorem witness_VectorFloatRowsComplete :
    ∀ i ∈ fpForms, ∃ r, Issues i (tWorld G2) G2 ∧ fpRow (tWorld G2) G2 i = some r ∧ G2.CleanIn (G2.acting i) r.regs ∧
      r.quiet (G2.acting i) := by
  intro i hi
  obtain ⟨r, hr, hq⟩ := quietB_spec (o := fpRow (tWorld G2) G2 i) (m := G2.acting i) (by revert i; decide +kernel)
  exact ⟨r, allIssue (by decide +kernel) i hi, hr, fun _ _ _ _ => rfl, hq⟩

/-- Lane 0 of register 2 holds poison: in a FREE launch, in a PHASED crew, under SHADOW, and in the handler slot. -/
def GZ : Gang := G2.vSet 2 0 5 true
def poisonForms : List Instr := [.vadd v .dflt 3 (.v 1) (.v 2), .fdiv v .dflt .dflt 3 (.v 2) (.v 2)]
def shadowWorld : State := (tWorld GZ).putLaunch 0 { loadedLaunch 0 with pkt := { loadedPacket 0 with shadow := true } }
def handlerWorld : State := HW.putGang { GZ with slot := 32 }
theorem witness_LaneTrapsStop_poison :
    (∀ i ∈ poisonForms, Issues i (tWorld GZ) GZ ∧ Issues i (tWorld GZ 1) GZ ∧ Issues i shadowWorld GZ ∧ Issues i handlerWorld { GZ with slot := 32 }) ∧
      (∀ i ∈ poisonForms, ((intRow (tWorld GZ) GZ i).isSome || (fpRow (tWorld GZ) GZ i).isSome) = true) ∧ GZ.badLanes (GZ.acting (poisonForms.getD 0 .admitBand)) [1, 2] = 1 ∧
      ((tWorld GZ).shadowed 0 = false ∧ (tWorld GZ).errsAsFree GZ = true ∧ (tWorld GZ 1).errsAsFree GZ = false ∧ shadowWorld.shadowed 0 = true ∧
        GZ.isHandler = false) ∧
      (let y := (tWorld GZ).killLanes GZ 1 35 (fun _ => 0) 0
       y.2.live 3 = 2 ∧ ∀ i ∈ poisonForms, quietB ((intRow y.1 y.2 i).or (fpRow y.1 y.2 i)) 2 = true) := by
  refine ⟨fun i hi => ⟨allIssue (by decide +kernel) i hi, allIssue (by decide +kernel) i hi, allIssue (by decide +kernel) i hi,
    allIssue (by decide +kernel) i hi⟩, ?_⟩
  decide +kernel

/-- INVT, with 0/0, or an unordered comparison with a signalling NaN, in one of two lanes; the channels of OVT; a launch whose random numbers end at 1. -/
def GT : Gang := lanes { tGang with base := 3, rmode := 0x80 } 2 [0, 0x40000000]
def GQ : Gang := lanes { tGang with base := 3, rmode := 0x80 } 2 [0x7F800001, 0x40000000]
def GO : Gang := lanes (lanes { tGang with base := 3, rmode := 0x20 } 10 [0x01020304]) 11 [0x05060708]
def oneNumber : State := (tWorld G2).putLaunch 0 { loadedLaunch 0 with pkt := { loadedPacket 0 with rnglen := 0x40000000 } }
/-- A PLUS tile whose entry 0 is both infinities, so that its readout is invalid. -/
def invTile : State := (tWorld GT).putCrew 0 { loadedCrew with tiles := [(0, { cells := [(0, { Xa.zero with pinf := true, ninf := true })] })] }
def mardForm : Instr := .mard v .dflt .f32 .dflt 40 0 zero 0
theorem witness_LaneTrapsStop :
    (∃ r, Issues (.fdiv v .dflt .dflt 8 (.v 2) (.v 3)) (tWorld GT) GT ∧ fpRow (tWorld GT) GT (.fdiv v .dflt .dflt 8 (.v 2) (.v 3)) = some r ∧
        GT.CleanIn (GT.acting (.fdiv v .dflt .dflt 8 (.v 2) (.v 3))) r.regs ∧ ¬ r.quiet (GT.acting (.fdiv v .dflt .dflt 8 (.v 2) (.v 3)))) ∧
      (∃ r, Issues (.fcmp v .lt .dflt 15 (.v 2) (.v 3)) (tWorld GQ) GQ ∧ bitRow (tWorld GQ) GQ (.fcmp v .lt .dflt 15 (.v 2) (.v 3)) = some r ∧
        GQ.CleanIn 3 r.regs ∧ ∃ k ∈ bitsOn (GQ.acting (.fcmp v .lt .dflt 15 (.v 2) (.v 3))), (r.res k).2 ≠ 0) ∧
      (Issues (.vrnd v .dflt 3 (.v 2)) oneNumber G2 ∧ oneNumber.launch? G2.launch = some { loadedLaunch 0 with pkt := { loadedPacket 0 with rnglen := 0x40000000 } } ∧
        G2.CleanIn 3 [2] ∧ ∃ k ∈ bitsOn (G2.acting (.vrnd v .dflt 3 (.v 2))), 0x40000000 ≤ oneNumber.vsrc G2 none .n32 (.v 2) k % 2 ^ 32) ∧
      (Issues (.rrev v .i64 .dflt 12 (.v 10) 4) (tWorld GO) GO ∧ GO.CleanIn 3 [10, 11] ∧ 7 ≤ (bitsOn ((tWorld GO).core 0).en).length ∧ GO.ovt = true ∧
        ∃ k ∈ bitsOn (GO.acting (.rrev v .i64 .dflt 12 (.v 10) 4)), (convert ((tWorld GO).core 0).en ((tWorld GO).pair GO none (.v 10) k)).isOverflow = true) ∧
      Issues mardForm invTile GT ∧ (0 : Nat) < invTile.accOf 0 ∧ 0 + 1 ≤ tileCols (invTile.tile GT 0).fmt ∧ kindMatches .dflt (invTile.tile GT 0).fmt = true ∧
      ∃ j ∈ bitsOn (GT.acting mardForm), (mardEntry (GT.mode .dflt) .f32 .dflt 0xFF GT (invTile.tile GT 0) ((invTile.tile GT 0).entry j 0)).code ≠ 0 := by
  refine ⟨⟨_, issues_of (by decide +kernel), rfl, fun _ _ _ _ => rfl, fun hq => absurd (hq 0 (by decide +kernel)) (by decide +kernel)⟩,
    ⟨_, issues_of (by decide +kernel), rfl, fun _ _ _ _ => rfl, by decide +kernel⟩, ⟨issues_of ?_, ?_, fun _ _ _ _ => rfl, ?_⟩,
    ⟨issues_of ?_, fun _ _ _ _ => rfl, ?_⟩, issues_of ?_, ?_⟩ <;> decide +kernel

/-- VCMP and FCMP on a core of one channel, RCHK on one of seven. -/
def chans (en : BitVec 8) : State := (tWorld G2).modCore 0 (fun k => { k with en := en })
theorem witness_LaneBitRowsComplete :
    ∀ x ∈ [(Instr.vcmp v .lt .dflt 3 (.v 2) (.v 3), (1 : BitVec 8)), (.fcmp v .lt .dflt 15 (.v 2) (.v 3), 1), (.rchk v 3 (.v 2), 0x7F)], ∃ r,
      Issues x.1 (chans x.2) G2 ∧ bitRow (chans x.2) G2 x.1 = some r ∧ G2.CleanIn (G2.acting x.1) r.regs ∧ (∀ k ∈ bitsOn (G2.acting x.1), (r.res k).2 = 0) ∧
      (match x.1 with | .rchk _ _ _ => 7 ≤ (bitsOn ((chans x.2).core G2.core).en).length | _ => True) := by
  intro x hx
  simp only [List.mem_cons, List.not_mem_nil, or_false] at hx
  rcases hx with rfl | rfl | rfl <;>
    exact ⟨_, issues_of (by decide +kernel), rfl, fun _ _ _ _ => rfl, by decide +kernel, by decide +kernel⟩

theorem witness_BranchesComplete :
    (∀ i ∈ [Instr.br 0 0xFFFFFFFC, .brc h (.r 1) 8, .brc h five 8, .call 0 0 8, .loop 0 3 8, .ret 0 zero, .retLit 0 0xFFFFFFFFFFFFFFFC, .ret 0 five, .retLit 0 2],
      Issues i W tGang) ∧
      (W.sc tGang none zero).toNat % 4 = 0 ∧ (W.sc tGang none five).toNat % 4 ≠ 0 :=
  ⟨allIssue (by decide +kernel), by decide +kernel⟩

/-- A gang with `n` levels on its mask stack. -/
def levels (n : Nat) : Gang := { tGang with stack := List.replicate n { parent := 0xFF, cond := 0xF, els := false } }
theorem witness_MaskRegionRows :
    (Issues (.vif 0 0) (tWorld (levels 15)) (levels 15) ∧ (levels 15).stack.length < 16) ∧
      (Issues (.vif 0 15) (tWorld (levels 16)) (levels 16) ∧ 16 ≤ (levels 16).stack.length) ∧
      (∀ i ∈ [Instr.velse 0, .vend 0], Issues i (tWorld (levels 16)) (levels 16) ∧ Issues i (tWorld (levels 1)) (levels 1) ∧ Issues i W tGang) ∧
      (∃ l r, (levels 16).stack = l :: r) ∧ tGang.stack = [] :=
  ⟨⟨issues_of (by decide +kernel), by decide +kernel⟩, ⟨issues_of (by decide +kernel), by decide +kernel⟩,
    fun i hi => ⟨allIssue (by decide +kernel) i hi, allIssue (by decide +kernel) i hi, allIssue (by decide +kernel) i hi⟩,
    ⟨_, _, rfl⟩, rfl⟩

theorem witness_TrapAndExitRows :
    (∀ i ∈ [Instr.trap 0 0 five, .trapLit 0 0 5], Issues i W tGang ∧ tGang.acting i ≠ 0) ∧
      (∀ i ∈ [Instr.trap 0 1 five, .trapLit 0 1 5], Issues i W tGang ∧ tGang.acting i = 0) ∧
      Steps W tGang ∧ Issues (.exit 0) W tGang ∧ Issues (.exit 0) HW hGang :=
  ⟨fun i hi => ⟨allIssue (by decide +kernel) i hi, by revert i; decide +kernel⟩,
    fun i hi => ⟨allIssue (by decide +kernel) i hi, by revert i; decide +kernel⟩,
    steps_of (by decide +kernel), issues_of (by decide +kernel), issues_of (by decide +kernel)⟩

def lit (x : DWord) : SH := { stall := 0, lit := some x }
def G64 : Gang := { tGang with n := 64 }
/-- A crowded pane, where 256 registers do not fit; and a pane of 32 blocks, which never holds them. -/
def crowded : State := { (tWorld G64).putGang { tGang with slot := 1, ix := 1, n := 248 } with cur := some (.gang 0 0) }
def smallPane : State := (tWorld G64).putCore 0 { part := some 0x00010101 }
theorem witness_RegisterCountRows :
    (∀ i ∈ [Instr.sleep (lit (2 ^ 64 - 1)) .lit, .rshr (lit 8) 1 .lit, .rshr (lit 256) 1 .lit, .rshr (lit 7) 1 .lit, .rshr (lit 264) 1 .lit], Issues i W tGang) ∧
      (∀ i ∈ [Instr.rgrow (lit 8) 1 .lit, .rgrow (lit 64) 1 .lit, .rgrow (lit 256) 1 .lit, .rgrow (lit 257) 1 .lit, .rgrow (lit 0) 1 .lit],
        Issues i (tWorld G64) G64) ∧ Issues (.rgrow (lit 256) 1 .lit) crowded G64 ∧ Issues (.rgrow (lit 256) 1 .lit) smallPane G64 ∧
      tGang.isHandler = false ∧ G64.isHandler = false ∧ 1 + 256 / 8 ≤ (tWorld G64).paneBlocks 0 ∧ (tWorld G64).canGrow G64 256 = true ∧
      1 + 256 / 8 ≤ crowded.paneBlocks 0 ∧ crowded.canGrow G64 256 = false ∧ smallPane.paneBlocks 0 < 1 + 256 / 8 :=
  ⟨allIssue (by decide +kernel), allIssue (by decide +kernel), issues_of (by decide +kernel), issues_of (by decide +kernel), by decide +kernel⟩
def chan : Instr := .setsr v .chan (.s zero)
/-- A launch without KEYSET. -/
def noKey : State := (tWorld tGang).putLaunch 0 { loadedLaunch 0 with pkt := { loadedPacket 0 with keyset := false } }
/-- A result that is late, or not readable yet. -/
def lateG : Gang := { tGang with busy := [{ id := 0, refs := [.s 9] }] }
def soonG : Gang := { tGang with pend := [{ ref := .v 9, lat := 4, sum := 4, readyAt := 4 }] }
theorem witness_SpecialRegisterRows_late : (Issues (.getsr 0 1 .em) (tWorld lateG) lateG ∧ lateG.busy ≠ []) ∧
    Issues (.getsr 0 1 .em) (tWorld soonG) soonG ∧ soonG.busy = [] ∧ ∃ p ∈ soonG.pend, (tWorld soonG).cyc 0 < p.readyAt :=
  ⟨⟨issues_of (by decide +kernel), by decide +kernel⟩, issues_of (by decide +kernel), by decide +kernel⟩
theorem witness_SpecialRegisterRows :
    (∀ i ∈ [Instr.getsr 0 0 .em, .getsr 0 63 .cyc, .setsr v .rmode (.s (.imm 0x44)), .setsr v .rmode (.s (.imm 0x47)), .setsr v .deny (.s five),
        .setsr v .key (.v 2), .setsr v .key (.s five), chan], Issues i W tGang) ∧
      tGang.CleanIn (tGang.acting (.setsr v .key (.v 2))) (srcRegs .b32 (.v 2)) ∧ Issues chan HW hGang ∧ Issues (.setsr v .key (.v 2)) noKey tGang ∧
      tGang.busy = [] ∧ tGang.pend = [] ∧ W.farOf 0 0 = false ∧ (W.sc tGang none (.imm 0x44)).toNat % 8 < 5 ∧ 5 ≤ (W.sc tGang none (.imm 0x47)).toNat % 8 ∧
      ((W.launch? tGang.launch).map (·.pkt.keyset)).getD false = true ∧ (hGang.isHandler = true ∧ HW.hpriv hGang = true) ∧
      (tGang.isHandler && W.hpriv tGang) = false ∧ tGang.isHandler = false ∧ ((noKey.launch? tGang.launch).map (·.pkt.keyset)).getD false = false :=
  ⟨allIssue (by decide +kernel), fun _ _ _ _ => rfl, issues_of (by decide +kernel), issues_of (by decide +kernel), by decide +kernel⟩

def isSet (x : WinSet) : Bool := match x with | .set _ _ => true | _ => false
theorem isSet_spec {x : WinSet} (h : isSet x = true) : ∃ u t, x = .set u t := by
  cases x <;> first | exact ⟨_, _, rfl⟩ | cases h
def w1108 : WinAddr := { num := 8, cls := 1, lane := 1 }
def selectedFor (s : State) : Bool := match s.selected 0 with
  | some (t, x) => isSet (winSet s hGang t x w1108 5) && isSet (winSpecial s hGang t x .dead none 5) &&
      ((s.resolveStop 0 t.slot).exitGang t |>.gang? 0 32).isSome && (((s.resolveStop 0 t.slot).defaultAction t x).gang? 0 32).isSome
  | none => false
theorem selectedFor_spec {s : State} (h : selectedFor s = true) : ∃ t x, s.selected 0 = some (t, x) ∧
    (∃ u y, winSet s hGang t x w1108 5 = .set u y) ∧ (∃ u y, winSpecial s hGang t x .dead none 5 = .set u y) ∧
    ((s.resolveStop 0 t.slot).exitGang t).gang? 0 32 ≠ none ∧ ((s.resolveStop 0 t.slot).defaultAction t x).gang? 0 32 ≠ none := by
  unfold selectedFor at h
  split at h
  · rename_i t x hs
    simp only [Bool.and_eq_true, ← Option.ne_none_iff_isSome] at h
    exact ⟨t, x, hs, isSet_spec h.1.1.1, isSet_spec h.1.1.2, h.1.2, h.2⟩
  · cases h
/-- The stop in service is a PROMISE_LATE; and the stopped gang's pane is too full for it to have 256 registers. -/
def lateStop : State := HW.putCore 0 { part := some 0x00010102, run := some { stop := { hStop with cause := 29 }, sel := some 0 } }
def few : Gang := { stoppedGang with n := 64 }
def crowdedStop : State := (HW.putGang few).putGang { tGang with slot := 1, ix := 1, n := 248 }
/-- `$chan` at its window address, 5 x 2^8 + its number. -/
theorem witness_WindowRows_chan : Issues (.wwr (lit 0x508) none .lit five) HW hGang ∧
    winAddr (BitVec.ofNat 64 (0x500 + SpReg.chan.num)) = some { num := SpReg.chan.num, cls := 5, lane := 0 } ∧
    ∃ u y, winSet HW hGang stoppedGang hStop { num := SpReg.chan.num, cls := 5, lane := 0 } 0xFF = .set u y :=
  ⟨issues_of (by decide +kernel), by decide +kernel, _, _, rfl⟩
theorem witness_WindowRows :
    (∀ i ∈ [Instr.wsel h 1 zero, .wsel h 1 five, .wsel (lit 32) 1 .lit, .wsel h 1 (.imm 0x3F), .wrd (lit 0x3F) 1 .lit, .wwr (lit 0x1108) none .lit five,
        .wwr h (some .dead) zero five, .wres h five zero, .wres h zero (.imm 0x42), .wres h zero (.imm 0x43), .wres h zero (.imm 0x44), .wres h zero (.imm 0x41)],
        Issues i HW hGang) ∧ Issues (.wres h zero (.imm 0x41)) lateStop hGang ∧ Issues (.wwr (lit 256) (some .regs) zero .lit) crowdedStop hGang ∧
      (∃ t x, HW.selected 0 = some (t, x) ∧ (∃ u y, winSet HW hGang t x w1108 5 = .set u y) ∧ (∃ u y, winSpecial HW hGang t x .dead none 5 = .set u y) ∧
        ((HW.resolveStop 0 t.slot).exitGang t).gang? 0 32 ≠ none ∧ ((HW.resolveStop 0 t.slot).defaultAction t x).gang? 0 32 ≠ none) ∧
      hGang.isHandler = true ∧ (HW.stoppedGang 0 0).isSome = true ∧ (HW.stoppedGang 0 5).isSome = false ∧ HW.sc hGang none (.imm 0x3F) = BitVec.allOnes 64 ∧
      (HW.core 0).run = some { stop := hStop, sel := some 0 } ∧ (wrdValue HW 0 0x3F).isSome = true ∧ winAddr 0x1108 = some w1108 ∧
      HW.selected 0 = some (stoppedGang, hStop) ∧ hStop.cause ≠ 29 ∧ lateStop.selected 0 = some (stoppedGang, { hStop with cause := 29 }) ∧
      ((HW.resolveStop 0 0).putGang (stoppedGang.resume (HW.resolveStop 0 0) 0x20 (some (stoppedGang.live 5)))).gang? 0 32 ≠ none ∧
      ((lateStop.resolveStop 0 0).putGang { stoppedGang.resume (lateStop.resolveStop 0 0) 0x20 none with pwaitNt := true }).gang? 0 32 ≠ none ∧
      crowdedStop.selected 0 = some (few, hStop) ∧ few.n < 256 ∧ 1 + 256 / 8 ≤ crowdedStop.paneBlocks 0 ∧ crowdedStop.canGrow few 256 = false :=
  ⟨allIssue (by decide +kernel), issues_of (by decide +kernel), issues_of (by decide +kernel), selectedFor_spec (by decide +kernel), by decide +kernel⟩

/-- What may stand against `VADD v3, v4, v2` or a NOP: registers beyond `$regs`, a dependence of which too little is covered or that is not readable yet, a
late result or activations that are held, poison in a mask register, in the PC or on the mask stack, and a shadow that has consumed poison. -/
def vaddForm : Instr := .vadd { v with guard := 2 } .dflt 3 (.v 4) (.v 2)
def beset : List Gang :=
  [{ tGang with n := 4 }, { tGang with rmode := 0x10, pend := [{ ref := .v 2, lat := 4, sum := 3, readyAt := 4 }] },
   { tGang with pend := [{ ref := .v 2, lat := 4, sum := 3, readyAt := 4 }] }, { tGang with busy := [{ id := 0, refs := [.v 3] }] },
   { tGang with busy := [{ id := 0, refs := [], hold := [.v 3] }] }, { tGang with mp := [(4, 1)] }, { tGang with pcBad := true }]
def shaded : State := (tWorld tGang).putLaunch 0 { loadedLaunch 0 with pkt := { loadedPacket 0 with shadow := true } }
def shadowHurt : Gang := { tGang with shadow := some { regs := { n := 256 }, spoiled := true } }
def badElse : Gang := { tGang with stack := [{ parent := 0xFF, cond := 0xF, els := false, bad := 1 }] }
theorem witness_PlaceOfInstructions_checks :
    (∀ g ∈ beset, Steps (tWorld g) g ∧ legalAt (tWorld g) g vaddForm = true ∧ g.tokenless (shape vaddForm) = false ∧ g.isHandler = false) ∧
      vTop (shape vaddForm) = 5 ∧ beset.map (fun g => decide (g.n < 5)) = [true, false, false, false, false, false, false] ∧
      beset.map (fun g => g.short (shape vaddForm)) = [false, true, false, false, false, false, false] ∧
      beset.map (fun g => g.unready (shape vaddForm) 0) = [false, true, true, false, false, false, false] ∧
      beset.map (fun g => g.boarded (shape vaddForm)) = [false, false, false, true, true, false, false] ∧
      beset.map (fun g => g.readsBad (shape vaddForm)) = [false, false, false, false, false, true, true] ∧
      (Steps (tWorld badElse) badElse ∧ badElse.stackBad (shape (.velse 0)).opc.toNat = true ∧ legalAt (tWorld badElse) badElse (.velse 0) = true) ∧
      (Steps (shaded.putGang shadowHurt) shadowHurt ∧ shadowHurt.shadowSpoiled = true ∧ (shaded.putGang shadowHurt).shadowed 0 = true) ∧
      (Steps (HW.putGang { hGang with pcBad := true }) { hGang with pcBad := true } ∧ hGang.isHandler = true) ∧
      (W.shadowed 0 = false ∧ W.errsAsFree tGang = true ∧ (tWorld tGang 1).errsAsFree tGang = false) := by
  have hs : ∀ g ∈ beset, stepsB (tWorld g) g = true := by decide +kernel
  have hl : ∀ g ∈ beset, legalAt (tWorld g) g vaddForm = true ∧ g.tokenless (shape vaddForm) = false ∧ g.isHandler = false := by decide +kernel
  refine ⟨fun g hg => ⟨steps_of (hs g hg), hl g hg⟩, ?_, ?_, ?_, ?_, ?_, ?_, ⟨steps_of ?_, ?_⟩, ⟨steps_of ?_, ?_⟩, ⟨steps_of ?_, ?_⟩, ?_⟩ <;> decide +kernel

theorem witness_PlaceOfInstructions :
    (∀ i ∈ [Instr.wsel h 1 zero, .wrd h 1 zero, .wwr h none zero five, .wres h zero zero], Issues i W tGang) ∧ tGang.isHandler = false ∧
      (∀ i ∈ [Instr.rgrow h 1 five, .rshr h 1 five, .vrnd v .dflt 3 (.v 2), .mwld h 1 zero false, .mmul v .plus .bf16 .bf16 0 2 false, .maclr 0 .plus 0,
          .mard v .dflt .f32 .dflt 3 0 zero 0, .mawr v .f32 .dflt 0 3 zero 0, .cpost v 1 zero zero 8, .ccopyTr v 1 0 zero zero zero, .cbar h zero, .gbar h zero],
        Issues i HW hGang) ∧ hGang.isHandler = true :=
  ⟨allIssue (by decide +kernel), by decide +kernel, allIssue (by decide +kernel), by decide +kernel⟩

/-- Lane 0 dead beside two live lanes. -/
def GD : Gang := { G2 with dead := 1, base := 7 }
theorem witness_LaneMoveRows :
    (∀ i ∈ [Instr.lxch v .dflt 3 (.v 2) (.imm 0x7F), .lbcst v .dflt 3 (.v 2) zero, .lfirst v .dflt 3 (.v 2), .lmsk 0 (.and 0 1 2), .lmsk 0 (.not 15 1),
        .lvote v .dflt (.all 3) (.v 2), .lvote v .dflt (.ballot 3) (.v 2), .lfirst { v with guard := 1 } .dflt 3 (.v 2)], Issues i (tWorld GD) GD) ∧
      (moveRow (tWorld GD) GD (.lxch v .dflt 3 (.v 2) (.imm 0x7F))).isSome = true ∧
      GD.CleanIn (GD.acting (.lvote v .dflt (.all 3) (.v 2))) (srcRegs .b32 (.v 2)) :=
  ⟨allIssue (by decide +kernel), by decide +kernel, fun _ _ _ _ => rfl⟩

def sumForms : List Instr :=
  [.lscan v .dflt .add true .dflt 3 (.v 2), .lscan v .rup .add false .f32 3 (.v 2), .lred v .max .f32 3 (.v 2), .lredx v .dflt .dflt 3 (.v 2) none,
   .lredx v .dflt .f32 3 (.v 2) (some (.v 2))]
def sumOk (s : State) (g : Gang) (i : Instr) : Bool := match sumRow s g (bitsOn (g.acting i)) i with
  | some r => (bitsOn (g.acting i)).all (fun k => decide (g.fpTrap (r.res k).2 = 0))
  | none => false
theorem sumOk_spec {s : State} {g : Gang} {i : Instr} (h : sumOk s g i = true) :
    ∃ r, sumRow s g (bitsOn (g.acting i)) i = some r ∧ ∀ k ∈ bitsOn (g.acting i), g.fpTrap (r.res k).2 = 0 := by
  unfold sumOk at h
  split at h
  · exact ⟨_, by assumption, by simpa using h⟩
  · cases h
/-- Two signalling NaNs under INVT. -/
def GN : Gang := lanes { tGang with base := 3, rmode := 0x80 } 2 [0x7F800001, 0x7F800001]
theorem witness_ReductionRows :
    (∀ i ∈ sumForms, Issues i (tWorld G2) G2 ∧ ∃ r, sumRow (tWorld G2) G2 (bitsOn (G2.acting i)) i = some r ∧
        G2.CleanIn (G2.acting i) r.regs ∧ ∀ k ∈ bitsOn (G2.acting i), G2.fpTrap (r.res k).2 = 0) ∧
      (let o := Instr.lredx v .dflt .dflt 3 (.v 2) none
       Issues o (tWorld GN) GN ∧ ∃ r code, sumRow (tWorld GN) GN (bitsOn (GN.acting o)) o = some r ∧
         GN.CleanIn (GN.acting o) r.regs ∧ ((bitsOn (GN.acting o)).map (fun k => GN.fpTrap (r.res k).2)).find? (· ≠ 0) = some code) := by
  have h1 : ∀ i ∈ sumForms, sumOk (tWorld G2) G2 i = true := by decide +kernel
  have h2 := allIssue (l := sumForms) (s := tWorld G2) (g := G2) (by decide +kernel)
  refine ⟨fun i hi => ⟨h2 i hi, ?_⟩, issues_of (by decide +kernel), _, 5, rfl, fun _ _ _ _ => rfl, by decide +kernel⟩
  obtain ⟨r, hr, hq⟩ := sumOk_spec (h1 i hi)
  exact ⟨r, hr, fun _ _ _ _ => rfl, hq⟩

def sixteen : Sc := .imm 0x50
def none64 : Sc := .imm 0x3F
def stRule (n : Nat) : MemRule := { size := n, write := true, noVer := true }
/-- A latch at offset 16 that expects `n` arrivals, in its phase 0. -/
def latchAt16 (n : Nat) (s : State) : State := s.putLatch 0 16 (n * 2 ^ 4 + n * 2 ^ 56 + 2 ^ 111)
/-- Two lists of three and two, sorted and not; ORDT set on the second. -/
def sortedLists : Gang := (lanes (lanes { tGang with base := 3 } 2 [2, 4, 4]) 4 [4, 5]).sSet 5 (3 + 2 * 256)
def unsorted : Gang := { lanes sortedLists 2 [4, 2, 4] with rmode := 0x40 }
/-- Under ORDT a NaN in lane 1; under OFT two numbers whose sum is too large. -/
def nanLane : Gang := lanes { tGang with base := 3, rmode := 0x40 } 2 [0x3F800000, 0x7FC00000]
def large : Gang := lanes { tGang with base := 3, rmode := 0x180 } 2 [0x7F7FFFFF, 0x7F7FFFFF]
theorem witness_SelectRows_traps :
    let i := Instr.topk v .dflt .dflt 8 (.v 2) (.imm 0x42)
    (Issues i (tWorld nanLane) nanLane ∧ nanLane.ordt = true ∧ Fmt.f32.float = true ∧ (Fmt.f32.fp.read (nanLane.vGet 2 1)).isNan = true) ∧
      Issues i (tWorld large) large ∧ large.ordt = false ∧ bitsOn (large.acting i) = [0, 1] ∧ (∀ n r, nanLane.CleanIn n r ∧ large.CleanIn n r) ∧
      (let c := (ranked (tWorld large) large v .f32 (.v 2) [0, 1]).map (·.2)
       large.fpTrap ((exactSum .f32 (c.take 2)).readout .f32 (large.mode .dflt) large.sat).2 ≠ 0) :=
  ⟨⟨issues_of (by decide +kernel), by decide +kernel⟩, issues_of (by decide +kernel), by decide +kernel, by decide +kernel,
    fun _ _ => ⟨fun _ _ _ _ => rfl, fun _ _ _ _ => rfl⟩, by decide +kernel⟩
theorem witness_SelectRows :
    (∀ i ∈ [Instr.topk v .dflt .dflt 8 (.v 2) (.imm 0x7F), .mpath v .dflt 30 2 4 (.r 5), .merge v .dflt 30 2 4 (.r 5)], Issues i (tWorld sortedLists) sortedLists ∧
        Issues i (tWorld unsorted) unsorted ∧ bitsOn (sortedLists.acting i) ≠ []) ∧
      (let i := Instr.merge { v with guard := 1 } .dflt 30 2 4 (.r 5)
       Issues i (tWorld sortedLists) sortedLists ∧ Issues i (tWorld unsorted) unsorted ∧ bitsOn (sortedLists.acting i) = []) ∧
      (∀ n r, sortedLists.CleanIn n r ∧ unsorted.CleanIn n r) ∧ sortedLists.ordt = false ∧ unsorted.ordt = true ∧
      (let c := (ranked (tWorld sortedLists) sortedLists v .f32 (.v 2) [0, 1]).map (·.2)
       ∀ l ∈ [c.take 1, c.drop 1], sortedLists.fpTrap ((exactSum .f32 l).readout .f32 (sortedLists.mode .dflt) sortedLists.sat).2 = 0) ∧
      (∀ j ∈ [0, 1], (Fmt.f32.fp.read ((tWorld unsorted).vsrc unsorted none .f32 (.v 2) j % 2 ^ 32)).isNan = false) ∧
      (sortedList .i32 [2, 4, 4] && sortedList .i32 [4, 5]) = true ∧ (sortedList .i32 [4, 2, 4] && sortedList .i32 [4, 5]) = false := by
  have hi : ∀ i ∈ [Instr.topk v .dflt .dflt 8 (.v 2) (.imm 0x7F), .mpath v .dflt 30 2 4 (.r 5), .merge v .dflt 30 2 4 (.r 5)],
      issuesB i (tWorld sortedLists) sortedLists = true ∧ issuesB i (tWorld unsorted) unsorted = true ∧ bitsOn (sortedLists.acting i) ≠ [] := by decide +kernel
  exact ⟨fun i h => ⟨issues_of (hi i h).1, issues_of (hi i h).2.1, (hi i h).2.2⟩, ⟨issues_of (by decide +kernel), issues_of (by decide +kernel), by decide +kernel⟩,
    fun _ _ => ⟨fun _ _ _ _ => rfl, fun _ _ _ _ => rfl⟩, by decide +kernel⟩

def rngLaunch : Launch := { loadedLaunch 0 with pkt := { loadedPacket 0 with rnglen := 0x40000001 } }
def rng : State := (tWorld G2).putLaunch 0 rngLaunch
theorem witness_RandomNumbersComplete :
    let i := Instr.vrnd v .dflt 3 (.v 2)
    Issues i rng G2 ∧ G2.CleanIn (G2.acting i) (srcRegs .n32 (.v 2)) ∧ G2.isHandler = false ∧ rng.launch? 0 = some rngLaunch ∧
      ∀ k ∈ bitsOn (G2.acting i), rng.vsrc G2 none .n32 (.v 2) k % 2 ^ Fmt.n32.bits < rngLaunch.pkt.rnglen :=
  ⟨issues_of (by decide +kernel), fun _ _ _ _ => rfl, by decide +kernel⟩

def resForms : List Instr := [.rfwd v .i64 .dflt 10 (.v 4), .rmad v 12 (.v 10) (.v 10) (.v 10), .rrev v .i64 .dflt 12 (.v 10) 4, .rchk v 5 (.v 10)]
theorem witness_ResidueRows :
    (∀ i ∈ resForms, Issues i (chans 0x7F) G2 ∧ Issues i (chans 0x3F) G2) ∧ (∀ m r, G2.CleanIn m r) ∧
      (octetRow (chans 0x7F) G2 (.rfwd v .i64 .dflt 10 (.v 4))).isSome = true ∧ (octetRow (chans 0x7F) G2 (.rmad v 12 (.v 10) (.v 10) (.v 10))).isSome = true ∧
      7 ≤ (bitsOn ((chans 0x7F).core 0).en).length ∧ G2.ovt = false ∧ (bitsOn ((chans 0x3F).core 0).en).length < 7 :=
  ⟨fun i hi => ⟨allIssue (by decide +kernel) i hi, allIssue (by decide +kernel) i hi⟩, fun _ _ _ _ _ _ => rfl, by decide +kernel⟩

/-- A lease whose slot 0 is empty, whose slot 1 holds a format no plane has, whose slot 2 holds the manual's image, and whose slot 3, filled from virtual
address 0, has an uncorrectable symbol. -/
def leased : State :=
  { W with leases := [{ core := 0, launch := 0, size := 4, slots := [(1, { img := [(8224, 3)] }), (2, { img := [(0, 0x80), (1, 0x3F), (8224, 12)] }),
    (3, { bad := [(0, 1)], src := some (0, 0) })] }] }
def ld (n : Nat) : Instr := .mwld (lit (BitVec.ofNat 64 n)) 2 .lit false
/-- Plane 0 streams; and a gang whose shadow has an instruction still to run. -/
def streams : State := leased.modCore 0 (fun k => { k with streams := [{ crew := 0, slot := 0, id := 1, plane := false }] })
def behind : Gang := { tGang with shadowSlot := some 1, shadow := some { queue := [{ pc := 0, dead := 0, replay := none, n := 256, rmode := 0, took := none }] } }
def noAcc : State := leased.putLaunch 0 { loadedLaunch 0 with pkt := { loadedPacket 0 with part := 0x00000102 } }
theorem witness_PlaneLoadCompletes :
    (∀ i ∈ [ld 0, ld 1, ld 2, ld 3], Issues i leased tGang) ∧ Issues (ld 0) streams tGang ∧ Issues (ld 0) (leased.putGang behind) behind ∧
      tGang.isHandler = false ∧ leased.accUnits 0 ≠ 0 ∧ 3 < leased.tlease 0 ∧ (∃ y ∈ (streams.core 0).streams, y.plane = false) ∧
      (leased.putGang behind).shadowsBehind 0 = true ∧ leased.shadowsBehind 0 = false ∧ (∀ y ∈ (leased.core 0).streams, y.plane ≠ false) ∧
      (∀ n ∈ [0, 1, 2], (leased.slotOf 0 0 n).lost = []) ∧ (leased.slotOf 0 0 3).lost ≠ [] ∧ (leased.slotOf 0 0 3).src ≠ none ∧
      formatWord (leased.slotOf 0 0 0).img = 0 ∧ (formatWord (leased.slotOf 0 0 1).img ≠ 0 ∧ wfmtOk (formatWord (leased.slotOf 0 0 1).img) = false) ∧
      formatWord (leased.slotOf 0 0 2).img ≠ 0 ∧ wfmtOk (formatWord (leased.slotOf 0 0 2).img) = true ∧
      groupsAgree (leased.slotOf 0 0 2).img (formatWord (leased.slotOf 0 0 2).img) = true :=
  ⟨allIssue (by decide +kernel), issues_of (by decide +kernel), issues_of (by decide +kernel), by decide +kernel⟩
theorem witness_PlaneLoadCompletes_ranges : Issues (ld 0) noAcc tGang ∧ Issues (ld 4) leased tGang ∧ noAcc.accUnits 0 = 0 ∧ leased.accUnits 0 ≠ 0 ∧
    leased.tlease 0 ≤ ((leased.sc tGang (some 4) .lit).toNat) :=
  ⟨issues_of (by decide +kernel), issues_of (by decide +kernel), by decide +kernel⟩

theorem witness_TileRowsComplete :
    (∀ i ∈ [Instr.maclr 0 .plus 0, .maclr 0 .res 0, .mard v .dflt .f32 .dflt 40 0 (.imm 0x7F) 0, .mawr v .f32 .dflt 0 8 zero 0], Issues i (tWorld G2) G2) ∧
      G2.CleanIn (G2.acting (.mawr v .f32 .dflt 0 8 zero 0)) [8] ∧ G2.isHandler = false ∧ (0 : BitVec 3).toNat < (tWorld G2).accOf 0 ∧
      7 ≤ (bitsOn ((tWorld G2).core 0).en).length ∧ 63 + 1 ≤ tileCols ((tWorld G2).tile G2 0).fmt ∧ kindMatches .dflt ((tWorld G2).tile G2 0).fmt = true ∧
      ∀ j ∈ bitsOn (G2.acting (.mard v .dflt .f32 .dflt 40 0 (.imm 0x7F) 0)),
        (mardEntry (G2.mode .dflt) .f32 .dflt 0xFF G2 ((tWorld G2).tile G2 0) (((tWorld G2).tile G2 0).entry j 63)).code = 0 :=
  ⟨allIssue (by decide +kernel), fun _ _ _ _ => rfl, by decide +kernel⟩

def mm (k : BitVec 3) (sr : Semi) (pl : Bool) : Instr := .mmul v sr .bf16 .bf16 k 8 pl
def GK : Gang := { G2 with token := true }
def idle : Gang := { GK with dead := 3 }
/-- Plane 0 loaded with BF16 weights, plane 1 empty. -/
def planed (g : Gang) : State := { (tWorld g).putCrew 0 { loadedCrew with planes := [(0, { img := [(8224, 12)], wfmt := 12, slot := 0, bad := 0 })] } with cur := some (.gang 0 0) }
theorem witness_MatrixMultiplyRow :
    (∀ i ∈ [mm 0 .plus false, mm 0 .max false, mm 0 .plus true, mm 7 .plus false], Issues i (planed GK) GK) ∧ Issues (mm 0 .plus false) (planed idle) idle ∧
      GK.CleanIn (GK.acting (mm 0 .plus false)) ((List.range (Shape.mmulRegs .bf16 .bf16)).map (fun r => (8 : BitVec 8).toNat + r)) ∧
      GK.isHandler = false ∧ GK.acting (mm 0 .plus false) ≠ 0 ∧ idle.acting (mm 0 .plus false) = 0 ∧
      (0 < (planed GK).accOf 0 ∧ (planed GK).accOf 0 ≤ 7) ∧ ((planed GK).tile GK 0).fmt = mmulTile .plus .bf16 ∧
      ((planed GK).tile GK 0).fmt ≠ mmulTile .max .bf16 ∧ ((planed GK).plane? GK false).map (·.wfmt) = some Fmt.bf16.code.toNat ∧
      (planed GK).plane? GK true = none ∧ mmulTile .plus .bf16 ≠ .res ∧
      ((planed G2).cur = some (.gang G2.core G2.slot) ∧ (planed G2).gang? G2.core G2.slot = some G2 ∧ (planed G2).mayIssue G2 = true ∧
        G2.notBefore ≤ (planed G2).cyc 0 ∧ G2.failed = [] ∧ G2.isHandler = false ∧ G2.acting (mm 7 .max true) ≠ 0 ∧ G2.token = false ∧ G2.pend = []) :=
  ⟨allIssue (by decide +kernel), issues_of (by decide +kernel), fun _ _ _ _ => rfl, by decide +kernel⟩

/-- A record at virtual address 0: eight elements of 2^e bytes, `step` bytes apart. -/
def record (e step : Nat) : BitVec 128 := BitVec.ofNat 128 (step * 2 ^ 96 + 8 * 2 ^ 64 + e * 2 ^ 57)
/-- Lane 0 names index 1, lane 1 the first index out of bounds; `b2` holds words, `b3` cells of 128 bytes, `b4` doublewords; `b5` is read-only; the
doublewords of `b6` begin at address 4. -/
def GM : Gang :=
  (((((lanes (lanes { tGang with base := 3 } 4 [1, 8]) 6 [5, 7]).bSet 2 (record 2 4)).bSet 3 (record 2 128)).bSet 4 (record 3 8)).bSet 5
    (record 2 4 ||| (1 <<< 63))).bSet 6 (record 3 8 ||| 4)
/-- Lanes that reach memory at index 1 of a record of this step; and lane 1's STRICT_BOUNDS. -/
def at1 (step : Nat) (j : Nat) : Option (Nat × Nat) := if j = 0 then some (loadedFrame * 4096 + step, step) else none
def strictCode (j : Nat) : Nat := if j = 0 then 0 else 1
def strict : MH := { m with strict := true }
/-- The page under VER. -/
def verWorld (mode : Nat := 0) : State := { tWorld GM mode with tlb := [{ loadedLeaf with leaf := { loadedLeaf.leaf with ver := true } }] }
/-- A write of the gang is unanswered at peer 1; and the gang has executed a FENCE since. -/
def farStore : FarReq :=
  { id := 7, peer := 1, from_ := 0, ctx := 0, key := 0, keys := [], tag := 0, va := 0, line := 0, op := .store [] [], what := .write 0 0 0 0 0 0 7, ord := false,
    sent := 0 }
def fenced : Gang := { GM with fence := 8 }
def farWrite (g : Gang) : State := { latchAt16 1 (tWorld g) with far := [farStore] }
def rel : MH := { m with ordq := .rel }
theorem allCleared {l : List Instr} {s : State} {g : Gang} (h : l.all (fun i => clearedB i s g && s.ordered g (shape i)) = true) :
    ∀ i ∈ l, Cleared i s g ∧ s.ordered g (shape i) = true := fun i hi =>
  have h := Bool.and_eq_true_iff.mp (List.all_eq_true.mp h i hi)
  ⟨cleared_of h.1, h.2⟩
def sldAt (b : Sc) (k : BitVec 4) (t : Bool) : Instr := .sld h t .dflt 3 k b
def sstAt (b : Sc) (k : BitVec 4) (t : Bool) : Instr := .sst h t .dflt k b five
theorem witness_ScalarMemoryRows :
    (∀ i ∈ [Instr.bset h 15 five five, .fence 0 .gang, .fence 0 .sys], Issues i W tGang) ∧ Issues (.fence 0 .sys) (farWrite GM) GM ∧
      (∀ i ∈ [Instr.stb v rel .dflt 2 (.v 4) 6, .larv h sixteen zero zero, .cbar h zero, .gbar h zero, .cpost v 1 zero zero 8],
        Cleared i (farWrite GM) GM ∧ (farWrite GM).ordered GM (shape i) = true) ∧
      (∀ i ∈ [sldAt zero 4 false, sstAt zero 4 false, .ldb v m .dflt 8 2 (.v 4), .vldv h m 8 3 3 zero],
        Cleared i (farWrite fenced) fenced ∧ (farWrite fenced).ordered fenced (shape i) = true) ∧
      LineAccess (sldAt (.imm 0x47) 4 false) (tWorld GM) GM 4 { size := 8 } .ld true 7 (loadedFrame * 4096 + 56) 56 ∧
      LineAccess (sstAt zero 4 false) (tWorld GM) GM 4 (stRule 8) .st true 0 (loadedFrame * 4096) 0 ∧
      (∀ i ∈ [sldAt (.imm 0x48) 4 false, sldAt (.imm 0x48) 4 true, sldAt zero 6 false, sstAt (.imm 0x48) 4 false, sstAt (.imm 0x48) 4 true, sstAt zero 6 false],
        Issues i (tWorld GM) GM) ∧
      (recExtent (GM.bGet 4) ≤ 8 ∧ 0 < recExtent (GM.bGet 6) ∧ recBadType (GM.bGet 4) 8 = false ∧ recBadType (GM.bGet 6) 8 = false ∧ recRo (GM.bGet 4) = false ∧
        recRo (GM.bGet 6) = false) ∧
      (∀ r ∈ [{ size := 8 }, stRule 8], (tWorld GM).reach 0 0 (((tWorld GM).keySet GM).map (·.2)) r GM.ownLane (recAddr (GM.bGet 6) 0) = .trap 2) ∧
      (tWorld GM).buffered GM = false ∧ GM.counter .ld < 63 ∧ GM.counter .st < 63 ∧ GM.isHandler = false :=
  ⟨allIssue (by decide +kernel), issues_of (by decide +kernel), allCleared (by decide +kernel), allCleared (by decide +kernel), lineAccess_of (by decide +kernel),
    lineAccess_of (by decide +kernel), allIssue (by decide +kernel), by decide +kernel⟩

theorem witness_RecordLoadsComplete : LaneAccess (.ldb v m .dflt 8 2 (.v 4)) (tWorld GM) GM 2 v m (.v 4) { size := 4 } .ld true [] (at1 4) ∧
    LaneRaises (.ldb v strict .dflt 8 2 (.v 4)) (tWorld GM) GM 2 v strict (.v 4) { size := 4 } .ld true [] (at1 4) strictCode :=
  ⟨laneAccess_of (by decide +kernel), laneRaises_of (by decide +kernel)⟩

def stbForm : Instr := .stb v m .dflt 2 (.v 4) 6
theorem storesAt (mode : Nat) (h : laneAccessB stbForm (tWorld GM mode) GM 2 v m (.v 4) (stRule 4) .st true [6] (at1 4) = true) :
    LaneAccess stbForm (tWorld GM mode) GM 2 v m (.v 4) (stRule 4) .st true [6] (at1 4) := laneAccess_of h
theorem witness_RecordStoresComplete : LaneAccess stbForm (tWorld GM) GM 2 v m (.v 4) (stRule 4) .st true [6] (at1 4) ∧
    LaneRaises (.stb v strict .dflt 2 (.v 4) 6) (tWorld GM) GM 2 v strict (.v 4) (stRule 4) .st true [6] (at1 4) strictCode ∧ (tWorld GM).buffered GM = false :=
  ⟨storesAt 0 (by decide +kernel), laneRaises_of (by decide +kernel), by decide +kernel⟩
theorem witness_RecordStoreFrame : LaneAccess stbForm (tWorld GM) GM 2 v m (.v 4) (stRule 4) .st true [6] (at1 4) ∧ (tWorld GM).buffered GM = false ∧
    (∀ j ∈ bitsOn (GM.acting stbForm), ∀ pa va, at1 4 j = some (pa, va) → (tWorld GM).onKickPage pa = false) ∧ ∃ t, exec stbForm (tWorld GM) = .next t :=
  ⟨storesAt 0 (by decide +kernel), by decide +kernel, fun _ _ pa _ _ => (rfl : (tWorld GM).onKickPage pa = false), isNext_spec (by decide +kernel)⟩

/-- REDX's rule, VLDV's and VSTV's. -/
def redxRule : MemRule := { size := 128, write := true, noOrd := true, noVer := true }
def lineRule (w : Bool) : MemRule := { size := 128, write := w, noOrd := true, needVer := true }
def redxForm : Instr := .redx v m .dflt 3 (.v 4) 6 (some 6)
def xrndForm (clr : Bool) : Instr := .xrnd v m .dflt clr .dflt 8 3 (.v 4)
def readout (s : State) (g : Gang) : FpRes := (Xa.ofBytes (rawBytes (s.bytesSeen g (loadedFrame * 4096 + 128) 128))).readout .f32 (g.mode .dflt) g.sat
/-- Each form's effects take at most 144 bytes. -/
theorem witness_BufferedStoresComplete : LaneAccess stbForm (tWorld GM 1) GM 2 v m (.v 4) (stRule 4) .st true [6] (at1 4) ∧
    LaneAccess (.atm v m .cas .dflt 8 2 (.v 4) 6 7) (tWorld GM 1) GM 2 v m (.v 4) (stRule 4) .st true [6, 7] (at1 4) ∧
    LaneAccess redxForm (tWorld GM 1) GM 3 v m (.v 4) redxRule .st false [6, 6] (at1 128) ∧
    LaneAccess (xrndForm true) (tWorld GM 1) GM 3 v m (.v 4) { size := 128 } .ld false [] (at1 128) ∧
    LineAccess (sstAt zero 4 false) (tWorld GM 1) GM 4 (stRule 8) .st true 0 (loadedFrame * 4096) 0 ∧
    LineAccess (.vstv h m 3 3 (.imm 0x41) 6 zero) (verWorld 1) GM 3 (lineRule true) .st false (lineIndex m 1) (loadedFrame * 4096 + 128) 128 ∧
    (∀ s ∈ [tWorld GM 1, verWorld 1], s.buffered GM = true ∧ s.crew? 0 = some loadedCrew ∧ ∀ n ≤ 144, s.hasRoom loadedCrew n = true) ∧
    GM.fpTrap (readout (tWorld GM 1) GM).2 = 0 ∧ GM.lineBad 6 = 0 ∧ (verWorld 1).verSeen GM (loadedFrame * 4096 + 128) = 0 :=
  ⟨storesAt 1 (by decide +kernel), laneAccess_of (by decide +kernel), laneAccess_of (by decide +kernel), laneAccess_of (by decide +kernel),
    lineAccess_of (by decide +kernel), lineAccess_of (by decide +kernel), by decide +kernel⟩

theorem witness_AtomicsComplete :
    LaneAccess (.atm v m .cas .dflt 8 2 (.v 4) 6 7) (tWorld GM) GM 2 v m (.v 4) (stRule 4) .st true [6, 7] (at1 4) ∧
      LaneAccess (.atm v m .add .i64 8 4 (.v 4) 6 0) (tWorld GM) GM 4 v m (.v 4) (stRule 8) .st true [6, 7] (at1 8) ∧ (tWorld GM).buffered GM = false :=
  ⟨laneAccess_of (by decide +kernel), laneAccess_of (by decide +kernel), by decide +kernel⟩

/-- A cell that holds both infinities, under INVT: its readout is invalid. -/
def invCell : State := (tWorld { GM with rmode := 0x80 }).physWrite (loadedFrame * 4096 + 128) (clean (Xa.bytes { Xa.zero with pinf := true, ninf := true }))
theorem witness_CellRows :
    LaneAccess redxForm (tWorld GM) GM 3 v m (.v 4) redxRule .st false [6, 6] (at1 128) ∧
      (∀ b ∈ [true, false], LaneAccess (xrndForm b) (tWorld GM) GM 3 v m (.v 4) { size := 128 } .ld false [] (at1 128)) ∧
      LaneAccess (xrndForm true) invCell { GM with rmode := 0x80 } 3 v m (.v 4) { size := 128 } .ld false [] (at1 128) ∧
      (tWorld GM).buffered GM = false ∧ invCell.buffered GM = false ∧ GM.fpTrap (readout (tWorld GM) GM).2 = 0 ∧
      ({ GM with rmode := 0x80 } : Gang).fpTrap (readout invCell { GM with rmode := 0x80 }).2 ≠ 0 ∧ invCell.far = [] :=
  ⟨laneAccess_of (by decide +kernel), fun b hb => laneAccess_of (by revert b; decide +kernel), laneAccess_of (by decide +kernel), by decide +kernel⟩

def vstvForm (e : Sc) : Instr := .vstv h m 3 3 (.imm 0x41) 6 e
theorem witness_VersionedRowsComplete :
    LineAccess (.vldv h m 8 3 3 (.imm 0x41)) verWorld GM 3 (lineRule false) .ld false (lineIndex m 1) (loadedFrame * 4096 + 128) 128 ∧
      (∀ e ∈ [zero, five], LineAccess (vstvForm e) verWorld GM 3 (lineRule true) .st false (lineIndex m 1) (loadedFrame * 4096 + 128) 128) ∧
      verWorld.buffered GM = false ∧ GM.lineBad 6 = 0 ∧ verWorld.verSeen GM (loadedFrame * 4096 + 128) = 0 :=
  ⟨lineAccess_of (by decide +kernel), fun e he => lineAccess_of (by revert e; decide +kernel), by decide +kernel⟩

/-- Lane 0's offset is 4, lane 1's the first beyond a scratch of 8 bytes, or 2, which is misaligned. -/
def at4 (j : Nat) : Option (Nat × Nat) := if j = 0 then some (4, 4) else none
def GS (o : Nat) : Gang := lanes { tGang with base := 3 } 4 [4, o]
def scratchLaunch : Launch := { loadedLaunch 0 with pkt := { loadedPacket 0 with scratch := 8 } }
def scratchWorld (o : Nat) : State := (tWorld (GS o)).putLaunch 0 scratchLaunch
def phased : State := (tWorld (GS 8)).putLaunch 0 (loadedLaunch 1)
def scratchForms : List (Instr × OpCls × List Nat) :=
  [(.lds v m .dflt 8 (.v 4), .ld, []), (.ldc v m .dflt 8 zero (.v 4), .ld, []), (.sts v m .dflt (.v 4) 6, .st, [6]), (.stc v m .dflt zero (.v 4) 6, .st, [6])]
theorem witness_ScratchRows :
    (∀ x ∈ scratchForms, ScratchAccess x.1 (scratchWorld 8) (GS 8) v m .b32 (.v 4) x.2.1 x.2.2 8 at4 ∧
        ScratchRaises x.1 (scratchWorld 2) (GS 2) v m .b32 (.v 4) x.2.1 x.2.2 8 at4 (fun j => j == 1)) ∧
      (∀ i ∈ [Instr.ldc v m .dflt 8 five (.v 4), .stc v m .dflt five (.v 4) 6], Issues i phased (GS 8)) ∧
      (∀ o ∈ [2, 8], (scratchWorld o).launch? 0 = some scratchLaunch ∧ (scratchWorld o).crew? 0 = some loadedCrew ∧
        (scratchWorld o).ownScratch (GS o) = some 0 ∧ (scratchWorld o).isolated (GS o) 0 = false ∧ (scratchWorld o).bandScratch (GS o) 0 = some 0) ∧
      scratchLaunch.pkt.scratch = 8 ∧ phased.modeOf (GS 8) ≠ 0 ∧ ((phased.crewOf (GS 8)).map (·.inBand)).getD 0 ≠ 5 := by
  have h : ∀ x ∈ scratchForms, scratchAccessB x.1 (scratchWorld 8) (GS 8) v m .b32 (.v 4) x.2.1 x.2.2 8 at4 = true ∧
      scratchRaisesB x.1 (scratchWorld 2) (GS 2) v m .b32 (.v 4) x.2.1 x.2.2 8 at4 (fun j => j == 1) = true := by decide +kernel
  exact ⟨fun x hx => ⟨scratchAccess_of (h x hx).1, scratchRaises_of (h x hx).2⟩, allIssue (by decide +kernel), by decide +kernel⟩

def L1 : State := latchAt16 1 (tWorld GM)
def gath (k : BitVec 4) (sl ss : Sc) : Instr := .cgath v 3 k 4 zero sl ss 0
def scat (k : BitVec 4) : Instr := .cscat v 3 k 4 zero sixteen none64 0
def postForms : List Instr :=
  [gath 2 sixteen zero, gath 2 none64 none64, scat 2, .cpost v 3 zero sixteen 0x40, .ccopy v 3 2 zero zero sixteen none64 0xFFF,
   .ccopyOut v 3 2 zero zero sixteen none64 0, .ccopyTr v 3 2 zero zero sixteen, .cchain v true 3 2 4 zero sixteen none64 0]
def badPosts : List (Instr × Nat) :=
  [(gath 2 five none64, 21), (gath 2 zero none64, 22), (gath 2 none64 five, 21), (gath 6 none64 none64, 13), (scat 5, 14)]
/-- `b6` describes elements of no size; the chain's records are those of `b3` and `b4`. -/
def GP : Gang := GM.bSet 6 (record 5 4)
def postChecked (s : State) (g : Gang) (i : Instr) (c : Option Nat) : Bool := match postOf s g i with
  | some p => decide (p.check s g = c) && (c.isSome || cleanInB g (g.acting i) p.idx && (match postRef p.latch with
      | some o => (p.upd (p.rows s g (g.active (shape i)) (postRef p.status))).over (s.latch g.crew o) == false
      | none => true))
  | none => false
theorem postChecked_spec {s : State} {g : Gang} {i : Instr} {c : Option Nat} (hp : postChecked s g i c = true) :
    ∃ p, postOf s g i = some p ∧ p.check s g = c ∧ (c = none → g.CleanIn (g.acting i) p.idx ∧ ∀ o, postRef p.latch = some o →
      (p.upd (p.rows s g (g.active (shape i)) (postRef p.status))).over (s.latch g.crew o) = false) := by
  unfold postChecked at hp
  split at hp
  · rename_i p hs
    have hp := Bool.and_eq_true_iff.mp hp
    refine ⟨p, hs, of_decide_eq_true hp.1, fun hc => ?_⟩
    subst hc
    have h := Bool.and_eq_true_iff.mp (check_or hp.2 rfl)
    refine ⟨cleanIn_of h.1, fun o ho => ?_⟩
    have := h.2
    rw [ho] at this
    simpa using this
  · cases hp
def postWorld (mode : Nat) : State := latchAt16 1 (tWorld GP mode)
/-- The latch's sector count is at its end; every counter of the class is in use; every context is. -/
def fullLatch : State := (tWorld GP).putLatch 0 16 (2 ^ 4 + 2 ^ 56 + 2 ^ 111 + (2 ^ 32 - 1) * 2 ^ 24)
def busyGang : Gang := { GP with ops := (List.range 63).map (fun k => { id := k, cls := .cp, done := false }) }
def noCtx : State := { postWorld 0 with ctxs := (List.range 16).map (fun k => (k, loadedCtx)) }
theorem witness_PostRows :
    (∀ i ∈ postForms, Issues i (postWorld 0) GP ∧ (postWorld 0).freeCtx GP = some 0 ∧
      ∃ p, postOf (postWorld 0) GP i = some p ∧ p.check (postWorld 0) GP = none ∧ GP.CleanIn (GP.acting i) p.idx ∧
        ∀ o, postRef p.latch = some o →
          (p.upd (p.rows (postWorld 0) GP (GP.active (shape i)) (postRef p.status))).over ((postWorld 0).latch GP.crew o) = false) ∧
      (∀ x ∈ badPosts, Issues x.1 (postWorld 0) GP ∧ ∃ p, postOf (postWorld 0) GP x.1 = some p ∧ p.check (postWorld 0) GP = some x.2) ∧
      (Issues (scat 2) (postWorld 1) GP ∧ ∃ p, postOf (postWorld 1) GP (scat 2) = some p ∧ p.check (postWorld 1) GP = some 28) ∧
      (Issues (gath 2 sixteen none64) fullLatch GP ∧ ∃ p, postOf fullLatch GP (gath 2 sixteen none64) = some p ∧ p.check fullLatch GP = none ∧
        ∀ o, postRef p.latch = some o →
          (p.upd (p.rows fullLatch GP (GP.active (shape (gath 2 sixteen none64))) (postRef p.status))).over (fullLatch.latch GP.crew o) = true) ∧
      (Issues (scat 2) ((postWorld 0).putGang busyGang) busyGang ∧ (postOf ((postWorld 0).putGang busyGang) busyGang (scat 2)).isSome = true ∧
        63 ≤ busyGang.counter .cp) ∧
      (Issues (gath 2 none64 none64) noCtx GP ∧ ∃ p, postOf noCtx GP (gath 2 none64 none64) = some p ∧ p.check noCtx GP = none ∧
        GP.CleanIn (GP.acting (gath 2 none64 none64)) p.idx ∧ postRef p.latch = none) ∧ noCtx.freeCtx GP = none ∧ GP.isHandler = false ∧ GP.counter .cp < 63 := by
  have h1 : ∀ i ∈ postForms, postChecked (postWorld 0) GP i none = true ∧ (postWorld 0).freeCtx GP = some 0 := by decide +kernel
  have h3 : ∀ x ∈ badPosts, postChecked (postWorld 0) GP x.1 (some x.2) = true := by decide +kernel
  have h4 := allIssue (l := badPosts.map (·.1)) (s := postWorld 0) (g := GP) (by decide +kernel)
  have h5 : postChecked (postWorld 1) GP (scat 2) (some 28) = true := by decide +kernel
  refine ⟨fun i hi => ⟨allIssue (by decide +kernel) i hi, (h1 i hi).2, ?_⟩, fun x hx => ⟨h4 _ (List.mem_map_of_mem hx), ?_⟩,
    ⟨issues_of (by decide +kernel), ?_⟩, ⟨issues_of (by decide +kernel), _, rfl, by decide +kernel, ?_⟩, ⟨issues_of (by decide +kernel), by decide +kernel⟩,
    ⟨issues_of (by decide +kernel), _, rfl, by decide +kernel, fun _ _ _ _ => rfl, by decide +kernel⟩, by decide +kernel⟩
  · obtain ⟨p, hp, hc, hq⟩ := postChecked_spec (h1 i hi).1
    exact ⟨p, hp, hc, hq rfl⟩
  · obtain ⟨p, hp, hc, -⟩ := postChecked_spec (h3 x hx)
    exact ⟨p, hp, hc⟩
  · obtain ⟨p, hp, hc, -⟩ := postChecked_spec h5
    exact ⟨p, hp, hc⟩
  · rintro o ho
    obtain rfl : 16 = o := Option.some.inj ho
    decide +kernel

/-- A gang with an unanswered load, one whose PWAIT waits on, and a latch that a gang waits for. -/
def loading : Gang := { GM with ops := [{ id := 1, cls := .ld, done := false }] }
def waitsOn : Gang := { GM with pwaitNt := true }
def watched : State := L1.modCore 0 (fun k => { k with waiters := [{ crew := 0, ofs := 16, slots := 2 }] })
/-- A latch of one arrival at offset 16, in its phase 0; nothing at offset 32, and no latch can stand at offset 5. -/
theorem witness_LatchRows :
    (∀ i ∈ [Instr.lati (lit (2 ^ 20 - 1)) (.imm 0x60) .lit, .larv h sixteen (.imm 0x41) zero, .larv h sixteen zero (.imm 0x41),
        .lrst h sixteen five, .lwait h 3 sixteen (.imm 0x41), .pwait h false 3 zero sixteen (.imm 0x41), .pwait h true 0 zero sixteen five, .owait h .ld zero],
        Issues i L1 GM) ∧
      (∀ i ∈ [Instr.lati h five zero, .larv h five zero zero, .lrst h five zero, .lwait h 3 five zero, .pwait h false 3 zero five zero, .lati (lit (2 ^ 20)) sixteen .lit,
        .larv (lit (2 ^ 20)) sixteen .lit zero, .lrst (lit (2 ^ 20)) sixteen .lit, .larv h (.imm 0x60) zero zero, .lrst h (.imm 0x60) zero, .lwait h 3 (.imm 0x60) zero,
        .pwait h false 3 zero (.imm 0x60) zero, .larv h sixteen zero five, .larv h sixteen five zero], Issues i L1 GM) ∧
      (∀ i ∈ [Instr.lwait h 3 sixteen zero, .pwait h false 3 five sixteen zero, .pwait h true 3 zero sixteen zero, .pwait h false 3 zero sixteen zero], Issues i L1 GM) ∧
      Issues (.lati h sixteen zero) watched GM ∧ Issues (.pwait h false 3 zero sixteen zero) (L1.putGang waitsOn) waitsOn ∧
      Issues (.owait h .ld zero) (L1.putGang loading) loading ∧ (watched.core 0).waiters = [{ crew := 0, ofs := 16, slots := 2 }] ∧ waitsOn.pwaitNt = true ∧
      0 < loading.counter .ld ∧ (L1.latchRange GM 16 = false ∧ L1.latchRange GM 32 = false ∧ L1.latchRange GM 5 = true) ∧ (L1.core 0).waiters = [] ∧
      (latchValid (L1.latch 0 16) = true ∧ latchPhase (L1.latch 0 16) = 0 ∧ latchReload (L1.latch 0 16) = 1 ∧ latchArrive (L1.latch 0 16) = 1 ∧
        latchSect (L1.latch 0 16) = 0) ∧ latchValid (L1.latch 0 32) = false ∧ L1.cyc 0 = 0 ∧ GM.counter .ld = 0 ∧ GM.pwaitNt = false :=
  ⟨allIssue (by decide +kernel), allIssue (by decide +kernel), allIssue (by decide +kernel), issues_of (by decide +kernel), issues_of (by decide +kernel),
    issues_of (by decide +kernel), by decide +kernel⟩

/-- A launch that is not co-scheduled, and one that is not FREE; the last arrival at a barrier at its last phase. -/
def apart : Launch := { loadedLaunch 0 with pkt := { loadedPacket 0 with cosched := false } }
def arrived : Crew := { loadedCrew with bar := { phase := 15, arrived := 1 } }
def arrivedL : Launch := { loadedLaunch 0 with bar := { phase := 15, arrived := 1 } }
theorem witness_BarrierRows :
    (∀ i ∈ [Instr.cbar h zero, .cbar h (.imm 0x41), .cbar h five, .gbar h zero, .gbar h five], Issues i W tGang) ∧ Issues (.gbar h zero) (W.putLaunch 0 apart) tGang ∧
      Issues (.gbar h zero) (W.putLaunch 0 (loadedLaunch 1)) tGang ∧ tGang.isHandler = false ∧ W.crew? 0 = some loadedCrew ∧ loadedCrew.live = 1 ∧
      W.launch? 0 = some (loadedLaunch 0) ∧ (loadedLaunch 0).pkt.cosched = true ∧ (loadedLaunch 0).pkt.mode = 0 ∧ W.launchReload 0 ≠ 5 ∧
      apart.pkt.cosched = false ∧ ((loadedLaunch 1).pkt.cosched = true ∧ (loadedLaunch 1).pkt.mode ≠ 0) ∧
      ((W.putCrew 0 arrived).crew? 0 = some arrived ∧ 0 < arrived.bar.arrived ∧ arrived.live ≤ arrived.bar.arrived ∧ (W.putCrew 0 arrived).gang? 0 0 = some tGang) ∧
      ((W.putLaunch 0 arrivedL).launch? 0 = some arrivedL ∧ 0 < arrivedL.bar.arrived ∧ arrivedL.pkt.gangCount - arrivedL.exited ≤ arrivedL.bar.arrived ∧
        (W.putLaunch 0 arrivedL).gang? 0 0 = some tGang) ∧
      (loadedCrew.bar.arrived < loadedCrew.live ∧ (loadedLaunch 0).bar.arrived < (loadedLaunch 0).pkt.gangCount - (loadedLaunch 0).exited) :=
  ⟨allIssue (by decide +kernel), issues_of (by decide +kernel), issues_of (by decide +kernel), by decide +kernel⟩

def anEvent : Event := { time := 10, serial := 1, handler := 0, prio := 0, princ := 0x51, pay := 0 }
def aLane : LaneEv := { ev := anEvent, idx := 0, aborts := 0 }
/-- A gang of one lane with its event, in a running span. -/
def GE : Gang := { tGang with base := 1, evs := [(0, { aLane with ch := 4095 })], now := [(0, 10)] }
def spanWorld : State := (tWorld GE 2).putLaunch 0 { loadedLaunch 2 with span := some { no := 1, running := true } }
def evsForm : Instr := .evs v 0 false 14 (.s zero) (.s zero) (.v 8)
theorem witness_EventRows :
    (∀ i ∈ [evsForm, .evc v (.s zero) (.s zero), .evr v .time 14, .evr v .handler 14, .evx v (.s five)], Issues i spanWorld GE) ∧
      (∀ i ∈ [evsForm, .evc v (.s zero) (.s zero), .evr v .time 14, .evx v (.s five)], Issues i (tWorld GE) GE ∧ Issues i HW hGang) ∧ (∀ m r, GE.CleanIn m r) ∧
      spanWorld.modeOf GE = 2 ∧ spanWorld.crew? GE.crew = some loadedCrew ∧ (spanWorld.hasRoom loadedCrew 48 = true ∧ spanWorld.hasRoom loadedCrew 32 = true) ∧
      GE.counter .ev < 63 ∧ bitsOn (GE.acting evsForm) = [0] ∧ GE.laneEv 0 = some { aLane with ch := 4095 } ∧
      (evsLane (spanWorld.spGet GE .span) 0 false (spanWorld.pair GE none (.s zero) 0) 0 0 (Store.get GE.now 0) (GE.keyOf 0)
        { aLane with ch := 4095 }).isSome = true ∧ (tWorld GE).modeOf GE ≠ 2 ∧ HW.modeOf hGang ≠ 2 :=
  ⟨allIssue (by decide +kernel), fun i hi => ⟨allIssue (by decide +kernel) i hi, allIssue (by decide +kernel) i hi⟩, fun _ _ _ _ _ _ => rfl, by decide +kernel⟩

def kForms : List Instr :=
  [.kmov h 1 (.k 2), .kadd h 3 (.k 1) (.imm 0x7F), .ksub h 3 (.k 1) (.k 2), .kmul h 3 (.k 1) (.k 2), .kand h 3 (.k 1) (.k 2), .kshl h 3 (.k 1) (.imm 0x7F),
   .kshr h .i64 3 (.k 2) (.imm 0x44), .kcmp h .n64 .le 15 (.k 1) (.k 2)]
/-- The context of a running program: 7, −8 and 1 in `k1` to `k3`, and its core's latch of one arrival at offset 16. -/
def KC : CopyCtx := { loadedCtx with k := [(1, 7), (2, 0xFFFFFFFFFFFFFFF8), (3, 1)] }
def KW : State := latchAt16 1 (cWorld KC)
theorem copyClean {s : State} {c : CopyCtx} (l : List KSc) (h0 : copyIssuesB s 0 0 c [] = true) (hl : l.all (fun x => !c.bad x) = true) :
    CopyIssues s 0 0 c l := { copyIssues_of h0 with clean := by simpa using hl }
theorem witness_CopyRows :
    (∀ i ∈ kForms, ∃ l d x, copyRow KC i = some (l, d, x) ∧ CopyIssues KW 0 0 KC l) ∧
      (∀ l ∈ [[], [KSc.k 1], [.k 3], [.k 4], [.imm 0x50, .imm 0x41], [.imm 0x48, .k 1]], CopyIssues KW 0 0 KC l) ∧
      KC.src none (.k 4) = 0 ∧ KC.src none (.k 1) ≠ 0 ∧ KC.kGet 3 = 1 ∧ KC.kGet 1 ≠ 1 ∧ (KC.src none (.imm 0x50)).toNat = 16 ∧
      KW.latchOut 0 16 = false ∧ latchValid (KW.latch 0 16) = true ∧ latchArrive (KW.latch 0 16) = 1 ∧ 8 + 8 ≤ KW.scratchOf 0 := by
  have h0 : copyIssuesB KW 0 0 KC [] = true := by decide +kernel
  have hk : ∀ i ∈ kForms, (copyRow KC i).any (fun r => r.1.all (fun x => !KC.bad x)) = true := by decide +kernel
  refine ⟨fun i hi => ?_, fun l hl => copyClean l h0 (by revert l; decide +kernel), by decide +kernel⟩
  have := hk i hi
  cases hr : copyRow KC i with
  | none => rw [hr] at this; cases this
  | some r => rw [hr] at this; exact ⟨r.1, r.2.1, r.2.2, rfl, copyClean _ h0 (by simpa using this)⟩
/-- Generators: 0 in scratch at 64, 1 at virtual address 256, 2 in scratch at 128 whose records step by 4. -/
def GC : CopyCtx :=
  { KC with gens := [(0, { base := 64, scratch := true, ext := [4], stride := [8], idx := [0], done := false }),
                     (1, { base := 256, scratch := false, ext := [4], stride := [128], idx := [3], done := false })], latch := some 16 }
/-- The descriptor of a generator of one dimension of four steps of 8 bytes, at scratch offset 48. -/
def GWorld : State := (latchAt16 1 (cWorld GC)).scratchWrite 0 48 (clean (leBytes 48 (2 ^ 59 + 4 * 2 ^ 64 + 8 * 2 ^ 96)))
theorem witness_GeneratorRowsComplete :
    (∀ l ∈ [[], [KSc.imm 0x70]], CopyIssues GWorld 0 0 GC l) ∧ ((GC.src none (.imm 0x70)).toNat = 48 ∧ 48 + 48 ≤ GWorld.scratchOf 0) ∧
      anyBad (GWorld.scratchRead 0 48 48) = false ∧ (genOfDesc (natOf (GWorld.scratchRead 0 48 48))).isSome = true ∧
      (GC.gen? 0).map GenSt.here = some (.scratch 64) ∧ (GC.gen? 1).isSome = true ∧ GC.failNext = false ∧ GC.rows = [] ∧
      GWorld.ctxFar 0 0 = false ∧ 64 + Fmt.n64.bytes ≤ GWorld.scratchOf 0 :=
  ⟨fun l hl => copyClean l (by decide +kernel) (by revert l; decide +kernel), by decide +kernel⟩
/-- The second generator stands at address 640; there a page has tag 9, which is closed; RESOLVE failed the KLD; a peer has failed it. -/
def GAt : RowAt := { core := 0, ix := 0, c := GC, key := GC.key, wid := GC.wid, pcofs := GC.pc.setWidth 32 }
def GShut : State := { GWorld with tlb := [{ loadedLeaf with leaf := { loadedLeaf.leaf with door := 9 } }] }
def GAway : State := { GWorld with tlb := [{ loadedLeaf with leaf := { loadedLeaf.leaf with far := true, peer := 5 } }] }
def GLost : CopyCtx := { GC with arrived := [{ lane := 0, data := none, failed := true }] }
theorem witness_GeneratorRowsComplete_global :
    ((GC.gen? 1).map GenSt.here = some (.global 640) ∧ (∀ p ∈ piecesOf 640 8, GWorld.translate 0 (GWorld.ctxOf 0) p.1 = .leaf loadedLeaf.leaf ∧
        loadedLeaf.leaf.loc p.1 = .here (loadedFrame * 4096 + p.1) ∧ GWorld.granted 0 (GWorld.ctxOf 0) GC.key 0 = true ∧
        GWorld.grantWaits 0 (GWorld.ctxOf 0) GC.key 0 = false ∧ GWorld.memReady (loadedFrame * 4096 + p.1) = true) ∧ GC.arrived = []) ∧
      (match GAt.read GWorld .kld 0 640 8 with | (_, .data l) => l.length == 8 | _ => false) = true ∧ (GAt.read GShut .kld 0 640 8).2 = .denied ∧
      (({ GAt with c := GLost } : RowAt).read GAway .kld 0 640 8).2 = .fail 2 := by decide +kernel
theorem witness_GeneratorRowsComplete_ends : CopyIssues GShut 0 0 GC [] ∧ CopyIssues (GAway.putCtx 0 0 GLost) 0 0 GLost [] ∧
    CopyIssues (GWorld.putCtx 0 0 { GC with failNext := true }) 0 0 { GC with failNext := true } [] :=
  ⟨copyIssues_of (by decide +kernel), copyIssues_of (by decide +kernel), copyIssues_of (by decide +kernel)⟩

def xferForms : List Instr :=
  [.xcopy h 0 1 (.imm 0x44), .xgath h 0 1 (.imm 0x43) (.imm 0x44), .xscat h 1 0 (.imm 0x44) (.imm 0x44), .xtran h (.imm 0x43) 1, .xfill h 0 (.k 1) (.imm 0x44),
   .xcopyv h 3 1 (.k 3) 0]
theorem witness_TransferRowsComplete :
    (∀ i ∈ xferForms, ∃ r, xferRow GWorld GC i = some r ∧ CopyIssues GWorld 0 0 GC r.srcs ∧ r.lenOk ∧ rowSectors r.dst r.len < 2 ^ 32 - 1) ∧
      ((GWorld.launch? GC.launch).map (·.pkt.mode)).getD 0 = 0 ∧
      (latchValid (GWorld.latch 0 16) = true ∧ latchSect (GWorld.latch 0 16) = 0 ∧ latchArrive (GWorld.latch 0 16) < 2 ^ 20) := by
  have hk : ∀ i ∈ xferForms, (xferRow GWorld GC i).any (fun r => r.srcs.all (fun x => !GC.bad x) && (r.len % 4 == 0 && (decide (4 ≤ r.len) &&
      (decide (r.len ≤ 16384) && decide (rowSectors r.dst r.len < 2 ^ 32 - 1))))) = true := by decide +kernel
  refine ⟨fun i hi => ?_, by decide +kernel, by decide +kernel⟩
  have := hk i hi
  cases hr : xferRow GWorld GC i with
  | none => rw [hr] at this; cases this
  | some r =>
    rw [hr] at this
    simp only [Option.any_some, Bool.and_eq_true, beq_iff_eq, decide_eq_true_eq] at this
    exact ⟨r, rfl, copyClean _ (by decide +kernel) this.1, ⟨this.2.1, this.2.2.1, this.2.2.2.1⟩, this.2.2.2.2⟩

/-- Tables whose root stands at 0x1000, as the bytes that are not 0. Page 0 is writable, page 1 read-only, page 2 is peer 5's, page 3 stands on die 1, page 4
has DOOR 9. -/
def tables : List Host.Cell :=
  [(0x1000, 1), (0x1004, 0x20), (0x2000, 1), (0x2004, 0x30), (0x3000, 1), (0x3004, 0x40), (0x4000, 1), (0x4004, 0x50),
   (0x5000, 0x13), (0x5005, 1), (0x5008, 0x11), (0x500C, 0x10), (0x500D, 1), (0x5010, 0x33), (0x5013, 0x50), (0x5018, 0x13), (0x501F, 0x30),
   (0x5020, 0x13), (0x5021, 9), (0x5024, 0x20), (0x5025, 1)]
def entries : List Nat := [19 + 16 * 2 ^ 36, 17 + 17 * 2 ^ 36, 51 + 5 * 2 ^ 28, 19 + 0x3000000 * 2 ^ 36, 19 + 9 * 2 ^ 8 + 18 * 2 ^ 36]
def pageLeaf (k : Nat) : Leaf := Leaf.ofEntry (entries.getD k 0)
def MW : State := { W with mem := tables, ctxRegs := [(0, 0x1000)] }
/-- The same before die 1 is ready, and before an image is loaded. -/
def dieOut : State := { MW with readyBits := BitVec.allOnes 64 &&& ~~~ 0x1F80 }
theorem witness_MailboxMemoryRows :
    (∀ s ∈ [MW, { MW with image := false, readyBits := 1 }, dieOut, { MW with readyBits := 1 }], Serves s) ∧ MW.image = true ∧
      (dieOut.image = true ∧ dieOut.anyNotReady [(0x3000000000, 4)] = true ∧ (∀ w : Bool, dieOut.hostPieces 0 0x3000 4 w = some [(0x3000000000, 4)]) ∧
        ({ MW with readyBits := 1 } : State).hostWaits 0 0 4 = true) ∧
      (lenBad 4096 = false ∧ lenBad 4 = false ∧ lenBad 4100 = true ∧ lenBad 0 = true ∧ lenBad 6 = true) ∧ MW.anyNotReady [(0, 4096)] = false ∧
      MW.hostWaits 0 0 4096 = false ∧ MW.hostPieces 0 0 4096 true = some [(0x10000, 4096)] ∧ MW.hostPieces 0 0 4096 false = some [(0x10000, 4096)] ∧
      MW.anyNotReady [(0x10000, 4096)] = false ∧ MW.hostWaits 0 4096 4 = false ∧ MW.hostPieces 0 4096 4 true = none ∧
      MW.hostWaits 0 0x20000 4 = false ∧ MW.hostPieces 0 0x20000 4 false = none := by
  refine ⟨fun s hs => serves_of ?_, by decide +kernel⟩
  revert s; decide +kernel

def MP : State := { W with pre1 := 2 ^ 61 }
theorem witness_MailboxControlRows :
    Serves W ∧ Serves MP ∧ W.image = true ∧ (W.regWrite 15 0x40 (2 ^ 57 - 1)).isSome = true ∧ W.regWrite 15 0x40 (2 ^ 57) = none ∧ W.regWrite 0 0xA0 0 = none ∧
      regKind 0x98 ≠ none ∧ regKind 0xA0 = none ∧ W.memReady (W.qaddr 63) = true ∧ (∃ e ∈ W.tlb, e.ctx ≠ 15) ∧ W.busyPre = false ∧ MP.busyPre = true :=
  ⟨serves_of (by decide +kernel), serves_of (by decide +kernel), by decide +kernel⟩

/-- Each offset of the table, and each bound, is met by some value; 0xA0 is outside. -/
theorem witness_ContextRegisterWrites :
    W.fatal = none ∧ ((2 ^ 57 - 4096 : DWord).toNat < 2 ^ 57 ∧ (2 ^ 57 - 4096 : DWord).toNat % 4096 = 0) ∧
      (0x80 : BitVec 8).toNat ∈ [0x00, 0x08, 0x18, 0x58, 0x80] ∧ (0x88 : BitVec 8).toNat ∈ [0x10, 0x20, 0x60, 0x88] ∧
      (0x98 : BitVec 8).toNat ∈ [0x30, 0x48, 0x70, 0x98] ∧ (0x78 : BitVec 8).toNat ∈ [0x38, 0x78] ∧ (0x90 : BitVec 8).toNat ∈ [0x28, 0x68, 0x90] ∧
      (0xA0 : BitVec 8).toNat ∉ [0x00, 0x08, 0x10, 0x18, 0x20, 0x28, 0x30, 0x38, 0x40, 0x48, 0x50, 0x58, 0x60, 0x68, 0x70, 0x78, 0x80, 0x88, 0x90, 0x98] := by
  decide +kernel

/-- Queue 0 with one slot at virtual address 0, in service, empty; peer 5 may use it. -/
def qDesc (widx : Nat) : List PByte := clean (leBytes 64 (2 ^ 63 + 0x2000 * 2 ^ 128 + widx * 2 ^ 192))
def peer5 : Acl := { keyHi := 0, keyLo := 0, v := true, kset := false, maxPrio := 0, peer := 5, qmask := 1 }
def QW (widx : Nat) : State := { MW.physWrite 0 (qDesc widx) with acl := [(0, peer5)] }
theorem witness_KickAndPreemptRows :
    (∀ s ∈ [QW 0, { QW 0 with qFresh := 1 }], s.fatal = none ∧ s.memReady (s.qaddr 0) = true ∧ (s.restartQ 0).qEn 0 = true ∧ (s.restartQ 0).qWidx 0 = 0 ∧
        (s.restartQ 0).qDone 0 + (s.restartQ 0).qLen 0 = 1) ∧ (QW 0).qFresh.getLsbD 0 = false ∧ (QW 0).aclFor 5 0 = some peer5 ∧ (QW 0).aclFor 6 0 = none ∧
      ({ QW 0 with readyBits := 1 } : State).memReady 0 = false ∧ (QW 0).busyPre = false ∧ { QW 0 with pre1 := 2 ^ 61 }.busyPre = true ∧
      (QW 0).crew? 0 = some loadedCrew ∧ loadedCrew.core = 0 ∧ loadedCrew.stat = .running := by decide +kernel
/-- A gang with an unanswered load of lane 0 (id 6) and an unanswered write (id 7) at peer 5, behind ports 0 and 1; tag 9 is closed to key 0. A copy row
asks for the tag of the page that it is to write (id 8). -/
def FG (st : Stat) : Gang := { tGang with ops := [{ id := 1, cls := .ld, done := false }, { id := 7, cls := .st, done := false }], stat := st }
def req (id : Nat) (op : FarOp) (w : FarWait) : FarReq :=
  { id := id, peer := 5, from_ := 0, ctx := 0, key := 0, keys := [{ lane := 0, key := 0, wid := 0 }], tag := 0, va := 0, line := 0, op := op, what := w, ord := false
    sent := 0 }
def ask6 : FarReq := req 6 (.load 4) (.gang 0 0 0)
def ask7 : FarReq := req 7 (.store [1] [false]) (.write 0 0 0 0 0 0 7)
def ask8 : FarReq := req 8 (.load 4) (.row 0 0 probePiece)
def ask9 : FarReq := req 9 (.load 130) (.check 0 3)
def FW (cyc : Nat) (st : Stat) : State :=
  { ((tWorld (FG st)).modCore 0 (fun k => { k with cyc := cyc })) with
    far := [ask6, ask7, ask8, ask9], ports := [(0, { peer := 5, up := true }), (1, { peer := 5, up := true })] }
def failedGang : Gang := { tGang with failed := [0x40, 0x80] }
def partDone : Gang := { failedGang with arrived := [{ lane := 0, data := some [], failed := false }] }
theorem witness_FarRows :
    (MW.fatal = none ∧ MW.farBehind 5 8 = false ∧ MW.translate Config.engineCore 0 0x20000 = .fault 0 ∧
        (∀ k < 5, (if k = 3 then dieOut else MW).translate Config.engineCore 0 (k * 4096 + 8) = .leaf (pageLeaf k)) ∧
        (∀ k ∈ [0, 1, 4], (pageLeaf k).loc (k * 4096 + 8) = .here ((pageLeaf k).pfn * 4096 + 8) ∧ MW.memReady ((pageLeaf k).pfn * 4096 + 8) = true ∧
          (pageLeaf k).far = false) ∧ ((pageLeaf 0).w = true ∧ (pageLeaf 1).w = false ∧ (pageLeaf 4).w = true) ∧
        ((pageLeaf 0).door = 0 ∧ (pageLeaf 4).door = 9) ∧ (pageLeaf 2).far = true ∧
        (pageLeaf 3).loc 0x3008 = .here 0x3000000008 ∧ dieOut.memReady 0x3000000008 = false) ∧
      (farWrites (.store [1] []) = true ∧ farWrites (.load 4) = false ∧ MW.onKickPage 0x10008 = false) ∧
      (∀ f ∈ [ask6, ask7, ask8, ask9], (FW 5 .ready).far.find? (fun r => r.id == f.id && (FW 5 .ready).departed r) = some f ∧
        (FW 5 .ready).answerWaits f 0 = false ∧ (FW 5 .ready).answerWaits f 9 = false) ∧ (FW 5 .ready).far.find? (fun r => r.id == 3 && (FW 5 .ready).departed r) = none ∧
      (ask6.probes = false ∧ ask7.probes = false ∧ ask8.probes = true ∧ ask8.tag = 0 ∧ ask6.looks = false ∧ ask9.looks = true) ∧
      (((FW 5 .ready).dropFar 6).deniedKeys ask6 0 = [] ∧ ((FW 5 .ready).dropFar 6).deniedKeys ask6 9 ≠ []) ∧
      (0 + 2 ^ 24 ≤ (FW (2 ^ 24) .ready).cyc 0 ∧ (FW (2 ^ 24 - 1) .ready).cyc 0 < 0 + 2 ^ 24) ∧
      ((FW 5 .ready).gang? 0 0 = some (FG .ready) ∧ (FG .ready).ops.any (fun o => o.id == 7) = true ∧ gkey (FG .ready).core (FG .ready).slot = gkey 0 0) ∧
      Tab.get? (FW 5 .ready).ports 2 = none ∧ Tab.get? (FW 5 .ready).ports 0 = some { peer := 5, up := true } ∧
      { FW 5 .ready with ports := Tab.set (FW 5 .ready).ports 0 { peer := 5, up := false } }.reachable 5 = true ∧
      { FW 5 .ready with ports := [(0, { peer := 5, up := false })] }.reachable 5 = false ∧
      (isCode (.vmov v .dflt 3 (.v 2)) = true ∧ (shape (.vmov v .dflt 3 (.v 2))).opc.toNat < 0x78 ∧ (tWorld failedGang).cur = some (.gang 0 0) ∧
        (tWorld failedGang).gang? 0 0 = some failedGang ∧ (tWorld failedGang).mayIssue failedGang = true ∧ failedGang.notBefore ≤ (tWorld failedGang).cyc 0) ∧
      (failedGang.arrived = [] ∧ partDone.arrived ≠ [] ∧ (tWorld partDone).gang? 0 0 = some partDone ∧ (tWorld partDone).mayIssue partDone = true) ∧
      (∀ op ∈ [FarOp.load 4, .store [1] []], farKind op = farWrites op) := by decide +kernel

/-- A packet of one crew of one gang and one lane, of this kind byte and mode byte; its arguments, all 0, stand at virtual address 256, and the descriptor of a SPAN
packet at 0x8000, with no seeds and room for 16 handlers and 2^10 events. -/
def packet (kind mode : Nat) : Nat :=
  kind + mode * 256 + 256 ^ 3 + 256 ^ 4 + 6 * 256 ^ 5 + 8 * 256 ^ 0x0E + 0x00010102 * 256 ^ 0x14 + 256 * 256 ^ 0x60 + (if mode = 2 then 0x8000 * 256 ^ 0x68 else 0)
def goodDesc : Nat := 10 * 2 ^ 57 + 4 * 2 ^ 166
def selfMarker : Nat := packet 1 0 + 2 ^ 63 * 256 ^ 0x28
/-- The bytes of memory that are not 0: queue 0's descriptor, the tables, the descriptor of a SPAN packet, the packet. -/
def PW (x : Nat) (desc : Bool := true) : State :=
  { QW 1 with mem := [(7, 0x80), (17, 0x20), (24, 1)] ++ tables ++ (if desc then [(0x8007, 0x14), (0x8015, 1)] else []) ++
      (((List.range 128).map (fun k => (loadedFrame * 4096 + k, BitVec.ofNat 8 (x / 256 ^ k)))).filter (fun c => c.2 != 0)) }
def takesUpB (s : State) (q : BitVec 6) (x a : Nat) : Bool :=
  let at_ := bitField (pktField x 0x60 8) 56 0
  let slot := s.enginePieces q.toNat (s.slotAddr q.toNat) 128
  let args := s.enginePieces q.toNat at_ 64
  [s.fatal == none, s.readyBits.getLsbD 0, s.image, s.memReady (s.qaddr q.toNat), !s.qFresh.getLsbD q.toNat, s.qEn q.toNat,
    decide (s.qRidx q.toNat < s.qWidx q.toNat), s.engineRead slot == some x, pktKind x != 0 || s.engineRead args == some a, pktKind x == 0 || a == 0,
    !s.hostWaits (q.toNat / 4) (s.slotAddr q.toNat) 128, pktKind x != 0 || !s.hostWaits (q.toNat / 4) at_ 64,
    (match slot, if pktKind x = 0 then args else some [] with
      | some l, some m =>
        !s.anyNotReady (l ++ m ++ (if pktKind x = 0 ∧ bitField (pktField x 1 1) 1 0 = 2 then s.spanMemory (pktField x 0x68 8) else []) ++ [(s.qStat q.toNat, 8)])
      | _, _ => true), s.phaseOpen q.toNat (s.qRidx q.toNat) (pktPhase x), !waitOn x || selfWait x q.toNat (s.qRidx q.toNat)].all id
theorem takesUp_of {s : State} {q : BitVec 6} {x a : Nat} (h : takesUpB s q x a = true) : TakesUp s q x a where
  whole := by simpa using check_at h 0
  mbox := by simpa using check_at h 1
  image := by simpa using check_at h 2
  table := by simpa using check_at h 3
  old := by simpa using check_at h 4
  enabled := by simpa using check_at h 5
  behind := by simpa using check_at h 6
  packet := by simpa using check_at h 7
  words k := by simpa using check_or (check_at h 8) (by simp [k])
  none_ k := by simpa using check_or (check_at h 9) (by simpa using k)
  slotMapped := by simpa using check_at h 10
  argsMapped k := by simpa using check_or (check_at h 11) (by simp [k])
  ready l m hl hm := by
    have e : (if pktKind x = 0 then s.enginePieces q.toNat (bitField (pktField x 0x60 8) 56 0) 64 else some []) = some m := by
      split at hm
      · rw [if_pos ‹_›]; exact hm
      · rw [if_neg ‹_›, hm]
    have := check_at h 12
    simp only [List.getD_cons_succ, List.getD_cons_zero, hl, e] at this
    simpa using this
  phase := by simpa using check_at h 13
  waits hw hs := by
    have := check_or (check_at h 14) (by simp [hw])
    rw [hs] at this; cases this
/-- The entry of peer 5 allows priority 1 at best for the packet in the slot; a MARKER that waits on itself; a launch with nothing left. -/
def kickedBy5 (x : Nat) : State := { PW x with kicks := [{ q := 0, lo := 0, hi := 1, entry := { peer5 with maxPrio := 1 } }] }
def nothingLeft : State := { W with crews := [], gangs := [] }
theorem witness_QueueRows :
    (∀ x ∈ [packet 0 0, packet 0 2, packet 0 3, packet 1 0, selfMarker], TakesUp (PW x) 0 x 0) ∧
      (∀ s ∈ [PW (packet 0 2) false, { PW (packet 0 2) with readyBits := BitVec.allOnes 64 &&& ~~~ oneBit 64 21 }], TakesUp s 0 (packet 0 2) 0) ∧
      (∀ x ∈ [packet 0 0, packet 0 2], TakesUp (kickedBy5 x) 0 x 0 ∧ packetBad x 0 0 (packetOf x []) = false ∧
        (PW x).aclDenied 0 0 (packetOf x []) = false ∧ (kickedBy5 x).aclDenied 0 0 (packetOf x []) = true) ∧
      (pktKind (packet 0 0) = 0 ∧ pktKind (packet 0 2) = 0 ∧ pktKind (packet 0 3) = 0 ∧ pktKind (packet 1 0) = 1 ∧ pktKind selfMarker = 1) ∧
      (bitField (pktField (packet 0 0) 1 1) 1 0 ≠ 2 ∧ bitField (pktField (packet 0 2) 1 1) 1 0 = 2 ∧ packetBad (packet 0 3) 0 0 (packetOf (packet 0 3) []) = true) ∧
      ((packetOf (packet 0 2) []).store = 0x8000 ∧ (PW (packet 0 2)).spanDesc 0x8000 = some goodDesc ∧ descBad goodDesc = false ∧
        (PW (packet 0 2)).seeds goodDesc = some [] ∧ (PW (packet 0 2) false).spanDesc 0x8000 = some 0 ∧ descBad 0 = true) ∧
      (selfWait (packet 1 0) 0 0 = false ∧ selfWait selfMarker 0 0 = true) ∧
      (let s := { PW (packet 0 0) with qFresh := 1 }
       s.fatal = none ∧ s.memReady (s.qaddr 0) = true) ∧
      (nothingLeft.launch? 0 = some (loadedLaunch 0) ∧ nothingLeft.memReady (nothingLeft.qaddr 0) = true ∧ nothingLeft.memReady (nothingLeft.qaddr 0 + 63) = true ∧
        nothingLeft.anyNotReady [(nothingLeft.qStat 0, 8)] = false ∧ nothingLeft.launchOver 0 (loadedLaunch 0) = true) := by
  have hk : ∀ x ∈ [packet 0 0, packet 0 2], takesUpB (kickedBy5 x) 0 x 0 = true ∧ packetBad x 0 0 (packetOf x []) = false ∧
      (PW x).aclDenied 0 0 (packetOf x []) = false ∧ (kickedBy5 x).aclDenied 0 0 (packetOf x []) = true := by decide +kernel
  refine ⟨fun x hx => takesUp_of ?_, fun s hs => takesUp_of ?_, fun x hx => ⟨takesUp_of (hk x hx).1, (hk x hx).2⟩, by decide +kernel⟩
  · revert x; decide +kernel
  · revert s; decide +kernel

/-- Launch 0 has its one band still to be admitted, since cycle 0, before a launch of the same PRIO taken up later; of launch 1 a crew runs again. -/
def waiting : Launch := { apart with nextBand := 0 }
def bandWorld (cyc : Nat) : State :=
  { State.reset with
    launches := [(0, waiting), (1, { loadedLaunch 0 with order := 1 })], crews := [(7, { loadedCrew with launch := 1, stat := .requeued })]
    cores := [(0, { cyc := cyc })], readyBits := BitVec.allOnes 64 }
/-- Launch 1 has a blocking band. -/
def blocked : State := { State.reset with launches := [(0, waiting), (1, { waiting with order := 1, blocking := true }), (2, { waiting with order := 2, blocking := true })] }
/-- A crew with nothing left, of this mode, with one effect of 16 bytes and a log of `log` bytes; one whose effects fit no log. -/
def anEff : Eff := { size := 16, pc := 0, wid := 0, keys := [{ lane := 0, key := 0, wid := 0 }], evIx := none, kind := .store (.here 0x10008) [5] }
def lastCrew (st : CrewStat) : Crew := { loadedCrew with live := 0, stat := st, effects := [anEff] }
def emptied (st : CrewStat) (mode log : Nat) : State :=
  { (W.putLaunch 0 { loadedLaunch mode with pkt := { loadedPacket mode with loglen := log } }).putCrew 0 (lastCrew st) with gangs := [] }
def stopped : State := ({ W with preCrews := [0] }.putGang stoppedGang).putCore 0 { part := some 0x00010102, stops := [hStop] }
def oneBankOut : State := stopped.modCore 0 (fun k => { k with failedBanks := [3] })
def savedCrew : Crew := { loadedCrew with stat := .saved, saved := [tGang] }
def savedWorld : State := { W.putCrew 0 savedCrew with gangs := [] }
/-- One effect is applied, and the next, on a page with ORD = 1, waits for one that peer 5 has not answered. -/
def begunCrew : Crew := { loadedCrew with live := 0, stat := .retired, effects := [anEff, { anEff with ord := true }], applied := some 1 }
def begun : State :=
  { (W.putLaunch 0 (loadedLaunch 1)).putCrew 0 begunCrew with gangs := [], far := [{ req 9 (.store [1] []) (.commit 0 0 0 0 false) with ord := true }] }
/-- Crew 1 retires after crew 0, which runs and is to commit before it. -/
def afterOther (mode log : Nat) : State := (emptied .running mode log).putCrew 1 { loadedCrew with live := 0, effects := [anEff] }
theorem witness_CrewRows_log : ∀ x ∈ [((1 : Nat), (16 : Nat)), (1, 0), (2, 16)],
    (afterOther x.1 x.2).crew? 1 = some { loadedCrew with live := 0, effects := [anEff] } ∧ (afterOther x.1 x.2).crewGangs 1 = [] ∧
      ((afterOther x.1 x.2).launch? 0).map (·.pkt.mode) = some x.1 ∧ (afterOther x.1 x.2).uncommitted 0 = [0, 1] ∧ (lastCrew .running).stat ≠ .retired ∧
      ((afterOther x.1 x.2).logUsed 0 - 0 + effBytes [anEff] ≤ x.2 ↔ x.2 = 16) ∧ (afterOther x.1 x.2).poolsWhole = true := by decide +kernel
theorem witness_CrewRows :
    (bandWorld 0).fatal = none ∧ ((bandWorld 0).canRestore = false ∧ (bandWorld 0).launches = [] ++ (0, waiting) :: [(1, { loadedLaunch 0 with order := 1 })] ∧
        (bandWorld 0).launch? 0 = some waiting ∧ (bandWorld 0).shutOut 0 waiting = false ∧ waiting.pkt.prio ≤ (loadedLaunch 0).pkt.prio ∧
        ((bandWorld 0).admitNext 0).isSome = true ∧ waiting.done = false ∧ waiting.overflow = false ∧ waiting.pkt.mode ≠ 2 ∧ waiting.pkt.cosched = false ∧
        (bandWorld 0).requeued 0 = [] ∧ waiting.nextBand < waiting.pkt.bandCount ∧ ((bandWorld 0).placeBand 0 waiting.pkt 0 0).isSome = true) ∧
      (savedWorld.fatal = none ∧ savedWorld.canRestore = true) ∧ (∀ x ∈ blocked.launches, blocked.shutOut x.1 x.2 = true) ∧
      ((bandWorld (2 ^ 20)).launch? 0 = some waiting ∧ waiting.pendingSince + 2 ^ 20 ≤ (bandWorld (2 ^ 20)).clock ∧
        (bandWorld (2 ^ 20)).launch? 1 = some { loadedLaunch 0 with order := 1 } ∧
        ∃ x ∈ (bandWorld (2 ^ 20)).requeued 1, x.2.queuedAt + 2 ^ 20 ≤ (bandWorld (2 ^ 20)).clock) ∧
      (∀ x ∈ [((0 : Nat), (0 : Nat)), (1, 16), (1, 0)], (emptied .running x.1 x.2).crew? 0 = some (lastCrew .running) ∧
        (emptied .running x.1 x.2).ctxs.any (fun y => y.2.crew == 0) = false ∧ ((emptied .running x.1 x.2).core 0).streams.any (fun y => y.crew == 0) = false ∧ (emptied .running x.1 x.2).crewGangs 0 = [] ∧
        ((emptied .running x.1 x.2).launch? 0).map (·.pkt.mode) = some x.1 ∧ ((emptied .running x.1 x.2).logUsed 0 - 0 + effBytes [anEff] ≤ x.2 ↔ x.2 = 16)) ∧
      (let s := emptied .retired 1 16
       (s.launch? 0).map (·.pkt.mode) = some 1 ∧ (s.uncommitted 0).head? = some 0 ∧ s.crew? 0 = some (lastCrew .retired) ∧ s.preCrews.contains 0 = false ∧
         [anEff].all s.effReady = true ∧ s.askVersions 0 (numbered [anEff]) = s ∧ s.checkVersions 0 (numbered [anEff]) = .good ∧ (lastCrew .retired).applied = none) ∧
      (begun.launch? 0 = some (loadedLaunch 1) ∧ (begun.uncommitted 0).head? = some 0 ∧ begun.crew? 0 = some begunCrew ∧ begunCrew.stat = .retired ∧
        begun.preCrews.contains 0 = false ∧ begunCrew.effects.all begun.effReady = true ∧ begunCrew.applied ≠ none ∧
        begunCrew.applied.getD 0 ≤ begunCrew.effects.length ∧ begun.commitWaits 0 { anEff with ord := true } = true) ∧
      (∀ s ∈ [stopped, oneBankOut], s.crew? 0 = some loadedCrew ∧ s.preCrews.contains 0 = true ∧ s.quiet 0 = true ∧ (s.poolsWhole = true ↔ (s.core 0).failedBanks = [])) ∧
      loadedCrew.stat ≠ .retired ∧
      ((stopped.core 0).stops = [hStop] ∧
        hStop.ofGang = true ∧ ∃ g ∈ stopped.crewGangs 0, g.slot = hStop.agent) ∧
      (savedWorld.crew? 0 = some savedCrew ∧ savedWorld.bandPlan savedCrew = some [(0, 0)]) ∧
      (let s : State := { savedWorld with leases := [{ core := 0, launch := 0, size := 4 }] }
       s.bandPlan savedCrew = some [(0, 0)] ∧ (s.lease? 0 0).isSome = true) := by
  refine ⟨?_, ?_, ?_, ?_, ?_, ?_, ?_, ?_, ?_, ?_, ?_, ?_⟩ <;> decide +kernel

/-- Gangs that wait for 64 registers: alone on a pane, or beside a younger one of 248 registers at its crew barrier. -/
def grower : Gang := { tGang with n := 8, stat := .waiting (.grow 256) }
def sleeper : Gang := { tGang with n := 248, slot := 1, ix := 1, age := 1, stat := .waiting (.crewBarrier 0) }
def two : State := (tWorld grower).putGang sleeper
def backing (st : Stat) : State := tWorld { tGang with stat := .parked (.deadlock none), n := 8 } |>.putGang { tGang with n := 8, stat := st }
/-- The younger gang has a write at a peer still to be performed. -/
def writing : State := { two with far := [req 9 (.store [1] []) (.write 0 1 0 0 0 0 0)] }
theorem witness_RegisterEngineRows_writes : two.farWriteOf sleeper = false ∧ writing.farWriteOf sleeper = true ∧
    (writing.unparked 0).all Gang.deadlockWait = true ∧ eldest (·.age) (writing.growers 0) = some grower := by decide +kernel
theorem witness_RegisterEngineRows :
    ((∀ st ∈ [Stat.restoring, .parked (.deadlock none)], (backing st).stuckOn 0 = none ∧ (backing st).canGrant 0 = false) ∧
        (tWorld grower).canGrant 0 = true) ∧
      ((tWorld grower).fatal = none ∧ eldest (·.age) ((tWorld grower).growers 0) = some grower ∧ grower.isHandler = false ∧
        (∀ o ∈ (tWorld grower).growers 0, grower.age ≤ o.age) ∧
        blocksFor 256 ((tWorld grower).shadowed 0) - blocksFor 8 ((tWorld grower).shadowed 0) ≤ (tWorld grower).freeBlocks 0 ∧
        (tWorld grower).gang? 0 0 = some grower) ∧
      (eldest (·.age) (two.growers 0) = some grower ∧ (two.unparked 0).all Gang.deadlockWait = true ∧ two.canGrow grower (grower.growTo.getD 0) = false ∧
        ((two.unparked 0).filter (fun x => x.slot != grower.slot)).reverse = [] ++ sleeper :: []) ∧
      (∀ st ∈ [Stat.restoring, .parked (.deadlock none), .parked (.deadlock (some 0)), .parked (.deadlock (some 1))],
        eldest (·.parkedAt) (((backing st).coreGangs 0).filter (fun h => (backing st).restorable h && (backing st).fitsAgain h)) =
          some { tGang with n := 8, stat := st } ∧ (backing st).crew? 0 = some loadedCrew) ∧ loadedCrew.bar.phase = 0 ∧
      (two.coreGangs 0).filter (fun h => two.restorable h && two.fitsAgain h) = [] := by decide +kernel

/-- A gang that waits for a token, one whose shadow does, and one that waits for the refetch of slot 0, filled from nothing, or from virtual address 0. -/
def shut : Gang := { tGang with stat := .waiting .token }
def shutShadow : Gang := { tGang with shadowSlot := some 1, shadow := some { shuttered := true } }
def refetcher : Gang := { tGang with stat := .waiting (.refetch 0) }
def refetchWorld (filled : Bool) : State :=
  { tWorld refetcher with
    leases := [{ core := 0, launch := 0, size := 4, slots := [(0, { src := if filled then some (0, 0) else none, bad := [(0, 1)] })] }]
    tlb := (List.range 3).map (fun k => { loadedLeaf with page := k, leaf := { loadedLeaf.leaf with pfn := loadedFrame + k } }) }
def streaming : State := (tWorld shut).modCore 0 (fun k => { k with streams := [{ crew := 0, slot := 0, id := 1, plane := false }] })
theorem witness_ArrayEngineRows :
    (∀ g ∈ [shut, shutShadow],
        (let s := tWorld g
         let want (c : Nat) : List Gang := (s.shuttered c ++ s.shadowsShuttered c).filter (fun g => !s.preCrews.contains g.crew)
         s.fatal = none ∧ s.tokensOut 0 < s.pool 0 ∧
           ((List.range 256).map (fun i => 0 * 256 + (s.lastGrant 0 + 1 + i) % 256)).find? (fun c => !(want c).isEmpty && decide (s.coreHeld c < 2)) = some 0 ∧
           eldest (·.age) (want 0) = some g)) ∧ { W with pool0 := 0 }.pool 0 ≤ { W with pool0 := 0 }.tokensOut 0 ∧ (W.core 0).streams = [] ∧
      ((streaming.core 0).streams = { crew := 0, slot := 0, id := 1, plane := false } :: [] ∧ streaming.gang? 0 0 = some shut ∧ shut.core = 0 ∧ shut.slot = 0) ∧
      (∀ b : Bool, (refetchWorld b).gang? 0 0 = some refetcher ∧ ((refetchWorld b).slotOf 0 0 0).src = (if b then some (0, 0) else none) ∧
        (refetchWorld b).launch? 0 = some (loadedLaunch 0) ∧ (refetchWorld b).far = []) ∧ (loadedLaunch 0).checks = [] ∧
      (let s := refetchWorld true
       (piecesOf 0 8228).map (·.1) = [0, 4096, 8192] ∧ ∀ va ∈ [0, 4096, 8192], (match s.translate 0 (s.ctxOf 0) va with
         | .leaf l => decide (l.loc va = .here (0x10000 + va) ∧ s.memReady (0x10000 + va) = true ∧ s.granted 0 (s.ctxOf 0) 0 l.door = true ∧
             s.grantWaits 0 (s.ctxOf 0) 0 l.door = false)
         | _ => false) = true) := by decide +kernel

/-- A record that waits for context 1's ring of two; an access that is complete, and a result that arrives. -/
def ringWorld : State := { W.setCtxReg 1 0x88 1 with fqPend := [{ ctx := 1, bytes := [1] }] }
def opGang : Gang := { tGang with ops := [{ id := 1, cls := .ld, done := false }], busy := [{ id := 2, refs := [.v 3] }], stat := .waiting .scoreboard }
/-- A page whose number has a bit of [23:18]: 2^30 up to the same tables. -/
def highPage : State := { MW with tlb := [], mem := tables.take 6 ++ [(0x3008, 1), (0x300C, 0x40)] ++ tables.drop 6 }
def l2Entry : TlbEntry := { loadedLeaf with core := 21, l2 := true }
theorem witness_MemoryEngineRows :
    (W.microTlb 0 0 8 = some loadedLeaf ∧ W.fatal = none) ∧
      (({ MW with tlb := [l2Entry] } : State).microTlb 0 0 8 = none ∧ ({ MW with tlb := [l2Entry] } : State).l2Tlb 0 0 8 = some l2Entry) ∧
      (({ MW with tlb := [] } : State).microTlb 0 0 8 = none ∧ ({ MW with tlb := [] } : State).l2Tlb 0 0 8 = none ∧
        ({ MW with tlb := [] } : State).walk 0 8 = .leaf (pageLeaf 0)) ∧
      (let va := 2 ^ 30 + 8
       highPage.microTlb 0 0 va = none ∧ highPage.l2Tlb 0 0 va = none ∧ highPage.walk 0 va = .leaf (pageLeaf 0) ∧
        va / pageBytes (pageLeaf 0).size / 262144 % 64 = 1) ∧
      (ringWorld.fqPend.find? (fun r => r.ctx == 1) = some { ctx := 1, bytes := [1] } ∧ ringWorld.ringFull 1 0x88 0x90 0x98 = false) ∧
      (W.grants = [] ∧ ∀ i < 64, W.grantWaits 0 1 0 (BitVec.ofNat 20 (1 * 64 + i)) = false) ∧
      ((tWorld opGang).gang? 0 0 = some opGang ∧ (∀ o ∈ opGang.ops, o.id = 1 → o.cls ≠ .cp) ∧ (tWorld opGang).far = [] ∧ (∀ o ∈ opGang.ops, o.id ≠ 2) ∧
        (∀ b ∈ opGang.busy, b.id = 2) ∧ opGang.busy ≠ []) := by decide +kernel

/-- A copy row of 128 bytes within scratch, in flight. -/
def aRow : Row :=
  { src := .scratch 0, dst := .scratch 128, len := 128, sectors := 4, lane := none, status := none, key := 0, wid := 0, pcofs := 0, fail := none, versioned := none }
def poster : Gang := { tGang with stat := .waiting .context }
/-- A row that lane 0 of the gang named is in flight. -/
def rowOut : State := { (tWorld tGang) with ctxs := [(0, { KC with rows := [{ aRow with lane := some 0 }] })] }
theorem witness_SpecialRegisterRows_waits : Issues (.getsr 0 0 .deny) (farWrite tGang) tGang ∧ Issues (.getsr 0 0 .deny) rowOut tGang ∧
    (farWrite tGang).farOf 0 0 = true ∧ rowOut.farOf 0 0 = false ∧ rowOut.postRowsOf tGang = true ∧ W.postRowsOf tGang = false :=
  ⟨issues_of (by decide +kernel), issues_of (by decide +kernel), by decide +kernel⟩
theorem witness_CopyEngineRows :
    ((tWorld poster).fatal = none ∧ (((tWorld poster).coreGangs 0).filter (fun g => g.stat == .waiting .context)) = [poster] ∧
        (((tWorld poster).coreGangs 0).filter (·.granted)).length < ((List.range Config.contexts).filter (fun c => ((tWorld poster).ctx? 0 c).isNone)).length) ∧
      (let c := { KC with rows := [aRow] }
       (cWorld c).ctx? 0 0 = some c ∧ c.park = none ∧ (cWorld c).ctxFar 0 0 = false ∧ 128 + 128 ≤ (cWorld c).scratchOf c.crew) ∧
      aRow.read = none ∧ (∀ b : Bool, let s := (cWorld KC).modCore 0 (fun k => { k with failedBanks := if b then [] else [3] })
        s.poolsWhole = b ∧ s.fatal = none) ∧
      (let c := { KC with rows := [{ aRow with read := some ([(5, false)], false) }] }
       (cWorld c).ctx? 0 0 = some c ∧ c.park = none ∧ (cWorld c).ctxFar 0 0 = false) ∧
      (let c := { KC with stat := .draining }
       (cWorld c).ctx? 0 0 = some c ∧ c.rows = [] ∧ (cWorld c).ctxFar 0 0 = false) := by decide +kernel

/-- A gang with this status, its core at cycle `c`; one held for its comparison, of this mode, whose shadow has something to run or not. NOP stands at its PC. -/
def atCycle (c : Nat) (st : Stat) : State := (tWorld { tGang with stat := st }).modCore 0 (fun k => { k with cyc := c })
def item : Item := { pc := 0, dead := 0, replay := none, n := 256, rmode := 0, took := none }
def held (q : List Item) (mis : Bool) : Gang :=
  { tGang with stat := .waiting .shadow, shadowSlot := some 1, shadow := some { regs := { n := 256 }, queue := q }, mismatch := mis }
def heldWorld (mode : Nat) (g : Gang) : State := { tWorld g mode with mem := [(0x10001, 0x18)] }
/-- One whose shadow has met a mismatch at the NOP at PC 0. -/
def spoiledShadow : Gang := { held [] false with shadow := some { regs := { n := 256 }, spoiled := true, spoiledAt := some item } }
def recoveringWorld : State := { tWorld { opGang with stat := .ready } with recovering := [0] }
theorem witness_WakeAndSelectRows :
    (∀ st ∈ [Stat.sleeping 64, .waiting (.promise 64), .waiting (.latchPoll 16 0)],
        (atCycle 64 st).fatal = none ∧ (atCycle 64 st).gang? 0 0 = some { tGang with stat := st } ∧ (atCycle 63 st).gang? 0 0 = some { tGang with stat := st } ∧
        64 ≤ (atCycle 64 st).cyc 0 ∧ (atCycle 63 st).cyc 0 < 64) ∧
      (tGang.parkedAt < 64 ∧ (64 - tGang.parkedAt) % 64 = 0 ∧ (63 - tGang.parkedAt) % 64 ≠ 0 ∧ latchValid ((atCycle 64 .ready).latch 0 16) = false ∧ (atCycle 64 (.waiting (.latchPoll 16 0))).poolsWhole = true) ∧
      (∀ mode ∈ [0, 1], ∀ g ∈ [held [] false, held [] true, held [item] false], (heldWorld mode g).gang? 0 0 = some g ∧ g.stat = .waiting .shadow ∧
        (heldWorld mode g).atGang g = .instr (.smov 0 0 (.r 0)) ∧ (heldWorld mode g).errsAsFree g = (mode == 0)) ∧
      ((held [] false).caughtUp = true ∧ (held [item] false).caughtUp = false ∧ (held [] false).mismatch = false ∧ (held [] true).mismatch = true ∧
        (held [] false).shadowSpoiled = false ∧ (held [] false).agrees { regs := { n := 256 } } (shape (.smov 0 0 (.r 0))) = true) ∧
      ((held [] false).spoiledAt? (heldWorld 0 (held [] false)) = none ∧ spoiledShadow.stat = .waiting .shadow ∧ spoiledShadow.caughtUp = true ∧
        spoiledShadow.shadowSpoiled = true ∧ (heldWorld 0 spoiledShadow).errsAsFree spoiledShadow = true ∧
        (spoiledShadow.spoiledAt? (heldWorld 0 spoiledShadow)).map (fun x => (x.1, x.2.2)) = some (.smov 0 0 (.r 0), 0)) ∧
      (W.recovering.contains 0 = false ∧ (recoveringWorld.tick 0).recovering.contains 0 = true) ∧
      (W.tick 0).selectCore 0 = [.gang 0 0] := by decide +kernel

/-- Two events, in canonical order; a SPAN launch between spans with them pending, one with none, and one whose span has them to commit, its crew's effects
being `eff`. -/
def later : Event := { anEvent with time := 20, serial := 2 }
def theSpan (running : Bool) (pend : List PendEv) (run : List RunEv) : Span := { no := 1, running := running, pend := pend, run := run }
def twoPend : List PendEv := [{ ev := anEvent, aborts := 0 }, { ev := later, aborts := 2 }]
def runEv (e : Event) (ix : Nat) (f : Fate) (orphan bad : Bool) : RunEv := { ev := e, aborts := 0, idx := ix, fate := f, orphan := orphan, crew := 0, lane := ix, bad := bad }
def twoRun : List RunEv := [runEv anEvent 0 .open_ false false, runEv later 1 .open_ false false]
def spanL (p : Span) : Launch := { loadedLaunch 2 with pkt := { loadedPacket 2 with store := 0x8000, htab := 0x9000, look := 100 }, span := some p }
def spanCrew (eff : List Eff) : Crew := { loadedCrew with stat := .retired, effects := eff }
def spanOf (p : Span) (eff : List Eff) : State :=
  { (W.putLaunch 0 (spanL p)).putCrew 0 (spanCrew eff) with mem := [(0x8007, 0x14), (0x8015, 1)], gangs := [] }
def effOf (k : EffKind) : Eff := { size := 16, pc := 0, wid := 0, keys := [{ lane := 0, key := 0, wid := 0 }], evIx := some 0, kind := k }
def aStore : Eff := effOf (.store (.here 0x10008) [5])
def stale : Eff := effOf (.vstv (.here 0x10080) (List.replicate 128 0) 3)
def farCell : Eff := effOf (.vstv (.far 5 0x80 0) (List.replicate 128 0) 0)
def running2 : Span := theSpan true [] twoRun
/-- One effect of the event has been applied. -/
def begunEv : RunEv := { runEv anEvent 0 .open_ false false with applied := some 1 }
/-- A child, for which the event store, of one entry, has no room. -/
def aChild : Eff := effOf (.evs later)
def fullStore : State := { spanOf running2 [aChild] with mem := [(0x8015, 1)] }
theorem witness_SpanRows :
    (∀ p ∈ [theSpan false twoPend [], theSpan false [] [], running2], (spanOf p []).fatal = none ∧ (spanOf p []).launch? 0 = some (spanL p) ∧
        (spanL p).done = false ∧ (spanL p).overflow = false ∧ (spanOf p []).memReady 0x8000 = true) ∧
      (∀ p ∈ [theSpan false twoPend [], theSpan false [] []], p.limit = false ∧ (spanOf p []).anyNotReady ((spanOf p []).gatherMemory (spanL p)) = false ∧
        bitField ((spanOf p []).storeDesc 0x8000) 504 448 = 0 ∧ p.no < 2 ^ 32 - 1) ∧
      (sortEvs twoPend = twoPend ∧ (spanOf running2 []).spanRetired 0 = true) ∧
      (running2.run.find? RunEv.waits = some (runEv anEvent 0 .open_ false false) ∧ ((running2.run.map (·.ev)).Pairwise (fun a b => b.before a = false))) ∧
      (((spanOf running2 [aStore]).commitEvent 0 (spanL running2) running2 (runEv anEvent 0 .open_ false false)).2.2 = true ∧
        ((spanOf running2 [farCell]).commitEvent 0 (spanL running2) running2 (runEv anEvent 0 .open_ false false)).2.2 = false ∧
        (runEv anEvent 0 .open_ false false).applied = none ∧ (begunEv.applied ≠ none ∧ begunEv.applied.getD 0 ≤ ((spanOf running2 [aStore]).eventEffects begunEv).length) ∧
        (((spanOf running2 [aStore]).applyEvent 0 0x8000 running2 begunEv).2.2 = true ∧
          (({ spanOf running2 [aStore, { aStore with ord := true }] with
            far := [{ req 9 (.store [1] []) (.commit 0 0 0 0 false) with ord := true }] } : State).applyEvent 0 0x8000 running2 begunEv).2.2 = false)) ∧
      ((runEv anEvent 0 .revoked false false).fate = .revoked ∧ (runEv anEvent 0 .open_ true false).orphan = true ∧ (runEv anEvent 0 .open_ false true).bad = true) ∧
      (∀ e ∈ [aStore, stale], (spanOf running2 [e]).askVersions 0 (numbered [e]) = spanOf running2 [e]) ∧
      ((spanOf running2 [aStore]).checkVersions 0 (numbered [aStore]) = .good ∧ childrenOf [aStore] = [] ∧
        (running2.setFate 0 .left).used + 0 ≤ 2 ^ bitField ((spanOf running2 [aStore]).storeDesc 0x8000) 62 57) ∧
      (fullStore.checkVersions 0 (numbered [aChild]) = .good ∧ fullStore.askVersions 0 (numbered [aChild]) = fullStore ∧
        2 ^ bitField (fullStore.storeDesc 0x8000) 62 57 < (running2.setFate 0 .left).used + (childrenOf [aChild]).length) ∧
      ((spanOf running2 [stale]).checkVersions 0 (numbered [stale]) = .mismatch ∧ anEvent.before later = true) ∧
      (effOf (.evs anEvent)).kind = .evs anEvent := by decide +kernel

/-- The scheduler of cluster 3 recovered in cycle 0; P reached 0 in cycle 0; a bank of core 0 is marked failed; cluster 0 is in a recovery. -/
def recovered (c : Nat) : State := { W.modCore 0 (fun k => { k with cyc := c }) with recovered := [(3, 1)], zeroAt := some 0 }
def failedBank : State := W.modCore 0 (fun k => { k with failedBanks := [2] })
def inRecovery : State := { W with recovering := [0] }
theorem witness_UpsetRows :
    W.fatal = none ∧ (W.core 0).failedBanks = [] ∧ (failedBank.core 0).failedBanks ≠ [] ∧ (Store.get W.recovered 3).toNat = 0 ∧
      ((Store.get (recovered (2 ^ 24)).recovered 3).toNat = 1 ∧ 1 - 1 + 2 ^ 24 ≤ (recovered (2 ^ 24)).clock ∧ (recovered (2 ^ 24 - 1)).clock < 1 - 1 + 2 ^ 24) ∧
      (inRecovery.recovering.contains 0 = true ∧ inRecovery.settled 0 = true ∧ (∀ h ∈ inRecovery.gangList, h.tableBad = false) ∧ inRecovery.gang? 0 0 = some tGang) ∧
      (1 ≤ (4 : BitVec 3).toNat ∧ (4 : BitVec 3).toNat ≤ 4 ∧ 4 < (5 : BitVec 3).toNat) ∧ Instr.moduleReset ∉ W.agenda ∧
      ((recovered (2 ^ 20)).zeroAt = some 0 ∧ 0 + 2 ^ 20 ≤ (recovered (2 ^ 20)).clock ∧ (recovered (2 ^ 20 - 1)).clock < 0 + 2 ^ 20) ∧ W.zeroAt = none := by decide +kernel

theorem witness_BringUpRows :
    State.reset.fatal = none ∧ State.reset.image = false ∧ (W.fatal = none ∧ W.image = true ∧ W.qtbase + 4096 ≤ Config.physBytes) ∧
      (900 ≤ 1600 ∧ 1600 ≤ 1600) ∧ (899 < 900 ∨ 1600 < 899) ∧ ((57 : BitVec 6).toNat < 58 ∧ 58 ≤ (58 : BitVec 6).toNat ∧ (57 : BitVec 6) ≠ 0) ∧
      (W.held = [] ∧ W.kicksHeld = []) ∧ (1 : Nat) ≠ (0 : BitVec 9).toNat := by decide +kernel

/-- The stop of gang 0 stands in core 0's queue, with a handler at 0x20000 or without one; a gang that holds a token, MMUL or NOP at its PC. -/
def stopWorld (handler : Bool) : State :=
  ((tWorld stoppedGang).putCore 0 { part := some 0x00010102, stops := [hStop] }).setCtxReg 0 0x40 (if handler then 0x20000 else 0)
def tokened : Gang := { G2 with token := true }
def nopWorld (g : Gang) : State := { tWorld g with mem := [(0x10001, 0x18)] }
def parking : State := { W with far := [req 9 (.store [1] []) (.write 0 0 0 0 0 0 0)] }
theorem witness_TakingAnException_park : W.farWriteOf tGang = false ∧ parking.farWriteOf tGang = true ∧ (W.core 0).failedBanks = [] ∧ tGang.isHandler = false ∧
    hGang.isHandler = true := by decide +kernel
theorem witness_TakingAnException :
    (hGang.isHandler = true ∧ tGang.isHandler = false ∧ (stopWorld false).hasHandler 0 = false ∧ (stopWorld true).hasHandler 0 = true) ∧
      (∀ b : Bool, (stopWorld b).fatal = none ∧ ((stopWorld b).core 0).run = none ∧ ((stopWorld b).core 0).stops = [hStop] ∧
        (stopWorld b).gang? 0 hStop.agent = some stoppedGang) ∧ hStop.ofGang = true ∧ stoppedGang.stat = .stopped ∧
      ((tWorld tGang 1).errsAsFree tGang = false ∧ W.errsAsFree tGang = true ∧
        ((tWorld tGang 1).putCrew 0 { loadedCrew with rc := 1 }).errsAsFree tGang = true ∧ ((tWorld tGang 2).abortCrew 0).crew? 0 ≠ none) ∧
      W.modeOf tGang = 0 ∧ hStop.cause = 31 ∧
      (∀ c ∈ List.range 36, ({ hStop with cause := c } : Stop).cause = c) ∧
      (tGang.token = false ∧ tokened.token = true ∧ (nopWorld tokened).atGang tokened = .instr (.smov 0 0 (.r 0))) := by decide +kernel

/-- NOP stands at address 0 of context 0; the gang's shadow has it still to run; a copy-class KADD, and a word of no instruction. -/
def codeWorld (l : List Host.Cell) (a : Agent) : State := { cWorld KC with mem := l, picks := [a] }
def nop : List Host.Cell := [(0x10001, 0x18)]
def kadd : List Host.Cell := [(0x10000, 1), (0x10001, 0xF0), (0x10002, 3), (0x10003, 1), (0x10004, 2), (0x10007, 1)]
def reserved : List Host.Cell := [(0x10000, 1), (0x10001, 0x12)]
def led : Gang := { tGang with shadowSlot := some 1, shadow := some { regs := { n := 256 }, queue := [item] } }
def ledWorld : State := { (codeWorld nop (.shadow 0 0)).putGang led with picks := [] }
theorem witness_StepRunsDecoded :
    (∀ a ∈ [Agent.gang 0 0, .copy 0 0], (codeWorld nop a).outside = [] ∧ (codeWorld nop a).agenda = [] ∧ (codeWorld nop a).submitted = [] ∧ (codeWorld nop a).fatal = none) ∧
      ((codeWorld nop (.gang 0 0)).gang? 0 0 = some tGang ∧ ({ codeWorld nop (.gang 0 0) with picks := [] } : State).fetch 0 0 0 = .words [0x00001800] ∧
        decodeGang 0x00001800 0 0 0 0 = .ok (.smov 0 0 (.r 0))) ∧
      ((codeWorld kadd (.copy 0 0)).ctx? 0 0 = some KC ∧ ({ codeWorld kadd (.copy 0 0) with picks := [] } : State).fetch 0 0 KC.pc =
        .words [0x0103F001, 0x01000002, 0] ∧ decodeCopy 0x0103F001 0x01000002 0 0 0 = .ok (.kadd h 3 (.k 1) (.k 2))) ∧
      (({ ledWorld with picks := [.shadow 0 0] } : State).gang? 0 0 = some led ∧ item.took = none ∧ ledWorld.fetch 0 0 item.pc = .words [0x00001800] ∧
        isNext (exec (.smov 0 0 (.r 0)) { ledWorld.putGang (led.asShadow { regs := { n := 256 }, queue := [item] } item) with cur := some (.gang 0 0) }) = true) ∧
      (({ codeWorld reserved (.gang 0 0) with picks := [] } : State).fetch 0 0 0 = .words [0x00001201, 0, 0] ∧ decodeGang 0x00001201 0 0 0 0 = .error .reserved) ∧
      (isCode .admitBand = false ∧ { W with agenda := [.admitBand] }.agenda = .admitBand :: [] ∧ { W with submitted := [.admitBand] }.submitted = .admitBand :: [] ∧
        { W with outside := [.clearAcl 0] }.outside = .clearAcl 0 :: []) := by decide +kernel

theorem witness_EncodeThenDecode : ∀ i ∈ scalarForms ++ intForms ++ fpForms ++ kForms, i.wf = true ∧ isCode i = true := by decide +kernel
theorem witness_FrozenKept : Frozen 4 { W with fatal := some 4, agenda := [.admitBand] } ∧ Frozen 4 { W with fatal := some 4, outside := [.clearAcl 0] } := by
  refine ⟨⟨rfl, ?_, ?_⟩, rfl, ?_, ?_⟩ <;> decide

theorem witness_ScalarRowsFrame : ∀ i ∈ scalarForms, Issues i W tGang ∧ (scalarRow W tGang i).isSome = true ∧ ∃ t, exec i W = .next t := by
  have hn : ∀ i ∈ scalarForms, isNext (exec i W) = true := by decide +kernel
  exact fun i hi => ⟨allIssue (by decide +kernel) i hi, by revert i; decide +kernel, isNext_spec (hn i hi)⟩
def faddForm : Instr := .fadd v .dflt .dflt 3 (.v 2) (.v 2)
theorem witness_VectorRowsFrame : ∃ r, Issues faddForm (tWorld G2) G2 ∧ fpRow (tWorld G2) G2 faddForm = some r ∧ G2.CleanIn (G2.acting faddForm) r.regs ∧
    r.quiet (G2.acting faddForm) ∧ ∃ t, exec faddForm (tWorld G2) = .next t := by
  obtain ⟨r, hr, hq⟩ := quietB_spec (o := fpRow (tWorld G2) G2 faddForm) (m := G2.acting faddForm) (by decide +kernel)
  exact ⟨r, issues_of (by decide +kernel), hr, fun _ _ _ _ => rfl, hq, isNext_spec (by decide +kernel)⟩
theorem witness_StorageLaws_count : CtrPlace.core 511 ≠ .core Config.engineCore ∧ (CtrPlace.core 511).num < 2 ^ 16 ∧ (CtrPlace.slot 511 32).num < 2 ^ 16 := by decide
theorem witness_StorageLaws : Config.physBytes - 4 + (clean [1, 2, 3, 4]).length ≤ Config.physBytes ∧ Memory.wf W.mem ∧ (63 : Nat) < 64 := by decide +kernel

end Sys2Proof.Tests
end

section
/-! PROOFS. Registers, counters and physical memory (R1, R11, R15, R108): what a read gives after a write, and what the write leaves alone. -/
namespace Sys2Proof.Machine

/- Scalar, mask and buffer registers -/

@[simp] theorem Gang.sSet_zero (g : Gang) (x : DWord) (p : Bool) : g.sSet 0 x p = g := rfl
@[simp] theorem Gang.sGet_zero (g : Gang) : g.sGet 0 = 0 := rfl
@[simp] theorem Gang.mSet_zero (g : Gang) (x : LaneMask) : g.mSet 0 x = g := rfl
@[simp] theorem Gang.mGet_zero (g : Gang) : g.mGet 0 = BitVec.allOnes 64 := rfl

theorem Gang.sSet_of_ne_zero (g : Gang) {n : Nat} (h : n ≠ 0) (x : DWord) (p : Bool) :
    g.sSet n x p = { g with s := Store.set g.s n x, sp := Store.set g.sp n (BitVec.ofBool p) } := if_neg h
theorem Gang.mSet_of_ne_zero (g : Gang) {n : Nat} (h : n ≠ 0) (x : LaneMask) :
    g.mSet n x = { g with m := Store.set g.m n x, mp := cleanWords g.mp (2 * n) 2 } := if_neg h

theorem Gang.sGet_sSet_self (g : Gang) {n : Nat} (h : n ≠ 0) (x : DWord) (p : Bool) : (g.sSet n x p).sGet n = x := by
  simp [g.sSet_of_ne_zero h, Gang.sGet, h]
theorem Gang.mGet_mSet_self (g : Gang) {n : Nat} (h : n ≠ 0) (x : LaneMask) : (g.mSet n x).mGet n = x := by
  simp [g.mSet_of_ne_zero h, Gang.mGet, h]
@[simp] theorem Gang.bGet_bSet_self (g : Gang) (n : Nat) (x : BitVec 128) : (g.bSet n x).bGet n = x := Store.get_set_self _ _ _

theorem Gang.sGet_sSet_of_ne (g : Gang) {n k : Nat} (h : k ≠ n) (x : DWord) (p : Bool) : (g.sSet n x p).sGet k = g.sGet k := by
  by_cases hn : n = 0
  · rw [hn, Gang.sSet_zero]
  · simp [g.sSet_of_ne_zero hn, Gang.sGet, Store.get_set_of_ne _ _ h]
theorem Gang.mGet_mSet_of_ne (g : Gang) {n k : Nat} (h : k ≠ n) (x : LaneMask) : (g.mSet n x).mGet k = g.mGet k := by
  by_cases hn : n = 0
  · rw [hn, Gang.mSet_zero]
  · simp [g.mSet_of_ne_zero hn, Gang.mGet, Store.get_set_of_ne _ _ h]
theorem Gang.bGet_bSet_of_ne (g : Gang) {n k : Nat} (h : k ≠ n) (x : BitVec 128) : (g.bSet n x).bGet k = g.bGet k :=
  Store.get_set_of_ne _ _ h

/- Vector registers, one word per lane -/

/-- Registers and lanes have keys of their own. -/
theorem vkey_inj {n lane k l : Nat} (hlane : lane < 64) (hl : l < 64) (h : vkey k l = vkey n lane) : (k, l) = (n, lane) := by
  unfold vkey at h
  ext <;> dsimp only <;> omega

@[simp] theorem Gang.vGet_vSet_self (g : Gang) (n lane x : Nat) (p : Bool) : (g.vSet n lane x p).vGet n lane = x % 2 ^ 32 := by
  simp only [Gang.vGet, Gang.vSet, Store.get_set_self, BitVec.toNat_ofNat]
@[simp] theorem Gang.vBad_vSet_self (g : Gang) (n lane x : Nat) (p : Bool) : (g.vSet n lane x p).vBad n lane = p := by
  simp only [Gang.vBad, Gang.vSet, Store.get_set_self]
  cases p <;> rfl
theorem Gang.vGet_vSet_of_ne (g : Gang) {n lane k l : Nat} (h : vkey k l ≠ vkey n lane) (x : Nat) (p : Bool) :
    (g.vSet n lane x p).vGet k l = g.vGet k l :=
  congrArg BitVec.toNat (Store.get_set_of_ne _ _ h)

/- Counters -/

theorem Ctr.ctorIdx_injective : Function.Injective Ctr.ctorIdx := Function.LeftInverse.injective Ctr.ofNat_ctorIdx

/-- Counters and places have keys of their own, core numbers and slot identifiers being of 16 bits. -/
theorem ctrAt_key_ne {c d : Ctr} {a b : Nat} (ha : a < 2 ^ 16) (hb : b < 2 ^ 16) (h : d ≠ c ∨ b ≠ a) :
    d.ctorIdx * 2 ^ 16 + b ≠ c.ctorIdx * 2 ^ 16 + a := by
  intro he
  have hidx : d.ctorIdx = c.ctorIdx := by omega
  rcases h with h | h
  · exact h (Ctr.ctorIdx_injective hidx)
  · omega

theorem State.ctr_countAt_self (s : State) (p : CtrPlace) (c : Ctr) (n : Nat) :
    Store.get (s.countAt p c n).ctr c.ctorIdx = Store.get s.ctr c.ctorIdx + BitVec.ofNat 64 n := Store.get_set_self _ _ _
theorem State.ctr_countAt_of_ne (s : State) (p : CtrPlace) {c d : Ctr} (h : d ≠ c) (n : Nat) :
    Store.get (s.countAt p c n).ctr d.ctorIdx = Store.get s.ctr d.ctorIdx :=
  Store.get_set_of_ne _ _ (Ctr.ctorIdx_injective.ne h)

theorem State.ctrAt_countAt (s : State) {p : CtrPlace} (hp : p ≠ .core Config.engineCore) (c : Ctr) (n : Nat) :
    (s.countAt p c n).ctrAt = Store.set s.ctrAt (c.ctorIdx * 2 ^ 16 + p.num) (s.counted p c + BitVec.ofNat 64 n) := if_neg hp
theorem State.counted_countAt_self (s : State) {p : CtrPlace} (hp : p ≠ .core Config.engineCore) (c : Ctr) (n : Nat) :
    (s.countAt p c n).counted p c = s.counted p c + BitVec.ofNat 64 n := by
  unfold State.counted
  rw [s.ctrAt_countAt hp, Store.get_set_self]
  rfl
theorem State.counted_countAt_of_ne (s : State) {p q : CtrPlace} (hp : p ≠ .core Config.engineCore) {c d : Ctr} (n : Nat) (hpn : p.num < 2 ^ 16)
    (hqn : q.num < 2 ^ 16) (h : d ≠ c ∨ q.num ≠ p.num) : (s.countAt p c n).counted q d = s.counted q d := by
  unfold State.counted
  rw [s.ctrAt_countAt hp, Store.get_set_of_ne _ _ (ctrAt_key_ne hpn hqn h)]

/- Physical memory -/

theorem State.physWrite_mem {s : State} {a : Nat} {d : List PByte} (h : a + d.length ≤ Config.physBytes) :
    (s.physWrite a d).mem = cellsWrite s.mem a d := by
  simp only [State.physWrite, if_pos h]

theorem State.physWrite_mem_within {s : State} {a k : Nat} {d : List PByte} (h : a + d.length ≤ Config.physBytes) (hk : k < d.length) :
    Store.get (s.physWrite a d).mem (a + k) = (d.getD k (0, false)).1 := by
  rw [State.physWrite_mem h, cellsWrite_get, if_pos (by omega), Nat.add_sub_cancel_left]

theorem State.physWrite_mem_outside (s : State) {a b : Nat} (d : List PByte) (h : b < a ∨ a + d.length ≤ b) :
    Store.get (s.physWrite a d).mem b = Store.get s.mem b := by
  by_cases hd : a + d.length ≤ Config.physBytes
  · rw [State.physWrite_mem hd, cellsWrite_get, if_neg (by omega)]
  · simp only [State.physWrite, if_neg hd]

/-- A write of memory reads back, byte by byte. -/
theorem State.physRead_physWrite {s : State} {a : Nat} {d : List PByte} (h : a + d.length ≤ Config.physBytes) :
    rawBytes ((s.physWrite a d).physRead a d.length) = rawBytes d := by
  have hread : (s.physWrite a d).physRead a d.length = (s.physWrite a d).phys.read a d.length := if_pos h
  rw [hread]
  refine List.ext_getElem (by simp [rawBytes, Bytes.read_length]) fun k hk hk' => ?_
  have hkd : k < d.length := by simpa [rawBytes] using hk'
  have hkr : k < ((s.physWrite a d).phys.read a d.length).length := by rwa [Bytes.read_length]
  calc (rawBytes ((s.physWrite a d).phys.read a d.length))[k]
      = (((s.physWrite a d).phys.read a d.length).getD k (0, false)).1 := by simp [rawBytes, hkr]
    _ = Store.get (s.physWrite a d).mem (a + k) := Bytes.read_getD _ _ _ _ hkd
    _ = (d.getD k (0, false)).1 := State.physWrite_mem_within h hkd
    _ = (rawBytes d)[k] := by simp [rawBytes, hkd]

/-- Settles O60, from the laws of registers, of counters and of physical memory. -/
theorem storageLaws : Obligations.StorageLaws := by
  refine ⟨fun g n k x m y p => ?_, fun g n lane k l x p hlane hl => ?_, fun s p c n hp => ?_, fun s a d => ?_⟩
  · exact ⟨⟨g.sSet_zero x p, g.sGet_zero, g.mSet_zero m, g.mGet_zero⟩, fun hn => ⟨g.sGet_sSet_self hn x p, g.mGet_mSet_self hn m⟩,
      g.bGet_bSet_self n y, fun hk => ⟨g.sGet_sSet_of_ne hk x p, g.mGet_mSet_of_ne hk m, g.bGet_bSet_of_ne hk y⟩⟩
  · exact ⟨g.vGet_vSet_self n lane x p, g.vBad_vSet_self n lane x p, fun hne => g.vGet_vSet_of_ne (fun hk => hne (vkey_inj hlane hl hk)) x p⟩
  · exact ⟨s.counted_countAt_self hp c n, s.ctr_countAt_self p c n, rfl,
      fun q d => ⟨fun hd => s.ctr_countAt_of_ne p hd n, fun hpn hqn hne => s.counted_countAt_of_ne hp n hpn hqn hne⟩⟩
  · exact ⟨fun h => ⟨fun k hk => State.physWrite_mem_within h hk, State.physRead_physWrite h⟩, fun b hb => s.physWrite_mem_outside d hb,
      State.physWrite_wf a d⟩

end Sys2Proof.Machine
end

section
/-! PROOFS. What an instruction that completes leaves alone (R1, R55), and the scalar rows of fixed latency (R113 to R116). -/
namespace Sys2Proof.Machine

/- Frames compose -/

theorem SameRegs.trans {g h v : Gang} {s : Nat → Prop} {w : Nat → Nat → Prop} {m b : Nat → Prop} (hgh : SameRegs g h s w m b)
    (hhv : SameRegs h v (fun _ => False) (fun _ _ => False) (fun _ => False) (fun _ => False)) : SameRegs g v s w m b where
  scalars n hn := (hhv.scalars n not_false).trans (hgh.scalars n hn)
  vectors n lane hn := (hhv.vectors n lane not_false).trans (hgh.vectors n lane hn)
  masks n hn := (hhv.masks n not_false).trans (hgh.masks n hn)
  buffers n hn := (hhv.buffers n not_false).trans (hgh.buffers n hn)

theorem SameSpecials.trans {g h v : Gang} (hgh : SameSpecials g h) (hhv : SameSpecials h v) : SameSpecials g v where
  rmode := hhv.rmode.trans hgh.rmode
  dead := hhv.dead.trans hgh.dead
  deny := hhv.deny.trans hgh.deny
  wid := hhv.wid.trans hgh.wid
  key := hhv.key.trans hgh.key
  now := hhv.now.trans hgh.now
  regs := hhv.regs.trans hgh.regs
  stack := hhv.stack.trans hgh.stack

theorem OnlyGang.putGang (s : State) (g : Gang) : OnlyGang g.core g.slot s (s.putGang g) :=
  ⟨rfl, fun _ _ h => s.gang_putGang_of_ne g h⟩

/- A write of a scalar register -/

@[simp] theorem Gang.sSet_core (g : Gang) (n : Nat) (x : DWord) (p : Bool) : (g.sSet n x p).core = g.core := by unfold Gang.sSet; split <;> rfl
@[simp] theorem Gang.sSet_slot (g : Gang) (n : Nat) (x : DWord) (p : Bool) : (g.sSet n x p).slot = g.slot := by unfold Gang.sSet; split <;> rfl

theorem Gang.sSet_sameRegs (g : Gang) (n : Nat) (x : DWord) (p : Bool) :
    SameRegs g (g.sSet n x p) (fun k => k = n ∧ n ≠ 0) (fun _ _ => False) (fun _ => False) (fun _ => False) := by
  by_cases hn : n = 0
  · subst hn
    exact ⟨fun _ _ => rfl, fun _ _ _ => rfl, fun _ _ => rfl, fun _ _ => rfl⟩
  · have hscalars : ∀ k, ¬ (k = n ∧ n ≠ 0) → (g.sSet n x p).sGet k = g.sGet k :=
      fun k hk => g.sGet_sSet_of_ne (fun he => hk ⟨he, hn⟩) x p
    rw [g.sSet_of_ne_zero hn] at hscalars ⊢
    exact ⟨hscalars, fun _ _ _ => rfl, fun _ _ => rfl, fun _ _ => rfl⟩

theorem Gang.sSet_sameSpecials (g : Gang) (n : Nat) (x : DWord) (p : Bool) : SameSpecials g (g.sSet n x p) := by
  unfold Gang.sSet
  split <;> exact ⟨rfl, rfl, rfl, rfl, rfl, rfl, rfl, rfl⟩

/- Completion -/

/-- Queueing an instruction for the shadow changes nothing else of the leading gang (R356). -/
theorem Gang.follow_eq_shadow (g : Gang) (sh : Shape) (lanes : LaneMask) (took : Bool) :
    ∃ q, g.follow sh lanes took = { g with shadow := q } := by
  unfold Gang.follow
  split
  · exact ⟨g.shadow, rfl⟩
  · exact ⟨_, rfl⟩

/-- An instruction that completes puts into the gang's slot a gang with the registers that the instruction left and the PC advanced. -/
theorem State.completes_eq_putGang (s : State) (i : Instr) (g : Gang) (t : State) (h : Gang) :
    ∃ v, s.completes i g t h = t.putGang v ∧ v.core = h.core ∧ v.slot = h.slot ∧ v.pc = g.next (shape i) ∧
      SameRegs h v (fun _ => False) (fun _ _ => False) (fun _ => False) (fun _ => False) ∧ SameSpecials h v := by
  obtain ⟨q, hq⟩ := h.follow_eq_shadow (shape i) (h.live (g.active (shape i))) (shadowTakes (shape i))
  refine ⟨_, rfl, ?_⟩
  rw [Gang.leads, hq]
  exact ⟨rfl, rfl, rfl, ⟨fun _ _ => rfl, fun _ _ _ => rfl, fun _ _ => rfl, fun _ _ => rfl⟩, ⟨rfl, rfl, rfl, rfl, rfl, rfl, rfl, rfl⟩⟩

/-- An instruction that changes only its gang before it completes changes only its gang. -/
theorem State.completes_frame (s : State) (i : Instr) {g h : Gang} (hcore : h.core = g.core) (hslot : h.slot = g.slot) :
    OnlyGang g.core g.slot s (s.completes i g s h) ∧
    ∃ v, (s.completes i g s h).gang? g.core g.slot = some v ∧ v.pc = g.next (shape i) ∧
      SameRegs h v (fun _ => False) (fun _ _ => False) (fun _ => False) (fun _ => False) ∧ SameSpecials h v := by
  obtain ⟨v, heq, hvcore, hvslot, hpc, hregs, hspecials⟩ := s.completes_eq_putGang i g s h
  rw [heq, ← hcore, ← hslot, ← hvcore, ← hvslot]
  exact ⟨.putGang s v, v, s.gang_putGang v, hpc, hregs, hspecials⟩

/- Scalar rows -/

/-- Every scalar row of fixed latency completes with its value in its destination. -/
theorem exec_scalarRow {i : Instr} {s : State} {g : Gang} {d : BitVec 6} {x : DWord} (hi : Issues i s g) (hr : scalarRow s g i = some (d, x)) :
    exec i s = .next (s.completes i g s (g.sSet d.toNat x)) := by
  unfold scalarRow at hr
  split at hr <;> cases hr
  all_goals refine runGang_ok hi rfl ?_
  -- SSEL, whose two arms the table gives the other way round
  case h_16 => simp only [ite_not]
  all_goals rfl

/-- Settles O58: a scalar row completes with its value in its destination, and completion itself changes no register. -/
theorem scalarRowsFrame : Obligations.ScalarRowsFrame := by
  intro i s t g d x hi hr ht
  rw [exec_scalarRow hi hr] at ht
  cases ht
  obtain ⟨honly, v, hv, hpc, hregs, hspecials⟩ := s.completes_frame i (g.sSet_core d.toNat x false) (g.sSet_slot d.toNat x false)
  have hd : d ≠ 0 ↔ d.toNat ≠ 0 := not_congr BitVec.toNat_eq
  refine ⟨honly, v, hv, hpc, fun hne => ?_, rfl, ?_, (g.sSet_sameSpecials d.toNat x false).trans hspecials⟩
  · rw [hregs.scalars _ not_false, g.sGet_sSet_self (hd.mp hne)]
  · simp only [hd]
    exact (g.sSet_sameRegs d.toNat x false).trans hregs

end Sys2Proof.Machine
end

section
/-! PROOFS. The codes of the operand forms read back (R28, R42 to R54, R60, R61, R65, R111). -/
namespace Sys2Proof

@[simp] theorem Fmt.ofCode_code (t : Fmt) : Fmt.ofCode t.code = some t := by cases t <;> rfl
@[simp] theorem Rnd.ofCode_code (r : Rnd) : Rnd.ofCode r.code = some r := by cases r <;> rfl
@[simp] theorem OrdQ.ofCode_code (q : OrdQ) : OrdQ.ofCode (BitVec.ofNat 2 q.code) = q := by cases q <;> rfl
@[simp] theorem Scope.ofCode_code_bits3 (s : Scope) : Scope.ofCode (s.code % 8) = some s := by cases s <;> rfl
@[simp] theorem Cond.ofCode_code_bits3 (c : Cond) : Cond.ofCode (c.code % 8) = some c := by cases c <;> rfl
@[simp] theorem EvField.ofCode_code_bits4 (x : EvField) : EvField.ofCode (x.code % 16) = some x := by cases x <;> rfl

/- Codes that stand in XOP, eight bits wide -/

@[simp] theorem Scope.ofCode_code_bits8 (s : Scope) : Scope.ofCode (s.code % 256) = some s := by cases s <;> rfl
@[simp] theorem Cond.ofCode_code_bits8 (c : Cond) : Cond.ofCode (c.code % 256) = some c := by cases c <;> rfl
@[simp] theorem CntOp.ofCode_code_bits8 (x : CntOp) : CntOp.ofCode (x.code % 256) = some x := by cases x <;> rfl
@[simp] theorem BitOp.ofCode_code_bits8 (x : BitOp) : BitOp.ofCode (x.code % 256) = some x := by cases x <;> rfl
@[simp] theorem ScanOp.ofCode_code_bits8 (x : ScanOp) : ScanOp.ofCode (x.code % 256) = some x := by cases x <;> rfl
@[simp] theorem AtmOp.ofCode_code_bits8 (x : AtmOp) : AtmOp.ofCode (x.code % 256) = some x := by cases x <;> rfl
@[simp] theorem Semi.ofCode_code_bits8 (x : Semi) : Semi.ofCode (x.code % 256) = some x := by cases x <;> rfl
@[simp] theorem TileFmt.ofCode_code_bits8 (x : TileFmt) : TileFmt.ofCode (x.code % 256) = some x := by cases x <;> rfl
@[simp] theorem OpCls.ofCode_code_bits8 (x : OpCls) : OpCls.ofCode (x.code % 256) = some x := by cases x <;> rfl

/-- XOP of LRED never is the 16 of LREDX (R60). -/
theorem ScanOp.code_bits8_ne_sixteen (x : ScanOp) : x.code % 256 ≠ 16 := by cases x <;> decide

/-- XOP of LSCAN holds the operation in its low three bits and the exclusive form in bit 3 (R145). -/
theorem ScanOp.ofCode_code_excl (x : ScanOp) (excl : Bool) : ScanOp.ofCode ((x.code + if excl then 8 else 0) % 8) = some x := by
  cases x <;> cases excl <;> rfl
theorem ScanOp.excl_of_code (x : ScanOp) (excl : Bool) : ((x.code + if excl then 8 else 0) % 256 / 8 == 1) = excl := by
  cases x <;> cases excl <;> rfl

/- Operand bytes -/

@[simp] theorem SpReg.ofNum_num_bits8 (x : SpReg) : SpReg.ofNum (x.num % 256) = some x := by cases x <;> rfl
theorem SpReg.num_byte_ne_zero (x : SpReg) : BitVec.ofNat 8 x.num ≠ 0#8 := by cases x <;> decide

/- A register number has zeros above it, an immediate the bit 7 (R1, R65). -/

theorem toNat_zero_append {u v : Nat} (n : BitVec v) : (0#u ++ n).toNat = n.toNat := by simp [BitVec.toNat_append]
theorem toNat_imm (x : BitVec 7) : (1#1 ++ x).toNat = 0x80 + x.toNat := by
  rw [BitVec.toNat_append]
  exact (Nat.two_pow_add_eq_or_of_lt x.isLt 1).symm

@[simp] theorem Sc.ofByte_byte (x : Sc) : Sc.ofByte x.byte = some x := by
  cases x with
  | r n =>
    have hn : (0#2 ++ n).toNat < 0x40 := by rw [toNat_zero_append]; exact n.isLt
    exact (if_pos hn).trans (congrArg (some ∘ Sc.r) BitVec.setWidth_append_eq_right)
  | lit => rfl
  | sp x => cases x <;> rfl
  | imm x =>
    have hn : ¬ (1#1 ++ x).toNat < 0x80 ∧ ¬ (1#1 ++ x).toNat < 0x40 ∧ (1#1 ++ x).toNat ≠ 0x40 := by rw [toNat_imm]; omega
    obtain ⟨h80, h40, hlit⟩ := hn
    unfold Sc.ofByte Sc.byte
    rw [if_neg h40, if_neg hlit, if_neg h80, BitVec.setWidth_append_eq_right]

@[simp] theorem KSc.ofByte_byte (x : KSc) : KSc.ofByte x.byte = some x := by
  cases x with
  | k n =>
    have hn : (0#4 ++ n).toNat < 0x10 := by rw [toNat_zero_append]; exact n.isLt
    exact (if_pos hn).trans (congrArg (some ∘ KSc.k) BitVec.setWidth_append_eq_right)
  | lit => rfl
  | imm x =>
    have hn : ¬ (1#1 ++ x).toNat < 0x80 ∧ ¬ (1#1 ++ x).toNat < 0x10 ∧ (1#1 ++ x).toNat ≠ 0x40 := by rw [toNat_imm]; omega
    obtain ⟨h80, h10, hlit⟩ := hn
    unfold KSc.ofByte KSc.byte
    rw [if_neg h10, if_neg hlit, if_neg h80, BitVec.setWidth_append_eq_right]

/-- The byte and its source-class flag together tell a vector register from a scalar (R48). -/
@[simp] theorem VSrc.of_flag_byte (x : VSrc) : VSrc.of x.flag x.byte = some x := by
  cases x with
  | v n => rfl
  | s x => simp [VSrc.of, VSrc.flag, VSrc.byte]

/- Register numbers in an operand byte -/

@[simp] theorem Raw.r6_append (n : BitVec 6) : Raw.r6 (0#2 ++ n) = n := BitVec.setWidth_append_eq_right
@[simp] theorem Raw.m4_append (n : BitVec 4) : Raw.m4 (0#4 ++ n) = n := BitVec.setWidth_append_eq_right
@[simp] theorem Raw.t3_append (n : BitVec 3) : Raw.t3 (0#5 ++ n) = n := BitVec.setWidth_append_eq_right
@[simp] theorem Raw.g2_append (n : Gen) : Raw.g2 (0#6 ++ n) = n := BitVec.setWidth_append_eq_right

end Sys2Proof
end

section
/-! PROOFS. The fields of the instruction words read back (R41 to R44, R127, R169, R221, R254, R374). -/
namespace Sys2Proof

/- A field of words put side by side stands in one of them. The width of an instruction word is written 32, not as the sum of the widths of its
fields, so a rewrite must not look for the sum. -/

theorem extractLsb'_append_high {u v s n : Nat} (x : BitVec u) (y : BitVec v) (h : v ≤ s) :
    BitVec.extractLsb' s n (no_index (x ++ y)) = x.extractLsb' (s - v) n := BitVec.extractLsb'_append_eq_of_le h
theorem extractLsb'_append_low {u v s n : Nat} (x : BitVec u) (y : BitVec v) (h : s + n ≤ v) :
    BitVec.extractLsb' s n (no_index (x ++ y)) = y.extractLsb' s n := BitVec.extractLsb'_append_eq_of_add_le h
theorem getLsbD_append_high {u v s : Nat} (x : BitVec u) (y : BitVec v) (h : v ≤ s) :
    BitVec.getLsbD (no_index (x ++ y)) s = x.getLsbD (s - v) := by rw [BitVec.getLsbD_append, if_neg (by omega)]
theorem getLsbD_append_low {u v s : Nat} (x : BitVec u) (y : BitVec v) (h : s < v) :
    BitVec.getLsbD (no_index (x ++ y)) s = y.getLsbD s := by rw [BitVec.getLsbD_append, if_pos h]
theorem getLsbD_bit (x : Bool) : (Shape.bit x).getLsbD 0 = x := by cases x <;> rfl

namespace Shape

/- Words 0 and 1 (R42, R43) -/

theorem word0_opc (sh : Shape) : sh.word0.extractLsb' 9 7 = sh.opc := by simp [word0, extractLsb'_append_high, extractLsb'_append_low]
theorem word0_fields (sh : Shape) :
    sh.word0.extractLsb' 2 3 = sh.stall ∧ sh.word0.extractLsb' 5 4 = sh.guard ∧ sh.word0.extractLsb' 16 8 = sh.d ∧
      sh.word0.extractLsb' 24 8 = sh.a := by
  simp [word0, extractLsb'_append_high, extractLsb'_append_low]

/-- LEN has the literal's bit above the bit of the extended form. -/
theorem word0_len (sh : Shape) : sh.word0.extractLsb' 0 2 = bit sh.usesLit ++ bit sh.ext := by grind [word0]

theorem word1_fields (sh : Shape) :
    sh.word1.extractLsb' 0 8 = sh.b ∧ sh.word1.extractLsb' 8 8 = sh.c ∧ sh.word1.extractLsb' 16 3 = sh.rnd ∧
      sh.word1.extractLsb' 20 4 = sh.fmt ∧ sh.word1.extractLsb' 24 8 = sh.xop := by
  simp [word1, extractLsb'_append_high, extractLsb'_append_low]
theorem word1_gneg (sh : Shape) : sh.word1.getLsbD 19 = sh.gneg := by
  simp only [word1, getLsbD_append_high, getLsbD_append_low, getLsbD_bit, Nat.reduceLeDiff, Nat.reduceSub, Nat.reduceLT]

/- Word 2 -/

@[simp] theorem laneW2_bits (bit8 : Bool) (fmt2 : Fmt) (a b c : Bool) :
    let w := laneW2 bit8 fmt2 a b c
    w[0] = a ∧ w[1] = b ∧ w[2] = c ∧ w[8] = bit8 := by
  simp only [← BitVec.getLsbD_eq_getElem, laneW2, getLsbD_append_high, getLsbD_append_low, getLsbD_bit, Nat.reduceLeDiff, Nat.reduceSub, Nat.reduceLT,
    and_self]
@[simp] theorem laneW2_fmt2 (bit8 : Bool) (fmt2 : Fmt) (a b c : Bool) : (laneW2 bit8 fmt2 a b c).extractLsb' 4 4 = fmt2.code := by
  simp [laneW2, extractLsb'_append_high, extractLsb'_append_low]

@[simp] theorem arrayW2_fields (nm1 : BitVec 6) (fmt2 : Fmt) (p : Bool) :
    let w := arrayW2 nm1 fmt2 p
    w.extractLsb' 8 6 = nm1 ∧ w.extractLsb' 4 4 = fmt2.code ∧ w[0] = p := by
  simp only [← BitVec.getLsbD_eq_getElem, arrayW2, extractLsb'_append_high, extractLsb'_append_low, getLsbD_append_low, getLsbD_bit, Nat.reduceLeDiff,
    Nat.reduceSub, Nat.reduceAdd, Nat.reduceLT, BitVec.extractLsb'_eq_self, and_self]

section mem
variable (vx : BitVec 8) (bm : BitVec 4) (iofs : BitVec 12) (isrc xf strict : Bool) (scope : Scope) (q : OrdQ)
@[simp] theorem memW2_fields :
    let w := memW2 vx bm iofs isrc xf strict scope q
    w.extractLsb' 24 8 = vx ∧ w.extractLsb' 20 4 = bm ∧ w.extractLsb' 8 12 = iofs ∧ w.extractLsb' 2 3 = BitVec.ofNat 3 scope.code ∧
      w.extractLsb' 0 2 = BitVec.ofNat 2 q.code := by
  simp [memW2, extractLsb'_append_high, extractLsb'_append_low]
@[simp] theorem memW2_bits :
    let w := memW2 vx bm iofs isrc xf strict scope q
    w[7] = isrc ∧ w[6] = xf ∧ w[5] = strict := by
  simp only [← BitVec.getLsbD_eq_getElem, memW2, getLsbD_append_high, getLsbD_append_low, getLsbD_bit, Nat.reduceLeDiff, Nat.reduceSub, Nat.reduceLT,
    and_self]
end mem

@[simp] theorem postW2_fields (vx vy : BitVec 8) (rlen : BitVec 12) (tr lv : Bool) :
    let w := postW2 vx vy rlen tr lv
    w.extractLsb' 24 8 = vx ∧ w.extractLsb' 16 8 = vy ∧ w.extractLsb' 4 12 = rlen := by
  simp [postW2, extractLsb'_append_high, extractLsb'_append_low]
@[simp] theorem postW2_bits (vx vy : BitVec 8) (rlen : BitVec 12) (tr lv : Bool) :
    let w := postW2 vx vy rlen tr lv
    w[1] = tr ∧ w[0] = lv := by
  simp only [← BitVec.getLsbD_eq_getElem, postW2, getLsbD_append_high, getLsbD_append_low, getLsbD_bit, Nat.reduceLeDiff, Nat.reduceSub, Nat.reduceLT,
    and_self]

@[simp] theorem evW2_fields (prio : BitVec 8) (field : Nat) (abs a b c : Bool) :
    let w := evW2 prio field abs a b c
    w.extractLsb' 8 8 = prio ∧ w.extractLsb' 4 4 = BitVec.ofNat 4 field := by
  simp [evW2, extractLsb'_append_high, extractLsb'_append_low]
@[simp] theorem evW2_bits (prio : BitVec 8) (field : Nat) (abs a b c : Bool) :
    let w := evW2 prio field abs a b c
    w[3] = abs ∧ w[2] = c ∧ w[1] = b ∧ w[0] = a := by
  simp only [← BitVec.getLsbD_eq_getElem, evW2, getLsbD_append_high, getLsbD_append_low, getLsbD_bit, Nat.reduceLeDiff, Nat.reduceSub, Nat.reduceLT,
    and_self]

/- Word 2 of SLD and SST; of SETSR and PWAIT; of KCMP -/

@[simp] theorem strictW2_bit (strict : Bool) : (0#26 ++ bit strict ++ 0#5 : Word)[5] = strict := by cases strict <;> rfl
@[simp] theorem flagW2_bit (x : Bool) : (0#31 ++ bit x : Word)[0] = x := by cases x <;> rfl
@[simp] theorem condW2_field (c : BitVec 3) : (0#29 ++ c : Word).extractLsb' 0 3 = c := BitVec.extractLsb'_append_eq_right

end Shape
end Sys2Proof
end

section
/-! PROOFS. What of a shape stands in its words: how each builder of a shape sets it, and the fields that the decoder reads from it (R42 to R44). -/
namespace Sys2Proof
namespace Shape

/-- The part of a shape that its words hold, with the literal's bit as R45 asks for it. -/
def enc (sh : Shape) : Shape := { sh with usesLit := sh.lit.isSome, sane := true, lat := 2, reads := [], writes := [] }

/- Builders -/

@[simp] theorem enc_ofSH (opc : BitVec 7) (xop : Nat) (h : SH) :
    (ofSH opc xop h).enc = { opc := opc, xop := BitVec.ofNat 8 xop, stall := h.stall, lit := h.lit, usesLit := h.lit.isSome } := rfl
@[simp] theorem enc_ofVH (opc : BitVec 7) (xop : Nat) (h : VH) :
    (ofVH opc xop h).enc =
      { opc := opc, xop := BitVec.ofNat 8 xop, stall := h.stall, lit := h.lit, usesLit := h.lit.isSome, guard := h.guard, gneg := h.gneg } := rfl
@[simp] theorem enc_ofStall (opc : BitVec 7) (xop : Nat) (st : BitVec 3) :
    (ofStall opc xop st).enc = { opc := opc, xop := BitVec.ofNat 8 xop, stall := st } := rfl
@[simp] theorem enc_baseForm (opc : BitVec 7) (st : BitVec 3) : (baseForm opc st).enc = { opc := opc, ext := false, stall := st } := rfl

variable (sh : Shape)

@[simp] theorem enc_addV (x : VSrc) (n : Nat) : (sh.addV x n).enc = sh.enc := by cases x <;> rfl
@[simp] theorem enc_extraS (x : Sc) : (sh.extraS x).enc = sh.enc := rfl
@[simp] theorem enc_use (x : SpReg) : (sh.use x).enc = sh.enc := rfl
@[simp] theorem enc_useKeySet : sh.useKeySet.enc = sh.enc := rfl
@[simp] theorem enc_alsoReads (l : List Ref) : (sh.alsoReads l).enc = sh.enc := rfl
@[simp] theorem enc_alsoWrites (l : List Ref) : (sh.alsoWrites l).enc = sh.enc := rfl
@[simp] theorem enc_late (n : Nat) : (sh.late n).enc = sh.enc := rfl
@[simp] theorem enc_need (p : Bool) : (sh.need p).enc = sh.enc := rfl

@[simp] theorem enc_aS (x : Sc) : (sh.aS x).enc = { sh.enc with a := x.byte } := rfl
@[simp] theorem enc_bS (x : Sc) : (sh.bS x).enc = { sh.enc with b := x.byte } := rfl
@[simp] theorem enc_cS (x : Sc) : (sh.cS x).enc = { sh.enc with c := x.byte } := rfl
@[simp] theorem enc_aK (x : KSc) : (sh.aK x).enc = { sh.enc with a := x.byte } := rfl
@[simp] theorem enc_bK (x : KSc) : (sh.bK x).enc = { sh.enc with b := x.byte } := rfl
@[simp] theorem enc_cK (x : KSc) : (sh.cK x).enc = { sh.enc with c := x.byte } := rfl
@[simp] theorem enc_aV (x : VSrc) (n : Nat) : (sh.aV x n).enc = { sh.enc with a := x.byte } := by cases x <;> rfl
@[simp] theorem enc_bV (x : VSrc) (n : Nat) : (sh.bV x n).enc = { sh.enc with b := x.byte } := by cases x <;> rfl
@[simp] theorem enc_cV (x : VSrc) (n : Nat) : (sh.cV x n).enc = { sh.enc with c := x.byte } := by cases x <;> rfl
@[simp] theorem enc_aR (x : BitVec 8) (n : Nat) : (sh.aR x n).enc = { sh.enc with a := x } := rfl
@[simp] theorem enc_bR (x : BitVec 8) (n : Nat) : (sh.bR x n).enc = { sh.enc with b := x } := rfl
@[simp] theorem enc_cR (x : BitVec 8) (n : Nat) : (sh.cR x n).enc = { sh.enc with c := x } := rfl
@[simp] theorem enc_aM (m : BitVec 4) : (sh.aM m).enc = { sh.enc with a := 0#4 ++ m } := rfl
@[simp] theorem enc_bM (m : BitVec 4) : (sh.bM m).enc = { sh.enc with b := 0#4 ++ m } := rfl
@[simp] theorem enc_cM (m : BitVec 4) : (sh.cM m).enc = { sh.enc with c := 0#4 ++ m } := rfl
@[simp] theorem enc_aB (k : BitVec 4) : (sh.aB k).enc = { sh.enc with a := 0#4 ++ k } := rfl
@[simp] theorem enc_aT (k : BitVec 3) : (sh.aT k).enc = { sh.enc with a := 0#5 ++ k } := rfl
@[simp] theorem enc_aG (g : Gen) : (sh.aG g).enc = { sh.enc with a := 0#6 ++ g } := rfl
@[simp] theorem enc_bG (g : Gen) : (sh.bG g).enc = { sh.enc with b := 0#6 ++ g } := rfl
@[simp] theorem enc_cG (g : Gen) : (sh.cG g).enc = { sh.enc with c := 0#6 ++ g } := rfl
@[simp] theorem enc_dS (d : BitVec 6) : (sh.dS d).enc = { sh.enc with d := 0#2 ++ d } := rfl
@[simp] theorem enc_dV (d : BitVec 8) (n : Nat) : (sh.dV d n).enc = { sh.enc with d := d } := rfl
@[simp] theorem enc_dM (d : BitVec 4) : (sh.dM d).enc = { sh.enc with d := 0#4 ++ d } := rfl
@[simp] theorem enc_dB (d : BitVec 4) : (sh.dB d).enc = { sh.enc with d := 0#4 ++ d } := rfl
@[simp] theorem enc_dK (d : BitVec 4) : (sh.dK d).enc = { sh.enc with d := 0#4 ++ d } := rfl
@[simp] theorem enc_dT (d : BitVec 3) : (sh.dT d).enc = { sh.enc with d := 0#5 ++ d } := rfl
@[simp] theorem enc_dG (g : Gen) : (sh.dG g).enc = { sh.enc with d := 0#6 ++ g } := rfl
@[simp] theorem enc_f (t : Fmt) : (sh.f t).enc = { sh.enc with fmt := t.code } := rfl
@[simp] theorem enc_r (x : Rnd) : (sh.r x).enc = { sh.enc with rnd := x.code } := rfl
@[simp] theorem enc_rIf (x : Rnd) (p : Bool) : (sh.rIf x p).enc = { sh.enc with rnd := x.code } := by cases p <;> rfl
@[simp] theorem enc_word2 (w : Word) : (sh.word2 w).enc = { sh.enc with w2 := w } := rfl
@[simp] theorem enc_mustLit (v : DWord) : (sh.mustLit v).enc = { sh.enc with lit := some v, usesLit := true } := rfl

/- Rows of one shape (R113, R127, R221, R254) -/

@[simp] theorem enc_alu (opc : BitVec 7) (xop : Nat) (h : SH) (t : Fmt) (d : BitVec 6) (a b : Sc) :
    (alu opc xop h t d a b).enc = { (ofSH opc xop h).enc with fmt := t.code, d := 0#2 ++ d, a := a.byte, b := b.byte } := rfl
@[simp] theorem enc_lane1 (opc : BitVec 7) (xop : Nat) (h : VH) (t : Fmt) (d : BitVec 8) (a : VSrc) :
    (lane1 opc xop h t d a).enc =
      { (ofVH opc xop h).enc with fmt := t.code, d := d, a := a.byte, w2 := laneW2 false .dflt a.flag false false } := by simp [lane1]
@[simp] theorem enc_lane2 (opc : BitVec 7) (xop : Nat) (h : VH) (t : Fmt) (d : BitVec 8) (a b : VSrc) :
    (lane2 opc xop h t d a b).enc =
      { (ofVH opc xop h).enc with fmt := t.code, d := d, a := a.byte, b := b.byte, w2 := laneW2 false .dflt a.flag b.flag false } := by simp [lane2]
@[simp] theorem enc_lane3 (opc : BitVec 7) (h : VH) (t : Fmt) (d : BitVec 8) (a b c : VSrc) :
    (lane3 opc h t d a b c).enc =
      { (ofVH opc 0 h).enc with
        fmt := t.code, d := d, a := a.byte, b := b.byte, c := c.byte, w2 := laneW2 false .dflt a.flag b.flag c.flag } := by simp [lane3]
@[simp] theorem enc_idxMem (opc : BitVec 7) (xop : Nat) (h : VH) (m : MH) (t : Fmt) (vx : BitVec 8) (idx : VSrc) (xf : Bool) :
    (idxMem opc xop h m t vx idx xf).enc =
      { (ofVH opc xop h).enc with
        fmt := t.code, b := idx.byte, w2 := memW2 vx m.bm m.iofs idx.flag xf m.strict m.scope m.ordq } := by simp [idxMem]
@[simp] theorem enc_mem (opc : BitVec 7) (xop : Nat) (h : VH) (m : MH) (t : Fmt) (vx : BitVec 8) (idx : VSrc) (xf : Bool) :
    (mem opc xop h m t vx idx xf).enc = (idxMem opc xop h m t vx idx xf).enc := rfl
@[simp] theorem enc_post (xop : Nat) (h : VH) (d : BitVec 6) (k : BitVec 4) (c sl ss : Sc) (rlen : BitVec 12) (lv : Bool) :
    (post xop h d k c sl ss rlen lv).enc =
      { (ofVH 0x6C xop h).enc with d := 0#2 ++ d, a := 0#4 ++ k, c := c.byte, w2 := postW2 sl.byte ss.byte rlen false lv } := rfl

/- The fields that the decoder reads -/

/-- The words of a shape as the decoder splits them: those of the base form are read as 0 beyond the first (R41). -/
def raw : Raw := { w0 := sh.word0, w1 := if sh.ext then sh.word1 else 0, w2 := if sh.ext then sh.w2 else 0, lit := sh.lit }

@[simp] theorem raw_opc : sh.raw.opc = sh.opc := sh.word0_opc
@[simp] theorem raw_word0 : sh.raw.stall = sh.stall ∧ sh.raw.guard = sh.guard ∧ sh.raw.d = sh.d ∧ sh.raw.a = sh.a := sh.word0_fields
@[simp] theorem raw_len : sh.raw.len = bit sh.usesLit ++ bit sh.ext := sh.word0_len
@[simp] theorem raw_lit : sh.raw.lit = sh.lit := rfl
@[simp] theorem raw_sh : sh.raw.sh = { stall := sh.stall, lit := sh.lit } := by simp [Raw.sh]
@[simp] theorem raw_sa : sh.raw.sa = Sc.ofByte sh.a := by simp [Raw.sa]
@[simp] theorem raw_ka : sh.raw.ka = KSc.ofByte sh.a := by simp [Raw.ka]

/- Fields of words 1 and 2, in the extended form -/

section ext
variable {sh : Shape} (h : sh.ext = true)
include h

@[simp] theorem raw_w2 : sh.raw.w2 = sh.w2 := if_pos h
theorem raw_w1 : sh.raw.w1 = sh.word1 := if_pos h
@[simp] theorem raw_word1 :
    sh.raw.b = sh.b ∧ sh.raw.c = sh.c ∧ sh.raw.rnd = sh.rnd ∧ sh.raw.fmt = sh.fmt ∧ sh.raw.xop = sh.xop.toNat ∧ sh.raw.gneg = sh.gneg := by
  simp only [Raw.b, Raw.c, Raw.rnd, Raw.fmt, Raw.xop, Raw.gneg, raw_w1 h, word1_fields, word1_gneg, and_self]
@[simp] theorem raw_vh : sh.raw.vh = { stall := sh.stall, guard := sh.guard, gneg := sh.gneg, lit := sh.lit } := by simp [Raw.vh, h]
@[simp] theorem raw_sb : sh.raw.sb = Sc.ofByte sh.b := by simp [Raw.sb, h]
@[simp] theorem raw_sc : sh.raw.sc = Sc.ofByte sh.c := by simp [Raw.sc, h]
@[simp] theorem raw_kb : sh.raw.kb = KSc.ofByte sh.b := by simp [Raw.kb, h]
@[simp] theorem raw_kc : sh.raw.kc = KSc.ofByte sh.c := by simp [Raw.kc, h]
@[simp] theorem raw_f? : sh.raw.f? = Fmt.ofCode sh.fmt := by simp [Raw.f?, h]
@[simp] theorem raw_r? : sh.raw.r? = Rnd.ofCode sh.rnd := by simp [Raw.r?, h]
@[simp] theorem raw_bit2 (n : Nat) : sh.raw.bit2 n = sh.w2.getLsbD n := by simp [Raw.bit2, h]
@[simp] theorem raw_fmt2 : sh.raw.fmt2 = sh.w2.extractLsb' 4 4 := by simp [Raw.fmt2, h]
@[simp] theorem raw_f2? : sh.raw.f2? = Fmt.ofCode (sh.w2.extractLsb' 4 4) := by simp [Raw.f2?, h]
@[simp] theorem raw_vx : sh.raw.vx = sh.w2.extractLsb' 24 8 := by simp [Raw.vx, h]
@[simp] theorem raw_vy : sh.raw.vy = sh.w2.extractLsb' 16 8 := by simp [Raw.vy, h]
@[simp] theorem raw_rlen : sh.raw.rlen = sh.w2.extractLsb' 4 12 := by simp [Raw.rlen, h]
@[simp] theorem raw_va : sh.raw.va = VSrc.of (sh.w2.getLsbD 0) sh.a := by simp [Raw.va, h]
@[simp] theorem raw_vb : sh.raw.vb = VSrc.of (sh.w2.getLsbD 1) sh.b := by simp [Raw.vb, h]
@[simp] theorem raw_vc : sh.raw.vc = VSrc.of (sh.w2.getLsbD 2) sh.c := by simp [Raw.vc, h]
@[simp] theorem raw_idx : sh.raw.idx = VSrc.of (sh.w2.getLsbD 7) sh.b := by simp [Raw.idx, h]
@[simp] theorem raw_mh? : sh.raw.mh? = (Scope.ofCode (sh.w2.extractLsb' 2 3).toNat).map fun sc =>
    { ordq := OrdQ.ofCode (sh.w2.extractLsb' 0 2), scope := sc, strict := sh.w2.getLsbD 5, bm := sh.w2.extractLsb' 20 4,
      iofs := sh.w2.extractLsb' 8 12 } := by
  simp only [Raw.mh?, raw_w2 h, Raw.bit2]
  cases Scope.ofCode (sh.w2.extractLsb' 2 3).toNat <;> rfl

end ext

end Shape
end Sys2Proof
end

section
/-! PROOFS. The parser reads the words of every instruction row back (R58 to R62). -/
namespace Sys2Proof

/-- The parser of the class that an OPC belongs to. -/
def Raw.parse (x : Raw) : Option Instr :=
  let o := x.opc.toNat
  if o < 0x1F then x.parseScalar
  else if 0x20 ≤ o ∧ o < 0x46 then x.parseVector
  else if 0x50 ≤ o ∧ o < 0x64 then x.parseCross
  else if 0x64 ≤ o ∧ o < 0x77 then x.parseMem
  else if 0x78 ≤ o ∧ o ≤ 0x7B then x.parseCopy
  else none

/-- The parser reads the words of `i`, if it has any, as `i`. -/
def Instr.Parses (i : Instr) : Prop := ∀ sh, shape? i = some sh → sh.enc.raw.parse = some i

/-- It is enough to know what of the row's shape stands in its words. -/
theorem Instr.Parses.of_enc {i : Instr} (e : Shape) (he : (shape? i).map Shape.enc = some e) (hp : e.raw.parse = some i) : i.Parses := by
  intro sh hs
  rw [hs] at he
  cases he
  exact hp

/- Rows of one shape -/

theorem parses_alu (h : SH) (t : Fmt) (d : BitVec 6) (a b : Sc) :
    ∀ k ∈ [Instr.sadd, .ssub, .smul, .smulh, .sand, .sor, .sxor, .sshl, .sshr, .smin, .smax], (k h t d a b).Parses := by
  simp only [List.mem_cons, List.not_mem_nil, or_false, forall_eq_or_imp, forall_eq]
  refine ⟨?_, ?_, ?_, ?_, ?_, ?_, ?_, ?_, ?_, ?_, ?_⟩ <;> rintro _ ⟨⟩ <;> simp [Raw.parse, Raw.parseScalar, Raw.alu]

theorem parses_lane2 (h : VH) (t : Fmt) (d : BitVec 8) (a b : VSrc) :
    ∀ k ∈ [Instr.vadd, .vsub, .vmul, .vmulh, .vand, .vor, .vxor, .vshl, .vshr, .vmin, .vmax, .fmin, .fmax], (k h t d a b).Parses := by
  simp only [List.mem_cons, List.not_mem_nil, or_false, forall_eq_or_imp, forall_eq]
  refine ⟨?_, ?_, ?_, ?_, ?_, ?_, ?_, ?_, ?_, ?_, ?_, ?_, ?_⟩ <;> rintro _ ⟨⟩ <;> simp [Raw.parse, Raw.parseVector, Raw.lane2]

theorem parses_fp2 (h : VH) (x : Rnd) (t : Fmt) (d : BitVec 8) (a b : VSrc) :
    ∀ k ∈ [Instr.fadd, .fsub, .fmul, .fdiv], (k h x t d a b).Parses := by
  simp only [List.mem_cons, List.not_mem_nil, or_false, forall_eq_or_imp, forall_eq]
  refine ⟨?_, ?_, ?_, ?_⟩ <;> rintro _ ⟨⟩ <;> simp [Raw.parse, Raw.parseVector, Raw.fp2]

theorem parses_k2 (h : SH) (d : BitVec 4) (a b : KSc) :
    ∀ k ∈ [Instr.kadd, .ksub, .kmul, .kshl, .kand], (k h d a b).Parses := by
  simp only [List.mem_cons, List.not_mem_nil, or_false, forall_eq_or_imp, forall_eq]
  refine ⟨?_, ?_, ?_, ?_, ?_⟩ <;> rintro _ ⟨⟩ <;> simp [Raw.parse, Raw.parseCopy, Raw.k2]

/- Rows whose shape is not put together by the builders alone -/

theorem parses_setsr (h : VH) (d : SpReg) (a : VSrc) : (Instr.setsr h d a).Parses := by
  refine .of_enc { (Shape.ofVH 0x0B 1 h).enc with d := BitVec.ofNat 8 d.num, a := a.byte, w2 := 0#31 ++ Shape.bit (!a.flag) } ?_ ?_
  · cases a <;> cases d <;> rfl
  · simp [Raw.parse, Raw.parseScalar]

theorem parses_wwr (h : SH) (d : Option SpReg) (a b : Sc) : (Instr.wwr h d a b).Parses := by
  refine .of_enc { (Shape.ofSH 0x0B 18 h).enc with d := (d.map (fun x => BitVec.ofNat 8 x.num)).getD 0, a := a.byte, b := b.byte } ?_ ?_
  · cases d <;> rfl
  · cases d <;> simp [Raw.parse, Raw.parseScalar, SpReg.num_byte_ne_zero]

theorem parses_mmul (h : VH) (sr : Semi) (x w : Fmt) (k : BitVec 3) (a : BitVec 8) (p : Bool) : (Instr.mmul h sr x w k a p).Parses :=
  .of_enc { (Shape.ofVH 0x59 sr.code h).enc with fmt := x.code, d := 0#5 ++ k, a := a, w2 := Shape.arrayW2 0 w p } rfl
    (by simp [Raw.parse, Raw.parseCross])

theorem parses_mard (h : VH) (x : Rnd) (t kind : Fmt) (d : BitVec 8) (k : BitVec 3) (b : Sc) (nm1 : BitVec 6) :
    (Instr.mard h x t kind d k b nm1).Parses := by
  refine .of_enc { (Shape.ofVH 0x5B 0 h).enc with
    fmt := t.code, rnd := x.code, d := d, a := 0#5 ++ k, b := b.byte, w2 := Shape.arrayW2 nm1 kind false } ?_ ?_
  · cases kind <;> rfl
  · simp [Raw.parse, Raw.parseCross]

theorem parses_mawr (h : VH) (t kind : Fmt) (k : BitVec 3) (a : BitVec 8) (b : Sc) (nm1 : BitVec 6) : (Instr.mawr h t kind k a b nm1).Parses :=
  .of_enc { (Shape.ofVH 0x5C 0 h).enc with fmt := t.code, d := 0#5 ++ k, a := a, b := b.byte, w2 := Shape.arrayW2 nm1 kind false } rfl
    (by simp [Raw.parse, Raw.parseCross])

theorem parses_rrev (h : VH) (t f2 : Fmt) (d : BitVec 8) (a : VSrc) (c : BitVec 4) : (Instr.rrev h t f2 d a c).Parses := by
  refine .of_enc { (Shape.ofVH 0x61 0 h).enc with
    fmt := t.code, d := d, a := a.byte, c := 0#4 ++ c, w2 := Shape.laneW2 false f2 a.flag false false } ?_ ?_
  · cases a <;> rfl
  · simp [Raw.parse, Raw.parseCross]

/-- Every row parses: each class by its own parser, its operands by the codes and fields that read back. -/
theorem Instr.parses (i : Instr) : i.Parses := by
  cases i
  -- rows written by several forms of their own
  case fsgn x _ _ _ => cases x <;> rintro _ ⟨⟩ <;> simp [Raw.parse, Raw.parseVector, Raw.lane1]
  case fpack x => cases x <;> rintro _ ⟨⟩ <;> simp [Raw.parse, Raw.parseVector]
  case lvote d _ => cases d <;> rintro _ ⟨⟩ <;> simp [Raw.parse, Raw.parseCross, Shape.vote]
  case lmsk x => cases x <;> rintro _ ⟨⟩ <;> simp [Raw.parse, Raw.parseCross, Shape.lmskShape]
  case lredx x => cases x <;> rintro _ ⟨⟩ <;> simp [Raw.parse, Raw.parseCross]
  case redx x => cases x <;> rintro _ ⟨⟩ <;> simp [Raw.parse, Raw.parseMem]
  case sdiv rem _ _ _ _ => cases rem <;> rintro _ ⟨⟩ <;> simp [Raw.parse, Raw.parseScalar, Raw.alu]
  case vsat sub _ _ _ _ => cases sub <;> rintro _ ⟨⟩ <;> simp [Raw.parse, Raw.parseVector, Raw.lane2]
  -- rows whose shape is not put together by the builders alone, and rows of the base form, whose LEN tells a literal
  case trap st g a =>
    exact .of_enc { opc := 0x00, ext := false, stall := st, guard := g, a := a.byte } rfl (by simp [Raw.parse, Raw.parseScalar, Shape.bit])
  case trapLit st g v =>
    exact .of_enc { opc := 0x00, ext := false, stall := st, guard := g, a := 0x40, lit := some v, usesLit := true } rfl
      (by simp [Raw.parse, Raw.parseScalar, Shape.bit])
  case ret => rintro _ ⟨⟩; simp [Raw.parse, Raw.parseScalar, Shape.bit]
  case retLit st v =>
    exact .of_enc { opc := 0x04, ext := false, stall := st, a := 0x40, lit := some v, usesLit := true } rfl
      (by simp [Raw.parse, Raw.parseScalar, Shape.bit])
  case smov => rintro _ ⟨⟩; simp [Raw.parse, Raw.parseScalar, Shape.bit]
  case smovLit st d v =>
    exact .of_enc { opc := 0x0C, ext := false, stall := st, d := 0#2 ++ d, a := 0x40, lit := some v, usesLit := true } rfl
      (by simp [Raw.parse, Raw.parseScalar, Shape.bit])
  case getsr st d x =>
    exact .of_enc { opc := 0x0B, stall := st, d := 0#2 ++ d, a := BitVec.ofNat 8 x.num } rfl (by simp [Raw.parse, Raw.parseScalar])
  case setsr => exact parses_setsr _ _ _
  case wwr => exact parses_wwr _ _ _ _
  case mmul => exact parses_mmul _ _ _ _ _ _ _
  case mard => exact parses_mard _ _ _ _ _ _ _ _
  case mawr => exact parses_mawr _ _ _ _ _ _ _
  case rrev => exact parses_rrev _ _ _ _ _ _
  case lred => rintro _ ⟨⟩; split <;> simp [Raw.parse, Raw.parseCross, Raw.lane1, ScanOp.code_bits8_ne_sixteen]
  case atm => rintro _ ⟨⟩; split <;> simp [Raw.parse, Raw.parseMem]
  case lscan => rintro _ ⟨⟩; simp [Raw.parse, Raw.parseCross, Nat.mod_mod_of_dvd, ScanOp.ofCode_code_excl, ScanOp.excl_of_code]
  -- the other rows of each class
  case sadd | ssub | smul | smulh | sand | sor | sxor | sshl | sshr | smin | smax => exact parses_alu _ _ _ _ _ _ (by simp)
  case br | brc | call | loop | vif | velse | vend | exit | rgrow | rshr | sleep | wsel | wrd | wres | sli | scmp | ssel | sld | sst | scnt =>
    rintro _ ⟨⟩
    simp [Raw.parse, Raw.parseScalar, Raw.alu]
  case vadd | vsub | vmul | vmulh | vand | vor | vxor | vshl | vshr | vmin | vmax | fmin | fmax => exact parses_lane2 _ _ _ _ _ _ (by simp)
  case fadd | fsub | fmul | fdiv => exact parses_fp2 _ _ _ _ _ _ _ (by simp)
  case vmov | vabs | vbit | fclass | frint | fsqrt | vmad | vcmp | vsel | vcvt | fcmp | fcvt | ffma =>
    rintro _ ⟨⟩
    simp [Raw.parse, Raw.parseVector, Raw.lane1, Raw.fp1]
  case lxch | lbcst | lfirst | topk | mpath | merge | mwld | maclr | rfwd | rchk | rmad =>
    rintro _ ⟨⟩
    simp [Raw.parse, Raw.parseCross]
  case ldb | stb | lds | sts | ldc | stc | bset | xrnd | vldv | vstv | fence | cpost | cgath | cscat | ccopy | ccopyOut | ccopyTr | cchain | lati | larv | lrst
      | lwait | pwait | owait | cbar | gbar | evs | evc | evr | evx | vrnd =>
    rintro _ ⟨⟩
    simp [Raw.parse, Raw.parseMem, Raw.postv, Raw.posts]
  case kadd | ksub | kmul | kshl | kand => exact parses_k2 _ _ _ _ _ (by simp)
  case kmov | kshr | kcmp | kbr | kloop | kend | karv | kprom | kld | gset | gstep | xcopy | xgath | xscat | xtran | xfill | xcopyv =>
    rintro _ ⟨⟩
    simp [Raw.parse, Raw.parseCopy, Raw.k2]
  -- rows without words
  all_goals rintro _ ⟨⟩

end Sys2Proof
end

section
/-! PROOFS. Decoding and encoding agree (R41 to R66). -/
namespace Sys2Proof

/- The words of a shape, whatever follows them -/

theorem Shape.raw_enc {sh : Shape} (h : sh.usesLit = sh.lit.isSome) : sh.enc.raw = sh.raw := by
  simp only [raw, enc, word0, word1, h]
  rfl

/-- The literal's two words, the low one first, are the literal (R44). -/
theorem lit_halves (v : DWord) : v.extractLsb' 32 32 ++ v.extractLsb' 0 32 = v :=
  (BitVec.extractLsb'_append_extractLsb'_eq_extractLsb' (start₁ := 0) (len₁ := 32) rfl).trans BitVec.extractLsb'_eq_self

/-- The decoder splits the words of a shape as they were put together. -/
theorem Shape.rawOf_words {sh : Shape} (h : sh.usesLit = sh.lit.isSome) (after : Nat → Word) :
    let w (k : Nat) := sh.words.getD k (after k)
    rawOf (w 0) (w 1) (w 2) (w 3) (w 4) = sh.raw := by
  have hlen : sh.word0.extractLsb' 0 2 = bit sh.lit.isSome ++ bit sh.ext := h ▸ sh.word0_len
  cases hext : sh.ext <;> cases hlit : sh.lit <;>
    simp [rawOf, words, raw, h, hext, hlit, hlen, bit, lit_halves]

/-- LEN of a shape's first word announces as many words as the shape has. -/
theorem Shape.take_wordCount {sh : Shape} (hopc : sh.opc ≠ 0x7F#7) (after : Nat → Word) :
    let w (k : Nat) := sh.words.getD k (after k)
    [w 0, w 1, w 2, w 3, w 4].take (wordCount (w 0)) = sh.words := by
  have hopc' : sh.word0.extractLsb' 9 7 ≠ 0x7F#7 := by rwa [sh.word0_opc]
  cases hext : sh.ext <;> cases hlit : sh.usesLit <;>
    simp [wordCount, words, hext, hlit, hopc', sh.word0_len, bit]

theorem rawOf_w0 (w0 w1 w2 w3 w4 : Word) : (rawOf w0 w1 w2 w3 w4).w0 = w0 := by
  unfold rawOf
  split <;> rfl
theorem rawOf_opc (w0 w1 w2 w3 w4 : Word) : (rawOf w0 w1 w2 w3 w4).opc = w0.extractLsb' 9 7 := by rw [Raw.opc, rawOf_w0]

/- What the decoders make of parsed words -/

theorem Raw.parse_opc {x : Raw} {i : Instr} (h : x.parse = some i) : x.opc ≠ 0x7F#7 := by
  intro ho
  simp [Raw.parse, ho] at h

section
variable {w0 w1 w2 w3 w4 : Word} {i : Instr} (hp : (rawOf w0 w1 w2 w3 w4).parse = some i)
include hp

theorem decodeGang_of_parse (hc : ¬ (0x78 ≤ (w0.extractLsb' 9 7).toNat ∧ (w0.extractLsb' 9 7).toNat ≤ 0x7B)) :
    decodeGang w0 w1 w2 w3 w4 = accept (some i) ([w0, w1, w2, w3, w4].take (wordCount w0)) := by
  have hne : (w0.extractLsb' 9 7).toNat ≠ 0x7F := fun h => Raw.parse_opc hp ((rawOf_opc ..).trans (BitVec.eq_of_toNat_eq h))
  unfold Raw.parse at hp
  simp only [rawOf_opc] at hp
  simp only [decodeGang, rawOf_opc, if_neg hne]
  split_ifs at hp ⊢ <;> rw [hp]

theorem decodeCopy_of_parse (hc : 0x78 ≤ (w0.extractLsb' 9 7).toNat ∧ (w0.extractLsb' 9 7).toNat ≤ 0x7B) :
    decodeCopy w0 w1 w2 w3 w4 = accept (some i) ([w0, w1, w2, w3, w4].take (wordCount w0)) := by
  unfold Raw.parse at hp
  simp only [rawOf_opc] at hp
  rw [if_neg (by omega), if_neg (by omega), if_neg (by omega), if_neg (by omega), if_pos hc] at hp
  simp only [decodeCopy, rawOf_opc, if_pos hc, hp]

end

theorem accept_encode {i : Instr} (hw : i.wf = true) : accept (some i) (encode i) = .ok i := by simp [accept, hw]

theorem copy_opc_iff (o : BitVec 7) : o ∈ [0x78#7, 0x79#7, 0x7A#7, 0x7B#7] ↔ 0x78 ≤ o.toNat ∧ o.toNat ≤ 0x7B := by
  simp only [List.mem_cons, List.not_mem_nil, or_false, BitVec.toNat_eq, BitVec.toNat_ofNat]
  omega

/- Rows with words -/

theorem encode_of_shape {i : Instr} {sh : Shape} (hs : shape? i = some sh) : encode i = sh.words := by
  unfold encode
  split
  · cases hs
  · rw [hs]

theorem usesLit_of_wf {i : Instr} {sh : Shape} (hs : shape? i = some sh) : i.wf = true → sh.usesLit = sh.lit.isSome := by
  simp only [Instr.wf, hs, Bool.and_eq_true, beq_iff_eq]
  exact fun ⟨⟨hlit, _⟩, _⟩ => hlit

/-- What has words has a shape, or is UNDEF. -/
theorem shape_of_isCode {i : Instr} (h : Machine.isCode i = true) : (∃ a d g st l, i = .undef a d g st l) ∨ ∃ sh, shape? i = some sh := by
  cases hs : shape? i with
  | some sh => exact .inr ⟨sh, rfl⟩
  | none =>
    unfold Machine.isCode encode at h
    split at h
    · exact .inl ⟨_, _, _, _, _, rfl⟩
    · rw [hs] at h
      cases h

theorem undef_opc (a d : BitVec 8) (g : BitVec 4) (st : BitVec 3) (l : BitVec 2) :
    (a ++ d ++ 0x7F#7 ++ g ++ st ++ l : BitVec 32).extractLsb' 9 7 = 0x7F#7 := by simp [extractLsb'_append_high, extractLsb'_append_low]

theorem decodeGang_encode_undef (a d : BitVec 8) (g : BitVec 4) (st : BitVec 3) (l : BitVec 2) (w1 w2 w3 w4 : Word) :
    decodeGang (a ++ d ++ 0x7F#7 ++ g ++ st ++ l : BitVec 32) w1 w2 w3 w4 = .ok (.undef a d g st l) := by
  simp [decodeGang, Raw.undef, Raw.opc, Raw.a, Raw.d, Raw.guard, Raw.stall, Raw.len, rawOf_w0, extractLsb'_append_high, extractLsb'_append_low]

/-- A row with a shape decodes from its words, whatever follows them. -/
theorem decode_encode_of_shape {i : Instr} {sh : Shape} (hs : shape? i = some sh) (hw : i.wf = true) (after : Nat → Word) :
    let w (k : Nat) := (encode i).getD k (after k)
    if (w 0).extractLsb' 9 7 ∈ [0x78#7, 0x79#7, 0x7A#7, 0x7B#7] then decodeCopy (w 0) (w 1) (w 2) (w 3) (w 4) = .ok i
    else decodeGang (w 0) (w 1) (w 2) (w 3) (w 4) = .ok i := by
  intro w
  have hlit : sh.usesLit = sh.lit.isSome := usesLit_of_wf hs hw
  have hraw : rawOf (w 0) (w 1) (w 2) (w 3) (w 4) = sh.raw := by
    simpa only [w, encode_of_shape hs] using Shape.rawOf_words hlit after
  have hparse : sh.raw.parse = some i := Shape.raw_enc hlit ▸ i.parses sh hs
  have htake : [w 0, w 1, w 2, w 3, w 4].take (wordCount (w 0)) = encode i := by
    have hopc : sh.opc ≠ 0x7F#7 := sh.raw_opc ▸ Raw.parse_opc hparse
    simpa only [w, encode_of_shape hs] using Shape.take_wordCount hopc after
  rw [← hraw] at hparse
  split <;> rename_i hc <;> rw [copy_opc_iff] at hc
  · rw [decodeCopy_of_parse hparse hc, htake, accept_encode hw]
  · rw [decodeGang_of_parse hparse hc, htake, accept_encode hw]

/-- Settles O56: a row with a shape parses back and its words are accepted; UNDEF keeps every bit of its word. -/
theorem encodeThenDecode : Obligations.EncodeThenDecode := by
  intro i after hw hcode
  obtain ⟨a, d, g, st, l, rfl⟩ | ⟨sh, hs⟩ := shape_of_isCode hcode
  · have hopc : ((encode (.undef a d g st l)).getD 0 (after 0)).extractLsb' 9 7 ∉ [0x78#7, 0x79#7, 0x7A#7, 0x7B#7] :=
      (undef_opc a d g st l).symm ▸ by decide
    exact (if_neg hopc).mpr (decodeGang_encode_undef a d g st l _ _ _ _)
  · exact decode_encode_of_shape hs hw after

/- What is decoded encodes back -/

theorem accept_ok {o : Option Instr} {ws : List Word} {i : Instr} (h : accept o ws = .ok i) : encode i = ws ∧ i.wf = true := by
  cases o with
  | none => cases h
  | some j =>
    simp only [accept] at h
    split_ifs at h with henc hwf
    cases h
    exact ⟨not_not.mp henc, hwf⟩

/-- Words that a gang decodes, of an OPC other than UNDEF's, are the words of the instruction. -/
theorem decodeGang_ok {w0 w1 w2 w3 w4 : Word} {i : Instr} (h : decodeGang w0 w1 w2 w3 w4 = .ok i) (hopc : w0.extractLsb' 9 7 ≠ 0x7F#7) :
    encode i = [w0, w1, w2, w3, w4].take (wordCount w0) ∧ i.wf = true := by
  have hne : (w0.extractLsb' 9 7).toNat ≠ 0x7F := fun he => hopc (BitVec.eq_of_toNat_eq he)
  simp only [decodeGang, rawOf_opc, if_neg hne] at h
  split_ifs at h <;> exact accept_ok h

/-- Settles O55: the words written out are evaluated, and what a gang's decoder accepts encodes to the words read. -/
theorem decodedWords : Obligations.DecodedWords := by
  refine ⟨?_, ?_, ?_, ?_, ?_, ?_, ?_, ?_, ?_, ?_, ?_, ?_, ?_, ?_, fun w0 w1 w2 w3 w4 i h hopc => decodeGang_ok h hopc⟩ <;> decide +kernel

end Sys2Proof
end

section
/-! PROOFS. One step, by what goes first (R66). -/
namespace Sys2Proof.Machine

section
variable {s : State} (ho : s.outside = [])

theorem step_outside {x : Outside} {o : List Outside} (h : s.outside = x :: o) : step s = .next ({ s with outside := o }.meets x) := by
  simp only [step, h]

include ho

theorem step_agenda {i : Instr} {l : List Instr} (ha : s.agenda = i :: l) (hi : isCode i = false) : step s = exec i { s with agenda := l } := by
  simp only [step, ho, ha, hi, Bool.false_eq_true, if_false]

variable (ha : s.agenda = [])
include ha

theorem step_submitted {i : Instr} {l : List Instr} (hs : s.submitted = i :: l) (hi : isCode i = false) :
    step s = exec i { s with submitted := l } := by
  simp only [step, ho, ha, hs, hi, Bool.false_eq_true, if_false]

/-- Nothing goes before the picked agent. -/
theorem step_picks (hs : s.submitted = []) (hf : s.fatal = none) {a : Agent} {r : List Agent} (hp : s.picks = a :: r) :
    step s = ({ s with picks := r } : State).runAgent a := by
  simp only [step, ho, ha, hs, hf, hp, Option.isSome_none, Bool.false_eq_true, if_false]

end

section
variable {dec : Word → Word → Word → Word → Word → Except DecodeError Instr} {l : List Word}

theorem decodeWords_ok {i : Instr} (h : dec (l.getD 0 0) (l.getD 1 0) (l.getD 2 0) (l.getD 3 0) (l.getD 4 0) = .ok i) :
    decodeWords dec (.words l) = .instr i := by simp only [decodeWords, h]
theorem decodeWords_error {e : DecodeError} (h : dec (l.getD 0 0) (l.getD 1 0) (l.getD 2 0) (l.getD 3 0) (l.getD 4 0) = .error e) :
    decodeWords dec (.words l) = .illegal l := by simp only [decodeWords, h]

end

/- The picked agent runs what stands at its PC -/

section
variable {u : State} {core slot : Nat} {g : Gang} (hg : u.gang? core slot = some g)
include hg

theorem runAgent_gang_instr {i : Instr} (h : u.atGang g = .instr i) :
    u.runAgent (.gang core slot) =
      exec i { u.noteFetch core slot g.launch g.pc ((shape i).len / 4) with cur := some (.gang core slot) } := by
  simp only [State.runAgent, hg, h]

theorem runAgent_gang_illegal {l : List Word} (h : u.atGang g = .illegal l) : u.runAgent (.gang core slot) = .next (u.issueIllegal g l) := by
  simp only [State.runAgent, hg, h, State.noInstr]

theorem runAgent_shadow_instr {x : Shadow} {it : Item} {q : List Item} {i : Instr} {v : State} (hx : g.shadow = some x)
    (hq : x.queue = it :: q) (ht : it.took = none) (h : u.atPc g it.pc = .instr i)
    (hv : exec i { u.putGang (g.asShadow x it) with cur := some (.gang g.core g.slot) } = .next v) :
    u.runAgent (.shadow core slot) = .next (u.shadowTook g x it q v) := by
  simp only [State.runAgent, hg, State.runShadow, hx, hq, ht, h, hv]

end

theorem runAgent_copy_instr {u : State} {core ix : Nat} {c : CopyCtx} {i : Instr} (hc : u.ctx? core ix = some c) (h : u.atCopy core c = .instr i) :
    u.runAgent (.copy core ix) =
      exec i { u.noteFetch core (64 + ix) c.launch c.pc ((shape i).len / 4) with cur := some (.copy core ix) } := by
  simp only [State.runAgent, hc, h]

/-- Settles O54: what goes first of what a step may run, and for the picked agent what its fetch and its decoder make of the words at its PC. -/
theorem stepRunsDecoded : Obligations.StepRunsDecoded := by
  intro s r i l u
  refine ⟨fun core slot g ho ha hs hf hp hg hfetch hdec => ?_, fun core ix c ho ha hs hf hp hc hfetch hdec => ?_,
    fun core slot g x it q v ho ha hs hf hp hg hx hq ht hfetch hdec hv => ?_, fun core slot g e ho ha hs hf hp hg hfetch hdec => ?_,
    fun a ho ha hi => step_agenda ho ha hi, fun a ho ha hs hi => step_submitted ho ha hs hi, fun x o h => step_outside h⟩
  · have hat : u.atGang g = .instr i := by rw [State.atGang, State.atPc, hfetch, decodeWords_ok hdec]
    rw [step_picks ho ha hs hf hp]
    exact runAgent_gang_instr (u := u) hg hat
  · have hat : u.atCopy core c = .instr i := by rw [State.atCopy, hfetch, decodeWords_ok hdec]
    rw [step_picks ho ha hs hf hp]
    exact runAgent_copy_instr (u := u) hc hat
  · have hat : u.atPc g it.pc = .instr i := by rw [State.atPc, hfetch, decodeWords_ok hdec]
    rw [step_picks ho ha hs hf hp]
    exact runAgent_shadow_instr (u := u) hg hx hq ht hat hv
  · have hat : u.atGang g = .illegal l := by rw [State.atGang, State.atPc, hfetch, decodeWords_error hdec]
    rw [step_picks ho ha hs hf hp]
    exact runAgent_gang_illegal (u := u) hg hat

end Sys2Proof.Machine
end

section
/-! PROOFS. The rows whose result is one mask bit in each lane (R54, R134, R137, R203). -/
namespace Sys2Proof.Machine

/-- A lane-wise body that computes a given row of bits writes the bit of each live active lane when no lane raises. -/
theorem bitRow_quiet {r : BitRow} {f : State → Gang → Nat → Bool × Nat} {s : State} {g : Gang} {act : LaneMask} (hf : ∀ k, f s g k = r.res k)
    (hc : g.CleanIn (g.live act) r.regs) (hq : ∀ k ∈ bitsOn (g.live act), (r.res k).2 = 0) :
    lanewise r.regs f (putM r.d) s g act = .ok s (g.mBits r.d.toNat ((bitsOn (g.live act)).map (fun k => (k, (r.res k).1)))) := by
  rw [lanewise_quiet hc (fun k hk => by rw [hf]; exact hq k hk)]
  simp only [hf, putM]

/-- With seven channels or more a residue instruction does what its lanes do (R199). -/
theorem residueBody_of_channels {f : State → Gang → LaneMask → Res} {s : State} {g : Gang} (h : 7 ≤ (bitsOn (s.core g.core).en).length)
    (act : LaneMask) : residueBody f s g act = f s g act := by
  have hfew : fewChannels (s.en g) = false := decide_eq_false (Nat.not_lt.mpr h)
  simp only [residueBody, hfew, Bool.false_eq_true, if_false]

/-- Settles O5: each of the three rows computes its row of bits lane by lane, RCHK after its check of the channels. -/
theorem laneBitRowsComplete : Obligations.LaneBitRowsComplete := by
  intro i s g r hi hr hc hq hch
  unfold bitRow at hr
  split at hr <;> cases hr
  case h_1 | h_2 => exact runGang_ok hi rfl (bitRow_quiet (fun _ => rfl) hc hq)
  case h_3 => exact runGang_ok hi rfl ((residueBody_of_channels hch _).trans (bitRow_quiet (fun _ => rfl) hc hq))

end Sys2Proof.Machine
end

section
/-! PROOFS. Control transfers (R94 to R96), mask regions (R93, R97 to R99), and the counts of SLEEP, RSHR and RGROW (R101, R122 to R124). -/
namespace Sys2Proof.Machine

/- Branches -/

/-- The target's low two bits, which RET tests, are its remainder by 4 (R96). -/
theorem extractLow_eq_zero_iff (v : DWord) : (v.setWidth 57).extractLsb' 0 2 = 0#2 ↔ v.toNat % 4 = 0 := by
  rw [BitVec.toNat_eq, BitVec.extractLsb'_toNat, BitVec.toNat_setWidth]
  simp only [Nat.shiftRight_zero, BitVec.toNat_ofNat]
  omega

theorem retBody_aligned {x : State → Gang → DWord} {s : State} {g : Gang} (act : LaneMask) (h : (x s g).toNat % 4 = 0) :
    retBody x s g act = .jump s g ((x s g).setWidth 57) := if_pos ((extractLow_eq_zero_iff _).mpr h)

theorem retBody_misaligned {x : State → Gang → DWord} {s : State} {g : Gang} (act : LaneMask) (h : (x s g).toNat % 4 ≠ 0) :
    retBody x s g act = .trap 7 := if_neg (mt (extractLow_eq_zero_iff _).mp h)

/-- Settles O6: each branch is a jump of its body; RET jumps or traps by the low bits of its target. -/
theorem branchesComplete : Obligations.BranchesComplete := by
  refine ⟨fun s g st h a d v ofs => ⟨?br, ?brc, ?call, ?loop, ?ret, ?retLit⟩, fun s g st a v => ⟨?retBad, ?retLitBad⟩⟩
  case br => exact fun hi => runGang_jump hi rfl rfl
  case brc =>
    intro hi
    rw [ite_not]
    exact runGang_jump hi rfl rfl
  case call => exact fun hi => runGang_jump hi rfl rfl
  case loop =>
    intro hi x
    rw [ite_not]
    exact runGang_jump hi rfl rfl
  case ret => exact fun hi h => runGang_jump hi rfl (retBody_aligned _ h)
  case retLit => exact fun hi h => runGang_jump hi rfl (retBody_aligned _ h)
  case retBad => exact fun hi h => runGang_trap hi rfl (retBody_misaligned _ h)
  case retLitBad => exact fun hi h => runGang_trap hi rfl (retBody_misaligned _ h)

/- Mask regions -/

/-- Settles O7: VIF decides by the depth of the stack, VELSE and VEND by whether there is a level, and the mask in force is that of the top level. -/
theorem maskRegionRows : Obligations.MaskRegionRows := by
  refine ⟨fun s g st m l r => ⟨?vif, ?velse, ?vend⟩, fun s g st m => ⟨?overflow, ?elseUnderflow, ?endUnderflow⟩,
    fun g l r c => ⟨rfl, ?flipped, ?empty⟩⟩
  case vif => exact fun hi h => runGang_ok hi rfl (if_neg (Nat.not_le.mpr h))
  case velse => exact fun hi h => runGang_ok hi rfl (by simp only [h])
  case vend => exact fun hi h => runGang_ok hi rfl (by simp only [h])
  case overflow => exact fun hi h => runGang_trap hi rfl (if_pos h)
  case elseUnderflow => exact fun hi h => runGang_trap hi rfl (by simp only [h])
  case endUnderflow => exact fun hi h => runGang_trap hi rfl (by simp only [h])
  case flipped => cases l.els <;> simp [Gang.top]
  case empty =>
    intro h hs
    simp only [Gang.top, hs]

/- Register counts -/

/-- An instruction that issues and has to wait. -/
theorem runGang_wait {i : Instr} {s t : State} {g h : Gang} {w : Wait} {bad : State → Gang → Bool} {body : State → Gang → LaneMask → Res}
    (hi : Issues i s g) (hb : bad s g = false) (hr : body s g (g.active (shape i)) = .wait t h w) : runGang i s bad body = .next (t.waits h w) := by
  rw [runGang_eq hi hb, hr]
  rfl

theorem regCountBad_eq_true_iff {t : Nat} : regCountBad t = true ↔ t < 8 ∨ 256 < t ∨ t % 8 ≠ 0 := by simp [regCountBad, or_assoc]

theorem not_regCountBad {t : Nat} (hlow : 8 ≤ t) (hhigh : t ≤ 256) (hmod : t % 8 = 0) : ¬ regCountBad t = true := by
  rw [regCountBad_eq_true_iff]
  omega

theorem Gang.shrink_n (g : Gang) (t : Nat) : (g.shrink t).n = min t g.n := by
  unfold Gang.shrink
  split
  · next h => exact (Nat.min_eq_left h.le).symm
  · next h => exact (Nat.min_eq_right (Nat.not_lt.mp h)).symm

/-- Settles O9, by the branches of RGROW's and RSHR's bodies. -/
theorem registerCountRows : Obligations.RegisterCountRows := by
  refine ⟨fun s g h d a => ⟨?sleep, ?rshr, ?rgrow⟩, fun s g h d a => ⟨?rgrowStops, ?rshrStops⟩⟩
  case sleep => exact fun hi => runGang_ok hi rfl rfl
  case rshr =>
    intro hi hh t hlow hhigh hmod
    refine runGang_ok hi hh ((if_neg (not_regCountBad hlow hhigh hmod)).trans ?_)
    rw [← Gang.shrink_n]
  case rgrow =>
    intro hi hh t hlow hhigh hmod hfit
    refine runGang_ok hi hh ((if_neg (not_regCountBad hlow hhigh hmod)).trans ?_)
    by_cases hle : t ≤ g.n
    · rw [Nat.max_eq_right hle]
      exact if_pos hle
    · obtain ⟨hpane, hgrow⟩ := hfit.resolve_left hle
      rw [Nat.max_eq_left (Nat.le_of_not_le hle)]
      exact (if_neg hle).trans ((if_neg (Nat.not_lt.mpr hpane)).trans (if_pos hgrow))
  case rgrowStops =>
    intro hi hh i t
    refine ⟨fun hbad => ?_, fun hlow hhigh hmod hmore hpane => ?_, fun hlow hhigh hmod hmore hpane hgrow => ?_⟩
    · exact runGang_trap hi hh (if_pos (regCountBad_eq_true_iff.mpr hbad))
    · exact runGang_trap hi hh ((if_neg (not_regCountBad hlow hhigh hmod)).trans ((if_neg (Nat.not_le.mpr hmore)).trans (if_pos hpane)))
    · exact runGang_wait hi hh ((if_neg (not_regCountBad hlow hhigh hmod)).trans ((if_neg (Nat.not_le.mpr hmore)).trans
        ((if_neg (Nat.not_lt.mpr hpane)).trans (if_neg (Bool.eq_false_iff.mp hgrow)))))
  case rshrStops =>
    intro hi hh i t hbad
    exact runGang_trap hi hh (if_pos (regCountBad_eq_true_iff.mpr hbad))

end Sys2Proof.Machine
end

section
/-! PROOFS. Register grants, deadlock parking and gang restoration (R76, R123 to R125). -/
namespace Sys2Proof.Machine

/-- The eldest of some gangs is one of them. -/
theorem mem_of_eldest {f : Gang → Nat} {l : List Gang} {g : Gang} (h : eldest f l = some g) : g ∈ l := List.mem_of_find?_eq_some h

theorem mem_coreGangs {s : State} {core : Nat} {g : Gang} : g ∈ s.coreGangs core ↔ g ∈ s.gangList ∧ g.core = core ∧ g.slot ≠ Config.handlerSlot := by
  simp [State.coreGangs, Config.handlerSlot]

theorem Gang.isHandler_eq_false {g : Gang} (h : g.slot ≠ Config.handlerSlot) : g.isHandler = false := by simp [Gang.isHandler, h]

/- Grants (R123, R124) -/

theorem Gang.growTo_of_waiting {g : Gang} {t : Nat} (h : g.stat = .waiting (.grow t)) : g.growTo = some t := by simp only [Gang.growTo, h]

/-- A gang's own request is for itself. -/
theorem State.growTarget_of_gang (s : State) {g : Gang} (h : g.isHandler = false) : s.growTarget g = some g := by simp [State.growTarget, h]

theorem State.canGrow_of_eldest {s : State} {g : Gang} {t : Nat} (hold : ∀ o ∈ s.growers g.core, g.age ≤ o.age)
    (hfit : blocksFor t (s.shadowed g.launch) - blocksFor g.n (s.shadowed g.launch) ≤ s.freeBlocks g.core) : s.canGrow g t = true := by
  simpa [State.canGrow, hfit] using hold

/-- The oldest request, a gang's own, is granted when it can be. -/
theorem exec_registerGrant {s : State} {core : BitVec 9} {g : Gang} {t : Nat} (hs : s.fatal = none)
    (he : eldest (·.age) (s.growers core.toNat) = some g) (hh : g.isHandler = false) (hw : g.stat = .waiting (.grow t)) (hg : s.canGrow g t = true) :
    exec (.registerGrant core) s = .next ((s.putGang { g with n := max g.n t }).putGang { g with n := max g.n t, stat := .ready }) := by
  show execRegisterGrant core s = _
  refine (alive_none hs).trans ?_
  simp only [he, Gang.growTo_of_waiting hw, s.growTarget_of_gang hh, hg, if_true]
  rw [State.modGang_some _ (s.gang_putGang { g with n := max g.n t })]
  rfl

/- The deadlock rule (R125) -/

theorem State.stuckOn_eq_some {s : State} {core : Nat} {old : Gang} (he : eldest (·.age) (s.growers core) = some old) (hh : old.isHandler = false)
    (hall : (s.unparked core).all Gang.deadlockWait = true) (hg : s.canGrow old (old.growTo.getD 0) = false) : s.stuckOn core = some old := by
  simp [State.stuckOn, he, hh, hall, hg]

/-- The youngest of some gangs, the first of equals. -/
theorem find?_youngest {l r : List Gang} {g : Gang} (hl : ∀ o ∈ l, o.age < g.age) (hr : ∀ o ∈ r, o.age ≤ g.age) :
    (l ++ g :: r).find? (fun x => (l ++ g :: r).all (fun o => decide (o.age ≤ x.age))) = some g := by
  refine List.find?_eq_some_iff_append.mpr ⟨?_, l, r, rfl, fun o ho => ?_⟩
  · simp only [List.all_append, List.all_cons, Bool.and_eq_true, List.all_eq_true, decide_eq_true_eq, le_refl, true_and]
    exact ⟨fun o ho => (hl o ho).le, hr⟩
  · simpa using .inr (.inl (hl o ho))

/-- What a park without records comes to: it waits for the gang's writes at peers, or the context is read and the gang is parked (R107, R307). -/
theorem State.parkGang_eq (s : State) {g : Gang} (p : Park) (hh : g.isHandler = false) :
    s.parkGang g p g.replay [] =
      (let b : Gang := { g.endPend.noTokens with arrived := if p = .fetch then g.arrived else [], granted := false }
       if s.farWriteOf g then s.waits b (.park p [])
       else
         let y := s.readContext b
         y.1.putGang { y.2 with stat := .parked p, parkedAt := y.1.cyc y.2.core }) := by
  rw [State.parkGang, hh]
  rfl

/- Restoration (R76) -/

theorem State.restorable_iff (s : State) (g : Gang) : s.restorable g = true ↔
    (g.stat = .restoring ∨ ((∃ p, g.stat = .parked (.deadlock p)) ∧ s.stuckOn g.core = none ∧ s.canGrant g.core = false)) := by
  unfold State.restorable
  split <;> simp_all

/-- Settles O44, a clause for each row and for what the rows go by. -/
theorem registerEngineRows : Obligations.RegisterEngineRows := by
  intro s core g hs
  refine ⟨?grant, ?park, fun h => readContext_whole g h, fun h => s.restorable_iff h, fun h => decide_eq_true_iff, ?restore, ?none⟩
  case grant =>
    intro t he hh hw hold hfit _
    refine ⟨_, exec_registerGrant hs he hh hw (State.canGrow_of_eldest hold hfit), State.gang_putGang _ _, rfl, fun c k hk => ?_⟩
    exact (State.gang_putGang_of_ne _ { g with n := max g.n t, stat := .ready } hk).trans (s.gang_putGang_of_ne { g with n := max g.n t } hk)
  case park =>
    intro old l r he hh hall hg hy hl hr c p b
    have hmem : g ∈ s.coreGangs core.toNat := by
      have : g ∈ ((s.unparked core.toNat).filter (fun x => x.slot != old.slot)).reverse := by simp [hy]
      exact List.mem_of_mem_filter (List.mem_of_mem_filter (List.mem_reverse.mp this))
    have hpark : exec (.registerDeadlockPark core) s = .next (c.parkGang g p g.replay []) := by
      show execRegisterDeadlockPark core s = _
      refine (alive_none hs).trans ?_
      simp only [State.stuckOn_eq_some he hh hall hg, hy, find?_youngest hl hr]
      rfl
    rw [hpark, c.parkGang_eq p (Gang.isHandler_eq_false (mem_coreGangs.mp hmem).2.2)]
    exact ⟨fun hf => congrArg _ (if_pos hf), fun hf => congrArg _ (if_neg (Bool.eq_false_iff.mp hf))⟩
  case restore =>
    intro he
    refine ⟨fun hst => ?_, fun p c hst hc => ?_⟩ <;> show execGangRestore core s = _ <;> refine (alive_none hs).trans ?_
    · rcases hst with hst | hst <;> simp only [he, hst] <;> rfl
    · simp only [he, hst, hc, apply_ite s.putGang]
      rfl
  case none =>
    intro hnone
    show execGangRestore core s = _
    refine (alive_none hs).trans ?_
    rw [hnone]
    rfl

end Sys2Proof.Machine
end

section
/-! PROOFS. Wake-ups (R101, R280, R282), comparisons of a shadow with its leading gang (R357, R358), and what a cycle of a core picks (R13, R331, R332). -/
namespace Sys2Proof.Machine

/- Wake-ups -/

theorem readLatch_whole {s : State} (core crew ofs : Nat) (h : s.poolsWhole = true) : s.readLatch core crew ofs = s := by simp [State.readLatch, h]

/-- A sleeper wakes when its cycle has come. -/
theorem exec_sleepWake {s : State} {core : BitVec 9} {slot : BitVec 6} {g : Gang} {till : Nat} (hs : s.fatal = none)
    (hg : s.gang? core.toNat slot.toNat = some g) (hst : g.stat = .sleeping till) :
    exec (.sleepWake core slot) s = .next (if till ≤ s.cyc g.core then s.putGang (s.anew g) else s) := by
  show execSleepWake core slot s = _
  refine (alive_none hs).trans ?_
  simp only [hg, hst]

theorem exec_pwaitExpiry {s : State} {core : BitVec 9} {slot : BitVec 6} {g : Gang} {till : Nat} (hs : s.fatal = none)
    (hg : s.gang? core.toNat slot.toNat = some g) (hst : g.stat = .waiting (.promise till)) :
    exec (.pwaitExpiry core slot) s = .next (if till ≤ s.cyc g.core then s.putGang (s.anew g) else s) := by
  show execPwaitExpiry core slot s = _
  refine (alive_none hs).trans ?_
  simp only [hg, hst]

/-- A polling LWAIT whose latch is empty or has moved on goes on, when it looks. -/
theorem exec_latchPoll_over {s : State} {core : BitVec 9} {slot : BitVec 6} {g : Gang} {ofs phase : Nat} (hs : s.fatal = none)
    (hg : s.gang? core.toNat slot.toNat = some g) (hst : g.stat = .waiting (.latchPoll ofs phase)) (hage : g.parkedAt < s.cyc g.core)
    (hlook : (s.cyc g.core - g.parkedAt) % 64 = 0)
    (hover : latchValid ((s.readLatch g.core g.crew ofs).latch g.crew ofs) = false ∨ latchPhase ((s.readLatch g.core g.crew ofs).latch g.crew ofs) ≠ phase) :
    exec (.latchPoll core slot) s = .next ((s.readLatch g.core g.crew ofs).putGang ((s.readLatch g.core g.crew ofs).anew g)) := by
  show execLatchPoll core slot s = _
  refine (alive_none hs).trans ?_
  have hdue : ¬ (s.cyc g.core - g.parkedAt = 0 ∨ (s.cyc g.core - g.parkedAt) % 64 ≠ 0) := by omega
  have hgo : (!latchValid ((s.readLatch g.core g.crew ofs).latch g.crew ofs) || latchPhase ((s.readLatch g.core g.crew ofs).latch g.crew ofs) != phase) = true := by
    rcases hover with h | h <;> simp [h]
  simp only [hg, hst, if_neg hdue, if_pos hgo]

/-- Between its looks it stays as it is. -/
theorem exec_latchPoll_between {s : State} {core : BitVec 9} {slot : BitVec 6} {g : Gang} {ofs phase : Nat} (hs : s.fatal = none)
    (hg : s.gang? core.toNat slot.toNat = some g) (hst : g.stat = .waiting (.latchPoll ofs phase)) (hlook : (s.cyc g.core - g.parkedAt) % 64 ≠ 0) :
    exec (.latchPoll core slot) s = .next s := by
  show execLatchPoll core slot s = _
  refine (alive_none hs).trans ?_
  simp only [hg, hst, if_pos (Or.inr hlook : s.cyc g.core - g.parkedAt = 0 ∨ (s.cyc g.core - g.parkedAt) % 64 ≠ 0)]

/- Comparisons -/

section
variable {s : State} {core : BitVec 9} {slot : BitVec 6} {g : Gang} (hs : s.fatal = none) (hg : s.gang? core.toNat slot.toNat = some g)
include hs hg

/-- A shadow that is behind is waited for. -/
theorem exec_shadowCompare_behind (hb : g.caughtUp = false) (same : Bool) : exec (.shadowCompare core slot same) s = .next s := by
  show execShadowCompare core slot same s = _
  refine (alive_none hs).trans ?_
  simp [hg, hb]

variable (hst : g.stat = .waiting .shadow) (hc : g.caughtUp = true)
include hst hc

theorem exec_shadowCompare_agrees (hm : g.mismatch = false) (hsp : g.shadowSpoiled = false)
    (ha : ∀ i x, s.atGang g = .instr i → g.shadow = some x → g.agrees x (shape i) = true) :
    exec (.shadowCompare core slot true) s = .next (s.putGang { g with stat := .ready, checked := true }) := by
  show execShadowCompare core slot true s = _
  refine (alive_none hs).trans ?_
  have hready : (decide (g.stat ≠ .waiting .shadow) || !g.caughtUp) = false := by simp [hst, hc]
  simp only [hg, hready, Bool.false_eq_true, if_false]
  refine congrArg Host.Outcome.next (if_pos ?_)
  rw [hm, hsp]
  split
  · next i hi =>
    cases hx : g.shadow with
    | none => rfl
    | some x => exact ha i x hi hx
  · rfl

/-- A mismatch goes as the errors of the gang do: its crew is aborted, or the gang stops at the instruction found. -/
theorem exec_shadowCompare_differs {same : Bool} (hd : same = false ∨ g.mismatch = true ∨ g.shadowSpoiled = true) :
    (s.errsAsFree g = false → exec (.shadowCompare core slot same) s = .next (s.errorAbort g.crew)) ∧
    (∀ i, s.errsAsFree g = true → g.spoiledAt? s = none → s.atGang g = .instr i →
      exec (.shadowCompare core slot same) s =
        .next (s.takeStop { g with replay := none } 33 0 (wordsInfo i) (g.active (shape i)) [] g.pc (g.next (shape i)))) ∧
    (∀ i act pc, s.errsAsFree g = true → g.spoiledAt? s = some (i, act, pc) →
      exec (.shadowCompare core slot same) s = .next (s.takeStop g 33 0 (wordsInfo i) act [] pc g.pc)) := by
  have hready : (decide (g.stat ≠ .waiting .shadow) || !g.caughtUp) = false := by simp [hst, hc]
  have hbad : (same && !g.mismatch && !g.shadowSpoiled) = false := by rcases hd with h | h | h <;> simp [h]
  refine ⟨fun hf => ?_, fun i hf hn hi => ?_, fun i act pc hf hsome => ?_⟩ <;> show execShadowCompare core slot same s = _ <;>
    refine (alive_none hs).trans ?_
  · simp only [hg, hready, hbad, hf, Bool.false_eq_true, if_false, Bool.false_and, Bool.not_false, if_true]
  · simp only [hg, hready, hbad, hf, hn, hi, Bool.false_eq_true, if_false, Bool.false_and, Bool.not_true]
  · simp only [hg, hready, hbad, hf, hsome, Bool.false_eq_true, if_false, Bool.false_and, Bool.not_true]
end

/- A cycle of a core -/

@[simp] theorem State.shutter_cores (s : State) (core : Nat) : (s.shutter core).cores = s.cores := rfl
@[simp] theorem State.countWaits_cores (s : State) (core : Nat) : (s.countWaits core).cores = s.cores := by
  unfold State.countWaits
  rw [State.countAt_cores, State.countAt_cores]

/-- `$cyc` advances by one, where no recovery ends (R111, R359). -/
theorem State.tick_cyc {s : State} {core : Nat} (h : s.recovering.contains (core / 64) = false) : (s.tick core).cyc core = s.cyc core + 1 := by
  have hend : (s.modCore core (fun k => { k with cyc := k.cyc + 1 })).endRecovery (core / 64) = s.modCore core (fun k => { k with cyc := k.cyc + 1 }) := by
    unfold State.endRecovery
    rw [State.modCore_recovering, h]
    rfl
  have hcores : (s.tick core).cores = (s.modCore core (fun k => { k with cyc := k.cyc + 1 })).cores := by
    unfold State.tick
    rw [State.countWaits_cores, State.shutter_cores, hend]
  unfold State.cyc State.core
  rw [hcores]
  exact congrArg Core.cyc (s.core_modCore core _)

/- The selector -/

theorem mem_of_chooseGang {cyc : Nat} {l : List Gang} {g : Gang} (h : chooseGang cyc l = some g) : g ∈ l := by
  unfold chooseGang at h
  dsimp only at h
  split at h
  · exact List.mem_of_find?_eq_some h
  · exact List.mem_of_mem_filter (List.mem_of_find?_eq_some h)

theorem choosePorts_length (cyc : Nat) (handler : Option Gang) (l : List (Gang × List Nat)) (hports ports : List Nat) {out : List Gang}
    (h : out.length ≤ 4) : (choosePorts cyc handler l hports ports out).length ≤ 4 := by
  induction ports generalizing out with
  | nil => exact h
  | cons p r ih =>
    unfold choosePorts
    dsimp only
    split
    · refine ih ?_
      split
      · simpa using ‹out.length < 4›
      · exact h
    · exact ih h

/-- A gang that is picked is the handler's run, or one of those offered, and ready for a port. -/
theorem mem_choosePorts {cyc : Nat} {handler : Option Gang} {l : List (Gang × List Nat)} {hports ports : List Nat} {out : List Gang} {g : Gang}
    (h : g ∈ choosePorts cyc handler l hports ports out) : g ∈ out ∨ (handler = some g ∧ hports ≠ []) ∨ ∃ x ∈ l, x.1 = g ∧ x.2 ≠ [] := by
  induction ports generalizing out with
  | nil => exact .inl h
  | cons p r ih =>
    unfold choosePorts at h
    dsimp only at h
    split at h
    · next o ho =>
      have hpick : (handler = some o ∧ hports ≠ []) ∨ ∃ x ∈ l, x.1 = o ∧ x.2 ≠ [] := by
        have hfree {f : Gang × List Nat → Bool}
            (hfree : chooseGang cyc ((l.filter (fun x => x.2.contains p && f x)).map (·.1)) = some o) : ∃ x ∈ l, x.1 = o ∧ x.2 ≠ [] := by
          obtain ⟨x, hx, hxo⟩ := List.mem_map.mp (mem_of_chooseGang hfree)
          obtain ⟨hxl, hport⟩ := List.mem_filter.mp hx
          refine ⟨x, hxl, hxo, fun hnil => ?_⟩
          simp [hnil] at hport
        split at ho
        · next h' =>
          split at ho
          · next hp =>
            refine .inl ⟨ho, fun hnil => ?_⟩
            simp [hnil] at hp
          · exact .inr (hfree ho)
        · exact .inr (hfree ho)
      rcases ih h with hout | hrest
      · split at hout
        · rcases List.mem_append.mp hout with hout | hout
          · exact .inl hout
          · exact .inr (List.mem_singleton.mp hout ▸ hpick)
        · exact .inl hout
      · exact .inr hrest
    · exact ih h

theorem State.mayNow_of_readyPorts {s : State} {g : Gang} (h : s.readyPorts g ≠ []) : s.mayIssue g = true ∧ g.notBefore ≤ s.cyc g.core := by
  have hnow : s.mayNow g = true := by
    by_contra hn
    exact h (by simp [State.readyPorts, hn])
  simpa [State.mayNow] using hnow


/-- A gang that a cycle picks is one of the core's, or its handler's run, and its turn has come. -/
theorem State.mem_selectCore {s : State} {core slot : Nat} (h : Agent.gang core slot ∈ s.selectCore core) :
    ∃ g, g.slot = slot ∧ (g ∈ s.coreGangs core ∨ s.gang? core 32 = some g) ∧ s.mayIssue g = true ∧ g.notBefore ≤ s.cyc g.core := by
  unfold State.selectCore at h
  split at h
  · cases h
  · simp only [List.mem_append, List.mem_map, Agent.gang.injEq, true_and, reduceCtorEq, and_false, exists_false, or_false] at h
    obtain ⟨g, hg, hslot⟩ := h
    refine ⟨g, hslot, ?_⟩
    rcases mem_choosePorts hg with hnil | ⟨hrun, hports⟩ | ⟨x, hx, rfl, hports⟩
    · cases hnil
    · refine ⟨.inr hrun, mayNow_of_readyPorts ?_⟩
      simpa [hrun] using hports
    · obtain ⟨h', hmem, rfl⟩ := List.mem_map.mp hx
      exact ⟨.inl hmem, mayNow_of_readyPorts hports⟩

/-- Of the agents that a cycle picks, at most four are gangs. -/
theorem State.selectCore_gangs (s : State) (core : Nat) :
    ((s.selectCore core).filter (fun a => match a with | .gang _ _ => true | _ => false)).length ≤ 4 := by
  unfold State.selectCore
  split
  · exact Nat.zero_le 4
  · simp [List.filter_map, Function.comp_def, choosePorts_length]

/-- At most one is a copy context. -/
theorem State.selectCore_copies (s : State) (core : Nat) :
    ((s.selectCore core).filter (fun a => match a with | .copy _ _ => true | _ => false)).length ≤ 1 := by
  unfold State.selectCore
  split
  · exact Nat.zero_le 1
  · simp [List.filter_map, Function.comp_def]

/-- Settles O48, a clause for each wake-up and comparison, and for a cycle of a core what the selector offers and picks. -/
theorem wakeAndSelectRows : Obligations.WakeAndSelectRows := by
  refine ⟨fun s core slot g hs hg => ⟨?sleeper, ?promise, ?poll, ?shadow⟩, fun s core hs => ⟨?cycle, State.tick_cyc, ?recovery, ?gangs, ?copies, ?picked⟩⟩
  case sleeper =>
    intro till hst
    rw [exec_sleepWake hs hg hst]
    exact ⟨fun h => congrArg _ (if_pos h), fun h => congrArg _ (if_neg (Nat.not_le.mpr h))⟩
  case promise =>
    intro till hst
    rw [exec_pwaitExpiry hs hg hst]
    exact ⟨fun h => congrArg _ (if_pos h), fun h => congrArg _ (if_neg (Nat.not_le.mpr h))⟩
  case poll =>
    exact fun o p hst => ⟨fun hage hlook => ⟨exec_latchPoll_over hs hg hst hage hlook, readLatch_whole _ _ _⟩, exec_latchPoll_between hs hg hst⟩
  case shadow =>
    exact fun hst => ⟨exec_shadowCompare_behind hs hg, exec_shadowCompare_agrees hs hg hst, fun same hc hd => exec_shadowCompare_differs hs hg hst hc hd⟩
  case cycle =>
    show execIssueSelect core s = _
    exact alive_none hs
  case recovery => exact fun h => if_pos h
  case gangs => exact State.selectCore_gangs _ _
  case copies => exact State.selectCore_copies _ _
  case picked => exact fun slot h => State.mem_selectCore h

end Sys2Proof.Machine
end

section
/-! PROOFS. The refutation of the buffered stores' statement (O25): a lane of ATM that is out of bounds keeps the ORD bit of the lane before it. -/
namespace Sys2Proof.Machine

/-- A gang of two lanes: in `v4` lane 0 has an index of the record of words in `b2` that is in bounds, and lane 1 the first one that is not. -/
def twoLanes : Gang :=
  (({ loadedGang with base := 3 }.vSet 4 0 1).vSet 4 1 8).bSet 2 (BitVec.ofNat 128 (4 * 2 ^ 96 + 8 * 2 ^ 64 + 2 * 2 ^ 57))

/-- The gang's PHASED crew, with the frame mapped at virtual address 0 on a page with ORD = 1. -/
def ordPhased : State :=
  { ((((State.reset.putLaunch 0 (loadedLaunch 1)).putCrew 0 loadedCrew).putCore 0 { part := some 0x00010102 }).putGang twoLanes) with
    cur := some (.gang 0 0), readyBits := BitVec.allOnes 64, image := true
    tlb := [{ loadedLeaf with leaf := { loadedLeaf.leaf with ord := true } }] }

def plainVH : VH := { stall := 0, guard := 0, gneg := false, lit := none }
def plainMH : MH := { ordq := .none, scope := .gang, strict := false, bm := 0, iofs := 0 }
def casAtIndex : Instr := .atm plainVH plainMH .cas .dflt 8 2 (.v 4) 6 7

/-- Lane 0 reaches word 1 of the frame. -/
def lane0Place (j : Nat) : Option (Nat × Nat) := if j = 0 then some (loadedFrame * 4096 + 4, 4) else none

/-- The ORD bits of the effects of the gang's crew after an outcome. -/
def effectOrds : Host.Outcome State Fault Refusal → List Bool
  | .next t => ((t.crew? 0).map (fun w => w.effects.map (·.ord))).getD []
  | _ => []

theorem casAtIndex_access : LaneAccess casAtIndex ordPhased twoLanes 2 plainVH plainMH (.v 4) { size := 4, write := true, noVer := true } .st true [6, 7]
    lane0Place := laneAccess_of (by decide +kernel)

/-- The model gives the space of lane 1 the ORD bit of lane 0. -/
theorem effectOrds_casAtIndex : effectOrds (exec casAtIndex ordPhased) = [true, true] := by decide +kernel

theorem effectOrds_completes {s t : State} {i : Instr} {h : Gang} {w : Crew} {l : List Eff} (he : s.Enters t twoLanes w l) :
    effectOrds (.next (s.completes i twoLanes t h)) = (w.effects ++ l).map (·.ord) := by
  obtain ⟨-, -, -, w', hw, hl⟩ := he
  have hc : (s.completes i twoLanes t h).crew? 0 = some w' := hw
  simp [effectOrds, hc, hl]

/-- Refutes O25: the statement's effect for an ATM lane that is out of bounds has no ORD bit, and the model enters its space with the ORD bit that the
lane before it has met. -/
theorem not_bufferedStoresComplete : ¬ Obligations.BufferedStoresComplete := by
  intro hall
  obtain ⟨-, hatm, -⟩ := hall ordPhased twoLanes plainVH { stall := 0, lit := none } plainMH .dflt .cas .dflt false 8 0 2 (.v 4) .lit .lit 6 7 none
    lane0Place 0 0 loadedCrew (by decide +kernel) (by decide +kernel)
  obtain ⟨t, ht, he⟩ := hatm casAtIndex_access (by decide +kernel)
  have hords := effectOrds_casAtIndex
  rw [show exec casAtIndex ordPhased = _ from ht, effectOrds_completes he] at hords
  exact absurd hords (by decide +kernel)

end Sys2Proof.Machine
end

section
/-! PROOFS. Admission of crews: what fits (R74), whose turn it is (R329), and where the crews of a band go (R12, R74). -/
namespace Sys2Proof.Machine

theorem State.fits_iff (s : State) (k : Nat) (p : Packet) (blocks core : Nat) : s.fits k p blocks core = true ↔
    ((s.core core).closed = false ∧ (∀ l, s.launch? k = some l → core ∉ l.closed) ∧ s.readyBits.getLsbD (13 + core / 64) = true ∧
      s.restoreWaits core = false ∧ (∀ w, (s.core core).part = some w → w = p.part) ∧ p.slots ≤ (s.freeSlots core).length ∧
      s.usedBlocks core + blocks ≤ 32 * p.reg ∧ s.usedBytes core + p.bytes ≤ 65536 * p.scr ∧ (p.acc = 0 ∨ s.paneHeld core = false) ∧
      ((s.lease? core k).isSome = true ∨ s.leasedSlots core + p.tlease ≤ 512) ∧ (p.rns = true → chanMode (s.core core).en ≠ 3)) := by
  have hopen : core ∉ ((s.launch? k).map (·.closed)).getD [] ↔ ∀ l, s.launch? k = some l → core ∉ l.closed := by
    cases s.launch? k <;> simp
  have hmesh : (!p.rns || chanMode (s.core core).en != 3) = true ↔ (p.rns = true → chanMode (s.core core).en ≠ 3) := by
    cases p.rns <;> simp
  have hlease : decide (s.leasedSlots core + p.tlease ≤ Config.transomSlots) = true ↔ s.leasedSlots core + p.tlease ≤ 512 := decide_eq_true_iff
  cases hpart : (s.core core).part <;>
    simp [State.fits, hpart, hopen, hmesh, hlease, and_assoc]

theorem firstSome_none {α β : Type} {f : α → Option β} {l : List α} (h : ∀ x ∈ l, f x = none) : firstSome f l = none := by
  induction l with
  | nil => rfl
  | cons x r ih =>
    simp only [List.forall_mem_cons] at h
    simp [firstSome, h.1, ih h.2]

/-- The first element that gives something, behind others that give nothing. -/
theorem firstSome_append_cons {α β : Type} {f : α → Option β} {a b : List α} {x : α} {y : β} (ha : ∀ z ∈ a, f z = none) (hx : f x = some y) :
    firstSome f (a ++ x :: b) = some y := by
  induction a with
  | nil => simp [firstSome, hx]
  | cons z a ih =>
    simp only [List.forall_mem_cons] at ha
    simp [firstSome, ha.1, ih ha.2]

theorem firstSome_range {β : Type} {f : Nat → Option β} {n c : Nat} {y : β} (hc : c < n) (hbefore : ∀ i < c, f i = none) (hy : f c = some y) :
    firstSome f (List.range n) = some y := by
  have hsplit : List.range n = List.range c ++ c :: (List.range (n - (c + 1))).map (c + 1 + ·) := by
    rw [show n = c + 1 + (n - (c + 1)) by omega, List.range_add, List.range_succ]
    simp
  rw [hsplit]
  exact firstSome_append_cons (fun i hi => hbefore i (List.mem_range.mp hi)) hy

theorem mem_insertLaunch {x z : Nat × Launch} {l : List (Nat × Launch)} (h : z ∈ insertLaunch x l) : z = x ∨ z ∈ l := by
  induction l with
  | nil => exact .inl (by simpa [insertLaunch] using h)
  | cons y r ih =>
    unfold insertLaunch at h
    split at h
    · simpa using h
    · rcases List.mem_cons.mp h with rfl | h
      · simp
      · rcases ih h with h | h <;> simp [h]

theorem mem_foldl_insertLaunch {z : Nat × Launch} (l acc : List (Nat × Launch)) (h : z ∈ l.foldl (fun l x => insertLaunch x l) acc) : z ∈ l ∨ z ∈ acc := by
  induction l generalizing acc with
  | nil => exact .inr h
  | cons x r ih =>
    rcases ih _ h with h | h
    · simp [h]
    · rcases mem_insertLaunch h with rfl | h <;> simp [*]

/-- Every launch before this one in a list has no greater PRIO, and gives nothing. -/
def Leads {β : Type} (f : Nat × Launch → Option β) (x : Nat × Launch) (l : List (Nat × Launch)) : Prop :=
  ∃ pre post, l = pre ++ x :: post ∧ ∀ z ∈ pre, z.2.pkt.prio ≤ x.2.pkt.prio ∧ f z = none

section
variable {β : Type} {f : Nat × Launch → Option β} {x y : Nat × Launch} {l a b : List (Nat × Launch)}

theorem Leads.firstSome {t : β} (h : Leads f x l) (ht : f x = some t) : firstSome f l = some t := by
  obtain ⟨pre, post, rfl, hpre⟩ := h
  exact firstSome_append_cons (fun z hz => (hpre z hz).2) ht

theorem Leads.cons (h : Leads f x l) (hp : y.2.pkt.prio ≤ x.2.pkt.prio) (hy : f y = none) : Leads f x (y :: l) := by
  obtain ⟨pre, post, rfl, hpre⟩ := h
  exact ⟨y :: pre, post, rfl, by simpa [hp, hy] using hpre⟩

/-- A launch goes in behind those of its PRIO. -/
theorem leads_insert_self (h : ∀ z ∈ l, x.2.pkt.prio < z.2.pkt.prio ∨ f z = none) : Leads f x (insertLaunch x l) := by
  induction l with
  | nil => exact ⟨[], [], rfl, by simp⟩
  | cons z r ih =>
    simp only [List.forall_mem_cons] at h
    unfold insertLaunch
    split
    · exact ⟨[], z :: r, rfl, by simp⟩
    · next hz => exact (ih h.2).cons (by omega) (h.1.resolve_left hz)

theorem Leads.insert (h : Leads f x l) (hy : x.2.pkt.prio ≤ y.2.pkt.prio ∨ f y = none) : Leads f x (insertLaunch y l) := by
  obtain ⟨pre, post, rfl, hpre⟩ := h
  induction pre with
  | nil =>
    rw [List.nil_append]
    unfold insertLaunch
    split
    · next hlt => exact ⟨[y], post, rfl, by simpa using ⟨by omega, hy.resolve_left (by omega)⟩⟩
    · exact ⟨[], _, rfl, by simp⟩
  | cons z pre ih =>
    simp only [List.forall_mem_cons] at hpre
    obtain ⟨hz, hpre⟩ := hpre
    rw [List.cons_append]
    unfold insertLaunch
    split
    · next hlt => exact Leads.cons ⟨z :: pre, post, rfl, by simp only [List.forall_mem_cons]; exact ⟨hz, hpre⟩⟩ (by omega) (hy.resolve_left (by omega))
    · exact (ih hpre).cons hz.1 hz.2

theorem Leads.foldl_insert (h : Leads f x l) (hb : ∀ z ∈ b, x.2.pkt.prio ≤ z.2.pkt.prio ∨ f z = none) :
    Leads f x (b.foldl (fun l x => insertLaunch x l) l) := by
  induction b generalizing l with
  | nil => exact h
  | cons z b ih =>
    simp only [List.forall_mem_cons] at hb
    exact ih (h.insert hb.1) hb.2

/-- R329: the order of PRIO, then of take-up, reaches a launch before those that it goes before. -/
theorem byPriority_leads {s : State} (hl : s.launches = a ++ x :: b) (ha : ∀ z ∈ a, x.2.pkt.prio < z.2.pkt.prio ∨ f z = none)
    (hb : ∀ z ∈ b, x.2.pkt.prio ≤ z.2.pkt.prio ∨ f z = none) : Leads f x s.byPriority := by
  unfold State.byPriority
  rw [hl, List.foldl_append, List.foldl_cons]
  exact (leads_insert_self (fun z hz => ha z ((mem_foldl_insertLaunch a [] hz).resolve_right (by simp)))).foldl_insert hb

/-- What a launch admits in an admission step. -/
def State.admits (s : State) (x : Nat × Launch) : Option State := if s.shutOut x.1 x.2 then none else s.admitNext x.1

theorem State.admits_none {s : State} {x : Nat × Launch} (h : s.shutOut x.1 x.2 = true ∨ s.admitNext x.1 = none) : s.admits x = none := by
  unfold State.admits
  rcases h with h | h <;> simp [h]

theorem State.admitStep_eq {s : State} (h : s.canRestore = false) : s.admitStep = (Machine.firstSome s.admits s.byPriority).getD s := by
  unfold State.admitStep
  rw [h]
  rfl

theorem admitStep_admits {s t : State} {k : Nat} {l : Launch} (hr : s.canRestore = false) (hl : s.launches = a ++ (k, l) :: b)
    (hopen : s.shutOut k l = false) (ha : ∀ x ∈ a, l.pkt.prio < x.2.pkt.prio ∨ s.shutOut x.1 x.2 = true ∨ s.admitNext x.1 = none)
    (hb : ∀ x ∈ b, l.pkt.prio ≤ x.2.pkt.prio ∨ s.shutOut x.1 x.2 = true ∨ s.admitNext x.1 = none) (ht : s.admitNext k = some t) : s.admitStep = t := by
  have hfirst : Machine.firstSome s.admits s.byPriority = some t :=
    (byPriority_leads hl (fun x hx => (ha x hx).imp_right State.admits_none) (fun x hx => (hb x hx).imp_right State.admits_none)).firstSome
      (by simp [State.admits, hopen, ht])
  rw [State.admitStep_eq hr, hfirst, Option.getD_some]

theorem admitStep_shutOut {s : State} (h : ∀ x ∈ s.launches, s.shutOut x.1 x.2 = true) : s.admitStep = s := by
  cases hr : s.canRestore
  case true => simp [State.admitStep, hr]
  case false =>
    have hnone : Machine.firstSome s.admits s.byPriority = none :=
      firstSome_none (fun x hx => State.admits_none (.inl (h x ((mem_foldl_insertLaunch s.launches [] hx).resolve_right (by simp)))))
    rw [State.admitStep_eq hr, hnone, Option.getD_none]

end

/- Placing a band (R74, R90) -/

/-- What placing crews leaves as it was. -/
structure Placed (s t : State) : Prop where
  mem : t.mem = s.mem
  launches : t.launches = s.launches
  clock : t.clock = s.clock

theorem Placed.refl (s : State) : Placed s s := ⟨rfl, rfl, rfl⟩
theorem Placed.trans {s t u : State} (h : Placed s t) (k : Placed t u) : Placed s u :=
  ⟨k.mem.trans h.mem, k.launches.trans h.launches, k.clock.trans h.clock⟩

theorem Placed.put {s t : State} {key : Nat} {c : Crew} (h : Placed s t) : Placed s (t.putCrew key c) := ⟨h.mem, h.launches, h.clock⟩
theorem Placed.launch {s t : State} (h : Placed s t) (k : Nat) : t.launch? k = s.launch? k := by simp [State.launch?, h.launches]

/-- What a gang that is put keeps, a row of them keeps. -/
theorem foldl_putGang {α γ : Type} (p : State → γ) (hp : ∀ s g, p (s.putGang g) = p s) (f : State → α → Gang) (l : List α) (s : State) :
    p (l.foldl (fun s x => s.putGang (f s x)) s) = p s := by
  induction l generalizing s with
  | nil => rfl
  | cons a l ih => rw [List.foldl_cons, ih, hp]

theorem State.cyc_takePart (s : State) (c : Nat) (w : Word) (d : Nat) : (s.takePart c w).cyc d = s.cyc d := by
  unfold State.takePart State.cyc
  by_cases h : d = c
  · subst h; simp
  · rw [State.modCore_eq, State.core_putCore_of_ne _ _ h]

theorem State.allotLease_placed (s : State) (core launch size : Nat) : Placed s (s.allotLease core launch size) := by
  unfold State.allotLease
  split <;> exact ⟨rfl, rfl, rfl⟩

theorem State.allotLease_crews (s : State) (core launch size : Nat) : (s.allotLease core launch size).crews = s.crews := by
  unfold State.allotLease
  split <;> rfl

/-- R90: a crew at its start, on this core. -/
def Crew.started (c : Crew) (p : Packet) (core : Nat) : Crew :=
  { c with core := core, stat := .running, live := p.crew, rc := c.rc, freed := false, afterLowest := false }

section
variable (s : State) (key : Nat) (c : Crew) (p : Packet) (core : Nat)

theorem State.takePart_placed (w : Word) : Placed s (s.takePart core w) := ⟨rfl, rfl, s.cyc_takePart core w 0⟩

theorem State.startCrew_crews : (s.startCrew key c p core).crews = Tab.set s.crews key (c.started p core) := by
  refine (foldl_putGang State.crews (fun _ _ => rfl) _ _ _).trans ?_
  exact congrArg (Tab.set · key (c.started p core)) (State.allotLease_crews ..)

theorem State.startCrew_placed : Placed s (s.startCrew key c p core) := by
  refine Placed.trans (t := ((s.takePart core p.part).allotLease core c.launch p.tlease).putCrew key (c.started p core)) ?_ ⟨?_, ?_, ?_⟩
  · exact (s.takePart_placed core p.part).trans (State.allotLease_placed ..).put
  · exact foldl_putGang State.mem (fun _ _ => rfl) _ _ _
  · exact foldl_putGang State.launches (fun _ _ => rfl) _ _ _
  · exact foldl_putGang State.clock (fun _ _ => rfl) _ _ _

theorem State.startCrew_nextCrew : (s.startCrew key c p core).nextCrew = s.nextCrew := by
  refine (foldl_putGang State.nextCrew (fun _ _ => rfl) _ _ _).trans ?_
  unfold State.putCrew State.allotLease
  split <;> rfl
end

theorem State.findCore_cluster {s : State} {k blocks cluster core : Nat} {p : Packet} (h : s.findCore k p blocks cluster = some core) :
    core / 64 = cluster := by
  obtain ⟨i, hi, rfl⟩ := List.mem_map.mp (List.mem_of_find?_eq_some h)
  have := List.mem_range.mp hi
  omega

/-- The crew of a band that a band's placing puts in a place. -/
def PlacedCrew (k band : Nat) (p : Packet) (cluster i : Nat) (c : Crew) : Prop :=
  c.stat = .running ∧ c.launch = k ∧ c.band = band ∧ c.inBand = i ∧ c.live = p.crew ∧ c.core / 64 = cluster

/-- One crew of a band. -/
def State.placeOne (k : Nat) (p : Packet) (band cluster : Nat) (acc : Option State) (i : Nat) : Option State :=
  acc.bind (fun s =>
    (s.findCore k p p.blocks cluster).map (fun core =>
      let s' := s.startCrew s.nextCrew { launch := k, band := band, inBand := i, core := core, live := p.crew, entry := p.entry } p core
      { s' with nextCrew := s.nextCrew + 1 }))

theorem State.placeBand_eq (s : State) (k : Nat) (p : Packet) (band cluster : Nat) :
    s.placeBand k p band cluster = (List.range p.band).foldl (State.placeOne k p band cluster) (some s) := rfl

theorem placeOne_placed {s t : State} {k band cluster n : Nat} {p : Packet} (h : State.placeOne k p band cluster (some s) n = some t) :
    Placed s t ∧ t.nextCrew = s.nextCrew + 1 ∧ (∀ j ≠ s.nextCrew, t.crew? j = s.crew? j) ∧
      ∃ c, t.crew? s.nextCrew = some c ∧ PlacedCrew k band p cluster n c := by
  obtain ⟨core, hcore, rfl⟩ := Option.map_eq_some_iff.mp h
  let c : Crew := { launch := k, band := band, inBand := n, core := core, live := p.crew, entry := p.entry }
  have hcrews := s.startCrew_crews s.nextCrew c p core
  have hplaced := s.startCrew_placed s.nextCrew c p core
  refine ⟨⟨hplaced.mem, hplaced.launches, hplaced.clock⟩, rfl, fun j hj => ?_, c.started p core, ?_, rfl, rfl, rfl, rfl, rfl, State.findCore_cluster hcore⟩
  · exact (congrArg (Tab.get? · j) hcrews).trans (Tab.get?_set_of_ne _ _ hj)
  · exact (congrArg (Tab.get? · s.nextCrew) hcrews).trans (Tab.get?_set_self ..)

theorem placeFirst_placed {s t : State} {k band cluster : Nat} {p : Packet} (n : Nat)
    (h : (List.range n).foldl (State.placeOne k p band cluster) (some s) = some t) :
    Placed s t ∧ t.nextCrew = s.nextCrew + n ∧ ∀ i < n, ∃ c, t.crew? (s.nextCrew + i) = some c ∧ PlacedCrew k band p cluster i c := by
  induction n generalizing t with
  | zero =>
    obtain rfl : s = t := by simpa using h
    exact ⟨.refl s, rfl, by simp⟩
  | succ n ih =>
    rw [List.range_succ, List.foldl_append, List.foldl_cons, List.foldl_nil] at h
    obtain ⟨u, hu, -⟩ := Option.bind_eq_some_iff.mp h
    rw [hu] at h
    obtain ⟨hsu, hnext, hcrews⟩ := ih hu
    obtain ⟨hut, hnext', hothers, hlast⟩ := placeOne_placed h
    refine ⟨hsu.trans hut, by omega, fun i hi => ?_⟩
    rcases Nat.lt_succ_iff_lt_or_eq.mp hi with hi | rfl
    · rw [hothers _ (by omega)]
      exact hcrews i hi
    · rwa [hnext] at hlast

/-- R329: what has been admitted is counted, and the next band's wait begins. -/
theorem State.admitted_one (s : State) {k : Nat} {l : Launch} (since : Nat) (h : s.launch? k = some l) :
    s.admitted k 1 since =
      (s.count .admitWaitCycles (s.clock - since)).putLaunch k { l with nextBand := l.nextBand + 1, pendingSince := s.clock, blocking := false } := by
  unfold State.admitted
  exact State.modLaunch_some (l := l) _ h

theorem admitNext_band {s u : State} {k cluster : Nat} {l : Launch} (hl : s.launch? k = some l) (hdone : l.done = false) (hover : l.overflow = false)
    (hmode : l.pkt.mode ≠ 2) (hco : l.pkt.cosched = false) (hre : s.requeued k = []) (hband : l.nextBand < l.pkt.bandCount) (hc : cluster < 8)
    (hbefore : ∀ c < cluster, s.placeBand k l.pkt l.nextBand c = none) (hu : s.placeBand k l.pkt l.nextBand cluster = some u) :
    s.admitNext k = some (u.admitted k 1 l.pendingSince) := by
  simp [State.admitNext, hl, hdone, hover, hmode, hco, hre, hband, firstSome_range hc hbefore hu]

theorem placeBand_admitted {s u : State} {k cluster since : Nat} {l : Launch} (hl : s.launch? k = some l)
    (hu : s.placeBand k l.pkt l.nextBand cluster = some u) :
    (u.admitted k 1 since).launch? k = some { l with nextBand := l.nextBand + 1, pendingSince := s.clock, blocking := false } ∧
      (u.admitted k 1 since).mem = s.mem ∧ ∀ i < l.pkt.band, ∃ c, (u.admitted k 1 since).crew? (s.nextCrew + i) = some c ∧
        PlacedCrew k l.nextBand l.pkt cluster i c := by
  obtain ⟨hplaced, -, hcrews⟩ := placeFirst_placed l.pkt.band (s.placeBand_eq .. ▸ hu)
  rw [u.admitted_one since ((hplaced.launch k).trans hl), hplaced.clock]
  exact ⟨State.launch_putLaunch .., hplaced.mem, hcrews⟩

end Sys2Proof.Machine
end

section
/-! PROOFS. A band that blocks (R329), and the commit of a crew (R84, R303). -/
namespace Sys2Proof.Machine

/- A band that blocks (R329) -/

/-- R329: a launch whose band has waited 2^20 cycles blocks. -/
def State.blocked (s : State) (k : Nat) (l : Launch) : Launch :=
  if (s.pendingFrom k l).any (fun t => decide (t + 2 ^ 20 ≤ s.clock)) then { l with blocking := true } else l

theorem exec_bandBlocking {s : State} (hs : s.fatal = none) :
    exec .bandBlocking s = .next { s with launches := s.launches.map (fun x => (x.1, s.blocked x.1 x.2)) } := by
  show execBandBlocking s = _
  refine (alive_none hs).trans (congrArg (fun l => Host.Outcome.next { s with launches := l }) (List.map_congr_left fun x _ => ?_))
  unfold State.blocked
  split <;> rfl

theorem State.blocked_of_waited {s : State} {k : Nat} {l : Launch} (hdone : l.done = false) (hover : l.overflow = false)
    (h : (l.pkt.mode ≠ 2 ∧ l.nextBand < l.pkt.bandCount ∧ l.pendingSince + 2 ^ 20 ≤ s.clock) ∨ (∃ x ∈ s.requeued k, x.2.queuedAt + 2 ^ 20 ≤ s.clock)) :
    s.blocked k l = { l with blocking := true } := by
  have hany : ∃ t ∈ s.pendingFrom k l, t + 2 ^ 20 ≤ s.clock := by
    rcases h with ⟨hmode, hband, hwait⟩ | ⟨x, hx, hwait⟩
    · exact ⟨l.pendingSince, by simp [State.pendingFrom, hdone, hover, hmode, hband], hwait⟩
    · have hx' : x.2.queuedAt ∈ (s.requeued k).map (·.2.queuedAt) := List.mem_map_of_mem hx
      exact ⟨x.2.queuedAt, by simp only [State.pendingFrom, hdone, hover]; exact List.mem_append_left _ hx', hwait⟩
  exact if_pos (by simpa using hany)

/- Commit (R84, R303) -/

/-- How far a crew's commit goes: to the first effect that waits for its turn, or to the end. -/
theorem commitCrew_upTo (s : State) (k n : Nat) (c : Crew) (hn : c.applied.getD 0 ≤ c.effects.length) :
    ∃ m, c.applied.getD 0 ≤ m ∧ m ≤ c.effects.length ∧
      let t := ((c.effects.take m).drop (c.applied.getD 0)).foldl (fun t x => t.applyEff k c.entry (c.rc != 0) x) s
      (m < c.effects.length → (∃ x, c.effects[m]? = some x ∧ t.commitWaits k x = true) ∧ s.commitCrew k n c = t.putCrew n { c with applied := some m }) ∧
      (m = c.effects.length → s.commitCrew k n c =
        (((t.putCrew n { c with stat := .committed, effects := [], applied := none, inLog := 0, scratch := {}, freed := true }).releaseHeld
          k).settle c.core).wakeCommitted) := by
  obtain ⟨m, hm, heq, hwait⟩ := applyInOrder_front id k (fun s x => State.applyEff s k c.entry (c.rc != 0) x) (c.effects.drop (c.applied.getD 0))
    (c.applied.getD 0) s
  rw [List.length_drop] at hm hwait
  refine ⟨c.applied.getD 0 + m, by omega, by omega, ?_⟩
  rw [List.drop_take, Nat.add_sub_cancel_left]
  refine ⟨fun hlt => ⟨?_, ?_⟩, fun hall => ?_⟩
  · obtain ⟨x, hx, hw⟩ := hwait (by omega)
    exact ⟨x, by rwa [List.getElem?_drop] at hx, hw⟩
  · unfold State.commitCrew
    dsimp only
    rw [heq]
    exact if_pos hlt
  · unfold State.commitCrew
    dsimp only
    rw [heq]
    exact if_neg (by dsimp only; omega)

theorem State.commitWaits_iff (s : State) (k : Nat) (x : Eff) :
    s.commitWaits k x = true ↔ (x.ord = true ∧ ∃ f ∈ s.far, f.ord = true ∧ f.what.commitOf = some k) := by
  simp [State.commitWaits]

section
variable {s : State} {k n : Nat} {l : Launch} {c : Crew} (hs : s.fatal = none) (hl : s.launch? k = some l) (hmode : l.pkt.mode = 1)
  (hhead : (s.uncommitted k).head? = some n) (hc : s.crew? n = some c) (hstat : c.stat = .retired) (hpre : s.preCrews.contains n = false)
  (hready : c.effects.all s.effReady = true)
include hs hl hmode hhead hc hstat hpre hready

theorem exec_crewCommit_begun (happ : c.applied ≠ none) : exec (.crewCommit k) s = .next (s.commitCrew k n c) := by
  show execCrewCommit k s = _
  refine (alive_none hs).trans ?_
  have hpre : n ∉ s.preCrews := by simpa using hpre
  simp [hl, hhead, hc, hmode, hstat, hpre, hready, Option.isSome_iff_ne_none.mpr happ]

theorem exec_crewCommit_good (happ : c.applied = none) (hasked : s.askVersions k (numbered c.effects) = s)
    (hgood : s.checkVersions k (numbered c.effects) = .good) :
    exec (.crewCommit k) s = .next (((s.endChecks k).readEffects n (fun _ => true)).commitCrew k n
      ((((s.endChecks k).readEffects n (fun _ => true)).crew? n).getD c)) := by
  show execCrewCommit k s = _
  refine (alive_none hs).trans ?_
  have hpre : n ∉ s.preCrews := by simpa using hpre
  simp [hl, hhead, hc, hmode, hstat, hpre, hready, happ, hasked, hgood]
end

theorem State.endChecks_poolsWhole (s : State) (k : Nat) : (s.endChecks k).poolsWhole = s.poolsWhole := by
  unfold State.endChecks State.modLaunch
  split <;> rfl

end Sys2Proof.Machine
end

section
/-! PROOFS. Retirement (R84, R92, R163): what moves to the effect log, and what the log writes (R77). -/
namespace Sys2Proof.Machine

/- Entries of a table -/

theorem Tab.isSome_get?_of_mem {α : Type} {m : Tab α} {k : Nat} {x : α} (h : (k, x) ∈ m) : ∃ y, Tab.get? m k = some y := by
  induction m with
  | nil => cases h
  | cons z r ih =>
    obtain ⟨j, w⟩ := z
    unfold Tab.get?
    split
    · exact ⟨w, rfl⟩
    · next hne =>
      rcases List.mem_cons.mp h with h | h
      · exact absurd (Prod.ext_iff.mp h).1 hne
      · exact ih h

theorem Tab.mem_of_get? {α : Type} {m : Tab α} {k : Nat} {x : α} (h : Tab.get? m k = some x) : (k, x) ∈ m := by
  induction m with
  | nil => cases h
  | cons z r ih =>
    obtain ⟨j, w⟩ := z
    unfold Tab.get? at h
    split at h
    · next heq => simp_all
    · exact List.mem_cons_of_mem _ (ih h)

theorem Tab.mem_set {α : Type} {m : Tab α} {a : Nat} {v : α} {x : Nat × α} (h : x ∈ Tab.set m a v) : x = (a, v) ∨ x ∈ m := by
  induction m with
  | nil => exact .inl (by simpa [Tab.set] using h)
  | cons z r ih =>
    obtain ⟨j, w⟩ := z
    unfold Tab.set at h
    split at h
    · simpa using h
    · split at h
      · rcases List.mem_cons.mp h with h | h <;> simp [h]
      · rcases List.mem_cons.mp h with h | h
        · simp [h]
        · rcases ih h with h | h <;> simp [h]

theorem core_failedBanks {s : State} (h : s.poolsWhole = true) (c : Nat) : (s.core c).failedBanks = [] := by
  unfold State.core
  cases hc : Tab.get? s.cores c
  case none => rfl
  case some x => simpa using List.all_eq_true.mp h _ (Tab.mem_of_get? hc)

theorem modCore_poolsWhole {s : State} {c : Nat} {f : Core → Core} (h : s.poolsWhole = true) (hf : ∀ x, (f x).failedBanks = x.failedBanks) :
    (s.modCore c f).poolsWhole = true := by
  refine List.all_eq_true.mpr fun x hx => ?_
  rcases Tab.mem_set hx with rfl | hx
  · simp [hf, core_failedBanks h]
  · exact List.all_eq_true.mp h x hx

/- The rows of an effect buffer (R107) -/

/-- Nothing of gangs or of this crew has changed but its effects, each of which has the size that it had. -/
def OnlyEffects (k : Nat) (s t : State) : Prop :=
  t.gangs = s.gangs ∧ ∀ c, s.crew? k = some c → ∃ f, t.crew? k = some { c with effects := f } ∧ f.map (·.size) = c.effects.map (·.size)

theorem OnlyEffects.of_same {k : Nat} {s t : State} (hg : t.gangs = s.gangs) (hc : t.crews = s.crews) : OnlyEffects k s t :=
  ⟨hg, fun c h => ⟨c.effects, by rw [← h]; exact congrArg (Tab.get? · k) hc, rfl⟩⟩

theorem OnlyEffects.trans {k : Nat} {s t u : State} (h : OnlyEffects k s t) (h' : OnlyEffects k t u) : OnlyEffects k s u := by
  refine ⟨h'.1.trans h.1, fun c hc => ?_⟩
  obtain ⟨f, hf, hsize⟩ := h.2 c hc
  obtain ⟨f', hf', hsize'⟩ := h'.2 _ hf
  exact ⟨f', hf', hsize'.trans hsize⟩

theorem Eff.spoil_size (e : Eff) (x : Option Word) : (e.spoil x).size = e.size := by unfold Eff.spoil; split <;> rfl

theorem spoilEffects_size (ix o : Nat) (x : Option Word) (l : List Eff) : (spoilEffects ix x o l).map (·.size) = l.map (·.size) := by
  induction l generalizing o with
  | nil => rfl
  | cons e r ih =>
    rw [spoilEffects, List.map_cons, List.map_cons, ih]
    split <;> simp [Eff.spoil_size]

theorem spoilHeld_effect (s : State) (core k ix : Nat) (f : Nat → Option Word) : OnlyEffects k s (s.spoilHeld core (.effect k ix) f) := by
  refine ⟨?_, fun c hc => ⟨spoilEffects ix (f 0) 0 c.effects, ?_, spoilEffects_size ..⟩⟩
  · unfold State.spoilHeld State.modCrew
    dsimp only
    split <;> rfl
  · exact (congrArg (State.crew? · k) (State.modCrew_some _ hc)).trans (State.crew_putCrew ..)

theorem rowsCorrected_onlyEffects (s : State) (core bank n k : Nat) : OnlyEffects k s (s.rowsCorrected core bank n) :=
  .of_same (by simp [State.rowsCorrected]) (by simp [State.rowsCorrected])

theorem rowLost_onlyEffects (s : State) (core k : Nat) (many : Bool) : OnlyEffects k s (s.rowLost core many).1 := by
  unfold State.rowLost
  dsimp only
  split
  · exact .of_same (by simp [State.rowsCorrected]) (by simp [State.rowsCorrected])
  · exact .of_same (by simp) (by simp)

theorem readHeld_effect (s : State) (core k ix : Nat) : OnlyEffects k s (s.readHeld core [.effect k ix]) := by
  unfold State.readHeld
  split
  · exact .of_same rfl rfl
  · exact rowsCorrected_onlyEffects ..
  · exact (rowLost_onlyEffects ..).trans (spoilHeld_effect _ core ..)

theorem readRows_effects {k : Nat} {l : List RowHolds} (h : ∀ x ∈ l, ∃ ix, x = .effect k ix) (s : State) (core : Nat) :
    OnlyEffects k s (s.readRows core l) := by
  induction l generalizing s with
  | nil => exact .of_same rfl rfl
  | cons x r ih =>
    simp only [List.forall_mem_cons] at h
    obtain ⟨⟨ix, rfl⟩, hr⟩ := h
    exact (readHeld_effect ..).trans (ih hr _)

theorem readEffects_onlyEffects (s : State) (k : Nat) (which : Eff → Bool) : OnlyEffects k s (s.readEffects k which) := by
  unfold State.readEffects
  split
  · exact .of_same rfl rfl
  · refine readRows_effects (fun x hx => ?_) ..
    obtain ⟨ix, -, rfl⟩ := List.mem_map.mp hx
    exact ⟨ix, rfl⟩

/- The effect log (R77) -/

/-- Crews and gangs are as they were, and every byte of memory outside the pieces. -/
structure LogWritten (pieces : List (Nat × Nat)) (s t : State) : Prop where
  gangs : t.gangs = s.gangs
  crews : t.crews = s.crews
  outside : ∀ a, (∀ p ∈ pieces, a < p.1 ∨ p.1 + p.2 ≤ a) → Store.get t.mem a = Store.get s.mem a

theorem engineWrite_mem_outside (s : State) {pa a : Nat} (l : List Byte) (h : a < pa ∨ pa + l.length ≤ a) :
    Store.get (s.engineWrite pa l).mem a = Store.get s.mem a := by
  unfold State.engineWrite
  split
  · exact State.physWrite_mem_outside s (clean l) (by simpa [clean] using h)
  · rfl

theorem engineBytes_logWritten (s : State) (pa : Nat) (l : List Byte) : LogWritten [(pa, l.length)] s (s.engineBytes pa l) := by
  unfold State.engineBytes
  dsimp only
  split
  · next hn =>
    refine ⟨by simp, by simp, fun a ha => ?_⟩
    have ha : a < pa ∨ pa + l.length ≤ a := by simpa using ha
    rw [engineWrite_mem_outside _ _ (by rw [List.length_drop]; omega), engineWrite_mem_outside _ _ (by rw [List.length_take]; omega)]
  · exact ⟨by simp, by simp, fun a ha => engineWrite_mem_outside s l (by simpa using ha)⟩

theorem writePieces_logWritten (l : List (Nat × Nat)) (s : State) : LogWritten l s (l.foldl
    (fun s p => { s with nextId := s.nextId + 1 }.engineBytes p.1 ((List.range p.2).map (Config.logByte s.nextId))) s) := by
  induction l generalizing s with
  | nil => exact ⟨rfl, rfl, fun _ _ => rfl⟩
  | cons p l ih =>
    have hone := engineBytes_logWritten { s with nextId := s.nextId + 1 } p.1 ((List.range p.2).map (Config.logByte s.nextId))
    obtain ⟨hgangs, hcrews, hout⟩ := ih ({ s with nextId := s.nextId + 1 }.engineBytes p.1 ((List.range p.2).map (Config.logByte s.nextId)))
    refine ⟨hgangs.trans hone.gangs, hcrews.trans hone.crews, fun a ha => ?_⟩
    simp only [List.forall_mem_cons] at ha
    exact (hout a ha.2).trans (hone.outside a (by simpa using ha.1))

theorem writeLog_logWritten (s : State) (l : Launch) :
    LogWritten ((s.hostPieces (l.q / 4) l.pkt.logbase l.pkt.loglen true).getD []) s (s.writeLog l) := writePieces_logWritten ..

/- Retirement -/

/-- The gangs, the memory and one crew are as they were. -/
structure CrewKept (k : Nat) (s t : State) : Prop where
  gangs : t.gangs = s.gangs
  mem : t.mem = s.mem
  crew : t.crew? k = s.crew? k

theorem CrewKept.refl (k : Nat) (s : State) : CrewKept k s s := ⟨rfl, rfl, rfl⟩
theorem CrewKept.trans {k : Nat} {s t u : State} (h : CrewKept k s t) (h' : CrewKept k t u) : CrewKept k s u :=
  ⟨h'.gangs.trans h.gangs, h'.mem.trans h.mem, h'.crew.trans h.crew⟩
theorem CrewKept.ite {k : Nat} {s t : State} {p : Prop} [Decidable p] (h : CrewKept k s t) : CrewKept k s (if p then t else s) := by
  split
  · exact h
  · exact .refl k s

theorem preDone_crewKept (k : Nat) (s : State) : CrewKept k s s.preDone := .ite ⟨rfl, rfl, rfl⟩
theorem preGone_crewKept (k : Nat) (s : State) (l : List Nat) : CrewKept k s { s with preCrews := l }.preDone :=
  CrewKept.trans (t := { s with preCrews := l }) ⟨rfl, rfl, rfl⟩ (preDone_crewKept ..)
theorem settle_crewKept (k : Nat) (s : State) (core : Nat) : CrewKept k s (s.settle core) := .ite ⟨rfl, rfl, rfl⟩
theorem dropLease_crewKept (k : Nat) (s : State) (core launch : Nat) : CrewKept k s (s.dropLease core launch) := by
  unfold State.dropLease
  split
  · exact .refl k s
  · exact ⟨rfl, rfl, rfl⟩

/-- R87: a crew that no other holds back is not let go. -/
def Crew.released (clock launch : Nat) (c : Crew) : Crew :=
  if c.launch == launch && c.afterLowest then { c with afterLowest := false, queuedAt := clock } else c

theorem State.releaseHeld_eq (s : State) (launch : Nat) :
    s.releaseHeld launch = { s with crews := s.crews.map (fun x => (x.1, x.2.released s.clock launch)) } := by
  refine congrArg (fun l => { s with crews := l }) (List.map_congr_left fun x _ => ?_)
  unfold Crew.released
  split <;> rfl

theorem releaseHeld_crewKept {k : Nat} {s : State} {c : Crew} (launch : Nat) (hc : s.crew? k = some c) (h : c.afterLowest = false) :
    CrewKept k s (s.releaseHeld launch) := by
  rw [State.releaseHeld_eq]
  refine ⟨rfl, rfl, (Tab.get?_map s.crews (fun _ c => c.released s.clock launch) k).trans ?_⟩
  rw [show Tab.get? s.crews k = some c from hc]
  simp [Crew.released, h, hc]

/-- The crew's part of a retirement: it gives up its tiles and planes, and in a FREE launch its scratch; in another its effects may move to the log. -/
def State.retireCrew (s : State) (k : Nat) (c : Crew) : State :=
  let u := s.modCore c.core (fun x => x.forgetWaiters k)
  if ((s.launch? c.launch).map (·.pkt.mode)).getD 0 = 0 then
    u.putCrew k { c with stat := .committed, freed := true, scratch := {}, tiles := [], planes := [] }
  else
    (u.putCrew k { c with stat := .retired, tiles := [], planes := [] }).moveToLog (s.commitsNext k c) (s.logUsed c.launch) k
      { c with stat := .retired, tiles := [], planes := [] }

/-- What follows it changes no gang, no memory, and nothing of the crew. -/
theorem retire_crewKept {s : State} {k : Nat} {c d : Crew} (hd : (s.retireCrew k c).crew? k = some d) (h : d.afterLowest = false) :
    CrewKept k (s.retireCrew k c) (s.retire k c) := by
  exact CrewKept.trans (CrewKept.ite (releaseHeld_crewKept c.launch hd h)) (CrewKept.trans (CrewKept.ite (preGone_crewKept k _ _))
    (CrewKept.trans (CrewKept.ite (dropLease_crewKept k _ c.core c.launch)) (settle_crewKept k _ c.core)))

theorem exec_crewRetire {s : State} {k : Nat} {c : Crew} (hs : s.fatal = none) (hc : s.crew? k = some c) (hmay : s.mayRetire k c = true) :
    exec (.crewRetire k) s = .next (s.retire k c) := by
  show execCrewRetire k s = _
  refine (alive_none hs).trans ?_
  simp [hc, hmay]

theorem retireCrew_free {s : State} {k : Nat} {c : Crew} (hmode : ((s.launch? c.launch).map (·.pkt.mode)).getD 0 = 0) :
    s.retireCrew k c = (s.modCore c.core (fun x => x.forgetWaiters k)).putCrew k
      { c with stat := .committed, freed := true, scratch := {}, tiles := [], planes := [] } := if_pos hmode

/-- R77: the log is written where the crew holds space of it. -/
def State.logged (s : State) (k : Nat) (l : Launch) : State := if ((s.crew? k).map (·.inLog)).getD 0 = 0 then s else s.writeLog l

section
variable {s : State} {k used : Nat} {next : Bool} {c : Crew} {l : Launch} (hl : s.launch? c.launch = some l)
include hl

theorem moveToLog_stays (h : next = true ∨ l.pkt.loglen < used - c.inLog + effBytes c.effects) :
    s.moveToLog next used k c = s.logged k l := by
  have hno : ¬ (used - c.inLog + effBytes c.effects ≤ l.pkt.loglen ∧ next = false) := by
    rcases h with h | h
    · simp [h]
    · omega
  unfold State.moveToLog State.logged
  simp [hl, hno]

theorem moveToLog_moves (hnext : next = false) (h : used - c.inLog + effBytes c.effects ≤ l.pkt.loglen) :
    s.moveToLog next used k c = ((s.readEffects k (fun _ => true)).modCrew k
      (fun d => { d with inLog := effBytes c.effects, freed := true, scratch := {} })).logged k l := by
  unfold State.moveToLog State.logged
  simp [hl, hnext, h]
end

theorem logged_logWritten (s : State) (k : Nat) (l : Launch) :
    LogWritten ((s.hostPieces (l.q / 4) l.pkt.logbase l.pkt.loglen true).getD []) s (s.logged k l) := by
  unfold State.logged
  split
  · exact ⟨rfl, rfl, fun _ _ => rfl⟩
  · exact writeLog_logWritten s l

theorem logged_outside {s u : State} {k a : Nat} {l : Launch}
    (hu : u.hostPieces (l.q / 4) l.pkt.logbase l.pkt.loglen true = s.hostPieces (l.q / 4) l.pkt.logbase l.pkt.loglen true)
    (ha : ∀ p ∈ (s.hostPieces (l.q / 4) l.pkt.logbase l.pkt.loglen true).getD [], a < p.1 ∨ p.1 + p.2 ≤ a) :
    Store.get (u.logged k l).mem a = Store.get u.mem a := (logged_logWritten u k l).outside a (hu ▸ ha)

theorem logged_crew (s : State) (k n : Nat) (l : Launch) : (s.logged k l).crew? n = s.crew? n := congrArg (Tab.get? · n) (logged_logWritten s k l).crews

theorem logged_none {s : State} {k : Nat} {c : Crew} (l : Launch) (hc : s.crew? k = some c) (h : c.inLog = 0) : s.logged k l = s :=
  if_pos (by simp [hc, h])

/-- The retired crew, before its effects move to the log. -/
def Crew.retired (c : Crew) : Crew := { c with stat := .retired, tiles := [], planes := [] }

/-- A retired crew with its effects in the log. -/
def Crew.inLogWith (c : Crew) (f : List Eff) : Crew :=
  { c.retired with effects := f, inLog := effBytes c.effects, freed := true, scratch := {} }

/-- The state in which a crew has retired, before its effects move to the log. -/
def State.retiring (s : State) (k : Nat) (c : Crew) : State := (s.modCore c.core (fun x => x.forgetWaiters k)).putCrew k c.retired

theorem retiring_crew (s : State) (k : Nat) (c : Crew) : (s.retiring k c).crew? k = some c.retired := State.crew_putCrew ..

theorem retiring_poolsWhole {s : State} (k : Nat) (c : Crew) (h : s.poolsWhole = true) : (s.retiring k c).poolsWhole = true :=
  modCore_poolsWhole (f := fun x => x.forgetWaiters k) h (fun _ => rfl)

/-- Where the log stands does not depend on crews and cores. -/
theorem State.hostPieces_putCrew (s : State) (k : Nat) (d : Crew) (ctx va n : Nat) (write : Bool) :
    (s.putCrew k d).hostPieces ctx va n write = s.hostPieces ctx va n write := rfl
theorem State.hostPieces_modCore (s : State) (core : Nat) (f : Core → Core) (ctx va n : Nat) (write : Bool) :
    (s.modCore core f).hostPieces ctx va n write = s.hostPieces ctx va n write := rfl
theorem retiring_hostPieces (s : State) (k : Nat) (c : Crew) (ctx va n : Nat) (write : Bool) :
    (s.retiring k c).hostPieces ctx va n write = s.hostPieces ctx va n write :=
  (State.hostPieces_putCrew ..).trans (State.hostPieces_modCore ..)
theorem retiring_mem (s : State) (k : Nat) (c : Crew) : (s.retiring k c).mem = s.mem := rfl

section
variable {s : State} {k : Nat} {c : Crew} {l : Launch} (hl : s.launch? c.launch = some l)
include hl

/-- R84, R380: when a crew is the next of its launch to commit. -/
theorem commitsNext_iff : s.commitsNext k c = true ↔
    (if l.pkt.mode = 1 then (s.uncommitted c.launch).head? = some k
      else ∀ n ∈ s.uncommitted c.launch, n = k ∨ ∃ x, s.crew? n = some x ∧ x.stat = .retired) := by
  have hknown (n : Nat) (hn : n ∈ s.uncommitted c.launch) : ∃ x, s.crew? n = some x := by
    obtain ⟨x, hx, rfl⟩ := List.mem_map.mp hn
    exact Tab.isSome_get?_of_mem (List.mem_filter.mp hx).1
  unfold State.commitsNext
  rw [hl, Option.map_some, Option.getD_some]
  split
  · next h => simp [h]
  · next h =>
    rw [if_neg h, List.all_eq_true]
    refine forall₂_congr fun n hn => ?_
    obtain ⟨x, hx⟩ := hknown n hn
    simp [hx]

theorem retireCrew_stays (hmode : l.pkt.mode ≠ 0)
    (h : s.commitsNext k c = true ∨ l.pkt.loglen < s.logUsed c.launch - c.inLog + effBytes c.effects) :
    s.retireCrew k c = (s.retiring k c).logged k l :=
  (if_neg (by simpa [hl] using hmode)).trans (moveToLog_stays (c := c.retired) hl h)

theorem retireCrew_moves (hmode : l.pkt.mode ≠ 0) (hnext : s.commitsNext k c = false)
    (h : s.logUsed c.launch - c.inLog + effBytes c.effects ≤ l.pkt.loglen) :
    s.retireCrew k c = (((s.retiring k c).readEffects k (fun _ => true)).modCrew k
      (fun d => { d with inLog := effBytes c.effects, freed := true, scratch := {} })).logged k l :=
  (if_neg (by simpa [hl] using hmode)).trans (moveToLog_moves (c := c.retired) hl hnext h)

/-- With no bank marked failed, the log is all that a retirement changes of memory. -/
theorem retireCrew_outside (hmode : l.pkt.mode ≠ 0) (hwhole : s.poolsWhole = true) {a : Nat}
    (ha : ∀ p ∈ (s.hostPieces (l.q / 4) l.pkt.logbase l.pkt.loglen true).getD [], a < p.1 ∨ p.1 + p.2 ≤ a) :
    Store.get (s.retireCrew k c).mem a = Store.get s.mem a := by
  by_cases h : s.commitsNext k c = true ∨ l.pkt.loglen < s.logUsed c.launch - c.inLog + effBytes c.effects
  · rw [retireCrew_stays hl hmode h]
    exact (logged_outside (retiring_hostPieces ..) ha).trans (by rw [retiring_mem])
  · rw [not_or, Bool.not_eq_true, Nat.not_lt] at h
    rw [retireCrew_moves hl hmode h.1 h.2, readEffects_whole k _ (retiring_poolsWhole k c hwhole), State.modCrew_some _ (retiring_crew s k c)]
    exact (logged_outside ((State.hostPieces_putCrew ..).trans (retiring_hostPieces ..)) ha).trans (by rw [State.putCrew_mem, retiring_mem])

theorem retireCrew_kept (hmode : l.pkt.mode ≠ 0)
    (h : s.commitsNext k c = true ∨ l.pkt.loglen < s.logUsed c.launch - c.inLog + effBytes c.effects) :
    (s.retireCrew k c).gangs = s.gangs ∧ (s.retireCrew k c).crew? k = some c.retired ∧ (c.inLog = 0 → (s.retireCrew k c).mem = s.mem) := by
  rw [retireCrew_stays hl hmode h]
  refine ⟨(logged_logWritten ..).gangs, (logged_crew ..).trans (retiring_crew ..), fun hlog => ?_⟩
  rw [logged_none l (retiring_crew s k c) hlog]
  rfl

theorem retireCrew_moved (hmode : l.pkt.mode ≠ 0) (hnext : s.commitsNext k c = false)
    (h : s.logUsed c.launch - c.inLog + effBytes c.effects ≤ l.pkt.loglen) :
    (s.retireCrew k c).gangs = s.gangs ∧ ∃ f, (s.retireCrew k c).crew? k = some (c.inLogWith f) ∧ effBytes f = effBytes c.effects ∧
      (s.poolsWhole = true → f = c.effects) := by
  obtain ⟨hgangs, hcrew⟩ := readEffects_onlyEffects (s.retiring k c) k (fun _ => true)
  obtain ⟨f, hf, hsize⟩ := hcrew _ (retiring_crew s k c)
  rw [retireCrew_moves hl hmode hnext h, State.modCrew_some _ hf]
  refine ⟨(logged_logWritten ..).gangs.trans hgangs, f, (logged_crew ..).trans (State.crew_putCrew ..), ?_, fun hwhole => ?_⟩
  · rw [effBytes, hsize]
    rfl
  · rw [readEffects_whole k _ (retiring_poolsWhole k c hwhole), retiring_crew] at hf
    injection hf with hf
    exact (congrArg Crew.effects hf).symm
end

end Sys2Proof.Machine
end

section
/-! PROOFS. Saving a crew (R335, R346). -/
namespace Sys2Proof.Machine

/-- What a save image rests on, and what says which crews are still to be saved, is as it was. -/
structure ImageKept (s t : State) : Prop where
  mem : t.mem = s.mem
  gangs : t.gangs = s.gangs
  ctxs : t.ctxs = s.ctxs
  crews : t.crews = s.crews
  preCrews : t.preCrews = s.preCrews
  preSaved : t.preSaved = s.preSaved

theorem ImageKept.trans {s t u : State} (h : ImageKept s t) (h' : ImageKept t u) : ImageKept s u :=
  ⟨h'.mem.trans h.mem, h'.gangs.trans h.gangs, h'.ctxs.trans h.ctxs, h'.crews.trans h.crews, h'.preCrews.trans h.preCrews, h'.preSaved.trans h.preSaved⟩

theorem settle_imageKept (s : State) (core : Nat) : ImageKept s (s.settle core) := by
  unfold State.settle
  split <;> exact ⟨rfl, rfl, rfl, rfl, rfl, rfl⟩
theorem dropLease_imageKept (s : State) (core launch : Nat) : ImageKept s (s.dropLease core launch) := by
  unfold State.dropLease
  split <;> exact ⟨rfl, rfl, rfl, rfl, rfl, rfl⟩
theorem preDone_imageKept (s : State) : ImageKept s s.preDone := by
  unfold State.preDone
  split <;> exact ⟨rfl, rfl, rfl, rfl, rfl, rfl⟩

/-- The handler of a core serves a stop of a gang of the crew. -/
def State.serves (s : State) (k : Nat) (c : Crew) : Bool :=
  match (s.core c.core).run with
  | some r => r.stop.ofGang && !r.resolved && ((s.crewGangs k).map (·.slot)).contains r.stop.agent
  | none => false

/-- A stop of a gang of the crew. -/
def State.ownsStop (s : State) (k : Nat) (x : Stop) : Bool := x.ofGang && ((s.crewGangs k).map (·.slot)).contains x.agent

/-- The stops that are saved with a crew, the one being served first. -/
def State.stopsOf (s : State) (k : Nat) (c : Crew) : List Stop :=
  (match (s.core c.core).run with | some r => if s.serves k c then [r.stop] else [] | none => []) ++ (s.core c.core).stops.filter (s.ownsStop k)

/-- A crew with its save image. -/
def State.imageOf (s : State) (k : Nat) (c : Crew) : Crew :=
  { c with
    stat := .saved, saved := ((s.crewGangs k).filter (fun g => g.stat != .ended)).map Gang.toSave
    savedCtx := (s.ctxs.filter (fun x => x.2.crew == k)).map (fun x => { x.2 with park := none }), savedStops := s.stopsOf k c
    savedSlots := s.imageSlots c.core c.launch }

theorem mem_stopsOf {s : State} {k : Nat} {c : Crew} {x : Stop} (hx : x ∈ (s.core c.core).stops) (hgang : x.ofGang = true)
    (hslot : ∃ g ∈ s.crewGangs k, g.slot = x.agent) : x ∈ s.stopsOf k c := by
  refine List.mem_append_right _ (List.mem_filter.mpr ⟨hx, ?_⟩)
  simpa [State.ownsStop, hgang] using hslot

theorem forgetFar_imageKept (s : State) (core : Nat) (slots ctxs : List Nat) : ImageKept s (s.forgetFar core slots ctxs) := ⟨rfl, rfl, rfl, rfl, rfl, rfl⟩
theorem putCore_imageKept (s : State) (core : Nat) (x : Core) : ImageKept s (s.putCore core x) := ⟨rfl, rfl, rfl, rfl, rfl, rfl⟩

/-- The gangs of a saved crew, and what it holds of the handler slot and the copy contexts, are gone. -/
def State.vacated (s : State) (k : Nat) (c : Crew) : State :=
  { s with
    gangs := s.gangs.filter (fun x => !(x.2.crew == k && x.2.slot != 32) && !(s.serves k c && x.1 == gkey c.core 32))
    ctxs := s.ctxs.filter (fun x => x.2.crew != k) }

theorem saveCrew_eq (s : State) (k : Nat) {c : Crew} (hstat : c.stat ≠ .retired) :
    ∃ u, s.saveCrew k c = ((u.putCrew k (s.imageOf k c)).settle c.core).dropLease c.core c.launch ∧ ImageKept (s.vacated k c) u :=
  ⟨_, congrArg (fun d => ((State.putCrew _ k d).settle c.core).dropLease c.core c.launch) (if_neg hstat),
    (forgetFar_imageKept ..).trans (putCore_imageKept ..)⟩

/-- What saving a crew that is not retired does to it, to its gangs and to its copy contexts. -/
theorem saveCrew_image (s : State) (k : Nat) {c : Crew} (hstat : c.stat ≠ .retired) :
    (s.saveCrew k c).mem = s.mem ∧ (s.saveCrew k c).preCrews = s.preCrews ∧ (s.saveCrew k c).preSaved = s.preSaved ∧
      (s.saveCrew k c).crew? k = some (s.imageOf k c) ∧ (s.saveCrew k c).ctxs = (s.vacated k c).ctxs ∧
      (s.saveCrew k c).gangs = (s.vacated k c).gangs := by
  obtain ⟨u, hu, hvacated⟩ := saveCrew_eq s k hstat
  have hkept := (settle_imageKept (u.putCrew k (s.imageOf k c)) c.core).trans (dropLease_imageKept _ c.core c.launch)
  rw [hu]
  refine ⟨hkept.mem.trans hvacated.mem, hkept.preCrews.trans hvacated.preCrews, hkept.preSaved.trans hvacated.preSaved, ?_,
    hkept.ctxs.trans hvacated.ctxs, hkept.gangs.trans hvacated.gangs⟩
  exact (congrArg (Tab.get? · k) hkept.crews).trans (State.crew_putCrew ..)

theorem crewGangs_eq_nil {s t : State} {k : Nat} {p : Nat × Gang → Bool}
    (h : t.gangs = s.gangs.filter (fun x => !(x.2.crew == k && x.2.slot != 32) && p x)) : t.crewGangs k = [] := by
  unfold State.crewGangs State.gangList
  rw [h, List.filter_eq_nil_iff]
  intro g hg
  obtain ⟨x, hx, rfl⟩ := List.mem_map.mp hg
  have hx := (List.mem_filter.mp hx).2
  simp only [Bool.and_eq_true, Bool.not_eq_true'] at hx
  simp [hx.1]

theorem exec_crewSaveComplete {s : State} {k : Nat} {c : Crew} (hs : s.fatal = none) (hc : s.crew? k = some c) (hpre : s.preCrews.contains k = true)
    (hquiet : s.quiet k = true) :
    let v := (s.readCrew k c.core).saveCrew k (((s.readCrew k c.core).crew? k).getD c)
    exec (.crewSaveComplete k) s = .next ({ v with preCrews := v.preCrews.filter (· != k), preSaved := v.preSaved + 1 }.preDone) := by
  show execCrewSaveComplete k s = _
  refine (alive_none hs).trans ?_
  rw [hc]
  exact congrArg Host.Outcome.next (if_pos (by rw [hpre, hquiet]; rfl))

theorem crewSaveComplete_whole {s : State} {k : Nat} {c : Crew} (hs : s.fatal = none) (hc : s.crew? k = some c) (hstat : c.stat ≠ .retired)
    (hpre : s.preCrews.contains k = true) (hquiet : s.quiet k = true) (hwhole : s.poolsWhole = true) :
    ∃ t, exec (.crewSaveComplete k) s = .next t ∧ t.mem = s.mem ∧ t.preCrews = s.preCrews.filter (· != k) ∧ t.preSaved = s.preSaved + 1 ∧
      t.crew? k = some (s.imageOf k c) ∧ t.crewGangs k = [] ∧ t.ctxs.any (fun x => x.2.crew == k) = false := by
  have hexec := exec_crewSaveComplete hs hc hpre hquiet
  rw [readCrew_whole k c.core hwhole, hc, Option.getD_some] at hexec
  obtain ⟨hmem, hcrews, hsaved, himage, hctxs, hgangs⟩ := saveCrew_image s k hstat
  have hkept := preDone_imageKept { s.saveCrew k c with
    preCrews := (s.saveCrew k c).preCrews.filter (· != k), preSaved := (s.saveCrew k c).preSaved + 1 }
  refine ⟨_, hexec, hkept.mem.trans hmem, ?_, ?_, ?_, ?_, ?_⟩
  · exact hkept.preCrews.trans (congrArg (List.filter (· != k)) hcrews)
  · exact hkept.preSaved.trans (congrArg (· + 1) hsaved)
  · exact (congrArg (Tab.get? · k) hkept.crews).trans himage
  · exact crewGangs_eq_nil (hkept.gangs.trans hgangs)
  · rw [hkept.ctxs.trans hctxs, List.any_eq_false]
    intro x hx
    simpa using (List.mem_filter.mp hx).2

end Sys2Proof.Machine
end

section
/-! PROOFS. Restoring the crews of a band (R12, R161, R335). -/
namespace Sys2Proof.Machine

/-- Memory, launches, leases and crews are as they were. -/
structure SameCrews (s t : State) : Prop where
  mem : t.mem = s.mem
  launches : t.launches = s.launches
  leases : t.leases = s.leases
  crews : t.crews = s.crews

theorem SameCrews.trans {s t u : State} (h : SameCrews s t) (h' : SameCrews t u) : SameCrews s u :=
  ⟨h'.mem.trans h.mem, h'.launches.trans h.launches, h'.leases.trans h.leases, h'.crews.trans h.crews⟩

theorem SameCrews.foldl {α : Type} {f : State → α → State} (h : ∀ s a, SameCrews s (f s a)) (l : List α) (s : State) : SameCrews s (l.foldl f s) := by
  induction l generalizing s with
  | nil => exact ⟨rfl, rfl, rfl, rfl⟩
  | cons a l ih => exact (h s a).trans (ih _)

theorem SameCrews.launch {s t : State} (h : SameCrews s t) (k : Nat) : t.launch? k = s.launch? k := by simp [State.launch?, h.launches]
theorem SameCrews.lease {s t : State} (h : SameCrews s t) (c k : Nat) : t.lease? c k = s.lease? c k := by simp [State.lease?, h.leases]
theorem SameCrews.crew {s t : State} (h : SameCrews s t) (k : Nat) : t.crew? k = s.crew? k := by simp [State.crew?, h.crews]

theorem putGang_sameCrews (s : State) (g : Gang) : SameCrews s (s.putGang g) := ⟨rfl, rfl, rfl, rfl⟩
theorem modCore_sameCrews (s : State) (core : Nat) (f : Core → Core) : SameCrews s (s.modCore core f) := ⟨rfl, rfl, rfl, rfl⟩
theorem putCtx_sameCrews (s : State) (core ctx : Nat) (c : CopyCtx) : SameCrews s (s.putCtx core ctx c) := ⟨rfl, rfl, rfl, rfl⟩

/-- A crew back on a core: nothing is left of its save image. -/
def State.backed (s : State) (c : Crew) (core : Nat) : Crew :=
  { c with core := core, stat := .running, planes := s.reloadPlanes c core, saved := [], savedCtx := [], savedSlots := [], refilled := [], savedStops := [] }

/-- Where its launch has a lease already, a crew that comes back brings no slots. -/
theorem backCrew_leased {s : State} {k core : Nat} {c : Crew} (p : Packet) (h : (s.lease? core c.launch).isSome = true) :
    SameCrews (s.putCrew k ((s.takePart core p.part).backed c core)) (s.backCrew k c p core) := by
  have hlease : (s.takePart core p.part).allotLease core c.launch p.tlease = s.takePart core p.part := if_pos h
  unfold State.backCrew
  simp only [h, hlease, if_true]
  refine SameCrews.trans ?_ (modCore_sameCrews ..)
  refine SameCrews.trans ?_ (SameCrews.foldl (fun s (y : CopyCtx × Nat) => putCtx_sameCrews s core y.2 _) _ _)
  exact SameCrews.trans (t := (s.takePart core p.part).putCrew k _) ⟨rfl, rfl, rfl, rfl⟩
    (SameCrews.foldl (fun s (y : Nat × Gang) => putGang_sameCrews s y.2) _ _)

/-- A crew of a plan can go back to its core at once: its launch has a lease there. -/
def CanReturn (s : State) (x : Nat × Nat) : Prop :=
  ∃ d l, s.crew? x.1 = some d ∧ s.launch? d.launch = some l ∧ (s.lease? x.2 d.launch).isSome = true

/-- One crew of a plan goes back. -/
def State.returnOne (s : State) (x : Nat × Nat) : State :=
  match s.crew? x.1 with
  | some c => (match s.launch? c.launch with | some l => s.backCrew x.1 c l.pkt x.2 | none => s)
  | none => s

/-- The crew `v` on this core is the saved crew `d`, and runs. -/
def Returned (core : Nat) (d v : Crew) : Prop :=
  v.core = core ∧ v.stat = .running ∧ v.scratch = d.scratch ∧ v.effects = d.effects ∧ v.tiles = d.tiles ∧ v.bar = d.bar

theorem returnOne_sameCrews {s : State} {x : Nat × Nat} (h : CanReturn s x) :
    ∃ d v, s.crew? x.1 = some d ∧ Returned x.2 d v ∧ SameCrews (s.putCrew x.1 v) (s.returnOne x) := by
  obtain ⟨d, l, hd, hl, hlease⟩ := h
  refine ⟨d, (s.takePart x.2 l.pkt.part).backed d x.2, hd, ⟨rfl, rfl, rfl, rfl, rfl, rfl⟩, ?_⟩
  unfold State.returnOne
  simp only [hd, hl]
  exact backCrew_leased l.pkt hlease

theorem CanReturn.of_putCrew {s t : State} {k : Nat} {v : Crew} {x : Nat × Nat} (ht : SameCrews (s.putCrew k v) t) (hx : x.1 ≠ k) (h : CanReturn s x) :
    CanReturn t x := by
  obtain ⟨d, l, hd, hl, hlease⟩ := h
  refine ⟨d, l, ?_, (ht.launch _).trans hl, ?_⟩
  · rw [ht.crew, State.crew_putCrew_of_ne _ _ hx, hd]
  · rw [ht.lease]
    exact hlease

/-- The crews of a plan go back one after another, and each comes out as it was saved. -/
theorem foldl_returnOne {s : State} {plan : List (Nat × Nat)} (hkeys : (plan.map (·.1)).Nodup) (h : ∀ x ∈ plan, CanReturn s x) :
    (plan.foldl State.returnOne s).mem = s.mem ∧ (∀ k ∉ plan.map (·.1), (plan.foldl State.returnOne s).crew? k = s.crew? k) ∧
      ∀ x ∈ plan, ∃ d v, s.crew? x.1 = some d ∧ (plan.foldl State.returnOne s).crew? x.1 = some v ∧ Returned x.2 d v := by
  induction plan generalizing s with
  | nil => exact ⟨rfl, fun _ _ => rfl, by simp⟩
  | cons y r ih =>
    rw [List.map_cons, List.nodup_cons] at hkeys
    rw [List.forall_mem_cons] at h
    obtain ⟨hy, hr⟩ := h
    have hne (x : Nat × Nat) (hx : x ∈ r) : x.1 ≠ y.1 := fun e => hkeys.1 (e ▸ List.mem_map_of_mem hx)
    obtain ⟨d, v, hd, hv, hsame⟩ := returnOne_sameCrews hy
    obtain ⟨hmem, hothers, hback⟩ := ih hkeys.2 (fun x hx => (hr x hx).of_putCrew hsame (hne x hx))
    rw [List.foldl_cons]
    refine ⟨hmem.trans hsame.mem, fun k hk => ?_, List.forall_mem_cons.mpr ⟨⟨d, v, hd, ?_, hv⟩, fun x hx => ?_⟩⟩
    · rw [List.map_cons, List.mem_cons, not_or] at hk
      rw [hothers k hk.2, hsame.crew, State.crew_putCrew_of_ne _ _ hk.1]
    · rw [hothers _ hkeys.1, hsame.crew, State.crew_putCrew]
    · obtain ⟨d', v', hd', hrest⟩ := hback x hx
      rw [hsame.crew, State.crew_putCrew_of_ne _ _ (hne x hx)] at hd'
      exact ⟨d', v', hd', hrest⟩

/-- A plan for cores where the launch has leases needs no refetch. -/
theorem restorePlan_leased {s : State} (plan : List (Nat × Nat)) (leased : List Nat) {l : List (Nat × Nat)} (h : ∀ x ∈ l, CanReturn s x) :
    s.restorePlan plan leased l = .done (plan.foldl State.returnOne s) := by
  induction l with
  | nil => rfl
  | cons x r ih =>
    rw [List.forall_mem_cons] at h
    obtain ⟨⟨d, -, hd, -, hlease⟩, hr⟩ := h
    unfold State.restorePlan
    simp only [hd, hlease, Bool.true_or, if_true]
    exact ih hr

theorem State.backOne_some {s t : State} {k cluster core : Nat} (h : s.backOne k cluster = some (t, core)) :
    ∃ c l, s.crew? k = some c ∧ s.launch? c.launch = some l ∧ core / 64 = cluster ∧ t = s.backCrew k c l.pkt core := by
  unfold State.backOne at h
  split at h
  · cases h
  · next c hc =>
    split at h
    · cases h
    · next l hl =>
      obtain ⟨core', hcore, heq⟩ := Option.map_eq_some_iff.mp h
      obtain ⟨rfl, rfl⟩ := Prod.ext_iff.mp heq
      obtain ⟨i, hi, rfl⟩ := List.mem_map.mp (List.mem_of_find?_eq_some hcore)
      exact ⟨c, l, hc, hl, by have := List.mem_range.mp hi; dsimp only; omega, rfl⟩

/-- Each crew of a plan is a crew of a launch that is there, and goes to the plan's cluster; `t` is the state in which the crews before those of `keys`
have gone back. -/
theorem planBand_canReturn {s t : State} {cluster : Nat} {keys : List Nat} {plan : List (Nat × Nat)} (hplan : t.planBand cluster keys = some plan)
    (hkeys : (plan.map (·.1)).Nodup) (hlease : ∀ x ∈ plan, ∀ d, s.crew? x.1 = some d → (s.lease? x.2 d.launch).isSome = true)
    (hlaunches : t.launches = s.launches) (hleases : t.leases = s.leases) (hcrews : ∀ x ∈ plan, t.crew? x.1 = s.crew? x.1) :
    ∀ x ∈ plan, x.2 / 64 = cluster ∧ CanReturn s x := by
  induction keys generalizing t plan with
  | nil =>
    obtain rfl : [] = plan := by simpa [State.planBand] using hplan
    simp
  | cons k r ih =>
    unfold State.planBand at hplan
    split at hplan
    · cases hplan
    · next u core hback =>
      obtain ⟨rest, hrest, rfl⟩ := Option.map_eq_some_iff.mp hplan
      obtain ⟨c, l, hc, hl, hcluster, rfl⟩ := State.backOne_some hback
      rw [List.map_cons, List.nodup_cons] at hkeys
      rw [List.forall_mem_cons] at hlease hcrews
      have hcs : s.crew? k = some c := hcrews.1 ▸ hc
      have hls : s.launch? c.launch = some l := by rwa [State.launch?, ← hlaunches]
      have hcore : (s.lease? core c.launch).isSome = true := hlease.1 c hcs
      have hcoret : (t.lease? core c.launch).isSome = true := by rwa [State.lease?, hleases]
      have hsame := backCrew_leased (k := k) l.pkt hcoret
      refine List.forall_mem_cons.mpr ⟨⟨hcluster, c, l, hcs, hls, hcore⟩, ?_⟩
      refine ih hrest hkeys.2 hlease.2 (hsame.launches.trans hlaunches) (hsame.leases.trans hleases) (fun x hx => ?_)
      have hne : x.1 ≠ k := fun e => hkeys.1 (List.mem_map.mpr ⟨x, hx, e⟩)
      rw [hsame.crew, State.crew_putCrew_of_ne _ _ hne]
      exact hcrews.2 x hx

theorem exists_of_firstSome {α β : Type} {f : α → Option β} {l : List α} {y : β} (h : firstSome f l = some y) : ∃ x ∈ l, f x = some y := by
  induction l with
  | nil => cases h
  | cons x r ih =>
    unfold firstSome at h
    split at h
    · next z hz => exact ⟨x, by simp, hz.trans h⟩
    · obtain ⟨x', hx', hy⟩ := ih h
      exact ⟨x', by simp [hx'], hy⟩

theorem State.bandPlan_some {s : State} {c : Crew} {plan : List (Nat × Nat)} (h : s.bandPlan c = some plan) :
    ∃ cluster keys, s.planBand cluster keys = some plan := by
  unfold State.bandPlan at h
  split at h
  · cases h
  · obtain ⟨cluster, -, hc⟩ := exists_of_firstSome h
    exact ⟨cluster, _, hc⟩

theorem exec_crewRestore {s : State} {k : Nat} {c : Crew} {plan : List (Nat × Nat)} (hs : s.fatal = none) (hc : s.crew? k = some c)
    (hstat : c.stat = .saved) (hplan : s.bandPlan c = some plan) (h : ∀ x ∈ plan, CanReturn s x) :
    exec (.crewRestore k) s = .next (plan.foldl State.returnOne s) := by
  show execCrewRestore k s = _
  refine (alive_none hs).trans ?_
  simp [hc, hstat, hplan, restorePlan_leased plan [] h]

end Sys2Proof.Machine
end

section
/-! PROOFS. The rows of crews together (O43). -/
namespace Sys2Proof.Machine

theorem exec_admitBand {s : State} (hs : s.fatal = none) : exec .admitBand s = .next s.admitStep := alive_none hs

theorem State.mayRetire_of {s : State} {k : Nat} {c : Crew} (hstat : c.stat = .running) (hlive : c.live = 0)
    (hctx : s.ctxs.any (fun x => x.2.crew == k) = false) (hstream : (s.core c.core).streams.any (fun x => x.crew == k) = false)
    (hgangs : ((s.launch? c.launch).map (·.pkt.mode)).getD 0 ≠ 0 → s.crewGangs k = []) : s.mayRetire k c = true := by
  have hout : (((s.launch? c.launch).map (·.pkt.mode)).getD 0 == 0 || (s.crewGangs k).isEmpty) = true := by
    by_cases h : ((s.launch? c.launch).map (·.pkt.mode)).getD 0 = 0
    · simp [h]
    · simp [hgangs h]
  unfold State.mayRetire
  rw [hstat, hlive, hctx, hstream, hout]
  rfl

/-- A retirement leaves the gangs, and the crew as its own part of it leaves it. -/
theorem retireCrew_gangs {s : State} {k : Nat} {c : Crew} (hc : c.afterLowest = false) :
    (s.retireCrew k c).gangs = s.gangs ∧ ∃ d, (s.retireCrew k c).crew? k = some d ∧ d.afterLowest = false := by
  by_cases hmode : ((s.launch? c.launch).map (·.pkt.mode)).getD 0 = 0
  · rw [retireCrew_free hmode]
    exact ⟨rfl, _, State.crew_putCrew .., hc⟩
  · obtain ⟨l, hl⟩ : ∃ l, s.launch? c.launch = some l := by
      cases h : s.launch? c.launch with
      | none => simp [h] at hmode
      | some l => exact ⟨l, rfl⟩
    have hmode : l.pkt.mode ≠ 0 := by simpa [hl] using hmode
    by_cases h : s.commitsNext k c = true ∨ l.pkt.loglen < s.logUsed c.launch - c.inLog + effBytes c.effects
    · obtain ⟨hgangs, hcrew, -⟩ := retireCrew_kept hl hmode h
      exact ⟨hgangs, _, hcrew, hc⟩
    · rw [not_or, Bool.not_eq_true, Nat.not_lt] at h
      obtain ⟨hgangs, f, hcrew, -⟩ := retireCrew_moved hl hmode h.1 h.2
      exact ⟨hgangs, _, hcrew, hc⟩

/-- Settles O43: each row by its own lemma. -/
theorem crewRows : Obligations.CrewRows := by
  unfold Obligations.CrewRows
  intro s k hs
  refine ⟨s.fits_iff k, ?admission, ?restoring, ?shut, ?blocking, ?retire, ?commit, fun c n => commitCrew_upTo s k n c, s.commitWaits_iff k, ?save, ?saved,
    fun g => ⟨rfl, rfl, rfl, rfl, rfl, rfl, rfl, rfl, rfl, rfl, rfl, rfl, rfl, rfl⟩, ?restore,
    fun c core slot h g => ⟨rfl, rfl, rfl, rfl, rfl, rfl, rfl, rfl, rfl, rfl, rfl, rfl, rfl, rfl, rfl⟩⟩
  case admission =>
    intro l a b hr hsplit hl hopen ha hb
    have hadmits (t : State) (ht : s.admitNext k = some t) : exec .admitBand s = .next t := by
      rw [exec_admitBand hs, admitStep_admits hr hsplit hopen ha hb ht]
    refine ⟨hadmits, fun hdone hover hmode hco hre hband cluster u hc hbefore hu => ?_⟩
    obtain ⟨hlaunch, hmem, hcrews⟩ := placeBand_admitted (since := l.pendingSince) hl hu
    exact ⟨_, hadmits _ (admitNext_band hl hdone hover hmode hco hre hband hc hbefore hu), hlaunch, hmem, hcrews⟩
  case restoring =>
    intro hr
    rw [exec_admitBand hs]
    simp [State.admitStep, hr]
  case shut =>
    intro hshut
    rw [exec_admitBand hs, admitStep_shutOut hshut]
  case blocking =>
    refine ⟨_, exec_bandBlocking hs, rfl, rfl, fun l hl hdone hover hwait => ?_⟩
    refine (Tab.get?_map s.launches s.blocked k).trans ?_
    rw [show Tab.get? s.launches k = some l from hl, Option.map_some, State.blocked_of_waited hdone hover hwait]
  case retire =>
    intro c hc hstat hlive hlow hctx hstream mode hgangs
    obtain ⟨hretgangs, d, hd, hdlow⟩ := retireCrew_gangs (s := s) (k := k) hlow
    have hkept := retire_crewKept hd hdlow
    refine ⟨_, exec_crewRetire hs hc (State.mayRetire_of hstat hlive hctx hstream hgangs), hkept.gangs.trans hretgangs, fun hfree => ?_,
      fun l hl hmode => ?_⟩
    · rw [hkept.mem, hkept.crew, retireCrew_free hfree]
      exact ⟨rfl, State.crew_putCrew ..⟩
    · have hmode1 : mode = l.pkt.mode := by simp [mode, hl]
      have hmode : l.pkt.mode ≠ 0 := hmode1 ▸ hmode
      rw [hkept.mem, hkept.crew]
      refine ⟨fun h => ?_, fun hnext hroom => ?_, fun hwhole a ha => retireCrew_outside hl hmode hwhole ha⟩
      · obtain ⟨-, hcrew, hlog⟩ := retireCrew_kept hl hmode (h.imp_left (hmode1 ▸ commitsNext_iff hl).mpr)
        exact ⟨hcrew, hlog⟩
      · have hnext : s.commitsNext k c = false := Bool.eq_false_iff.mpr (fun h => hnext ((hmode1 ▸ commitsNext_iff hl).mp h))
        obtain ⟨-, hmoved⟩ := retireCrew_moved hl hmode hnext hroom
        exact hmoved
  case commit =>
    intro l n c hl hmode hhead hc hstat hpre hready
    refine ⟨fun happ hasked hgood => ⟨exec_crewCommit_good hs hl hmode hhead hc hstat hpre hready happ hasked hgood, fun hwhole => ?_⟩,
      exec_crewCommit_begun hs hl hmode hhead hc hstat hpre hready⟩
    exact readEffects_whole n _ ((s.endChecks_poolsWhole k).trans hwhole)
  case save =>
    intro c hc hpre hquiet _
    exact exec_crewSaveComplete hs hc hpre hquiet
  case saved =>
    intro c hc hstat hpre hquiet hwhole
    obtain ⟨t, hexec, hmem, hcrews, hsaved, himage, hgangs, hctxs⟩ := crewSaveComplete_whole hs hc hstat hpre hquiet hwhole
    exact ⟨t, s.stopsOf k c, hexec, hmem, hcrews, hsaved, himage, fun x hx hgang hslot => mem_stopsOf hx hgang hslot, hgangs, hctxs⟩
  case restore =>
    intro c plan hc hstat hplan hkeys hlease
    obtain ⟨cluster, keys, hband⟩ := State.bandPlan_some hplan
    have hback := planBand_canReturn hband hkeys hlease rfl rfl (fun _ _ => rfl)
    obtain ⟨hmem, -, hreturned⟩ := foldl_returnOne hkeys (fun x hx => (hback x hx).2)
    exact ⟨_, cluster, exec_crewRestore hs hc hstat hplan (fun x hx => (hback x hx).2), hmem, fun x hx => ⟨(hback x hx).1, hreturned x hx⟩⟩

end Sys2Proof.Machine
end

section
/-! PROOFS. The scalar rows with SDIV (R113 to R116), and the special registers (R120, R121, R195, R242). -/
namespace Sys2Proof.Machine

/- SDIV -/

/-- The remainder that the instruction computes from its quotient is the one that takes the dividend's sign (R116). -/
theorem divInt_eq_divRow (t : Fmt) (rem : Bool) (x y : Int) : divInt t rem x y = divRow t rem x y := by
  have hrem : x - x.tdiv y * y = x.tmod y := by rw [Int.tmod_def, Int.mul_comm]
  simp only [divInt, divRow, hrem]

/-- Settles O1: a row of fixed latency by its own lemma, SDIV by its quotient and remainder. -/
theorem scalarRowsComplete : Obligations.ScalarRowsComplete := by
  refine ⟨fun i s g d x hi hr => exec_scalarRow hi hr, fun h rem t d a b s g hi => ?_⟩
  simp only [← divInt_eq_divRow]
  exact runGang_ok hi rfl rfl

/- What an instruction can come to besides -/

/-- An instruction that issues and leaves nothing of its gang to update. -/
theorem runGang_gone {i : Instr} {s t : State} {g : Gang} {bad : State → Gang → Bool} {body : State → Gang → LaneMask → Res} (hi : Issues i s g)
    (hb : bad s g = false) (hr : body s g (g.active (shape i)) = .gone t) : runGang i s bad body = .next t := by
  rw [runGang_eq hi hb, hr]
  rfl

/-- An instruction that is illegal where it stands stops its gang before it does anything (R64). -/
theorem runGang_illegal {i : Instr} {s : State} {g : Gang} {bad : State → Gang → Bool} {body : State → Gang → LaneMask → Res} (hi : Issues i s g)
    (hb : bad s g = true) :
    runGang i s bad body = .next (s.takeStop g 1 (illegalDetail i) (wordsInfo i) (g.active (shape i)) [] g.pc (g.next (shape i))) := by
  have hquiet : s.imprecise g (g.active (shape i)) (g.next (shape i)) = none := by simp only [State.imprecise, hi.noFailed]
  simp only [runGang, hi.here, hi.placed, mayIssue_of hi, issue, Nat.not_lt.mpr hi.turn, hquiet, hb, if_true, if_false]

/- `$rmode` -/

theorem rmodeBad_eq_decide (x : DWord) : rmodeBad x = decide (5 ≤ x.toNat % 8) := by
  simp only [rmodeBad, BitVec.extractLsb'_toNat, Nat.shiftRight_zero, Nat.reducePow]

theorem rmodeOf_eq_ofNat (x : DWord) : rmodeOf x = BitVec.ofNat 32 (x.toNat % 512) := by
  apply BitVec.eq_of_toNat_eq
  simp only [rmodeOf, BitVec.toNat_setWidth, BitVec.extractLsb'_toNat, Nat.shiftRight_zero, BitVec.toNat_ofNat, Nat.reducePow]

/- `$key` -/

/-- What of the gang's `$key` a SETSR that may write it leaves, when no live active lane consumes poison. -/
theorem setsrBody_key {h : VH} {a : VSrc} {s : State} {g : Gang} {act : LaneMask}
    (hmay : (if g.isHandler then s.hpriv g else ((s.launch? g.launch).map (·.pkt.keyset)).getD false) = true)
    (hc : g.CleanIn (g.live act) (srcRegs .b32 a)) :
    let v : Gang := { g with key := (bitsOn (g.live act)).foldl (fun k j => Store.set k j (BitVec.ofNat 32 (s.vsrc g h.lit .b32 a j))) g.key }
    setsrBody h .key a s g act = .ok s (if g.live act = BitVec.allOnes 64 then v.spClean .key else v) := by
  refine (if_neg (by rw [hmay]; decide)).trans ?_
  cases a with
  | v n => simp only [badLanes_clean (regs := [n.toNat]) hc, consume_none (live_zero g)]
  | s x => simp only [badLanes_clean (regs := []) hc, consume_none (live_zero g)]

theorem setsrBody_key_denied {h : VH} {a : VSrc} {s : State} {g : Gang} {act : LaneMask}
    (hmay : (if g.isHandler then s.hpriv g else ((s.launch? g.launch).map (·.pkt.keyset)).getD false) = false) :
    setsrBody h .key a s g act = .trap 10 := by
  simp only [setsrBody, hmay, Bool.not_false, if_true]

/- GETSR -/

/-- Settles O10: GETSR by the branches of its body, in their order, and SETSR by register. -/
theorem specialRegisterRows : Obligations.SpecialRegisterRows := by
  refine ⟨fun s g st h d r x a => ⟨?busy, ?pending, ?settled, ?rmode, ?deny, ?key, ?chan⟩, fun s g h x a => ⟨?chanDenied, ?keyDenied, ?rmodeIllegal⟩⟩
  case busy =>
    intro hi hbusy
    exact runGang_wait hi rfl (by simp [hbusy])
  case pending =>
    intro hi hbusy hpend
    exact runGang_gone hi rfl (by simp [hbusy, hpend])
  case settled =>
    intro hi hbusy hpend
    have hdue : g.pend.any (fun p => decide (s.cyc g.core < p.readyAt)) = false := any_false fun p hp => decide_eq_false (Nat.not_lt.mpr (hpend p hp))
    refine ⟨fun hfar => ?far, fun hfar hr hrows => ?rows, fun hfar hrows => ?reads⟩
    case far => exact runGang_wait hi rfl (by simp [hbusy, hdue, hfar])
    case rows => exact runGang_wait hi rfl (by simp [hbusy, hdue, hfar, hr, hrows])
    case reads => exact runGang_ok hi rfl (by simpa [hbusy, hdue, hfar] using hrows)
  case rmode =>
    intro i hi hx
    rw [← rmodeOf_eq_ofNat]
    exact runGang_ok hi ((rmodeBad_eq_decide _).trans (decide_eq_false (Nat.not_le.mpr hx))) rfl
  case deny => exact fun hi => runGang_ok hi rfl rfl
  case key => exact fun hi hmay hc => runGang_ok hi rfl (setsrBody_key hmay hc)
  case chan => exact fun hi hh hp => runGang_ok hi rfl (by simp only [setsrBody, hh, hp, Bool.and_self, if_true])
  case chanDenied => exact fun hi hp => runGang_trap hi rfl (by simp only [setsrBody, hp, Bool.false_eq_true, if_false])
  case keyDenied => exact fun hi hmay => runGang_trap hi rfl (setsrBody_key_denied hmay)
  case rmodeIllegal => exact fun hi hx => runGang_illegal hi ((rmodeBad_eq_decide _).trans (decide_eq_true hx))

end Sys2Proof.Machine
end

section
/-! PROOFS. The copy engine (R249, R261 to R264): context grants, a scratch row to its end, and the completion of a post. -/
namespace Sys2Proof.Machine

/-- A span of scratch at a multiple of 4 and within the allocation is good (R261). -/
theorem badSpan_scratch {s : State} {crew n a : Nat} (ha : a % 4 = 0) (hend : a + n ≤ s.scratchOf crew) : s.badSpan crew n (.scratch a) = false := by
  simp only [State.badSpan, Bool.or_eq_false_iff, decide_eq_false_iff_not, bne_eq_false_iff_eq]
  omega

section
variable {s : State} {core ix a b : Nat} {c : CopyCtx} {r : Row} (hsrc : r.src = .scratch a) (hdst : r.dst = .scratch b) (hfail : r.fail = none)
  (hver : r.versioned = none) (ha : s.badSpan c.crew r.len (.scratch a) = false) (hb : s.badSpan c.crew r.len (.scratch b) = false)
include hsrc hdst hfail hver ha hb

/-- A scratch to scratch row whose source has still to be read ends with the bytes read, its source's rows being read first where a bank is marked failed (R107). -/
theorem runRow_scratch_unread (hread : r.read = none) :
    let u := s.readRows core (if s.poolsWhole then [] else scratchRows c.crew [(a, r.len)])
    s.runRow core ix c r = (u.scratchWrite c.crew b (u.scratchRead c.crew a r.len)).endRow core ix c r none false := by
  simp [State.runRow, State.gotRow, State.placeRow, hsrc, hdst, hfail, hver, ha, hb, hread]

/-- One that has read its source ends with what it has read. -/
theorem runRow_scratch_read {x : List PByte} (hread : r.read = some (x, false)) :
    s.runRow core ix c r = (s.scratchWrite c.crew b x).endRow core ix c r none false := by
  simp [State.runRow, State.gotRow, State.placeRow, hsrc, hdst, hfail, hver, ha, hb, hread]

end

/- The rows of the engine -/

/-- The oldest gang whose post waits is granted a free context (R249). -/
theorem exec_copyContextGrant {s : State} {core : BitVec 9} {g : Gang} (hs : s.fatal = none)
    (hfirst : ((s.coreGangs core.toNat).filter (fun g => g.stat == .waiting .context)).find? (fun g =>
      ((s.coreGangs core.toNat).filter (fun g => g.stat == .waiting .context)).all (fun o => decide (g.age ≤ o.age))) = some g)
    (hfree : ((s.coreGangs core.toNat).filter (·.granted)).length <
      ((List.range Config.contexts).filter (fun c => (s.ctx? core.toNat c).isNone)).length) :
    exec (.copyContextGrant core) s = .next (s.putGang { g with granted := true, stat := .ready }) := by
  show execCopyContextGrant core s = _
  refine (alive_none hs).trans ?_
  simp only [hfirst, hfree, if_true, Gang.ready]

section
variable {s : State} {core : BitVec 9} {ix : BitVec 4} {c : CopyCtx} (hs : s.fatal = none) (hc : s.ctx? core.toNat ix.toNat = some c)
  (hfar : s.ctxFar core.toNat ix.toNat = false)
include hs hc hfar

/-- The oldest row of a context moves on. -/
theorem exec_copyRowComplete {r : Row} {l : List Row} (hrows : c.rows = r :: l) (hpark : c.park = none) :
    exec (.copyRowComplete core ix) s = .next (s.runRow core.toNat ix.toNat c r) := by
  show execCopyRowComplete core ix s = _
  refine (alive_none hs).trans ?_
  simp only [hc, hrows, hpark, hfar, Bool.false_eq_true, if_false]

/-- A context that has issued all and whose rows have ended is free, and its post is complete. -/
theorem exec_copyPostComplete (hstat : c.stat = .draining) (hrows : c.rows = []) :
    exec (.copyPostComplete core ix) s = .next ((s.dropCtx core.toNat ix.toNat).opDone core.toNat c.slot c.op) := by
  show execCopyPostComplete core ix s = _
  refine (alive_none hs).trans ?_
  simp only [hc, hstat, hrows, hfar, List.isEmpty_nil, Bool.not_false, and_self, if_true]

end

/-- Settles O47: a clause for each row of the engine, and the scratch to scratch row by whether it has read its source. -/
theorem copyEngineRows : Obligations.CopyEngineRows := by
  intro s core ix c r g l hs
  refine ⟨fun hfirst hfree => exec_copyContextGrant hs hfirst hfree, fun hc hrows hpark hfar => ⟨exec_copyRowComplete hs hc hfar hrows hpark, ?scratch⟩,
    fun hc hstat hrows hfar => exec_copyPostComplete hs hc hfar hstat hrows⟩
  case scratch =>
    intro a b hsrc hdst hfail hver ha hb haend hbend
    have hgoodSrc := badSpan_scratch ha haend
    have hgoodDst := badSpan_scratch hb hbend
    exact ⟨runRow_scratch_unread hsrc hdst hfail hver hgoodSrc hgoodDst, fun x => runRow_scratch_read hsrc hdst hfail hver hgoodSrc hgoodDst⟩

end Sys2Proof.Machine
end

section
/-! PROOFS. Fatal errors (R361): what the mailbox has still to look at stays. -/
namespace Sys2Proof.Machine

/-- A dump area with no room for the header holds no dump (R363). -/
theorem State.dump_of_short {s : State} (code : Nat) (h : s.dumpLen < 32) : s.dump code = s := if_pos h

/-- The module after reset, with a module reset submitted that the mailbox has still to look at. -/
def resetSubmitted : State := { State.reset with submitted := [.moduleReset] }

theorem exec_fatalError_resetSubmitted : exec (.fatalError 1) resetSubmitted = .next (resetSubmitted.fatalStop 1) := rfl

theorem fatalStop_resetSubmitted : (resetSubmitted.fatalStop 1).submitted = [.moduleReset] := by
  simp only [State.fatalStop, State.dump_of_short (s := resetSubmitted) 1 (by decide)]
  rfl

/-- Refutes O50: where no module reset stands on the agenda, its clause on a fatal error asks that the module be frozen, which asks besides that none has been
submitted. A fatal error leaves the submitted records as they are, so after `resetSubmitted` has one, a module reset is still to happen. -/
theorem not_upsetRows : ¬ Obligations.UpsetRows := by
  intro h
  obtain ⟨-, -, -, -, -, hfatal, -⟩ := h resetSubmitted 0 [] 0 1 rfl
  obtain ⟨t, hexec, -, -, -, hfrozen⟩ := hfatal (by decide) (by decide)
  obtain rfl : resetSubmitted.fatalStop 1 = t := by
    rw [exec_fatalError_resetSubmitted] at hexec
    exact Host.Outcome.next.inj hexec
  obtain ⟨-, -, hnone⟩ := hfrozen List.not_mem_nil
  rw [fatalStop_resetSubmitted] at hnone
  exact hnone List.mem_cons_self

end Sys2Proof.Machine
end

section
/-! PROOFS. The destinations of the vector rows in their shapes (R56, R127). -/
namespace Sys2Proof
namespace Shape

/- Builders: a source adds no destination -/

variable (sh : Shape)

@[simp] theorem writes_ofVH (opc : BitVec 7) (xop : Nat) (h : VH) : (ofVH opc xop h).writes = [] := rfl
@[simp] theorem writes_aV (x : VSrc) (n : Nat) : (sh.aV x n).writes = sh.writes := by cases x <;> rfl
@[simp] theorem writes_bV (x : VSrc) (n : Nat) : (sh.bV x n).writes = sh.writes := by cases x <;> rfl
@[simp] theorem writes_cV (x : VSrc) (n : Nat) : (sh.cV x n).writes = sh.writes := by cases x <;> rfl
@[simp] theorem writes_bS (x : Sc) : (sh.bS x).writes = sh.writes := rfl
@[simp] theorem writes_cS (x : Sc) : (sh.cS x).writes = sh.writes := rfl
@[simp] theorem writes_cM (m : BitVec 4) : (sh.cM m).writes = sh.writes := rfl
@[simp] theorem writes_f (t : Fmt) : (sh.f t).writes = sh.writes := rfl
@[simp] theorem writes_r (x : Rnd) : (sh.r x).writes = sh.writes := rfl
@[simp] theorem writes_use (x : SpReg) : (sh.use x).writes = sh.writes := rfl
@[simp] theorem writes_late (n : Nat) : (sh.late n).writes = sh.writes := rfl
@[simp] theorem writes_word2 (w : Word) : (sh.word2 w).writes = sh.writes := rfl
@[simp] theorem writes_dV (d : BitVec 8) (n : Nat) : (sh.dV d n).writes = sh.writes ++ vRange d.toNat n := rfl

/- Rows of one shape -/

@[simp] theorem writes_lane1 (opc : BitVec 7) (xop : Nat) (h : VH) (t : Fmt) (d : BitVec 8) (a : VSrc) :
    (lane1 opc xop h t d a).writes = vRange d.toNat (regsOf t) := by simp [lane1]
@[simp] theorem writes_lane2 (opc : BitVec 7) (xop : Nat) (h : VH) (t : Fmt) (d : BitVec 8) (a b : VSrc) :
    (lane2 opc xop h t d a b).writes = vRange d.toNat (regsOf t) := by simp [lane2]
@[simp] theorem writes_lane3 (opc : BitVec 7) (h : VH) (t : Fmt) (d : BitVec 8) (a b c : VSrc) :
    (lane3 opc h t d a b c).writes = vRange d.toNat (regsOf t) := by simp [lane3]

/- Register ranges -/

theorem mem_vRange {d m j : Nat} (hj : j < m) : Ref.v (d + j) ∈ vRange d m := List.mem_map.mpr ⟨j, List.mem_range.mpr hj, rfl⟩

theorem vRange_subset (d : Nat) {m n : Nat} (h : m ≤ n) : vRange d m ⊆ vRange d n := List.map_subset _ (List.range_subset.mpr h)

theorem vRange_ne_nil (d : Nat) {n : Nat} (h : 0 < n) : vRange d n ≠ [] := by simp [vRange, Nat.pos_iff_ne_zero.mp h]

theorem one_le_regsOf (t : Fmt) : 1 ≤ regsOf t := by
  unfold regsOf
  split <;> decide

/-- A default type of 32 bits leaves the number of registers as it is. -/
theorem regsOf_or {t u : Fmt} (hu : u.is64 = false) : regsOf (t.or u) = regsOf t := by
  cases t
  case dflt => exact if_neg (by simp [Fmt.or, hu])
  all_goals rfl

end Shape
end Sys2Proof
end

section
/-! PROOFS. The vector integer and floating-point rows (R129 to R140): what they write when no lane raises, and what they leave alone. -/
namespace Sys2Proof.Machine

/- An instruction whose body computes a lane row, in a state where no lane consumes poison and none raises -/

section
variable {i : Instr} {s : State} {g : Gang} {r : LaneRow} {bad : State → Gang → Bool} {body : State → Gang → LaneMask → Res}
  {regs : List Nat} {f : State → Gang → Nat → Nat × Nat} {put : Gang → List (Nat × Nat) → Gang}
  (hi : Issues i s g) (hc : g.CleanIn (g.acting i) r.regs) (hq : r.quiet (g.acting i)) (hb : bad s g = false)
include hi hc hq hb

/-- A row of fixed latency: its live active lanes take its results. -/
theorem runGang_row (hbody : body s g (g.active (shape i)) = lanewise regs f put s g (g.active (shape i))) (hregs : regs = r.regs)
    (hf : ∀ k, f s g k = r.res k) (hp : ∀ l, put g l = l.foldl (fun h x => r.put h x.1 x.2) g) :
    runGang i s bad body = .next (s.completes i g s (r.write (g.acting i) g)) := by
  subst hregs
  exact runGang_ok hi hb (hbody.trans (row_quiet hf hp hc hq))

/-- A row whose results arrive late: besides, their dependants wait for them. -/
theorem runGang_lateRow {refs : List Ref}
    (hbody : body s g (g.active (shape i)) = lateRes refs (lanewise regs f put s g (g.active (shape i)))) (hregs : regs = r.regs)
    (hf : ∀ k, f s g k = r.res k) (hp : ∀ l, put g l = l.foldl (fun h x => r.put h x.1 x.2) g) :
    let y := s.late (r.write (g.acting i) g) refs
    runGang i s bad body = .next (s.completes i g y.1 y.2) := by
  subst hregs
  exact runGang_ok hi hb (hbody.trans (congrArg (lateRes refs) (row_quiet hf hp hc hq)))

end

/-- Every vector integer row computes its lane row. -/
theorem exec_intRow {i : Instr} {s : State} {g : Gang} {r : LaneRow} (hi : Issues i s g) (hr : intRow s g i = some r)
    (hc : g.CleanIn (g.acting i) r.regs) : exec i s = .next (s.completes i g s (r.write (g.acting i) g)) := by
  unfold intRow at hr
  split at hr <;> cases hr
  all_goals refine runGang_row hi hc (fun _ _ => rfl) rfl rfl rfl (fun k => ?_) (fun _ => rfl)
  -- VABS, whose body takes the absolute value as a natural number
  case h_15 => simp only [lanesOf, Int.natCast_natAbs]
  all_goals rfl

/-- Every vector floating-point row computes its lane row; FDIV and FSQRT deliver theirs late. -/
theorem exec_fpRow {i : Instr} {s : State} {g : Gang} {r : LaneRow} (hi : Issues i s g) (hr : fpRow s g i = some r)
    (hc : g.CleanIn (g.acting i) r.regs) (hq : r.quiet (g.acting i)) :
    let y := s.withLate (r.write (g.acting i) g) r.late
    exec i s = .next (s.completes i g y.1 y.2) := by
  unfold fpRow at hr
  split at hr
  -- FSGN, by its three forms
  case h_7 =>
    dsimp only at hr
    split at hr <;> cases hr
    all_goals exact runGang_row hi hc hq rfl rfl rfl (fun _ => rfl) (fun _ => rfl)
  -- FDIV and FSQRT
  case h_10 | h_11 =>
    cases hr
    exact runGang_lateRow hi hc hq rfl rfl rfl (fun _ => rfl) (fun _ => rfl)
  all_goals cases hr
  all_goals exact runGang_row hi hc hq rfl rfl rfl (fun _ => rfl) (fun _ => rfl)

/-- Settles O2: no lane of a vector integer row raises. -/
theorem vectorIntegerRowsComplete : Obligations.VectorIntegerRowsComplete :=
  fun _ _ _ _ hi hr hc => exec_intRow hi hr hc

/-- Settles O3: each row computes its lane row, and FDIV and FSQRT deliver it late. -/
theorem vectorFloatRowsComplete : Obligations.VectorFloatRowsComplete :=
  fun _ _ _ _ hi hr hc hq => exec_fpRow hi hr hc hq

/- Frames -/

/-- From `g` to `h` nothing of the gang has changed but vector registers among `refs`, and of those no lane but the ones of `l`. -/
structure Gang.OnlyLanes (refs : List Ref) (l : List Nat) (g h : Gang) : Prop where
  rest : h = { g with v := h.v, vp := h.vp }
  vectors : ∀ n lane, lane < 64 → ¬ (Ref.v n ∈ refs ∧ lane ∈ l) → h.vGet n lane = g.vGet n lane

section
variable {refs : List Ref} {l : List Nat} {g h u : Gang}

theorem Gang.OnlyLanes.refl (g : Gang) : g.OnlyLanes refs l g := ⟨rfl, fun _ _ _ _ => rfl⟩

theorem Gang.OnlyLanes.trans (hgh : g.OnlyLanes refs l h) (hhu : h.OnlyLanes refs l u) : g.OnlyLanes refs l u where
  rest := by rw [hhu.rest, hgh.rest]
  vectors n lane hlane hn := (hhu.vectors n lane hlane hn).trans (hgh.vectors n lane hlane hn)

theorem Gang.OnlyLanes.mono {l' : List Nat} (hgh : g.OnlyLanes refs l h) (hl : l ⊆ l') : g.OnlyLanes refs l' h where
  rest := hgh.rest
  vectors n lane hlane hn := hgh.vectors n lane hlane (fun hm => hn ⟨hm.1, hl hm.2⟩)

/-- A row that writes its own lane each time writes only the lanes it is given. -/
theorem Gang.OnlyLanes.foldl {f : Gang → Nat → Gang} (hf : ∀ k ∈ l, ∀ u : Gang, u.OnlyLanes refs [k] (f u k)) (g : Gang) :
    g.OnlyLanes refs l (l.foldl f g) := by
  induction l generalizing g with
  | nil => exact .refl g
  | cons k l ih =>
    have hfirst : g.OnlyLanes refs (k :: l) (f g k) := (hf k List.mem_cons_self g).mono (by simp)
    exact hfirst.trans ((ih (fun j hj => hf j (List.mem_cons_of_mem k hj)) _).mono (List.subset_cons_self k l))

theorem Gang.OnlyLanes.sameRegs (hgh : g.OnlyLanes refs l h) :
    SameRegs g h (fun _ => False) (fun n lane => 64 ≤ lane ∨ (Ref.v n ∈ refs ∧ lane ∈ l)) (fun _ => False) (fun _ => False) where
  scalars n _ := by rw [hgh.rest]; rfl
  vectors n lane hn := hgh.vectors n lane (Nat.not_le.mp fun hle => hn (.inl hle)) (fun hm => hn (.inr hm))
  masks n _ := by rw [hgh.rest]; rfl
  buffers n _ := by rw [hgh.rest]; rfl

theorem Gang.OnlyLanes.sameSpecials (hgh : g.OnlyLanes refs l h) : SameSpecials g h := by
  rw [hgh.rest]
  exact ⟨rfl, rfl, rfl, rfl, rfl, rfl, rfl, rfl⟩

end

theorem Gang.vSet_onlyLanes {refs : List Ref} {n k : Nat} (hk : k < 64) (hn : Ref.v n ∈ refs) (g : Gang) (x : Nat) (p : Bool) :
    g.OnlyLanes refs [k] (g.vSet n k x p) where
  rest := rfl
  vectors m lane hlane hm := by
    refine g.vGet_vSet_of_ne (fun he => hm ?_) x p
    obtain ⟨rfl, rfl⟩ : m = n ∧ lane = k := by simpa using vkey_inj hk hlane he
    exact ⟨hn, List.mem_singleton_self _⟩

theorem Gang.vPut_onlyLanes {refs : List Ref} {t : Fmt} {d k : Nat} (hrefs : Shape.vRange d (Shape.regsOf t) ⊆ refs) (hk : k < 64) (g : Gang)
    (x : Nat) (p : Bool) : g.OnlyLanes refs [k] (g.vPut t d k x p) := by
  unfold Shape.regsOf at hrefs
  unfold Gang.vPut
  split at hrefs
  case isTrue h =>
    simp only [h, if_true]
    exact (Gang.vSet_onlyLanes hk (hrefs (Shape.mem_vRange (j := 0) (by omega))) g _ p).trans
      (Gang.vSet_onlyLanes hk (hrefs (Shape.mem_vRange (j := 1) (by omega))) _ _ p)
  case isFalse h =>
    simp only [h]
    exact Gang.vSet_onlyLanes hk (hrefs (Shape.mem_vRange (j := 0) (by omega))) g _ p

/-- A vector row writes its own lane of the registers that its instruction names as destinations. -/
theorem intRow_put {i : Instr} {s : State} {g : Gang} {r : LaneRow} (hr : intRow s g i = some r) {k : Nat} (hk : k < 64) (u : Gang) (x : Nat) :
    u.OnlyLanes (shape i).writes [k] (r.put u k x) := by
  unfold intRow at hr
  split at hr <;> cases hr
  all_goals
    refine Gang.vPut_onlyLanes ?_ hk u x false
    delta shape shape?
    simp (disch := decide) [Shape.regsOf_or]

theorem fpRow_put {i : Instr} {s : State} {g : Gang} {r : LaneRow} (hr : fpRow s g i = some r) {k : Nat} (hk : k < 64) (u : Gang) (x : Nat) :
    u.OnlyLanes (shape i).writes [k] (r.put u k x) := by
  unfold fpRow at hr
  split at hr
  -- FSGN, by its three forms
  case h_7 =>
    dsimp only at hr
    split at hr <;> cases hr
    all_goals
      refine Gang.vPut_onlyLanes ?_ hk u x false
      delta shape shape?
      simp (disch := decide) [Shape.regsOf_or]
  all_goals cases hr
  -- FPACK.pack, which writes its word as it stands, and FPACK.unpack
  case h_13 =>
    refine Gang.vSet_onlyLanes hk ?_ u x _
    exact List.mem_append_right _ (Shape.mem_vRange (j := 0) Nat.one_pos)
  case h_14 =>
    refine Gang.vPut_onlyLanes (t := .f32) ?_ hk u x false
    exact List.subset_append_of_subset_right _ (Shape.vRange_subset _ le_rfl)
  -- FCLASS, which writes one register whatever the type
  case h_12 =>
    refine Gang.vPut_onlyLanes (t := .n32) ?_ hk u x false
    delta shape shape?
    simp only [Option.getD_some, Shape.writes_late, Shape.writes_lane1]
    exact Shape.vRange_subset _ (Shape.one_le_regsOf _)
  all_goals
    refine Gang.vPut_onlyLanes ?_ hk u x false
    delta shape shape?
    simp (disch := decide) [Shape.regsOf_or]

/-- Where each lane's result goes to its own lane of given registers, writing the lanes of a mask leaves the rest of the gang alone. -/
theorem LaneRow.write_onlyLanes {refs : List Ref} {r : LaneRow} (hput : ∀ k < 64, ∀ (u : Gang) (x : Nat), u.OnlyLanes refs [k] (r.put u k x))
    (m : LaneMask) (g : Gang) : g.OnlyLanes refs (bitsOn m) (r.write m g) :=
  .foldl (fun k hk u => hput k (BitVec.lt_of_getLsbD (mem_bitsOn.mp hk)) u _) g

/-- To wait for late results changes the number of the next operation and what the gang waits for. -/
theorem State.withLate_eq (s : State) (g : Gang) (refs : List Ref) :
    ∃ n b, s.withLate g refs = ({ s with nextId := n }, { g with busy := b }) := by
  unfold State.withLate
  split
  · exact ⟨s.nextId, g.busy, rfl⟩
  · exact ⟨_, _, rfl⟩

/-- A vector row completes, and with it only the live active lanes of its destinations change. -/
theorem exec_vectorRow {i : Instr} {s : State} {g : Gang} {r : LaneRow} (hi : Issues i s g) (hr : intRow s g i = some r ∨ fpRow s g i = some r)
    (hc : g.CleanIn (g.acting i) r.regs) (hq : r.quiet (g.acting i)) :
    ∃ n h, exec i s = .next (s.completes i g { s with nextId := n } h) ∧ h.core = g.core ∧ h.slot = g.slot ∧
      SameRegs g h (fun _ => False) (fun n lane => 64 ≤ lane ∨ (Ref.v n ∈ (shape i).writes ∧ lane ∈ bitsOn (g.acting i))) (fun _ => False)
        (fun _ => False) ∧ SameSpecials g h := by
  rcases hr with hr | hr
  · have honly := LaneRow.write_onlyLanes (fun _ hk u x => intRow_put hr hk u x) (g.acting i) g
    exact ⟨s.nextId, _, exec_intRow hi hr hc, by rw [honly.rest], by rw [honly.rest], honly.sameRegs, honly.sameSpecials⟩
  · have honly := LaneRow.write_onlyLanes (fun _ hk u x => fpRow_put hr hk u x) (g.acting i) g
    obtain ⟨n, b, hlate⟩ := s.withLate_eq (r.write (g.acting i) g) r.late
    refine ⟨n, { r.write (g.acting i) g with busy := b }, ?_, by rw [honly.rest], by rw [honly.rest], ?_, ?_⟩
    · rw [exec_fpRow hi hr hc hq, hlate]
    · exact honly.sameRegs.trans ⟨fun _ _ => rfl, fun _ _ _ => rfl, fun _ _ => rfl, fun _ _ => rfl⟩
    · exact honly.sameSpecials.trans ⟨rfl, rfl, rfl, rfl, rfl, rfl, rfl, rfl⟩

/-- Settles O59: completion itself changes no register, and the row before it only the live active lanes of its destinations. -/
theorem vectorRowsFrame : Obligations.VectorRowsFrame := by
  intro i s t g r hi hr hc hq ht
  obtain ⟨n, h, hexec, hcore, hslot, hregs, hspecials⟩ := exec_vectorRow hi hr hc hq
  rw [hexec] at ht
  cases ht
  obtain ⟨honly, v, hv, hpc, hdone, hdoneSpecials⟩ := State.completes_frame { s with nextId := n } i hcore hslot
  simp only [mem_bitsOn] at hregs
  exact ⟨honly, v, hv, hpc, hregs.trans hdone, hspecials.trans hdoneSpecials⟩

end Sys2Proof.Machine
end

section
/-! PROOFS. The cross-lane moves, votes and masks (R142 to R144), and VRND (R154). -/
namespace Sys2Proof.Machine

theorem bne_zero_eq_decide (x : Nat) : (x != 0) = decide (x ≠ 0) := by cases x <;> rfl

/-- What an instruction that combines lane values does when no lane consumes poison. -/
theorem combine_clean {bad : Gang → LaneMask} {f : State → Gang → List Nat → Res} {s : State} {g : Gang} {act : LaneMask}
    (h : g.live (bad g) = 0) : combine bad f s g act = f s g (bitsOn (g.live act)) := by
  unfold combine
  rw [consume_none h]

theorem live_badLanes_clean {g : Gang} {m : LaneMask} {regs : List Nat} (h : g.CleanIn m regs) : g.live (g.badLanes m regs) = 0 := by
  rw [badLanes_clean h, live_zero]

/-- And when the registers of its vector source are clean. -/
theorem combine_src_clean {t : Fmt} {a : VSrc} {f : State → Gang → List Nat → Res} {s : State} {g : Gang} {act : LaneMask}
    (h : g.CleanIn (g.live act) (srcRegs t a)) : combine (badSrc t a act) f s g act = f s g (bitsOn (g.live act)) :=
  combine_clean (live_badLanes_clean h)

/-- Settles O13: LXCH and LBCST are moves, and LVOTE combines votes when no lane consumes poison. -/
theorem laneMoveRows : Obligations.LaneMoveRows := by
  refine ⟨⟨fun i s g h t d a f hi hm => ?move, fun s g h t d a hi => ?first, fun s g st x hi => ?mask⟩, fun s g h t d a hi => ?vote⟩
  case move =>
    unfold moveRow at hm
    split at hm <;> cases hm
    all_goals exact runGang_ok hi rfl (congrArg (Res.ok s) List.foldl_map)
  case first =>
    refine runGang_ok hi rfl ?_
    unfold Gang.acting
    cases bitsOn (g.live (g.active (shape (.lfirst h t d a)))) <;> rfl
  case mask =>
    refine runGang_ok hi rfl (congrArg (Res.ok s) ?_)
    cases x <;> rfl
  case vote =>
    intro i u hc
    refine runGang_ok hi rfl ((combine_src_clean hc).trans (congrArg (Res.ok s) ?_))
    simp only [bne_zero_eq_decide]
    cases d <;> simp [voteRow, Gang.acting, i, u]

/-- Settles O16: an offset in range takes its number, and none raises. -/
theorem randomNumbersComplete : Obligations.RandomNumbersComplete := by
  intro s g h t d a n hi hh hn i u hc hlt
  refine runGang_ok hi hh ((lanewise_quiet hc fun k hk => ?quiet).trans (congrArg (Res.ok s) ?writes))
  case quiet => simp only [hn, if_pos (hlt k hk), u]
  case writes =>
    rw [putV, List.foldl_map]
    refine List.foldl_ext _ _ _ fun v k hk => ?_
    simp only [hn, if_pos (hlt k hk), u]

end Sys2Proof.Machine
end

section
/-! PROOFS. The rows that combine the values of the live active lanes (R145 to R147). -/
namespace Sys2Proof.Machine

/- A trap of the whole instruction (R132) -/

/-- The state after a cross-lane or select instruction raises the lane code `code`: the gang stops with LANE_TRAP, every live active lane carries the code, and
the active mask is the replay mask (R132, R338). -/
def State.wholeStop (s : State) (i : Instr) (g : Gang) (code : Nat) : State :=
  let codes := codesOf ((bitsOn (g.acting i)).map (fun k => (k, code)))
  s.takeStop (g.issuedAt (shape i) (s.cyc g.core)) 31 (match (bitsOn (g.active (shape i))).head? with | some k => (Store.get codes k).toNat | none => 0)
    (wordsInfo i) (g.active (shape i)) codes g.pc (g.next (shape i))

section
variable {i : Instr} {s : State} {g : Gang} {bad : State → Gang → Bool} {body : State → Gang → LaneMask → Res} (hi : Issues i s g)
  (hb : bad s g = false)
include hi hb

theorem runGang_whole {code : Nat} (hcode : code ≠ 0) (hr : body s g (g.active (shape i)) = .whole s g 31 code) :
    runGang i s bad body = .next (s.wholeStop i g code) := by
  rw [runGang_eq hi hb, hr]
  simp only [settleRes, hcode, if_false]
  rfl

/-- Without a lane code it is a gang-level trap. -/
theorem runGang_whole_zero {cause : Nat} (hr : body s g (g.active (shape i)) = .whole s g cause 0) :
    runGang i s bad body = .next (s.traps i g cause) := by
  have hdetail : (match (bitsOn (g.active (shape i))).head? with | some l => (Store.get (codesOf []) l).toNat | none => 0) = 0 := by
    split <;> rfl
  rw [runGang_eq hi hb, hr]
  simp only [settleRes, if_true]
  exact congrArg (fun n => Host.Outcome.next (s.takeStop _ cause n _ _ _ _ _)) hdetail

end

/- Results, or the first that raises -/

section
variable {t : Fmt} {d : BitVec 8} {res : Nat → FpRes} {s : State} {g : Gang} {l : List Nat}

theorem writeOrTrap_quiet (hq : ∀ k ∈ l, g.fpTrap (res k).2 = 0) :
    writeOrTrap t d s g (l.map (fun k => (k, res k))) = .ok s (l.foldl (fun u k => u.vPut t d.toNat k (res k).1) g) := by
  have hnone : ((l.map (fun k => (k, res k))).map (fun x => g.fpTrap x.2.2)).find? (· != 0) = none := by
    simpa using hq
  rw [writeOrTrap, hnone, List.foldl_map]

theorem writeOrTrap_raises {code : Nat} (hr : (l.map (fun k => g.fpTrap (res k).2)).find? (· ≠ 0) = some code) :
    writeOrTrap t d s g (l.map (fun k => (k, res k))) = .whole s g 31 code := by
  have hsome : ((l.map (fun k => (k, res k))).map (fun x => g.fpTrap x.2.2)).find? (· != 0) = some code := by
    simp only [List.map_map, bne_zero_eq_decide]
    exact hr
  rw [writeOrTrap, hsome]

end

/-- What a row of LSCAN, LRED or LREDX comes to when no lane consumes poison: its results are written, late ones as such, or the first that raises traps. -/
theorem sumRow_body {i : Instr} {s : State} {g : Gang} {r : SumRow} (hr : sumRow s g (bitsOn (g.acting i)) i = some r)
    (hc : g.CleanIn (g.acting i) r.regs) :
    ∃ (body : State → Gang → LaneMask → Res) (d : BitVec 8), exec i s = runGang i s anywhere body ∧ d.toNat = r.d ∧
      body s g (g.active (shape i)) =
        let w := writeOrTrap r.t d s g ((bitsOn (g.acting i)).map (fun k => (k, r.res k)))
        if r.late = [] then w else lateRes r.late w := by
  unfold sumRow at hr
  split at hr <;> cases hr
  -- LSCAN and LRED
  case h_1 | h_2 => exact ⟨_, _, rfl, rfl, combine_src_clean hc⟩
  -- LREDX of one source and of two, whose results are late
  all_goals
    refine ⟨_, _, rfl, rfl, ?_⟩
    simp only [Shape.vRange_ne_nil _ (Shape.one_le_regsOf _), if_false]
    refine congrArg (lateRes _) (combine_clean ?_)
  case h_3 =>
    rw [List.append_nil]
    exact live_badLanes_clean hc
  case h_4 => exact live_badLanes_clean hc

/-- Settles O14: the results are written when none raises, and the first that raises stops the gang. -/
theorem reductionRows : Obligations.ReductionRows := by
  refine ⟨fun i s g r hi hr hc hq => ?quiet, fun i s g r code hi hr hc hraise => ?raises⟩
  all_goals
    obtain ⟨body, d, hexec, hd, hbody⟩ := sumRow_body hr hc
    rw [hexec]
  case quiet =>
    refine runGang_ok hi rfl (hbody.trans ?_)
    rw [writeOrTrap_quiet hq, hd]
    unfold State.withLate
    split <;> rfl
  case raises =>
    have hcode : code ≠ 0 := by simpa using List.find?_some hraise
    refine runGang_whole hi rfl hcode (hbody.trans ?_)
    rw [writeOrTrap_raises hraise]
    exact ite_self _

end Sys2Proof.Machine
end

section
/-! PROOFS. TOPK (R148, R149), MPATH and MERGE (R150 to R153). -/
namespace Sys2Proof.Machine

/- TOPK -/

/-- A NaN of a live active lane stands against TOPK under ORDT (R149). -/
def State.topkNan (s : State) (g : Gang) (h : VH) (t : Fmt) (a : VSrc) (l : List Nat) : Prop :=
  g.ordt = true ∧ t.float = true ∧ ∃ j ∈ l, (t.fp.read (s.vsrc g h.lit t a j % 2 ^ t.bits)).isNan = true

section
variable {s : State} {g : Gang} {h : VH} {r : Rnd} {t : Fmt} {d : BitVec 8} {a : VSrc} {b : Sc} {l : List Nat}

theorem topkBody_nan (hn : s.topkNan g h t a l) : topkBody h r t d a b s g l = .whole s g 30 0 := by
  obtain ⟨hord, hfloat, j, hj, hnan⟩ := hn
  refine if_pos ?_
  simp only [hord, hfloat, Bool.true_and, List.any_map, List.any_eq_true]
  exact ⟨j, hj, hnan⟩

theorem topkBody_no_nan (hn : ¬ s.topkNan g h t a l) : topkBody h r t d a b s g l =
    let k := min (s.sc g h.lit b).toNat 64
    let c := ranked s g h t a l
    let u := if t.float then Fmt.f32 else t
    let sum (x : List (Nat × Nat)) := (exactSum t (x.map (·.2))).readout u (g.mode r) g.sat
    let code := if g.fpTrap (sum (c.take k)).2 = 0 then g.fpTrap (sum (c.drop k)).2 else g.fpTrap (sum (c.take k)).2
    if code != 0 && !l.isEmpty then .whole s g 31 code
    else .ok s (topkWrite t u d.toNat k c l (sum (c.take k)).1 (sum (c.drop k)).1 g) := by
  refine if_neg fun hall => hn ?_
  simp only [Bool.and_eq_true, List.any_map, List.any_eq_true] at hall
  obtain ⟨⟨hord, hfloat⟩, j, hj, hnan⟩ := hall
  exact ⟨hord, hfloat, j, hj, hnan⟩

end

/- MPATH and MERGE -/

/-- An element list of MPATH or MERGE (R150). -/
def State.elements (s : State) (g : Gang) (h : VH) (t : Fmt) (a : BitVec 8) (n : Nat) : List Nat :=
  (List.range n).map (fun j => (s.srcOf g h t (.v a) j).1)

section
variable {s : State} {g : Gang} {h : VH} {t : Fmt} {d a b : BitVec 8} {c : Sc} {x na nb : Nat} (hx : (s.sc g h.lit c).toNat = x)
  (hna : min (x % 128) 64 = na) (hnb : min (x / 256 % 128) 64 = nb)
  (ha : g.CleanIn (g.live (maskOf 64 (List.range na))) [a.toNat]) (hb : g.CleanIn (g.live (maskOf 64 (List.range nb))) [b.toNat])
include hx hna hnb ha hb

/-- What MPATH and MERGE come to when no element of their lists is poisoned. -/
theorem listPair_clean (f : Nat → List Nat → List Nat → Nat → Nat × Nat) (act : LaneMask) :
    listPair h t d a b c f s g act =
      let as := s.elements g h t a na
      let bs := s.elements g h t b nb
      let sorted := sortedList t as && sortedList t bs
      if !sorted && g.ordt then .whole s g 30 0
      else .ok (if sorted then s else s.countAt g.place .orderViolations)
        ((bitsOn (g.live act)).foldl (fun u k => (u.vSet d.toNat k (f x as bs k).1).vSet (d.toNat + 1) k (f x as bs k).2) g) := by
  subst hx hna hnb
  have hlow (y : Nat) : bitField y 6 0 = y % 128 := by simp [bitField]
  have hhigh (y : Nat) : bitField y 14 8 = y / 256 % 128 := rfl
  unfold listPair
  simp only [hlow, hhigh]
  refine combine_clean ?_
  rw [badLanes_clean ha, badLanes_clean hb]
  exact live_zero g

variable {i : Instr} (hi : Issues i s g) {f : Nat → List Nat → List Nat → Nat → Nat × Nat} {refs : List Ref}
include hi

/-- Two sorted lists, or ORDT clear: the results arrive late, and a list that is not sorted counts. -/
theorem runGang_listPair (hok : (sortedList t (s.elements g h t a na) && sortedList t (s.elements g h t b nb)) = true ∨ g.ordt = false)
    {res : Nat → Nat × Nat} (hf : ∀ k, f x (s.elements g h t a na) (s.elements g h t b nb) k = res k) :
    let sorted := sortedList t (s.elements g h t a na) && sortedList t (s.elements g h t b nb)
    let y := (if sorted then s else s.countAt g.place .orderViolations).late
      ((bitsOn (g.acting i)).foldl (fun u k => (u.vSet d.toNat k (res k).1).vSet (d.toNat + 1) k (res k).2) g) refs
    runGang i s anywhere (fun s g act => lateRes refs (listPair h t d a b c f s g act)) = .next (s.completes i g y.1 y.2) := by
  have hbody := listPair_clean (t := t) (d := d) hx hna hnb ha hb f (g.active (shape i))
  simp only [hf] at hbody
  rw [if_neg (by rcases hok with hok | hok <;> simp [hok])] at hbody
  exact runGang_ok hi rfl (congrArg (lateRes refs) hbody)

/-- A list that is not sorted, with ORDT set (R151). -/
theorem runGang_listPair_unsorted
    (hun : (sortedList t (s.elements g h t a na) && sortedList t (s.elements g h t b nb)) = false) (hord : g.ordt = true) :
    runGang i s anywhere (fun s g act => lateRes refs (listPair h t d a b c f s g act)) = .next (s.traps i g 30) := by
  have hbody := listPair_clean (t := t) (d := d) hx hna hnb ha hb f (g.active (shape i))
  rw [if_pos (by simp [hun, hord])] at hbody
  exact runGang_whole_zero hi rfl (congrArg (lateRes refs) hbody)

end

/-- Settles O15: TOPK by whether a NaN stands against it and whether a sum raises, MPATH and MERGE by whether both lists are sorted. -/
theorem selectRows : Obligations.SelectRows := by
  refine ⟨fun s g h r t d a b hi => ?topk, fun s g h r t d a b hi => ?topkStops, fun s g h t d a b c merge => ?lists⟩
  case topk =>
    intro i t u l c k sel out hc hn hsel hout
    have hno : ¬ s.topkNan g h t a l := by
      rintro ⟨hord, hfloat, j, hj, hnan⟩
      exact absurd (hn hord hfloat j hj) (by simp [hnan])
    have hcode : (if g.fpTrap sel.2 = 0 then g.fpTrap out.2 else g.fpTrap sel.2) = 0 := (if_pos hsel).trans hout
    have hbody := (combine_src_clean hc).trans ((topkBody_no_nan (r := r) (d := d) (b := b) hno).trans
      (if_neg fun hraise => bne_iff_ne.mp (Bool.and_eq_true_iff.mp hraise).1 hcode))
    exact runGang_ok hi rfl (congrArg (lateRes _) hbody)
  case topkStops =>
    intro i t u l c k nan code raised codes hc
    refine ⟨fun hn => ?nan, fun hn hraised hl => ?sum⟩
    case nan =>
      have hbody := (combine_src_clean hc).trans (topkBody_nan (r := r) (d := d) (b := b) hn)
      exact runGang_whole_zero hi rfl (congrArg (lateRes _) hbody)
    case sum =>
      have hbody := (combine_src_clean hc).trans ((topkBody_no_nan (r := r) (d := d) (b := b) hn).trans
        (if_pos (Bool.and_eq_true_iff.mpr ⟨bne_iff_ne.mpr hraised, by simpa using hl⟩)))
      exact runGang_whole hi rfl hraised (congrArg (lateRes _) hbody)
  case lists =>
    intro i hi t x na nb l as bs sorted res ha hb
    cases merge
    case false =>
      have hlen (k : BitVec 8) (n : Nat) : (s.elements g h t k n).length = n := by simp [State.elements]
      refine ⟨fun hok => runGang_listPair rfl rfl rfl ha hb hi hok fun k => ?_, runGang_listPair_unsorted rfl rfl rfl ha hb hi⟩
      simp only [hlen]
      rfl
    case true =>
      exact ⟨fun hok => runGang_listPair rfl rfl rfl ha hb hi hok fun _ => rfl, runGang_listPair_unsorted rfl rfl rfl ha hb hi⟩

end Sys2Proof.Machine
end

section
/-! PROOFS. The refutation of the lane traps' statement (O4): the model reads FPACK's scalar operand before it kills lanes. -/
namespace Sys2Proof.Machine

/-- In `v2`, lane 0 holds poison and lane 1 a 1.0 of BF16 in its upper half. -/
def upperHalf : Gang := ({ loadedGang with base := 3 }.vSet 2 0 0 true).vSet 2 1 0x3F800000

/-- The gang in a FREE launch, about to take its next instruction. -/
def freeUpperHalf : State :=
  { ((((State.reset.putLaunch 0 (loadedLaunch 0)).putCrew 0 loadedCrew).putCore 0 { part := some 0x00010102 }).putGang upperHalf) with
    cur := some (.gang 0 0) }

/-- Unpacks the half of `v2` that `$dead` names into `v3`: the index may be any uniform scalar operand (R111, R140). -/
def unpackAtDead : Instr := .fpack plainVH .dflt .bf16 .f32 3 (.v 2) (.unpack (.sp .dead))

/-- What lane 1 of `v3` holds after an outcome. -/
def lane1OfV3 : Host.Outcome State Fault Refusal → Option Nat
  | .next t => (t.gang? 0 0).map (·.vGet 3 1)
  | _ => none

theorem unpackAtDead_issues : Issues unpackAtDead freeUpperHalf upperHalf := issues_of (by decide +kernel)

/-- The model takes the lower half, `$dead` being 0 when the instruction issues. -/
theorem lane1OfV3_unpackAtDead : lane1OfV3 (exec unpackAtDead freeUpperHalf) = some 0 := by decide +kernel

/-- Refutes O4: lane 0 consumes poison and is killed, and the statement's row, which it takes in the state after the kill, reads the half to unpack from a
`$dead` of 1, where the model has read it from a `$dead` of 0: lane 1 takes 1.0 by the statement and 0 in the model. -/
theorem not_laneTrapsStop : ¬ Obligations.LaneTrapsStop := by
  intro h
  obtain ⟨hpoison, -⟩ := h
  obtain ⟨-, hconsumed⟩ := hpoison unpackAtDead freeUpperHalf upperHalf _ unpackAtDead_issues (.inr rfl)
  obtain ⟨-, -, -, hfree⟩ := hconsumed (by decide +kernel)
  obtain ⟨-, hothers⟩ := hfree (by decide +kernel) (by decide +kernel) (by decide +kernel)
  have hexec := congrArg lane1OfV3 (hothers _ (.inr rfl) (by unfold LaneRow.quiet; decide +kernel))
  rw [lane1OfV3_unpackAtDead] at hexec
  exact absurd hexec (by decide +kernel)

end Sys2Proof.Machine
end

section
/-! PROOFS. MWLD (R172): the loads, waits and traps of a weight plane. -/
namespace Sys2Proof.Machine

/-- An instruction that issues and traps after something was counted. -/
theorem runGang_trapIn {i : Instr} {s t : State} {g : Gang} {cause : Nat} {bad : State → Gang → Bool} {body : State → Gang → LaneMask → Res}
    (hi : Issues i s g) (hb : bad s g = false) (hr : body s g (g.active (shape i)) = .trapIn t cause) (hcyc : t.cyc g.core = s.cyc g.core) :
    runGang i s bad body = .next (t.traps i g cause) := by
  rw [runGang_eq hi hb, hr, State.traps, hcyc]
  rfl

/- The branches of MWLD's effect, in their order -/

/-- The plane with its new contents, and the answer that arrives late (R172). -/
def mwldDone (d : BitVec 6) (p : Bool) (s : State) (g : Gang) (plane : Option Plane) (x : DWord) : Res :=
  let y := (s.modCrew g.crew (fun c => { c with planes :=
    match plane with
    | some q => Tab.set c.planes p.toNat q
    | none => Tab.erase c.planes p.toNat })).late (g.sSet d.toNat x) (Shape.sRef d.toNat)
  .ok y.1 y.2

section
variable {h : SH} {d : BitVec 6} {a : Sc} {p : Bool} {s : State} {g : Gang} {act : LaneMask}

theorem mwldBody_noTiles (hacc : s.accUnits g.launch = 0) : mwldBody h d a p s g act = .trap 15 := if_pos hacc

variable {n : Nat} (hn : (s.sc g h.lit a).toNat = n) (hacc : s.accUnits g.launch ≠ 0)
include hn hacc

theorem mwldBody_beyondLease (hslot : s.tlease g.launch ≤ n) : mwldBody h d a p s g act = .trap 16 := by
  subst hn
  exact (if_neg hacc).trans (if_pos hslot)

variable (hslot : n < s.tlease g.launch)
include hslot

theorem mwldBody_planeBusy (hbusy : (∃ y ∈ (s.core g.core).streams, y.plane = p) ∨ s.shadowsBehind g.crew = true) :
    mwldBody h d a p s g act = .wait s g .plane := by
  subst hn
  refine (if_neg hacc).trans ((if_neg (Nat.not_le.mpr hslot)).trans (if_pos ?_))
  simpa using hbusy

variable (hstreams : ∀ y ∈ (s.core g.core).streams, y.plane ≠ p) (hshadows : s.shadowsBehind g.crew = false) {x : Slot}
  (hx : s.slotOf g.core g.launch n = x)
include hstreams hshadows hx

/-- Once its plane is free MWLD reads its slot. -/
theorem mwldBody_planeFree : mwldBody h d a p s g act =
    let t := s.countAt g.place .transomCorrected x.corrected
    if !x.lost.isEmpty && x.src.isSome then .wait (t.countAt g.place .transomRefetch) g (.refetch n)
    else if formatWord x.img = 0 then mwldDone d p t g none 1
    else if !wfmtOk (formatWord x.img) || !groupsAgree x.img (formatWord x.img) then .trapIn t 19
    else mwldDone d p (t.countAt g.place .zskipGroups (zeroGroups x.img (formatWord x.img))) g
      (some { img := x.img, wfmt := formatWord x.img, slot := n, bad := badColumns x.lost }) 0 := by
  subst hn hx
  refine (if_neg hacc).trans ((if_neg (Nat.not_le.mpr hslot)).trans (if_neg ?_))
  simpa [hshadows] using hstreams

end

/-- Settles O18: the branches of MWLD's effect, in their order. -/
theorem planeLoadCompletes : Obligations.PlaneLoadCompletes := by
  intro s g h d a p hi hh i n x f s1
  refine ⟨fun hacc => ?noTiles, fun hacc hslot => ?beyondLease, fun hacc hslot => ⟨fun hbusy => ?busy, fun hstreams hshadows => ?free⟩⟩
  case noTiles => exact runGang_trap hi hh (mwldBody_noTiles hacc)
  case beyondLease => exact runGang_trap hi hh (mwldBody_beyondLease rfl hacc hslot)
  case busy => exact runGang_wait hi hh (mwldBody_planeBusy rfl hacc hslot hbusy)
  case free =>
    have hbody := mwldBody_planeFree (d := d) (act := g.active (shape i)) rfl hacc hslot hstreams hshadows (x := x) rfl
    refine ⟨fun hlost hsrc => ?lost, fun hread => ?read⟩
    case lost =>
      exact runGang_wait hi hh (hbody.trans (if_pos (by simp [hlost, Option.isSome_iff_ne_none, hsrc])))
    case read =>
      have hbody := hbody.trans (if_neg (by rcases hread with h | h <;> simp [h]))
      refine ⟨fun hf => ?empty, fun hf hok hagree => ?loads, fun hf hbad => ?badFormat⟩
      case empty => exact runGang_ok hi hh (hbody.trans (if_pos hf))
      case loads => exact runGang_ok hi hh (hbody.trans ((if_neg hf).trans (if_neg (by simp [f, hok, hagree]))))
      case badFormat => exact runGang_trapIn hi hh (hbody.trans ((if_neg hf).trans (if_pos (by simpa [f] using hbad)))) rfl

end Sys2Proof.Machine
end

section
/-! PROOFS. Accumulator tiles (R164): MACLR, MARD and MAWR (R177 to R179). -/
namespace Sys2Proof.Machine

theorem fewChannels_eq_false {e : BitVec 8} (h : 7 ≤ (bitsOn e).length) : fewChannels e = false := decide_eq_false (Nat.not_lt.mpr h)

/- MACLR -/

theorem exec_maclr {st : BitVec 3} {f : TileFmt} {k : BitVec 3} {s : State} {g : Gang} (hi : Issues (.maclr st f k) s g) (hh : g.isHandler = false)
    (hk : k.toNat < s.accOf g.launch) (hch : f = .res → 7 ≤ (bitsOn (s.core g.core).en).length) :
    let y := (s.setTile g k.toNat { fmt := f, valid := if f = .res then (s.core g.core).en else 0 }).late g [.tile k.toNat]
    exec (.maclr st f k) s = .next (s.completes (.maclr st f k) g y.1 y.2) := by
  refine runGang_ok hi hh ((if_neg (Nat.not_le.mpr hk)).trans (if_neg ?_))
  simp only [Bool.and_eq_true, decide_eq_true_eq, not_and]
  exact fun hf => Bool.eq_false_iff.mp (fewChannels_eq_false (hch hf))

/- The entries that MARD reads -/

/-- The entries that MARD reads in some lanes, `out j q` being the one at lane `j` and place `q` (R178). -/
def readouts (lanes : List Nat) (n : Nat) (out : Nat → Nat → Readout) : List (Nat × List (Nat × Readout)) :=
  lanes.map (fun j => (j, (List.range n).map (fun q => (q, out j q))))

/-- The lane code that the entries of a lane raise: that of the first that raises one, or 0 (R178). -/
def laneCode (y : List (Nat × Readout)) : Nat := ((y.map (·.2.code)).find? (· != 0)).getD 0

theorem laneCode_eq_zero {y : List (Nat × Readout)} (h : ∀ z ∈ y, z.2.code = 0) : laneCode y = 0 := by
  have hnone : (y.map (·.2.code)).find? (· != 0) = none := by simpa using h
  rw [laneCode, hnone, Option.getD_none]

theorem laneCode_readouts {lanes : List Nat} {n : Nat} {out : Nat → Nat → Readout} (hq : ∀ j ∈ lanes, ∀ q < n, (out j q).code = 0) :
    ∀ y ∈ readouts lanes n out, laneCode y.2 = 0 := by
  intro y hy
  obtain ⟨j, hj, rfl⟩ := List.mem_map.mp hy
  refine laneCode_eq_zero fun z hz => ?_
  obtain ⟨q, hqn, rfl⟩ := List.mem_map.mp hz
  exact hq j hj q (List.mem_range.mp hqn)

/- The checks that MARD and MAWR share -/

/-- The tile is within the gang's, the columns within the tile, and the kind is that of its format (R178, R179). -/
theorem tileChecks {s : State} {g : Gang} {k c n : Nat} {kind : Fmt} {x : Tile} {e : BitVec 8} {r : Res} (hk : k < s.accOf g.launch) (hc : c + n ≤ tileCols x.fmt)
    (hkind : kindMatches kind x.fmt = true) (hch : kind = .i64 → 7 ≤ (bitsOn e).length) :
    (if s.accOf g.launch ≤ k || decide (tileCols x.fmt < c + n) then Res.trap 15
      else if !kindMatches kind x.fmt then .trap 17
      else if kind = .i64 && fewChannels e then .trap 20
      else r) = r := by
  refine (if_neg ?_).trans ((if_neg ?_).trans (if_neg ?_))
  · simp [hk, hc]
  · simp [hkind]
  · simp only [Bool.and_eq_true, decide_eq_true_eq, not_and]
    exact fun h => Bool.eq_false_iff.mp (fewChannels_eq_false (hch h))

section
variable {h : VH} {t kind : Fmt} {b : Sc} {k : BitVec 3} {n : Nat} {s : State} {g : Gang} {act : LaneMask}
  (hk : k.toNat < s.accOf g.launch) (hc : (s.sc g h.lit b).toNat + n ≤ tileCols (s.tile g k.toNat).fmt)
  (hkind : kindMatches kind (s.tile g k.toNat).fmt = true)
include hk hc hkind

/-- MARD when no entry raises: every entry of every live active lane is written (R178). -/
theorem mardBody_quiet {r : Rnd} {d : BitVec 8} (hch : kind = .i64 → 7 ≤ (bitsOn ((s.tile g k.toNat).valid &&& s.en g)).length)
    {out : Nat → Nat → Readout}
    (hout : ∀ j q, out j q = mardEntry (g.mode r) t kind ((s.tile g k.toNat).valid &&& s.en g) g (s.tile g k.toNat)
      ((s.tile g k.toNat).entry j ((s.sc g h.lit b).toNat + q)))
    (hq : ∀ j ∈ bitsOn (g.live act), ∀ q < n, (out j q).code = 0) :
    mardBody h r t kind d k b n s g act =
      lateRes (Shape.vRange d.toNat (n * Shape.regsOf t))
        (.ok (s.reportConv g (((bitsOn (g.live act)).map (fun j => (List.range n).filterMap (fun q => (out j q).conv))).flatten))
          ((bitsOn (g.live act)).foldl (fun v j => (List.range n).foldl (fun v q =>
            v.vPut t (d.toNat + Shape.regsOf t * q) j (out j q).bits (out j q).bad) v) g)) := by
  unfold mardBody
  refine (tileChecks hk hc hkind hch).trans ?_
  simp only [← hout]
  have hnone := laneCode_readouts hq
  have hgood : (readouts (bitsOn (g.live act)) n out).filter (fun y => laneCode y.2 == 0) = readouts (bitsOn (g.live act)) n out :=
    List.filter_eq_self.mpr fun y hy => by rw [hnone y hy]; rfl
  have hraised : (readouts (bitsOn (g.live act)) n out).filter (fun y => laneCode y.2 != 0) = [] :=
    List.filter_eq_nil_iff.mpr fun y hy => by rw [hnone y hy]; decide
  unfold readouts laneCode at hgood hraised
  rw [hgood, hraised]
  simp only [codesOf, List.map_nil, List.foldl_nil, List.foldl_map, List.map_map, Function.comp_def, List.filterMap_map]

/-- MAWR when no lane consumes poison: every entry of every live active lane is written (R179). -/
theorem mawrBody_clean {a : BitVec 8} (hch : kind = .i64 → 7 ≤ (bitsOn (s.en g)).length)
    (hclean : g.CleanIn (g.live act) ((List.range (n * Shape.regsOf t)).map (fun q => a.toNat + q))) :
    mawrBody h t kind k a b n s g act =
      lateRes [.tile k.toNat] (.ok (s.setTile g k.toNat ((bitsOn (g.live act)).foldl (fun z j => (List.range n).foldl (fun z q =>
        mawrEntry t kind z (z.entry j ((s.sc g h.lit b).toNat + q)) (g.vraw t (a.toNat + Shape.regsOf t * q) j)) z) (s.tile g k.toNat))) g) := by
  unfold mawrBody
  refine (tileChecks hk hc hkind hch).trans ?_
  rw [badLanes_clean hclean, consume_none (live_zero g)]
  rfl

end

/-- Settles O19: MACLR by its own lemma, MARD and MAWR by what their effects come to when nothing stands against them. -/
theorem tileRowsComplete : Obligations.TileRowsComplete := by
  intro s g h st f k r t kind d a b m hh hk
  refine ⟨fun hi hch => exec_maclr hi hh hk hch, ?mard, ?mawr⟩
  case mard =>
    intro i x c n u e out hi hc hkind hch hq
    exact runGang_ok hi hh (mardBody_quiet hk hc hkind hch (fun _ _ => rfl) hq)
  case mawr =>
    intro i x c n u hi hc hkind hch hclean
    exact runGang_ok hi hh (mawrBody_clean hk hc hkind hch hclean)

end Sys2Proof.Machine
end

section
/-! PROOFS. MMUL (R173 to R176, R182 to R184): the terms it adds, the token it waits for, and its traps. -/
namespace Sys2Proof.Machine

/- The branches of MMUL's effect, in their order -/

section
variable {sr : Semi} {x w : Fmt} {k : BitVec 3} {a : BitVec 8} {pl : Bool} {s : State} {g : Gang} {act : LaneMask}

theorem mmulBody_beyondAcc (hk : s.accOf g.launch ≤ k.toNat) : mmulBody sr x w k a pl s g act = .trap 15 := if_pos hk

variable (hk : k.toNat < s.accOf g.launch)
include hk

theorem mmulBody_otherFormat (hfmt : (s.tile g k.toNat).fmt ≠ mmulTile sr w) : mmulBody sr x w k a pl s g act = .trap 17 :=
  (if_neg (Nat.not_le.mpr hk)).trans (if_pos hfmt)

variable (hfmt : (s.tile g k.toNat).fmt = mmulTile sr w)
include hfmt

/-- A plane that is empty, or of other weights. -/
theorem mmulBody_otherWeights (hw : ∀ p, s.plane? g pl = some p → p.wfmt ≠ w.code.toNat) : mmulBody sr x w k a pl s g act = .trap 18 := by
  refine (if_neg (Nat.not_le.mpr hk)).trans ((if_neg (not_not.mpr hfmt)).trans ?_)
  cases hp : s.plane? g pl with
  | none => rfl
  | some p => exact if_pos (hw p hp)

variable {p : Plane} (hp : s.plane? g pl = some p) (hw : p.wfmt = w.code.toNat) (hch : mmulTile sr w = .res → 7 ≤ (bitsOn (s.core g.core).en).length)
include hp hw hch

theorem mmulBody_eq : mmulBody sr x w k a pl s g act = if g.live act = 0 then .ok s g else mmulRun sr x w k a pl p s g act := by
  refine (if_neg (Nat.not_le.mpr hk)).trans ((if_neg (not_not.mpr hfmt)).trans ?_)
  rw [hp]
  refine (if_neg (not_not.mpr hw)).trans (if_neg ?_)
  simp only [Bool.and_eq_true, decide_eq_true_eq, not_and]
  exact fun hres => Bool.eq_false_iff.mp (fewChannels_eq_false (hch hres))

end

/- What it adds and streams -/

theorem State.setTile_nextId (s : State) (g : Gang) (k : Nat) (t : Tile) : (s.setTile g k t).nextId = s.nextId := by
  unfold State.setTile State.modCrew
  split <;> rfl

/-- The tile after the terms of the rows `rows` (R175, R190). -/
def mmulTileOf (sr : Semi) (x w : Fmt) (g : Gang) (a : Nat) (p : Plane) (en : BitVec 8) (rows : List Nat) (t : Tile) : Tile :=
  let t := rows.foldl (fun t j => (List.range (tileCols t.fmt)).foldl (fun t q => mmulEntry sr x w g a p en t j q) t) t
  if t.fmt = .res then { t with valid := t.valid &&& en } else t

/-- What zero-skipping saves of a multiplication into a PLUS tile is counted (R181). -/
def State.countSkips (s : State) (g : Gang) (x : Fmt) (a : Nat) (p : Plane) (rows : List Nat) (f : TileFmt) : State :=
  if f = .plus then (s.countAt g.place .zskipCycles (zskipSaved x g a p rows)).countAt g.place .zgateProducts (zgated x g a p rows) else s

theorem State.countSkips_nextId (s : State) (g : Gang) (x : Fmt) (a : Nat) (p : Plane) (rows : List Nat) (f : TileFmt) :
    (s.countSkips g x a p rows f).nextId = s.nextId := by
  unfold State.countSkips
  split
  · simp only [State.countAt_nextId]
  · rfl

/-- The stream of an MMUL with the given number joins those of its core, and the gang's token goes with it (R176, R183). -/
def State.startStream (s : State) (g : Gang) (k : BitVec 3) (pl : Bool) (hold : List Ref) (id : Nat) : State × Gang :=
  (s.modCore g.core (fun c => { c with streams := c.streams ++ [{ crew := g.crew, slot := g.slot, id := id, plane := pl }] })).late
    { g with token := false } [.tile k.toNat] hold

/-- MMUL when no lane consumes poison: its tile takes the terms, and the plane streams (R175, R176). -/
theorem mmulRun_clean {sr : Semi} {x w : Fmt} {k : BitVec 3} {a : BitVec 8} {pl : Bool} {p : Plane} {s : State} {g : Gang} {act : LaneMask}
    (hclean : g.CleanIn (g.live act) ((List.range (Shape.mmulRegs x w)).map (fun r => a.toNat + r))) :
    let t := mmulTileOf sr x w g a.toNat p (s.core g.core).en (bitsOn (g.live act)) (s.tile g k.toNat)
    let u := (s.setTile g k.toNat t).countSkips g x a.toNat p (bitsOn (g.live act)) t.fmt
    let y := u.startStream g k pl (Shape.vRange a.toNat (Shape.mmulRegs x w)) s.nextId
    mmulRun sr x w k a pl p s g act = .ok y.1 y.2 := by
  intro t u
  have hid : s.nextId = u.nextId := ((State.countSkips_nextId ..).trans (State.setTile_nextId ..)).symm
  rw [hid]
  unfold mmulRun
  dsimp only
  rw [badLanes_clean hclean, consume_none (live_zero g)]
  rfl

/- The token (R182 to R184) -/

/-- An MMUL with a live active lane and no token waits for one, or for the scoreboard, before it is checked any further. -/
theorem runGang_tokenless {i : Instr} {s : State} {g : Gang} {bad : State → Gang → Bool} {body : State → Gang → LaneMask → Res}
    (hcur : s.cur = some (.gang g.core g.slot)) (hg : s.gang? g.core g.slot = some g) (hmay : s.mayIssue g = true) (hturn : g.notBefore ≤ s.cyc g.core)
    (hfailed : g.failed = []) (hb : bad s g = false) (htoken : g.tokenless (shape i) = true)
    (hready : ∀ p ∈ g.pend, p.ref ∈ (shape i).reads ++ (shape i).writes → p.readyAt ≤ s.cyc g.core) :
    runGang i s bad body = .next (s.waits g (if g.boarded (shape i) then .scoreboard else .token)) := by
  have hunready : g.unready (shape i) (s.cyc g.core) = false := by
    refine any_false fun p hp => ?_
    by_cases hm : p.ref ∈ (shape i).reads ++ (shape i).writes
    · simp [hready p hp hm]
    · simp [show p.ref ∉ (shape i).reads ++ (shape i).writes from hm]
  have himprecise : s.imprecise g (g.active (shape i)) (g.next (shape i)) = none := by rw [State.imprecise, hfailed]
  have hissue : issue i s g false body = s.waits g (if g.boarded (shape i) then .scoreboard else .token) := by
    unfold issue
    simp only [himprecise, Nat.not_lt.mpr hturn, htoken, hunready, Bool.false_eq_true, if_false, if_true]
    rfl
  unfold runGang
  simp only [hcur, hg, hmay, if_true, hb, hissue]

/-- Settles O20: MMUL by the branches of its effect, and by its token before them. -/
theorem matrixMultiplyRow : Obligations.MatrixMultiplyRow := by
  constructor
  · intro s g h sr x w k a pl p i hi hh hk hfmt hp hw hch u en t rows
    have hbody := mmulBody_eq (x := u) (a := a) (act := g.active (shape i)) hk hfmt hp hw hch
    refine ⟨fun hnone => ?idle, fun hsome hclean => ?adds⟩
    case idle => exact runGang_ok hi hh (hbody.trans (if_pos hnone))
    case adds => exact runGang_ok hi hh (hbody.trans ((if_neg hsome).trans (mmulRun_clean hclean)))
  · intro s g h sr x w k a pl i
    refine ⟨fun hcur hg hmay hturn hfailed hh hact htoken hready => ?tokenless, fun hi hh => ⟨fun hk => ?tile, fun hk hfmt => ?format,
      fun hk hfmt hw => ?weights⟩⟩
    case tokenless =>
      have hwants : g.wantsToken (shape i) = true := bne_iff_ne.mpr hact
      refine runGang_tokenless hcur hg hmay hturn hfailed hh ?_ hready
      rw [Gang.tokenless, hh, htoken, hwants]
      rfl
    case tile => exact runGang_trap hi hh (mmulBody_beyondAcc hk)
    case format => exact runGang_trap hi hh (mmulBody_otherFormat hk hfmt)
    case weights => exact runGang_trap hi hh (mmulBody_otherWeights hk hfmt hw)

end Sys2Proof.Machine
end

section
/-! PROOFS. The engine of the array (R162, R172, R176, R183, R185): token grants, the end of a stream, and a transom refetch. -/
namespace Sys2Proof.Machine

/- Token grants (R183, R185) -/

@[simp] theorem Gang.takeToken_core (g : Gang) (cyc : Nat) : (g.takeToken cyc).core = g.core := by unfold Gang.takeToken; split <;> rfl
@[simp] theorem Gang.takeToken_slot (g : Gang) (cyc : Nat) : (g.takeToken cyc).slot = g.slot := by unfold Gang.takeToken; split <;> rfl

/-- The gangs of a core that wait for a token, or whose shadow does, of crews that are not being saved (R183, R335, R356). -/
def State.tokenWaiters (s : State) (core : Nat) : List Gang := (s.shuttered core ++ s.shadowsShuttered core).filter (fun g => !s.preCrews.contains g.crew)

/-- The next core in turn on a die whose gangs wait and which holds fewer than two tokens (R185). -/
def State.tokenTurn (s : State) (die : Nat) : Option Nat :=
  ((List.range 256).map (fun i => die * 256 + (s.lastGrant die + 1 + i) % 256)).find? (fun c => !(s.tokenWaiters c).isEmpty && decide (s.coreHeld c < 2))

/-- The last core granted a token on a die (R185). -/
def State.setLastGrant (s : State) (die : Bool) (n : Nat) : State := if die then { s with lastGrant1 := n } else { s with lastGrant0 := n }

theorem State.lastGrant_setLastGrant (s : State) (die : Bool) (n : Nat) : (s.setLastGrant die n).lastGrant die.toNat = n := by cases die <;> rfl
@[simp] theorem State.setLastGrant_mem (s : State) (die : Bool) (n : Nat) : (s.setLastGrant die n).mem = s.mem := by cases die <;> rfl
@[simp] theorem State.setLastGrant_gang (s : State) (die : Bool) (n c k : Nat) : (s.setLastGrant die n).gang? c k = s.gang? c k := by cases die <;> rfl

theorem exec_tokenGrant {s : State} {die : Bool} {n : Nat} {g : Gang} (hs : s.fatal = none) (hfree : s.tokensOut die.toNat < s.pool die.toNat)
    (hturn : s.tokenTurn die.toNat = some n) (hg : eldest (·.age) (s.tokenWaiters n) = some g) :
    exec (.tokenGrant die) s = .next (((s.countAt g.place .tokenGrants).putGang (g.takeToken (s.cyc n))).setLastGrant die (n % 256)) := by
  show execTokenGrant die s = _
  refine (alive_none hs).trans (congrArg Host.Outcome.next ((if_neg (Nat.not_le.mpr hfree)).trans ?_))
  unfold State.tokenTurn State.tokenWaiters at hturn
  unfold State.tokenWaiters at hg
  simp only [hturn, hg]
  rfl

theorem exec_tokenGrant_spent {s : State} {die : Bool} (hs : s.fatal = none) (hspent : s.pool die.toNat ≤ s.tokensOut die.toNat) :
    exec (.tokenGrant die) s = .next s := by
  show execTokenGrant die s = _
  exact (alive_none hs).trans (congrArg Host.Outcome.next (if_pos hspent))

/- The end of a stream (R172, R176, R183) -/

/-- The gang with its activations of the stream `id` no longer held. -/
def Gang.unhold (g : Gang) (id : Nat) : Gang :=
  { g with busy := (g.busy.map (fun b => if b.id = id then { b with hold := [] } else b)).filter Busy.pending }

theorem Gang.unhold_hold {g : Gang} {id : Nat} {b : Busy} (hb : b ∈ (g.unhold id).busy) (hid : b.id = id) : b.hold = [] := by
  obtain ⟨a, -, rfl⟩ := List.mem_map.mp (List.mem_filter.mp hb).1
  by_cases ha : a.id = id
  · rw [if_pos ha]
  · rw [if_neg ha] at hid
    exact absurd hid ha

/-- The oldest stream of a core is over: the streams left are `r`. -/
def State.endStream (s : State) (core : Nat) (x : Stream) (r : List Stream) : State :=
  ((s.modCore core (fun k => { k with streams := r })).modGang core x.slot (·.unhold x.id)).wake
    (fun g => g.core == core && (g.stat == .waiting .plane || (g.slot == x.slot && g.stat == .waiting .scoreboard)))

theorem exec_mmulStreamEnd_none {s : State} {core : BitVec 9} (hs : s.fatal = none) (hstreams : (s.core core.toNat).streams = []) :
    exec (.mmulStreamEnd core) s = .next s := by
  show execMmulStreamEnd core s = _
  refine (alive_none hs).trans ?_
  simp only [hstreams]

theorem exec_mmulStreamEnd {s : State} {core : BitVec 9} {x : Stream} {r : List Stream} (hs : s.fatal = none) (hstreams : (s.core core.toNat).streams = x :: r) :
    exec (.mmulStreamEnd core) s = .next (s.endStream core.toNat x r) := by
  show execMmulStreamEnd core s = _
  refine (alive_none hs).trans ?_
  simp only [hstreams]
  rfl

/-- A gang that is changed where it stands, its place kept. -/
theorem State.gang_modGang {s : State} {core slot : Nat} {f : Gang → Gang} (hf : ∀ g, s.gang? core slot = some g → gkey (f g).core (f g).slot = gkey core slot)
    (c k : Nat) : (s.modGang core slot f).gang? c k = if gkey c k = gkey core slot then (s.gang? core slot).map f else s.gang? c k := by
  by_cases h : gkey c k = gkey core slot
  · rw [if_pos h]
    cases hg : s.gang? core slot with
    | none =>
      rw [State.modGang, hg]
      exact (congrArg (Tab.get? s.gangs) h).trans hg
    | some g =>
      rw [State.modGang_some f hg]
      exact State.gang_putGang_of_eq _ _ (h.trans (hf g hg).symm)
  · rw [if_neg h]
    cases hg : s.gang? core slot with
    | none => rw [State.modGang, hg]
    | some g =>
      rw [State.modGang_some f hg]
      exact State.gang_putGang_of_ne _ _ (fun e => h (e.trans (hf g hg)))

section
variable {s : State} {core : Nat} {x : Stream} {r : List Stream}

@[simp] theorem State.endStream_mem : (s.endStream core x r).mem = s.mem := by
  unfold State.endStream State.modGang
  split <;> rfl

theorem State.core_endStream (c : Nat) : (s.endStream core x r).core c = (s.modCore core (fun k => { k with streams := r })).core c := by
  unfold State.endStream State.modGang
  split <;> rfl

variable (hplaced : ∀ h, s.gang? core x.slot = some h → h.core = core ∧ h.slot = x.slot)
include hplaced

/-- What becomes of the gangs when a stream is over. -/
theorem State.gang_endStream (c k : Nat) : (s.endStream core x r).gang? c k =
    (if gkey c k = gkey core x.slot then (s.gang? core x.slot).map (·.unhold x.id) else s.gang? c k).map (fun g =>
      if g.core == core && (g.stat == .waiting .plane || (g.slot == x.slot && g.stat == .waiting .scoreboard)) then g.ready else g) := by
  unfold State.endStream
  rw [State.gang_wake, State.gang_modGang]
  · rfl
  · intro g hg
    obtain ⟨hcore, hslot⟩ := hplaced g hg
    exact congrArg₂ gkey hcore hslot

/-- The activations that the stream's MMUL held may be written. -/
theorem State.endStream_hold {v : Gang} (hv : (s.endStream core x r).gang? core x.slot = some v) {b : Busy} (hb : b ∈ v.busy) (hid : b.id = x.id) :
    b.hold = [] := by
  rw [State.gang_endStream hplaced, if_pos rfl, Option.map_map] at hv
  obtain ⟨g, -, rfl⟩ := Option.map_eq_some_iff.mp hv
  refine Gang.unhold_hold (g := g) (id := x.id) ?_ hid
  simp only [Function.comp] at hb
  split at hb <;> exact hb

/-- A gang that waits to load a plane looks again. -/
theorem State.endStream_plane {k : Nat} {h : Gang} (hk : s.gang? core k = some h) (hcore : h.core = core) (hstat : h.stat = .waiting .plane) :
    ∃ v, (s.endStream core x r).gang? core k = some v ∧ v.stat = .ready := by
  rw [State.gang_endStream hplaced]
  by_cases hkey : gkey core k = gkey core x.slot
  · have hx : s.gang? core x.slot = some h := (congrArg (Tab.get? s.gangs) hkey).symm.trans hk
    rw [if_pos hkey, hx]
    exact ⟨(h.unhold x.id).ready, by simp [Gang.unhold, hcore, hstat], rfl⟩
  · rw [if_neg hkey, hk]
    exact ⟨h.ready, by simp [hcore, hstat], rfl⟩

/-- It keeps its tokens, those of its shadow too. -/
theorem State.gang_endStream_tokensHeld (c k : Nat) :
    ((s.endStream core x r).gang? c k).map Gang.tokensHeld = (s.gang? c k).map Gang.tokensHeld := by
  rw [State.gang_endStream hplaced]
  have hready : ∀ (o : Option Gang) (p : Gang → Bool), (o.map (fun g => if p g then g.ready else g)).map Gang.tokensHeld = o.map Gang.tokensHeld := by
    intro o p
    rw [Option.map_map]
    congr 1
    funext g
    simp only [Function.comp]
    split <;> rfl
  rw [hready]
  split
  · next h =>
    rw [Option.map_map]
    exact (congrArg (fun o => Option.map Gang.tokensHeld o) (congrArg (Tab.get? s.gangs) h)).symm
  · rfl

/-- Its token is back: the core holds one less, and every other core as many as before. -/
theorem State.coreHeld_endStream (hstreams : (s.core core).streams = x :: r) : (s.endStream core x r).coreHeld core + 1 = s.coreHeld core := by
  unfold State.coreHeld
  simp only [State.gang_endStream_tokensHeld hplaced, State.core_endStream, State.core_modCore, hstreams, List.length_cons]
  omega

theorem State.coreHeld_endStream_of_ne {c : Nat} (hc : c ≠ core) : (s.endStream core x r).coreHeld c = s.coreHeld c := by
  unfold State.coreHeld
  simp only [State.gang_endStream_tokensHeld hplaced, State.core_endStream, State.modCore_eq, State.core_putCore_of_ne _ _ hc]

end

/-- A sum in which one term is less by one. -/
theorem sum_range_add_one {f f' : Nat → Nat} {n i : Nat} (hi : i < n) (hone : f' i + 1 = f i) (hothers : ∀ j, j ≠ i → f' j = f j) :
    ((List.range n).map f').sum + 1 = ((List.range n).map f).sum := by
  induction n with
  | zero => omega
  | succ n ih =>
    rw [List.sum_range_succ, List.sum_range_succ]
    by_cases hin : i = n
    · subst hin
      have hsame : (List.range i).map f' = (List.range i).map f := List.map_congr_left fun j hj => hothers j (List.mem_range.mp hj).ne
      rw [hsame]
      omega
    · have := ih (by omega)
      rw [hothers n (Ne.symm hin)]
      omega

theorem State.tokensOut_endStream {s : State} {core : Nat} {x : Stream} {r : List Stream}
    (hplaced : ∀ h, s.gang? core x.slot = some h → h.core = core ∧ h.slot = x.slot) (hstreams : (s.core core).streams = x :: r) :
    (s.endStream core x r).tokensOut (core / 256) + 1 = s.tokensOut (core / 256) := by
  have hcore : core / 256 * 256 + core % 256 = core := by omega
  refine sum_range_add_one (i := core % 256) (Nat.mod_lt _ (by decide)) ?_ fun j hj => ?_
  · rw [hcore]
    exact State.coreHeld_endStream hplaced hstreams
  · exact State.coreHeld_endStream_of_ne hplaced (by omega)

/- A transom refetch (R162) -/

theorem foldl_eq_self {α β : Type} {f : β → α → β} {l : List α} {b : β} (h : ∀ a ∈ l, f b a = b) : l.foldl f b = b := by
  induction l with
  | nil => rfl
  | cons a l ih => rw [List.foldl_cons, h a (by simp), ih fun a ha => h a (by simp [ha])]

section
variable {r : RowAt} {s : State} {ps : List (Nat × Nat)} {leaf : Nat × Nat → Leaf}
  (hleaf : ∀ p ∈ ps, s.translate r.core (r.ctx s) p.1 = .leaf (leaf p))

theorem RowAt.note_looks (r : RowAt) (s : State) (write : Bool) (ps : List (Nat × Nat)) : s.LooksLike (r.note s write ps) :=
  .foldl (fun _ _ => lookUp_looks ..) ps s

include hleaf

/-- A span whose pages have leaves is translated without a fault. -/
theorem RowAt.xlate_leaves : r.xlate s false ps = ([], ps.map (fun p => (p.1, p.2, leaf p))) := by
  have hfold (acc : List (Nat × Nat × Leaf)) : ps.foldl (fun (x : List LaneFault × List (Nat × Nat × Leaf)) p => (x.1, x.2 ++ [(p.1, p.2, leaf p)]))
      ([], acc) = ([], acc ++ ps.map (fun p => (p.1, p.2, leaf p))) := by
    clear hleaf
    induction ps generalizing acc with
    | nil => simp
    | cons p ps ih => simp [ih]
  refine (foldl_congr_mem fun x p hp => ?_).trans (hfold [])
  rw [hleaf p hp]
  rfl

theorem RowAt.waits_eq_false (hwaits : ∀ p ∈ ps, s.grantWaits r.core (r.ctx s) r.key (leaf p).door = false) : r.waits s ps = false :=
  any_false fun p hp => by rw [hleaf p hp]; exact hwaits p hp

omit hleaf in
theorem RowAt.grants_all (hgranted : ∀ p ∈ ps, s.granted r.core (r.ctx s) r.key (leaf p).door = true) :
    (ps.map (fun p => (p.1, p.2, leaf p))).find? (fun p => !r.grants s p.2.2) = none := by
  simpa [List.find?_eq_none, RowAt.grants] using hgranted

end

theorem State.LooksLike.mem {s t : State} (h : s.LooksLike t) : t.mem = s.mem := by obtain ⟨_, _, _, _, _, rfl⟩ := h; rfl
theorem State.LooksLike.leases {s t : State} (h : s.LooksLike t) : t.leases = s.leases := by obtain ⟨_, _, _, _, _, rfl⟩ := h; rfl
theorem State.modLaunch_mem (s : State) (k : Nat) (f : Launch → Launch) : (s.modLaunch k f).mem = s.mem := by unfold State.modLaunch; split <;> rfl
theorem State.modLaunch_leases (s : State) (k : Nat) (f : Launch → Launch) : (s.modLaunch k f).leases = s.leases := by unfold State.modLaunch; split <;> rfl

/-- Who reads the source of a slot again. -/
def refetchAt (launch core agent : Nat) (key : Word) : RowAt :=
  { core := core, ix := agent - 64
    c := { crew := 0, launch := launch, program := false, slot := 0, op := 0, wid := 0, postPc := 0, pc := 0, latch := none, key := key, owed := false
           stat := .draining }
    key := key, wid := 0, pcofs := 0 }

/-- A refetch whose source is in this module's memory, granted and with no answer of a peer, reads the slot as its source holds it now. -/
theorem refetch_here {s : State} {launch core agent slot : Nat} {va : VAddr} {key : Word} {den : BitVec 20 → Nat → Denial} {at_ : Nat → Nat} {l : Launch}
    (hspans : s.Spans core (s.ctxOf launch) key (piecesOf va.toNat imageBytes) at_) (hl : s.launch? launch = some l) (hchecks : l.checks = [])
    (hfar : ∀ f ∈ s.far, ∀ k, f.what ≠ .check launch k) :
    let bytes := ((piecesOf va.toNat imageBytes).map (fun p => s.physRead (at_ p.1) p.2)).flatten
    ∃ t, t.mem = s.mem ∧ t.leases = s.leases ∧
      s.refetch launch core agent slot (va, key) den = (t, .slot (slotOfBytes bytes (if anyBad bytes then none else some (va, key)))) := by
  intro bytes
  have : Nonempty Leaf := ⟨Leaf.ofEntry 0⟩
  choose! leaf hleaf hloc hready hgranted hwaits using hspans
  have hxlate := RowAt.xlate_leaves (r := refetchAt launch core agent key) hleaf
  have hnowait := RowAt.waits_eq_false (r := refetchAt launch core agent key) hleaf hwaits
  have hgrants := RowAt.grants_all (r := refetchAt launch core agent key) (leaf := leaf) hgranted
  have hnoted := (refetchAt launch core agent key).note_looks s false (piecesOf va.toNat imageBytes)
  unfold refetchAt at hxlate hnowait hgrants
  unfold State.refetch
  simp only [hxlate, hnowait, hgrants, hl, Option.map_some, Option.getD_some, hchecks]
  generalize hixs : (List.range (List.map (fun p => (p.1, p.2, leaf p)) (piecesOf va.toNat imageBytes)).length).map (refetchIx core agent slot) = ixs
  have hhere (y : (Nat × Nat × Leaf) × Nat) (hy : y ∈ ((piecesOf va.toNat imageBytes).map (fun p => (p.1, p.2, leaf p))).zip ixs) :
      y.1.2.2.loc y.1.1 = .here (at_ y.1.1) := by
    obtain ⟨p, hp, hpy⟩ := List.mem_map.mp (List.of_mem_zip hy).1
    rw [← hpy, hloc p hp]
  refine ⟨_, (State.modLaunch_mem ..).trans hnoted.mem, (State.modLaunch_leases ..).trans hnoted.leases,
    (if_neg Bool.false_ne_true).trans ((if_neg Bool.false_ne_true).trans ((if_neg ?ready).trans
    ((if_neg ?unasked).trans ((if_neg ?answered).trans (congrArg (fun b => (_, Refetched.slot (slotOfBytes b (if anyBad b then none else some (va, key)))))
      ?bytes)))))⟩
  case ready =>
    refine Bool.eq_false_iff.mp (any_false fun y hy => ?_)
    obtain ⟨p, hp, rfl⟩ := List.mem_map.mp hy
    simp [hloc p hp, hready p hp]
  case unasked =>
    rw [foldl_eq_self fun y hy => by rw [hhere y hy]]
    simpa using fun f hf k _ => hfar f hf k
  case answered => simp
  case bytes =>
    rw [List.map_congr_left (g := (fun p => s.physRead (at_ p.1) p.2.1) ∘ Prod.fst) fun y hy => by rw [hhere y hy]; rfl, ← List.map_map,
      List.map_fst_zip (by simp [← hixs]), List.map_map]
    rfl

/-- What is searched for is found changed, when it alone is changed. -/
theorem find?_map_if {α : Type} {p : α → Bool} {f : α → α} (h : ∀ a, p (f a) = p a) (l : List α) :
    (l.map (fun a => if p a then f a else a)).find? p = (l.find? p).map f := by
  have hkept : p ∘ (fun a => if p a then f a else a) = p := by
    funext a
    simp only [Function.comp]
    split
    · exact h a
    · rfl
  rw [List.find?_map, hkept]
  exact Option.map_congr fun a ha => if_pos (List.find?_some ha)

theorem State.lease?_setSlot (s : State) (core launch t : Nat) (x : Slot) :
    (s.setSlot core launch t x).lease? core launch = (s.lease? core launch).map (fun l => { l with slots := Tab.set l.slots t x }) :=
  find?_map_if (p := fun l : Lease => l.core == core && l.launch == launch) (f := fun l => { l with slots := Tab.set l.slots t x }) (fun _ => rfl) s.leases

/-- A leased slot reads what was written to it. -/
theorem State.slotOf_setSlot {s : State} {core launch : Nat} (h : (s.lease? core launch).isSome) (t : Nat) (x : Slot) :
    (s.setSlot core launch t x).slotOf core launch t = x := by
  obtain ⟨l, hl⟩ := Option.isSome_iff_exists.mp h
  unfold State.slotOf
  rw [State.lease?_setSlot, hl]
  simp

/-- A slot that was filled from memory is leased. -/
theorem State.lease_of_src {s : State} {core launch t : Nat} {x : VAddr × Word} (h : (s.slotOf core launch t).src = some x) :
    (s.lease? core launch).isSome := by
  by_contra hnone
  rw [Bool.not_eq_true, Option.isSome_eq_false_iff, Option.isNone_iff_eq_none] at hnone
  rw [State.slotOf, hnone] at h
  exact Option.some_ne_none x h.symm

/-- The record of a read of a slot's source that is denied to a gang (R242). -/
def State.refetchDenial (s : State) (g : Gang) (key : Word) (tag : BitVec 20) (va : Nat) : Denial :=
  { ctx := s.ctxOf g.launch, wid := g.widOf g.lowLive, key := key, tag := tag, core := g.core, agent := g.slot, write := false
    pcofs := (g.pc - s.entryOf g).setWidth 32, va := va, cyc := s.cyc g.core }

section
variable {s : State} {core : BitVec 9} {slot : BitVec 6} {g : Gang} {n : Nat} (hs : s.fatal = none) (hg : s.gang? core.toNat slot.toNat = some g)
  (hstat : g.stat = .waiting (.refetch n))
include hs hg hstat

theorem exec_transomRefetch_clean (hsrc : (s.slotOf g.core g.launch n).src = none) : exec (.transomRefetch core slot) s = .next (s.putGang g.ready) := by
  show execTransomRefetch core slot s = _
  refine (alive_none hs).trans ?_
  simp only [hg, hstat, hsrc]

theorem exec_transomRefetch_here {va : VAddr} {key : Word} {at_ : Nat → Nat} {l : Launch} (hsrc : (s.slotOf g.core g.launch n).src = some (va, key))
    (hl : s.launch? g.launch = some l) (hchecks : l.checks = []) (hfar : ∀ f ∈ s.far, ∀ k, f.what ≠ .check g.launch k)
    (hspans : s.Spans g.core (s.ctxOf g.launch) key (piecesOf va.toNat imageBytes) at_) :
    let bytes := ((piecesOf va.toNat imageBytes).map (fun p => s.physRead (at_ p.1) p.2)).flatten
    ∃ t : State, t.mem = s.mem ∧ t.leases = s.leases ∧ exec (.transomRefetch core slot) s =
      .next ((t.setSlot g.core g.launch n (slotOfBytes bytes (if anyBad bytes then none else some (va, key)))).putGang g.ready) := by
  intro bytes
  obtain ⟨t, hmem, hleases, hread⟩ := refetch_here (core := g.core) (agent := g.slot) (slot := n) (den := s.refetchDenial g key) hspans hl hchecks hfar
  refine ⟨t, hmem, hleases, ?_⟩
  show execTransomRefetch core slot s = _
  refine (alive_none hs).trans ?_
  simp only [hg, hstat, hsrc]
  unfold State.refetchDenial at hread
  rw [hread]

end

/-- Settles O45: each step of the engine is one equation for the state it gives, and what the clauses say of that state are lemmas about it. -/
theorem arrayEngineRows : Obligations.ArrayEngineRows := by
  unfold Obligations.ArrayEngineRows
  intro s core slot g die n hs
  refine ⟨?grant, exec_tokenGrant_spent hs, exec_mmulStreamEnd_none hs, ?streamEnd, ?refetch⟩
  case grant =>
    intro hfree want hturn hg
    refine ⟨_, exec_tokenGrant hs hfree hturn hg, State.lastGrant_setLastGrant _ die _, State.setLastGrant_mem _ die _, ?_⟩
    rw [State.setLastGrant_gang]
    exact State.gang_putGang_of_eq _ _ (by rw [Gang.takeToken_core, Gang.takeToken_slot])
  case streamEnd =>
    intro x r hstreams hplaced
    have hcore : ((s.endStream core.toNat x r).core core.toNat).streams = r := by rw [State.core_endStream, State.core_modCore]
    exact ⟨_, exec_mmulStreamEnd hs hstreams, hcore, State.endStream_mem, State.coreHeld_endStream hplaced hstreams,
      State.tokensOut_endStream hplaced hstreams, fun v hv b hb hid => State.endStream_hold hplaced hv hb hid,
      fun k h hk hat hstat => State.endStream_plane hplaced hk hat hstat⟩
  case refetch =>
    intro hg hkey hstat
    refine ⟨exec_transomRefetch_clean hs hg hstat, ?_⟩
    intro va key at_ l hsrc hl hchecks hfar hspans bytes
    obtain ⟨t, hmem, hleases, hexec⟩ := exec_transomRefetch_here hs hg hstat hsrc hl hchecks hfar hspans
    have hlease : (t.lease? g.core g.launch).isSome := by
      unfold State.lease?
      rw [hleases]
      exact State.lease_of_src hsrc
    exact ⟨_, hexec, hmem, State.gang_putGang_of_eq _ _ hkey.symm, State.slotOf_setSlot hlease n _⟩

end Sys2Proof.Machine
end

section
/-! PROOFS. Bring-up (R401 to R406): module reset, the power limit, channel enables, the image and readiness. -/
namespace Sys2Proof.Machine

/- Module reset (R404) -/

/-- The queue descriptors with no queue in service are zero (R320). -/
theorem queueTable_nil : queueTable [] = List.replicate 4096 0 := by
  have hrow : ((leBytes 64 (0 : BitVec 192).toNat).zip (List.range 64)).map (fun x => x.1 &&& queueRw x.2) = List.replicate 64 0 := by decide
  unfold queueTable
  simp only [List.getD_nil, hrow, List.map_const', List.length_range, List.flatten_replicate_replicate]

theorem clean_queueTable_nil : clean (queueTable []) = List.replicate 4096 (0, false) := by rw [queueTable_nil, clean, List.map_replicate]

theorem State.clearQueues_of_no_image {s : State} (himage : s.image = false) : s.clearQueues = s := if_neg (by simp [himage])

theorem State.clearQueues_mem_outside (s : State) {x : Nat} (hx : x < s.qtbase ∨ s.qtbase + 4096 ≤ x) :
    Store.get s.clearQueues.mem x = Store.get s.mem x := by
  unfold State.clearQueues
  split
  · exact State.physWrite_mem_outside s _ (by rwa [clean_queueTable_nil, List.length_replicate])
  · rfl

theorem State.clearQueues_mem_within {s : State} (himage : s.image = true) (hfits : s.qtbase + 4096 ≤ Config.physBytes) {x : Nat} (hlo : s.qtbase ≤ x)
    (hhi : x < s.qtbase + 4096) : Store.get s.clearQueues.mem x = 0 := by
  obtain ⟨k, rfl⟩ := Nat.exists_eq_add_of_le hlo
  have hk : k < 4096 := Nat.lt_of_add_lt_add_left hhi
  rw [State.clearQueues, if_pos himage, clean_queueTable_nil,
    State.physWrite_mem_within (by rwa [List.length_replicate]) (by rwa [List.length_replicate]), List.getD_replicate _ hk]

/- The power limit (R405) and the channel enables (R194) -/

section
variable {s : State} (hs : s.fatal = none)
include hs

theorem exec_setPowerLimit {w most : Nat} (hlo : 900 ≤ w) (hhi : w ≤ 1600) :
    exec (.setPowerLimit w most) s = .next ({ s with watts := w }.setPool (min most (poolOf w))) := by
  show execSetPowerLimit w most s = _
  exact (alive_none hs).trans (congrArg Host.Outcome.next (if_pos ⟨hlo, hhi⟩))

theorem exec_setPowerLimit_illegal {w most : Nat} (hw : w < 900 ∨ 1600 < w) : exec (.setPowerLimit w most) s = .next s := by
  show execSetPowerLimit w most s = _
  exact (alive_none hs).trans (congrArg Host.Outcome.next (if_neg (by omega)))

theorem exec_channelEnableWrite (core : BitVec 9) (en : BitVec 8) :
    exec (.channelEnableWrite core en) s = .next (s.modCore core.toNat (fun k => { k with en := en })) := by
  show execChannelEnableWrite core en s = _
  exact alive_none hs

/- The image (R403) -/

theorem exec_imageLoad (a b : Bool) (v fuse : Nat) (fw : Firmware) :
    exec (.imageLoad a b v fuse fw) s =
      .next (if bootStatus a b v fuse = 0 then { s with boot := 0 }.startFirmware fw else { s with boot := bootStatus a b v fuse }) := by
  show execImageLoad a b v fuse fw s = _
  exact alive_none hs

end

theorem bootStatus_eq (a b : Bool) (v fuse : Nat) : bootStatus a b v fuse = if a = false then 1 else if b = false then 2 else if v < fuse then 3 else 0 := by
  cases a <;> cases b <;> rfl

section
variable (s : State) (fw : Firmware)

theorem State.startFirmware_boot : (s.startFirmware fw).boot = s.boot := State.engineWrite_boot ..
theorem State.startFirmware_image : (s.startFirmware fw).image = true := State.engineWrite_image ..
theorem State.startFirmware_qtbase : (s.startFirmware fw).qtbase = fw.qtbase - fw.qtbase % 4096 := State.engineWrite_qtbase ..
theorem State.startFirmware_kickFrame : (s.startFirmware fw).kickFrame = fw.kickFrame := State.engineWrite_kickFrame ..
theorem State.startFirmware_peerNo : (s.startFirmware fw).peerNo = fw.self := State.engineWrite_peerNo ..
theorem State.startFirmware_dumpLen : (s.startFirmware fw).dumpLen = fw.dumpLen := State.engineWrite_dumpLen ..

end

/- Readiness (R402) -/

/-- What has reached the module and is not looked at yet, and how far the module is ready, are as they were. -/
structure SameInbox (s t : State) : Prop where
  readyBits : t.readyBits = s.readyBits
  mbox : t.mbox = s.mbox
  farIn : t.farIn = s.farIn
  agenda : t.agenda = s.agenda

theorem SameInbox.rfl {s : State} : SameInbox s s := ⟨.refl _, .refl _, .refl _, .refl _⟩

theorem SameInbox.trans {s t u : State} (h : SameInbox s t) (h' : SameInbox t u) : SameInbox s u :=
  ⟨h'.readyBits.trans h.readyBits, h'.mbox.trans h.mbox, h'.farIn.trans h.farIn, h'.agenda.trans h.agenda⟩

theorem SameInbox.foldl {α : Type} {f : State → α → State} (h : ∀ s a, SameInbox s (f s a)) (l : List α) (s : State) : SameInbox s (l.foldl f s) := by
  induction l generalizing s with
  | nil => exact .rfl
  | cons a l ih => exact (h s a).trans (ih _)

theorem physWrite_sameInbox (s : State) (a : Nat) (l : List PByte) : SameInbox s (s.physWrite a l) := ⟨by simp, by simp, by simp, by simp⟩

theorem setQ_sameInbox (s : State) (q ofs x : Nat) : SameInbox s (s.setQ q ofs x) := physWrite_sameInbox s _ _

theorem restartQ_sameInbox (s : State) (q : Nat) : SameInbox s (s.restartQ q) := by
  unfold State.restartQ
  split
  · refine .trans (.trans (.trans ?_ (setQ_sameInbox _ q 24 0)) (setQ_sameInbox _ q 32 0)) (setQ_sameInbox _ q 40 0)
    exact ⟨rfl, rfl, rfl, rfl⟩
  · exact .rfl

theorem kickNow_sameInbox (s : State) (q : Nat) (w : DWord) (entry : Option Acl) : SameInbox s (s.kickNow q w entry) := by
  refine (restartQ_sameInbox s q).trans ?_
  unfold State.kickNow
  dsimp only
  split
  · refine (setQ_sameInbox _ q 24 w.toNat).trans ?_
    cases entry with
    | some e => exact ⟨rfl, rfl, rfl, rfl⟩
    | none => exact .rfl
  · exact ⟨rfl, rfl, rfl, rfl⟩

theorem kick_sameInbox (s : State) (q : Nat) (w : DWord) (entry : Option Acl) : SameInbox s (s.kick q w entry) := by
  unfold State.kick
  split
  · exact kickNow_sameInbox s q w entry
  · exact ⟨rfl, rfl, rfl, rfl⟩

theorem flushKicks_sameInbox (s : State) : SameInbox s s.flushKicks := by
  unfold State.flushKicks
  refine .trans ?_ (.foldl (fun t (x : Nat × DWord × Option Acl) => kick_sameInbox t x.1 x.2.1 x.2.2) _ _)
  exact ⟨rfl, rfl, rfl, rfl⟩

theorem flushHeld_sameInbox (s : State) : SameInbox s s.flushHeld :=
  .trans (.foldl (fun t x => physWrite_sameInbox t x.1 (clean x.2)) (s.held.filter (fun x => s.memReady x.1)) s) ⟨rfl, rfl, rfl, rfl⟩

/-- A bit of READY rises, and what the module has not answered is put before what it does next (R402). -/
def State.riseReady (s : State) (bit : BitVec 6) : State :=
  { s with readyBits := s.readyBits ||| oneBit 64 bit.toNat, agenda := s.mbox ++ s.farIn ++ s.agenda, mbox := [], farIn := [], walking := [] }

/-- A function is ready: what waited for memory looks again. -/
def State.nowReady (s : State) (bit : BitVec 6) : State := (s.riseReady bit).flushHeld.flushKicks.wake (fun g => g.stat == .waiting .memory)

theorem nowReady_sameInbox (s : State) (bit : BitVec 6) : SameInbox (s.riseReady bit) (s.nowReady bit) :=
  (flushHeld_sameInbox _).trans ((flushKicks_sameInbox _).trans ⟨rfl, rfl, rfl, rfl⟩)

theorem State.nowReady_mem {s : State} (bit : BitVec 6) (hheld : s.held = []) (hkicks : s.kicksHeld = []) : (s.nowReady bit).mem = s.mem := by
  have hflush : (s.riseReady bit).flushHeld = s.riseReady bit := by
    have : (s.riseReady bit).held = [] := hheld
    unfold State.flushHeld
    rw [this, List.filter_nil, List.filter_nil, List.foldl_nil, ← this]
  have hnone : (s.riseReady bit).kicksHeld = [] := hkicks
  rw [State.nowReady, hflush, State.wake_mem, State.flushKicks, hnone]
  rfl

theorem exec_functionReady {s : State} {bit : BitVec 6} (hs : s.fatal = none) (hbit : bit.toNat < 58) (himage : s.image = true ∨ bit = 0) :
    exec (.functionReady bit) s = .next (s.nowReady bit) := by
  show execFunctionReady bit s = _
  refine (alive_none hs).trans (congrArg Host.Outcome.next (if_neg ?_))
  rintro (h | ⟨hno, hbit⟩)
  · exact Nat.not_lt.mpr h hbit
  · exact himage.elim (fun h => by simp [State.noImage, h] at hno) hbit

theorem exec_functionReady_none {s : State} {bit : BitVec 6} (hs : s.fatal = none) (h : 58 ≤ bit.toNat ∨ (s.image = false ∧ bit ≠ 0)) :
    exec (.functionReady bit) s = .next s := by
  show execFunctionReady bit s = _
  refine (alive_none hs).trans (congrArg Host.Outcome.next (if_pos (h.imp_right fun ⟨himage, hbit⟩ => ⟨?_, hbit⟩)))
  simp [State.noImage, himage]

/-- Settles O51: an equation for each of the instructions, with the state of reset, of a started image and of a ready function described by lemmas. -/
theorem bringUpRows : Obligations.BringUpRows := by
  unfold Obligations.BringUpRows
  intro s w most core en a b v fuse fw bit
  refine ⟨?reset, fun hs => ⟨fun hlo hhi => exec_setPowerLimit hs hlo hhi,
    exec_setPowerLimit_illegal hs, ?enable, ?image, ?ready, exec_functionReady_none hs⟩⟩
  case reset =>
    refine ⟨_, rfl, rfl, rfl, rfl, rfl, rfl, rfl, rfl, rfl, rfl, rfl, rfl, fun himage => ?_, fun x hx => s.clearQueues_mem_outside hx,
      fun himage hfits x hlo hhi => State.clearQueues_mem_within himage hfits hlo hhi⟩
    show s.clearQueues.mem = s.mem
    rw [State.clearQueues_of_no_image himage]
  case enable =>
    exact ⟨_, exec_channelEnableWrite hs core en, by rw [State.core_modCore], State.modCore_gangs .., State.modCore_mem ..,
      fun c hc => State.core_putCore_of_ne s _ hc⟩
  case image =>
    rw [← bootStatus_eq]
    refine ⟨_, exec_imageLoad hs a b v fuse fw, ?_⟩
    by_cases hboot : bootStatus a b v fuse = 0
    · rw [if_pos hboot, hboot]
      have hstart := State.startFirmware_boot { s with boot := 0 } fw
      exact ⟨hstart, fun h => absurd hstart h, fun _ => ⟨State.startFirmware_image .., State.startFirmware_qtbase .., State.startFirmware_kickFrame ..,
        State.startFirmware_peerNo .., State.startFirmware_dumpLen ..⟩⟩
    · rw [if_neg hboot]
      exact ⟨rfl, fun _ => rfl, fun h => absurd h hboot⟩
  case ready =>
    intro hbit himage
    obtain ⟨hready, hmbox, hfarIn, hagenda⟩ := nowReady_sameInbox s bit
    exact ⟨_, exec_functionReady hs hbit himage, hready, hmbox, hfarIn, hagenda, State.nowReady_mem bit⟩

end Sys2Proof.Machine
end

section
/-! PROOFS. The residue lane rows (R188, R199, R201 to R203). -/
namespace Sys2Proof.Machine

/-- With fewer than seven channels a residue instruction traps before any lane (R199). -/
theorem residueBody_of_fewChannels {f : State → Gang → LaneMask → Res} {s : State} {g : Gang} (h : (bitsOn (s.core g.core).en).length < 7)
    (act : LaneMask) : residueBody f s g act = .trap 20 := if_pos (decide_eq_true h)

/-- RFWD and RMAD compute their rows of octets. -/
theorem exec_octetRow {i : Instr} {s : State} {g : Gang} {r : LaneRow} (hi : Issues i s g) (hr : octetRow s g i = some r)
    (hc : g.CleanIn (g.acting i) r.regs) (hch : 7 ≤ (bitsOn (s.core g.core).en).length) :
    exec i s = .next (s.completes i g s (r.write (g.acting i) g)) := by
  unfold octetRow at hr
  split at hr <;> cases hr
  case h_1 | h_2 => exact runGang_row hi hc (fun _ _ => rfl) rfl (residueBody_of_channels hch _) rfl (fun _ => rfl) (fun _ => rfl)

/- RREV -/

@[simp] theorem vPut_sat (g : Gang) (t : Fmt) (n lane x : Nat) (p : Bool) : (g.vPut t n lane x p).sat = g.sat := by
  unfold Gang.vPut
  dsimp only
  split <;> rfl

@[simp] theorem mBits_dead (g : Gang) (n : Nat) (l : List (Nat × Bool)) : (g.mBits n l).dead = g.dead := by
  unfold Gang.mBits
  split <;> rfl

/-- The lanes' conversions written to a destination, under a saturation bit (R196). -/
def Gang.putConvs (g : Gang) (t : Fmt) (d : Nat) (sat : Bool) (conv : Nat → Conv) (l : List Nat) : Gang :=
  l.foldl (fun v k => v.vPut t d k ((conv k).result t sat).1 ((conv k).result t sat).2) g

theorem putConvs_dead (g : Gang) (t : Fmt) (d : Nat) (sat : Bool) (conv : Nat → Conv) (l : List Nat) :
    (g.putConvs t d sat conv l).dead = g.dead := by
  induction l generalizing g with
  | nil => rfl
  | cons k l ih => exact (ih _).trans (vPut_dead ..)

theorem live_mBits_putConvs (g : Gang) (t : Fmt) (d : Nat) (sat : Bool) (conv : Nat → Conv) (l : List Nat) (n : Nat) (o : List (Nat × Bool))
    (m : LaneMask) : ((g.putConvs t d sat conv l).mBits n o).live m = g.live m := by
  rw [Gang.live, mBits_dead, putConvs_dead, Gang.live]

/-- RREV reads the saturation bit again for each lane; its writes leave the bit as it was. -/
theorem foldl_vPut_result (g : Gang) (t : Fmt) (d : Nat) (conv : Nat → Conv) (l : List Nat) :
    (l.map (fun k => (k, conv k))).foldl (fun v x => v.vPut t d x.1 (x.2.result t v.sat).1 (x.2.result t v.sat).2) g =
      g.putConvs t d g.sat conv l := by
  induction l generalizing g with
  | nil => rfl
  | cons k l ih =>
    refine (ih _).trans ?_
    rw [vPut_sat]
    rfl

/-- What RREV makes of the octet in a lane (R196). -/
def State.rrevConv (s : State) (g : Gang) (h : VH) (a : VSrc) (k : Nat) : Conv := convert (s.core g.core).en (s.pair g h.lit a k)

/-- RREV writes its destination, its overflow mask and its reports when no lane raises RESIDUE_OVERFLOW (R196, R198, R203). -/
theorem exec_rrev_quiet {h : VH} {t f2 : Fmt} {d : BitVec 8} {a : VSrc} {c : BitVec 4} {s : State} {g : Gang}
    (hi : Issues (.rrev h t f2 d a c) s g) (hc : g.CleanIn (g.acting (.rrev h t f2 d a c)) (srcRegs .n64 a))
    (hch : 7 ≤ (bitsOn (s.core g.core).en).length)
    (hq : g.ovt = false ∨ ∀ k ∈ bitsOn (g.acting (.rrev h t f2 d a c)), (s.rrevConv g h a k).isOverflow = false) :
    let l := bitsOn (g.acting (.rrev h t f2 d a c))
    let conv := s.rrevConv g h a
    exec (.rrev h t f2 d a c) s = .next (s.completes (.rrev h t f2 d a c) g (s.reportConv g (l.map conv))
      ((g.putConvs (t.or .i64) d.toNat g.sat conv l).mBits c.toNat (l.map (fun k => (k, (conv k).isOverflow))))) := by
  refine runGang_ok hi rfl ((residueBody_of_channels hch _).trans ?_)
  dsimp only
  rw [lanewise_quiet hc ?noTrap]
  case noTrap =>
    intro k hk
    refine if_neg fun hraise => ?_
    obtain ⟨hover, hovt⟩ := (Bool.and_eq_true _ _).mp hraise
    rcases hq with hclear | hin
    · exact Bool.eq_false_iff.mp hclear hovt
    · exact Bool.eq_false_iff.mp (hin k hk) hover
  dsimp only
  rw [foldl_vPut_result, live_mBits_putConvs, List.map_map]
  rfl

/-- Settles O17: a residue row is its check of the channels and then its lanes; RREV's lanes raise nothing where OVT is clear or nothing overflows. -/
theorem residueRows : Obligations.ResidueRows := by
  refine ⟨⟨fun i s g r => exec_octetRow, fun s g h t f2 d a c => exec_rrev_quiet⟩, fun i s g hi hfew hrow => ?unavailable⟩
  case unavailable =>
    split at hrow
    case h_5 => exact hrow.elim
    all_goals exact runGang_trap hi rfl (residueBody_of_fewChannels hfew _)

end Sys2Proof.Machine
end


section
/-! PROOFS. Page walks (R214), grant fills (R245), waiting fault records (R217), and the completion of accesses and of late results (R56, R283, R284). -/
namespace Sys2Proof.Machine

/- Lookaside buffers -/

section
variable {s : State} {core ctx va : Nat}

theorem State.translate_micro {e : TlbEntry} (h : s.microTlb core ctx va = some e) : s.translate core ctx va = .leaf e.leaf := by
  simp only [State.translate, h]

theorem State.translate_l2 {e : TlbEntry} (hmicro : s.microTlb core ctx va = none) (h : s.l2Tlb core ctx va = some e) :
    s.translate core ctx va = .leaf e.leaf := by
  simp only [State.translate, hmicro, h]

theorem State.translate_walk (hmicro : s.microTlb core ctx va = none) (hl2 : s.l2Tlb core ctx va = none) :
    s.translate core ctx va = s.walk ctx va := by
  simp only [State.translate, hmicro, hl2]

theorem State.noteXlate_micro {e : TlbEntry} (agent : Nat) (h : s.microTlb core ctx va = some e) : s.noteXlate core agent ctx va = s := by
  simp only [State.noteXlate, h]

theorem State.noteXlate_l2 {e : TlbEntry} (agent : Nat) (hmicro : s.microTlb core ctx va = none) (h : s.l2Tlb core ctx va = some e) :
    s.noteXlate core agent ctx va = (s.countAt (.core core) .utlbMiss).fillTlb core ctx va e.leaf false := by
  simp only [State.noteXlate, hmicro, h]

theorem State.noteXlate_walk {l : Leaf} (agent : Nat) (hmicro : s.microTlb core ctx va = none) (hl2 : s.l2Tlb core ctx va = none)
    (h : s.walk ctx va = .leaf l) : s.noteXlate core agent ctx va = (s.countWalk core).fillTlb core ctx va l true := by
  simp only [State.noteXlate, hmicro, hl2, h]

theorem State.countWalk_ctr (s : State) (core : Nat) : (s.countWalk core).ctr = (((s.count .utlbMiss).count .l2tlbMiss).count .walks).ctr := by
  simp only [State.countWalk, State.countAt_ctr, State.count]
theorem State.countWalk_tlb (s : State) (core : Nat) : (s.countWalk core).tlb = s.tlb := by simp only [State.countWalk, State.countAt_tlb]

/-- A fill serves the page that it is made for: a core that held no translation of it holds the filled one. -/
theorem State.microTlb_fillTlb (l : Leaf) (l2 : Bool) (h : s.microTlb core ctx va = none) :
    (s.fillTlb core ctx va l l2).microTlb core ctx va = some { core := core, l2 := false, ctx := ctx, page := va / pageBytes l.size, leaf := l } := by
  unfold State.microTlb at h ⊢
  rw [State.fillTlb, List.find?_append, h, Option.none_or]
  exact List.find?_cons_of_pos (by simp [TlbEntry.holds])

theorem State.translate_fillTlb (l : Leaf) (l2 : Bool) (h : s.microTlb core ctx va = none) :
    (s.fillTlb core ctx va l l2).translate core ctx va = .leaf l :=
  translate_micro (microTlb_fillTlb l l2 h)

end

/-- PAGE_WALK of a page with a valid translation notes the lookup. -/
theorem exec_pageWalk {s : State} {core : BitVec 9} {ctx : BitVec 4} {va : VAddr} {l : Leaf} (hs : s.fatal = none)
    (h : s.translate core.toNat ctx.toNat va.toNat = .leaf l) :
    exec (.pageWalk { core := core, ctx := ctx } va) s = .next (s.noteXlate core.toNat 0 ctx.toNat va.toNat) := by
  show execPageWalk { core := core, ctx := ctx } va s = _
  exact (alive_none hs).trans (congrArg Host.Outcome.next (if_neg (by rw [h]; exact nofun)))

/- Grant fills -/

theorem exec_grantFill {s : State} {core : BitVec 9} {ctx : BitVec 4} {key : Word} {n : BitVec 14} (hs : s.fatal = none)
    (habsent : ∀ x ∈ s.grants, ¬ (x.core = core.toNat ∧ x.ctx = ctx.toNat ∧ x.key = key ∧ x.group = n.toNat))
    (hready : ∀ i < 64, s.grantWaits core.toNat ctx.toNat key (BitVec.ofNat 20 (n.toNat * 64 + i)) = false) :
    exec (.grantFill { core := core, ctx := ctx } key n) s = .next (s.fillGrant core.toNat ctx.toNat key n.toNat) := by
  show execGrantFill { core := core, ctx := ctx } key n s = _
  refine (alive_none hs).trans (congrArg Host.Outcome.next (if_neg ?_))
  rw [Bool.not_eq_true, Bool.or_eq_false_iff]
  exact ⟨any_false fun x hx => by simpa [and_assoc] using habsent x hx, any_false fun i hi => hready i (List.mem_range.mp hi)⟩

/-- The 64 decisions of an entry are those of the tables. -/
theorem State.grantGroup_bit (s : State) (ctx : Nat) (key : Word) {tag : BitVec 20} {n : Nat} (h : tag.toNat / 64 = n) :
    (s.grantGroup ctx key n).getLsbD (tag.toNat % 64) = s.grantTable ctx key tag := by
  have htag : BitVec.ofNat 20 (n * 64 + tag.toNat % 64) = tag := by
    apply BitVec.eq_of_toNat_eq
    rw [BitVec.toNat_ofNat, ← h]
    omega
  have hlt : tag.toNat % 64 < 64 := Nat.mod_lt _ (by decide)
  rw [State.grantGroup, getLsbD_maskOf]
  simp only [hlt, decide_true, Bool.true_and, List.mem_filter, List.mem_range, true_and, htag, Bool.decide_eq_true]

/-- The entry that GRANT_FILL makes. -/
def State.filledGrant (s : State) (core ctx : Nat) (key : Word) (n : Nat) : GrantEntry :=
  { core := core, ctx := ctx, key := key, group := n, bits := s.grantGroup ctx key n }

/-- The entry decides for the core, context, key and tag. -/
def GrantEntry.decides (x : GrantEntry) (c k : Nat) (y : Word) (tag : BitVec 20) : Bool :=
  x.core == c && x.ctx == k && x.key == y && x.group == tag.toNat / 64

theorem State.grantHit_fillGrant (s : State) (core ctx n : Nat) (key : Word) (c k : Nat) (y : Word) (tag : BitVec 20) :
    (s.fillGrant core ctx key n).grantHit c k y tag = (s.grantHit c k y tag).or
      (if (s.filledGrant core ctx key n).decides c k y tag then some (s.filledGrant core ctx key n) else none) := by
  refine List.find?_append.trans (congrArg _ (List.find?_cons.trans ?_))
  change (match (s.filledGrant core ctx key n).decides c k y tag with | true => _ | false => _) = _
  cases (s.filledGrant core ctx key n).decides c k y tag <;> rfl

theorem probe_fillGrant (s : State) (core ctx g : Nat) (k : Word) (base size : Nat) (key : Word) (n h : Nat) :
    probe (s.fillGrant core ctx k g) base size key n h = probe s base size key n h := by
  induction n generalizing h with
  | zero => rfl
  | succ n ih =>
    unfold probe
    rw [ih]
    rfl

/-- The tables decide as before a fill. -/
theorem State.grantTable_fillGrant (s : State) (core ctx n : Nat) (key : Word) (k : Nat) (y : Word) (tag : BitVec 20) :
    (s.fillGrant core ctx key n).grantTable k y tag = s.grantTable k y tag := by
  unfold State.grantTable State.grantEntry
  simp only [probe_fillGrant]
  rfl

/-- A fill of an entry that the cache does not hold changes no decision. -/
theorem State.granted_fillGrant {s : State} {core ctx n : Nat} {key : Word}
    (habsent : ∀ x ∈ s.grants, ¬ (x.core = core ∧ x.ctx = ctx ∧ x.key = key ∧ x.group = n)) (c k : Nat) (y : Word) (tag : BitVec 20) :
    (s.fillGrant core ctx key n).granted c k y tag = s.granted c k y tag := by
  unfold State.granted
  rw [State.grantHit_fillGrant]
  by_cases hnew : (s.filledGrant core ctx key n).decides c k y tag = true
  · obtain ⟨rfl, rfl, rfl, hgroup⟩ : core = c ∧ ctx = k ∧ key = y ∧ n = tag.toNat / 64 := by
      simpa [GrantEntry.decides, State.filledGrant, and_assoc] using hnew
    have hnone : s.grantHit core ctx key tag = none := by
      refine List.find?_eq_none.mpr fun x hx => ?_
      simpa [and_assoc, ← hgroup] using habsent x hx
    rw [hnone, if_pos hnew, Option.none_or]
    dsimp only [State.filledGrant]
    rw [s.grantGroup_bit ctx key hgroup.symm]
  · rw [if_neg hnew, Option.or_none, State.grantTable_fillGrant]

/- Records and completions -/

theorem exec_faultRecordPost {s : State} {ctx : BitVec 4} {r : FqRec} (hs : s.fatal = none) (hr : s.fqPend.find? (fun r => r.ctx == ctx.toNat) = some r)
    (hroom : s.ringFull ctx.toNat 0x88 0x90 0x98 = false) :
    exec (.faultRecordPost ctx) s = .next (({ s with fqPend := s.fqPend.erase r }.ringPut ctx.toNat 0x80 0x88 0x90 r.bytes).interrupt 1) := by
  show execFaultRecordPost ctx s = _
  refine (alive_none hs).trans ?_
  simp only [hr, hroom, Bool.false_eq_true, if_false]

theorem exec_memoryAccessComplete {s : State} {core : BitVec 9} {slot : BitVec 6} {id : Nat} {g : Gang} (hs : s.fatal = none)
    (hg : s.gang? core.toNat slot.toNat = some g) (hcls : ∀ o ∈ g.ops, o.id = id → o.cls ≠ .cp)
    (hfar : s.far.any (fun f => f.what.isOf core.toNat slot.toNat && f.what.opOf == some id) = false) :
    exec (.memoryAccessComplete core slot id) s = .next (s.opDone core.toNat slot.toNat id) := by
  show execMemoryAccessComplete core slot id s = _
  refine (alive_none hs).trans (congrArg Host.Outcome.next ?_)
  dsimp only
  rw [hg, hfar, Bool.or_false]
  exact if_neg (Bool.not_eq_true _ ▸ any_false fun o ho => by simpa using hcls o ho)

/-- The gang once a result has arrived: its dependants are free, and a gang that waits for the scoreboard looks again. -/
def Gang.resultArrived (g : Gang) (id : Nat) : Gang :=
  let v : Gang := { g with busy := (g.busy.map (fun b => if b.id = id then { b with refs := [] } else b)).filter Busy.pending }
  if v.stat = .waiting .scoreboard then v.ready else v

theorem exec_variableLatencyResult {s : State} {core : BitVec 9} {slot : BitVec 6} {g : Gang} {b : Busy} (hs : s.fatal = none)
    (hg : s.gang? core.toNat slot.toNat = some g) (hops : ∀ o ∈ g.ops, o.id ≠ b.id) (hb : b ∈ g.busy) :
    exec (.variableLatencyResult core slot b.id) s = .next (s.putGang (g.resultArrived b.id)) := by
  have hno : g.ops.any (fun o => o.id == b.id) = false := any_false fun o ho => by simpa using hops o ho
  have hbusy : g.busy.any (fun x => x.id == b.id) = true := List.any_eq_true.mpr ⟨b, hb, beq_self_eq_true _⟩
  show execVariableLatencyResult core slot b.id s = _
  refine (alive_none hs).trans (congrArg Host.Outcome.next ?_)
  dsimp only
  rw [hg]
  exact if_neg (by rw [hno, hbusy]; decide)

theorem Gang.resultArrived_core (g : Gang) (id : Nat) : (g.resultArrived id).core = g.core := by unfold Gang.resultArrived; dsimp only; split <;> rfl
theorem Gang.resultArrived_slot (g : Gang) (id : Nat) : (g.resultArrived id).slot = g.slot := by unfold Gang.resultArrived; dsimp only; split <;> rfl
theorem Gang.resultArrived_busy (g : Gang) (id : Nat) :
    (g.resultArrived id).busy = (g.busy.map (fun b => if b.id = id then { b with refs := [] } else b)).filter Busy.pending := by
  unfold Gang.resultArrived
  dsimp only
  split <;> rfl

theorem Gang.resultArrived_refs {g : Gang} {id : Nat} {b : Busy} (hb : b ∈ (g.resultArrived id).busy) (hid : b.id = id) : b.refs = [] := by
  rw [Gang.resultArrived_busy] at hb
  obtain ⟨x, -, rfl⟩ := List.mem_map.mp (List.mem_filter.mp hb).1
  by_cases hx : x.id = id
  · rw [if_pos hx]
  · rw [if_neg hx] at hid
    exact absurd hid hx

theorem Gang.resultArrived_ready {g : Gang} (id : Nat) (h : g.stat = .waiting .scoreboard) : (g.resultArrived id).stat = .ready := by
  unfold Gang.resultArrived
  exact congrArg Gang.stat (if_pos h)

/-- Settles O46, a clause for each row of the engine: PAGE_WALK by where the lookup hits, the others by what they do when they are due. -/
theorem memoryEngineRows : Obligations.MemoryEngineRows := by
  intro s ctx va key n core slot g id hs
  refine ⟨fun e he => ?microHit, fun e hmicro he => ?l2Hit, fun l hmicro hl2 hw => ?miss, fun r hr hroom => exec_faultRecordPost hs hr hroom,
    fun habsent hready => ?fill, fun hg hcls hfar => exec_memoryAccessComplete hs hg hcls hfar, fun b hb hg hops hid hkey => ?result⟩
  case microHit =>
    rw [exec_pageWalk hs (State.translate_micro he), State.noteXlate_micro 0 he]
  case l2Hit =>
    refine ⟨_, exec_pageWalk hs (State.translate_l2 hmicro he), ?_⟩
    rw [State.noteXlate_l2 0 hmicro he]
    exact ⟨State.translate_fillTlb e.leaf false hmicro, rfl, rfl⟩
  case miss =>
    refine ⟨_, exec_pageWalk hs ((State.translate_walk hmicro hl2).trans hw), ?_⟩
    rw [State.noteXlate_walk 0 hmicro hl2 hw]
    exact ⟨State.translate_fillTlb l true (by rw [State.microTlb, State.countWalk_tlb]; exact hmicro), by rw [State.fillTlb_ctr, State.countWalk_ctr],
      by simp only [State.fillTlb, homeSlice, State.countWalk_tlb, if_true]⟩
  case fill => exact ⟨_, exec_grantFill hs habsent hready, rfl, rfl, State.granted_fillGrant habsent⟩
  case result =>
    subst hid
    refine ⟨_, _, exec_variableLatencyResult hs hg hops hb, ?_, fun x hx => Gang.resultArrived_refs hx, Gang.resultArrived_ready b.id⟩
    exact State.gang_putGang_of_eq s _ (by rw [Gang.resultArrived_core, Gang.resultArrived_slot, hkey])

end Sys2Proof.Machine
end


section
/-! PROOFS. Lane traps of memory rows (R132, R338, R339): where an instruction whose lanes raise leaves its gang. -/
namespace Sys2Proof.Machine

/-- Lanes that raise, in rising order, each with its lane code. -/
structure RaisedLanes (l : List (Nat × Nat)) : Prop where
  raised : l ≠ []
  rising : (l.map (·.1)).Pairwise (· < ·)
  codes : ∀ x ∈ l, 0 < x.2 ∧ x.2 < 16

section
variable {l : List (Nat × Nat)} (hl : RaisedLanes l)
include hl

theorem RaisedLanes.codesOf_eq : codesOf l = l.map (fun x => (x.1, BitVec.ofNat 4 x.2)) := Machine.codesOf_eq hl.rising hl.codes

theorem RaisedLanes.codesOf_ne_nil : codesOf l ≠ [] := by
  rw [hl.codesOf_eq]
  exact fun h => hl.raised (List.map_eq_nil_iff.mp h)

/-- The codes that the model keeps of them are those of the stop that the statements describe. -/
theorem settle_lanes (i : Instr) (s t : State) (g h : Gang) :
    settleRes i s g (g.active (shape i)) (.lanes t h (codesOf l)) = s.laneStops t i g h l := by
  obtain ⟨x, r, rfl⟩ := List.exists_cons_of_ne_nil hl.raised
  have hcode : (BitVec.ofNat 4 x.2).toNat = x.2 := by
    have := (hl.codes x List.mem_cons_self).2
    rw [BitVec.toNat_ofNat]
    omega
  unfold settleRes State.laneStops
  dsimp only
  rw [hl.codesOf_eq]
  simp only [codeMask, List.map_map, List.map_cons, List.head?_cons, Option.map_some, Option.getD_some, Function.comp_def, hcode]
  rfl

/-- An instruction that issues, and some of whose lanes raise. -/
theorem runGang_lanes {i : Instr} {s t : State} {g h : Gang} {bad : State → Gang → Bool} {body : State → Gang → LaneMask → Res} (hi : Issues i s g)
    (hb : bad s g = false) (hr : body s g (g.active (shape i)) = .lanes t h (codesOf l)) :
    runGang i s bad body = .next (s.laneStops t i g h l) := by
  rw [runGang_eq hi hb, hr, settle_lanes hl]

/-- An access whose lanes raise, and which a peer has still no write of to answer, ends without being counted. -/
theorem finish_lanes {a : Acc} (kind : Nat) (heff : a.eff = []) (hfar : ∀ f ∈ a.s.far, f.what.opOf ≠ some a.op) :
    a.finish kind [] l = .lanes a.s (a.g.dropOp a.op) (codesOf l) := by
  obtain ⟨c, r, hc⟩ := List.exists_cons_of_ne_nil hl.codesOf_ne_nil
  have hno : a.s.far.any (fun f => f.what.opOf == some a.op) = false := any_false fun f hf => by simpa using hfar f hf
  simp only [Acc.finish, heff, hno, hc, List.isEmpty_nil, Bool.not_true, Bool.and_false, Bool.false_eq_true, if_false]

end

end Sys2Proof.Machine
end


section
/-! PROOFS. Lane-wise accesses to global memory (R222): what they come to in this module, when lanes raise too. -/
namespace Sys2Proof.Machine

/- Reaches that need nothing of a peer -/

/-- A reach at which the access needs nothing of a peer: out of bounds, a lane trap, or a place here that is ready and whose turn waits for no peer
(R301, R402). -/
def Reach.StaysHere (s : State) (g : Gang) : Reach → Prop
  | .oob | .trap _ => True
  | .at_ (.here pa) _ ord => s.memReady pa = true ∧ (ord = true → s.farOrdOf g = false)
  | _ => False

section
variable {s : State} {g : Gang}

/-- The three forms of such a reach. -/
theorem Reach.StaysHere.cases {r : Reach} (h : r.StaysHere s g) :
    r = .oob ∨ (∃ c, r = .trap c) ∨ ∃ pa va ord, r = .at_ (.here pa) va ord ∧ s.memReady pa = true ∧ (ord = true → s.farOrdOf g = false) := by
  unfold Reach.StaysHere at h
  split at h
  · exact .inl rfl
  · exact .inr (.inl ⟨_, rfl⟩)
  · exact .inr (.inr ⟨_, _, _, rfl, h⟩)
  · exact h.elim

variable {l : List (Nat × Reach)} (hl : ∀ y ∈ l, y.2.StaysHere s g)
include hl

theorem mixedOrd_staysHere : mixedOrd l = false := by
  unfold mixedOrd
  rw [Bool.and_eq_false_iff]
  refine .inr (any_false fun y hy => ?_)
  rcases (hl y hy).cases with h | ⟨_, h⟩ | ⟨_, _, _, h, _⟩ <;> rw [h]

theorem notReady_staysHere : s.notReady (l.map (·.2)) = false := by
  refine any_false fun r hr => ?_
  obtain ⟨y, hy, rfl⟩ := List.mem_map.mp hr
  rcases (hl y hy).cases with h | ⟨_, h⟩ | ⟨_, _, _, h, hready, _⟩ <;> rw [h]
  simp [hready]

theorem ordWaits_staysHere : s.ordWaits g (l.map (·.2)) = false := by
  unfold State.ordWaits
  rw [Bool.and_eq_false_iff, or_iff_not_imp_left, Bool.not_eq_false]
  refine fun hfar => any_false fun r hr => ?_
  obtain ⟨y, hy, rfl⟩ := List.mem_map.mp hr
  rcases (hl y hy).cases with h | ⟨_, h⟩ | ⟨_, _, ord, h, _, hord⟩ <;> rw [h]
  cases ord
  · rfl
  · rw [hord rfl] at hfar
    cases hfar

theorem farAsks_staysHere (how : Ask) (f : Nat × Reach → List FarKey) (p : Nat × Reach → Bool) (ask : Nat → Option FarOp) :
    farAsks s g how ((l.filter p).map (fun y => (y.1, f y, y.2))) ask = s := by
  refine foldl_eq_self fun x hx => ?_
  obtain ⟨y, hy, rfl⟩ := List.mem_map.mp hx
  rcases (hl y (List.mem_filter.mp hy).1).cases with h | ⟨_, h⟩ | ⟨_, _, _, h, _⟩ <;> rw [h]

theorem faults_staysHere : l.filterMap (fun y => y.2.fault?) = [] := by
  refine List.filterMap_eq_nil_iff.mpr fun y hy => ?_
  rcases (hl y hy).cases with h | ⟨_, h⟩ | ⟨_, _, _, h, _⟩ <;> rw [h] <;> rfl

end

/- The access itself -/

/-- What a lane's index of a lane-wise access reaches. -/
def LaneMem.reach (x : LaneMem) (s : State) (g : Gang) (j : Nat) : Reach :=
  s.reachLane g (g.bGet x.k.toNat) x.m x.rule j (s.vsrc g x.h.lit .b32 x.b j)

/-- The state and the gang once an access of the gang `g` is noted and counted. -/
def LaneMem.counted (x : LaneMem) (i : Instr) (s : State) (g : Gang) : State × Gang :=
  (s.noted g x.k x.h x.m x.b x.rule (g.acting i)).countOp g x.cls (x.refs ++ Shape.mRef x.m.bm.toNat)

/-- Where the lanes' turns begin, with the gang as the bounds step leaves it. -/
def LaneMem.begun (x : LaneMem) (i : Instr) (s : State) (g v : Gang) : Acc :=
  { s := (x.counted i s g).1, g := v, buffered := s.buffered g, base := s.effectsOf g, op := s.nextId }

/-- An access of which every live active lane stays in this module runs its lanes in rising order and enters what they did. -/
theorem laneMem_staysHere {i : Instr} {s : State} {g : Gang} {x : LaneMem} (hroom : g.counter x.cls < 63)
    (hfits : (if x.element then recBadType (g.bGet x.k.toNat) x.rule.size else recBadCell (g.bGet x.k.toNat)) = false)
    (hwritable : x.writes = true → recRo (g.bGet x.k.toNat) = false) (hclean : g.CleanIn (g.acting i) (srcRegs .b32 x.b)) (hunbegun : g.turnsTaken = [])
    (hhere : ∀ j ∈ bitsOn (g.acting i), (x.reach s g j).StaysHere s g)
    (hdata : ∀ j ∈ bitsOn (g.acting i), (x.reach s g j).isAt = true → ∀ r ∈ x.data, g.vBad r j = false) :
    x.body s g (g.active (shape i)) =
      (let l := (bitsOn (g.acting i)).map (fun j => (j, x.reach s g j))
       let a := l.foldl x.lane (x.begun i s g ((x.counted i s g).2.bounds x.m.bm l))
       a.finish x.kind [] (l.filterMap (fun y => y.2.code?.map (fun c => (y.1, c))) ++ a.codes)) := by
  have hl : ∀ y ∈ (bitsOn (g.acting i)).map (fun j => (j, x.reach s g j)), y.2.StaysHere s g := by
    intro y hy
    obtain ⟨j, hj, rfl⟩ := List.mem_map.mp hy
    exact hhere j hj
  have hbad : g.badLanes (g.live (maskOf 64 ((((bitsOn (g.acting i)).map (fun j => (j, x.reach s g j))).filter (fun y => y.2.isAt)).map (·.1))))
      x.data = 0 := by
    refine badLanes_clean fun j hj r hr => ?_
    have hm := mem_bitsOn.mp hj
    simp only [Gang.live, BitVec.getLsbD_and, getLsbD_maskOf, Bool.and_eq_true, decide_eq_true_eq] at hm
    obtain ⟨y, hy, rfl⟩ := List.mem_map.mp hm.1.2
    obtain ⟨hy, hat⟩ := List.mem_filter.mp hy
    obtain ⟨k, hk, rfl⟩ := List.mem_map.mp hy
    exact hdata k hk hat r hr
  have hro : (x.writes && recRo (g.bGet x.k.toNat)) = false := by
    cases hw : x.writes
    · rfl
    · exact hwritable hw
  obtain ⟨-, -, hbuffered, heffects, hid, -⟩ := (noted_looks s g x.k x.h x.m x.b x.rule (g.acting i)).reads
  unfold LaneMem.body LaneMem.begun LaneMem.counted
  rw [if_neg (Nat.not_le.mpr hroom), if_neg (by rw [hfits]; exact Bool.false_ne_true), if_neg (by rw [hro]; exact Bool.false_ne_true),
    ← hbuffered, ← heffects, ← hid]
  unfold Gang.acting at *
  rw [badLanes_clean hclean, consume_none (live_zero _)]
  dsimp only
  unfold LaneMem.reach at *
  generalize (bitsOn (g.live (g.active (shape i)))).map
    (fun j => (j, s.reachLane g (g.bGet x.k.toNat) x.m x.rule j (s.vsrc g x.h.lit .b32 x.b j))) = l at hl hbad ⊢
  rw [notReady_staysHere hl, hbad, takeBad_none, mixedOrd_staysHere hl]
  simp only [Bool.false_eq_true, if_false]
  rw [farAsks_staysHere hl, ordWaits_staysHere hl, faults_staysHere hl, hunbegun]
  simp only [Nat.lt_irrefl, Bool.false_eq_true, if_false]
  rfl

/- Lanes that raise -/

/-- The reaches of the lanes of an access, some of which raise the lane codes that `code` gives. -/
def reachRaised (place : Nat → Option (Nat × Nat)) (ord : Nat → Bool) (code : Nat → Nat) (j : Nat) : Reach :=
  if code j = 0 then reachOf place ord j else .trap (code j)

section
variable {place : Nat → Option (Nat × Nat)} {ord : Nat → Bool} {code : Nat → Nat} {j : Nat}

theorem reachRaised_of_quiet (h : code j = 0) : reachRaised place ord code j = reachOf place ord j := if_pos h
theorem reachRaised_of_raising (h : code j ≠ 0) : reachRaised place ord code j = .trap (code j) := if_neg h

theorem code?_reachOf : (reachOf place ord j).code? = none := by
  unfold reachOf
  split <;> rfl

theorem codes_reachRaised (l : List Nat) :
    (l.map (fun j => (j, reachRaised place ord code j))).filterMap (fun y => y.2.code?.map (fun c => (y.1, c))) =
      (l.filter (fun j => code j ≠ 0)).map (fun j => (j, code j)) := by
  induction l with
  | nil => rfl
  | cons j r ih =>
    rw [List.map_cons]
    by_cases h : code j = 0
    · rw [List.filterMap_cons_none (by rw [reachRaised_of_quiet h, code?_reachOf]; rfl), ih, List.filter_cons_of_neg (by simpa using h)]
    · rw [List.filterMap_cons_some (b := (j, code j)) (by rw [reachRaised_of_raising h]; rfl), ih, List.filter_cons_of_pos (by simpa using h), List.map_cons]

theorem bounds_reachRaised (g : Gang) (bm : BitVec 4) (l : List Nat) :
    g.bounds bm (l.map (fun j => (j, reachRaised place ord code j))) = g.boundsRaised bm l place code := by
  unfold Gang.bounds Gang.boundsRaised
  congr 1
  induction l with
  | nil => rfl
  | cons j r ih =>
    rw [List.map_cons]
    by_cases h0 : code j = 0
    · have hbit : (reachOf place ord j).bound? = some (place j).isNone := by
        unfold reachOf
        cases place j <;> rfl
      rw [List.filterMap_cons_some (b := (j, (place j).isNone)) (by rw [reachRaised_of_quiet h0, hbit]; rfl), ih,
        List.filter_cons_of_pos (by simp [h0]), List.map_cons, h0]
      rfl
    · rw [List.filterMap_cons, reachRaised_of_raising h0]
      by_cases h1 : code j = 1
      · rw [h1, List.filter_cons_of_neg (by simp [h1])]
        exact ih
      · have hbit : (Reach.trap (code j)).bound? = some false := by
          unfold Reach.bound?
          split <;> simp_all
        rw [hbit, List.filter_cons_of_pos (by simp [h1]), List.map_cons, beq_eq_false_iff_ne.mpr h0, Bool.false_and]
        exact congrArg _ ih

/-- A fold over the lanes that passes over those that raise is one over the others. -/
theorem foldl_reachRaised {β : Type} {F : β → Nat × Reach → β} (hskip : ∀ b j c, F b (j, .trap c) = b) (l : List Nat) (b : β) :
    (l.map (fun j => (j, reachRaised place ord code j))).foldl F b =
      ((l.filter (fun j => code j = 0)).map (fun j => (j, reachOf place ord j))).foldl F b := by
  induction l generalizing b with
  | nil => rfl
  | cons j r ih =>
    rw [List.map_cons, List.foldl_cons]
    by_cases h : code j = 0
    · rw [reachRaised_of_quiet h, ih, List.filter_cons_of_pos (by simpa using h), List.map_cons, List.foldl_cons]
    · rw [reachRaised_of_raising h, hskip, ih, List.filter_cons_of_neg (by simpa using h)]

end

/-- The lanes that raise, with their codes. -/
def raisedLanes (code : Nat → Nat) (l : List Nat) : List (Nat × Nat) := (l.filter (fun j => code j ≠ 0)).map (fun j => (j, code j))

theorem raisedLanes_spec {code : Nat → Nat} {m : LaneMask} (hcode : ∀ j ∈ bitsOn m, code j ≠ 0 → code j < 16) (hsome : ∃ j ∈ bitsOn m, code j ≠ 0) :
    RaisedLanes (raisedLanes code (bitsOn m)) where
  raised := by
    obtain ⟨j, hj, h⟩ := hsome
    exact List.ne_nil_of_mem (List.mem_map_of_mem (List.mem_filter.mpr ⟨hj, by simpa using h⟩))
  rising := by
    rw [raisedLanes, List.map_map]
    exact ((bitsOn_sorted m).filter _).map _ (fun _ _ h => h)
  codes y hy := by
    obtain ⟨j, hj, rfl⟩ := List.mem_map.mp hy
    obtain ⟨hmem, h⟩ := List.mem_filter.mp hj
    have hne : code j ≠ 0 := by simpa using h
    exact ⟨Nat.pos_of_ne_zero hne, hcode j hmem hne⟩

theorem MemRule.pageCode_lt {r : MemRule} {l : Leaf} {c : Nat} (h : r.pageCode l = some c) : c < 16 := by
  unfold MemRule.pageCode at h
  split at h
  · cases h; decide
  · split at h <;> cases h; decide

theorem State.reach_code_lt {s : State} {core ctx : Nat} {keys : List Word} {r : MemRule} {lane va c : Nat}
    (h : s.reach core ctx keys r lane va = .trap c) : c < 16 := by
  unfold State.reach at h
  split at h
  · cases h; decide
  · split at h
    · cases h
    · cases h
    · split at h
      · cases h
      · split at h
        · next hcode => cases h; exact MemRule.pageCode_lt hcode
        · split at h
          · cases h
          · split at h <;> cases h

/-- The codes that a lane's bounds, alignment and page raise (R208, R213, R222). -/
theorem State.reachLane_code_lt {s : State} {g : Gang} {rec : BitVec 128} {m : MH} {r : MemRule} {lane x c : Nat}
    (h : s.reachLane g rec m r lane x = .trap c) : c < 16 := by
  unfold State.reachLane at h
  split at h
  · unfold State.reachAs at h
    split at h
    · cases h
    · exact State.reach_code_lt h
  · split at h <;> cases h
    decide

section
variable {i : Instr} {s : State} {g : Gang} {x : LaneMem} {place : Nat → Option (Nat × Nat)} {code : Nat → Nat}

/-- The ORD bits that an access meets. -/
def LaneMem.ords (x : LaneMem) (s : State) (g : Gang) : Nat → Bool := ordsOf s g x.k x.h x.m x.b x.rule

/-- Lanes die neither out of bounds nor in place. -/
structure LaneMem.KeepsDead (x : LaneMem) : Prop where
  zero : ∀ u j, (x.zero u j).dead = u.dead
  run : ∀ a j pa va, (x.run a j (.here pa) va).g.dead = a.g.dead

/-- Where nothing stands against an access, its lanes take their turns. -/
theorem laneMem_access (h : LaneAccess i s g x.k x.h x.m x.b x.rule x.cls x.element x.data place) (hw : x.writes = x.rule.write) (hd : x.KeepsDead) :
    x.body s g (g.active (shape i)) =
      (let a := (bitsOn (g.acting i)).foldl (x.turn place (x.ords s g)) (x.begun i s g ((x.counted i s g).2.boundsOf x.m.bm (bitsOn (g.acting i)) place))
       a.finish x.kind [] a.codes) := by
  obtain ⟨-, -, hbuffered, heffects, hid, -⟩ := (noted_looks s g x.k x.h x.m x.b x.rule (g.acting i)).reads
  rw [laneMem_eq h hw hd.zero hd.run]
  unfold LaneMem.begun LaneMem.counted
  rw [← hbuffered, ← heffects, ← hid]
  rfl

theorem LaneRaises.reach (h : LaneRaises i s g x.k x.h x.m x.b x.rule x.cls x.element x.data place code) {j : Nat} (hj : j ∈ bitsOn (g.acting i)) :
    x.reach s g j = reachRaised place (x.ords s g) code j := by
  by_cases hc : code j = 0
  · rw [reachRaised_of_quiet hc]
    unfold reachOf LaneMem.ords ordsOf
    cases hp : place j with
    | none => exact h.out j hj hc hp
    | some q =>
      obtain ⟨o, ho, -⟩ := h.reaches j hj hc q.1 q.2 hp
      rw [ho]
      exact ho
  · rw [reachRaised_of_raising hc]
    exact h.raises j hj hc

theorem LaneRaises.staysHere (h : LaneRaises i s g x.k x.h x.m x.b x.rule x.cls x.element x.data place code) {j : Nat} (hj : j ∈ bitsOn (g.acting i)) :
    (x.reach s g j).StaysHere s g := by
  unfold LaneMem.reach
  by_cases hc : code j = 0
  · cases hp : place j with
    | none => rw [h.out j hj hc hp]; trivial
    | some q =>
      obtain ⟨o, ho, hready, hord⟩ := h.reaches j hj hc q.1 q.2 hp
      rw [ho]
      exact ⟨hready, hord⟩
  · rw [h.raises j hj hc]
    trivial

theorem LaneRaises.dataClean_of_isAt (h : LaneRaises i s g x.k x.h x.m x.b x.rule x.cls x.element x.data place code) {j : Nat}
    (hj : j ∈ bitsOn (g.acting i)) (hat : (x.reach s g j).isAt = true) : ∀ r ∈ x.data, g.vBad r j = false := by
  rw [h.reach hj] at hat
  by_cases hc : code j = 0
  · refine h.dataClean j hj hc fun hp => ?_
    rw [reachRaised_of_quiet hc, reachOf, hp] at hat
    cases hat
  · rw [reachRaised_of_raising hc] at hat
    cases hat

theorem LaneRaises.raisedLanes (h : LaneRaises i s g x.k x.h x.m x.b x.rule x.cls x.element x.data place code) :
    RaisedLanes (raisedLanes code (bitsOn (g.acting i))) :=
  raisedLanes_spec (fun j hj hc => State.reachLane_code_lt (h.raises j hj hc)) h.raised

/-- Where lanes raise, the others take their turns. -/
theorem laneMem_raises (h : LaneRaises i s g x.k x.h x.m x.b x.rule x.cls x.element x.data place code) (hw : x.writes = x.rule.write) (hd : x.KeepsDead) :
    x.body s g (g.active (shape i)) =
      (let a := ((bitsOn (g.acting i)).filter (fun j => code j = 0)).foldl (x.turn place (x.ords s g))
         (x.begun i s g ((x.counted i s g).2.boundsRaised x.m.bm (bitsOn (g.acting i)) place code))
       a.finish x.kind [] (Machine.raisedLanes code (bitsOn (g.acting i)) ++ a.codes)) := by
  rw [laneMem_staysHere h.room h.fits (fun hx => h.writable (hw.symm.trans hx)) h.clean h.unbegun (fun j hj => h.staysHere hj)
    (fun j hj hat => h.dataClean_of_isAt hj hat)]
  have hreach : (bitsOn (g.acting i)).map (fun j => (j, x.reach s g j)) =
      (bitsOn (g.acting i)).map (fun j => (j, reachRaised place (x.ords s g) code j)) :=
    List.map_congr_left fun j hj => by rw [h.reach hj]
  have hskip : ∀ a j c, x.lane a (j, .trap c) = a := fun a j c => by
    unfold LaneMem.lane
    split <;> rfl
  have halive : ∀ j ∈ (bitsOn (g.acting i)).filter (fun j => code j = 0),
      (x.begun i s g ((x.counted i s g).2.boundsRaised x.m.bm (bitsOn (g.acting i)) place code)).g.dead.getLsbD j = false := by
    intro j hj
    show (Gang.mBits _ _ _).dead.getLsbD j = false
    rw [mBits_dead]
    exact not_dead_of_mem (List.mem_filter.mp hj).1
  dsimp only
  rw [hreach, bounds_reachRaised, codes_reachRaised, foldl_reachRaised hskip, lanes_eq hd.zero hd.run halive]
  rfl

/- Turns of one shape -/

/-- The turns of the lanes take what has the shape `mk` to the shape of what `G` gives, whatever the ORD bit of the page before, and keep `Inv`. -/
def LaneMem.Runs {α : Type} (x : LaneMem) (place : Nat → Option (Nat × Nat)) (ord : Nat → Bool) (lanes : List Nat) (mk : α → Acc) (Inv : α → Prop)
    (G : α → Nat → α) : Prop :=
  ∀ a o, ∀ j ∈ lanes, Inv a → Inv (G a j) ∧ ∃ o', x.turn place ord { mk a with ord := o } j = { mk (G a j) with ord := o' }

variable {α : Type} {mk : α → Acc} {Inv : α → Prop} {G : α → Nat → α} {a₀ : α}

theorem LaneMem.Runs.foldl {ord : Nat → Bool} {lanes : List Nat} (hR : x.Runs place ord lanes mk Inv G) {l : List Nat} (hl : ∀ j ∈ l, j ∈ lanes) (o : Bool)
    {a : α} (ha : Inv a) :
    Inv (l.foldl G a) ∧ ∃ o', l.foldl (x.turn place ord) { mk a with ord := o } = { mk (l.foldl G a) with ord := o' } := by
  induction l generalizing a o with
  | nil => exact ⟨ha, o, rfl⟩
  | cons j r ih =>
    obtain ⟨hinv, o', hj⟩ := hR a o j (hl j List.mem_cons_self) ha
    rw [List.foldl_cons, List.foldl_cons, hj]
    exact ih (fun k hk => hl k (List.mem_cons_of_mem j hk)) o' hinv

section
variable (hw : x.writes = x.rule.write) (hd : x.KeepsDead) (hR : x.Runs place (x.ords s g) (bitsOn (g.acting i)) mk Inv G) (ha : Inv a₀)
include hw hd hR ha

/-- An access of such turns ends with the shape of what the fold over its lanes gives. -/
theorem laneMem_runs (h : LaneAccess i s g x.k x.h x.m x.b x.rule x.cls x.element x.data place)
    (hstart : mk a₀ = x.begun i s g ((x.counted i s g).2.boundsOf x.m.bm (bitsOn (g.acting i)) place)) :
    Inv ((bitsOn (g.acting i)).foldl G a₀) ∧
      x.body s g (g.active (shape i)) = (mk ((bitsOn (g.acting i)).foldl G a₀)).finish x.kind [] (mk ((bitsOn (g.acting i)).foldl G a₀)).codes := by
  obtain ⟨hinv, o, hfold⟩ := hR.foldl (fun _ hj => hj) false ha
  refine ⟨hinv, ?_⟩
  have hbegun : x.begun i s g ((x.counted i s g).2.boundsOf x.m.bm (bitsOn (g.acting i)) place) = { mk a₀ with ord := false } := by rw [hstart]; rfl
  rw [laneMem_access h hw hd, hbegun, hfold]
  rfl

theorem laneMem_runs_raises (h : LaneRaises i s g x.k x.h x.m x.b x.rule x.cls x.element x.data place code)
    (hstart : mk a₀ = x.begun i s g ((x.counted i s g).2.boundsRaised x.m.bm (bitsOn (g.acting i)) place code)) :
    Inv (((bitsOn (g.acting i)).filter (fun j => code j = 0)).foldl G a₀) ∧
      x.body s g (g.active (shape i)) = (mk (((bitsOn (g.acting i)).filter (fun j => code j = 0)).foldl G a₀)).finish x.kind []
        (raisedLanes code (bitsOn (g.acting i)) ++ (mk (((bitsOn (g.acting i)).filter (fun j => code j = 0)).foldl G a₀)).codes) := by
  obtain ⟨hinv, o, hfold⟩ := hR.foldl (fun _ hj => (List.mem_filter.mp hj).1) false ha
  refine ⟨hinv, ?_⟩
  have hbegun : x.begun i s g ((x.counted i s g).2.boundsRaised x.m.bm (bitsOn (g.acting i)) place code) = { mk a₀ with ord := false } := by
    rw [hstart]; rfl
  rw [laneMem_raises h hw hd, hbegun, hfold]
  rfl

/-- One that enters no effect and in place raises nothing completes. -/
theorem laneMem_completes (h : LaneAccess i s g x.k x.h x.m x.b x.rule x.cls x.element x.data place)
    (hstart : mk a₀ = x.begun i s g ((x.counted i s g).2.boundsOf x.m.bm (bitsOn (g.acting i)) place)) (heff : ∀ a, (mk a).eff = [])
    (hcodes : ∀ a, (mk a).codes = []) :
    x.body s g (g.active (shape i)) = .ok (mk ((bitsOn (g.acting i)).foldl G a₀)).s (mk ((bitsOn (g.acting i)).foldl G a₀)).g :=
  (laneMem_runs hw hd hR ha h hstart).2.trans (finish_ok (heff _) (hcodes _))

/-- And where lanes raise, it ends with their codes and is not counted. -/
theorem laneMem_stops (h : LaneRaises i s g x.k x.h x.m x.b x.rule x.cls x.element x.data place code)
    (hstart : mk a₀ = x.begun i s g ((x.counted i s g).2.boundsRaised x.m.bm (bitsOn (g.acting i)) place code)) (heff : ∀ a, (mk a).eff = [])
    (hcodes : ∀ a, (mk a).codes = []) (hop : ∀ a, (mk a).op = s.nextId)
    (hfar : (mk (((bitsOn (g.acting i)).filter (fun j => code j = 0)).foldl G a₀)).s.far = s.far) :
    x.body s g (g.active (shape i)) = .lanes (mk (((bitsOn (g.acting i)).filter (fun j => code j = 0)).foldl G a₀)).s
      ((mk (((bitsOn (g.acting i)).filter (fun j => code j = 0)).foldl G a₀)).g.dropOp s.nextId) (codesOf (raisedLanes code (bitsOn (g.acting i)))) := by
  rw [(laneMem_runs_raises hw hd hR ha h hstart).2, hcodes, List.append_nil]
  refine (finish_lanes h.raisedLanes x.kind (heff _) ?_).trans (by rw [hop])
  rw [hfar, hop]
  exact h.fresh

end

end

end Sys2Proof.Machine
end


section
/-! PROOFS. LDB and STB (R225): the rows that load and store the elements of records, when lanes raise too. -/
namespace Sys2Proof.Machine

/- What a lane reads and writes -/

/-- What an access reads of its gang does not change while it counts and sets the bounds mask, raising lanes or not. -/
theorem mBits_like {g v : Gang} (h : g.Like v) (n : Nat) (l : List (Nat × Bool)) : g.Like (v.mBits n l) := by
  obtain ⟨hregs, hkeys, hwids, hevs, hpc, hcrew, hlaunch, hcore, hslot, hdead⟩ := h
  unfold Gang.mBits
  split
  · exact ⟨hregs, hkeys, hwids, hevs, hpc, hcrew, hlaunch, hcore, hslot, hdead⟩
  · exact ⟨hregs, hkeys, hwids, hevs, hpc, hcrew, hlaunch, hcore, hslot, hdead⟩

theorem LaneMem.counted_like (x : LaneMem) (i : Instr) (s : State) (g : Gang) : g.Like (x.counted i s g).2 :=
  ⟨rfl, rfl, rfl, rfl, rfl, rfl, rfl, rfl, rfl, rfl⟩

/-- The bits of a gang's vector registers, and where its writes go, stay as they are. -/
theorem Gang.Like.vraw {g v : Gang} (h : g.Like v) (t : Fmt) (n lane : Nat) : v.vraw t n lane = g.vraw t n lane := by
  unfold Gang.vraw Gang.vGet
  rw [h.regs]

theorem Gang.Like.bytesPut {g v : Gang} (h : g.Like v) (t : State) (pa : Nat) (l : List PByte) : t.bytesPut v pa l = t.bytesPut g pa l := by
  unfold State.bytesPut Gang.isHandler State.hpriv
  rw [h.slot, h.launch]

/-- A lane that reads at its turn here reads what its gang sees. -/
theorem LaneMem.begun_read (x : LaneMem) (i : Instr) (s : State) (g v : Gang) (o : Bool) (j pa n : Nat) :
    ({ x.begun i s g v with ord := o } : Acc).read j (.here pa) n = some (s.bytesSeen g pa n) := by
  obtain ⟨hread, hphys, -⟩ := (noted_looks s g x.k x.h x.m x.b x.rule (g.acting i)).reads
  have hmem : (x.counted i s g).1.memRead pa n = s.memRead pa n := hread pa n
  have hview : (x.counted i s g).1.phys = s.phys := hphys
  simp only [Acc.read, Acc.turn?, LaneMem.begun, List.find?_nil, List.append_nil, hmem, hview, State.bytesSeen]

theorem LaneMem.counted_far (x : LaneMem) (i : Instr) (s : State) (g : Gang) : (x.counted i s g).1.far = s.far := by
  obtain ⟨-, -, -, -, -, hfar⟩ := (noted_looks s g x.k x.h x.m x.b x.rule (g.acting i)).reads
  exact hfar

/-- A lane that is out of bounds enters nothing where nothing is buffered, or where it takes no effect space (R83). -/
theorem LaneMem.skip_eq {x : LaneMem} {a : Acc} (h : a.buffered = false ∨ x.space = 0) (j : Nat) : x.skip a j = { a with g := x.zero a.g j } := by
  unfold LaneMem.skip
  exact if_neg (by rcases h with h | h <;> simp [h])

/- Writes of memory leave the accesses that wait for a peer alone -/

theorem State.restartQ_far (s : State) (q : Nat) : (s.restartQ q).far = s.far := by
  unfold State.restartQ State.setQ
  split
  · simp only [State.physWrite_far]
  · rfl

theorem State.kick_far (s : State) (q : Nat) (w : DWord) (entry : Option Acl) : (s.kick q w entry).far = s.far := by
  unfold State.kick
  split
  · unfold State.kickNow State.setQ
    dsimp only
    split
    · cases entry <;> simp only [State.physWrite_far, State.restartQ_far]
    · simp only [State.count_far, State.restartQ_far]
  · rfl

theorem State.preDone_far (s : State) : s.preDone.far = s.far := by
  unfold State.preDone
  split <;> rfl

theorem State.modLaunch_far (s : State) (k : Nat) (f : Launch → Launch) : (s.modLaunch k f).far = s.far := by
  unfold State.modLaunch
  split <;> rfl

theorem State.request_far (s : State) (op core n : Nat) {f : State → State} (hf : ∀ t, (f t).far = t.far) : (s.request op core n f).far = s.far := by
  unfold State.request
  split
  · rfl
  · rw [State.preDone_far, hf]
    rfl

theorem State.preemptWrite_far (s : State) (w : DWord) : (s.preemptWrite w).far = s.far := by
  unfold State.preemptWrite
  dsimp only
  split
  · refine s.request_far _ _ _ fun t => ?_
    unfold State.vacateLaunch
    split
    · rfl
    · exact State.modLaunch_far ..
  · exact s.request_far _ _ _ fun t => rfl
  · refine s.request_far _ _ _ fun t => ?_
    unfold State.reopenLaunch
    split
    · rfl
    · exact State.modLaunch_far ..
  · exact s.request_far _ _ _ fun t => rfl

theorem State.memWrite_far (s : State) (pa : Nat) (l : List PByte) (priv : Bool) : (s.memWrite pa l priv).far = s.far := by
  unfold State.memWrite
  split
  · unfold State.kickWrite
    dsimp only
    split
    · rfl
    · split
      · exact State.kick_far ..
      · split
        · rfl
        · split
          · rfl
          · split
            · exact State.preemptWrite_far ..
            · rfl
  · unfold State.plainWrite
    split <;> simp only [State.physWrite_far]

theorem State.bytesPut_far (s : State) (g : Gang) (pa : Nat) (l : List PByte) : (s.bytesPut g pa l).far = s.far := State.memWrite_far ..

/- Loads and stores by lanes -/

/-- A lane of a load: the bytes that `read` gives at its place, 0 out of bounds (R225). -/
def Gang.loadLane (place : Nat → Option (Nat × Nat)) (t : Fmt) (d : BitVec 8) (read : Nat → List PByte) (v : Gang) (j : Nat) : Gang :=
  match place j with
  | some (a, _) => v.vBytes t d.toNat j (read a)
  | none => v.vPut t d.toNat j 0

/-- A lane of a store: `put` at its place, and nothing out of bounds (R225). -/
def State.storeLane (place : Nat → Option (Nat × Nat)) (put : State → Nat → Nat → State) (t : State) (j : Nat) : State :=
  match place j with
  | some (a, _) => put t a j
  | none => t

/-- A fold of such stores keeps what each of them keeps. -/
theorem State.foldl_storeLane {β : Type} {place : Nat → Option (Nat × Nat)} {put : State → Nat → Nat → State} (f : State → β)
    (hput : ∀ t a j, f (put t a j) = f t) (l : List Nat) (t : State) : f (l.foldl (storeLane place put) t) = f t := by
  induction l generalizing t with
  | nil => rfl
  | cons j r ih =>
    rw [List.foldl_cons, ih]
    unfold State.storeLane
    split
    · exact hput ..
    · rfl

/- LDB -/

/-- LDB as a lane-wise access. -/
def ldbMem (h : VH) (m : MH) (t : Fmt) (d : BitVec 8) (k : BitVec 4) (b : VSrc) : LaneMem where
  k := k
  h := h
  m := m
  b := b
  rule := { size := (t.or .b32).bytes }
  kind := 0
  cls := .ld
  element := true
  refs := vRegs (t.or .b32) d
  data := []
  ask _ _ _ := some (.load (t.or .b32).bytes)
  zero g i := g.vPut (t.or .b32) d.toNat i 0
  run a i loc _ :=
    match a.read i loc (t.or .b32).bytes with
    | some l => { a with g := a.g.vBytes (t.or .b32) d.toNat i l }
    | none => { a with g := a.g.vPut (t.or .b32) d.toNat i 0 }

section
variable {i : Instr} {s : State} {g : Gang} {h : VH} {m : MH} {t : Fmt} {d : BitVec 8} {k : BitVec 4} {b : VSrc} {place : Nat → Option (Nat × Nat)}
  {ord : Nat → Bool} {lanes : List Nat}

theorem exec_ldb : exec (.ldb h m t d k b) s = runGang (.ldb h m t d k b) s anywhere (ldbMem h m t d k b).body := rfl

theorem ldbMem_keepsDead : (ldbMem h m t d k b).KeepsDead where
  zero u j := vPut_dead ..
  run a j pa va := by
    unfold ldbMem
    dsimp only
    split
    · exact vBytes_dead ..
    · exact vPut_dead ..

theorem ldbMem_run {a : Acc} {j va : Nat} {loc : Loc} {l : List PByte} (hread : a.read j loc (t.or .b32).bytes = some l) :
    (ldbMem h m t d k b).run a j loc va = { a with g := a.g.vBytes (t.or .b32) d.toNat j l } := by
  unfold ldbMem
  dsimp only
  rw [hread]

theorem ldbMem_runs : (ldbMem h m t d k b).Runs place ord lanes ((ldbMem h m t d k b).begun i s g) (fun _ => True)
    (Gang.loadLane place (t.or .b32) d (fun pa => s.bytesSeen g pa (t.or .b32).bytes)) := by
  intro v o j _ _
  refine ⟨trivial, ?_⟩
  unfold LaneMem.turn Gang.loadLane
  cases place j with
  | none => exact ⟨o, LaneMem.skip_eq (.inr rfl) j⟩
  | some q => exact ⟨ord j, ldbMem_run (LaneMem.begun_read ..)⟩

end

/-- Settles O22: LDB's lanes load in their turns, and those that raise stop the gang. -/
theorem recordLoadsComplete : Obligations.RecordLoadsComplete := by
  intro s g h m t d k b place code
  refine ⟨fun ha => exec_ldb.trans (runGang_ok ha.issues rfl ?completes),
    fun hr => exec_ldb.trans (runGang_lanes (LaneRaises.raisedLanes (x := ldbMem h m t d k b) hr) hr.issues rfl ?stops)⟩
  case completes => exact laneMem_completes (x := ldbMem h m t d k b) rfl ldbMem_keepsDead ldbMem_runs trivial ha rfl (fun _ => rfl) (fun _ => rfl)
  case stops =>
    exact laneMem_stops (x := ldbMem h m t d k b) rfl ldbMem_keepsDead ldbMem_runs trivial hr rfl (fun _ => rfl) (fun _ => rfl) (fun _ => rfl)
      (LaneMem.counted_far ..)

end Sys2Proof.Machine
end


section
/-! PROOFS. STB (R225): its lanes store in their turns, and what it leaves as it was. -/
namespace Sys2Proof.Machine

/- Accesses that store in FREE mode (R81) -/

/-- An access that stores, with memory as the lanes before have left it. -/
def LaneMem.storing (x : LaneMem) (i : Instr) (s : State) (g v : Gang) (t : State) : Acc := { x.begun i s g v with s := t }

/-- In FREE mode a plain store of a lane in place writes memory. -/
theorem Acc.store_here {a : Acc} (hfree : a.buffered = false) (hturns : a.turns = []) (j : Nat) (keys : List FarKey) (pa line : Nat) (data : List Byte) :
    a.store j keys (.here pa) line data = a.put pa (clean data) := by
  unfold Acc.store Acc.turn?
  rw [hfree, hturns]
  rfl

theorem Acc.put_eq {g : Gang} {a : Acc} (hlike : g.Like a.g) (pa : Nat) (l : List PByte) : a.put pa l = { a with s := a.s.bytesPut g pa l } :=
  congrArg (fun t => { a with s := t }) (hlike.bytesPut a.s pa l)

section
variable {x : LaneMem} {i : Instr} {s : State} {g v : Gang} {place : Nat → Option (Nat × Nat)} {ord : Nat → Bool} {lanes : List Nat}
  {put : State → Nat → Nat → State}

/-- Where a lane in place does no more than `put`, and one out of bounds nothing, the turns of an access that stores are such stores. -/
theorem LaneMem.storing_runs (hfree : s.buffered g = false) (hzero : ∀ u j, x.zero u j = u)
    (hrun : ∀ t o j pa va, x.run { x.storing i s g v t with ord := o } j (.here pa) va = { x.storing i s g v (put t pa j) with ord := o }) :
    x.Runs place ord lanes (x.storing i s g v) (fun _ => True) (State.storeLane place put) := by
  intro t o j _ _
  refine ⟨trivial, ?_⟩
  unfold LaneMem.turn State.storeLane
  cases place j with
  | none => exact ⟨o, (LaneMem.skip_eq (.inl hfree) j).trans (by rw [hzero])⟩
  | some q => exact ⟨ord j, hrun t (ord j) j q.1 q.2⟩

end

/- STB -/

/-- STB as a lane-wise access. -/
def stbMem (h : VH) (m : MH) (t : Fmt) (k : BitVec 4) (b : VSrc) (c : BitVec 8) : LaneMem where
  k := k
  h := h
  m := m
  b := b
  rule := { size := (t.or .b32).bytes, write := true, noVer := true }
  kind := 1
  cls := .st
  element := true
  refs := []
  data := dataRegs (t.or .b32) c
  ask _ _ _ := none
  ordOp s g i := if s.buffered g then none else some (.store (leBytes (t.or .b32).bytes (g.vraw (t.or .b32) c.toNat i)))
  zero g _ := g
  run a i loc va := a.store i (a.g.laneKey i) loc va (leBytes (t.or .b32).bytes (a.g.vraw (t.or .b32) c.toNat i))

/-- The element of a lane, stored at its place. -/
def Gang.putElement (g : Gang) (t : Fmt) (c : BitVec 8) (u : State) (pa j : Nat) : State := u.bytesPut g pa (clean (leBytes t.bytes (g.vraw t c.toNat j)))

section
variable {i : Instr} {s : State} {g v : Gang} {h : VH} {m : MH} {t : Fmt} {k : BitVec 4} {b : VSrc} {c : BitVec 8} {place : Nat → Option (Nat × Nat)}
  {ord : Nat → Bool} {lanes : List Nat}

theorem exec_stb : exec (.stb h m t k b c) s = runGang (.stb h m t k b c) s anywhere (stbMem h m t k b c).body := rfl

theorem stbMem_keepsDead : (stbMem h m t k b c).KeepsDead where
  zero _ _ := rfl
  run a j pa va := by
    unfold stbMem Acc.store
    dsimp only
    split
    · rfl
    · split
      · split <;> rfl
      · rfl
      · rfl

theorem stbMem_runs (hfree : s.buffered g = false) (hlike : g.Like v) :
    (stbMem h m t k b c).Runs place ord lanes ((stbMem h m t k b c).storing i s g v) (fun _ => True)
      (State.storeLane place (g.putElement (t.or .b32) c)) := by
  refine LaneMem.storing_runs hfree (fun _ _ => rfl) fun u o j pa va => ?_
  refine (Acc.store_here hfree rfl j _ pa va _).trans ((Acc.put_eq hlike ..).trans ?_)
  rw [Gang.putElement, ← hlike.vraw]
  rfl

theorem putElement_far (u : State) (pa j : Nat) : (g.putElement t c u pa j).far = u.far := State.bytesPut_far ..

end

/-- Settles O23: STB's lanes store in their turns, and those that raise stop the gang. -/
theorem recordStoresComplete : Obligations.RecordStoresComplete := by
  intro s g h m t k b c place code i u rule y lane l hfree
  refine ⟨fun ha => exec_stb.trans (runGang_ok ha.issues rfl ?completes),
    fun hr => exec_stb.trans (runGang_lanes (LaneRaises.raisedLanes (x := stbMem h m t k b c) hr) hr.issues rfl ?stops)⟩
  case completes =>
    exact laneMem_completes (x := stbMem h m t k b c) rfl stbMem_keepsDead
      (stbMem_runs (i := i) hfree (mBits_like (LaneMem.counted_like (stbMem h m t k b c) ..) ..)) trivial ha rfl (fun _ => rfl) (fun _ => rfl)
  case stops =>
    exact laneMem_stops (x := stbMem h m t k b c) rfl stbMem_keepsDead
      (stbMem_runs (i := i) hfree (mBits_like (LaneMem.counted_like (stbMem h m t k b c) ..) ..)) trivial hr rfl (fun _ => rfl) (fun _ => rfl) (fun _ => rfl)
      ((State.foldl_storeLane State.far putElement_far ..).trans (LaneMem.counted_far (stbMem h m t k b c) ..))

/- What STB leaves as it was -/

theorem leBytes_length (n x : Nat) : (leBytes n x).length = n := by
  induction n generalizing x with
  | zero => rfl
  | succ n ih => rw [leBytes, List.length_cons, ih]

/-- Bytes of memory at `p` may have changed; the other bytes, the gangs, the crews, the cores, the contexts' registers, the versions and the kick page's
place are as they were. -/
structure OnlyBytes (p : Nat → Prop) (s t : State) : Prop where
  bytes : ∀ a, ¬ p a → Store.get t.mem a = Store.get s.mem a
  gangs : t.gangs = s.gangs
  crews : t.crews = s.crews
  cores : t.cores = s.cores
  ctxRegs : t.ctxRegs = s.ctxRegs
  vers : t.vers = s.vers
  kickFrame : t.kickFrame = s.kickFrame

section
variable {p : Nat → Prop} {s t u : State} {g : Gang}

theorem OnlyBytes.refl (p : Nat → Prop) (s : State) : OnlyBytes p s s := ⟨fun _ _ => rfl, rfl, rfl, rfl, rfl, rfl, rfl⟩

theorem OnlyBytes.trans (hst : OnlyBytes p s t) (htu : OnlyBytes p t u) : OnlyBytes p s u where
  bytes a ha := (htu.bytes a ha).trans (hst.bytes a ha)
  gangs := htu.gangs.trans hst.gangs
  crews := htu.crews.trans hst.crews
  cores := htu.cores.trans hst.cores
  ctxRegs := htu.ctxRegs.trans hst.ctxRegs
  vers := htu.vers.trans hst.vers
  kickFrame := htu.kickFrame.trans hst.kickFrame

theorem OnlyBytes.onKickPage (h : OnlyBytes p s t) (pa : Nat) : t.onKickPage pa = s.onKickPage pa := by
  unfold State.onKickPage
  rw [h.kickFrame]

theorem LaneMem.counted_onlyBytes (x : LaneMem) (i : Instr) (s : State) (g : Gang) : OnlyBytes p s (x.counted i s g).1 := by
  unfold LaneMem.counted State.countOp
  obtain ⟨_, _, _, _, _, hnoted⟩ := noted_looks s g x.k x.h x.m x.b x.rule (g.acting i)
  rw [hnoted]
  exact ⟨fun _ _ => rfl, rfl, rfl, rfl, rfl, rfl, rfl⟩

theorem physWrite_onlyBytes (s : State) {pa : Nat} {l : List PByte} (hp : ∀ a, pa ≤ a → a < pa + l.length → p a) : OnlyBytes p s (s.physWrite pa l) where
  bytes a ha := s.physWrite_mem_outside l (by
    by_contra hin
    exact ha (hp a (by omega) (by omega)))
  gangs := s.physWrite_gangs pa l
  crews := s.physWrite_crews pa l
  cores := s.physWrite_cores pa l
  ctxRegs := s.physWrite_ctxRegs pa l
  vers := s.physWrite_vers pa l
  kickFrame := s.physWrite_kickFrame pa l

theorem keepRo_length (s : State) (pa : Nat) (l : List PByte) : (s.keepRo pa l).length = l.length := by
  simp only [State.keepRo, List.length_map, List.length_zip, List.length_range, Nat.min_self]

theorem plainWrite_onlyBytes (s : State) {pa : Nat} {l : List PByte} (hp : ∀ a, pa ≤ a → a < pa + l.length → p a) : OnlyBytes p s (s.plainWrite pa l) := by
  unfold State.plainWrite
  split
  · refine .trans (t := { s with qFresh := s.qFresh ||| s.enSet pa l }) ⟨fun _ _ => rfl, rfl, rfl, rfl, rfl, rfl, rfl⟩ (physWrite_onlyBytes _ ?_)
    rwa [keepRo_length]
  · exact physWrite_onlyBytes s hp

/-- Away from the kick page a gang writes nothing but the bytes. -/
theorem bytesPut_onlyBytes {pa : Nat} {l : List PByte} (haway : s.onKickPage pa = false) (hp : ∀ a, pa ≤ a → a < pa + l.length → p a) :
    OnlyBytes p s (s.bytesPut g pa l) := by
  unfold State.bytesPut State.memWrite
  rw [haway, if_neg Bool.false_ne_true]
  exact plainWrite_onlyBytes s hp

theorem storeLanes_onlyBytes {place : Nat → Option (Nat × Nat)} {t : Fmt} {c : BitVec 8} {l : List Nat}
    (haway : ∀ j ∈ l, ∀ pa va, place j = some (pa, va) → s.onKickPage pa = false)
    (hp : ∀ j ∈ l, ∀ pa va, place j = some (pa, va) → ∀ a, pa ≤ a → a < pa + t.bytes → p a) :
    OnlyBytes p s (l.foldl (State.storeLane place (g.putElement t c)) s) := by
  induction l generalizing s with
  | nil => exact .refl p s
  | cons j r ih =>
    have hj : OnlyBytes p s (s.storeLane place (g.putElement t c) j) := by
      unfold State.storeLane
      split
      · next pa va hplace =>
        exact bytesPut_onlyBytes (haway j List.mem_cons_self pa va hplace)
          (by rw [clean, List.length_map, leBytes_length]; exact hp j List.mem_cons_self pa va hplace)
      · exact .refl p s
    refine hj.trans (ih (fun k hk pa va hplace => ?_) (fun k hk => hp k (List.mem_cons_of_mem j hk)))
    rw [hj.onKickPage]
    exact haway k (List.mem_cons_of_mem j hk) pa va hplace

end

/-- An access that is counted and writes the bounds mask changes no other register, and no special register. -/
theorem LaneMem.counted_mBits_sameRegs (x : LaneMem) (i : Instr) (s : State) (g : Gang) (n : Nat) (l : List (Nat × Bool)) :
    SameRegs g ((x.counted i s g).2.mBits n l) (fun _ => False) (fun _ _ => False) (fun k => k = n) (fun _ => False) := by
  unfold Gang.mBits
  split
  · exact ⟨fun _ _ => rfl, fun _ _ _ => rfl, fun _ _ => rfl, fun _ _ => rfl⟩
  · exact ⟨fun _ _ => rfl, fun _ _ _ => rfl, fun _ hk => congrArg _ (Store.get_set_of_ne _ _ hk), fun _ _ => rfl⟩

theorem LaneMem.counted_mBits_sameSpecials (x : LaneMem) (i : Instr) (s : State) (g : Gang) (n : Nat) (l : List (Nat × Bool)) :
    SameSpecials g ((x.counted i s g).2.mBits n l) := by
  unfold Gang.mBits
  split <;> exact ⟨rfl, rfl, rfl, rfl, rfl, rfl, rfl, rfl⟩

/-- Settles O24: STB's stores change only bytes at the lanes' places, and of its gang only the bounds mask. -/
theorem recordStoreFrame : Obligations.RecordStoreFrame := by
  intro s t g h m f k b c place i u ha hfree haway hexec
  rw [(recordStoresComplete s g h m f k b c place (fun _ => 0) hfree).1 ha] at hexec
  obtain ⟨v, hput, hcore, hslot, -, hregs, hspecials⟩ := s.completes_eq_putGang i g
    ((bitsOn (g.acting i)).foldl (State.storeLane place (g.putElement u c)) ((stbMem h m f k b c).counted i s g).1)
    (((stbMem h m f k b c).counted i s g).2.boundsOf m.bm (bitsOn (g.acting i)) place)
  have hcounted : OnlyBytes (fun a => ∃ j ∈ bitsOn (g.acting i), ∃ pa va, place j = some (pa, va) ∧ pa ≤ a ∧ a < pa + u.bytes) s
      ((stbMem h m f k b c).counted i s g).1 := LaneMem.counted_onlyBytes ..
  obtain ⟨hbytes, hgangs, hcrews, hcores, hctxRegs, hvers, -⟩ := hcounted.trans (storeLanes_onlyBytes (g := g) (c := c)
    (fun j hj pa va hplace => (hcounted.onKickPage pa).trans (haway j hj pa va hplace))
    (fun j hj pa va hplace a hlo hhi => ⟨j, hj, pa, va, hplace, hlo, hhi⟩))
  have ht : t = State.putGang _ v := (Host.Outcome.next.inj hexec).symm.trans hput
  have hlike : g.Like (((stbMem h m f k b c).counted i s g).2.boundsOf m.bm (bitsOn (g.acting i)) place) := mBits_like (LaneMem.counted_like ..) ..
  have hplaced : v.core = g.core ∧ v.slot = g.slot := ⟨hcore.trans hlike.core, hslot.trans hlike.slot⟩
  subst ht
  refine ⟨fun a ha => hbytes a ?_, fun d n hne => ?_, hcrews, hcores, hctxRegs, hvers, v, ?_, ?_, ?_⟩
  · rintro ⟨j, hj, pa, va, hplace, hlo, hhi⟩
    have := ha j hj pa va hplace
    omega
  · rw [State.gang_putGang_of_ne _ _ (by rwa [hplaced.1, hplaced.2])]
    unfold State.gang?
    rw [hgangs]
  · exact State.gang_putGang_of_eq _ _ (by rw [hplaced.1, hplaced.2])
  · exact ((stbMem h m f k b c).counted_mBits_sameRegs i s g ..).trans hregs
  · exact ((stbMem h m f k b c).counted_mBits_sameSpecials i s g ..).trans hspecials

end Sys2Proof.Machine
end


section
/-! PROOFS. ATM, REDX and XRND (R227, R228): the rows that read memory and write it in the same turn. -/
namespace Sys2Proof.Machine

/- What the lanes' registers leave of their gang -/

/-- The gangs have the same slot, launch and modes, by which their lanes write memory and round. -/
structure Gang.SameModes (g v : Gang) : Prop where
  launch : v.launch = g.launch
  slot : v.slot = g.slot
  rmode : v.rmode = g.rmode

section
variable {g v : Gang} (h : g.SameModes v)
include h

theorem Gang.SameModes.vPut (t : Fmt) (d lane x : Nat) (bad : Bool) : g.SameModes (v.vPut t d lane x bad) := by
  unfold Gang.vPut
  dsimp only
  split <;> exact ⟨h.launch, h.slot, h.rmode⟩

theorem Gang.SameModes.vBytes (t : Fmt) (d lane : Nat) (l : List PByte) : g.SameModes (v.vBytes t d lane l) := by
  unfold Gang.vBytes
  split
  · exact ⟨h.launch, h.slot, h.rmode⟩
  · exact h.vPut ..

theorem Gang.SameModes.mBits (n : Nat) (l : List (Nat × Bool)) : g.SameModes (v.mBits n l) := by
  unfold Gang.mBits
  split <;> exact ⟨h.launch, h.slot, h.rmode⟩

theorem Gang.SameModes.bytesPut (s : State) (pa : Nat) (l : List PByte) : s.bytesPut v pa l = s.bytesPut g pa l := by
  unfold State.bytesPut Gang.isHandler State.hpriv
  rw [h.slot, h.launch]

theorem Gang.SameModes.mode (r : Rnd) : v.mode r = g.mode r := congrArg r.mode h.rmode
theorem Gang.SameModes.sat : v.sat = g.sat := congrArg (·.getLsbD 3) h.rmode

theorem Gang.SameModes.fpTrap (x : Sig) : v.fpTrap x = g.fpTrap x := by
  unfold Gang.fpTrap Gang.invt Gang.oft
  rw [h.rmode]

end

theorem Gang.SameModes.put {g : Gang} {a : Acc} (h : g.SameModes a.g) (pa : Nat) (l : List PByte) : a.put pa l = { a with s := a.s.bytesPut g pa l } :=
  congrArg (fun t => { a with s := t }) (h.bytesPut a.s pa l)

theorem LaneMem.counted_sameModes (x : LaneMem) (i : Instr) (s : State) (g : Gang) : g.SameModes (x.counted i s g).2 := ⟨rfl, rfl, rfl⟩

/-- In FREE mode a lane at its turn reads memory as the lanes before have left it. -/
theorem Acc.read_free {a : Acc} (hfree : a.buffered = false) (hturns : a.turns = []) (j pa n : Nat) :
    a.read j (.here pa) n = some (a.s.memRead pa n) := by
  simp only [Acc.read, Acc.turn?, hturns, hfree, List.find?_nil, Bool.false_eq_true, if_false]

/- ATM -/

/-- ATM as a lane-wise access. -/
def atmMem (h : VH) (m : MH) (op : AtmOp) (t : Fmt) (d : BitVec 8) (k : BitVec 4) (b : VSrc) (c x : BitVec 8) : LaneMem where
  k := k
  h := h
  m := m
  b := b
  rule := { size := (t.or .i32).bytes, write := true, noVer := true }
  kind := 2
  cls := .st
  element := true
  refs := vRegs (t.or .i32) d
  data := dataRegs (t.or .i32) c ++ (if op = .cas then dataRegs (t.or .i32) x else [])
  ask s g i :=
    if s.buffered g then some (.load (t.or .i32).bytes)
    else some (.atm op (t.or .i32) (BitVec.ofNat 64 (g.vraw (t.or .i32) c.toNat i)) (BitVec.ofNat 64 (g.vraw (t.or .i32) x.toNat i)))
  zero g i := g.vPut (t.or .i32) d.toNat i 0
  run a i loc _ := atmLane op (t.or .i32) d c x a i loc
  same := true
  space := 16

/-- A lane's atomic step at its place in FREE mode: the old value into its register, the new one into memory (R227). -/
def Gang.atmAt (g : Gang) (op : AtmOp) (t : Fmt) (d c x : BitVec 8) (z : State × Gang) (pa j : Nat) : State × Gang :=
  let old := z.1.memRead pa t.bytes
  let v := z.2.vBytes t d.toNat j old
  if anyBad old = true ∧ op ≠ .xchg then (z.1, v)
  else (z.1.bytesPut g pa (clean (leBytes t.bytes (atmNew op t (natOf old) (z.2.vraw t c.toNat j) (z.2.vraw t x.toNat j)))), v)

/-- The same for a lane, which takes 0 out of bounds. -/
def Gang.atmTurn (g : Gang) (op : AtmOp) (t : Fmt) (d c x : BitVec 8) (place : Nat → Option (Nat × Nat)) (z : State × Gang) (j : Nat) : State × Gang :=
  match place j with
  | some (pa, _) => g.atmAt op t d c x z pa j
  | none => (z.1, z.2.vPut t d.toNat j 0)

theorem atmBytes_poisoned {r : List PByte} {op : AtmOp} (h : anyBad r = true ∧ op ≠ .xchg) (t : Fmt) (c x : Nat) : atmBytes r op t c x = none :=
  if_pos (by simpa using h)
theorem atmBytes_takes {r : List PByte} {op : AtmOp} (h : ¬ (anyBad r = true ∧ op ≠ .xchg)) (t : Fmt) (c x : Nat) :
    atmBytes r op t c x = some (clean (leBytes t.bytes (atmNew op t (natOf r) c x))) := if_neg (by simpa using h)

/-- In FREE mode a lane whose page has no turn yet performs its step on memory. -/
theorem atmLane_free {g : Gang} {a : Acc} (hfree : a.buffered = false) (hturns : a.turns = []) (hmodes : g.SameModes a.g) (op : AtmOp) (t : Fmt)
    (d c x : BitVec 8) (j pa : Nat) :
    atmLane op t d c x a j (.here pa) = { a with s := (g.atmAt op t d c x (a.s, a.g) pa j).1, g := (g.atmAt op t d c x (a.s, a.g) pa j).2 } := by
  unfold atmLane Gang.atmAt
  rw [Acc.read_free hfree hturns]
  by_cases hbad : anyBad (a.s.memRead pa t.bytes) = true ∧ op ≠ .xchg
  · simp only [hfree, Acc.turn?, hturns, List.find?_nil, atmBytes_poisoned hbad, if_pos hbad, Bool.false_eq_true, if_false, Option.isSome_none]
  · simp only [hfree, Acc.turn?, hturns, List.find?_nil, atmBytes_takes hbad, if_neg hbad, Bool.false_eq_true, if_false, Option.isSome_none]
    exact (hmodes.vBytes ..).put ..

section
variable {i : Instr} {s : State} {g v : Gang} {h : VH} {m : MH} {op : AtmOp} {t : Fmt} {d : BitVec 8} {k : BitVec 4} {b : VSrc} {c x : BitVec 8}
  {place : Nat → Option (Nat × Nat)} {ord : Nat → Bool} {lanes : List Nat}

theorem exec_atm : exec (.atm h m op t d k b c x) s = runGang (.atm h m op t d k b c x) s anywhere (atmMem h m op t d k b c x).body := rfl

theorem atmLane_dead (a : Acc) (j : Nat) (loc : Loc) : (atmLane op t d c x a j loc).g.dead = a.g.dead := by
  unfold atmLane
  dsimp only
  split
  · split <;> exact vPut_dead ..
  · split
    · exact vBytes_dead ..
    · split
      · exact vBytes_dead ..
      · split <;> exact vBytes_dead ..

theorem atmMem_keepsDead : (atmMem h m op t d k b c x).KeepsDead where
  zero _ _ := vPut_dead ..
  run _ _ _ _ := atmLane_dead ..

theorem atmTurn_sameModes {z : State × Gang} (hz : g.SameModes z.2) (j : Nat) : g.SameModes (g.atmTurn op t d c x place z j).2 := by
  unfold Gang.atmTurn Gang.atmAt
  split
  · dsimp only
    split <;> exact hz.vBytes ..
  · exact hz.vPut ..

theorem atmMem_runs (hfree : s.buffered g = false) :
    (atmMem h m op t d k b c x).Runs place ord lanes (fun z => (atmMem h m op t d k b c x).storing i s g z.2 z.1) (fun z => g.SameModes z.2)
      (g.atmTurn op (t.or .i32) d c x place) := by
  intro z o j _ hz
  refine ⟨atmTurn_sameModes hz j, ?_⟩
  unfold LaneMem.turn Gang.atmTurn
  cases place j with
  | none => exact ⟨o, LaneMem.skip_eq (.inl hfree) j⟩
  | some q =>
    exact ⟨ord j, atmLane_free (a := { (atmMem h m op t d k b c x).storing i s g z.2 z.1 with ord := ord j }) hfree rfl hz op (t.or .i32) d c x j q.1⟩

end

/-- Settles O26: in FREE mode ATM's lanes take their steps on memory in their turns. -/
theorem atomicsComplete : Obligations.AtomicsComplete := by
  intro s g h m op t d k b c x place i u ha hfree
  exact exec_atm.trans (runGang_ok ha.issues rfl (laneMem_completes (x := atmMem h m op t d k b c x) rfl atmMem_keepsDead
    (atmMem_runs (i := i) hfree) (((atmMem h m op t d k b c x).counted_sameModes i s g).mBits ..) ha rfl (fun _ => rfl) (fun _ => rfl)))

/- REDX -/

/-- REDX as a lane-wise access. -/
def redxMem (h : VH) (m : MH) (t : Fmt) (k : BitVec 4) (b : VSrc) (c : BitVec 8) (x : Option (BitVec 8)) : LaneMem where
  k := k
  h := h
  m := m
  b := b
  rule := { size := 128, write := true, noOrd := true, noVer := true }
  kind := 2
  cls := .st
  element := false
  refs := []
  data := dataRegs (t.or .f32) c ++ (match x with | some y => dataRegs (t.or .f32) y | none => [])
  ask _ _ _ := none
  zero g _ := g
  run a i loc va :=
    let y := a.g.vraw (t.or .f32) c.toNat i
    let z := x.map (fun r => a.g.vraw (t.or .f32) r.toNat i)
    if a.buffered then a.push i (a.g.laneKey i) 16 (.redx loc (t.or .f32) (BitVec.ofNat 64 y) (z.map (BitVec.ofNat 64)))
    else
      match loc with
      | .here pa => a.put pa (redxBytes (a.s.memRead pa 128) (t.or .f32) y z)
      | .far p fa tag => a.send i (a.g.laneKey i) p fa tag va (.redx (t.or .f32) (BitVec.ofNat 64 y) (z.map (BitVec.ofNat 64)))
  space := 16

/-- The term of a lane, added to the cell at its place. -/
def Gang.addTerm (g : Gang) (t : Fmt) (c : BitVec 8) (x : Option (BitVec 8)) (u : State) (pa j : Nat) : State :=
  u.bytesPut g pa (redxBytes (u.memRead pa 128) t (g.vraw t c.toNat j) (x.map (fun r => g.vraw t r.toNat j)))

section
variable {i : Instr} {s : State} {g v : Gang} {h : VH} {m : MH} {t : Fmt} {k : BitVec 4} {b : VSrc} {c : BitVec 8} {x : Option (BitVec 8)}
  {place : Nat → Option (Nat × Nat)} {ord : Nat → Bool} {lanes : List Nat}

theorem exec_redx : exec (.redx h m t k b c x) s = runGang (.redx h m t k b c x) s anywhere (redxMem h m t k b c x).body := rfl

theorem redxMem_keepsDead : (redxMem h m t k b c x).KeepsDead where
  zero _ _ := rfl
  run _ _ _ _ := by
    unfold redxMem
    dsimp only
    split <;> rfl

theorem redxMem_runs (hfree : s.buffered g = false) (hlike : g.Like v) :
    (redxMem h m t k b c x).Runs place ord lanes ((redxMem h m t k b c x).storing i s g v) (fun _ => True)
      (State.storeLane place (g.addTerm (t.or .f32) c x)) := by
  refine LaneMem.storing_runs hfree (fun _ _ => rfl) fun u o j pa va => ?_
  refine (if_neg (ne_true_of_eq_false hfree)).trans ((Acc.put_eq hlike ..).trans ?_)
  simp only [Gang.addTerm, ← hlike.vraw]
  rfl

theorem exec_redx_completes (ha : LaneAccess (.redx h m t k b c x) s g k h m b { size := 128, write := true, noOrd := true, noVer := true } .st false
    (srcRegs (t.or .f32) (.v c) ++ (match x with | some r => srcRegs (t.or .f32) (.v r) | none => [])) place) (hfree : s.buffered g = false) :
    exec (.redx h m t k b c x) s = .next (s.completes (.redx h m t k b c x) g
      ((bitsOn (g.acting (.redx h m t k b c x))).foldl (State.storeLane place (g.addTerm (t.or .f32) c x))
        ((redxMem h m t k b c x).counted (.redx h m t k b c x) s g).1)
      (((redxMem h m t k b c x).counted (.redx h m t k b c x) s g).2.boundsOf m.bm (bitsOn (g.acting (.redx h m t k b c x))) place)) :=
  exec_redx.trans (runGang_ok ha.issues rfl (laneMem_completes (x := redxMem h m t k b c x) rfl redxMem_keepsDead
    (redxMem_runs (i := .redx h m t k b c x) hfree (mBits_like (LaneMem.counted_like (redxMem h m t k b c x) ..) ..)) trivial ha rfl (fun _ => rfl)
    (fun _ => rfl)))

end

/- XRND -/

/-- XRND as a lane-wise access. -/
def xrndMem (h : VH) (m : MH) (r : Rnd) (clr : Bool) (t : Fmt) (d : BitVec 8) (k : BitVec 4) (b : VSrc) : LaneMem where
  k := k
  h := h
  m := m
  b := b
  rule := { size := 128 }
  kind := 0
  cls := .ld
  element := false
  refs := vRegs (t.or .f32) d
  data := []
  ask s g _ := if s.buffered g then some (.load 128) else some (.xrnd (t.or .f32) r g.rmode clr)
  zero g i := g.vPut (t.or .f32) d.toNat i 0
  run a i loc _ := xrndLane r clr (t.or .f32) d a i loc
  same := clr

/-- What a gang reads out of a cell in the bytes `l` (R228). -/
def Gang.cellOut (g : Gang) (r : Rnd) (t : Fmt) (l : List PByte) : Nat × Sig := (Xa.ofBytes (rawBytes l)).readout t (g.mode r) g.sat

/-- A lane's readout at its place in FREE mode: one that raises adds its code, another writes its register and, with `.clr`, resets the cell. -/
def Gang.xrndAt (g : Gang) (r : Rnd) (clr : Bool) (t : Fmt) (d : BitVec 8) (z : State × Gang × List (Nat × Nat)) (pa j : Nat) :
    State × Gang × List (Nat × Nat) :=
  let old := z.1.memRead pa 128
  let out := g.cellOut r t old
  if g.fpTrap out.2 ≠ 0 then (z.1, z.2.1, z.2.2 ++ [(j, g.fpTrap out.2)])
  else (if clr then z.1.bytesPut g pa (clean Xa.zero.bytes) else z.1, z.2.1.vPut t d.toNat j out.1 (anyBad old), z.2.2)

/-- The same for a lane, which takes 0 out of bounds. -/
def Gang.xrndTurn (g : Gang) (r : Rnd) (clr : Bool) (t : Fmt) (d : BitVec 8) (place : Nat → Option (Nat × Nat)) (z : State × Gang × List (Nat × Nat))
    (j : Nat) : State × Gang × List (Nat × Nat) :=
  match place j with
  | some (pa, _) => g.xrndAt r clr t d z pa j
  | none => (z.1, z.2.1.vPut t d.toNat j 0, z.2.2)

/-- A lane's readout where nothing is reset and nothing raises: the cells at the places are those that the gang sees before the instruction. -/
def Gang.xrndRead (g : Gang) (s : State) (r : Rnd) (t : Fmt) (d : BitVec 8) (place : Nat → Option (Nat × Nat)) (v : Gang) (j : Nat) : Gang :=
  match place j with
  | some (pa, _) => v.vPut t d.toNat j (g.cellOut r t (s.bytesSeen g pa 128)).1 (anyBad (s.bytesSeen g pa 128))
  | none => v.vPut t d.toNat j 0

section
variable {g : Gang} {a : Acc} (hmodes : g.SameModes a.g) {r : Rnd} {t : Fmt} {d : BitVec 8} {j : Nat} {loc : Loc} {l : List PByte}
include hmodes

theorem Gang.SameModes.cellOut : (Xa.ofBytes (rawBytes l)).readout t (a.g.mode r) a.g.sat = g.cellOut r t l := by
  rw [hmodes.mode, hmodes.sat, Gang.cellOut]

theorem xrndLane_raises (hread : a.read j loc 128 = some l) (hraise : g.fpTrap (g.cellOut r t l).2 ≠ 0) (clr : Bool) :
    xrndLane r clr t d a j loc = { a with codes := a.codes ++ [(j, g.fpTrap (g.cellOut r t l).2)] } := by
  unfold xrndLane
  rw [hread]
  dsimp only
  rw [hmodes.cellOut, hmodes.fpTrap, if_pos hraise]

theorem xrndLane_quiet (hread : a.read j loc 128 = some l) (hquiet : g.fpTrap (g.cellOut r t l).2 = 0) :
    xrndLane r false t d a j loc = { a with g := a.g.vPut t d.toNat j (g.cellOut r t l).1 (anyBad l) } := by
  unfold xrndLane
  rw [hread]
  dsimp only
  rw [hmodes.cellOut, hmodes.fpTrap, if_neg (not_not.mpr hquiet), Bool.not_false, if_pos rfl]

variable (hfree : a.buffered = false) (hturns : a.turns = [])
include hfree hturns

theorem xrndLane_clears {pa : Nat} (hread : a.read j (.here pa) 128 = some l) (hquiet : g.fpTrap (g.cellOut r t l).2 = 0) :
    xrndLane r true t d a j (.here pa) =
      { a with s := a.s.bytesPut g pa (clean Xa.zero.bytes), g := a.g.vPut t d.toNat j (g.cellOut r t l).1 (anyBad l) } := by
  unfold xrndLane
  rw [hread]
  dsimp only
  rw [hmodes.cellOut, hmodes.fpTrap, if_neg (not_not.mpr hquiet)]
  simp only [hfree, Acc.turn?, hturns, List.find?_nil, Bool.not_true, Bool.false_eq_true, if_false, Option.isSome_none]
  exact (hmodes.vPut ..).put ..

/-- In FREE mode a lane in place reads its cell of memory and resets it there. -/
theorem xrndLane_free (clr : Bool) (pa : Nat) :
    xrndLane r clr t d a j (.here pa) =
      (let z := g.xrndAt r clr t d (a.s, a.g, a.codes) pa j
       { a with s := z.1, g := z.2.1, codes := z.2.2 }) := by
  have hread := Acc.read_free hfree hturns j pa 128
  unfold Gang.xrndAt
  by_cases hraise : g.fpTrap (g.cellOut r t (a.s.memRead pa 128)).2 = 0
  · simp only [hraise, ne_eq, not_true, if_false]
    cases clr
    · exact xrndLane_quiet hmodes hread hraise
    · exact xrndLane_clears hmodes hfree hturns hread hraise
  · simp only [ne_eq, hraise, not_false_eq_true, if_true]
    exact xrndLane_raises hmodes hread hraise clr

end

section
variable {i : Instr} {s : State} {g : Gang} {h : VH} {m : MH} {r : Rnd} {clr : Bool} {t : Fmt} {d : BitVec 8} {k : BitVec 4} {b : VSrc}
  {place : Nat → Option (Nat × Nat)} {ord : Nat → Bool} {lanes : List Nat}

theorem exec_xrnd : exec (.xrnd h m r clr t d k b) s = runGang (.xrnd h m r clr t d k b) s anywhere (xrndMem h m r clr t d k b).body := rfl

theorem xrndLane_dead (a : Acc) (j : Nat) (loc : Loc) : (xrndLane r clr t d a j loc).g.dead = a.g.dead := by
  unfold xrndLane
  dsimp only
  split
  · exact vPut_dead ..
  · split
    · rfl
    · split
      · exact vPut_dead ..
      · split
        · exact vPut_dead ..
        · split
          · exact vPut_dead ..
          · split <;> exact vPut_dead ..

theorem xrndMem_keepsDead : (xrndMem h m r clr t d k b).KeepsDead where
  zero _ _ := vPut_dead ..
  run _ _ _ _ := xrndLane_dead ..

/- Readouts that reset nothing -/

theorem xrndRead_sameModes {v : Gang} (hv : g.SameModes v) (j : Nat) : g.SameModes (g.xrndRead s r t d place v j) := by
  unfold Gang.xrndRead
  split <;> exact hv.vPut ..

theorem xrndMem_reads (hquiet : ∀ j ∈ lanes, ∀ pa va, place j = some (pa, va) → g.fpTrap (g.cellOut r (t.or .f32) (s.bytesSeen g pa 128)).2 = 0) :
    (xrndMem h m r false t d k b).Runs place ord lanes ((xrndMem h m r false t d k b).begun i s g) g.SameModes (g.xrndRead s r (t.or .f32) d place) := by
  intro v o j hj hv
  refine ⟨xrndRead_sameModes hv j, ?_⟩
  unfold LaneMem.turn Gang.xrndRead
  cases hplace : place j with
  | none => exact ⟨o, LaneMem.skip_eq (.inr rfl) j⟩
  | some q =>
    exact ⟨ord j, xrndLane_quiet (a := { (xrndMem h m r false t d k b).begun i s g v with ord := ord j }) hv (LaneMem.begun_read ..)
      (hquiet j hj q.1 q.2 hplace)⟩

/- Readouts in FREE mode -/

/-- An XRND in FREE mode, with memory, registers and codes as the lanes before have left them. -/
def xrndStart (x : LaneMem) (i : Instr) (s : State) (g : Gang) (z : State × Gang × List (Nat × Nat)) : Acc :=
  { x.storing i s g z.2.1 z.1 with codes := z.2.2 }

theorem xrndTurn_sameModes {z : State × Gang × List (Nat × Nat)} (hz : g.SameModes z.2.1) (j : Nat) :
    g.SameModes (g.xrndTurn r clr t d place z j).2.1 := by
  unfold Gang.xrndTurn Gang.xrndAt
  split
  · dsimp only
    split
    · exact hz
    · exact hz.vPut ..
  · exact hz.vPut ..

theorem xrndMem_runs (hfree : s.buffered g = false) :
    (xrndMem h m r clr t d k b).Runs place ord lanes (xrndStart (xrndMem h m r clr t d k b) i s g) (fun z => g.SameModes z.2.1)
      (g.xrndTurn r clr (t.or .f32) d place) := by
  intro z o j _ hz
  refine ⟨xrndTurn_sameModes hz j, ?_⟩
  unfold LaneMem.turn Gang.xrndTurn
  cases place j with
  | none => exact ⟨o, LaneMem.skip_eq (.inr rfl) j⟩
  | some q =>
    exact ⟨ord j, xrndLane_free (a := { xrndStart (xrndMem h m r clr t d k b) i s g z with ord := ord j }) hz hfree rfl clr q.1⟩

theorem xrndTurn_far (z : State × Gang × List (Nat × Nat)) (j : Nat) : (g.xrndTurn r clr t d place z j).1.far = z.1.far := by
  unfold Gang.xrndTurn Gang.xrndAt
  split
  · dsimp only
    split
    · rfl
    · split
      · exact State.bytesPut_far ..
      · rfl
  · rfl

theorem foldl_xrndTurn_far (l : List Nat) (z : State × Gang × List (Nat × Nat)) : (l.foldl (g.xrndTurn r clr t d place) z).1.far = z.1.far := by
  induction l generalizing z with
  | nil => rfl
  | cons j l ih => rw [List.foldl_cons, ih, xrndTurn_far]

/-- A lane's turn raises nothing, or the code of its readout. -/
theorem xrndTurn_codes (z : State × Gang × List (Nat × Nat)) (j : Nat) :
    (g.xrndTurn r clr t d place z j).2.2 = z.2.2 ∨ ∃ c, 0 < c ∧ c < 16 ∧ (g.xrndTurn r clr t d place z j).2.2 = z.2.2 ++ [(j, c)] := by
  unfold Gang.xrndTurn Gang.xrndAt
  split
  · dsimp only
    split
    · next hraise => exact .inr ⟨_, Nat.pos_of_ne_zero hraise, fpTrap_lt .., rfl⟩
    · exact .inl rfl
  · exact .inl rfl

/-- The codes that the turns add are of lanes of theirs, in their order. -/
theorem foldl_xrndTurn_codes (l : List Nat) (z : State × Gang × List (Nat × Nat)) :
    ∃ c, (l.foldl (g.xrndTurn r clr t d place) z).2.2 = z.2.2 ++ c ∧ (c.map (·.1)).Sublist l ∧ ∀ y ∈ c, 0 < y.2 ∧ y.2 < 16 := by
  induction l generalizing z with
  | nil => exact ⟨[], (List.append_nil _).symm, .slnil, nofun⟩
  | cons j l ih =>
    obtain ⟨c, hc, hsub, hcodes⟩ := ih (g.xrndTurn r clr t d place z j)
    rw [List.foldl_cons, hc]
    rcases xrndTurn_codes (g := g) (r := r) (clr := clr) (t := t) (d := d) (place := place) z j with hj | ⟨q, hpos, hlt, hj⟩
    · exact ⟨c, by rw [hj], hsub.cons j, hcodes⟩
    · exact ⟨(j, q) :: c, by rw [hj, List.append_assoc]; rfl, hsub.cons_cons j, List.forall_mem_cons.mpr ⟨⟨hpos, hlt⟩, hcodes⟩⟩

theorem raisedLanes_foldl_xrndTurn {u : LaneMask} {z : State × Gang × List (Nat × Nat)} (hz : z.2.2 = [])
    (hsome : ((bitsOn u).foldl (g.xrndTurn r clr t d place) z).2.2 ≠ []) : RaisedLanes ((bitsOn u).foldl (g.xrndTurn r clr t d place) z).2.2 := by
  obtain ⟨c, hc, hsub, hcodes⟩ := foldl_xrndTurn_codes (g := g) (r := r) (clr := clr) (t := t) (d := d) (place := place) (bitsOn u) z
  rw [hz, List.nil_append] at hc
  rw [hc] at hsome ⊢
  exact ⟨hsome, (bitsOn_sorted u).sublist hsub, hcodes⟩

end

/-- Settles O27: REDX's lanes add to their cells and XRND's read theirs out, in their turns; readouts that raise stop the gang. -/
theorem cellRows : Obligations.CellRows := by
  refine ⟨fun s g h m t k b c x place ha hfree => exec_redx_completes ha hfree, ?reads, ?free⟩
  case reads =>
    intro s g h m r t d k b place i u ha out hquiet
    exact exec_xrnd.trans (runGang_ok ha.issues rfl (laneMem_completes (x := xrndMem h m r false t d k b) rfl xrndMem_keepsDead
      (xrndMem_reads (i := i) hquiet) (((xrndMem h m r false t d k b).counted_sameModes i s g).mBits ..) ha rfl (fun _ => rfl) (fun _ => rfl)))
  case free =>
    intro s g h m r clr t d k b place i u l y z ha hfree
    have hbody := (laneMem_runs (x := xrndMem h m r clr t d k b) rfl xrndMem_keepsDead (xrndMem_runs (i := i) hfree)
      (((xrndMem h m r clr t d k b).counted_sameModes i s g).mBits ..) ha (a₀ := (y.1, y.2.boundsOf m.bm l place, [])) rfl).2
    refine ⟨fun hnone => exec_xrnd.trans (runGang_ok ha.issues rfl (hbody.trans (finish_ok rfl hnone))), fun hsome hfresh => ?_⟩
    have hraised : RaisedLanes z.2.2 := raisedLanes_foldl_xrndTurn rfl hsome
    have hfar : z.1.far = s.far := (foldl_xrndTurn_far ..).trans (LaneMem.counted_far (xrndMem h m r clr t d k b) i s g)
    refine exec_xrnd.trans (runGang_lanes hraised ha.issues rfl (hbody.trans (finish_lanes hraised 0 rfl fun f hf => ?_)))
    exact hfresh f (hfar ▸ hf)

end Sys2Proof.Machine
end


section
/-! PROOFS. LDS, STS, LDC and STC (R219, R226): accesses to crew scratch, when lanes raise too. -/
namespace Sys2Proof.Machine

/- Lanes of which none raises -/

theorem filter_quiet_none (l : List Nat) : l.filter (fun _ => decide (0 = 0)) = l := List.filter_eq_self.mpr fun _ _ => rfl

theorem boundsRaised_none (g : Gang) (bm : BitVec 4) (l : List Nat) (place : Nat → Option (Nat × Nat)) :
    g.boundsRaised bm l place (fun _ => 0) = g.boundsOf bm l place := by
  have hfilter : l.filter (fun _ => decide (0 ≠ 1)) = l := List.filter_eq_self.mpr fun _ _ => rfl
  exact congrArg (fun l => g.mBits bm.toNat (l.map (fun j => (j, (place j).isNone)))) hfilter

theorem raisedLanes_none (l : List Nat) : raisedLanes (fun _ => 0) l = [] := by
  rw [raisedLanes, List.filter_eq_nil_iff.mpr fun _ _ => by decide]
  rfl

/- Lanes whose offset is misaligned -/

/-- The code of a lane that `mis` marks: MISALIGNED. -/
def misCode (mis : Nat → Bool) (j : Nat) : Nat := 2 * (mis j).toNat

section
variable {mis : Nat → Bool} {j : Nat}

theorem misCode_of_aligned (h : mis j = false) : misCode mis j = 0 := by rw [misCode, h]; rfl
theorem misCode_of_misaligned (h : mis j = true) : misCode mis j = 2 := by rw [misCode, h]; rfl
theorem misCode_eq_zero : misCode mis j = 0 ↔ mis j = false := by cases h : mis j <;> simp [misCode, h]
theorem misCode_lt : misCode mis j < 16 := by cases h : mis j <;> simp [misCode, h]

theorem filter_misCode (l : List Nat) : l.filter (fun j => misCode mis j = 0) = l.filter (fun j => mis j = false) := by
  simp only [misCode_eq_zero]

theorem raisedLanes_misCode (l : List Nat) : raisedLanes (misCode mis) l = (l.filter (fun j => mis j = true)).map (fun j => (j, 2)) := by
  have hfilter : l.filter (fun j => misCode mis j ≠ 0) = l.filter (fun j => mis j = true) := by
    simp only [ne_eq, misCode_eq_zero, Bool.not_eq_false]
  rw [raisedLanes, hfilter]
  refine List.map_congr_left fun j hj => ?_
  rw [misCode_of_misaligned (by simpa using (List.mem_filter.mp hj).2)]

end

/- Accesses to scratch -/

/-- Nothing stands against a scratch access but that lanes raise the codes that `code` gives, 0 for none. -/
structure ScratchLanes (i : Instr) (s : State) (g : Gang) (h : VH) (m : MH) (t : Fmt) (b : VSrc) (cls : OpCls) (data : List Nat) (bytes : Nat)
    (place : Nat → Option (Nat × Nat)) (code : Nat → Nat) : Prop where
  room : g.counter cls < 63
  clean : g.CleanIn (g.acting i) (srcRegs .b32 b)
  dataClean : ∀ j ∈ bitsOn (g.acting i), code j = 0 → place j ≠ none → ∀ r ∈ data, g.vBad r j = false
  reach : ∀ j ∈ bitsOn (g.acting i), scratchReach t.bytes bytes m (s.vsrc g h.lit .b32 b j) = reachRaised place (fun _ => false) code j

section
variable {i : Instr} {s : State} {g : Gang} {h : VH} {m : MH} {t : Fmt} {b : VSrc} {cls : OpCls} {data : List Nat} {bytes : Nat}
  {place : Nat → Option (Nat × Nat)} {mis : Nat → Bool} {code : Nat → Nat} {r : BitVec 8} {n : Nat} {p : Launch}

theorem reachOf_none {ord : Nat → Bool} {j : Nat} (hp : place j = none) : reachOf place ord j = .oob := by rw [reachOf, hp]
theorem reachOf_some {ord : Nat → Bool} {j : Nat} {q : Nat × Nat} (hp : place j = some q) : reachOf place ord j = .at_ (.here q.1) q.2 (ord j) := by
  rw [reachOf, hp]

theorem ScratchAccess.lanes (ha : ScratchAccess i s g h m t b cls data bytes place) : ScratchLanes i s g h m t b cls data bytes place (fun _ => 0) where
  room := ha.room
  clean := ha.clean
  dataClean j hj _ := ha.dataClean j hj
  reach j hj := by
    rw [reachRaised_of_quiet rfl]
    cases hp : place j with
    | none => rw [reachOf_none hp, ha.out j hj hp]
    | some q => rw [reachOf_some hp, ha.reaches j hj q.1 q.2 hp]

theorem ScratchRaises.lanes (hr : ScratchRaises i s g h m t b cls data bytes place mis) : ScratchLanes i s g h m t b cls data bytes place (misCode mis) where
  room := hr.room
  clean := hr.clean
  dataClean j hj hc := hr.dataClean j hj (misCode_eq_zero.mp hc)
  reach j hj := by
    cases hm : mis j with
    | true => rw [hr.raises j hj hm, reachRaised_of_raising (by rw [misCode_of_misaligned hm]; decide), misCode_of_misaligned hm]
    | false =>
      rw [reachRaised_of_quiet (misCode_of_aligned hm)]
      cases hp : place j with
      | none => rw [reachOf_none hp, hr.out j hj hm hp]
      | some q => rw [reachOf_some hp, hr.reaches j hj hm q.1 q.2 hp]

theorem ScratchRaises.raisedLanes (hr : ScratchRaises i s g h m t b cls data bytes place mis) :
    RaisedLanes (raisedLanes (misCode mis) (bitsOn (g.acting i))) := by
  obtain ⟨j, hj, hm⟩ := hr.raised
  exact raisedLanes_spec (fun _ _ _ => misCode_lt) ⟨j, hj, by rw [misCode_of_misaligned hm]; decide⟩

/-- What a scratch access does in a lane's turn. -/
def scratchLane (store : Bool) (t : Fmt) (r : BitVec 8) (n : Nat) (x : State × Gang) (y : Nat × Reach) : State × Gang :=
  if x.2.dead.getLsbD y.1 then x
  else
    match y.2 with
    | .oob => (x.1, if store then x.2 else x.2.vPut t r.toNat y.1 0)
    | .at_ (.here o) _ _ =>
      if store then (x.1.modCrew n (fun c => { c with scratch := c.scratch.write o (clean (leBytes t.bytes (x.2.vraw t r.toNat y.1))) }), x.2)
      else (x.1, x.2.vBytes t r.toNat y.1 (Bytes.read (((x.1.crew? n).map (·.scratch)).getD {}) o t.bytes))
    | _ => x

theorem scratchLane_trap (store : Bool) (x : State × Gang) (j c : Nat) : scratchLane store t r n x (j, .trap c) = x := by
  unfold scratchLane
  split <;> rfl

/-- How a scratch access ends: it completes, or its lanes that raise stop the gang and it is not counted. -/
def scratchEnd (z : State × Gang) (l : List (Nat × Nat)) : Res :=
  match codesOf l with
  | [] => .ok z.1 z.2
  | codes => .lanes z.1 (z.2.dropOp (z.1.nextId - 1)) codes

theorem scratchEnd_nil (z : State × Gang) : scratchEnd z [] = .ok z.1 z.2 := rfl

theorem scratchEnd_raised (z : State × Gang) {l : List (Nat × Nat)} (hl : RaisedLanes l) :
    scratchEnd z l = .lanes z.1 (z.2.dropOp (z.1.nextId - 1)) (codesOf l) := by
  obtain ⟨c, r, hc⟩ := List.exists_cons_of_ne_nil hl.codesOf_ne_nil
  rw [scratchEnd, hc]

/-- What a scratch access counts its operation as, and the registers that wait for it. -/
def scratchCounted (store : Bool) (m : MH) (t : Fmt) (r : BitVec 8) (s : State) (g : Gang) : State × Gang :=
  s.countOp g (if store then .st else .ld) ((if store then [] else vRegs t r) ++ Shape.mRef m.bm.toNat)

/-- The lanes of a scratch access that do not raise act in rising order. -/
theorem scratchBody_lanes {store : Bool} (hlaunch : s.launch? g.launch = some p)
    (hl : ScratchLanes i s g h m t b (if store then .st else .ld) (if store then dataRegs t r else []) p.pkt.scratch place code) :
    scratchBody h m t b store r (some n) s g (g.active (shape i)) =
      scratchEnd ((((bitsOn (g.acting i)).filter (fun j => code j = 0)).map (fun j => (j, reachOf place (fun _ => false) j))).foldl
          (scratchLane store t r n)
          ((scratchCounted store m t r s g).1, (scratchCounted store m t r s g).2.boundsRaised m.bm (bitsOn (g.acting i)) place code))
        (raisedLanes code (bitsOn (g.acting i))) := by
  have hreach : (bitsOn (g.acting i)).map (fun j => (j, scratchReach t.bytes p.pkt.scratch m (s.vsrc g h.lit .b32 b j))) =
      (bitsOn (g.acting i)).map (fun j => (j, reachRaised place (fun _ => false) code j)) :=
    List.map_congr_left fun j hj => by rw [hl.reach j hj]
  have hbad : (if store then g.badLanes (g.live (maskOf 64 ((((bitsOn (g.acting i)).map
      (fun j => (j, reachRaised place (fun _ => false) code j))).filter (fun y => y.2.isAt)).map (·.1)))) (dataRegs t r) else 0) = 0 := by
    cases store
    · rfl
    · refine badLanes_clean fun j hj x hx => ?_
      have hm := mem_bitsOn.mp hj
      simp only [Gang.live, BitVec.getLsbD_and, getLsbD_maskOf, Bool.and_eq_true, decide_eq_true_eq] at hm
      obtain ⟨y, hy, rfl⟩ := List.mem_map.mp hm.1.2
      obtain ⟨hy, hat⟩ := List.mem_filter.mp hy
      obtain ⟨k, hk, rfl⟩ := List.mem_map.mp hy
      by_cases hc : code k = 0
      · refine hl.dataClean k hk hc (fun hp => ?_) x hx
        dsimp only at hat
        rw [reachRaised_of_quiet hc, reachOf_none hp] at hat
        cases hat
      · dsimp only at hat
        rw [reachRaised_of_raising hc] at hat
        cases hat
  have hclean := hl.clean
  unfold scratchBody
  unfold Gang.acting at *
  rw [if_neg (Nat.not_le.mpr hl.room), badLanes_clean hclean, consume_none (live_zero _)]
  dsimp only
  rw [hlaunch, Option.isSome_some, if_pos rfl, Option.map_some, Option.getD_some, hreach, hbad, consume_none (live_zero _)]
  dsimp only
  rw [bounds_reachRaised, codes_reachRaised]
  exact congrArg (fun z => scratchEnd z (raisedLanes code (bitsOn (g.live (g.active (shape i))))))
    (foldl_reachRaised (F := scratchLane store t r n) (scratchLane_trap store) _ _)

/- Loads -/

theorem scratchCounted_crew (store : Bool) (m : MH) (t : Fmt) (r : BitVec 8) (s : State) (g : Gang) (n : Nat) :
    (scratchCounted store m t r s g).1.crew? n = s.crew? n := rfl
theorem scratchCounted_like (store : Bool) (m : MH) (t : Fmt) (r : BitVec 8) (s : State) (g : Gang) : g.Like (scratchCounted store m t r s g).2 :=
  ⟨rfl, rfl, rfl, rfl, rfl, rfl, rfl, rfl, rfl, rfl⟩

theorem loadLane_dead (d : BitVec 8) (read : Nat → List PByte) (v : Gang) (j : Nat) : (Gang.loadLane place t d read v j).dead = v.dead := by
  unfold Gang.loadLane
  split
  · exact vBytes_dead ..
  · exact vPut_dead ..

/-- The lanes of a load fill their registers from the crew's scratch. -/
theorem foldl_scratchLane_load {u : State} {w : Crew} (hw : u.crew? n = some w) {l : List Nat} {v : Gang} (halive : ∀ j ∈ l, v.dead.getLsbD j = false) :
    (l.map (fun j => (j, reachOf place (fun _ => false) j))).foldl (scratchLane false t r n) (u, v) =
      (u, l.foldl (Gang.loadLane place t r (fun o => w.scratch.read o t.bytes)) v) := by
  induction l generalizing v with
  | nil => rfl
  | cons j l ih =>
    have hj : scratchLane false t r n (u, v) (j, reachOf place (fun _ => false) j) =
        (u, Gang.loadLane place t r (fun o => w.scratch.read o t.bytes) v j) := by
      unfold scratchLane Gang.loadLane
      rw [if_neg (by rw [halive j List.mem_cons_self]; exact Bool.false_ne_true)]
      cases hp : place j with
      | none => rw [reachOf_none hp]; rfl
      | some q => rw [reachOf_some hp]; dsimp only; rw [hw]; rfl
    rw [List.map_cons, List.foldl_cons, List.foldl_cons, hj]
    exact ih fun k hk => by rw [loadLane_dead]; exact halive k (List.mem_cons_of_mem j hk)

/- Stores -/

/-- The element of a lane, stored in the scratch of the crew `n`. -/
def Gang.putScratch (g : Gang) (n : Nat) (t : Fmt) (r : BitVec 8) (u : State) (o j : Nat) : State :=
  u.modCrew n (fun c => { c with scratch := c.scratch.write o (clean (leBytes t.bytes (g.vraw t r.toNat j))) })

theorem putScratch_nextId (u : State) (o j : Nat) : (g.putScratch n t r u o j).nextId = u.nextId := by
  unfold Gang.putScratch State.modCrew
  split <;> rfl

/-- The lanes of a store write the crew's scratch. -/
theorem foldl_scratchLane_store {v : Gang} (hlike : g.Like v) {l : List Nat} (halive : ∀ j ∈ l, g.dead.getLsbD j = false) (u : State) :
    (l.map (fun j => (j, reachOf place (fun _ => false) j))).foldl (scratchLane true t r n) (u, v) =
      (l.foldl (State.storeLane place (g.putScratch n t r)) u, v) := by
  induction l generalizing u with
  | nil => rfl
  | cons j l ih =>
    have hj : scratchLane true t r n (u, v) (j, reachOf place (fun _ => false) j) = (u.storeLane place (g.putScratch n t r) j, v) := by
      unfold scratchLane State.storeLane
      rw [if_neg (by rw [hlike.dead, halive j List.mem_cons_self]; exact Bool.false_ne_true)]
      cases hp : place j with
      | none => rw [reachOf_none hp]; rfl
      | some q => rw [reachOf_some hp]; simp only [Gang.putScratch, ← hlike.vraw]; rfl
    rw [List.map_cons, List.foldl_cons, List.foldl_cons, hj]
    exact ih (fun k hk => halive k (List.mem_cons_of_mem j hk)) _

/- The rows -/

/-- A row whose body is a scratch access of the crew `n`. -/
structure ScratchRow (i : Instr) (s : State) (g : Gang) (h : VH) (m : MH) (t : Fmt) (b : VSrc) (store : Bool) (r : BitVec 8) (n : Nat) : Prop where
  runs : ∃ body, exec i s = runGang i s anywhere body ∧ body s g (g.active (shape i)) = scratchBody h m t b store r (some n) s g (g.active (shape i))

theorem ScratchRow.exec_completes {store : Bool} (hrow : ScratchRow i s g h m t b store r n) (hi : Issues i s g) {u : State} {v : Gang}
    (hbody : scratchBody h m t b store r (some n) s g (g.active (shape i)) = .ok u v) : exec i s = .next (s.completes i g u v) := by
  obtain ⟨body, hexec, hrun⟩ := hrow.runs
  exact hexec.trans (runGang_ok hi rfl (hrun.trans hbody))

theorem ScratchRow.exec_stops {store : Bool} (hrow : ScratchRow i s g h m t b store r n) (hi : Issues i s g) {u : State} {v : Gang} {l : List (Nat × Nat)}
    (hl : RaisedLanes l) (hbody : scratchBody h m t b store r (some n) s g (g.active (shape i)) = .lanes u v (codesOf l)) :
    exec i s = .next (s.laneStops u i g v l) := by
  obtain ⟨body, hexec, hrun⟩ := hrow.runs
  exact hexec.trans (runGang_lanes hl hi rfl (hrun.trans hbody))

section
variable (hlaunch : s.launch? g.launch = some p)
include hlaunch

theorem scratchBody_load {w : Crew} (hw : s.crew? n = some w) (hl : ScratchLanes i s g h m t b .ld [] p.pkt.scratch place code) :
    scratchBody h m t b false r (some n) s g (g.active (shape i)) =
      scratchEnd ((scratchCounted false m t r s g).1, ((bitsOn (g.acting i)).filter (fun j => code j = 0)).foldl
          (Gang.loadLane place t r (fun o => w.scratch.read o t.bytes))
          ((scratchCounted false m t r s g).2.boundsRaised m.bm (bitsOn (g.acting i)) place code))
        (raisedLanes code (bitsOn (g.acting i))) := by
  refine (scratchBody_lanes hlaunch (store := false) hl).trans (congrArg (fun z => scratchEnd z _)
    (foldl_scratchLane_load ((scratchCounted_crew false m t r s g n).trans hw) fun j hj => ?_))
  show (Gang.mBits _ _ _).dead.getLsbD j = false
  rw [mBits_dead]
  exact not_dead_of_mem (List.mem_filter.mp hj).1

theorem scratchBody_store (hl : ScratchLanes i s g h m t b .st (dataRegs t r) p.pkt.scratch place code) :
    scratchBody h m t b true r (some n) s g (g.active (shape i)) =
      scratchEnd (((bitsOn (g.acting i)).filter (fun j => code j = 0)).foldl (State.storeLane place (g.putScratch n t r)) (scratchCounted true m t r s g).1,
          (scratchCounted true m t r s g).2.boundsRaised m.bm (bitsOn (g.acting i)) place code)
        (raisedLanes code (bitsOn (g.acting i))) := by
  exact (scratchBody_lanes hlaunch (store := true) hl).trans (congrArg (fun z => scratchEnd z _)
    (foldl_scratchLane_store (mBits_like (scratchCounted_like true m t r s g) ..) (fun j hj => not_dead_of_mem (List.mem_filter.mp hj).1) _))

end

/-- What a load row comes to. -/
theorem ScratchRow.loads (hrow : ScratchRow i s g h m t b false r n) (hlaunch : s.launch? g.launch = some p) {w : Crew} (hw : s.crew? n = some w) :
    (ScratchAccess i s g h m t b .ld [] p.pkt.scratch place →
      exec i s = .next (s.completes i g (scratchCounted false m t r s g).1 ((bitsOn (g.acting i)).foldl
        (Gang.loadLane place t r (fun o => w.scratch.read o t.bytes)) ((scratchCounted false m t r s g).2.boundsOf m.bm (bitsOn (g.acting i)) place)))) ∧
    (ScratchRaises i s g h m t b .ld [] p.pkt.scratch place mis →
      exec i s = .next (s.laneStops (scratchCounted false m t r s g).1 i g ((((bitsOn (g.acting i)).filter (fun j => mis j = false)).foldl
          (Gang.loadLane place t r (fun o => w.scratch.read o t.bytes))
          ((scratchCounted false m t r s g).2.boundsRaised m.bm (bitsOn (g.acting i)) place (misCode mis))).dropOp s.nextId)
        (((bitsOn (g.acting i)).filter (fun j => mis j = true)).map (fun j => (j, 2))))) := by
  refine ⟨fun ha => hrow.exec_completes ha.issues ?completes, fun hr => ?stops⟩
  case completes => rw [scratchBody_load hlaunch hw ha.lanes, raisedLanes_none, scratchEnd_nil, filter_quiet_none, boundsRaised_none]
  case stops =>
    rw [← raisedLanes_misCode]
    refine hrow.exec_stops hr.issues hr.raisedLanes ?_
    rw [scratchBody_load hlaunch hw hr.lanes, scratchEnd_raised _ hr.raisedLanes, filter_misCode]
    rfl

/-- What a store row comes to. -/
theorem ScratchRow.stores (hrow : ScratchRow i s g h m t b true r n) (hlaunch : s.launch? g.launch = some p) :
    (ScratchAccess i s g h m t b .st (dataRegs t r) p.pkt.scratch place →
      exec i s = .next (s.completes i g ((bitsOn (g.acting i)).foldl (State.storeLane place (g.putScratch n t r)) (scratchCounted true m t r s g).1)
        ((scratchCounted true m t r s g).2.boundsOf m.bm (bitsOn (g.acting i)) place))) ∧
    (ScratchRaises i s g h m t b .st (dataRegs t r) p.pkt.scratch place mis →
      exec i s = .next (s.laneStops
        (((bitsOn (g.acting i)).filter (fun j => mis j = false)).foldl (State.storeLane place (g.putScratch n t r)) (scratchCounted true m t r s g).1) i g
        (((scratchCounted true m t r s g).2.boundsRaised m.bm (bitsOn (g.acting i)) place (misCode mis)).dropOp s.nextId)
        (((bitsOn (g.acting i)).filter (fun j => mis j = true)).map (fun j => (j, 2))))) := by
  refine ⟨fun ha => hrow.exec_completes ha.issues ?completes, fun hr => ?stops⟩
  case completes => rw [scratchBody_store hlaunch ha.lanes, raisedLanes_none, scratchEnd_nil, filter_quiet_none, boundsRaised_none]
  case stops =>
    rw [← raisedLanes_misCode]
    refine hrow.exec_stops hr.issues hr.raisedLanes ?_
    rw [scratchBody_store hlaunch hr.lanes, scratchEnd_raised _ hr.raisedLanes, filter_misCode]
    dsimp only
    rw [State.foldl_storeLane State.nextId putScratch_nextId]
    rfl

end

/- The four instructions -/

section
variable {s : State} {g : Gang} {h : VH} {m : MH} {t : Fmt} {d : BitVec 8} {a : Sc} {b : VSrc} {n : Nat}

theorem scratchRow_lds (ht : s.ownScratch g = some n) : ScratchRow (.lds h m t d b) s g h m (t.or .b32) b false d n where
  runs := ⟨_, rfl, by rw [ht]⟩

theorem scratchRow_sts (ht : s.ownScratch g = some n) : ScratchRow (.sts h m t b d) s g h m (t.or .b32) b true d n where
  runs := ⟨_, rfl, by rw [ht]⟩

theorem scratchRow_ldc (hi : s.isolated g (s.sc g h.lit a).toNat = false) (ht : s.bandScratch g (s.sc g h.lit a).toNat = some n) :
    ScratchRow (.ldc h m t d a b) s g h m (t.or .b32) b false d n where
  runs := ⟨_, rfl, by simp only [hi, ht, Bool.false_eq_true, if_false]⟩

theorem scratchRow_stc (hi : s.isolated g (s.sc g h.lit a).toNat = false) (ht : s.bandScratch g (s.sc g h.lit a).toNat = some n) :
    ScratchRow (.stc h m t a b d) s g h m (t.or .b32) b true d n where
  runs := ⟨_, rfl, by simp only [hi, ht, Bool.false_eq_true, if_false]⟩

theorem isolated_of_other {c : Nat} (hmode : s.modeOf g ≠ 0) (hother : ((s.crewOf g).map (·.inBand)).getD 0 ≠ c) : s.isolated g c = true := by
  simp only [State.isolated, Bool.and_eq_true, bne_iff_ne, ne_eq]
  exact ⟨hmode, hother⟩

end

/-- Settles O29: the four rows are scratch accesses of their crew, and LDC and STC raise ISOLATION before they are. -/
theorem scratchRows_complete : Obligations.ScratchRows := by
  refine ⟨fun s g h m t d a b place mis own n w p hlaunch hw => ?rows, fun s g h m t d a b => ⟨fun hi hmode hother => ?ldc, fun hi hmode hother => ?stc⟩⟩
  case rows =>
    cases own with
    | true => exact fun ht => ⟨(scratchRow_lds ht).loads hlaunch hw, (scratchRow_sts ht).stores hlaunch⟩
    | false => exact fun ht => ⟨(scratchRow_ldc ht.1 ht.2).loads hlaunch hw, (scratchRow_stc ht.1 ht.2).stores hlaunch⟩
  case ldc => exact runGang_trap hi rfl (if_pos (isolated_of_other hmode hother))
  case stc => exact runGang_trap hi rfl (if_pos (isolated_of_other hmode hother))

end Sys2Proof.Machine
end


section
/-! PROOFS. BSET, FENCE, SLD, SST, VLDV and VSTV (R117, R224, R229, R296): gang-level rows, and memory rows that wait for far accesses. -/
namespace Sys2Proof.Machine

/- What is ordered behind far accesses (R291, R296) -/

theorem Steps.mayIssue {s : State} {g : Gang} (h : Steps s g) : s.mayIssue g = true := by
  have hunsaved : (g.isHandler || !s.preCrews.contains g.crew) = true := by
    rcases h.unsaved with hu | hu <;> simp only [hu, Bool.true_or, Bool.not_false, Bool.or_true]
  rw [State.mayIssue, h.ready, h.roomy, hunsaved]
  rfl

section
variable {i : Instr} {s : State} {g : Gang} (h : Cleared i s g)
include h

theorem Cleared.not_unready : g.unready (shape i) (s.cyc g.core) = false := by
  refine any_false fun p hp => ?_
  by_cases hm : p.ref ∈ (shape i).reads ++ (shape i).writes
  · rw [decide_eq_false (Nat.not_lt.mpr (h.fixed p hp hm)), Bool.and_false]
  · rw [List.contains_eq_mem, decide_eq_false hm, Bool.false_and]

theorem Cleared.not_short : g.short (shape i) = false := by
  unfold Gang.short
  cases hk : g.schk with
  | false => rfl
  | true =>
    refine any_false fun p hp => ?_
    by_cases hm : p.ref ∈ (shape i).reads ++ (shape i).writes
    · rw [decide_eq_false (Nat.not_lt.mpr (h.counts hk p hp hm)), Bool.and_false]
    · rw [List.contains_eq_mem, decide_eq_false hm, Bool.false_and]

theorem Cleared.not_boarded : g.boarded (shape i) = false := by
  refine any_false fun b hb => ?_
  obtain ⟨hrefs, hhold⟩ := h.late b hb
  rw [Bool.or_eq_false_iff]
  exact ⟨any_false fun r hr => by simpa using hrefs r hr, any_false fun r hr => by simpa using hhold r hr⟩

theorem Cleared.not_readsBad : g.readsBad (shape i) = false := by
  unfold Gang.readsBad
  rw [any_false h.clean, h.cleanPc, h.cleanStack]
  rfl

/-- An instruction that nothing else stands against waits for the far accesses that it orders. -/
theorem runGang_ordered {bad : State → Gang → Bool} {body : State → Gang → LaneMask → Res} (hb : bad s g = false) (ho : s.ordered g (shape i) = true) :
    runGang i s bad body = .next (s.waits g .far) := by
  have himprecise : s.imprecise g (g.active (shape i)) (g.next (shape i)) = none := by rw [State.imprecise, h.noFailed]
  have hissue : issue i s g false body = s.waits g .far := by
    unfold issue
    simp only [himprecise, Nat.not_lt.mpr h.turn, h.tokened, Nat.not_lt.mpr h.regs, h.not_short, h.not_unready, h.not_boarded, h.not_readsBad, h.twin, ho,
      Bool.or_self, Bool.false_eq_true, if_false, if_true]
    rfl
  unfold runGang
  simp only [h.here, h.placed, h.toSteps.mayIssue, if_true, hb, hissue]

end

/- Gang-level accesses (R117) -/

theorem inExtent_inside {rec_ : BitVec 128} {ix : Int} (h : 0 ≤ ix ∧ ix < recExtent rec_) : inExtent rec_ ix = some ix.toNat := if_pos h
theorem inExtent_beyond {rec_ : BitVec 128} {ix : Int} (h : recExtent rec_ ≤ ix) : inExtent rec_ ix = none := if_neg (by omega)

/-- The counter of an access has room, and its record is of its element size and writable when it writes. -/
structure LineMem.Fits (x : LineMem) (g : Gang) : Prop where
  room : g.counter x.cls < 63
  fits : (if x.element then recBadType x.rec_ x.rule.size else recBadCell x.rec_) = false
  writable : x.rule.write = true → recRo x.rec_ = false

/-- The state and the gang once an access at the index `ix` of the record `k` is noted and counted. -/
def LineMem.counted (x : LineMem) (k : BitVec 4) (ix : Int) (s : State) (g : Gang) : State × Gang := (s.notedLine g k x.rule ix).countOp g x.cls x.refs

/-- Where the access itself begins. -/
def LineMem.begun (x : LineMem) (k : BitVec 4) (ix : Int) (s : State) (g : Gang) (ord : Bool) : Acc :=
  { s := (x.counted k ix s g).1, g := (x.counted k ix s g).2, buffered := s.buffered g, base := s.effectsOf g, op := s.nextId, ord := ord }

section
variable {x : LineMem} {s : State} {g : Gang} (hx : x.Fits g) (act : LaneMask)
include hx

theorem LineMem.Fits.not_readOnly : ¬ (x.rule.write && recRo x.rec_) = true := by
  cases hw : x.rule.write
  · exact Bool.false_ne_true
  · rw [hx.writable hw]
    exact Bool.false_ne_true

/-- Out of bounds an access completes with its value there, or raises STRICT_BOUNDS. -/
theorem LineMem.body_beyond (hi : x.i = none) :
    x.body s g act = if x.strict then .trapLanes s 1 else .ok (s.countOp g x.cls x.refs).1 (x.zero false (s.countOp g x.cls x.refs).2) := by
  unfold LineMem.body
  rw [if_neg (Nat.not_le.mpr hx.room), if_neg (ne_true_of_eq_false hx.fits), hi, if_neg hx.not_readOnly]

/-- One that raises a lane code does so once it is noted. -/
theorem LineMem.body_raises {n c : Nat} (hi : x.i = some n) (hreach : s.reachLine g x.rule (recAddr x.rec_ n) = .trap c) :
    x.body s g act = .trapLanes (s.lookUp g.core g.slot (s.ctxOf g.launch) ((s.keySet g).map (·.2)) x.rule (recAddr x.rec_ n)) c := by
  unfold LineMem.body
  rw [if_neg (Nat.not_le.mpr hx.room), if_neg (ne_true_of_eq_false hx.fits), hi, if_neg hx.not_readOnly]
  dsimp only
  rw [hreach]

end

theorem farAsks_here_one (s : State) (g : Gang) (how : Ask) (n : Nat) (keys : List FarKey) (pa va : Nat) (ord : Bool) (ask : Nat → Option FarOp) :
    farAsks s g how [(n, keys, .at_ (.here pa) va ord)] ask = s := rfl

section
variable {i : Instr} {s : State} {g : Gang} {x : LineMem} {k : BitVec 4} {ix : Int} {pa va : Nat}

theorem LineAccess.lineFits (ha : LineAccess i s g k x.rule x.cls x.element ix pa va) (hrec : x.rec_ = g.bGet k.toNat) : x.Fits g where
  room := ha.room
  fits := by rw [hrec]; exact ha.fits
  writable hw := by rw [hrec]; exact ha.writable hw

/-- An access against which nothing stands is performed at its place. -/
theorem LineMem.body_at (ha : LineAccess i s g k x.rule x.cls x.element ix pa va) (hrec : x.rec_ = g.bGet k.toNat)
    (hi : x.i = inExtent (g.bGet k.toNat) ix) (act : LaneMask) : ∃ ord, x.body s g act = x.run (x.begun k ix s g ord) (.here pa) va := by
  have hfits := ha.lineFits hrec
  obtain ⟨ord, hreach, hord⟩ := ha.reaches
  have hready : s.notReady [.at_ (.here pa) va ord] = false := by simp [State.notReady, ha.ready]
  have hwaits : s.ordWaits g [.at_ (.here pa) va ord] = false := by
    cases ord
    · simp [State.ordWaits]
    · simp [State.ordWaits, hord rfl]
  obtain ⟨-, -, hbuffered, heffects, hid, -⟩ := (notedLine_looks s g k x.rule ix).reads
  refine ⟨ord, ?_⟩
  unfold LineMem.body LineMem.begun LineMem.counted
  rw [if_neg (Nat.not_le.mpr hfits.room), if_neg (ne_true_of_eq_false hfits.fits), hi, inExtent_inside ha.inside, if_neg hfits.not_readOnly,
    ← hbuffered, ← heffects, ← hid]
  dsimp only
  rw [hrec, hreach]
  dsimp only
  rw [hready, farAsks_here_one, hwaits]
  simp only [Nat.lt_irrefl, Bool.false_eq_true, if_false]
  rfl

end

/-- A gang-level access that raises a lane code stops its gang with the code in every active lane. -/
theorem runGang_allStop {i : Instr} {s t : State} {g : Gang} {c : Nat} {bad : State → Gang → Bool} {body : State → Gang → LaneMask → Res} (hi : Issues i s g)
    (hb : bad s g = false) (hcyc : t.cyc g.core = s.cyc g.core) (hr : body s g (g.active (shape i)) = .trapLanes t c) :
    runGang i s bad body = .next (t.allStop i g c) := by
  rw [runGang_eq hi hb, hr, State.allStop, hcyc]
  rfl

/- What is read of the state and the gang of an access that is noted and counted -/

section
variable (x : LineMem) (k : BitVec 4) (ix : Int) (s : State) (g : Gang)

theorem notedLine_cyc (rule : MemRule) (core : Nat) : (s.notedLine g k rule ix).cyc core = s.cyc core := by
  obtain ⟨_, _, _, _, _, h⟩ := notedLine_looks s g k rule ix
  rw [h]
  rfl

/-- Scalar operands are those of the instruction's issue. -/
theorem LineMem.counted_sc (lit : Option DWord) (c : Sc) : (x.counted k ix s g).1.sc (x.counted k ix s g).2 lit c = s.sc g lit c := by
  obtain ⟨_, _, _, _, _, h⟩ := notedLine_looks s g k x.rule ix
  unfold LineMem.counted
  rw [h]
  cases c with
  | sp r => cases r <;> rfl
  | _ => rfl

theorem LineMem.counted_sameModes : g.SameModes (x.counted k ix s g).2 := ⟨rfl, rfl, rfl⟩

theorem LineMem.begun_read (ord : Bool) (pa n : Nat) : (x.begun k ix s g ord).read scalarLane (.here pa) n = some (s.bytesSeen g pa n) := by
  obtain ⟨hread, hphys, -⟩ := (notedLine_looks s g k x.rule ix).reads
  have hmem : (x.counted k ix s g).1.memRead pa n = s.memRead pa n := hread pa n
  have hview : (x.counted k ix s g).1.phys = s.phys := hphys
  simp only [Acc.read, Acc.turn?, LineMem.begun, List.find?_nil, List.append_nil, hmem, hview, State.bytesSeen]

theorem LineMem.begun_version (ord : Bool) (pa : Nat) : (x.begun k ix s g ord).version (.here pa) = s.verSeen g pa := by
  have hver : (x.counted k ix s g).1.verOf pa = s.verOf pa := by
    obtain ⟨_, _, _, _, _, h⟩ := notedLine_looks s g k x.rule ix
    unfold LineMem.counted
    rw [h]
    rfl
  unfold Acc.version State.verSeen
  simp only [LineMem.begun, hver, List.append_nil]
  cases s.buffered g <;> rfl

end

/-- An access that enters no effect and raises nothing completes. -/
theorem finish_quiet {a : Acc} (kind : Nat) (heff : a.eff = []) : a.finish kind [] [] = .ok a.s a.g := by
  simp [Acc.finish, heff, codesOf]

/- SLD -/

/-- SLD as a gang-level access. -/
def sldLine (h : SH) (strict : Bool) (t : Fmt) (d : BitVec 6) (k : BitVec 4) (b : Sc) (s : State) (g : Gang) : LineMem where
  rule := { size := (t.or .n64).bytes }
  kind := 0
  cls := .ld
  element := true
  rec_ := g.bGet k.toNat
  i := inExtent (g.bGet k.toNat) (s.sc g h.lit b).toNat
  strict := strict
  refs := Shape.sRef d.toNat
  ask _ _ := some (.load (t.or .n64).bytes)
  zero _ g := g.sSet d.toNat 0
  run a loc _ :=
    match a.read scalarLane loc (t.or .n64).bytes with
    | some l => Acc.finish { a with g := a.g.sSet d.toNat (BitVec.ofInt 64 (rd (t.or .n64) (natOf l))) (anyBad l) } 0 [] []
    | none => Acc.finish { a with g := a.g.sSet d.toNat 0 } 0 [] []

section
variable {s : State} {g : Gang} {h : SH} {strict : Bool} {t : Fmt} {d : BitVec 6} {k : BitVec 4} {b : Sc} {pa va code : Nat}

theorem exec_sld : exec (.sld h strict t d k b) s =
    runGang (.sld h strict t d k b) s anywhere (fun s g => (sldLine h strict t d k b s g).body s g) := rfl

theorem sldLine_run {a : Acc} {l : List PByte} (heff : a.eff = []) (hread : a.read scalarLane (.here pa) (t.or .n64).bytes = some l) :
    (sldLine h strict t d k b s g).run a (.here pa) va = .ok a.s (a.g.sSet d.toNat (BitVec.ofInt 64 (rd (t.or .n64) (natOf l))) (anyBad l)) := by
  unfold sldLine
  dsimp only
  rw [hread]
  exact finish_quiet 0 heff

theorem exec_sld_loads (ha : LineAccess (.sld h strict t d k b) s g k { size := (t.or .n64).bytes } .ld true (s.sc g h.lit b).toNat pa va) :
    let y := (s.notedLine g k { size := (t.or .n64).bytes } (s.sc g h.lit b).toNat).countOp g .ld (Shape.sRef d.toNat)
    let x := s.bytesSeen g pa (t.or .n64).bytes
    exec (.sld h strict t d k b) s = .next (s.completes (.sld h strict t d k b) g y.1
      (y.2.sSet d.toNat (BitVec.ofInt 64 (rd (t.or .n64) (natOf x))) (anyBad x))) := by
  obtain ⟨ord, hbody⟩ := LineMem.body_at (x := sldLine h strict t d k b s g) ha rfl rfl (g.active (shape (.sld h strict t d k b)))
  exact runGang_ok ha.issues rfl (hbody.trans (sldLine_run rfl (LineMem.begun_read ..)))

end

/- SST -/

/-- SST as a gang-level access. -/
def sstLine (h : SH) (strict : Bool) (t : Fmt) (k : BitVec 4) (b c : Sc) (s : State) (g : Gang) : LineMem where
  rule := { size := (t.or .n64).bytes, write := true, noVer := true }
  kind := 1
  cls := .st
  element := true
  rec_ := g.bGet k.toNat
  i := inExtent (g.bGet k.toNat) (s.sc g h.lit b).toNat
  strict := strict
  refs := []
  ask _ _ := none
  zero _ g := g
  run a loc va :=
    (a.store (if a.buffered then a.g.ownLane else a.g.lowLive) (a.s.farKeys a.g) loc va
      (leBytes (t.or .n64).bytes (a.s.sc a.g h.lit c).toNat)).finish 1 [] []

section
variable {s : State} {g : Gang} {h : SH} {strict : Bool} {t : Fmt} {k : BitVec 4} {b c : Sc} {pa va code : Nat}

theorem exec_sst : exec (.sst h strict t k b c) s =
    runGang (.sst h strict t k b c) s anywhere (fun s g => (sstLine h strict t k b c s g).body s g) := rfl

theorem sstLine_run (hfree : s.buffered g = false) (ix : Int) (ord : Bool) :
    let x := sstLine h strict t k b c s g
    x.run (x.begun k ix s g ord) (.here pa) va =
      .ok ((x.counted k ix s g).1.bytesPut g pa (clean (leBytes (t.or .n64).bytes (s.sc g h.lit c).toNat))) (x.counted k ix s g).2 := by
  intro x
  have hstore : x.run (x.begun k ix s g ord) (.here pa) va = ((x.begun k ix s g ord).put pa
      (clean (leBytes (t.or .n64).bytes ((x.counted k ix s g).1.sc (x.counted k ix s g).2 h.lit c).toNat))).finish 1 [] [] :=
    congrArg (fun a => Acc.finish a 1 [] []) (Acc.store_here hfree rfl ..)
  rw [hstore, LineMem.counted_sc, (x.counted_sameModes k ix s g).put (a := x.begun k ix s g ord)]
  exact finish_quiet 1 rfl

theorem exec_sst_stores
    (ha : LineAccess (.sst h strict t k b c) s g k { size := (t.or .n64).bytes, write := true, noVer := true } .st true (s.sc g h.lit b).toNat pa va)
    (hfree : s.buffered g = false) :
    let y := (s.notedLine g k { size := (t.or .n64).bytes, write := true, noVer := true } (s.sc g h.lit b).toNat).countOp g .st []
    exec (.sst h strict t k b c) s = .next (s.completes (.sst h strict t k b c) g
      (y.1.bytesPut g pa (clean (leBytes (t.or .n64).bytes (s.sc g h.lit c).toNat))) y.2) := by
  obtain ⟨ord, hbody⟩ := LineMem.body_at (x := sstLine h strict t k b c s g) ha rfl rfl (g.active (shape (.sst h strict t k b c)))
  exact runGang_ok ha.issues rfl (hbody.trans (sstLine_run hfree ..))

end

/- Rows out of bounds, and rows that raise -/

section
variable {i : Instr} {s : State} {g : Gang} (line : State → Gang → LineMem) (hi : Issues i s g) (hx : (line s g).Fits g)
include hi hx

theorem runGang_beyond (hnone : (line s g).i = none) (hstrict : (line s g).strict = false) :
    runGang i s anywhere (fun s g => (line s g).body s g) =
      .next (s.completes i g (s.countOp g (line s g).cls (line s g).refs).1 ((line s g).zero false (s.countOp g (line s g).cls (line s g).refs).2)) :=
  runGang_ok hi rfl ((LineMem.body_beyond hx _ hnone).trans (if_neg (ne_true_of_eq_false hstrict)))

theorem runGang_beyond_strict (hnone : (line s g).i = none) (hstrict : (line s g).strict = true) :
    runGang i s anywhere (fun s g => (line s g).body s g) = .next (s.allStop i g 1) :=
  runGang_allStop hi rfl rfl ((LineMem.body_beyond hx _ hnone).trans (if_pos hstrict))

theorem runGang_raises {k : BitVec 4} {ix : Int} {c : Nat} (hrec : (line s g).rec_ = g.bGet k.toNat) (hat : (line s g).i = some ix.toNat)
    (hreach : s.reachLine g (line s g).rule (recAddr (g.bGet k.toNat) ix.toNat) = .trap c) :
    runGang i s anywhere (fun s g => (line s g).body s g) = .next ((s.notedLine g k (line s g).rule ix).allStop i g c) := by
  refine runGang_allStop hi rfl (notedLine_cyc k ix s g (line s g).rule g.core) ((LineMem.body_raises hx _ hat (by rwa [hrec])).trans ?_)
  rw [hrec]
  rfl

end

section
variable {s : State} {g : Gang} {h : SH} {strict : Bool} {t : Fmt} {d : BitVec 6} {k : BitVec 4} {b c : Sc} {code : Nat}

/-- SLD out of bounds, and where its page raises a lane code. -/
theorem exec_sld_elsewhere (hi : Issues (.sld h strict t d k b) s g) (hx : (sldLine h strict t d k b s g).Fits g) :
    (recExtent (g.bGet k.toNat) ≤ ((s.sc g h.lit b).toNat : Int) →
      (strict = false → exec (.sld h strict t d k b) s =
        .next (s.completes (.sld h strict t d k b) g (s.countOp g .ld (Shape.sRef d.toNat)).1 ((s.countOp g .ld (Shape.sRef d.toNat)).2.sSet d.toNat 0))) ∧
      (strict = true → exec (.sld h strict t d k b) s = .next (s.allStop (.sld h strict t d k b) g 1))) ∧
    (((s.sc g h.lit b).toNat : Int) < recExtent (g.bGet k.toNat) →
      s.reachLine g { size := (t.or .n64).bytes } (recAddr (g.bGet k.toNat) ((s.sc g h.lit b).toNat : Int).toNat) = .trap code →
      exec (.sld h strict t d k b) s =
        .next ((s.notedLine g k { size := (t.or .n64).bytes } (s.sc g h.lit b).toNat).allStop (.sld h strict t d k b) g code)) := by
  rw [exec_sld]
  exact ⟨fun hbeyond => ⟨runGang_beyond (sldLine h strict t d k b) hi hx (inExtent_beyond hbeyond),
      runGang_beyond_strict (sldLine h strict t d k b) hi hx (inExtent_beyond hbeyond)⟩,
    fun hin => runGang_raises (sldLine h strict t d k b) hi hx rfl (inExtent_inside ⟨Int.natCast_nonneg _, hin⟩)⟩

/-- SST out of bounds, and where its page raises a lane code. -/
theorem exec_sst_elsewhere (hi : Issues (.sst h strict t k b c) s g) (hx : (sstLine h strict t k b c s g).Fits g) :
    (recExtent (g.bGet k.toNat) ≤ ((s.sc g h.lit b).toNat : Int) →
      (strict = false → exec (.sst h strict t k b c) s =
        .next (s.completes (.sst h strict t k b c) g (s.countOp g .st []).1 (s.countOp g .st []).2)) ∧
      (strict = true → exec (.sst h strict t k b c) s = .next (s.allStop (.sst h strict t k b c) g 1))) ∧
    (((s.sc g h.lit b).toNat : Int) < recExtent (g.bGet k.toNat) →
      s.reachLine g { size := (t.or .n64).bytes, write := true, noVer := true } (recAddr (g.bGet k.toNat) ((s.sc g h.lit b).toNat : Int).toNat) = .trap code →
      exec (.sst h strict t k b c) s =
        .next ((s.notedLine g k { size := (t.or .n64).bytes, write := true, noVer := true } (s.sc g h.lit b).toNat).allStop (.sst h strict t k b c) g code)) := by
  rw [exec_sst]
  exact ⟨fun hbeyond => ⟨runGang_beyond (sstLine h strict t k b c) hi hx (inExtent_beyond hbeyond),
      runGang_beyond_strict (sstLine h strict t k b c) hi hx (inExtent_beyond hbeyond)⟩,
    fun hin => runGang_raises (sstLine h strict t k b c) hi hx rfl (inExtent_inside ⟨Int.natCast_nonneg _, hin⟩)⟩

end

/-- Settles O21: the two gang-level rows by where their index lies; BSET and FENCE by their bodies; and what is ordered waits before its body runs. -/
theorem scalarMemoryRows : Obligations.ScalarMemoryRows := by
  refine ⟨fun s g h k a b st sc => ⟨fun hi => runGang_ok hi rfl rfl, fun hi => runGang_ok hi rfl rfl⟩, fun i s g hc hh ho hrow => ?ordered,
    fun s g h strict t d k b c pa va code => ⟨⟨exec_sld_loads, fun hi hroom hfits => exec_sld_elsewhere hi ⟨hroom, hfits, nofun⟩⟩,
      ⟨exec_sst_stores, fun hi hroom hfits hro => exec_sst_elsewhere hi ⟨hroom, hfits, fun _ => hro⟩⟩⟩⟩
  case ordered =>
    split at hrow
    case h_18 => exact hrow.elim
    case h_15 | h_16 | h_17 => exact runGang_ordered hc hh ho
    all_goals exact runGang_ordered hc rfl ho

end Sys2Proof.Machine
end


section
/-! PROOFS. VLDV and VSTV (R229): rows that load and store a line with its version. -/
namespace Sys2Proof.Machine

/- VLDV -/

/-- A gang with the line `l` in lanes 0 to 31 of a register, of the lanes that are not dead (R229). -/
def Gang.takeLine (g : Gang) (d : BitVec 8) (l : List PByte) : Gang :=
  g.lineLanes.foldl (fun g w => g.vSet d.toNat w (natOf ((l.drop (4 * w)).take 4)) (anyBad ((l.drop (4 * w)).take 4))) g

/-- What VLDV leaves of its registers out of bounds or denied. -/
def Gang.noLine (g : Gang) (d : BitVec 8) (x : BitVec 6) : Gang := (g.lineLanes.foldl (fun g w => g.vSet d.toNat w 0) g).sSet x.toNat 0

/-- VLDV as a gang-level access. -/
def vldvLine (h : SH) (m : MH) (d : BitVec 8) (x : BitVec 6) (k : BitVec 4) (b : Sc) (s : State) (g : Gang) : LineMem where
  rule := { size := 128, noOrd := true, needVer := true }
  kind := 0
  cls := .ld
  element := false
  rec_ := g.bGet k.toNat
  i := inExtent (g.bGet k.toNat) (lineIndex m (s.sc g h.lit b))
  strict := m.strict
  refs := .v d.toNat :: Shape.sRef x.toNat
  ask _ _ := some .vload
  zero _ g := g.noLine d x
  run a loc _ :=
    match a.read scalarLane loc 128 with
    | none => Acc.finish { a with g := a.g.noLine d x } 0 [] []
    | some l => Acc.finish { a with g := (a.g.takeLine d l).sSet x.toNat ((a.version loc).setWidth 64) } 0 [] []

section
variable {s : State} {g : Gang} {h : SH} {m : MH} {d : BitVec 8} {x : BitVec 6} {k : BitVec 4} {b : Sc} {pa va : Nat}

theorem exec_vldv : exec (.vldv h m d x k b) s =
    runGang (.vldv h m d x k b) s anywhere (fun s g => (vldvLine h m d x k b s g).body s g) := rfl

theorem vldvLine_run (ix : Int) (ord : Bool) :
    let y := vldvLine h m d x k b s g
    y.run (y.begun k ix s g ord) (.here pa) va =
      .ok (y.counted k ix s g).1 (((y.counted k ix s g).2.takeLine d (s.bytesSeen g pa 128)).sSet x.toNat ((s.verSeen g pa).setWidth 64)) := by
  intro y
  unfold y vldvLine
  dsimp only
  rw [LineMem.begun_read]
  dsimp only
  rw [LineMem.begun_version]
  exact finish_quiet 0 rfl

end

/- VSTV -/

/-- VSTV as a gang-level access. -/
def vstvLine (h : SH) (m : MH) (d : BitVec 6) (k : BitVec 4) (b : Sc) (c : BitVec 8) (e : Sc) (s : State) (g : Gang) : LineMem where
  rule := { size := 128, write := true, noOrd := true, needVer := true }
  kind := 1
  cls := .st
  element := false
  rec_ := g.bGet k.toNat
  i := inExtent (g.bGet k.toNat) (lineIndex m (s.sc g h.lit b))
  strict := m.strict
  refs := Shape.sRef d.toNat
  ask s' g' := some (if s'.buffered g' || g'.lineBad c != 0 then .vload else .vstore (g'.lineData c) ((s.sc g h.lit e).setWidth 16))
  zero denied g := g.sSet d.toNat (vstvStatus false (if denied then 3 else 4) 0)
  run a loc _ := vstvRun d c ((s.sc g h.lit e).setWidth 16) a loc

section
variable {d : BitVec 6} {c : BitVec 8} {want : BitVec 16} {a : Acc} {pa : Nat} (hclean : a.g.lineBad c = 0) (heff : a.eff = [])
include hclean heff

/-- Another version: VSTV writes its status word alone. -/
theorem vstvRun_stale (hver : a.version (.here pa) ≠ want) :
    vstvRun d c want a (.here pa) = .ok a.s (a.g.sSet d.toNat (vstvStatus false 1 (a.version (.here pa)))) := by
  unfold vstvRun
  simp only [hclean, ne_eq, not_true, if_false, Bool.false_and, Bool.false_eq_true, hver, not_false_eq_true, if_true]
  exact finish_quiet 1 heff

/-- The expected version: in FREE mode VSTV writes the line and the next version. -/
theorem vstvRun_matches {g : Gang} (hmodes : g.SameModes a.g) (hfree : a.buffered = false) (hver : a.version (.here pa) = want) :
    vstvRun d c want a (.here pa) = .ok ((a.s.bytesPut g pa (clean (a.g.lineData c))).setVer pa (want + 1))
      (a.g.sSet d.toNat (vstvStatus true 0 (want + 1))) := by
  unfold vstvRun
  simp only [hclean, ne_eq, not_true, if_false, Bool.false_and, Bool.false_eq_true, hver, hfree, hmodes.put]
  exact finish_quiet 1 heff

end

section
variable {s : State} {g : Gang} {h : SH} {m : MH} {d : BitVec 6} {k : BitVec 4} {b e : Sc} {c : BitVec 8} {pa va : Nat}

theorem exec_vstv : exec (.vstv h m d k b c e) s =
    runGang (.vstv h m d k b c e) s anywhere (fun s g => (vstvLine h m d k b c e s g).body s g) := rfl

end

/-- Settles O28: VLDV reads its line and version at its place; VSTV compares the version there with the expected one. -/
theorem versionedRowsComplete : Obligations.VersionedRowsComplete := by
  intro s g h m d c x d6 k b e pa va ix
  refine ⟨fun ha => ?vldv, fun ha hclean => ⟨fun hver hfree => ?expected, fun hver => ?stale⟩⟩
  case vldv =>
    obtain ⟨ord, hbody⟩ := LineMem.body_at (x := vldvLine h m d x k b s g) ha rfl rfl (g.active (shape (.vldv h m d x k b)))
    exact exec_vldv.trans (runGang_ok ha.issues rfl (hbody.trans (vldvLine_run ix ord)))
  case expected =>
    obtain ⟨ord, hbody⟩ := LineMem.body_at (x := vstvLine h m d6 k b c e s g) ha rfl rfl (g.active (shape (.vstv h m d6 k b c e)))
    refine exec_vstv.trans (runGang_ok ha.issues rfl (hbody.trans ?_))
    exact vstvRun_matches (a := (vstvLine h m d6 k b c e s g).begun k ix s g ord) hclean rfl (LineMem.counted_sameModes ..) hfree
      ((LineMem.begun_version ..).trans hver)
  case stale =>
    obtain ⟨ord, hbody⟩ := LineMem.body_at (x := vstvLine h m d6 k b c e s g) ha rfl rfl (g.active (shape (.vstv h m d6 k b c e)))
    refine exec_vstv.trans (runGang_ok ha.issues rfl (hbody.trans ?_))
    rw [← LineMem.begun_version (vstvLine h m d6 k b c e s g) k ix s g ord pa] at hver ⊢
    exact vstvRun_stale (a := (vstvLine h m d6 k b c e s g).begun k ix s g ord) hclean rfl hver

end Sys2Proof.Machine
end

section
/-! PROOFS. The Dvorlek link (R246, R355, R397 to R399, R402): far accesses as their owner and as their requester see them, ports, and the stop for a far
write that has failed. -/
namespace Sys2Proof.Machine

/- As owner -/

/-- An address on a far page lies at its peer (R398). -/
theorem Leaf.loc_of_far {l : Leaf} (h : l.far = true) (va : Nat) : ∃ a, l.loc va = .far l.peer a l.door := ⟨_, if_pos h⟩

section
variable {s : State} {r : Requester} {va : VAddr} {tag : BitVec 20} {op : FarOp} (hs : s.fatal = none) (hfirst : s.farBehind r.peer va = false)
include hs hfirst

theorem exec_farAccess_fault {n : Nat} (ht : s.translate Config.engineCore 0 va.toNat = .fault n) :
    exec (.farAccess r va tag op) s = .next (s.answer { peer := r.peer, failed := true, ok := false, tag := 0, data := [] }) := by
  show execFarAccess r va tag op s = _
  simp only [execFarAccess, alive_none hs, hfirst, ht, Bool.false_eq_true, if_false]

theorem exec_farAccess_far {l : Leaf} (ht : s.translate Config.engineCore 0 va.toNat = .leaf l) (hfar : l.far = true) :
    exec (.farAccess r va tag op) s = .next (s.answer { peer := r.peer, failed := true, ok := false, tag := 0, data := [] }) := by
  obtain ⟨a, hloc⟩ := Leaf.loc_of_far hfar va.toNat
  show execFarAccess r va tag op s = _
  simp only [execFarAccess, alive_none hs, hfirst, ht, hloc, Bool.false_eq_true, if_false]

variable {l : Leaf} {pa : Nat} (ht : s.translate Config.engineCore 0 va.toNat = .leaf l) (hloc : l.loc va.toNat = .here pa)
include ht hloc

theorem exec_farAccess_waits (hmem : s.memReady pa = false) :
    exec (.farAccess r va tag op) s = .next { s with farIn := s.farIn ++ [.farAccess r va tag op] } := by
  show execFarAccess r va tag op s = _
  simp only [execFarAccess, alive_none hs, hfirst, ht, hloc, hmem, Bool.not_false, Bool.false_eq_true, if_false, if_true]

/-- What a peer's access comes to that meets a page here whose memory is ready: the page rules, then the tag, then the access itself. -/
theorem exec_farAccess_here (hmem : s.memReady pa = true) :
    exec (.farAccess r va tag op) s = .next (
      if farKind op && !l.w then s.answer { peer := r.peer, failed := true, ok := false, tag := 0, data := [] }
      else if farWrites op && l.door != tag then s.answer { peer := r.peer, failed := false, ok := false, tag := l.door, data := [] }
      else
        let y := s.farPerform r.peer pa op
        y.1.answer { peer := r.peer, failed := false, ok := true, tag := l.door, data := rawBytes y.2, bad := y.2.map (·.2) }) := by
  show execFarAccess r va tag op s = _
  simp only [execFarAccess, alive_none hs, hfirst, ht, hloc, hmem, Bool.not_true, Bool.false_eq_true, if_false]

end

/-- The page rules let an operation through that writes a page only where the leaf may be written. -/
theorem writeBarred_eq_false {op : FarOp} {l : Leaf} (h : farKind op = true → l.w = true) : (farKind op && !l.w) = false := by
  cases hk : farKind op
  · rfl
  · rw [h hk]; rfl

theorem tagBarred_eq_false {op : FarOp} {l : Leaf} {tag : BitVec 20} (h : farWrites op = true → l.door = tag) : (farWrites op && l.door != tag) = false := by
  cases hw : farWrites op
  · rfl
  · rw [h hw, bne_self_eq_false]; rfl

theorem farPerform_load (s : State) (peer : BitVec 6) (pa n : Nat) : s.farPerform peer pa (.load n) = (s, s.physRead pa n) := rfl

theorem farPerform_store {s : State} {pa : Nat} (hkick : s.onKickPage pa = false) (peer : BitVec 6) (d : List Byte) (bad : List Bool) :
    s.farPerform peer pa (.store d bad) = (s.plainWrite pa (d.zip (bad ++ List.replicate d.length false)), []) := by
  simp only [State.farPerform, State.farStore, hkick, Bool.false_eq_true, if_false]

/- As requester -/

/-- The rule by which an answer stands (R246): the requester's own tag for a probe, none for a commit's look, the owner's word for a write, the grants of the
requester's core for a read. -/
theorem State.grantedFar_iff (s : State) (f : FarReq) (ok : Bool) (tag : BitVec 20) : s.grantedFar f ok tag = true ↔
    if f.probes = true then tag = f.tag else if f.looks = true then True else if farWrites f.op = true then ok = true else s.deniedKeys f tag = [] := by
  unfold State.grantedFar FarReq.reads
  cases f.probes <;> cases f.looks <;> cases farWrites f.op <;> simp

/-- A read that the grants decide is denied to no key when each of its keys has the owner's tag granted. -/
theorem State.deniedKeys_eq_nil_iff {s : State} {f : FarReq} {tag : BitVec 20} (h : f.checked = true) :
    s.deniedKeys f tag = [] ↔ ∀ k ∈ f.keys, s.granted f.what.core f.ctx k.key tag = true := by
  simp only [State.deniedKeys, h, if_true, List.filter_eq_nil_iff, Bool.not_eq_true', Bool.not_eq_false]

/-- The requester's core after the checks of an answered access (R245). -/
def State.notedFar (s : State) (f : FarReq) (tag : BitVec 20) : State :=
  if f.checked then f.keys.foldl (fun s k => s.noteGrant f.what.core f.ctx k.key tag) s else s

section
variable {s : State} {id : Nat} (hs : s.fatal = none)
include hs

/-- No response comes to what is not outstanding, or has not left yet. -/
theorem exec_farResponse_stray {ok : Bool} {tag : BitVec 20} {data : List PByte} (hnone : s.far.find? (fun r => r.id == id && s.departed r) = none) :
    exec (.farResponse id ok tag data) s = .next s := by
  show execFarResponse id ok tag data s = _
  refine (alive_none hs).trans ?_
  simp only [hnone]

theorem exec_farTimeout_stray (hnone : s.far.find? (fun r => r.id == id && s.departed r) = none) : exec (.farTimeout id) s = .next s := by
  show execFarTimeout id s = _
  refine (alive_none hs).trans ?_
  simp only [hnone]

theorem exec_farRefused_stray (hnone : s.far.find? (fun r => r.id == id && s.departed r) = none) : exec (.farRefused id) s = .next s := by
  show execFarRefused id s = _
  refine (alive_none hs).trans ?_
  simp only [hnone]

variable {f : FarReq} (hf : s.far.find? (fun r => r.id == id && s.departed r) = some f)
include hf

theorem exec_farResponse {ok : Bool} {tag : BitVec 20} {data : List PByte} (hready : s.answerWaits f tag = false) :
    exec (.farResponse id ok tag data) s = .next (
      if (s.dropFar id).grantedFar f ok tag then ((s.dropFar id).notedFar f tag).handOver f (some (rawBytes data)) false (data.map (·.2))
      else (((s.dropFar id).notedFar f tag).denyFar f tag).handOver f none false) := by
  show execFarResponse id ok tag data s = _
  refine (alive_none hs).trans ?_
  simp only [hf, hready, Bool.false_eq_true, if_false]
  rfl

theorem exec_farTimeout : exec (.farTimeout id) s = .next (if f.sent + 2 ^ 24 ≤ s.cyc f.what.core then s.failFar f else s) := by
  show execFarTimeout id s = _
  refine (alive_none hs).trans ?_
  simp only [hf]

theorem exec_farRefused : exec (.farRefused id) s = .next (s.failFar f) := by
  show execFarRefused id s = _
  refine (alive_none hs).trans ?_
  simp only [hf]

end

/- Failures (R355) -/

@[simp] theorem State.dropFar_gang (s : State) (id c k : Nat) : (s.dropFar id).gang? c k = s.gang? c k := rfl
@[simp] theorem State.lostWrite_gang (s : State) (launch : Nat) (wid : DWord) (pc : VAddr) (core : Nat) (rerun exited : Bool) (c k : Nat) :
    (s.lostWrite launch wid pc core rerun exited).gang? c k = s.gang? c k :=
  congrArg (Tab.get? · (gkey c k)) (State.faultRecord_gangs ..)

/-- A ready gang neither leaves its slot nor reports a park when a write of it is answered. -/
theorem State.sweep_ready {s : State} {core slot : Nat} {g : Gang} (hg : s.gang? core slot = some g) (hready : g.stat = .ready) : s.sweep core slot = s := by
  simp only [State.sweep, hg, hready]

/-- A failed write is noted at its gang, with its PC, after those that have failed before. -/
theorem State.failFar_gang {s : State} {f : FarReq} {core slot lane : Nat} {pc : VAddr} {wid : DWord} {launch op : Nat} {g : Gang}
    (hwhat : f.what = .write core slot lane pc wid launch op) (hg : s.gang? core slot = some g) (hlaunch : g.launch = launch) (hready : g.stat = .ready)
    (hop : g.ops.any (fun o => o.id == op) = true) (hplace : gkey g.core g.slot = gkey core slot) :
    (s.failFar f).gang? core slot = some { g with failed := g.failed ++ [pc] } := by
  have hhere : (g.launch == launch && g.stat != .ended && g.ops.any (fun o => o.id == op)) = true := by
    rw [hlaunch, hready, hop, beq_self_eq_true]; rfl
  have hlost (rerun exited : Bool) : ((s.dropFar f.id).lostWrite launch wid pc core rerun exited).gang? core slot = some g :=
    (State.lostWrite_gang ..).trans hg
  have hnoted (t : State) : (t.putGang { g with failed := g.failed ++ [pc] }).gang? core slot = some { g with failed := g.failed ++ [pc] } :=
    State.gang_putGang_of_eq _ _ hplace.symm
  simp only [State.failFar, hwhat, State.dropFar_gang, hg, hhere, if_true, State.modGang_some _ (hlost _ _), State.sweep_ready (hnoted _) hready, hnoted]

/- Ports (R399, R402) -/

section
variable {s : State} {port : BitVec 6} (hs : s.fatal = none)
include hs

theorem exec_portDown_none (hnone : Tab.get? s.ports port.toNat = none) : exec (.dvorlekPortDown port) s = .next s := by
  show execDvorlekPortDown port s = _
  refine (alive_none hs).trans ?_
  simp only [hnone]

theorem exec_portRejoin_none (hnone : Tab.get? s.ports port.toNat = none) : exec (.dvorlekPortRejoin port) s = .next s := by
  show execDvorlekPortRejoin port s = _
  refine (alive_none hs).trans ?_
  simp only [hnone]

variable {p : Port} (hp : Tab.get? s.ports port.toNat = some p)
include hp

theorem exec_portDown {t : State} (ht : t = { s with ports := Tab.set s.ports port.toNat { p with up := false } }) :
    exec (.dvorlekPortDown port) s =
      .next (if t.reachable p.peer then t else (s.far.filter (fun r => r.peer == p.peer)).foldl State.failFar t) := by
  subst ht
  show execDvorlekPortDown port s = _
  refine (alive_none hs).trans ?_
  simp only [hp]

theorem exec_portRejoin : exec (.dvorlekPortRejoin port) s = .next { s with ports := Tab.set s.ports port.toNat { p with up := true } } := by
  show execDvorlekPortRejoin port s = _
  refine (alive_none hs).trans ?_
  simp only [hp]

end

/- The stop before the next instruction (R355, R360) -/

/-- Nothing stops a gang before an instruction that a peer has performed a part of. -/
theorem State.imprecise_partDone {g : Gang} (h : g.arrived ≠ []) (s : State) (act : LaneMask) (next : VAddr) : s.imprecise g act next = none := by
  unfold State.imprecise
  split
  · next harrived => exact absurd harrived h
  · rfl

/-- The oldest failed write of a gang stops it before whatever instruction it would issue, legal or not. -/
theorem runGang_imprecise {i : Instr} {s : State} {g : Gang} {pc : VAddr} {l : List VAddr} {bad : State → Gang → Bool}
    {body : State → Gang → LaneMask → Res} (hcur : s.cur = some (.gang g.core g.slot)) (hg : s.gang? g.core g.slot = some g) (hmay : s.mayIssue g = true)
    (hturn : g.notBefore ≤ s.cyc g.core) (hfailed : g.failed = pc :: l) (harrived : g.arrived = []) :
    runGang i s bad body =
      .next (s.takeStop { g with failed := l } 34 0 (pc.setWidth 64) (g.active (shape i)) [] g.pc (g.next (shape i))) := by
  have himprecise : s.imprecise g (g.active (shape i)) (g.next (shape i)) =
      some (s.takeStop { g with failed := l } 34 0 (pc.setWidth 64) (g.active (shape i)) [] g.pc (g.next (shape i))) := by
    simp only [State.imprecise, hfailed, harrived]
  simp only [runGang, hcur, hg, hmay, if_true, issue, Nat.not_lt.mpr hturn, himprecise, if_false]

/-- Every row that has words and an OPC below those of the copy class is issued at the current gang, where alone its checks and its effect are (R265). -/
theorem exec_gangRow {i : Instr} (hcode : isCode i = true) (hopc : (shape i).opc.toNat < 0x78) (s : State) :
    ∃ bad body, exec i s = runGang i s bad body := by
  cases i
  -- UNDEF, and the copy class
  case undef | kmov | kadd | ksub | kmul | kshl | kshr | kand | kcmp | kbr | kloop | kend | karv | kprom | kld | gset | gstep | xcopy | xgath | xscat | xtran
      | xfill | xcopyv =>
    exact absurd hopc (Nat.not_lt.mpr (Nat.le_of_ble_eq_true rfl))
  -- rows without words: the mailbox and the registers, the links, the queues, the scheduler and the engines, upsets and bring-up
  case writeVirtual | writePhysical | writeRegister | readVirtual | readPhysical | readRegister | kick | grantSync | resolveReplay | resolveFail | preempt
      | kickWrite | preemptVacateLaunch | preemptVacateCore | preemptReopenLaunch | preemptReopenCore | registerWrite | peerKick
      | farAccess | farResponse | farTimeout | farRefused | flitRetry | dvorlekPortDown | dvorlekPortRejoin
      | takeUp | launchComplete | admitBand | bandBlocking | crewRetire | crewCommit | registerGrant | registerDeadlockPark | gangRestore | crewRestore
      | tokenGrant | mmulStreamEnd | transomRefetch | pageWalk | faultRecordPost | grantFill | memoryAccessComplete | copyContextGrant | copyRowComplete
      | copyPostComplete | latchPoll | sleepWake | pwaitExpiry | issueSelect | handlerRunStart | shadowCompare | spanGather | spanCommit | crewSaveComplete
      | variableLatencyResult
      | scrub | schedRecovery | fatalError | thermalTrip | setPowerLimit | moduleReset | imageLoad | functionReady | channelEnableWrite =>
    cases hcode
  -- the gang and handler classes
  all_goals exact ⟨_, _, rfl⟩

/-- Settles O41: the owner by what its translation meets, the requester by the rule of R246, failures and ports by their rows, the stop by the issue that every
row of a gang goes through. -/
theorem farRows : Obligations.FarRows := by
  refine ⟨fun s peer ctx princ va tag op hs hfirst => ?owner, fun s id ok tag data hs => ?requester, fun s id f port p hs => ?failures,
    fun i s g pc l hcode hopc hcur hg hmay hturn hfailed => ⟨fun hpart _ _ => State.imprecise_partDone hpart .., fun harrived => ?stops⟩⟩
  case owner =>
    intro i failed
    refine ⟨fun n ht => exec_farAccess_fault hs hfirst ht, fun l ht => ⟨fun hfar => exec_farAccess_far hs hfirst ht hfar,
      fun pa hloc hmem => exec_farAccess_waits hs hfirst ht hloc hmem, fun pa hloc hmem => ?here⟩,
      fun pa => ⟨farPerform_load s peer pa, fun d bad hkick => farPerform_store hkick peer d bad⟩⟩
    have hexec := exec_farAccess_here (r := { peer := peer, ctx := ctx, princ := princ }) (tag := tag) (op := op) hs hfirst ht hloc hmem
    refine ⟨fun hkind hw => hexec.trans ?barred, fun hw hwrites htag => hexec.trans ?denied, fun hw htag t d hdone => hexec.trans ?performed⟩
    case barred => simp only [hkind, hw, Bool.not_false, Bool.and_self, if_true]; rfl
    case denied => simp only [writeBarred_eq_false hw, hwrites, bne_iff_ne.mpr htag, Bool.and_self, Bool.false_eq_true, if_false, if_true]
    case performed => simp only [writeBarred_eq_false hw, tagBarred_eq_false htag, hdone, Bool.false_eq_true, if_false]
  case requester =>
    refine ⟨fun hnone => exec_farResponse_stray hs hnone, fun f hf hready => ?_⟩
    intro t noted stands
    have hstands : stands ↔ t.grantedFar f ok tag = true := (t.grantedFar_iff f ok tag).symm
    refine ⟨fun h => (exec_farResponse hs hf hready).trans ?_, fun h => (exec_farResponse hs hf hready).trans ?_, fun hlooks hprobes hreads => ?_⟩
    · exact congrArg _ (if_pos (hstands.mp h))
    · exact congrArg _ (if_neg (mt hstands.mpr h))
    · exact State.deniedKeys_eq_nil_iff (by rw [FarReq.checked, FarReq.reads, hlooks, hprobes, hreads]; rfl)
  case failures =>
    refine ⟨fun hnone => ⟨exec_farTimeout_stray hs hnone, exec_farRefused_stray hs hnone⟩, fun hf => ⟨fun hlate => (exec_farTimeout hs hf).trans ?late,
      fun hearly => (exec_farTimeout hs hf).trans ?early, exec_farRefused hs hf⟩,
      fun _ _ _ _ _ _ _ _ hwhat hg hlaunch hready hop hplace => State.failFar_gang hwhat hg hlaunch hready hop hplace, rfl,
      fun hnone => ⟨exec_portDown_none hs hnone, exec_portRejoin_none hs hnone⟩, fun hp => ?_⟩
    case late => rw [if_pos hlate]
    case early => rw [if_neg (Nat.not_le.mpr hearly)]
    intro t
    refine ⟨fun hup => (exec_portDown hs hp rfl).trans (congrArg _ (if_pos hup)), fun hdown => (exec_portDown hs hp rfl).trans (congrArg _ (if_neg ?_)),
      exec_portRejoin hs hp⟩
    rw [Bool.not_eq_true]
    exact hdown
  case stops =>
    obtain ⟨bad, body, hexec⟩ := exec_gangRow hcode hopc s
    exact hexec.trans (runGang_imprecise hcur hg hmay hturn hfailed harrived)

end Sys2Proof.Machine
end

section
/-! PROOFS. Posts (R249, R255 to R257): their checks in order, what they wait for, and the context that they start. -/
namespace Sys2Proof.Machine

theorem rowBytes_eq (n : BitVec 12) : rowBytes n = 4 * (n.toNat + 1) := Nat.mul_comm _ _

/-- Every row that posts does, once it issues outside the handler slot, what the post that it asks for does. -/
theorem exec_post {i : Instr} {s : State} {g : Gang} {p : Post} (hi : Issues i s g) (hh : g.isHandler = false) (hp : postOf s g i = some p) :
    exec i s = .next (settleRes i s g (g.active (shape i)) (p.body s g (g.active (shape i)))) := by
  unfold postOf at hp
  split at hp <;> cases hp
  all_goals refine (runGang_eq hi hh).trans ?_
  -- CPOST has no rows, and that of CCOPY.tr has a slot's length
  case h_1 | h_6 => rfl
  all_goals simp only [rowsPost, rowBytes_eq]
  all_goals rfl

section
variable {p : Post} {s : State} {g : Gang} {act : LaneMask}

theorem Post.body_waits_counter (h : 63 ≤ g.counter .cp) : p.body s g act = .wait s g (.counter .cp) := if_pos h

variable (hroom : g.counter .cp < 63)
include hroom

theorem Post.body_refused {cause : Nat} (hcheck : p.check s g = some cause) : p.body s g act = .trap cause := by
  simp only [Post.body, Nat.not_le.mpr hroom, hcheck, if_false]

variable (hcheck : p.check s g = none)
include hcheck

theorem Post.body_overflows (h : p.overflows s g act = true) : p.body s g act = .trap 24 := by
  simp only [Post.body, Nat.not_le.mpr hroom, hcheck, h, if_false, if_true]

variable (hfits : p.overflows s g act = false) (hclean : g.CleanIn (g.live act) p.idx)
include hfits hclean

theorem Post.body_waits_context (h : s.freeCtx g = none) : p.body s g act = .wait s g .context := by
  simp only [Post.body, Nat.not_le.mpr hroom, hcheck, hfits, badLanes_clean hclean, consume_none (live_zero g), h, if_false, Bool.false_eq_true]

theorem Post.body_starts {ix : Nat} (h : s.freeCtx g = some ix) :
    let rows := p.rows s g act (postRef p.status)
    let t := (match postRef p.latch with | some o => s.updLatch g.crew o (p.upd rows) | none => s).clearStatus g.crew (postRef p.status) (g.live act)
    let u := t.putCtx g.core ix (p.ctx t g act rows)
    let y := u.countOp (g.sSet p.d.toNat (BitVec.ofNat 64 (t.cyc g.core + 1 + Config.promiseLead t.nextId))) .cp []
    p.body s g act = .ok y.1 y.2 := by
  simp only [Post.body, Nat.not_le.mpr hroom, hcheck, hfits, badLanes_clean hclean, consume_none (live_zero g), h, if_false, Bool.false_eq_true]
  rfl

end

theorem Post.overflows_eq_false {p : Post} {s : State} {g : Gang} {act : LaneMask}
    (h : ∀ o, postRef p.latch = some o → (p.upd (p.rows s g act (postRef p.status))).over (s.latch g.crew o) = false) : p.overflows s g act = false := by
  unfold Post.overflows
  split
  case h_1 o ho => exact h o ho
  case h_2 => rfl

theorem Post.overflows_eq_true {p : Post} {s : State} {g : Gang} {act : LaneMask} {o : Nat} (ho : postRef p.latch = some o)
    (h : (p.upd (p.rows s g act (postRef p.status))).over (s.latch g.crew o) = true) : p.overflows s g act = true := by
  simp only [Post.overflows, ho, h]

/-- Settles O30: every post is its `Post.body`, a clause for each way in which that ends. -/
theorem postRows_complete : Obligations.PostRows := by
  refine ⟨fun i s g p ix hi hh hp hroom hcheck hclean hfree hfits => ?starts, fun i s g p cause hi hh hp => ?_⟩
  case starts =>
    exact (exec_post hi hh hp).trans (congrArg _ (congrArg _ (Post.body_starts hroom hcheck (Post.overflows_eq_false hfits) hclean hfree)))
  have hexec := exec_post hi hh hp
  refine ⟨fun hfull => hexec.trans ?counter, fun hroom hcheck => hexec.trans ?refused, fun hroom hcheck => ⟨fun o ho hover => hexec.trans ?overflows,
    fun hfits hclean hfree => hexec.trans ?context⟩⟩
  case counter => rw [Post.body_waits_counter hfull]; rfl
  case refused => rw [Post.body_refused hroom hcheck, settle_trap]
  case overflows => rw [Post.body_overflows hroom hcheck (Post.overflows_eq_true ho hover), settle_trap]
  case context => rw [Post.body_waits_context hroom hcheck (Post.overflows_eq_false hfits) hclean hfree]; rfl

end Sys2Proof.Machine
end

section
/-! PROOFS. The latch rows (R277, R278, R280) and OWAIT (R285): what they check in order, complete with and wait for. -/
namespace Sys2Proof.Machine

/- Ways to end -/

/-- An instruction that issues and begins to wait for a latch (R282). -/
theorem runGang_joins {i : Instr} {s t : State} {g : Gang} {ofs p : Nat} {bad : State → Gang → Bool} {body : State → Gang → LaneMask → Res}
    (hi : Issues i s g) (hb : bad s g = false) (hr : body s g (g.active (shape i)) = t.joinLatch g ofs p) :
    runGang i s bad body = .next (t.waitsLatch g ofs p) := by
  rw [runGang_eq hi hb, hr]
  unfold State.joinLatch State.waitsLatch
  dsimp only
  split
  · rfl
  · split <;> rfl

theorem runGang_trapWith {i : Instr} {s : State} {g : Gang} {cause detail : Nat} {info : DWord} {bad : State → Gang → Bool}
    {body : State → Gang → LaneMask → Res} (hi : Issues i s g) (hb : bad s g = false) (hr : body s g (g.active (shape i)) = .trapWith cause detail info) :
    runGang i s bad body =
      .next (s.takeStop (g.issuedAt (shape i) (s.cyc g.core)) cause detail info (g.active (shape i)) [] g.pc (g.next (shape i))) := by
  rw [runGang_eq hi hb, hr]
  rfl

/- What each row comes to once its latch and its operands are good -/

/-- A gang waits on the latch, or sectors of it are outstanding (R277). -/
def State.latchBusy (s : State) (g : Gang) (ofs : Nat) : Bool :=
  (s.core g.core).waiters.any (fun w => w.crew == g.crew && w.ofs == ofs) || (latchValid (s.latch g.crew ofs) && latchSect (s.latch g.crew ofs) != 0)

section
variable {s : State} {g : Gang} {ofs : Nat}

theorem State.latchBusy_iff : s.latchBusy g ofs = true ↔ (∃ w ∈ (s.core g.core).waiters, w.crew = g.crew ∧ w.ofs = ofs) ∨
    (latchValid (s.latch g.crew ofs) = true ∧ latchSect (s.latch g.crew ofs) ≠ 0) := by
  simp [State.latchBusy]

theorem State.latchBusy_eq_false (hwaiters : ∀ w ∈ (s.core g.core).waiters, w.crew = g.crew → w.ofs ≠ ofs)
    (hsect : latchValid (s.latch g.crew ofs) = true → latchSect (s.latch g.crew ofs) = 0) : s.latchBusy g ofs = false := by
  rw [Bool.eq_false_iff, Ne, State.latchBusy_iff]
  rintro (⟨w, hw, hcrew, hofs⟩ | ⟨hvalid, hne⟩)
  · exact hwaiters w hw hcrew hofs
  · exact hne (hsect hvalid)

variable (hrange : s.latchRange g ofs = false)
include hrange

theorem latiBody_inRange (n : Nat) : latiBody ofs n s g =
    if 2 ^ 20 ≤ n then .trap 24 else if s.latchBusy g ofs then .trap 23 else .ok (s.putLatch g.crew ofs (n * 2 ^ 4 + n * 2 ^ 56 + 2 ^ 111)) g :=
  if_neg (Bool.eq_false_iff.mp hrange)

theorem pwaitBody_early {till : Nat} (h : s.cyc g.core < till) (nt : Bool) (d : BitVec 6) (p : Nat) :
    pwaitBody nt d till ofs p s g = .wait s g (.promise till) :=
  (if_neg (Bool.eq_false_iff.mp hrange)).trans (if_pos h)

section
variable (hinvalid : latchValid (s.latch g.crew ofs) = false)
include hinvalid

theorem larvBody_invalid (n want : Nat) : larvBody ofs n want s g = .trap 22 := by simp [larvBody, hrange, hinvalid]
theorem lrstBody_invalid (n : Nat) : lrstBody ofs n s g = .trap 22 := by simp [lrstBody, hrange, hinvalid]
theorem lwaitBody_invalid (d : BitVec 6) (p : Nat) : lwaitBody d ofs p s g = .trap 22 := by simp [lwaitBody, hrange, hinvalid]
theorem pwaitBody_invalid {till : Nat} (h : till ≤ s.cyc g.core) (nt : Bool) (d : BitVec 6) (p : Nat) : pwaitBody nt d till ofs p s g = .trap 22 := by
  simp [pwaitBody, hrange, hinvalid, Nat.not_lt.mpr h]

end

variable (hvalid : latchValid (s.latch g.crew ofs) = true)
include hvalid

theorem larvBody_valid (n want : Nat) : larvBody ofs n want s g =
    if 2 ^ 20 ≤ n then .trap 24
    else if want ≠ 0 ∧ want ≠ latchReload (s.latch g.crew ofs) then .trap 26
    else if latchArrive (s.latch g.crew ofs) < n then .trap 25
    else .ok (s.updLatch g.crew ofs { arrive := n }) g := by
  simp only [larvBody, hrange, hvalid, Bool.not_true, Bool.false_eq_true, if_false]

theorem lrstBody_valid (n : Nat) : lrstBody ofs n s g =
    if 2 ^ 20 ≤ n then .trap 24
    else .ok (s.putLatch g.crew ofs (putField (putField (putField (s.latch g.crew ofs) 99 76 0) 110 100 0) 75 56 n)) g := by
  simp only [lrstBody, hrange, hvalid, Bool.not_true, Bool.false_eq_true, if_false]

theorem lwaitBody_valid (d : BitVec 6) (p : Nat) : lwaitBody d ofs p s g =
    if latchPhase (s.latch g.crew ofs) ≠ p % 16 then .ok s (g.sSet d.toNat (latchStatus (s.latch g.crew ofs))) else s.joinLatch g ofs (p % 16) := by
  simp only [lwaitBody, hrange, hvalid, Bool.not_true, Bool.false_eq_true, if_false]

theorem pwaitBody_due {till : Nat} (h : till ≤ s.cyc g.core) (nt : Bool) (d : BitVec 6) (p : Nat) : pwaitBody nt d till ofs p s g =
    if latchPhase (s.latch g.crew ofs) ≠ p % 16 then .ok s (g.sSet d.toNat (latchStatus (s.latch g.crew ofs)))
    else if nt || g.pwaitNt then (s.countAt g.place .promiseLateCount).joinLatch g ofs (p % 16)
    else .trapWith 29 0 (BitVec.ofNat 64 till) := by
  simp only [pwaitBody, hrange, hvalid, Nat.not_lt.mpr h, Bool.not_true, Bool.false_eq_true, if_false]

end

/-- Settles O31, a clause for each row and each way in which it ends. -/
theorem latchRows : Obligations.LatchRows := by
  refine ⟨fun s g h d a b c nt cls => ⟨?lati, ?larv, ?lrst, ?lwait, ?pwait, ?owait⟩,
    fun s g h d a b c nt => ⟨?latiRaises, ?larvRaises, ?lrstRaises, ?lwaitWaits, ?pwaitWaits⟩⟩
  case lati =>
    intro i o n hi hrange hn hwaiters hsect
    refine runGang_ok hi rfl ((latiBody_inRange hrange n).trans ?_)
    simp only [Nat.not_le.mpr hn, State.latchBusy_eq_false hwaiters hsect, if_false, Bool.false_eq_true]
  case larv =>
    intro i o n want x hi hrange hvalid hn hwant harrive
    refine runGang_ok hi rfl ((larvBody_valid hrange hvalid n want).trans ?_)
    rw [if_neg (Nat.not_le.mpr hn), if_neg (fun hne => hwant.elim hne.1 hne.2), if_neg (Nat.not_lt.mpr harrive)]
  case lrst =>
    intro i o n x hi hrange hvalid hn
    exact runGang_ok hi rfl ((lrstBody_valid hrange hvalid n).trans (if_neg (Nat.not_le.mpr hn)))
  case lwait =>
    intro i o x hi hrange hvalid hphase
    exact runGang_ok hi rfl ((lwaitBody_valid hrange hvalid d _).trans (if_pos hphase))
  case pwait =>
    intro i o x hi hrange htill hvalid hphase
    exact runGang_ok hi rfl ((pwaitBody_due hrange hvalid htill nt d _).trans (if_pos hphase))
  case owait =>
    intro i n hi
    exact ⟨fun hle => runGang_ok hi rfl (if_pos hle), fun hlt => runGang_wait hi rfl (if_neg (Nat.not_le.mpr hlt))⟩
  case latiRaises =>
    intro i o n x hi
    refine ⟨fun hout => runGang_trap hi rfl (if_pos hout), fun hrange hn => runGang_trap hi rfl ((latiBody_inRange hrange n).trans (if_pos hn)),
      fun hrange hn hbusy => runGang_trap hi rfl ((latiBody_inRange hrange n).trans ?_)⟩
    rw [if_neg (Nat.not_le.mpr hn), if_pos (State.latchBusy_iff.mpr hbusy)]
  case larvRaises =>
    intro i o n want x hi
    refine ⟨fun hout => runGang_trap hi rfl (if_pos hout),
      fun hrange hinvalid => runGang_trap hi rfl (larvBody_invalid hrange hinvalid n want),
      fun hrange hvalid hn => runGang_trap hi rfl ((larvBody_valid hrange hvalid n want).trans (if_pos hn)),
      fun hrange hvalid hn hne hreload => runGang_trap hi rfl ((larvBody_valid hrange hvalid n want).trans ?mismatch),
      fun hrange hvalid hn hwant harrive => runGang_trap hi rfl ((larvBody_valid hrange hvalid n want).trans ?underflow)⟩
    case mismatch => rw [if_neg (Nat.not_le.mpr hn), if_pos ⟨hne, hreload⟩]
    case underflow => rw [if_neg (Nat.not_le.mpr hn), if_neg (fun hne => hwant.elim hne.1 hne.2), if_pos harrive]
  case lrstRaises =>
    intro i o x hi
    exact ⟨fun hout => runGang_trap hi rfl (if_pos hout), fun hrange hinvalid => runGang_trap hi rfl (lrstBody_invalid hrange hinvalid _),
      fun hrange hvalid hn => runGang_trap hi rfl ((lrstBody_valid hrange hvalid _).trans (if_pos hn))⟩
  case lwaitWaits =>
    intro i o p x hi
    exact ⟨fun hout => runGang_trap hi rfl (if_pos hout), fun hrange hinvalid => runGang_trap hi rfl (lwaitBody_invalid hrange hinvalid d _),
      fun hrange hvalid hphase => runGang_joins hi rfl ((lwaitBody_valid hrange hvalid d _).trans (if_neg (not_not.mpr hphase)))⟩
  case pwaitWaits =>
    intro i o till p x hi
    refine ⟨fun hout => runGang_trap hi rfl (if_pos hout), fun hrange hearly => runGang_wait hi rfl (pwaitBody_early hrange hearly nt d _),
      fun hrange hdue => ⟨fun hinvalid => runGang_trap hi rfl (pwaitBody_invalid hrange hinvalid hdue nt d _),
        fun hvalid hphase => ⟨fun hnt => ?late, ?stops⟩⟩⟩
    case late =>
      refine runGang_joins hi rfl ((pwaitBody_due hrange hvalid hdue nt d _).trans ((if_neg (not_not.mpr hphase)).trans (if_pos ?_)))
      simpa using hnt
    case stops =>
      intro hnt hheld
      refine runGang_trapWith hi rfl ((pwaitBody_due hrange hvalid hdue nt d _).trans ((if_neg (not_not.mpr hphase)).trans (if_neg ?_)))
      simp [hnt, hheld]

end Sys2Proof.Machine
end

section
/-! PROOFS. CBAR and GBAR (R286): arrivals, traps, and the arrival that completes a phase. -/
namespace Sys2Proof.Machine

section
variable {s : State} {k : Nat}

@[simp] theorem State.crew_wakeAnew (s : State) (p : Gang → Bool) (k : Nat) : (s.wakeAnew p).crew? k = s.crew? k := rfl
@[simp] theorem State.launch_wakeAnew (s : State) (p : Gang → Bool) (k : Nat) : (s.wakeAnew p).launch? k = s.launch? k := rfl

theorem State.crewBarCheck_last {c : Crew} (hc : s.crew? k = some c) (hsome : 0 < c.bar.arrived) (hall : c.live ≤ c.bar.arrived) :
    s.crewBarCheck k = (s.putCrew k { c with bar := c.bar.next }).wakeAnew (fun g => g.crew == k && g.stat == .waiting (.crewBarrier c.bar.phase)) := by
  simp [State.crewBarCheck, hc, Nat.ne_of_gt hsome, hall]

theorem State.crewBarCheck_early {c : Crew} (hc : s.crew? k = some c) (hless : c.bar.arrived < c.live) : s.crewBarCheck k = s := by
  simp [State.crewBarCheck, hc, hless]

theorem State.launchBarCheck_last {l : Launch} (hl : s.launch? k = some l) (hsome : 0 < l.bar.arrived)
    (hall : l.pkt.gangCount - l.exited ≤ l.bar.arrived) :
    s.launchBarCheck k = (s.putLaunch k { l with bar := l.bar.next }).wakeAnew
      (fun g => g.launch == k && g.stat == .waiting (.launchBarrier l.bar.phase)) := by
  have h : (l.bar.arrived != 0 && decide (l.pkt.gangCount - l.exited ≤ l.bar.arrived)) = true := by
    rw [decide_eq_true hall, bne_iff_ne.mpr (Nat.ne_of_gt hsome), Bool.and_self]
  simp only [State.launchBarCheck, hl, h, if_true]

theorem State.launchBarCheck_early {l : Launch} (hl : s.launch? k = some l) (hless : l.bar.arrived < l.pkt.gangCount - l.exited) :
    s.launchBarCheck k = s := by
  have h : (l.bar.arrived != 0 && decide (l.pkt.gangCount - l.exited ≤ l.bar.arrived)) = false := by
    rw [decide_eq_false (Nat.not_le.mpr hless), Bool.and_false]
  simp only [State.launchBarCheck, hl, h, if_false, Bool.false_eq_true]

end

section
variable {s : State} {g : Gang} {n : Nat} (i : Instr)

theorem cbarBody_arrives {c : Crew} (hc : s.crew? g.crew = some c) (hn : n = 0 ∨ n = c.live) :
    cbarBody i n s g = .gone (((s.putGang { g.advance (shape i) (s.cyc g.core) (g.next (shape i)) with stat := .waiting (.crewBarrier c.bar.phase) }).putCrew
      g.crew { c with bar := { c.bar with arrived := c.bar.arrived + 1 } }).crewBarCheck g.crew) := by
  simp only [cbarBody, hc]
  exact if_neg (fun hne => hn.elim hne.1 hne.2)

theorem cbarBody_mismatch {c : Crew} (hc : s.crew? g.crew = some c) (hne : n ≠ 0) (hlive : n ≠ c.live) : cbarBody i n s g = .trap 26 := by
  simp only [cbarBody, hc]
  exact if_pos ⟨hne, hlive⟩

variable {l : Launch} (hl : s.launch? g.launch = some l)
include hl

theorem gbarBody_mismatch (hne : n ≠ 0) (hreload : n ≠ s.launchReload g.launch) : gbarBody i n s g = .trap 26 := by
  simp only [gbarBody, hl]
  exact if_pos ⟨hne, hreload⟩

theorem gbarBody_counted (hn : n = 0 ∨ n = s.launchReload g.launch) : gbarBody i n s g =
    if !l.pkt.cosched then .trap 27
    else if l.pkt.mode ≠ 0 then .trap 12
    else .gone (((s.putGang { g.advance (shape i) (s.cyc g.core) (g.next (shape i)) with stat := .waiting (.launchBarrier l.bar.phase) }).putLaunch
      g.launch { l with bar := { l.bar with arrived := l.bar.arrived + 1 } }).launchBarCheck g.launch) := by
  simp only [gbarBody, hl]
  exact if_neg (fun hne => hn.elim hne.1 hne.2)

end

/-- Settles O32: an arrival or a trap of either row, then what a barrier does at the last arrival and before it. -/
theorem barrierRows : Obligations.BarrierRows := by
  refine ⟨fun s g h a hh => ⟨?cbar, ?cbarRaises, ?gbarRaises, ?gbar⟩, fun s k c hc hsome hall => ?crew, fun s k l hl hsome hall => ?launch,
    fun s k => ⟨fun c hc hless => State.crewBarCheck_early hc hless, fun l hl hless => State.launchBarCheck_early hl hless⟩⟩
  case cbar =>
    intro i c hi hc hn
    exact runGang_gone hi hh (cbarBody_arrives i hc hn)
  case cbarRaises =>
    intro i c hi hc hne hlive
    exact runGang_trap hi hh (cbarBody_mismatch i hc hne hlive)
  case gbarRaises =>
    intro i n l hi hl
    refine ⟨fun hne hreload => runGang_trap hi hh (gbarBody_mismatch i hl hne hreload),
      fun hn hco => runGang_trap hi hh ((gbarBody_counted i hl hn).trans ?_), fun hn hco hmode => runGang_trap hi hh ((gbarBody_counted i hl hn).trans ?_)⟩
    · simp only [hco, Bool.not_false, if_true]
    · simp only [hco, Bool.not_true, Bool.false_eq_true, if_false, if_pos hmode]
  case gbar =>
    intro i l hi hl hn hco hmode
    refine runGang_gone hi hh ((gbarBody_counted i hl hn).trans ?_)
    simp only [hco, Bool.not_true, Bool.false_eq_true, if_false, if_neg (not_not.mpr hmode)]
  case crew =>
    rw [State.crewBarCheck_last hc hsome hall]
    refine ⟨by rw [State.crew_wakeAnew, State.crew_putCrew]; rfl, fun core slot g hg => ?_⟩
    rw [State.gang_wakeAnew, State.putCrew_gang, hg]
    simp only [Option.map_some, Bool.and_eq_true, beq_iff_eq]
    rfl
  case launch =>
    rw [State.launchBarCheck_last hl hsome hall]
    refine ⟨by rw [State.launch_wakeAnew, State.launch_putLaunch]; rfl, fun core slot g hg => ?_⟩
    rw [State.gang_wakeAnew, State.putLaunch_gang, hg]
    simp only [Option.map_some, Bool.and_eq_true, beq_iff_eq]
    rfl

end Sys2Proof.Machine
end

section
/-! PROOFS. The copy-class register rows (R266) and control rows (R267). -/
namespace Sys2Proof.Machine

/- Shifts -/

theorem kShl_eq (a b : DWord) : kShl a b = BitVec.ofNat 64 (a.toNat * 2 ^ b.toNat) := by
  apply BitVec.eq_of_toNat_eq
  unfold kShl
  split
  case isTrue h => rw [BitVec.toNat_shiftLeft, BitVec.toNat_ofNat, Nat.shiftLeft_eq]
  case isFalse h =>
    rw [BitVec.toNat_ofNat, Nat.mod_eq_zero_of_dvd (Dvd.dvd.mul_left (Nat.pow_dvd_pow 2 (Nat.not_lt.mp h)) _)]
    rfl

/-- A shift by 64 or more leaves the sign alone. -/
theorem sshiftRight_of_ge {a : DWord} {n : Nat} (h : 64 ≤ n) : a.sshiftRight n = if a.msb then BitVec.allOnes 64 else 0 := by
  ext k hk
  rw [BitVec.getElem_sshiftRight, dif_neg (by omega)]
  cases a.msb
  · simp
  · exact (BitVec.getElem_allOnes k hk).symm

theorem kShr_eq (t : Fmt) (a b : DWord) : kShr t a b =
    if t = .i64 then BitVec.ofInt 64 (a.toInt / 2 ^ b.toNat) else BitVec.ofNat 64 (a.toNat / 2 ^ b.toNat) := by
  unfold kShr
  split
  case isTrue =>
    trans a.sshiftRight b.toNat
    · split
      · rfl
      · exact (sshiftRight_of_ge (by omega)).symm
    · rw [BitVec.sshiftRight, Int.shiftRight_eq_div_pow]
      norm_cast
  case isFalse =>
    apply BitVec.eq_of_toNat_eq
    rw [BitVec.toNat_ofNat, Nat.mod_eq_of_lt (Nat.lt_of_le_of_lt (Nat.div_le_self _ _) a.isLt)]
    split
    case isTrue => rw [BitVec.toNat_ushiftRight, Nat.shiftRight_eq_div_pow]
    case isFalse h =>
      have hle : 2 ^ 64 ≤ 2 ^ b.toNat := Nat.pow_le_pow_right (by decide) (Nat.not_lt.mp h)
      exact (Nat.div_eq_of_lt (Nat.lt_of_lt_of_le a.isLt hle)).symm

/- Register rows -/

theorem kAlu_ok {i : Instr} {s : State} {core ix : Nat} {c : CopyCtx} {lit : Option DWord} {a b : KSc} (hc : CopyIssues s core ix c [a, b]) (d : BitVec 4)
    (f : DWord → DWord → DWord) :
    kAlu i d lit a b f s = .next (State.copyNext core ix i s (c.kSet d (f (c.src lit a) (c.src lit b)))) := runCopy_ok hc rfl

/-- Every copy-class register row completes with its value in its destination. -/
theorem exec_copyRow {i : Instr} {s : State} {core ix : Nat} {c : CopyCtx} {l : List KSc} {d : BitVec 4} {x : DWord} (hr : copyRow c i = some (l, d, x))
    (hc : CopyIssues s core ix c l) : exec i s = .next (State.copyNext core ix i s (c.kSet d x)) := by
  unfold copyRow at hr
  split at hr <;> cases hr
  all_goals unfold exec
  case h_1 => exact runCopy_ok hc rfl
  case h_6 => exact (kAlu_ok hc d kShl).trans (by rw [kShl_eq])
  case h_7 h t a b => exact (kAlu_ok hc d (kShr t)).trans (by rw [kShr_eq])
  all_goals exact kAlu_ok hc d _

/- Control rows -/

theorem runCopy_jump {i : Instr} {l : List KSc} {s t : State} {core ix : Nat} {c d : CopyCtx} {pc : VAddr} {body : State → Nat → Nat → CopyCtx → KRes}
    (h : CopyIssues s core ix c l) (hb : body s core ix c = .jump t d pc) : runCopy i l s body = .next (t.putCtx core ix { d with pc := pc }) := by
  rw [runCopy_eq h, hb]

/-- Settles O34: the register rows by their table, the control rows by what each comes to. -/
theorem copyRows : Obligations.CopyRows := by
  refine ⟨fun i s core ix c l d x hr hc => exec_copyRow hr hc, fun s core ix c h st a b d ofs => ⟨fun hc hzero => ?falls, fun hc hne => ?branches,
    fun hc hlast => ?loopEnds, fun hc hmore => ?loops, fun hc => ?kend, fun hc => ?karv, fun hc => ?kprom⟩⟩
  all_goals unfold exec
  case falls => exact runCopy_ok hc (if_pos hzero)
  case branches => exact runCopy_jump hc (if_neg hne)
  case loopEnds =>
    refine runCopy_ok hc ?_
    simp only [hlast]
    rfl
  case loops => exact runCopy_jump hc (if_neg (mt sub_eq_zero.mp hmore))
  case kend => exact runCopy_ok hc rfl
  case karv =>
    intro o n hin hvalid hn harrive
    refine runCopy_ok hc (if_neg ?_)
    rw [hin, hvalid, decide_eq_false (Nat.not_le.mpr hn), decide_eq_false (Nat.not_lt.mpr harrive)]
    decide
  case kprom =>
    intro o haligned hin
    exact runCopy_ok hc (if_neg (by omega))

end Sys2Proof.Machine
end

section
/-! PROOFS. Generators (R252, R253): GSET, GSTEP and KLD (R268), in scratch and in global memory. -/
namespace Sys2Proof.Machine

/- A span of global memory -/

/-- A row whose span stands in this module's memory, granted to its key and ready, and that no peer has answered, reads it as its crew sees it. -/
theorem RowAt.read_here {r : RowAt} {s : State} {why : CopyPark} {base va n : Nat} {leaf : Nat → Leaf} {pa : Nat → Nat} (harrived : r.c.arrived = [])
    (hspan : ∀ p ∈ piecesOf va n, s.translate r.core (r.ctx s) p.1 = .leaf (leaf p.1) ∧ (leaf p.1).loc p.1 = .here (pa p.1) ∧
      s.granted r.core (r.ctx s) r.key (leaf p.1).door = true ∧ s.grantWaits r.core (r.ctx s) r.key (leaf p.1).door = false ∧
      s.memReady (pa p.1) = true) :
    r.read s why base va n =
      (r.note s false (piecesOf va n), .data ((piecesOf va n).map (fun p => r.readHere s (pa p.1) p.2)).flatten) := by
  have hleaf : ∀ p ∈ piecesOf va n, s.translate r.core (r.ctx s) p.1 = .leaf (leaf p.1) := fun p hp => (hspan p hp).1
  have hxlate := RowAt.xlate_leaves (leaf := fun p => leaf p.1) hleaf
  have hwaits := RowAt.waits_eq_false (leaf := fun p => leaf p.1) hleaf fun p hp => (hspan p hp).2.2.2.1
  have hgrants := RowAt.grants_all (leaf := fun p => leaf p.1) fun p hp => (hspan p hp).2.2.1
  have hhere (y : Nat × Nat × Leaf) (hy : y ∈ (piecesOf va n).map (fun p => (p.1, p.2, leaf p.1))) :
      y.2.2.loc y.1 = .here (pa y.1) ∧ s.memReady (pa y.1) = true := by
    obtain ⟨p, hp, rfl⟩ := List.mem_map.mp hy
    obtain ⟨-, hloc, -, -, hready⟩ := hspan p hp
    exact ⟨hloc, hready⟩
  have hask : r.ask s base (fun _ n => .load n) ((piecesOf va n).map (fun p => (p.1, p.2, leaf p.1))) = s := by
    refine foldl_eq_self fun y hy => ?_
    dsimp only
    rw [(hhere y.1 (List.of_mem_zip hy).1).1]
  have hanswers (k : Nat) : r.answers base k = none := by simp [RowAt.answers, CopyCtx.answer?, harrived]
  unfold RowAt.read
  simp only [hxlate, hwaits, hgrants, hask, hanswers, List.isEmpty_nil, Bool.not_true, Bool.false_eq_true, if_false, lt_irrefl]
  refine (if_neg ?ready).trans (congrArg (fun b : List (List PByte) => (_, RowGot.data b.flatten)) ?bytes)
  case ready =>
    refine Bool.eq_false_iff.mp (any_false fun y hy => ?_)
    rw [(hhere y hy).1]
    simp [Loc.here?, (hhere y hy).2]
  case bytes =>
    rw [List.map_congr_left (g := (fun p => r.readHere s (pa p.1) p.2.1) ∘ Prod.fst) fun y hy => by
      rw [(hhere y.1 (List.of_mem_zip hy).1).1]; rfl, ← List.map_map, List.map_fst_zip (by simp), List.map_map]
    rfl

/- KLD -/

theorem kldVal_eq (t : Fmt) (l : List PByte) :
    kldVal t l = if t.signed then BitVec.ofInt 64 (signedOf t.bits (natOf l)) else BitVec.ofNat 64 (natOf l) := by
  unfold kldVal
  split
  · rfl
  · exact BitVec.ofInt_natCast 64 _

/-- The context once a KLD has its value, and its generator has moved on (R268). -/
def CopyCtx.loaded (c : CopyCtx) (d : BitVec 4) (g : Gen) (v : DWord) (bad : Bool) : CopyCtx :=
  { (c.kSet d v bad).stepGen g with arrived := [], failNext := false }

/-- The access of a KLD to global memory. -/
def CopyCtx.kldAt (c : CopyCtx) (core ix : Nat) : RowAt := { core := core, ix := ix, c := c, key := c.key, wid := c.wid, pcofs := c.pc.setWidth 32 }

/-- What a KLD comes to, by what its access to global memory meets (R268). -/
def CopyCtx.kldGot (c : CopyCtx) (t : Fmt) (d : BitVec 4) (g : Gen) : State × RowGot → KRes
  | (u, .data l) => .ok u (c.loaded d g (kldVal t l) (anyBad l))
  | (u, .denied) => .ok (u.kldLatch c { denied := true }) (c.loaded d g (BitVec.allOnes 64) false)
  | (u, .fail _) => .ok (u.kldLatch c { failed := true, ecode := 2 }) (c.loaded d g (BitVec.allOnes 64) false)
  | (u, .parked) | (u, .wait) => .again u

section
variable {t : Fmt} {d : BitVec 4} {g : Gen} {s : State} {core ix : Nat} {c : CopyCtx} {x : GenSt} (hx : c.gen? g = some x)
include hx

theorem kldBody_failNext (h : c.failNext = true) : kldBody t d g s core ix c =
    .ok (s.kldLatch c { failed := true, ecode := 3 }) (c.loaded d g (BitVec.allOnes 64) false) := by
  simp only [kldBody, hx, h, if_true]
  rfl

variable (hnext : c.failNext = false) (hrows : c.rows = []) (hfar : s.ctxFar core ix = false)
include hnext hrows hfar

theorem kldBody_scratch {o : Nat} (hhere : x.here = .scratch o) (hin : o + t.bytes ≤ s.scratchOf c.crew) : kldBody t d g s core ix c =
    .ok s (c.loaded d g (kldVal t (s.scratchRead c.crew o t.bytes)) (anyBad (s.scratchRead c.crew o t.bytes))) := by
  have hplace : ¬ ((o : Int) < 0 ∨ (s.scratchOf c.crew : Int) < o + t.bytes) := by omega
  simp only [kldBody, hx, hnext, hrows, hfar, hhere, if_neg hplace, List.isEmpty_nil, Bool.not_true, Bool.or_self, Bool.false_eq_true, if_false]
  rfl

theorem kldBody_global {va : VAddr} (hhere : x.here = .global va) :
    kldBody t d g s core ix c = c.kldGot t d g ((c.kldAt core ix).read s .kld 0 va.toNat t.bytes) := by
  simp only [kldBody, hx, hnext, hrows, hfar, hhere, List.isEmpty_nil, Bool.not_true, Bool.or_self, Bool.false_eq_true, if_false]
  rw [CopyCtx.kldAt]
  generalize RowAt.read _ s .kld 0 va.toNat t.bytes = y
  obtain ⟨u, got⟩ := y
  cases got <;> rfl

end

/-- Settles O35: GSET and GSTEP, then KLD by where its generator stands and by what its read meets. -/
theorem generatorRowsComplete : Obligations.GeneratorRowsComplete := by
  intro s core ix c h st a d g t x
  refine ⟨fun hc => ?gset, fun hc hx => ?gstep, fun o hc hx hnext hrows hfar hhere hin => ?scratch, fun va hc hx hrows hfar hhere => ?global⟩
  case gset =>
    intro o haligned hin hclean hdesc
    show execGset h g a s = _
    refine runCopy_ok hc ?_
    refine (if_neg (not_or.mpr ⟨not_not.mpr haligned, Nat.not_lt.mpr hin⟩)).trans ((if_neg (Bool.eq_false_iff.mp hclean)).trans ?_)
    rw [hdesc]
  case gstep =>
    show execGstep st d g s = _
    refine runCopy_ok hc ?_
    rw [hx]
  case scratch =>
    intro l v
    refine (runCopy_ok hc (kldBody_scratch hx hnext hrows hfar hhere hin)).trans ?_
    rw [kldVal_eq]
    rfl
  case global =>
    intro n at_ gives val
    have hgot (hnext : c.failNext = false) {u v : State} {got : RowGot} {e : CopyCtx} (hread : at_.read s .kld 0 va.toNat n = (u, got))
        (hok : c.kldGot (t.or .n64) d g (u, got) = .ok v e) : exec (.kld st t d g) s = .next (State.copyNext core ix (.kld st t d g) v e) :=
      runCopy_ok hc ((kldBody_global hx hnext hrows hfar hhere).trans ((congrArg _ hread).trans hok))
    have hdata (hnext : c.failNext = false) {u : State} {l : List PByte} (hread : at_.read s .kld 0 va.toNat n = (u, .data l)) :
        exec (.kld st t d g) s = .next (gives u (val l) (anyBad l)) := by
      refine (hgot hnext hread rfl).trans ?_
      rw [kldVal_eq]
      rfl
    exact ⟨fun hnext => ⟨fun u l hread => hdata hnext hread, fun leaf pa hspan harrived => hdata hnext (RowAt.read_here harrived hspan),
      fun u hread => hgot hnext hread rfl, fun u e hread => hgot hnext hread rfl⟩, fun hnext => runCopy_ok hc (kldBody_failNext hx hnext)⟩

end Sys2Proof.Machine
end

section
/-! PROOFS. Transfer rows (R269 to R271): they join their context's rows. -/
namespace Sys2Proof.Machine

theorem XferRow.rowLenBad_eq_false {r : XferRow} (h : r.lenOk) : rowLenBad r.len = false := by
  obtain ⟨hmod, hlow, hhigh⟩ := h
  simp [rowLenBad, hmod, Nat.not_lt.mpr hlow, Nat.not_lt.mpr hhigh]

/-- A row joins its context's rows in any mode that lets it write where it does, if the post's latch can count its sectors (R269). -/
theorem XferRow.issueRow_ok {s : State} {c : CopyCtx} {r : XferRow}
    (hmode : ((∃ v, r.dst = .global v) ∨ r.versioned ≠ none) → ((s.launch? c.launch).map (·.pkt.mode)).getD 0 = 0)
    (hlatch : ∀ o, c.latch = some o → latchValid (s.latch c.crew o) = true ∧ latchSect (s.latch c.crew o) + rowSectors r.dst r.len < 2 ^ 32 ∧
      latchArrive (s.latch c.crew o) < 2 ^ 20) :
    issueRow s c r.src r.dst r.len r.fail r.versioned r.steps = .ok (s.rowLatch c { add := rowSectors r.dst r.len })
      (r.steps.foldl CopyCtx.stepGen { c with rows := c.rows ++ [r.row c] }) := by
  unfold issueRow
  refine (if_neg ?mode).trans ((if_neg ?latch).trans rfl)
  case mode =>
    rw [Bool.and_eq_true, Bool.or_eq_true, bne_iff_ne]
    rintro ⟨hwrites, hne⟩
    refine hne (hmode (hwrites.imp (fun hglobal => ?_) (fun hversioned hnone => by simp [hnone] at hversioned)))
    split at hglobal
    · exact ⟨_, ‹_›⟩
    · cases hglobal
  case latch =>
    split
    case h_1 o ho =>
      obtain ⟨hvalid, hsect, harrive⟩ := hlatch o ho
      simp only [hvalid, LatchUpd.over, Nat.add_zero, decide_eq_false (Nat.not_le.mpr hsect), decide_eq_false (Nat.not_le.mpr harrive)]
      decide
    case h_2 => exact Bool.false_ne_true

/-- A transfer row of a legal length issues the row that its table gives. -/
theorem exec_xferRow {i : Instr} {s t : State} {core ix : Nat} {c d : CopyCtx} {r : XferRow} (hr : xferRow s c i = some r)
    (hc : CopyIssues s core ix c r.srcs) (hlen : r.lenOk) (hissue : issueRow s c r.src r.dst r.len r.fail r.versioned r.steps = .ok t d) :
    exec i s = .next (State.copyNext core ix i t d) := by
  have hlegal : ¬ rowLenBad r.len = true := Bool.eq_false_iff.mp (XferRow.rowLenBad_eq_false hlen)
  unfold xferRow at hr
  split at hr
  case h_7 => cases hr
  -- XTRAN, whose slot is leased
  case h_4 =>
    split at hr
    case h_2 => cases hr
    case h_1 hx =>
      split at hr
      case isFalse => cases hr
      case isTrue hleased =>
        cases hr
        unfold exec
        refine runCopy_ok hc ?_
        simp only [hx, if_neg (Nat.not_le.mpr hleased)]
        exact hissue
  -- XFILL, which reads no generator
  case h_5 =>
    split at hr
    case h_2 => cases hr
    case h_1 hy =>
      cases hr
      unfold exec
      refine runCopy_ok hc ?_
      simp only [hy]
      exact (if_neg hlegal).trans hissue
  -- XCOPYV, whose length is that of a line
  case h_6 =>
    split at hr
    case h_2 => cases hr
    case h_1 hx hy =>
      cases hr
      unfold exec
      refine runCopy_ok hc ?_
      simp only [hx, hy]
      exact hissue
  all_goals
    split at hr
    case h_2 => cases hr
    case h_1 hx hy =>
      cases hr
      unfold exec
      refine runCopy_ok hc ?_
      simp only [hx, hy]
      exact (if_neg hlegal).trans hissue

/-- Settles O36. -/
theorem transferRowsComplete : Obligations.TransferRowsComplete :=
  fun _ _ _ _ _ _ hr hc hlen hmode hlatch => exec_xferRow hr hc hlen (XferRow.issueRow_ok hmode hlatch)

end Sys2Proof.Machine
end

section
/-! PROOFS. Kicks (R321, R322, R402), the restart of a queue that has been put into service (R320), and pre-emption requests (R333, R334). -/
namespace Sys2Proof.Machine

/- The restart of a queue (R320) -/

@[simp] theorem State.setQ_fatal (s : State) (q ofs x : Nat) : (s.setQ q ofs x).fatal = s.fatal := State.physWrite_fatal ..
@[simp] theorem State.setQ_qtbase (s : State) (q ofs x : Nat) : (s.setQ q ofs x).qtbase = s.qtbase := State.physWrite_qtbase ..
@[simp] theorem State.setQ_qFresh (s : State) (q ofs x : Nat) : (s.setQ q ofs x).qFresh = s.qFresh := State.physWrite_qFresh ..
@[simp] theorem State.setQ_kicks (s : State) (q ofs x : Nat) : (s.setQ q ofs x).kicks = s.kicks := State.physWrite_kicks ..

theorem State.memReady_of_readyBits {s t : State} (h : t.readyBits = s.readyBits) (pa : Nat) : t.memReady pa = s.memReady pa := by
  unfold State.memReady State.dieReady
  rw [h]

theorem State.restartQ_of_old {s : State} {q : Nat} (h : s.qFresh.getLsbD q = false) : s.restartQ q = s :=
  if_neg (Bool.eq_false_iff.mp h)

@[simp] theorem State.restartQ_fatal (s : State) (q : Nat) : (s.restartQ q).fatal = s.fatal := by
  unfold State.restartQ
  split
  · simp only [State.setQ_fatal]
  · rfl

@[simp] theorem State.restartQ_qaddr (s : State) (q k : Nat) : (s.restartQ q).qaddr k = s.qaddr k := by
  have hbase : (s.restartQ q).qtbase = s.qtbase := by
    unfold State.restartQ
    split
    · simp only [State.setQ_qtbase]
    · rfl
  unfold State.qaddr
  rw [hbase]

@[simp] theorem State.restartQ_memReady (s : State) (q pa : Nat) : (s.restartQ q).memReady pa = s.memReady pa :=
  State.memReady_of_readyBits (restartQ_sameInbox s q).readyBits pa

/-- A restart is noted: the queue does not count as newly put into service after it. -/
theorem State.restartQ_qFresh (s : State) (q : BitVec 6) : (s.restartQ q.toNat).qFresh.getLsbD q.toNat = false := by
  unfold State.restartQ
  split
  · have hq : q.toNat < 64 := q.isLt
    simp only [State.setQ_qFresh, BitVec.getLsbD_and, BitVec.getLsbD_not, getLsbD_oneBit, hq, decide_true, Bool.and_self, Bool.not_true, Bool.and_false]
  · next h => exact Bool.eq_false_iff.mpr h

theorem State.restartQ_idem (s : State) (q : BitVec 6) : (s.restartQ q.toNat).restartQ q.toNat = s.restartQ q.toNat :=
  State.restartQ_of_old (s.restartQ_qFresh q)

/- Kicks (R321, R322, R402) -/

/-- The value of a kick is in the window of a queue in service: from WIDX up to DONE plus the slots (R321). -/
def State.InWindow (s : State) (q : Nat) (w : DWord) : Prop :=
  w.toNat < 2 ^ 48 ∧ s.qEn q = true ∧ s.qWidx q ≤ w.toNat ∧ w.toNat ≤ s.qDone q + s.qLen q

section
variable {s : State} {q : Nat} {w : DWord}

theorem State.inWindow_iff :
    (decide (w.toNat < 2 ^ 48) && s.qEn q && decide (s.qWidx q ≤ w.toNat) && decide (w.toNat ≤ s.qDone q + s.qLen q)) = true ↔ s.InWindow q w := by
  simp only [State.InWindow, Bool.and_eq_true, decide_eq_true_eq, and_assoc]

theorem State.kickNow_moves (h : (s.restartQ q).InWindow q w) : s.kickNow q w none = (s.restartQ q).setQ q 24 w.toNat :=
  if_pos (State.inWindow_iff.mpr h)

/-- A peer's kick that moves WIDX is recorded with the packets that it made available (R322). -/
theorem State.kickNow_records (h : (s.restartQ q).InWindow q w) (e : Acl) :
    s.kickNow q w (some e) = { (s.restartQ q).setQ q 24 w.toNat with
      kicks := (s.restartQ q).kicks ++ [{ q := q, lo := (s.restartQ q).qWidx q, hi := w.toNat, entry := e }] } := by
  refine (if_pos (State.inWindow_iff.mpr h)).trans ?_
  dsimp only
  rw [State.setQ_kicks]

theorem State.kickNow_rejected (h : ¬ (s.restartQ q).InWindow q w) (entry : Option Acl) : s.kickNow q w entry = (s.restartQ q).count .kickRejected :=
  if_neg (mt State.inWindow_iff.mp h)

theorem State.kick_ready (h : s.memReady (s.qaddr q) = true) (entry : Option Acl) : s.kick q w entry = s.kickNow q w entry := if_pos h

theorem State.kick_held (h : s.memReady (s.qaddr q) = false) (entry : Option Acl) :
    s.kick q w entry = { s with kicksHeld := s.kicksHeld ++ [(q, w, entry)] } :=
  if_neg (Bool.eq_false_iff.mp h)

end

section
variable {s : State} (hs : s.fatal = none) (peer q : BitVec 6) (w : DWord)
include hs

theorem exec_kickWrite : exec (.kickWrite q w) s = .next (s.kick q.toNat w none) := by
  show execKickWrite q w s = _
  exact alive_none hs

theorem exec_peerKick {e : Acl} (he : s.aclFor peer q = some e) : exec (.peerKick peer q w) s = .next (s.kick q.toNat w (some e)) := by
  show execPeerKick peer q w s = _
  refine (alive_none hs).trans ?_
  simp only [he]

theorem exec_peerKick_stranger (he : s.aclFor peer q = none) : exec (.peerKick peer q w) s = .next (s.count .kickRejected) := by
  show execPeerKick peer q w s = _
  refine (alive_none hs).trans ?_
  simp only [he]

end

/- Pre-emption requests (R333, R334) -/

theorem State.request_idle {s : State} (h : s.busyPre = false) (op core n : Nat) (f : State → State) :
    s.request op core n f = (f (s.preStart op core n)).preDone :=
  if_neg (Bool.eq_false_iff.mp h)

theorem State.request_busy {s : State} (h : s.busyPre = true) (op core n : Nat) (f : State → State) : s.request op core n f = s.count .preemptRejected :=
  if_pos h

section
variable {s : State} (hs : s.fatal = none) (q : BitVec 6) (seq : BitVec 48) (n : BitVec 10) (core : BitVec 9)
include hs

theorem exec_preemptVacateLaunch : exec (.preemptVacateLaunch q seq n) s =
    .next ({ s with pre0 := preWord0 q seq }.request 0 0 n.toNat (fun s => s.vacateLaunch q.toNat seq.toNat n.toNat)) := by
  show execPreemptVacateLaunch q seq n s = _
  exact alive_none hs

theorem exec_preemptVacateCore : exec (.preemptVacateCore core) s =
    .next ({ s with pre0 := 0 }.request 1 core.toNat 0 (fun s => s.vacateCore core.toNat)) := by
  show execPreemptVacateCore core s = _
  exact alive_none hs

theorem exec_preemptReopenLaunch : exec (.preemptReopenLaunch q seq) s =
    .next ({ s with pre0 := preWord0 q seq }.request 2 0 0 (fun s => s.reopenLaunch q.toNat seq.toNat)) := by
  show execPreemptReopenLaunch q seq s = _
  exact alive_none hs

theorem exec_preemptReopenCore : exec (.preemptReopenCore core) s =
    .next ({ s with pre0 := 0 }.request 3 core.toNat 0 (fun s => s.reopenCore core.toNat)) := by
  show execPreemptReopenCore core s = _
  exact alive_none hs

end

theorem State.vacateCore_closes (s : State) (core : Nat) : ((s.vacateCore core).core core).closed = true :=
  congrArg Core.closed ((s.vacate [core] (fun _ => true)).core_modCore core _)

theorem State.reopenCore_opens (s : State) (core : Nat) : ((s.reopenCore core).core core).closed = false :=
  congrArg Core.closed (s.core_modCore core _)

theorem Crew.vacates_iff {c : Crew} : c.vacates = true ↔ c.stat = .running ∨ (c.stat = .retired ∧ c.freed = false) := by
  unfold Crew.vacates
  cases c.stat <;> simp

/-- A crew of a selected launch that the vacated cores hold is saved (R334). -/
theorem State.mem_vacate_preCrews {s : State} {k : Nat} {c : Crew} {cores : List Nat} {mine : Nat → Bool} (hc : s.crew? k = some c)
    (hvacates : c.vacates = true) (hmine : mine c.launch = true) (hcore : c.core ∈ cores) : k ∈ (s.vacate cores mine).preCrews := by
  have hmem : (k, c) ∈ s.crews := Tab.mem_of_get? hc
  have hband : (c.launch, c.band) ∈
      (s.crews.filter (fun x => mine x.2.launch && x.2.vacates && cores.contains x.2.core)).map (fun x => (x.2.launch, x.2.band)) :=
    List.mem_map.mpr ⟨(k, c), List.mem_filter.mpr ⟨hmem, by simp [hmine, hvacates, hcore]⟩, rfl⟩
  refine List.mem_append_right _ (List.mem_map.mpr ⟨(k, c), List.mem_filter.mpr ⟨hmem, ?_⟩, rfl⟩)
  rw [hvacates, Bool.true_and]
  exact List.contains_iff_mem.mpr hband

theorem State.mem_vacateCore_preCrews {s : State} {k : Nat} {c : Crew} (hc : s.crew? k = some c) (hvacates : c.vacates = true) :
    k ∈ (s.vacateCore c.core).preCrews :=
  State.mem_vacate_preCrews (mine := fun _ => true) hc hvacates rfl (List.mem_singleton.mpr rfl)

/-- Settles O40, row by row: kicks by whether the descriptor's memory is ready and the value in the window, requests by whether one runs. -/
theorem kickAndPreemptRows : Obligations.KickAndPreemptRows := by
  intro s q peer w seq n core hs
  refine ⟨State.restartQ_of_old, fun hready => ⟨fun hfits => ?_, fun hout => ?_, fun e he => ⟨fun hfits => ?_, fun hout => ?_⟩⟩,
    fun hwait => ⟨?_, fun e he => ?_⟩, exec_peerKick_stranger hs peer q w, fun hidle => ?idle, fun hbusy => ⟨fun i hi => ?_, fun i hi => ?_⟩⟩
  -- kicks that reach their descriptor
  · rw [exec_kickWrite hs, State.kick_ready hready, State.kickNow_moves hfits]
  · rw [exec_kickWrite hs, State.kick_ready hready, State.kickNow_rejected hout]
  · rw [exec_peerKick hs peer q w he, State.kick_ready hready, State.kickNow_records hfits]
  · rw [exec_peerKick hs peer q w he, State.kick_ready hready, State.kickNow_rejected hout]
  -- kicks that wait for it
  · rw [exec_kickWrite hs, State.kick_held hwait]
  · rw [exec_peerKick hs peer q w he, State.kick_held hwait]
  case idle =>
    have hidle0 (x : DWord) : ({ s with pre0 := x } : State).busyPre = false := hidle
    refine ⟨?_, ?_, ?_, ?_, State.vacateCore_closes .., State.reopenCore_opens .., fun k c hc hcore hstat => ?_⟩
    · rw [exec_preemptVacateLaunch hs, State.request_idle (hidle0 _), preWord0]
    · rw [exec_preemptVacateCore hs, State.request_idle (hidle0 _)]
    · rw [exec_preemptReopenLaunch hs, State.request_idle (hidle0 _), preWord0]
    · rw [exec_preemptReopenCore hs, State.request_idle (hidle0 _)]
    · rw [← hcore]
      exact State.mem_vacateCore_preCrews hc (Crew.vacates_iff.mpr hstat)
  -- a request that meets another
  all_goals
    have hbusy0 (x : DWord) : ({ s with pre0 := x } : State).busyPre = true := hbusy
    simp only [List.mem_cons, List.not_mem_nil, or_false] at hi
    rcases hi with rfl | rfl
  · rw [exec_preemptVacateLaunch hs, State.request_busy (hbusy0 _), preWord0]
  · rw [exec_preemptReopenLaunch hs, State.request_busy (hbusy0 _), preWord0]
  · rw [exec_preemptVacateCore hs, State.request_busy (hbusy0 _)]
  · rw [exec_preemptReopenCore hs, State.request_busy (hbusy0 _)]

end Sys2Proof.Machine
end

section
/-! PROOFS. Take-up (R320, R325, R326, R366, R367, R402) and the completion of a launch (R327). -/
namespace Sys2Proof.Machine

/-- The eight argument words of a packet, from the number that their 64 bytes make (R324). -/
def argWords (a : Nat) : List DWord := (List.range 8).map (fun k => BitVec.ofNat 64 (a / 2 ^ (64 * k)))

/-- The packet is of a SPAN launch (R324). -/
abbrev IsSpan (x : Nat) : Prop := bitField (pktField x 1 1) 1 0 = 2

/-- No packet but a LAUNCH or a MARKER keeps the rules (R325). -/
theorem pktKind_le_one {x q seq : Nat} {p : Packet} (h : packetBad x q seq p = false) : pktKind x ≤ 1 := by
  unfold packetBad at h
  simp only [Bool.or_eq_false_iff, decide_eq_false_iff_not, Nat.not_lt, and_assoc] at h
  exact h.1

/- The launch that a packet asks for, by what stands against it -/

section
variable {s : State} {q seq x a : Nat}

theorem State.takeLaunch_bad {args : Option Nat} (hbad : packetBad x q seq (packetOf x (argWords (args.getD 0))) = true) :
    s.takeLaunch q seq x args = s.enterDone q seq (packetOf x (argWords (args.getD 0))) 3 :=
  if_pos (Bool.or_eq_true_iff.mpr (.inl hbad))

variable (hgood : packetBad x q seq (packetOf x (argWords a)) = false)
include hgood

/-- A packet that keeps the rules is held against the peer's entry (R322) before its descriptor is looked at. -/
theorem State.takeLaunch_denied (hdenied : s.aclDenied q seq (packetOf x (argWords a)) = true) :
    s.takeLaunch q seq x (some a) = s.enterDone q seq (packetOf x (argWords a)) 5 :=
  (if_neg (Bool.eq_false_iff.mp ((Bool.or_false _).trans hgood))).trans (if_pos hdenied)

variable (hallowed : s.aclDenied q seq (packetOf x (argWords a)) = false)
include hallowed

theorem State.takeLaunch_plain (hplain : ¬ IsSpan x) : s.takeLaunch q seq x (some a) = (s.enter q seq (packetOf x (argWords a)) none).1 :=
  (if_neg (Bool.eq_false_iff.mp ((Bool.or_false _).trans hgood))).trans ((if_neg (Bool.eq_false_iff.mp hallowed)).trans (if_neg hplain))

variable (hspan : IsSpan x) {d : Nat} (hdesc : s.spanDesc (packetOf x (argWords a)).store = some d)
include hspan hdesc

/-- A SPAN packet that nothing else stands against is decided by its descriptor and its seeds (R367). -/
theorem State.takeLaunch_span : s.takeLaunch q seq x (some a) =
    (if descBad d then none else s.seeds d).elim (s.enterDone q seq (packetOf x (argWords a)) 3)
      (fun l => ((s.clearDesc (packetOf x (argWords a)).store).enter q seq (packetOf x (argWords a)) (some { pend := l })).1) := by
  refine (if_neg (Bool.eq_false_iff.mp ((Bool.or_false _).trans hgood))).trans
    ((if_neg (Bool.eq_false_iff.mp hallowed)).trans ((if_pos hspan).trans ?_))
  unfold argWords at hdesc ⊢
  simp only [Option.getD_some, hdesc]
  cases descBad d with
  | true => rfl
  | false => cases s.seeds d <;> rfl

theorem State.takeLaunch_seeded {l : List PendEv} (hlegal : descBad d = false) (hseeds : s.seeds d = some l) : s.takeLaunch q seq x (some a) =
    ((s.clearDesc (packetOf x (argWords a)).store).enter q seq (packetOf x (argWords a)) (some { pend := l })).1 := by
  rw [State.takeLaunch_span hgood hallowed hspan hdesc, hlegal, hseeds]
  rfl

theorem State.takeLaunch_unseeded (hill : descBad d = true ∨ s.seeds d = none) :
    s.takeLaunch q seq x (some a) = s.enterDone q seq (packetOf x (argWords a)) 3 := by
  have hnone : (if descBad d = true then none else s.seeds d) = none := ite_eq_left_iff.mpr hill.resolve_left
  rw [State.takeLaunch_span hgood hallowed hspan hdesc, hnone]
  rfl

end

/- Take-up (R326) -/

theorem State.engineRead_some {s : State} {p : Option (List (Nat × Nat))} {x : Nat} (h : s.engineRead p = some x) : ∃ l, p = some l := by
  cases p with
  | none => cases h
  | some l => exact ⟨l, rfl⟩

section
variable {s : State} {q : BitVec 6} {x a : Nat} (h : TakesUp s q x a)
include h

/-- Nothing before the packet's own conditions holds its take-up back, and the queue engine reads arguments only for a LAUNCH packet (R325). -/
theorem TakesUp.exec_takePacket :
    exec (.takeUp q) s = .next (s.takePacket q.toNat (s.qRidx q.toNat) (some x) (if pktKind x = 0 then some a else none)) := by
  show execTakeUp q s = _
  refine (alive_none h.whole).trans (congrArg _ ?_)
  obtain ⟨slot, hslot⟩ := State.engineRead_some h.packet
  have hpacket := h.packet
  have hmapped := h.slotMapped
  unfold State.slotAddr at hslot hpacket hmapped
  have himage : s.noImage = false := by rw [State.noImage, h.image]; rfl
  have hholds : (!s.qEn q.toNat || decide (s.qWidx q.toNat ≤ s.qRidx q.toNat)) = false := by simp [h.enabled, h.behind]
  simp only [h.table, State.restartQ_of_old h.old, h.mbox, himage, hholds, hmapped, hpacket, Option.map_some, Option.getD_some, Bool.not_true,
    Bool.or_self, Bool.false_or, Bool.false_eq_true, if_false, if_true]
  rw [hslot]
  by_cases hkind : pktKind x = 0
  · obtain ⟨args, hargs⟩ := State.engineRead_some (h.words hkind)
    have hwords := h.words hkind
    have hready := h.ready slot args hslot (by rw [if_pos hkind]; exact hargs)
    rw [hargs] at hwords
    simp only [hkind, true_and] at hready
    simp only [hkind, h.argsMapped hkind, hargs, hwords, hready, beq_self_eq_true, Bool.true_and, Bool.false_eq_true, if_true, if_false, beq_iff_eq,
      Option.getD_some]
  · have hready := h.ready slot [] hslot (by rw [if_neg hkind])
    have hlaunch : (pktKind x == 0) = false := beq_eq_false_iff_ne.mpr hkind
    simp only [hkind, false_and, if_false] at hready
    simp only [hlaunch, hkind, hready, Bool.false_and, Bool.false_eq_true, if_false, Option.getD_some, Option.getD_none]
    rfl

/-- Neither PHASE nor WAITFOR holds the packet back (R326). -/
theorem TakesUp.takePacket_due (args : Option Nat) : s.takePacket q.toNat (s.qRidx q.toNat) (some x) args =
    if pktKind x = 1 then
      s.enterDone q.toNat (s.qRidx q.toNat) { packetOf x [] with part := 0 } (if selfWait x q.toNat (s.qRidx q.toNat) then 3 else 1)
    else if IsSpan x ∧ !s.readyBits.getLsbD 21 then s
    else s.takeLaunch q.toNat (s.qRidx q.toNat) x args := by
  refine if_neg ?_
  have hphase := h.phase
  have hwaits : ¬ (waitOn x = true ∧ selfWait x q.toNat (s.qRidx q.toNat) = false ∧ s.qDone (waitQueue x) ≤ waitSeq x) :=
    fun ⟨hon, hother, hundone⟩ => Nat.not_lt.mpr hundone (h.waits hon hother)
  simpa [hphase] using hwaits

theorem TakesUp.exec_marker (hkind : pktKind x = 1) : exec (.takeUp q) s = .next (s.enterDone q.toNat (s.qRidx q.toNat) { packetOf x [] with part := 0 }
    (if selfWait x q.toNat (s.qRidx q.toNat) = true then 3 else 1)) := by
  rw [h.exec_takePacket, h.takePacket_due, if_pos hkind]

/-- A SPAN packet waits for its engine (R402). -/
theorem TakesUp.exec_spanWaits (hkind : pktKind x = 0) (hspan : IsSpan x) (hengine : s.readyBits.getLsbD 21 = false) : exec (.takeUp q) s = .next s := by
  rw [h.exec_takePacket, h.takePacket_due, if_neg (by omega), if_pos ⟨hspan, by rw [hengine]; rfl⟩]

variable (hengine : IsSpan x → s.readyBits.getLsbD 21 = true)
include hengine

/-- A packet that is no MARKER, and whose engine is ready, is taken for a launch. -/
theorem TakesUp.exec_takeLaunch (hkind : pktKind x ≠ 1) :
    exec (.takeUp q) s = .next (s.takeLaunch q.toNat (s.qRidx q.toNat) x (if pktKind x = 0 then some a else none)) := by
  rw [h.exec_takePacket, h.takePacket_due, if_neg hkind, if_neg]
  rintro ⟨hspan, hout⟩
  rw [hengine hspan] at hout
  cases hout

theorem TakesUp.exec_launch (hkind : pktKind x = 0) : exec (.takeUp q) s = .next (s.takeLaunch q.toNat (s.qRidx q.toNat) x (some a)) := by
  rw [h.exec_takeLaunch hengine (by omega), if_pos hkind]

theorem TakesUp.exec_bad (hkind : pktKind x ≠ 1) (hbad : packetBad x q.toNat (s.qRidx q.toNat) (packetOf x (argWords a)) = true) :
    exec (.takeUp q) s = .next (s.enterDone q.toNat (s.qRidx q.toNat) (packetOf x (argWords a)) 3) := by
  have hargs : (if pktKind x = 0 then some a else none).getD 0 = a := by
    split
    · rfl
    · next hnone => exact (h.none_ hnone).symm
  rw [← hargs] at hbad
  rw [h.exec_takeLaunch hengine hkind, State.takeLaunch_bad hbad, hargs]

end

/-- A queue just put into service starts its numbers at 0 before it is looked at (R320). -/
theorem exec_takeUp_restartQ {s : State} {q : BitVec 6} (hs : s.fatal = none) (hready : s.memReady (s.qaddr q.toNat) = true) :
    exec (.takeUp q) s = exec (.takeUp q) (s.restartQ q.toNat) := by
  show execTakeUp q s = execTakeUp q (s.restartQ q.toNat)
  have hs' : (s.restartQ q.toNat).fatal = none := by rw [State.restartQ_fatal, hs]
  have hready' : (s.restartQ q.toNat).memReady ((s.restartQ q.toNat).qaddr q.toNat) = true := by rw [State.restartQ_memReady, State.restartQ_qaddr, hready]
  refine (alive_none hs).trans (.trans ?_ (alive_none hs').symm)
  simp only [hready, hready', State.restartQ_idem, if_true]

/- The completion of a launch (R327) -/

/-- A launch with nothing left completes once its queue's descriptor, its completion word and, of a SPAN launch, its descriptor are in memory that is ready. -/
theorem exec_launchComplete {s : State} {k : Nat} {l : Launch} (hs : s.fatal = none) (hl : s.launch? k = some l) (hopen : l.done = false)
    (hmem : s.anyNotReady ((s.qaddr l.q, 64) :: (s.qStat l.q, 8) :: (if l.span.isSome then [(l.pkt.store, 128)] else [])) = false)
    (hover : s.launchOver k l = true) :
    exec (.launchComplete k) s = .next ((s.clearLaunch k).finishLaunch k (if l.overflow then 4 else if l.records then 2 else 1)) := by
  show execLaunchComplete k s = _
  refine (alive_none hs).trans ?_
  simp only [hl, hopen, hmem, hover, Bool.not_true, Bool.or_false, Bool.false_eq_true, if_false]

theorem State.anyNotReady_cons {s : State} {p : Nat × Nat} {l : List (Nat × Nat)} :
    s.anyNotReady (p :: l) = false ↔ (s.memReady p.1 = true ∧ s.memReady (p.1 + p.2 - 1) = true) ∧ s.anyNotReady l = false := by
  simp [State.anyNotReady]

/-- Settles O42, by the packet's kind and what stands against it. -/
theorem queueRows : Obligations.QueueRows := by
  refine ⟨fun s q x a h => ⟨fun hkind hplain hgood hallowed => ?plain, fun hkind hspan hengine hgood hallowed =>
      ⟨fun d l hdesc hlegal hseeds => ?seeded, fun d hdesc hill => ?unseeded⟩,
      h.exec_spanWaits, fun hkind hengine hbad => h.exec_bad hengine hkind hbad, fun hkind hengine hgood hdenied => ?denied, h.exec_marker⟩,
    fun s q => exec_takeUp_restartQ, fun s k l hs hl hopen hfirst hlast hstat hdesc hover => ?complete⟩
  case plain => rw [h.exec_launch (fun hspan => absurd hspan hplain) hkind, State.takeLaunch_plain hgood hallowed hplain]; rfl
  case seeded => rw [h.exec_launch (fun _ => hengine) hkind, State.takeLaunch_seeded hgood hallowed hspan hdesc hlegal hseeds]; rfl
  case unseeded => rw [h.exec_launch (fun _ => hengine) hkind, State.takeLaunch_unseeded hgood hallowed hspan hdesc hill]; rfl
  case denied =>
    have hlaunch : pktKind x = 0 := by
      have := pktKind_le_one hgood
      omega
    rw [h.exec_launch hengine hlaunch, State.takeLaunch_denied hgood hdenied]; rfl
  case complete =>
    refine exec_launchComplete hs hl hopen (State.anyNotReady_cons.mpr ⟨⟨hfirst, hlast⟩, ?_⟩) hover
    refine State.anyNotReady_cons.mpr ⟨(State.anyNotReady_cons.mp hstat).1, ?_⟩
    split
    · next hspan => exact hdesc hspan
    · rfl

end Sys2Proof.Machine
end

section
/-! PROOFS. After a fatal error nothing is served: each engine row, mailbox command and register write leaves the state, and what arrives from outside meets only
BAR0, the transom symbols and the gang table (R361). -/
namespace Sys2Proof.Machine

/-- A row with a shape has words. -/
theorem isCode_of_shape {i : Instr} {sh : Shape} (h : shape? i = some sh) : isCode i = true := by
  unfold isCode
  rw [encode_of_shape h]
  rfl

/-- After a fatal error no row that a step may run by itself has an effect, but for module reset. -/
theorem exec_of_fatal {s : State} (hs : s.fatal.isSome = true) {i : Instr} (hcode : isCode i = false) (hreset : i ≠ .moduleReset) :
    exec i s = .next s := by
  have hunserved : (s.fatal.isSome || !s.readyBits.getLsbD 0) = true := by rw [hs, Bool.true_or]
  have hwordless {sh : Shape} (h : shape? i = some sh) : False := Bool.false_ne_true (hcode.symm.trans (isCode_of_shape h))
  cases i
  case moduleReset => exact absurd rfl hreset
  case flitRetry => rfl
  -- the mailbox
  case writeVirtual | writePhysical | writeRegister | readVirtual | readPhysical | readRegister | kick | grantSync | resolveReplay | resolveFail | preempt =>
    exact if_pos hunserved
  -- a register write, kicks and pre-emption, the links, the queues, the scheduler and the engines, upsets and bring-up
  case registerWrite | kickWrite | preemptVacateLaunch | preemptVacateCore | preemptReopenLaunch | preemptReopenCore | peerKick | farAccess | farResponse
    | farTimeout | farRefused | takeUp | launchComplete | admitBand | bandBlocking | crewRetire | crewCommit | registerGrant | registerDeadlockPark
    | gangRestore | crewRestore | tokenGrant | mmulStreamEnd | transomRefetch | pageWalk | faultRecordPost | grantFill | memoryAccessComplete
    | copyContextGrant | copyRowComplete | copyPostComplete | latchPoll | sleepWake | pwaitExpiry | issueSelect | handlerRunStart | shadowCompare
    | spanGather | spanCommit | scrub | schedRecovery | fatalError | thermalTrip | setPowerLimit | imageLoad | functionReady | variableLatencyResult
    | crewSaveComplete | channelEnableWrite | dvorlekPortDown | dvorlekPortRejoin =>
    exact congrArg Host.Outcome.next (if_pos hs)
  -- rows with words
  case undef => cases hcode
  case fsgn op _ _ _ => cases op <;> exact (hwordless rfl).elim
  case fpack x => cases x <;> exact (hwordless rfl).elim
  case lredx b => cases b <;> exact (hwordless rfl).elim
  case redx x => cases x <;> exact (hwordless rfl).elim
  all_goals exact (hwordless rfl).elim

/-- A record of the command window is a mailbox command, never a reset of the module. -/
theorem commandOf_ne_moduleReset (link : BitVec 1) (rec : Nat) (mem : List Byte) : commandOf link rec mem ≠ .moduleReset := by
  unfold commandOf
  dsimp only
  generalize bitField rec 7 0 = op, bitField rec 95 80 % 4 = space, bitField rec 95 80 / 256 % 4 = how,
    (if (bitField rec 95 80).testBit 15 = true then some link else none) = irq
  split
  · exact nofun
  · split
    case h_1 | h_2 | h_3 | h_4 | h_5 | h_6 => split <;> exact nofun
    all_goals exact nofun

/-- A write of BAR0 reaches BAR0 of one link. -/
theorem State.setBar_eq (s : State) (link : BitVec 1) (m : Store 8) : ∃ bar0 bar1, s.setBar link m = { s with bar0 := bar0, bar1 := bar1 } := by
  unfold State.setBar
  split
  · exact ⟨_, s.bar1, rfl⟩
  · exact ⟨s.bar0, _, rfl⟩

/-- What reaches the module from outside after a fatal error changes BAR0, what is submitted, what the host is told, a lease or the gang table. -/
theorem State.meets_of_fatal {s : State} (hs : s.fatal.isSome = true) (hsub : Instr.moduleReset ∉ s.submitted) (x : Outside) :
    ∃ sub host bar0 bar1 leases gangs, Instr.moduleReset ∉ sub ∧
      s.meets x = { s with submitted := sub, host := host, bar0 := bar0, bar1 := bar1, leases := leases, gangs := gangs } := by
  cases x with
  | barWrite link ofs bytes mem =>
    have hadd (r : Nat) : Instr.moduleReset ∉ s.submitted ++ [commandOf link r mem] := fun h =>
      (List.mem_append.mp h).elim hsub fun h => commandOf_ne_moduleReset link r mem (List.mem_singleton.mp h).symm
    unfold State.meets State.barWrite
    obtain ⟨bar0, bar1, heq⟩ := s.setBar_eq link _
    dsimp only
    rw [heq]
    split
    · exact ⟨_, _, _, _, _, _, hadd _, rfl⟩
    · exact ⟨_, _, _, _, _, _, hsub, rfl⟩
  | barRead link ofs n => exact ⟨_, _, _, _, _, _, hsub, rfl⟩
  | clearAcl n => exact ⟨_, _, _, _, _, _, hsub, if_pos hs⟩
  | transomUpset core launch slot symbol => exact ⟨_, _, _, _, _, _, hsub, rfl⟩
  | tableUpset core slot =>
    cases hg : s.gang? core slot with
    | some g => exact ⟨_, _, _, _, _, _, hsub, State.modGang_some _ hg⟩
    | none => exact ⟨_, _, _, _, _, _, hsub, by simp only [State.meets, State.modGang, hg]; rfl⟩

section
variable {s : State} (hs : s.fatal.isSome = true) (ho : s.outside = []) {i : Instr} (hreset : i ≠ .moduleReset) {l : List Instr}
include hs ho hreset

/-- After a fatal error a row of the agenda is passed over. -/
theorem step_agenda_of_fatal (ha : s.agenda = i :: l) : step s = .next { s with agenda := l } := by
  cases hcode : isCode i with
  | false => rw [step_agenda ho ha hcode, exec_of_fatal (s := { s with agenda := l }) hs hcode hreset]
  | true => simp only [step, ho, ha, hcode, if_true]

/-- After a fatal error a submitted record is passed over. -/
theorem step_submitted_of_fatal (ha : s.agenda = []) (hq : s.submitted = i :: l) : step s = .next { s with submitted := l } := by
  cases hcode : isCode i with
  | false => rw [step_submitted ho ha hq hcode, exec_of_fatal (s := { s with submitted := l }) hs hcode hreset]
  | true => simp only [step, ho, ha, hq, hcode, if_true]

end

/-- What the freeze asks of a step (R361). -/
def KeepsFrozen (code : Nat) (s : State) : Prop :=
  ∃ t, step s = .next t ∧ Frozen code t ∧
    (s.outside = [] → t = { s with agenda := t.agenda, submitted := t.submitted }) ∧
    t = { s with
      agenda := t.agenda, submitted := t.submitted, outside := t.outside, host := t.host, bar0 := t.bar0, bar1 := t.bar1, leases := t.leases
      gangs := t.gangs }

/-- A step that only takes from what was waiting to happen keeps the freeze. -/
theorem keepsFrozen_of_passed {code : Nat} {s : State} {a q : List Instr} (hstep : step s = .next { s with agenda := a, submitted := q })
    (hcode : s.fatal = some code) (ha : Instr.moduleReset ∉ a) (hq : Instr.moduleReset ∉ q) : KeepsFrozen code s :=
  ⟨_, hstep, ⟨hcode, ha, hq⟩, fun _ => rfl, rfl⟩

/-- A step that meets what has reached the module from outside keeps the freeze. -/
theorem keepsFrozen_of_outside {code : Nat} {s : State} (h : Frozen code s) {x : Outside} {o : List Outside} (ho : s.outside = x :: o) :
    KeepsFrozen code s := by
  obtain ⟨hcode, hagenda, hsub⟩ := h
  obtain ⟨sub, host, bar0, bar1, leases, gangs, hsub', heq⟩ := State.meets_of_fatal (s := { s with outside := o }) (by rw [hcode]; rfl) hsub x
  refine ⟨_, step_outside ho, ?_⟩
  rw [heq]
  exact ⟨⟨hcode, hagenda, hsub'⟩, fun h => absurd (ho.symm.trans h) (List.cons_ne_nil x o), rfl⟩

/-- By what goes first in the step: what comes from outside, the agenda, the submitted records, or nothing. -/
theorem Frozen.keepsFrozen {code : Nat} {s : State} (h : Frozen code s) : KeepsFrozen code s := by
  have ⟨hcode, hagenda, hsub⟩ := h
  have hs : s.fatal.isSome = true := by rw [hcode]; rfl
  match ho : s.outside, ha : s.agenda, hq : s.submitted with
  | x :: o, _, _ => exact keepsFrozen_of_outside h ho
  | [], i :: l, _ =>
    rw [ha, List.mem_cons, not_or] at hagenda
    exact keepsFrozen_of_passed (step_agenda_of_fatal hs ho (Ne.symm hagenda.1) ha) hcode hagenda.2 hsub
  | [], [], i :: l =>
    rw [hq, List.mem_cons, not_or] at hsub
    exact keepsFrozen_of_passed (step_submitted_of_fatal hs ho (Ne.symm hsub.1) ha hq) hcode hagenda hsub.2
  | [], [], [] =>
    have hstep : step s = .next s := by simp only [step, ho, ha, hq, hs, if_true]
    exact keepsFrozen_of_passed hstep hcode hagenda hsub

/-- Settles O57, by what goes first in the step. -/
theorem frozenKept : Obligations.FrozenKept := fun _ _ h => h.keepsFrozen

end Sys2Proof.Machine
end

section
/-! PROOFS. What stands against an instruction before its effect: its place (R63, R64, R348), and the checks of R340 in their order (R49, R56, R109, R357). -/
namespace Sys2Proof.Machine

/- The checks of an instruction whose turn has come -/

section
variable {i : Instr} {s : State} {g : Gang} (h : Steps s g)
include h

theorem Steps.not_imprecise : s.imprecise g (g.active (shape i)) (g.next (shape i)) = none := by rw [State.imprecise, h.noFailed]

/-- The current gang issues its instruction when its turn has come. -/
theorem Steps.runGang_eq (bad : State → Gang → Bool) (body : State → Gang → LaneMask → Res) : runGang i s bad body = .next (issue i s g (bad s g) body) := by
  simp only [runGang, h.here, h.placed, h.mayIssue, if_true]

/-- What is illegal where it stands stops its gang, whatever else would stand against it (R340). -/
theorem Steps.runGang_illegal {bad : State → Gang → Bool} (hb : bad s g = true) (body : State → Gang → LaneMask → Res) :
    runGang i s bad body = .next (s.takeStop g 1 (illegalDetail i) (wordsInfo i) (g.active (shape i)) [] g.pc (g.next (shape i))) := by
  rw [h.runGang_eq, hb, issue]
  simp only [Nat.not_lt.mpr h.turn, h.not_imprecise, if_true, if_false]

end

/-- In the handler slot every stop is a double fault (R345). -/
theorem State.takeStop_handler {s : State} {g : Gang} (hg : g.isHandler = true) (cause detail : Nat) (info : DWord) (replay : LaneMask) (codes : Store 4)
    (pc next : VAddr) : s.takeStop g cause detail info replay codes pc next = s.endRun g.core true := if_pos hg

/-- A row that is legal where it stands is issued with nothing against its place. -/
theorem exec_legal {i : Instr} {s : State} {g : Gang} (h : legalAt s g i = true) : ∃ bad body, exec i s = runGang i s bad body ∧ bad s g = false := by
  unfold legalAt at h
  obtain ⟨hplain, hplace⟩ := (Bool.and_eq_true _ _).mp h
  obtain ⟨hcode, hopc⟩ := (Bool.and_eq_true _ _).mp hplain
  have hopc := of_decide_eq_true hopc
  clear h hplain
  cases i
  case undef => cases hplace
  -- the handler slot's alone, or never its own
  case wsel | wrd | wwr | wres => exact ⟨_, _, rfl, congrArg not hplace⟩
  case rgrow | rshr | vrnd | mwld | mmul | maclr | mard | mawr | cpost | cgath | cscat | ccopy | ccopyOut | ccopyTr | cchain | cbar | gbar =>
    exact ⟨_, _, rfl, (Bool.not_eq_true' _).mp hplace⟩
  case evs | evc | evr | evx => exact ⟨_, _, rfl, congrArg not hplace⟩
  case setsr d a =>
    refine ⟨_, _, rfl, ?_⟩
    unfold setsrBad
    split
    · next x => exact (rmodeBad_eq_decide _).trans (decide_eq_false (Nat.not_le.mpr (of_decide_eq_true hplace)))
    · rfl
  -- the copy class
  case kmov | kadd | ksub | kmul | kshl | kshr | kand | kcmp | kbr | kloop | kend | karv | kprom | kld | gset | gstep | xcopy | xgath | xscat | xtran
      | xfill | xcopyv =>
    exact absurd hopc (Nat.not_lt.mpr (Nat.le_of_ble_eq_true rfl))
  -- a row without words is no instruction of a gang; every other one is legal everywhere
  all_goals try cases hcode
  all_goals exact ⟨_, _, rfl, rfl⟩

/- The checks in the terms of their rules -/

section
variable {i : Instr} {s : State} {g : Gang}

theorem Gang.short_iff {sh : Shape} : g.short sh = true ↔ g.schk = true ∧ ∃ p ∈ g.pend, p.ref ∈ sh.reads ++ sh.writes ∧ p.sum < p.lat := by
  simp only [Gang.short, Bool.and_eq_true, List.any_eq_true, List.contains_iff_mem, decide_eq_true_eq]

theorem Gang.unready_iff {sh : Shape} {cyc : Nat} : g.unready sh cyc = true ↔ ∃ p ∈ g.pend, p.ref ∈ sh.reads ++ sh.writes ∧ cyc < p.readyAt := by
  simp only [Gang.unready, Bool.and_eq_true, List.any_eq_true, List.contains_iff_mem, decide_eq_true_eq]

theorem Gang.boarded_iff {sh : Shape} :
    g.boarded sh = true ↔ ∃ b ∈ g.busy, (∃ r ∈ b.refs, r ∈ sh.reads ++ sh.writes) ∨ ∃ r ∈ b.hold, r ∈ sh.writes := by
  simp only [Gang.boarded, Bool.or_eq_true, List.any_eq_true, List.contains_iff_mem]

theorem Gang.readsBad_iff {sh : Shape} :
    g.readsBad sh = true ↔ (∃ r ∈ sh.reads, g.refBad r = true) ∨ g.pcBad = true ∨ g.stackBad sh.opc.toNat = true := by
  simp only [Gang.readsBad, Bool.or_eq_true, List.any_eq_true, or_assoc]

end

/- What the checks come to, in their order (R340) -/

section
variable {i : Instr} {s : State} {g : Gang} {body : State → Gang → LaneMask → Res} (h : Steps s g) (htoken : g.tokenless (shape i) = false)
include h htoken

theorem issue_regRange (hn : g.n < vTop (shape i)) : issue i s g false body =
    s.takeStop g 2 0 (BitVec.ofNat 64 (vTop (shape i) - 1)) (g.active (shape i)) [] g.pc (g.next (shape i)) := by
  rw [issue]
  simp only [Nat.not_lt.mpr h.turn, h.not_imprecise, htoken, hn, Bool.false_eq_true, if_true, if_false]

variable (hn : vTop (shape i) ≤ g.n)
include hn

theorem issue_short (hshort : g.short (shape i) = true) : issue i s g false body =
    s.takeStop g 3 0 (wordsInfo i) (g.active (shape i)) [] g.pc (g.next (shape i)) := by
  rw [issue]
  simp only [Nat.not_lt.mpr h.turn, h.not_imprecise, htoken, Nat.not_lt.mpr hn, hshort, Bool.false_eq_true, if_true, if_false]

variable (hshort : g.short (shape i) = false)
include hshort

theorem issue_unready (hunready : g.unready (shape i) (s.cyc g.core) = true) : issue i s g false body = s := by
  rw [issue]
  simp only [Nat.not_lt.mpr h.turn, h.not_imprecise, htoken, Nat.not_lt.mpr hn, hshort, hunready, Bool.false_eq_true, if_true, if_false]

variable (hunready : g.unready (shape i) (s.cyc g.core) = false)
include hunready

theorem issue_boarded (hboarded : g.boarded (shape i) = true) : issue i s g false body = s.waits g .scoreboard := by
  rw [issue]
  simp only [Nat.not_lt.mpr h.turn, h.not_imprecise, htoken, Nat.not_lt.mpr hn, hshort, hunready, hboarded, Bool.false_eq_true, if_true, if_false]
  rfl

theorem issue_spoiled (hboarded : g.boarded (shape i) = false) (hbad : (g.readsBad (shape i) || g.shadowSpoiled) = true) : issue i s g false body =
    if s.shadowed g.launch && !g.isHandler then s.holdMismatch g else s.poisonScalar g := by
  rw [issue]
  simp only [Nat.not_lt.mpr h.turn, h.not_imprecise, htoken, Nat.not_lt.mpr hn, hshort, hunready, hboarded, hbad, Bool.false_eq_true, if_true, if_false]

end

/-- Settles O12: the checks of a legal row in their order; the window rows outside the handler slot, and the rows that are never its own in it. -/
theorem placeOfInstructions : Obligations.PlaceOfInstructions := by
  refine ⟨fun i s g h hlegal htoken => ?checks, fun i s g h => ⟨fun hwindow hg => ?window, fun hrow hg => ?handler⟩⟩
  case checks =>
    obtain ⟨bad, body, hexec, hbad⟩ := exec_legal hlegal
    have hissue : exec i s = .next (issue i s g false body) := by rw [hexec, h.runGang_eq, hbad]
    intro sh names undersized unready boarded spoiled stops
    have hshort : undersized ↔ g.short sh = true := Gang.short_iff.symm
    have hunready : unready ↔ g.unready sh (s.cyc g.core) = true := Gang.unready_iff.symm
    have hboarded : boarded ↔ g.boarded sh = true := Gang.boarded_iff.symm
    have hspoiled : spoiled ↔ (g.readsBad sh || g.shadowSpoiled) = true := by
      rw [Bool.or_eq_true, Gang.readsBad_iff, or_assoc, or_assoc]
    rw [hissue, hshort, hunready, hboarded, hspoiled]
    simp only [Bool.not_eq_true]
    refine ⟨fun hn => by rw [issue_regRange h htoken hn], fun hn => ⟨fun hs => by rw [issue_short h htoken hn hs], fun hs hu => by rw [issue_unready h htoken hn hs hu],
      fun hs hu hb => by rw [issue_boarded h htoken hn hs hu hb], fun hs hu hb hbad => ?_⟩⟩
    rw [issue_spoiled h htoken hn hs hu hb hbad]
    refine ⟨fun hg => ?_, fun hg hsh => ?_, fun hg hsh => ⟨fun he => ?_, fun he => ?_⟩⟩
    · rw [hg, Bool.not_true, Bool.and_false, if_neg Bool.false_ne_true, State.poisonScalar, if_pos hg]
    · rw [hg, hsh]
      rfl
    · simp only [hg, hsh, he, State.poisonScalar, Bool.false_and, Bool.false_eq_true, if_false, if_true]
    · simp only [hg, hsh, he, State.poisonScalar, Bool.false_and, Bool.false_eq_true, if_false]
  case window =>
    have hoff : onlyHandler s g = true := congrArg not hg
    cases i
    case wsel | wrd | wwr | wres => exact h.runGang_illegal hoff _
    all_goals exact hwindow.elim
  case handler =>
    rw [← State.takeStop_handler hg 1 0 (wordsInfo i) (g.active (shape i)) [] g.pc (g.next (shape i))]
    cases i
    case rgrow | rshr | vrnd | mwld | mmul | maclr | mard | mawr | cpost | cgath | cscat | ccopy | ccopyOut | ccopyTr | cchain | cbar | gbar =>
      exact h.runGang_illegal hg _
    all_goals exact hrow.elim

/- TRAP, the undefined opcode and EXIT -/

/-- TRAP completes and then stops its gang before the next instruction (R350). -/
theorem runGang_stop {i : Instr} {s t : State} {g v : Gang} {info : DWord} {replay : LaneMask} {bad : State → Gang → Bool}
    {body : State → Gang → LaneMask → Res} (hi : Issues i s g) (hb : bad s g = false) (hr : body s g (g.active (shape i)) = .stop t v info replay) :
    runGang i s bad body = .next (t.takeStop ((v.follow (shape i) (v.live (g.active (shape i))) true).transfer (shape i) (s.cyc g.core) (g.next (shape i)))
      0 0 info replay [] (g.next (shape i)) (g.next (shape i))) := by
  rw [runGang_eq hi hb, hr]
  rfl

/-- Settles O8: TRAP by whether a lane is live and active, the undefined opcode by its place, EXIT as the end of its gang or of the run. -/
theorem trapAndExitRows : Obligations.TrapAndExitRows := by
  refine ⟨fun s g st m a v x y n => ⟨fun hi hlive => ?_, fun hi hlive => ?_, fun hi hnone => ?_, fun hi hnone => ?_, fun h => h.runGang_illegal rfl _⟩,
    fun s g st hi => runGang_gone hi rfl rfl⟩
  · exact runGang_stop hi rfl (if_neg hlive)
  · exact runGang_stop hi rfl (if_neg hlive)
  · exact runGang_jump hi rfl (if_pos hnone)
  · exact runGang_jump hi rfl (if_pos hnone)

end Sys2Proof.Machine
end

section
/-! PROOFS. The event rows of a SPAN launch (R374 to R379). -/
namespace Sys2Proof.Machine

/-- Outside a SPAN launch an event row is illegal, in the handler slot too (R375). -/
theorem notSpan_eq_false {s : State} {g : Gang} (h : s.modeOf g = 2) : notSpan s g = false := by rw [notSpan, h]; rfl
theorem notSpan_eq_true {s : State} {g : Gang} (h : s.modeOf g ≠ 2) : notSpan s g = true := bne_iff_ne.mpr h

/-- Effects for which the buffer and the log have room are entered (R82, R87). -/
theorem State.addEffects_fits {s : State} {k : Nat} {c : Crew} {l : List Eff} (hc : s.crew? k = some c) (hroom : s.hasRoom c (effBytes l) = true) :
    s.addEffects k l = ((s.addEffects k l).1, true) := by
  refine Prod.ext rfl ?_
  simp only [State.addEffects, hc, hroom, if_true]

/-- A fold over lanes whose steps go by each lane's event and change no other lane's. -/
theorem foldl_laneEv {F G : Gang → Nat → Gang} {ev : Nat → LaneEv} (P : Gang → Prop)
    (hstep : ∀ v j, P v → v.laneEv j = some (ev j) → F v j = G v j) (hP : ∀ v j, P v → P (G v j))
    (hkeep : ∀ v j k, k ≠ j → (G v j).laneEv k = v.laneEv k) {l : List Nat} (hl : l.Nodup) :
    ∀ v, P v → (∀ j ∈ l, v.laneEv j = some (ev j)) → l.foldl F v = l.foldl G v := by
  induction hl with
  | nil => exact fun _ _ _ => rfl
  | cons hj _ ih =>
    intro v hv hev
    rw [List.foldl_cons, List.foldl_cons, hstep v _ hv (hev _ List.mem_cons_self)]
    refine ih _ (hP v _ hv) fun k hk => ?_
    rw [hkeep v _ k (hj k hk).symm, hev k (List.mem_cons_of_mem _ hk)]

theorem bitsOn_nodup {w : Nat} (m : BitVec w) : (bitsOn m).Nodup := (bitsOn_sorted m).imp Nat.ne_of_lt

/- EVS (R376) -/

section
variable {s : State} {g : Gang} {h : VH} {prio : BitVec 8} {abs : Bool} {d : BitVec 8} {a b c : VSrc} {w : Crew} {ev : Nat → LaneEv} {kid : Nat → Event}
  {act : LaneMask}

/-- What a lane of EVS that enters a child leaves of the gang: its serial, and one child more of its event. -/
def evsPut (d : BitVec 8) (ev : Nat → LaneEv) (kid : Nat → Event) (v : Gang) (j : Nat) : Gang :=
  let v := (v.vSet d.toNat j ((kid j).serial.toNat % 2 ^ 32)).vSet (d.toNat + 1) j ((kid j).serial.toNat / 2 ^ 32)
  { v with evs := Tab.set v.evs j { ev j with ch := (ev j).ch + 1 } }

/-- What a lane of EVS leaves of the gang, by the event that the lane holds. -/
def evsLanePut (d : BitVec 8) (v : Gang) (k : Nat × Event) : Gang :=
  let v := (v.vSet d.toNat k.1 (k.2.serial.toNat % 2 ^ 32)).vSet (d.toNat + 1) k.1 (k.2.serial.toNat / 2 ^ 32)
  match v.laneEv k.1 with
  | some e => { v with evs := Tab.set v.evs k.1 { e with ch := e.ch + 1 } }
  | none => v

/-- EVS once its live active lanes `l` have named their children: the lanes without one raise EV_PAST. -/
def evsEnd (d : BitVec 8) (l : List Nat) (kids : List (Nat × Event)) (s : State) (g : Gang) : Res :=
  let y := s.countOp g .ev (Shape.vRange d.toNat 2)
  let z := y.1.addEffects g.crew (kids.map (fun k => g.effect k.1 48 (.evs k.2)))
  if !z.2 then .gone z.1
  else
    match codesOf ((l.filter (fun i => !kids.any (fun k => k.1 == i))).map (fun i => (i, 9))) with
    | [] => .ok z.1 (kids.foldl (evsLanePut d) y.2)
    | codes => .lanes z.1 ((kids.foldl (evsLanePut d) y.2).dropOp (y.1.nextId - 1)) codes

/-- EVS in a gang whose live active lanes hold events with room for a child and consume no poison. -/
theorem evsBody_clean (hroom : g.counter .ev < 63) (hclean : g.CleanIn (g.live act) (srcRegs .n64 a ++ srcRegs .b32 b ++ srcRegs .n64 c))
    (hchildren : ∀ j ∈ bitsOn (g.live act), g.laneEv j = some (ev j) ∧ (ev j).ch < 4096) :
    evsBody h prio abs d a b c s g act = evsEnd d (bitsOn (g.live act)) ((bitsOn (g.live act)).filterMap (fun j => (g.laneEv j).bind (fun e =>
      (evsLane (s.spGet g .span) prio abs (s.pair g h.lit a j) (BitVec.ofNat 16 (s.vsrc g h.lit .b32 b j)) (BitVec.ofNat 64 (s.pair g h.lit c j))
        (Store.get g.now j) (g.keyOf j) e).map (fun k => (j, k))))) s g := by
  refine (if_neg (Nat.not_le.mpr hroom)).trans ((if_neg (Bool.eq_false_iff.mp (any_false fun j hj => ?_))).trans ?_)
  · obtain ⟨hev, hch⟩ := hchildren j hj
    simp only [hev, decide_eq_false_iff_not, Nat.not_le, hch]
  · rw [badLanes_clean hclean, consume_none (live_zero g)]
    rfl

/-- Every lane of EVS has a child, for which there is room. -/
theorem evsEnd_enters {l : List Nat} (hl : l.Nodup) (hcrew : s.crew? g.crew = some w) (hev : ∀ j ∈ l, g.laneEv j = some (ev j))
    (hfits : s.hasRoom w (effBytes (l.map (fun j => g.effect j 48 (.evs (kid j))))) = true) :
    evsEnd d l (l.map (fun j => (j, kid j))) s g =
      .ok ((s.countOp g .ev (Shape.vRange d.toNat 2)).1.addEffects g.crew (l.map (fun j => g.effect j 48 (.evs (kid j))))).1
        (l.foldl (evsPut d ev kid) (s.countOp g .ev (Shape.vRange d.toNat 2)).2) := by
  have hnone : l.filter (fun i => !(l.map (fun j => (j, kid j))).any (fun k => k.1 == i)) = [] := by
    refine List.filter_eq_nil_iff.mpr fun i hi => ?_
    rw [Bool.not_eq_true', Bool.not_eq_false, List.any_map]
    exact List.any_eq_true.mpr ⟨i, hi, beq_self_eq_true i⟩
  have hput : (l.map (fun j => (j, kid j))).foldl (evsLanePut d) (s.countOp g .ev (Shape.vRange d.toNat 2)).2 =
      l.foldl (evsPut d ev kid) (s.countOp g .ev (Shape.vRange d.toNat 2)).2 := by
    rw [List.foldl_map]
    refine foldl_laneEv (G := evsPut d ev kid) (fun _ => True) (fun v j _ hj => ?_) (fun _ _ _ => trivial) (fun v j k hk => Tab.get?_set_of_ne _ _ hk) hl _ trivial hev
    have hj' : ((v.vSet d.toNat j ((kid j).serial.toNat % 2 ^ 32)).vSet (d.toNat + 1) j ((kid j).serial.toNat / 2 ^ 32)).laneEv j = some (ev j) := hj
    simp only [evsLanePut, hj']
    rfl
  have hadd := State.addEffects_fits (s := (s.countOp g .ev (Shape.vRange d.toNat 2)).1) (k := g.crew) hcrew hfits
  unfold evsEnd
  simp only [List.map_map, Function.comp_def, hnone, hput]
  rw [hadd]
  rfl

/-- EVS in a gang whose live active lanes name a child each, for which there is room. -/
theorem evsBody_enters (hroom : g.counter .ev < 63) (hclean : g.CleanIn (g.live act) (srcRegs .n64 a ++ srcRegs .b32 b ++ srcRegs .n64 c))
    (hcrew : s.crew? g.crew = some w)
    (hkid : ∀ j ∈ bitsOn (g.live act), g.laneEv j = some (ev j) ∧ (ev j).ch < 4096 ∧
      evsLane (s.spGet g .span) prio abs (s.pair g h.lit a j) (BitVec.ofNat 16 (s.vsrc g h.lit .b32 b j)) (BitVec.ofNat 64 (s.pair g h.lit c j))
        (Store.get g.now j) (g.keyOf j) (ev j) = some (kid j))
    (hfits : s.hasRoom w (effBytes ((bitsOn (g.live act)).map (fun j => g.effect j 48 (.evs (kid j))))) = true) :
    evsBody h prio abs d a b c s g act =
      .ok ((s.countOp g .ev (Shape.vRange d.toNat 2)).1.addEffects g.crew ((bitsOn (g.live act)).map (fun j => g.effect j 48 (.evs (kid j))))).1
        ((bitsOn (g.live act)).foldl (evsPut d ev kid) (s.countOp g .ev (Shape.vRange d.toNat 2)).2) := by
  rw [evsBody_clean hroom hclean fun j hj => ⟨(hkid j hj).1, (hkid j hj).2.1⟩,
    ← evsEnd_enters (bitsOn_nodup _) hcrew (fun j hj => (hkid j hj).1) hfits, ← List.filterMap_eq_map]
  congr 1
  refine List.filterMap_congr fun j hj => ?_
  obtain ⟨hev, -, hk⟩ := hkid j hj
  rw [hev, Option.bind_some, hk]
  rfl

end

/- EVC, EVR and EVX (R377 to R379) -/

section
variable {s : State} {g : Gang} {h : VH} {a b : VSrc} {w : Crew} {ev : Nat → LaneEv} {act : LaneMask}

theorem evcBody_enters (hroom : g.counter .ev < 63) (hclean : g.CleanIn (g.live act) (srcRegs .n64 a ++ srcRegs .n64 b)) (hcrew : s.crew? g.crew = some w)
    {eff : List Eff} (heff : eff = (bitsOn (g.live act)).map (fun j => g.effect j 32
      (.evc (BitVec.ofNat 64 (s.pair g h.lit a j)) (BitVec.ofNat 64 (s.pair g h.lit b j)))))
    (hfits : s.hasRoom w (effBytes eff) = true) :
    evcBody h a b s g act = .ok ((s.countOp g .ev []).1.addEffects g.crew eff).1 (s.countOp g .ev []).2 := by
  have hadd := State.addEffects_fits (s := (s.countOp g .ev []).1) (k := g.crew) hcrew hfits
  refine (if_neg (Nat.not_le.mpr hroom)).trans ?_
  rw [badLanes_clean hclean, consume_none (live_zero g)]
  subst heff
  exact congrArg (fun z : State × Bool => if z.2 then Res.ok z.1 (s.countOp g .ev []).2 else .gone z.1) hadd

@[simp] theorem Gang.vPut_laneEv (t : Fmt) (n lane x : Nat) (k : Nat) : (g.vPut t n lane x).laneEv k = g.laneEv k := by
  unfold Gang.vPut
  split <;> rfl

/-- What a lane of EVR leaves of the gang, by the event that the lane holds. -/
def evrLanePut (f : EvField) (d : BitVec 8) (v : Gang) (j : Nat) : Gang :=
  match v.laneEv j with
  | some e => v.vPut (evrType f) d.toNat j (e.field f)
  | none => v

theorem foldl_evrLanePut {f : EvField} {d : BitVec 8} {m : LaneMask} (hev : ∀ j ∈ bitsOn m, g.laneEv j = some (ev j)) :
    (bitsOn m).foldl (evrLanePut f d) g = g.lanesTo (evrType f) d.toNat m (fun j => (ev j).field f) :=
  foldl_laneEv (fun _ => True) (fun v j _ hj => by simp only [evrLanePut, hj]) (fun _ _ _ => trivial) (fun _ _ _ _ => Gang.vPut_laneEv ..) (bitsOn_nodup m) g
    trivial hev

/-- What a lane of EVX leaves of the gang, by the event that the lane holds. -/
def evxLanePut (s : State) (h : VH) (a : VSrc) (v : Gang) (j : Nat) : Gang :=
  match v.laneEv j with
  | some e => { v with evs := Tab.set v.evs j { e with st := s.vsrc v h.lit .b32 a j % 2 ^ 32 != 0 } }
  | none => v

/-- No operand reads the events of a gang. -/
theorem vsrc_of_evs {v : Gang} (hv : { v with evs := [] } = { g with evs := [] }) (lit : Option DWord) (t : Fmt) (x : VSrc) (j : Nat) :
    s.vsrc v lit t x j = s.vsrc g lit t x j := by
  show s.vsrc { v with evs := [] } lit t x j = s.vsrc { g with evs := [] } lit t x j
  rw [hv]

/-- What a lane of EVX leaves of the gang: the status of its event. -/
def evxPut (s : State) (g : Gang) (h : VH) (a : VSrc) (ev : Nat → LaneEv) (v : Gang) (j : Nat) : Gang :=
  { v with evs := Tab.set v.evs j { ev j with st := s.vsrc g h.lit .b32 a j % 2 ^ 32 != 0 } }

theorem foldl_evxLanePut {m : LaneMask} (hev : ∀ j ∈ bitsOn m, g.laneEv j = some (ev j)) :
    (bitsOn m).foldl (evxLanePut s h a) g =
      (bitsOn m).foldl (evxPut s g h a ev) g :=
  foldl_laneEv (G := evxPut s g h a ev) (fun v => ({ v with evs := [] } : Gang) = { g with evs := [] }) (fun v j hv hj => by simp only [evxLanePut, evxPut, hj, vsrc_of_evs hv]) (fun _ _ hv => hv)
    (fun _ _ _ hk => Tab.get?_set_of_ne _ _ hk) (bitsOn_nodup m) g rfl hev

end

/-- Settles O33, row by row: every lane holds its event and consumes no poison; outside a SPAN launch no event row is legal. -/
theorem eventRows : Obligations.EventRows := by
  refine ⟨fun s g h prio abs d a b c f w ev kid hmode hcrew => ⟨fun hi hroom hclean hkid hfits => ?evs, fun hi hroom hclean hfits => ?evc,
    fun hi hev => ?evr, fun hi hclean hev => ?evx⟩, fun i s g hi hmode hrow => ?outside⟩
  case outside =>
    cases i
    case evs | evc | evr | evx => exact runGang_illegal hi (notSpan_eq_true hmode)
    all_goals exact hrow.elim
  case evs =>
    exact runGang_ok hi (notSpan_eq_false hmode) (evsBody_enters hroom hclean hcrew hkid hfits)
  case evc => exact runGang_ok hi (notSpan_eq_false hmode) (evcBody_enters hroom hclean hcrew rfl hfits)
  case evr =>
    rw [Gang.acting] at hev
    refine runGang_ok hi (notSpan_eq_false hmode) ?_
    rw [Gang.acting, ← show evrType f = if f.wide then .n64 else .n32 from rfl, ← foldl_evrLanePut hev]
    rfl
  case evx =>
    refine runGang_ok hi (notSpan_eq_false hmode) ?_
    dsimp only
    rw [badLanes_clean (m := g.live (g.active (shape (.evx h a)))) hclean, consume_none (live_zero g)]
    exact congrArg (Res.ok s) (foldl_evxLanePut hev)

end Sys2Proof.Machine
end

section
/-! PROOFS. The access window of the handler slot (R347 to R349). -/
namespace Sys2Proof.Machine

theorem onlyHandler_of_isHandler {s : State} {g : Gang} (h : g.isHandler = true) : onlyHandler s g = false := congrArg not h

/-- A window instruction that traps is a double fault (R345). -/
theorem runGang_doubleFault {i : Instr} {s : State} {g : Gang} {cause : Nat} {bad : State → Gang → Bool} {body : State → Gang → LaneMask → Res}
    (hi : Issues i s g) (hb : bad s g = false) (hg : g.isHandler = true) (hr : body s g (g.active (shape i)) = .trap cause) :
    runGang i s bad body = .next (s.endRun g.core true) := by
  rw [runGang_trap hi hb hr]
  exact congrArg Host.Outcome.next (if_pos hg)

/- WSEL -/

/-- The slot that WSEL's operand names: −1 is that of the gang whose stop is in service. -/
def State.wselSlot (s : State) (core : Nat) (x : DWord) : Option Nat :=
  if x = BitVec.allOnes 64 then (match (s.core core).run with | some r => if r.stop.ofGang then some r.stop.agent else none | none => none)
  else if x.toNat < 32 then some x.toNat else none

theorem toNat_ofNat_of_lt {n : Nat} (hn : n < 2 ^ 64 - 1) : (BitVec.ofNat 64 n).toNat = n ∧ BitVec.ofNat 64 n ≠ BitVec.allOnes 64 := by
  have htoNat : (BitVec.ofNat 64 n).toNat = n := by
    rw [BitVec.toNat_ofNat]
    omega
  refine ⟨htoNat, fun h => ?_⟩
  have := congrArg BitVec.toNat h
  rw [htoNat, BitVec.toNat_allOnes] at this
  omega

theorem State.wselSlot_number {s : State} {core n : Nat} (hn : n < 2 ^ 64 - 1) :
    s.wselSlot core (BitVec.ofNat 64 n) = if n < 32 then some n else none := by
  obtain ⟨htoNat, hne⟩ := toNat_ofNat_of_lt hn
  rw [State.wselSlot, if_neg hne, htoNat]

theorem State.wselSlot_served {s : State} {core : Nat} {r : Run} (hr : (s.core core).run = some r) :
    s.wselSlot core (BitVec.allOnes 64) = if r.stop.ofGang then some r.stop.agent else none := by
  rw [State.wselSlot, if_pos rfl, hr]

/-- WSEL selects the gang in the slot that it names, if one is stopped there. -/
theorem exec_wsel {s : State} {g : Gang} {h : SH} {d : BitVec 6} {a : Sc} (hi : Issues (.wsel h d a) s g) (hg : g.isHandler = true) {hit : Option Nat}
    {found : Bool} (hhit : (s.wselSlot g.core (s.sc g h.lit a)).filter (fun k => (s.stoppedGang g.core k).isSome) = hit) (hfound : hit.isSome = found) :
    exec (.wsel h d a) s = .next (s.completes (.wsel h d a) g
      ((s.select g.core hit).late (g.sSet d.toNat (if found then 1 else 0)) (Shape.sRef d.toNat)).1
      ((s.select g.core hit).late (g.sSet d.toNat (if found then 1 else 0)) (Shape.sRef d.toNat)).2) := by
  subst hhit hfound
  exact runGang_ok hi (onlyHandler_of_isHandler hg) rfl

/- WWR -/

theorem SpReg.ofNum_eq_chan_iff {n : Nat} : SpReg.ofNum n = some .chan ↔ n = SpReg.chan.num := by
  refine ⟨fun h => ?_, fun h => h ▸ rfl⟩
  unfold SpReg.ofNum at h
  split at h <;> cases h
  rfl

theorem WinAddr.isChan_iff {w : WinAddr} : w.isChan = true ↔ w.cls = 5 ∧ w.num = SpReg.chan.num := by
  rw [WinAddr.isChan, Bool.and_eq_true, beq_iff_eq, beq_iff_eq, SpReg.ofNum_eq_chan_iff]

/-- What changes a core but not its cycle leaves the cycle of every core. -/
theorem State.cyc_modCore (s : State) (n : Nat) (f : Core → Core) (hf : ∀ k, (f k).cyc = k.cyc) (c : Nat) : (s.modCore n f).cyc c = s.cyc c := by
  by_cases hc : c = n
  · subst hc
    exact (congrArg Core.cyc (s.core_modCore c f)).trans (hf _)
  · exact congrArg Core.cyc (s.core_putCore_of_ne _ hc)

/-- A write of `$chan` through the window leaves the cycle of every core. -/
theorem winSet_chan_cyc {s u : State} {hg t v : Gang} {x : Stop} {w : WinAddr} {b : DWord} (hw : w.cls = 5 ∧ w.num = SpReg.chan.num)
    (hset : winSet s hg t x w b = .set u v) (c : Nat) : u.cyc c = s.cyc c := by
  have hspecial : winSpecial s hg t x .chan (some w.lane) b = .set u v := by
    simpa only [winSet, hw.1, SpReg.ofNum_eq_chan_iff.mpr hw.2] using hset
  change (if s.hpriv hg then WinSet.set (s.modCore t.core (fun k => k.setChan b)) t else .bad 11) = .set u v at hspecial
  split at hspecial <;> cases hspecial
  exact s.cyc_modCore t.core (fun k => k.setChan b) (fun _ => rfl) c

section
variable {s u : State} {g t v : Gang} {x : Stop} {a b : DWord} (hsel : s.selected g.core = some (t, x)) (act : LaneMask)
include hsel

theorem wwrBody_addressed {w : WinAddr} (hw : winAddr a = some w) (hset : winSet s g t x w b = .set u v) :
    wwrBody none a b s g act = .ok (u.putGang ({ v with arrived := [] }.lend (w.took v)))
      (if w.cls = 5 ∧ w.num = SpReg.chan.num then g.chanPend (s.cyc g.core) else g) := by
  have hcyc : w.cls = 5 ∧ w.num = SpReg.chan.num → u.cyc g.core = s.cyc g.core := fun hchan => winSet_chan_cyc hchan hset g.core
  simp only [wwrBody, hsel, hw, hset, Option.isNone_none, Option.map_some, Option.getD_some, Bool.true_and, WinAddr.isChan_iff]
  split
  · next hchan => rw [hcyc hchan]
  · rfl

theorem wwrBody_special {r : SpReg} (hset : winSpecial s g t x r none b = .set u v) :
    wwrBody (some r) a b s g act = .ok (u.putGang ({ v with arrived := [] }.lend [])) g := by
  simp only [wwrBody, hsel, hset]
  rfl

end

/- WRES -/

section
variable {s : State} {t : Gang} {x : Stop} {m n : DWord}

theorem wresAct_resume (hn : n = 0) : wresAct n m s t x = some (s.putGang (t.resume s t.pc (some (t.live m)))) := if_pos hn

theorem wresAct_wait (hn : n = 1) (hx : x.cause = 29) : wresAct n m s t x = some (s.putGang { t.resume s t.pc none with pwaitNt := true }) := by
  subst hn
  exact if_pos hx

theorem wresAct_noWait (hn : n = 1) (hx : x.cause ≠ 29) : wresAct n m s t x = none := by
  subst hn
  exact if_neg hx

theorem wresAct_exit (hn : n = 2) : wresAct n m s t x = some (s.exitGang t) := by
  subst hn
  rfl

theorem wresAct_default (hn : n = 3) : wresAct n m s t x = some (s.defaultAction t x) := by
  subst hn
  rfl

theorem wresAct_unknown (hn : 4 ≤ n.toNat) : wresAct n m s t x = none := by
  have hne (k : DWord) (hk : k.toNat < 4) : n ≠ k := fun h => by rw [h] at hn; omega
  simp only [wresAct, hne 0 (by decide), hne 1 (by decide), hne 2 (by decide), hne 3 (by decide), if_false]

end

section
variable {s u : State} {g t : Gang} {x : Stop} {m n : DWord} (hsel : s.selected g.core = some (t, x)) (act : LaneMask)
include hsel

/-- WRES completes with what it does to the selected gang, unless the run has ended with it (R346). -/
theorem wresBody_resolves (hact : wresAct n m (s.resolveStop g.core t.slot) t x = some u) (hlive : u.gang? g.core 32 ≠ none) :
    wresBody m n s g act = .ok u g := by
  have hrun : (u.gang? g.core Config.handlerSlot).isSome = true := Option.isSome_iff_ne_none.mpr hlive
  simp only [wresBody, hsel, hact, hrun, if_true]

theorem wresBody_undefined (hact : wresAct n m (s.resolveStop g.core t.slot) t x = none) : wresBody m n s g act = .trap 1 := by
  simp only [wresBody, hsel, hact]

end

/-- Settles O11: WSEL by the slot it names, WRD and WWR by what the window makes of the address, WRES by its action. -/
theorem windowRows : Obligations.WindowRows := by
  refine ⟨fun s g h d a b n hg => ⟨fun hi ha hn hstopped => ?_, fun hi ha hn hnone => ?_, fun r hi ha hr => ?_, fun v bad hi hv => ?wrd,
    fun t x w u v hi hsel hw hset => runGang_ok hi (onlyHandler_of_isHandler hg) (wwrBody_addressed hsel _ hw hset),
    fun r t x u v hi hsel hset => runGang_ok hi (onlyHandler_of_isHandler hg) (wwrBody_special hsel _ hset),
    fun t x hi hsel hlow hhigh hmod hmore hpane hgrow => ?grow⟩, fun s g h a b t x hg hi hsel => ?wres⟩
  · refine exec_wsel hi hg (hit := some n) (found := true) ?_ rfl
    rw [ha, State.wselSlot_number (by omega), if_pos hn, Option.filter_some, hstopped, if_pos rfl]
  · refine exec_wsel hi hg (hit := none) (found := false) ?_ rfl
    rw [ha, State.wselSlot_number hn]
    split
    · next hlt => rw [Option.filter_some, hnone hlt, if_neg Bool.false_ne_true]
    · rfl
  · refine exec_wsel hi hg ?_ ?_
    · rw [ha, State.wselSlot_served hr]
      cases hgang : r.stop.ofGang <;> rfl
    · split <;> simp only [*, Option.isSome_some, Option.isSome_none]
  case wrd =>
    refine runGang_ok hi (onlyHandler_of_isHandler hg) ?_
    simp only [hv]
  case grow =>
    refine runGang_wait hi (onlyHandler_of_isHandler hg) ?_
    simp only [wwrBody, hsel, winSpecial, winRegs, if_neg (not_regCountBad hlow hhigh hmod), if_neg (Nat.not_le.mpr hmore), if_neg (Nat.not_lt.mpr hpane), hgrow,
      Bool.false_eq_true, if_false]
  case wres =>
    have hlegal := onlyHandler_of_isHandler (s := s) hg
    intro i n m u
    refine ⟨fun hn hlive => runGang_ok hi hlegal (wresBody_resolves hsel _ ?_ hlive), fun hn hx hlive => runGang_ok hi hlegal (wresBody_resolves hsel _ ?_ hlive),
      fun hn hlive => runGang_ok hi hlegal (wresBody_resolves hsel _ ?_ hlive), fun hn hlive => runGang_ok hi hlegal (wresBody_resolves hsel _ ?_ hlive),
      fun hn => runGang_doubleFault (cause := 1) hi hlegal hg (wresBody_undefined hsel _ ?_)⟩
    · exact wresAct_resume hn
    · exact wresAct_wait hn hx
    · exact wresAct_exit hn
    · exact wresAct_default hn
    · exact hn.elim wresAct_unknown fun hn => wresAct_noWait hn.1 hn.2

end Sys2Proof.Machine
end

section
/-! PROOFS. Writes of context registers (R238, R341, R396). -/
namespace Sys2Proof.Machine

/-- The offsets of the context registers, by what a write does with them (R396). -/
theorem regKind_base : ∀ o ∈ [0x00, 0x08, 0x18, 0x58, 0x80], regKind o = some .base := by decide
theorem regKind_log : ∀ o ∈ [0x10, 0x20, 0x60, 0x88], regKind o = some .log := by decide
theorem regKind_word : ∀ o ∈ [0x30, 0x48, 0x70, 0x98], regKind o = some (.field 32) := by decide
theorem regKind_w1c : ∀ o ∈ [0x38, 0x78], regKind o = some .w1c := by decide
theorem regKind_readOnly : ∀ o ∈ [0x28, 0x68, 0x90], regKind o = some .readOnly := by decide

theorem regKind_outside {o : Nat}
    (h : o ∉ [0x00, 0x08, 0x10, 0x18, 0x20, 0x28, 0x30, 0x38, 0x40, 0x48, 0x50, 0x58, 0x60, 0x68, 0x70, 0x78, 0x80, 0x88, 0x90, 0x98]) :
    regKind o = none := by
  unfold regKind
  split
  case h_21 => rfl
  all_goals exact absurd (by decide) h

/-- A context register reads back what was set. -/
@[simp] theorem State.ctxReg_setCtxReg_self (s : State) (c o : Nat) (x : DWord) : (s.setCtxReg c o x).ctxReg c o = x := Store.get_set_self ..

/-- Setting a context register leaves every other one. -/
theorem State.ctxReg_setCtxReg_of_ne (s : State) {c o c' o' : Nat} (h : c' * 32 + o' / 8 ≠ c * 32 + o / 8) (x : DWord) :
    (s.setCtxReg c o x).ctxReg c' o' = s.ctxReg c' o' := Store.get_set_of_ne _ _ h

section
variable {s : State} {c o : Nat} {v x : DWord} {k : RegKind}

theorem State.regWrite_takes (hk : regKind o = some k) (hv : regValue k (s.ctxReg c o) v = some x) : s.regWrite c o v = some (s.setCtxReg c o x) := by
  rw [State.regWrite, hk, Option.bind_some, hv, Option.map_some]

theorem State.regWrite_refuses (hk : regKind o = some k) (hv : regValue k (s.ctxReg c o) v = none) : s.regWrite c o v = none := by
  rw [State.regWrite, hk, Option.bind_some, hv, Option.map_none]

theorem State.regWrite_outside (hk : regKind o = none) : s.regWrite c o v = none := by rw [State.regWrite, hk, Option.bind_none]

end

section
variable {s : State} {c : BitVec 4} {o : BitVec 8} {v x : DWord} {k : RegKind} (hs : s.fatal = none)
include hs

theorem exec_registerWrite : exec (.registerWrite c o v) s = .next ((s.regWrite c.toNat o.toNat v).getD s) := by
  show execRegisterWrite c o v s = _
  rw [execRegisterWrite, hs]
  rfl

/-- A write that its register takes sets that register and nothing else. -/
theorem exec_registerWrite_takes (hk : regKind o.toNat = some k) (hv : regValue k (s.ctxReg c.toNat o.toNat) v = some x) :
    ∃ t, exec (.registerWrite c o v) s = .next t ∧ t.ctxReg c.toNat o.toNat = x ∧
      (∀ c' o' : Nat, c' * 32 + o' / 8 ≠ c.toNat * 32 + o.toNat / 8 → t.ctxReg c' o' = s.ctxReg c' o') ∧ t.mem = s.mem ∧ t.gangs = s.gangs := by
  refine ⟨s.setCtxReg c.toNat o.toNat x, ?_, s.ctxReg_setCtxReg_self .., fun _ _ h => s.ctxReg_setCtxReg_of_ne h x, rfl, rfl⟩
  rw [exec_registerWrite hs, State.regWrite_takes hk hv, Option.getD_some]

/-- A write that no register takes changes nothing. -/
theorem exec_registerWrite_refused (h : s.regWrite c.toNat o.toNat v = none) : exec (.registerWrite c o v) s = .next s := by
  rw [exec_registerWrite hs, h, Option.getD_none]

/-- A register whose values obey a rule takes those that do. -/
theorem exec_registerWrite_ruled {p : Prop} [Decidable p] (hk : regKind o.toNat = some k)
    (hrule : regValue k (s.ctxReg c.toNat o.toNat) v = if p then some v else none) :
    if p then ∃ t, exec (.registerWrite c o v) s = .next t ∧ t.ctxReg c.toNat o.toNat = v ∧
      (∀ c' o' : Nat, c' * 32 + o' / 8 ≠ c.toNat * 32 + o.toNat / 8 → t.ctxReg c' o' = s.ctxReg c' o') ∧ t.mem = s.mem ∧ t.gangs = s.gangs
    else exec (.registerWrite c o v) s = .next s := by
  split
  · next hp => exact exec_registerWrite_takes hs hk (hrule.trans (if_pos hp))
  · next hp => exact exec_registerWrite_refused hs (State.regWrite_refuses hk (hrule.trans (if_neg hp)))

end

/-- Settles O39, by what a write does with the register at its offset. -/
theorem contextRegisterWrites : Obligations.ContextRegisterWrites := by
  intro s c o v hs
  refine ⟨fun ho => exec_registerWrite_ruled hs (regKind_base _ ho) rfl, fun ho => exec_registerWrite_ruled hs (regKind_log _ ho) rfl,
    fun ho => exec_registerWrite_ruled hs (regKind_word _ ho) rfl, fun ho => exec_registerWrite_ruled hs (k := .field 57) (by rw [ho]; rfl) rfl,
    fun ho => exec_registerWrite_ruled hs (k := .field 1) (by rw [ho]; rfl) rfl, fun ho => exec_registerWrite_takes hs (regKind_w1c _ ho) rfl,
    fun ho => exec_registerWrite_takes hs (regKind_readOnly _ ho) rfl,
    fun ho => exec_registerWrite_refused hs (State.regWrite_outside (regKind_outside ho))⟩

end Sys2Proof.Machine
end

section
/-! PROOFS. The mailbox (R394 to R396, R402, R403). -/
namespace Sys2Proof.Machine

/-- A command that needs memory which is not ready waits in the mailbox (R402). -/
theorem mailbox_waits {i : Instr} {s : State} {w : Bool} {f : State → State} (h : Serves s) (hw : w = true) : mailbox i s w f = .next { s with mbox := [i] } := by
  unfold mailbox
  simp only [h.whole, h.mbox, h.first, hw, Option.isSome_none, Bool.not_true, Bool.or_self, Bool.false_eq_true, Bool.or_true, if_false, if_true, List.nil_append]

section
variable {i : Instr} {s : State} {tag caddr : DWord} {irq : Option (BitVec 1)} {w : Bool} {f : State → State} (h : Serves s)
include h

theorem mailboxImage_waits (himage : s.image = true) (hw : w = true) : mailboxImage i s tag caddr irq w f = .next { s with mbox := [i] } :=
  mailbox_waits h (by simp only [hw, State.noImage, himage, Bool.not_true, Bool.not_false, Bool.and_self])

/-- With no valid image a command but a physical one answers 1, without waiting (R403). -/
theorem mailboxImage_unimaged (himage : s.image = false) : mailboxImage i s tag caddr irq w f = .next (s.completion tag caddr irq 1) := by
  unfold mailboxImage
  rw [mailbox_serves h (by simp only [State.noImage, himage, Bool.not_false, Bool.not_true, Bool.and_false])]
  simp only [State.noImage, himage, Bool.not_false, if_true]

end

/- What a WRITE and a READ complete with (R394, R395) -/

section
variable {s : State} {tag caddr haddr : DWord} {irq : Option (BitVec 1)} {data : List Byte} {n : Nat} {p : Option (List (Nat × Nat))} {l : List (Nat × Nat)}

theorem State.writeCommand_malformed (h : lenBad data.length = true) : s.writeCommand tag caddr irq p data = s.completion tag caddr irq 1 := if_pos h
theorem State.writeCommand_denied (h : lenBad data.length = false) : s.writeCommand tag caddr irq none data = s.completion tag caddr irq 2 :=
  if_neg (Bool.eq_false_iff.mp h)
theorem State.writeCommand_done (h : lenBad data.length = false) :
    s.writeCommand tag caddr irq (some l) data = (s.hostWrite l data).completion tag caddr irq 0 := if_neg (Bool.eq_false_iff.mp h)

theorem State.readCommand_malformed (h : lenBad n = true) : s.readCommand tag caddr irq haddr n p = s.completion tag caddr irq 1 := if_pos h
theorem State.readCommand_denied (h : lenBad n = false) : s.readCommand tag caddr irq haddr n none = s.completion tag caddr irq 2 :=
  if_neg (Bool.eq_false_iff.mp h)
theorem State.readCommand_done (h : lenBad n = false) :
    s.readCommand tag caddr irq haddr n (some l) = (s.tell (.data haddr (rawBytes (s.hostRead l)))).completion tag caddr irq (if anyBad (s.hostRead l) then 3 else 0) :=
  if_neg (Bool.eq_false_iff.mp h)

end

/- What the memory commands are -/

section
variable (s : State) (tag caddr haddr : DWord) (irq : Option (BitVec 1)) (ctx : BitVec 4) (a : VAddr) (data : List Byte) (n : Nat)

theorem exec_writePhysical : exec (.writePhysical tag caddr irq a data) s =
    mailbox (.writePhysical tag caddr irq a data) s (!s.noImage && !lenBad data.length && s.anyNotReady [(a.toNat, data.length)])
      (fun s => s.writeCommand tag caddr irq (some [(a.toNat, data.length)]) data) := rfl

theorem exec_readPhysical : exec (.readPhysical tag caddr irq a n haddr) s =
    mailbox (.readPhysical tag caddr irq a n haddr) s (!s.noImage && !lenBad n && s.anyNotReady [(a.toNat, n)])
      (fun s => s.readCommand tag caddr irq haddr n (some [(a.toNat, n)])) := rfl

theorem exec_writeVirtual : exec (.writeVirtual tag caddr irq ctx a data) s =
    mailboxImage (.writeVirtual tag caddr irq ctx a data) s tag caddr irq
      (!lenBad data.length && (s.hostWaits ctx.toNat a.toNat data.length ||
        s.anyNotReady ((s.hostPieces ctx.toNat a.toNat data.length true).getD [])))
      (fun t => t.writeCommand tag caddr irq (s.hostPieces ctx.toNat a.toNat data.length true) data) := rfl

theorem exec_readVirtual : exec (.readVirtual tag caddr irq ctx a n haddr) s =
    mailboxImage (.readVirtual tag caddr irq ctx a n haddr) s tag caddr irq
      (!lenBad n && (s.hostWaits ctx.toNat a.toNat n || s.anyNotReady ((s.hostPieces ctx.toNat a.toNat n false).getD [])))
      (fun t => t.readCommand tag caddr irq haddr n (s.hostPieces ctx.toNat a.toNat n false)) := rfl

end

/- A command of physical memory, and one of virtual memory, by its length and what it has to wait for (R402, R403) -/

section
variable {i : Instr} {s : State} {bad nr xlate : Bool} {f : State → State} {tag caddr : DWord} {irq : Option (BitVec 1)} (h : Serves s)
include h

theorem mailbox_physical_malformed (hbad : bad = true) : mailbox i s (!s.noImage && !bad && nr) f = .next (f s) :=
  mailbox_serves h (by rw [hbad, Bool.not_true, Bool.and_false, Bool.false_and])

/-- Once a valid image is loaded a physical command waits for its memory. -/
theorem mailbox_physical_waits (hbad : bad = false) (himage : s.image = true) (hnr : nr = true) :
    mailbox i s (!s.noImage && !bad && nr) f = .next { s with mbox := [i] } :=
  mailbox_waits h (by simp only [State.noImage, himage, hbad, hnr, Bool.not_true, Bool.not_false, Bool.and_self])

/-- Before a valid image is loaded a physical command does not wait (log 88). -/
theorem mailbox_physical_serves (hready : s.image = false ∨ nr = false) : mailbox i s (!s.noImage && !bad && nr) f = .next (f s) :=
  mailbox_serves h (by rcases hready with h | h <;> simp only [State.noImage, h, Bool.not_false, Bool.not_true, Bool.false_and, Bool.and_false])

variable (himage : s.image = true)
include himage

theorem mailboxImage_virtual_malformed (hbad : bad = true) : mailboxImage i s tag caddr irq (!bad && (xlate || nr)) f = .next (f s) :=
  mailboxImage_serves h himage (by rw [hbad, Bool.not_true, Bool.false_and])

theorem mailboxImage_virtual_waits (hbad : bad = false) (hwaits : xlate = true ∨ nr = true) :
    mailboxImage i s tag caddr irq (!bad && (xlate || nr)) f = .next { s with mbox := [i] } :=
  mailboxImage_waits h himage (by rw [hbad, Bool.or_eq_true _ _ |>.mpr hwaits]; rfl)

theorem mailboxImage_virtual_serves (hxlate : xlate = false) (hnr : nr = false) :
    mailboxImage i s tag caddr irq (!bad && (xlate || nr)) f = .next (f s) :=
  mailboxImage_serves h himage (by rw [hxlate, hnr, Bool.or_self, Bool.and_false])

end

theorem State.anyNotReady_nil (s : State) : s.anyNotReady [] = false := rfl

/-- Settles O37: a command of physical or of virtual memory, by its length, what it has to wait for, and the pieces that it translates to. -/
theorem mailboxMemoryRows : Obligations.MailboxMemoryRows := by
  intro s tag caddr haddr irq ctx a data n h
  refine ⟨?writePhysical, ?readPhysical, ?writeVirtual, ?readVirtual⟩
  case writePhysical =>
    dsimp only
    rw [exec_writePhysical]
    refine ⟨mailbox_physical_waits h, fun hlen => ?_, fun hlen hready => ?_⟩
    · rw [mailbox_physical_malformed h hlen, State.writeCommand_malformed hlen]
    · rw [mailbox_physical_serves h hready, State.writeCommand_done hlen]
  case readPhysical =>
    dsimp only
    rw [exec_readPhysical]
    refine ⟨mailbox_physical_waits h, fun hlen => ?_, fun hlen hready => ?_⟩
    · rw [mailbox_physical_malformed h hlen, State.readCommand_malformed hlen]
    · rw [mailbox_physical_serves h hready, State.readCommand_done hlen]
  case writeVirtual =>
    dsimp only
    rw [exec_writeVirtual]
    refine ⟨mailboxImage_unimaged h, fun himage => ⟨fun hlen => ?_, fun hlen hwait => mailboxImage_virtual_waits h himage hlen (.inl hwait),
      fun l hlen hl hnr => mailboxImage_virtual_waits h himage hlen (.inr (by rw [hl]; exact hnr)), fun hlen hwait => ⟨fun hl => ?_, fun l hl hready => ?_⟩⟩⟩
    · rw [mailboxImage_virtual_malformed h himage hlen, State.writeCommand_malformed hlen]
    · rw [hl, Option.getD_none, mailboxImage_virtual_serves h himage hwait s.anyNotReady_nil, State.writeCommand_denied hlen]
    · rw [hl, Option.getD_some, mailboxImage_virtual_serves h himage hwait hready, State.writeCommand_done hlen]
  case readVirtual =>
    dsimp only
    rw [exec_readVirtual]
    refine ⟨mailboxImage_unimaged h, fun himage => ⟨fun hlen => ?_, fun hlen hwait => mailboxImage_virtual_waits h himage hlen (.inl hwait),
      fun l hlen hl hnr => mailboxImage_virtual_waits h himage hlen (.inr (by rw [hl]; exact hnr)), fun hlen hwait => ⟨fun hl => ?_, fun l hl hready => ?_⟩⟩⟩
    · rw [mailboxImage_virtual_malformed h himage hlen, State.readCommand_malformed hlen]
    · rw [hl, Option.getD_none, mailboxImage_virtual_serves h himage hwait s.anyNotReady_nil, State.readCommand_denied hlen]
    · rw [hl, Option.getD_some, mailboxImage_virtual_serves h himage hwait hready, State.readCommand_done hlen]

/- The other commands -/

/-- The write of word 1 of the PREEMPT register that meets a running request is only counted (R333). -/
theorem State.preemptWrite_busy {s : State} (h : s.busyPre = true) (w : DWord) : s.preemptWrite w = s.count .preemptRejected := by
  unfold State.preemptWrite
  dsimp only
  split <;> exact State.request_busy h ..

section
variable {s : State} {tag caddr haddr : DWord} {irq : Option (BitVec 1)} {ctx : BitVec 4} (h : Serves s) (himage : s.image = true)
include h himage

theorem exec_writeRegister_serves (o : VAddr) (x : DWord) : exec (.writeRegister tag caddr irq ctx o x) s =
    .next ((s.regWrite ctx.toNat o.toNat x).elim (s.completion tag caddr irq 1) (fun t => t.completion tag caddr irq 0)) := by
  show execWriteRegister tag caddr irq ctx o x s = _
  rw [execWriteRegister, mailboxImage_serves h himage rfl]
  cases s.regWrite ctx.toNat o.toNat x <;> rfl

theorem exec_readRegister_serves (o : VAddr) : exec (.readRegister tag caddr irq ctx o haddr) s =
    .next (if (regKind o.toNat).isSome then (s.tell (.data haddr (leBytes 8 (s.ctxReg ctx.toNat o.toNat).toNat))).completion tag caddr irq 0
      else s.completion tag caddr irq 1) := by
  show execReadRegister tag caddr irq ctx o haddr s = _
  rw [execReadRegister, mailboxImage_serves h himage rfl]
  cases regKind o.toNat <;> rfl

theorem exec_kick_serves {q : BitVec 6} (hready : s.memReady (s.qaddr q.toNat) = true) (v : VAddr) : exec (.kick tag caddr irq q v) s =
    .next ((s.kick q.toNat (v.setWidth 64) none).completion tag caddr irq 0) := by
  show execKick tag caddr irq q v s = _
  rw [execKick, mailboxImage_serves h himage (by rw [hready]; rfl)]

theorem exec_grantSync_serves : exec (.grantSync tag caddr irq ctx) s = .next ((s.grantSync ctx.toNat).completion tag caddr irq 0) := by
  show execGrantSync tag caddr irq ctx s = _
  rw [execGrantSync, mailboxImage_serves h himage rfl]

theorem exec_resolveReplay_serves (core : BitVec 9) (agent : BitVec 7) : exec (.resolveReplay tag caddr irq core agent) s =
    .next ((s.resolve core.toNat agent.toNat false).completion tag caddr irq 0) := by
  show execResolveReplay tag caddr irq core agent s = _
  rw [execResolveReplay, mailboxImage_serves h himage rfl]

theorem exec_resolveFail_serves (core : BitVec 9) (agent : BitVec 7) : exec (.resolveFail tag caddr irq core agent) s =
    .next ((s.resolve core.toNat agent.toNat true).completion tag caddr irq 0) := by
  show execResolveFail tag caddr irq core agent s = _
  rw [execResolveFail, mailboxImage_serves h himage rfl]

theorem exec_preempt_serves (x y : DWord) : exec (.preempt tag caddr irq x y) s =
    .next (({ s with pre0 := x }.preemptWrite y).completion tag caddr irq (if s.busyPre then 4 else 0)) := by
  show execPreempt tag caddr irq x y s = _
  rw [execPreempt, mailboxImage_serves h himage rfl]

end

/-- GRANT_SYNC leaves no grant and no translation of its context, and every other translation (R215, R247). -/
theorem State.grantSync_tlb (s : State) (ctx : Nat) :
    (s.grantSync ctx).grants = [] ∧ (∀ e ∈ (s.grantSync ctx).tlb, e.ctx ≠ ctx) ∧ ∀ e ∈ s.tlb, e.ctx ≠ ctx → e ∈ (s.grantSync ctx).tlb :=
  ⟨rfl, fun _ he => bne_iff_ne.mp (List.mem_filter.mp he).2, fun _ he hne => List.mem_filter.mpr ⟨he, bne_iff_ne.mpr hne⟩⟩

/-- Settles O38, command by command. -/
theorem mailboxControlRows : Obligations.MailboxControlRows := by
  intro s tag caddr haddr irq ctx v x y q core agent h himage
  refine ⟨fun t ht => ?_, fun hnone => ?_, fun hk => ?_, fun hk => ?_, fun hready => exec_kick_serves h himage hready v,
    ⟨s.grantSync ctx.toNat, exec_grantSync_serves h himage, s.grantSync_tlb ctx.toNat⟩, exec_resolveReplay_serves h himage core agent,
    exec_resolveFail_serves h himage core agent, fun hidle => ?_, fun hbusy => ?_⟩
  · rw [exec_writeRegister_serves h himage, ht, Option.elim_some]
  · rw [exec_writeRegister_serves h himage, hnone, Option.elim_none]
  · rw [exec_readRegister_serves h himage, if_pos (Option.isSome_iff_ne_none.mpr hk)]
  · rw [exec_readRegister_serves h himage, hk]
    rfl
  · rw [exec_preempt_serves h himage, hidle]
    rfl
  · have hbusy0 : ({ s with pre0 := x } : State).busyPre = true := hbusy
    rw [exec_preempt_serves h himage, State.preemptWrite_busy hbusy0, hbusy]
    rfl

end Sys2Proof.Machine
end

section
/-! PROOFS. The state after reset (R401, R404). -/
namespace Sys2Proof.Machine

/-- A core that nothing has touched since reset: its cycle is 0, it serves no stop, belongs to no partition and has every channel enabled. -/
theorem State.core_reset (c : Nat) : State.reset.core c = {} := rfl

/-- No memory serves after reset: no bit of READY stands. -/
theorem State.memReady_reset (pa : Nat) : State.reset.memReady pa = false := by
  have hzero : State.reset.readyBits.extractLsb' (1 + 6 * dieOfAddr pa) 6 = 0 := BitVec.extractLsb'_zero ..
  rw [State.memReady, State.dieReady, hzero]
  rfl

/-- Settles O53: every part of the state has the value it is declared with. -/
theorem resetState : Obligations.ResetState := by
  refine ⟨rfl, rfl, rfl, rfl, rfl, rfl, rfl, rfl, rfl, rfl, rfl, fun _ _ => rfl, fun c => ?_, fun pa => ⟨rfl, State.memReady_reset pa⟩, rfl, rfl, rfl, rfl, rfl, rfl,
    rfl, rfl, rfl, rfl, rfl, fun _ => rfl, rfl, rfl, rfl⟩
  rw [State.cyc, State.core_reset]
  exact ⟨rfl, rfl, rfl, rfl, rfl⟩

end Sys2Proof.Machine
end

section
/-! PROOFS. Taking an exception (R337, R341 to R345): a stop joins the queue or takes its default action, the run of the handler program begins, and a park is
reported or waits for the gang's writes at peers (R216, R307). -/
namespace Sys2Proof.Machine

/- A row of writes of a store -/

theorem Store.get_foldl_set_of_ne {w : Nat} {key : Nat → Nat} {f : Nat → BitVec w} {l : List Nat} {n : Nat} (h : ∀ a ∈ l, n ≠ key a) (m : Store w) :
    Store.get (l.foldl (fun m a => Store.set m (key a) (f a)) m) n = Store.get m n := by
  induction l generalizing m with
  | nil => rfl
  | cons a l ih =>
    rw [List.foldl_cons, ih fun b hb => h b (List.mem_cons_of_mem a hb)]
    exact Store.get_set_of_ne m (f a) (h a List.mem_cons_self)

theorem Store.get_foldl_set {w : Nat} {key : Nat → Nat} {f : Nat → BitVec w} (hkey : key.Injective) {l : List Nat} {a : Nat} (ha : a ∈ l) (m : Store w) :
    Store.get (l.foldl (fun m a => Store.set m (key a) (f a)) m) (key a) = f a := by
  induction l generalizing m with
  | nil => cases ha
  | cons b l ih =>
    rw [List.foldl_cons]
    by_cases hl : a ∈ l
    · exact ih hl _
    · obtain rfl := (List.mem_cons.mp ha).resolve_right hl
      rw [Store.get_foldl_set_of_ne fun c hc e => hl (by rwa [hkey e])]
      exact Store.get_set_self m (key a) (f a)

/- The handler slot at the start of a run (R342) -/

section
variable (s : State) (core : Nat) (x : Stop)

theorem State.handlerGang_sGet_word {k : Nat} (hk : k < 5) : (s.handlerGang core x).sGet (k + 1) = x.word k :=
  (if_neg k.succ_ne_zero).trans (Store.get_foldl_set (key := (· + 1)) (add_left_injective 1) (List.mem_range.mpr hk) [])

theorem State.handlerGang_sGet_zero {n : Nat} (hn : n = 0 ∨ 5 < n) : (s.handlerGang core x).sGet n = 0 := by
  rcases Nat.eq_zero_or_pos n with rfl | hpos
  · rfl
  · refine (if_neg hpos.ne').trans (Store.get_foldl_set_of_ne (key := (· + 1)) (fun k hk => ?_) [])
    have := List.mem_range.mp hk
    omega

theorem State.handlerGang_keyOf {lane : Nat} (hl : lane < 64) : (s.handlerGang core x).keyOf lane = (s.ctxReg (s.ctxOf x.launch) 0x48).setWidth 32 :=
  Store.get_foldl_set (key := id) (f := fun _ => (s.ctxReg (s.ctxOf x.launch) 0x48).setWidth 32) Function.injective_id (List.mem_range.mpr hl) []

end

/- The queue of stops -/

/-- A rebuilt shadow gang is all that a mismatch changes of its leading gang. -/
theorem Gang.stopWid_rebuild (g : Gang) (replay : LaneMask) : g.rebuild.stopWid replay = g.stopWid replay := rfl

/-- A gang whose stop waits in its core's queue, in its place. -/
theorem State.queueStop {s : State} {h : Gang} {c k : Nat} (hc : h.core = c) (hk : h.slot = k) (x : Stop) :
    let t := (s.putGang h).modCore c (fun y => { y with stops := y.stops ++ [x] })
    t.gang? c k = some h ∧ (t.core c).stops = (s.core c).stops ++ [x] ∧ t.mem = s.mem ∧ ∀ d n, gkey d n ≠ gkey c k → t.gang? d n = s.gang? d n := by
  subst hc hk
  exact ⟨s.gang_putGang h, congrArg Core.stops (State.core_modCore ..), rfl, fun d n hne => s.gang_putGang_of_ne h hne⟩

/- The start of a run -/

section
variable {s : State} {core : BitVec 9} {x : Stop} {r : List Stop} (hs : s.fatal = none) (hrun : (s.core core.toNat).run = none)
  (hstops : (s.core core.toNat).stops = x :: r)
include hs hrun hstops

/-- With a handler program the oldest stop is served in the handler slot (R342). -/
theorem exec_handlerRunStart (hh : s.hasHandler x.launch = true) :
    exec (.handlerRunStart core) s = .next
      ((s.putCore core.toNat { s.core core.toNat with stops := r, run := some { stop := x, sel := if x.ofGang then some x.agent else none } }).putGang
        (s.handlerGang core.toNat x)) := by
  show execHandlerRunStart core s = _
  refine (alive_none hs).trans ?_
  simp only [hrun, hstops, hh, if_true]

/-- With none its gang takes the default action (R344). -/
theorem exec_handlerRunStart_default {g : Gang} (hh : s.hasHandler x.launch = false) (hof : x.ofGang = true) (hg : s.gang? core.toNat x.agent = some g)
    (hstat : g.stat = .stopped) :
    exec (.handlerRunStart core) s = .next ((s.putCore core.toNat { s.core core.toNat with stops := r }).defaultAction g x) := by
  show execHandlerRunStart core s = _
  refine (alive_none hs).trans ?_
  simp only [hrun, hstops, hh, hof, State.putCore_gang, hg, hstat, and_self, if_true, Bool.false_eq_true, if_false]

end

/- The default actions (R338, R344) -/

theorem actionOf_le {n : Nat} (hn : n ≤ 28) (h3 : n ≠ 3) : actionOf n = .g := by
  unfold actionOf
  split
  case h_1 => exact absurd rfl h3
  case h_8 => rfl
  all_goals omega

section
variable (s : State) {g : Gang} {x : Stop}

theorem State.defaultAction_g (h : actionOf x.cause = .g) :
    s.defaultAction g x = if s.errsAsFree g then s.endForError g x.cause x.pc else s.errorAbort g.crew := by rw [State.defaultAction, h]

end

/- A token over a resumption (R184) -/

theorem State.tokenAt_of_false (s : State) {g : Gang} (h : g.token = false) : s.tokenAt g = g := by simp only [State.tokenAt, h, Bool.not_false, if_true]

theorem State.tokenAt_of_instr {s : State} {g : Gang} {i : Instr} (h : g.token = true) (hi : s.atGang g = .instr i) :
    s.tokenAt g = if g.wantsToken (shape i) = true then g else { g with token := false } := by
  simp only [State.tokenAt, h, hi, Bool.not_true, Bool.false_eq_true, if_false]

/-- A resumption decides about the token alone. -/
theorem State.tokenAt_eq (s : State) (g : Gang) : ∃ b, s.tokenAt g = { g with token := b } := by
  cases h : g.token
  case false => exact ⟨g.token, s.tokenAt_of_false h⟩
  case true =>
    unfold State.tokenAt
    rw [h]
    simp only [Bool.not_true, Bool.false_eq_true, if_false]
    split
    · split
      · exact ⟨g.token, rfl⟩
      · exact ⟨false, rfl⟩
    · exact ⟨false, rfl⟩

/-- A gang that is resumed is ready at the PC, with the replay mask; its lanes are those it had. -/
theorem Gang.resume_fields (g : Gang) (s : State) (pc : VAddr) (replay : Option LaneMask) :
    let v := g.resume s pc replay
    v.pc = pc ∧ v.stat = .ready ∧ v.replay = replay ∧ v.dead = g.dead := by
  obtain ⟨b, hb⟩ := s.tokenAt_eq { g with pc := pc, replay := replay }
  dsimp only [Gang.resume]
  rw [hb]
  exact ⟨rfl, rfl, rfl, rfl⟩

theorem actionOf_lanes {n : Nat} (h : n = 30 ∨ n = 31) : actionOf n = .l := by rcases h with rfl | rfl <;> rfl

/-- The lanes of the stop are killed, and the gang goes on behind its instruction (R344). -/
theorem State.defaultAction_l {s : State} {g : Gang} {x : Stop} (hx : actionOf x.cause = .l) (hf : s.errsAsFree g = true) :
    ∃ (u : State) (v : Gang), s.defaultAction g x = u.putGang v ∧ v.pc = x.next ∧ v.stat = .ready ∧ v.replay = none ∧ v.dead = g.dead ||| x.replay := by
  rw [State.defaultAction, hx]
  simp only [hf, if_true]
  have hdead : (s.killLanes g x.replay x.cause (fun i => (Store.get x.codes i).toNat) x.pc).2.dead = g.dead ||| x.replay := rfl
  generalize s.killLanes g x.replay x.cause (fun i => (Store.get x.codes i).toNat) x.pc = y at hdead ⊢
  obtain ⟨u, v⟩ := y
  obtain ⟨hpc, hstat, hreplay, hd⟩ := Gang.resume_fields { v with arrived := [] } u x.next none
  exact ⟨u, _, rfl, hpc, hstat, hreplay, hd.trans hdead⟩

theorem State.defaultAction_l_abort {s : State} {g : Gang} {x : Stop} (hx : actionOf x.cause = .l) (hf : s.errsAsFree g = false) :
    s.defaultAction g x = s.errorAbort g.crew := by
  rw [State.defaultAction, hx]
  simp only [hf, Bool.false_eq_true, if_false]

/- Aborts for an error (R353) -/

theorem State.errorAbort_of_crew {s : State} {k : Nat} {c : Crew} (h : (s.abortCrew k).crew? k = some c) :
    (s.errorAbort k).crew? k = some { c with rc := 1 } ∧ (s.errorAbort k).mem = (s.abortCrew k).mem ∧
      (s.errorAbort k).ctr = ((s.abortCrew k).count .crewReruns).ctr := by
  unfold State.errorAbort
  generalize s.abortCrew k = t at h ⊢
  rw [State.modCrew_some _ h]
  exact ⟨State.crew_putCrew t k { c with rc := 1 }, rfl, rfl⟩

/- Parks (R216, R217) -/

theorem State.foldl_postFault_cores (s : State) (l : List FqInfo) : (l.foldl State.postFault s).cores = s.cores := by
  induction l generalizing s with
  | nil => rfl
  | cons f l ih => rw [List.foldl_cons, ih, State.postFault_cores]

theorem State.foldl_postFault_core (s : State) (l : List FqInfo) (c : Nat) : (l.foldl State.postFault s).core c = s.core c := by
  rw [State.core, State.foldl_postFault_cores, State.core]

/-- Where no bank has failed a park posts its records, and the gang is parked as it stands (R107, R217). -/
theorem State.reportPark_eq {s : State} {g : Gang} (p : Park) (recs : List FqInfo) (hb : (s.core g.core).failedBanks = []) :
    s.reportPark g p recs = (recs.foldl State.postFault s).putGang { g with stat := .parked p, parkedAt := s.cyc g.core } := by
  have hread : (recs.foldl State.postFault s).readContext g = (recs.foldl State.postFault s, g) := by
    rw [State.readContext, State.foldl_postFault_core, hb]
  rw [State.reportPark, hread]
  simp only [State.cyc, State.foldl_postFault_core]

/-- Settles O52, a clause for the taking of a stop, the start of a run, the default actions and a park. -/
theorem takingAnException : Obligations.TakingAnException := by
  refine ⟨?stop, ?run, ?action, ?park⟩
  case stop =>
    intro s g cause detail info replay codes pc next b h x t
    have htake : g.isHandler = false → t = if s.hasHandler b.launch then (s.putGang h).modCore g.core (fun k => { k with stops := k.stops ++ [x] })
        else s.defaultAction h x := by
      intro hh
      show s.takeStop g cause detail info replay codes pc next = _
      rw [State.takeStop, hh]
      by_cases hc : cause = 33
      · subst hc; rfl
      · simp only [h, x, b, if_neg hc]
        rfl
    have hb : b.launch = g.launch ∧ b.core = g.core ∧ b.slot = g.slot := by
      by_cases hc : cause = 33
      · simp only [b, if_pos hc]; exact ⟨rfl, rfl, rfl⟩
      · simp only [b, if_neg hc, and_self]
    obtain ⟨hlaunch, hcore, hslot⟩ := hb
    rw [hlaunch] at htake
    refine ⟨fun hh => if_pos hh, fun hh hn => (htake hh).trans (by rw [hn]; rfl), fun hh hp => ?_⟩
    rw [htake hh, hp, if_pos rfl]
    exact State.queueStop (h := h) hcore hslot x
  case run =>
    intro s core x r hs hrun hstops
    refine ⟨fun hh => ⟨_, s.handlerGang core.toNat x, exec_handlerRunStart hs hrun hstops hh, ?_⟩, fun g hh hof hg hstat =>
      exec_handlerRunStart_default hs hrun hstops hh hof hg hstat⟩
    refine ⟨congrArg Core.stops (State.core_putCore ..), congrArg Core.run (State.core_putCore ..), State.gang_putGang _ (s.handlerGang core.toNat x), rfl,
      fun k hk => s.handlerGang_sGet_word _ x hk, fun n hn => s.handlerGang_sGet_zero _ x hn, fun _ _ => rfl, fun n hn => if_neg hn, rfl, rfl, rfl, rfl,
      fun lane hl => s.handlerGang_keyOf _ x hl⟩
  case action =>
    intro s g x
    refine ⟨?_, ?_, ?_, ?_, ?_, ?_, fun k c hc => State.errorAbort_of_crew hc, s.tokenAt_of_false, fun i ht hi => State.tokenAt_of_instr ht hi⟩
    · intro h; rw [State.defaultAction, h]; rfl
    · intro h; rw [State.defaultAction, h]; rfl
    · intro h; rw [State.defaultAction, h]; rfl
    · intro hle h3 _
      have hg := s.defaultAction_g (g := g) (actionOf_le hle h3)
      exact ⟨fun hf => hg.trans (by rw [hf]; rfl), fun hf => hg.trans (if_pos hf)⟩
    · exact fun hx => ⟨State.defaultAction_l_abort (actionOf_lanes hx), State.defaultAction_l (actionOf_lanes hx)⟩
    · simp only [State.errsAsFree, Bool.or_eq_true, beq_iff_eq, bne_iff_ne]
  case park =>
    intro s g p replay recs b
    refine ⟨fun hh => if_pos hh, fun hh => ⟨fun hf => ?_, fun hf hb => ?_⟩⟩
    · rw [State.parkGang, hh]
      exact if_pos hf
    · rw [State.parkGang, hh]
      exact (if_neg (Bool.eq_false_iff.mp hf)).trans (State.reportPark_eq p recs hb)

end Sys2Proof.Machine
end

section
/-! PROOFS. The span engine: canonical order, the inbox and the gather (R365, R369 to R372), the commit of a span's events and its end (R380, R382, R383). -/
namespace Sys2Proof.Machine

/- Canonical order (R365) -/

theorem Event.before_eq_false_iff {a b : Event} : a.before b = false ↔ b.time.toNat < a.time.toNat ∨ (b.time.toNat = a.time.toNat ∧
    (b.prio.toNat < a.prio.toNat ∨ (b.prio.toNat = a.prio.toNat ∧ b.serial.toNat ≤ a.serial.toNat))) := by
  simp only [Event.before, Bool.or_eq_false_iff, Bool.and_eq_false_iff, decide_eq_false_iff_not, beq_eq_false_iff_ne, ne_eq, ← BitVec.toNat_inj]
  omega

theorem Event.before_irrefl (a : Event) : a.before a = false := Event.before_eq_false_iff.mpr (.inr ⟨rfl, .inr ⟨rfl, le_rfl⟩⟩)

theorem Event.before_asymm {a b : Event} (h : a.before b = true) : b.before a = false := by
  have hn : ¬ a.before b = false := by simp [h]
  rw [Event.before_eq_false_iff] at hn ⊢
  omega

theorem Event.not_before_trans {a b c : Event} (hab : b.before a = false) (hbc : c.before b = false) : c.before a = false := by
  rw [Event.before_eq_false_iff] at *
  omega

theorem Event.time_le_of_not_before {a b : Event} (h : b.before a = false) : a.time.toNat ≤ b.time.toNat := by
  rw [Event.before_eq_false_iff] at h
  omega

/-- Pending events in canonical order. -/
def Canonical (l : List PendEv) : Prop := l.Pairwise (fun x y => y.ev.before x.ev = false)

theorem Canonical.events {l : List PendEv} (h : Canonical l) : (l.map (·.ev)).Pairwise (fun a b => b.before a = false) := List.pairwise_map.mpr h

theorem insertEv_perm (x : PendEv) (l : List PendEv) : (insertEv x l).Perm (x :: l) := by
  induction l with
  | nil => exact .refl _
  | cons y r ih =>
    unfold insertEv
    split
    · exact .refl _
    · exact (ih.cons y).trans (.swap x y r)

theorem mem_insertEv {x y : PendEv} {l : List PendEv} : y ∈ insertEv x l ↔ y = x ∨ y ∈ l := (insertEv_perm x l).mem_iff.trans List.mem_cons

theorem Canonical.insertEv {l : List PendEv} (h : Canonical l) (x : PendEv) : Canonical (insertEv x l) := by
  induction l with
  | nil => exact List.pairwise_singleton _ x
  | cons y r ih =>
    obtain ⟨hy, hr⟩ := List.pairwise_cons.mp h
    unfold Machine.insertEv
    split
    · next hb =>
      have hxy := Event.before_asymm hb
      exact List.pairwise_cons.mpr ⟨fun z hz => (List.mem_cons.mp hz).elim (fun e => e ▸ hxy) (fun hz => Event.not_before_trans hxy (hy z hz)), h⟩
    · next hb =>
      refine List.pairwise_cons.mpr ⟨fun z hz => ?_, ih hr⟩
      rcases mem_insertEv.mp hz with rfl | hz
      · exact Bool.eq_false_iff.mpr hb
      · exact hy z hz

theorem canonical_sortEvs (l : List PendEv) : Canonical (sortEvs l) :=
  List.foldlRecOn l (fun acc x => insertEv x acc) List.Pairwise.nil fun _ h x _ => Canonical.insertEv h x

/- The inbox (R369) -/

theorem canonical_takeRecord {store : Nat} {p : Span} {x : Nat} {s : State} (h : Canonical p.pend) : Canonical (takeRecord store p x s).2.pend := by
  unfold takeRecord
  dsimp only
  split
  · exact h
  · split
    all_goals
      split
      · exact h
      · exact h.insertEv _

theorem canonical_takeInbox {store cap base size : Nat} (n j : Nat) {p : Span} {s : State} (h : Canonical p.pend) :
    Canonical (takeInbox store cap base size n j p s).2.pend := by
  induction n generalizing j p s with
  | zero => exact h
  | succ n ih =>
    unfold takeInbox
    split
    · exact h
    · exact ih _ (canonical_takeRecord h)

theorem canonical_emptyInbox {s : State} {store : Nat} {p : Span} (h : Canonical p.pend) : Canonical (s.emptyInbox store p).2.pend := by
  unfold State.emptyInbox
  dsimp only
  split
  · exact h
  · exact canonical_takeInbox _ _ h

/- The choice of a span (R371) -/

theorem filter_time_cons {x : PendEv} {t : Nat} (h : x.ev.time.toNat ≤ t) (r : List PendEv) :
    (x :: r).filter (fun y => decide (y.ev.time.toNat ≤ t)) = x :: r.filter (fun y => decide (y.ev.time.toNat ≤ t)) :=
  List.filter_cons_of_pos (decide_eq_true h)

/-- The events within a time of a canonical list are a front part of it. -/
theorem Canonical.filter_time {l : List PendEv} (h : Canonical l) (t : Nat) : ∃ n ≤ l.length, l.filter (fun y => decide (y.ev.time.toNat ≤ t)) = l.take n := by
  induction l with
  | nil => exact ⟨0, le_rfl, rfl⟩
  | cons x r ih =>
    obtain ⟨hx, hr⟩ := List.pairwise_cons.mp h
    by_cases ht : x.ev.time.toNat ≤ t
    · obtain ⟨n, hn, he⟩ := ih hr
      exact ⟨n + 1, Nat.succ_le_succ hn, by rw [filter_time_cons ht, he, List.take_succ_cons]⟩
    · refine ⟨0, Nat.zero_le _, List.filter_eq_nil_iff.mpr fun y hy => ?_⟩
      have hle : x.ev.time.toNat ≤ y.ev.time.toNat := by
        rcases List.mem_cons.mp hy with rfl | hy
        · exact le_rfl
        · exact Event.time_le_of_not_before (hx y hy)
      simp only [decide_eq_true_eq]
      omega

section
variable {served : Event → Bool} {look max gmax : Nat}

/-- What a span takes of the candidates is a front part, without an event that has been aborted twice. -/
theorem spanPrefix_eq (l acc : List PendEv) :
    ∃ n ≤ l.length, spanPrefix served max gmax l acc = acc ++ l.take n ∧ ∀ x ∈ l.take n, x.aborts < 2 := by
  induction l generalizing acc with
  | nil => exact ⟨0, le_rfl, (List.append_nil acc).symm, fun x hx => by cases hx⟩
  | cons x r ih =>
    unfold spanPrefix
    split
    · exact ⟨0, Nat.zero_le _, (List.append_nil acc).symm, fun x hx => by cases hx⟩
    · next hx =>
      obtain ⟨n, hn, he, ha⟩ := ih (acc ++ [x])
      refine ⟨n + 1, Nat.succ_le_succ hn, by rw [he, List.take_succ_cons, List.append_assoc]; rfl, fun y hy => ?_⟩
      rcases List.mem_cons.mp (List.take_succ_cons ▸ hy) with rfl | hy
      · omega
      · exact ha y hy

/-- One event needs at most one gang. -/
theorem gangsOf_filter_singleton_le (x : PendEv) (f : PendEv → Bool) : gangsOf ([x].filter f) ≤ 1 := by
  by_cases h : f x = true
  · simp [List.filter_cons_of_pos h, gangsOf, handlersOf]
  · simp [List.filter_cons_of_neg h, gangsOf, handlersOf]

/-- The first candidate is taken. -/
theorem spanPrefix_cons {x : PendEv} (hx : x.aborts < 2) (hmax : 0 < max) (hg : 0 < gmax) (r : List PendEv) :
    spanPrefix served max gmax (x :: r) [] = spanPrefix served max gmax r [x] := by
  have hone := gangsOf_filter_singleton_le x (fun y => served y.ev)
  refine if_neg ?_
  rw [List.nil_append, List.length_nil]
  omega

/-- A front part of the pending events that may be a span: within the lookahead of the first, and an event that has been aborted twice alone. -/
def SpanFront (look : Nat) (a : PendEv) (q : List PendEv) (n : Nat) : Prop :=
  1 ≤ n ∧ n ≤ q.length ∧ ∀ x ∈ q.take n, x.ev.time.toNat ≤ a.ev.time.toNat + look ∧ (2 ≤ x.aborts → n = 1)

theorem chooseSpan_front {a : PendEv} {r : List PendEv} (h : Canonical (a :: r)) (hmax : 0 < max) (hg : 0 < gmax) :
    ∃ n, (chooseSpan served look max gmax (a :: r)).1 = (a :: r).take n ∧ SpanFront look a (a :: r) n := by
  unfold chooseSpan
  dsimp only
  split
  · refine ⟨1, rfl, le_rfl, Nat.le_add_left 1 _, fun x hx => ?_⟩
    obtain rfl := List.mem_singleton.mp hx
    exact ⟨Nat.le_add_right _ _, fun _ => rfl⟩
  · next ha =>
    obtain ⟨m, hm, he⟩ := Canonical.filter_time (List.pairwise_cons.mp h).2 (a.ev.time.toNat + look)
    obtain ⟨n, hn, hp, hab⟩ := spanPrefix_eq (served := served) (max := max) (gmax := gmax) (r.take m) [a]
    have hnr : n ≤ m ∧ n ≤ r.length := by simp only [List.length_take] at hn; omega
    have htake : (r.take m).take n = r.take n := by rw [List.take_take, min_eq_left hnr.1]
    rw [htake] at hp hab
    have hfront : (a :: r).take (n + 1) = a :: r.take n := List.take_succ_cons
    refine ⟨n + 1, ?_, Nat.le_add_left 1 n, Nat.succ_le_succ hnr.2, fun x hx => ?_⟩
    · rw [filter_time_cons (Nat.le_add_right _ _), he, spanPrefix_cons (Nat.lt_of_not_le ha) hmax hg, hp, hfront]
      rfl
    · rw [hfront] at hx
      rcases List.mem_cons.mp hx with rfl | hx
      · exact ⟨Nat.le_add_right _ _, fun h2 => absurd h2 ha⟩
      · refine ⟨?_, fun h2 => absurd h2 (Nat.not_le.mpr (hab x hx))⟩
        have hmem : x ∈ r.filter (fun y => decide (y.ev.time.toNat ≤ a.ev.time.toNat + look)) := by
          rw [he]
          exact List.take_subset_take_left r hnr.1 hx
        exact of_decide_eq_true (List.mem_filter.mp hmem).2

end

theorem orWhenZero_pos {x y : Nat} (h : 0 < y) : 0 < orWhenZero x y := by
  unfold orWhenZero
  split
  · exact h
  · next hx => exact Nat.pos_of_ne_zero hx

/- The crews of a span (R372) -/

section
variable (launch d htab : Nat) (l : List (List RunEv))

theorem State.formCrews_launches (s : State) (run : List RunEv) : (s.formCrews launch d htab l run).1.launches = s.launches := by
  induction l generalizing s run with
  | nil => rfl
  | cons c l ih => exact (ih _ _).trans rfl

theorem State.formCrews_ctr (s : State) (run : List RunEv) : (s.formCrews launch d htab l run).1.ctr = s.ctr := by
  induction l generalizing s run with
  | nil => rfl
  | cons c l ih => exact (ih _ _).trans rfl

/-- A crew and a lane are all that its events are given. -/
theorem State.formCrews_map {β : Type} (f : RunEv → β) (hf : ∀ e crew lane, f { e with crew := crew, lane := lane } = f e) (s : State) (run : List RunEv) :
    (s.formCrews launch d htab l run).2.map f = run.map f := by
  induction l generalizing s run with
  | nil => rfl
  | cons c l ih =>
    refine (ih _ _).trans ?_
    rw [List.map_map]
    refine List.map_congr_left fun e _ => ?_
    dsimp only [Function.comp]
    split
    · exact hf ..
    · rfl

end

/- The gather -/

theorem State.launch_modLaunch (s : State) (k : Nat) (f : Launch → Launch) : (s.modLaunch k f).launch? k = (s.launch? k).map f := by
  cases h : s.launch? k
  case none => rw [State.modLaunch, h]; exact h
  case some l => rw [State.modLaunch_some f h]; exact State.launch_putLaunch ..

theorem State.modLaunch_ctr (s : State) (k : Nat) (f : Launch → Launch) : (s.modLaunch k f).ctr = s.ctr := by unfold State.modLaunch; split <;> rfl
theorem State.modLaunch_crews (s : State) (k : Nat) (f : Launch → Launch) : (s.modLaunch k f).crews = s.crews := by unfold State.modLaunch; split <;> rfl

theorem State.launch_of_launches {s t : State} (h : t.launches = s.launches) (k : Nat) : t.launch? k = s.launch? k := congrArg (Tab.get? · k) h

/-- What a gather counts: a solo span, a truncated one, and its events. -/
def State.countGather (s : State) (solo cut : Bool) (n : Nat) : State :=
  let s := if solo then s.count .evSolo else s
  let s := if cut then s.count .spanTruncated else s
  s.count .eventsGathered n

theorem State.get_count_of_ne (s : State) {c d : Ctr} (h : d ≠ c) (n : Nat) : Store.get (s.count c n).ctr d.ctorIdx = Store.get s.ctr d.ctorIdx :=
  Store.get_set_of_ne _ _ (Ctr.ctorIdx_injective.ne h)

theorem State.countGather_launches (s : State) (solo cut : Bool) (n : Nat) : (s.countGather solo cut n).launches = s.launches := by
  cases solo <;> cases cut <;> rfl

theorem State.countGather_gathered (s : State) (solo cut : Bool) (n : Nat) :
    Store.get (s.countGather solo cut n).ctr Ctr.eventsGathered.ctorIdx = Store.get s.ctr Ctr.eventsGathered.ctorIdx + BitVec.ofNat 64 n := by
  refine (Store.get_set_self _ _ _).trans (congrArg (· + BitVec.ofNat 64 n) ?_)
  have hsolo : Store.get (if solo then s.count .evSolo else s).ctr Ctr.eventsGathered.ctorIdx = Store.get s.ctr Ctr.eventsGathered.ctorIdx := by
    split
    · exact s.get_count_of_ne (by decide) 1
    · rfl
  split
  · exact (State.get_count_of_ne _ (by decide) 1).trans hsolo
  · exact hsolo

/-- The events of a span, numbered in canonical order. -/
def spanEvents (served : Event → Bool) (l : List PendEv) : List RunEv :=
  (l.zip (List.range l.length)).map (fun x => { ev := x.1.ev, aborts := x.1.aborts, idx := x.2, orphan := !served x.1.ev, crew := 0, lane := 0 : RunEv })

theorem spanEvents_ev (served : Event → Bool) (l : List PendEv) : (spanEvents served l).map RunEv.ev = l.map PendEv.ev := by
  have hfst : (l.zip (List.range l.length)).map Prod.fst = l := List.map_fst_zip (by rw [List.length_range])
  calc (spanEvents served l).map RunEv.ev = ((l.zip (List.range l.length)).map Prod.fst).map PendEv.ev := by rw [spanEvents, List.map_map, List.map_map]; rfl
    _ = l.map PendEv.ev := by rw [hfst]

theorem spanEvents_fate (served : Event → Bool) (l : List PendEv) : ∀ f ∈ (spanEvents served l).map RunEv.fate, f = .open_ := by
  intro f hf
  rw [spanEvents, List.map_map] at hf
  obtain ⟨x, _, rfl⟩ := List.mem_map.mp hf
  rfl

section
variable {s : State} {k : Nat} {l : Launch} {p : Span}

/-- With nothing pending the engine only empties the inbox. -/
theorem State.gather_empty (h : (s.emptyInbox l.pkt.store { p with pend := sortEvs p.pend }).2.pend = []) :
    let y := s.emptyInbox l.pkt.store { p with pend := sortEvs p.pend }
    s.gather k l p = y.1.modLaunch k (fun l => { l with span := some y.2 }) := by
  dsimp only [State.gather]
  rw [h]
  rfl

/-- A span is gathered: its events are a front part of those that are pending. -/
theorem State.gather_span {u : State} {v : Span} {a : PendEv} {r : List PendEv} (hy : s.emptyInbox l.pkt.store { p with pend := sortEvs p.pend } = (u, v))
    (hv : v.pend = a :: r) (hno : v.no < 2 ^ 32 - 1) :
    ∃ n evs solo cut served c, evs = v.pend.take n ∧ SpanFront l.pkt.look a v.pend n ∧
      let x := (u.countGather solo cut evs.length).formCrews k (u.storeDesc l.pkt.store) l.pkt.htab c (spanEvents served evs)
      s.gather k l p =
        x.1.modLaunch k (fun l => { l with span := some { v with no := v.no + 1, pend := v.pend.drop evs.length, run := x.2, running := true } }) := by
  have hcan : Canonical v.pend := (congrArg (fun y => Canonical y.2.pend) hy).mp (canonical_emptyInbox (canonical_sortEvs p.pend))
  let d := u.storeDesc l.pkt.store
  let served (e : Event) : Bool := (u.handlerEntry d l.pkt.htab e.handler).isSome
  obtain ⟨n, hn, hfront⟩ := chooseSpan_front (served := served) (look := l.pkt.look) (hv ▸ hcan) (orWhenZero_pos (x := bitField d 275 256) (Nat.two_pow_pos 20))
    (orWhenZero_pos (x := bitField d 290 276) (y := 16384) (by decide))
  rw [← hv] at hn hfront
  dsimp only [State.gather]
  rw [hy]
  dsimp only
  rw [if_neg (by simp [hv]), if_neg (Nat.not_le.mpr hno)]
  change (chooseSpan served _ _ _ _).1 = _ at hn
  generalize chooseSpan served l.pkt.look (orWhenZero (bitField d 275 256) (2 ^ 20)) (orWhenZero (bitField d 290 276) 16384) v.pend = c at hn
  obtain ⟨evs, solo, cut⟩ := c
  refine ⟨n, evs, solo, cut, served, packSpan (spanEvents served evs), hn, hfront, ?_⟩
  rfl

/-- The gather runs once the memory that it reads is ready. -/
theorem exec_spanGather (hs : s.fatal = none) (hk : s.launch? k = some l) (hp : l.span = some p) (hd : l.done = false) (ho : l.overflow = false)
    (hm : s.memReady l.pkt.store = true) (hr : p.running = false) (hl : p.limit = false) (hg : s.anyNotReady (s.gatherMemory l) = false) :
    exec (.spanGather k) s = .next (s.gather k l p) := by
  show execSpanGather k s = _
  refine (alive_none hs).trans ?_
  simp only [hk, hp, hr, hl, hd, ho, hm, hg, Bool.not_true, Bool.or_self, Bool.false_eq_true, if_false]

end

/- The commit of an event (R380) -/

section
variable {s : State} {k : Nat} {l : Launch} {p : Span}

/-- Of the events that await their turn the first is first in canonical order. -/
theorem find?_waits_first {run : List RunEv} {e : RunEv} (h : run.find? RunEv.waits = some e) (ho : (run.map (·.ev)).Pairwise (fun a b => b.before a = false)) :
    ∀ f ∈ run, f.waits = true → f.ev.before e.ev = false := by
  obtain ⟨_, l, r, rfl, hl⟩ := List.find?_eq_some_iff_append.mp h
  have hr := (List.pairwise_cons.mp (List.pairwise_append.mp (List.pairwise_map.mp ho)).2.1).1
  intro f hf hw
  rcases List.mem_append.mp hf with hf | hf
  · exact absurd hw (by simpa using hl f hf)
  · rcases List.mem_cons.mp hf with rfl | hf
    · exact f.ev.before_irrefl
    · exact hr f hf

theorem State.commitEvents_succ {n : Nat} {e : RunEv} (h : p.run.find? RunEv.waits = some e) {u : State} {q : Span} {more : Bool}
    (hc : s.commitEvent k l p e = (u, q, more)) : State.commitEvents k l (n + 1) s p = if more then State.commitEvents k l n u q else (u, q) := by
  rw [State.commitEvents, h]
  dsimp only
  rw [hc]
  cases more <;> rfl

/-- The commit runs once every crew has retired. -/
theorem exec_spanCommit (hs : s.fatal = none) (hk : s.launch? k = some l) (hp : l.span = some p) (hd : l.done = false) (ho : l.overflow = false)
    (hm : s.memReady l.pkt.store = true) (hr : p.running = true) (hret : s.spanRetired k = true) :
    let y := State.commitEvents k l (p.run.length + 1) s p
    let t := (y.1.modLaunch k (fun l => { l with span := some y.2 })).wakeCommitted
    exec (.spanCommit k) s = .next (if y.2.run.any RunEv.waits || t.commitsOut k then t else t.endSpan k l y.2) := by
  intro y t
  show execSpanCommit k s = _
  refine (alive_none hs).trans ?_
  simp only [hk, hp, hr, hd, ho, hm, hret, Bool.not_true, Bool.or_self, Bool.false_eq_true, if_false]
  rfl

section
variable {e : RunEv} (ha : e.applied = none)
include ha

theorem State.commitEvent_revoked (hf : e.fate = .revoked) :
    s.commitEvent k l p e = (s.logEvent l.pkt.store (e.ev.record true false), p.setFate e.idx .gone, true) := by
  simp only [State.commitEvent, ha, hf, Option.isSome_none, Bool.false_eq_true, if_false, if_true]

variable (hf : e.fate = .open_)
include hf

theorem State.commitEvent_orphan (ho : e.orphan = true) : s.commitEvent k l p e =
    (((s.logEvent l.pkt.store (e.ev.record false true)).count .evNoHandler).spanRecord k 0 38 e.ev.serial, p.setFate e.idx .left, true) := by
  simp only [State.commitEvent, ha, hf, ho, Option.isSome_none, Bool.false_eq_true, reduceCtorEq, if_false, if_true]

variable (ho : e.orphan = false)
include ho

theorem State.commitEvent_bad (hb : e.bad = true) :
    s.commitEvent k l p e = (s.logEvent l.pkt.store (e.ev.record false true), p.setFate e.idx .left, true) := by
  simp only [State.commitEvent, ha, hf, ho, hb, Option.isSome_none, Bool.false_eq_true, reduceCtorEq, if_false, if_true]

variable (hb : e.bad = false) (hask : s.askVersions k (numbered (s.eventEffects e)) = s)
include hb hask

/-- With its versions unmoved an event applies its effects, if the store has room for its children. -/
theorem State.commitEvent_good (hv : s.checkVersions k (numbered (s.eventEffects e)) = .good) :
    let u := (s.endChecks k).readEffects e.crew (fun x => x.evIx == some e.idx)
    s.commitEvent k l p e =
      if 2 ^ bitField (u.storeDesc l.pkt.store) 62 57 < (p.setFate e.idx .left).used + (childrenOf (u.eventEffects e)).length then
        ((u.logEvent l.pkt.store (e.ev.record false true)).spanRecord k 3 37 e.ev.serial, p.setFate e.idx .left, true)
      else u.applyEvent k l.pkt.store p e := by
  simp only [State.commitEvent, ha, hf, ho, hb, hask, hv, Option.isSome_none, Bool.false_eq_true, reduceCtorEq, if_false]

/-- One whose versions have moved is pending again, and defers what comes after it. -/
theorem State.commitEvent_mismatch (hv : s.checkVersions k (numbered (s.eventEffects e)) = .mismatch) :
    let y := deferAbove e.ev ((s.endChecks k).count .evAborts)
      { p.setFate e.idx .left with pend := insertEv { ev := e.ev, aborts := e.aborts + 1 } p.pend }
    s.commitEvent k l p e = (y.1, y.2, true) := by
  simp only [State.commitEvent, ha, hf, ho, hb, hask, hv, Option.isSome_none, Bool.false_eq_true, reduceCtorEq, if_false]

end

theorem State.commitEvent_applied {e : RunEv} (ha : e.applied ≠ none) : s.commitEvent k l p e = s.applyEvent k l.pkt.store p e := by
  simp only [State.commitEvent, Option.isSome_iff_ne_none.mpr ha, if_true]

end

/- What a deferral leaves -/

theorem mem_foldl_insertEv {α : Type} (f : α → PendEv) (l : List α) {y : PendEv} {acc : List PendEv} (h : y ∈ acc) :
    y ∈ l.foldl (fun acc e => insertEv (f e) acc) acc := by
  induction l generalizing acc with
  | nil => exact h
  | cons a l ih => exact ih (mem_insertEv.mpr (.inr h))

theorem deferAbove_pend {a : Event} {s : State} {p : Span} {y : PendEv} (h : y ∈ p.pend) : y ∈ (deferAbove a s p).2.pend :=
  mem_foldl_insertEv (fun e : RunEv => { ev := e.ev, aborts := e.aborts }) _ h

theorem deferAbove_run {a : Event} {s : State} {p : Span} {f : RunEv} (h : f ∈ p.run) (hf : f.fate = .open_) (hb : a.before f.ev = true) :
    ∃ g ∈ (deferAbove a s p).2.run, g.idx = f.idx ∧ g.fate = .deferred :=
  ⟨{ f with fate := .deferred }, List.mem_map.mpr ⟨f, h, if_pos (by simp only [hf, hb, beq_self_eq_true, Bool.and_self])⟩, rfl, rfl⟩

theorem Span.mem_setFate_of_ne {p : Span} {f : RunEv} {idx : Nat} (fate : Fate) (h : f ∈ p.run) (hne : f.idx ≠ idx) : f ∈ (p.setFate idx fate).run :=
  List.mem_map.mpr ⟨f, h, if_neg hne⟩

theorem State.endChecks_mem (s : State) (k : Nat) : (s.endChecks k).mem = s.mem := State.modLaunch_mem ..

/- The effects of an event, in their order (R301, R380) -/

/-- One effect of an event, under the crew that ran it. -/
def State.commitOf (s : State) (k store : Nat) (e : RunEv) : State × Span → Eff → State × Span :=
  commitEffect k store e.idx (((s.crew? e.crew).map (·.entry)).getD 0) (((s.crew? e.crew).map (·.rc)).getD 0 != 0)

/-- How far the commit of an event has come. -/
def Span.mark (p : Span) (idx : Nat) (a : Option Nat) (f : Fate) : Span :=
  { p with run := p.run.map (fun x => if x.idx = idx then { x with applied := a, fate := f } else x) }

section
variable {s : State} {k store m : Nat} {p : Span} {e : RunEv} {y : State × Span}
  (h : applyInOrder Prod.fst k (s.commitOf k store e) ((s.eventEffects e).drop (e.applied.getD 0)) (e.applied.getD 0) (s, p) = (y, m))
include h

theorem State.applyEvent_waits (hm : m < (s.eventEffects e).length) : s.applyEvent k store p e = (y.1, y.2.mark e.idx (some m) .open_, false) := by
  unfold State.commitOf at h
  dsimp only [State.applyEvent]
  rw [h]
  exact if_pos hm

theorem State.applyEvent_done (hm : m = (s.eventEffects e).length)
    (hlast : let q : Span := { y.2.mark e.idx none .committed with last := some e.ev }
      ∀ c g, leastPending q (childrenOf (s.eventEffects e)) = some c → q.run.getLast? = some g → c.before g.ev = false) :
    s.applyEvent k store p e =
      (y.1.logEvent store (e.ev.record false false), { y.2.mark e.idx none .committed with last := some e.ev }, true) := by
  unfold State.commitOf at h
  dsimp only [State.applyEvent]
  rw [h]
  refine (if_neg hm.not_lt).trans ?_
  split
  · next c g hc hg => exact if_neg (Bool.eq_false_iff.mp (hlast c g hc hg))
  · rfl

end

/-- The effects of an event are applied up to one that waits for its turn, or to the last. -/
theorem State.applyEvent_front (s : State) (k store : Nat) (p : Span) (e : RunEv) (hn : e.applied.getD 0 ≤ (s.eventEffects e).length) :
    let eff := s.eventEffects e
    let n := e.applied.getD 0
    ∃ m, n ≤ m ∧ m ≤ eff.length ∧
      let y := ((eff.take m).drop n).foldl (s.commitOf k store e) (s, p)
      let q : Span := { y.2.mark e.idx none .committed with last := some e.ev }
      (m < eff.length → (∃ x, eff[m]? = some x ∧ y.1.commitWaits k x = true) ∧ s.applyEvent k store p e = (y.1, y.2.mark e.idx (some m) .open_, false)) ∧
      (m = eff.length → (∀ c g, leastPending q (childrenOf eff) = some c → q.run.getLast? = some g → c.before g.ev = false) →
        s.applyEvent k store p e = (y.1.logEvent store (e.ev.record false false), q, true)) := by
  intro eff n
  obtain ⟨m, hm, he, hw⟩ := applyInOrder_front Prod.fst k (s.commitOf k store e) (eff.drop n) n (s, p)
  have hlen : (eff.drop n).length = eff.length - n := List.length_drop
  have htake : (eff.drop n).take m = (eff.take (n + m)).drop n := by rw [List.drop_take, Nat.add_sub_cancel_left]
  rw [htake] at he hw
  have hend : n + m ≤ eff.length := by
    have : n ≤ eff.length := hn
    omega
  refine ⟨n + m, Nat.le_add_right n m, hend, fun hlt => ⟨?_, State.applyEvent_waits he hlt⟩, fun hall hlast => State.applyEvent_done he hall hlast⟩
  obtain ⟨x, hx, hwait⟩ := hw (by omega)
  exact ⟨x, by rwa [List.getElem?_drop] at hx, hwait⟩

/- The end of a span (R383) -/

theorem State.foldl_settle_crews (s : State) (l : List Nat) : (l.foldl State.settle s).crews = s.crews ∧ (l.foldl State.settle s).launches = s.launches := by
  induction l generalizing s with
  | nil => exact ⟨rfl, rfl⟩
  | cons c l ih =>
    have hc : (s.settle c).crews = s.crews ∧ (s.settle c).launches = s.launches := by
      unfold State.settle
      split <;> exact ⟨rfl, rfl⟩
    exact ⟨(ih _).1.trans hc.1, (ih _).2.trans hc.2⟩

theorem State.setDesc_crews (s : State) (store ofs n x : Nat) : (s.setDesc store ofs n x).crews = s.crews := State.physWrite_crews ..
theorem State.setDesc_launches (s : State) (store ofs n x : Nat) : (s.setDesc store ofs n x).launches = s.launches := State.physWrite_launches ..

theorem State.endSpan_crews (s : State) (k : Nat) (l : Launch) (p : Span) : (s.endSpan k l p).crews = s.crews.filter (fun x => x.2.launch != k) := by
  unfold State.endSpan
  dsimp only
  rw [State.modLaunch_crews, State.setDesc_crews, State.setDesc_crews, (State.foldl_settle_crews _ _).1]

theorem State.endSpan_launch {s : State} {k : Nat} {l : Launch} (hk : s.launch? k = some l) (m : Launch) (p : Span) :
    (s.endSpan k m p).launch? k = some { l with span := some { p with run := [], running := false } } := by
  unfold State.endSpan
  dsimp only
  rw [State.launch_modLaunch, State.launch_of_launches (State.setDesc_launches ..), State.launch_of_launches (State.setDesc_launches ..),
    State.launch_of_launches (State.foldl_settle_crews _ _).2]
  exact congrArg (Option.map _) hk

/-- Settles O49, a clause for the gather, the commit, its events, their effects and the end of a span. -/
theorem spanRows : Obligations.SpanRows := by
  intro s k l p hs hk hp hd ho hm ordered
  refine ⟨?gather, fun hr hret => exec_spanCommit hs hk hp hd ho hm hr hret, ?turn, fun e ha hf => State.commitEvent_revoked ha hf,
    fun e ha hf horph => State.commitEvent_orphan ha hf horph, fun e ha hf horph hb => State.commitEvent_bad ha hf horph hb,
    fun e ha => State.commitEvent_applied ha, fun e => State.applyEvent_front s k l.pkt.store p e, ?versions, ?effect, ?ends⟩
  case gather =>
    intro hr hl hg y q
    have hexec := exec_spanGather hs hk hp hd ho hm hr hl hg
    refine ⟨(canonical_emptyInbox (canonical_sortEvs p.pend)).events, fun h => if_pos h, fun h => hexec.trans (congrArg Host.Outcome.next (State.gather_empty h)),
      fun a r hq hno => ?_⟩
    obtain ⟨n, evs, solo, cut, served, c, hevs, ⟨hpos, hlen, hfront⟩, hgather⟩ := State.gather_span (l := l) (k := k) (Prod.mk.eta (p := y)).symm hq hno
    have hn : evs.length = n := by rw [hevs, List.length_take, min_eq_left hlen]
    rw [hn] at hgather
    let formed := (y.1.countGather solo cut n).formCrews k (y.1.storeDesc l.pkt.store) l.pkt.htab c (spanEvents served evs)
    have hfates := State.formCrews_map k (y.1.storeDesc l.pkt.store) l.pkt.htab c RunEv.fate (fun _ _ _ => rfl) (y.1.countGather solo cut n)
      (spanEvents served evs)
    refine ⟨_, n, formed.2, hexec.trans (congrArg Host.Outcome.next hgather), hpos, hlen, ?events, fun f hf => ?fates, hfront, ?launch, ?count⟩
    case events => exact (State.formCrews_map _ _ _ _ _ (fun _ _ _ => rfl) _ _).trans ((spanEvents_ev served evs).trans (congrArg _ hevs))
    case fates => exact spanEvents_fate served evs _ (hfates ▸ List.mem_map_of_mem hf)
    case launch =>
      exact (State.launch_modLaunch ..).trans
        (congrArg (Option.map _) (State.launch_of_launches ((State.formCrews_launches ..).trans (State.countGather_launches ..)) k))
    case count =>
      rw [State.modLaunch_ctr, State.formCrews_ctr]
      exact State.countGather_gathered ..
  case turn =>
    intro n e he
    exact ⟨fun hord => find?_waits_first he hord, fun u q hc => State.commitEvents_succ he hc, fun u q hc => State.commitEvents_succ he hc⟩
  case versions =>
    intro e ha hf horph hb eff u hask
    refine ⟨fun hv => ?_, fun hv => ?_⟩
    · have hgood := State.commitEvent_good (p := p) (l := l) (k := k) ha hf horph hb hask hv
      exact ⟨fun hroom => hgood.trans (if_neg hroom.not_gt), fun hroom => hgood.trans (if_pos hroom)⟩
    · refine ⟨_, _, State.commitEvent_mismatch ha hf horph hb hask hv, s.endChecks_mem k, ?_, fun f hfm hfo hne hbef => ?_⟩
      · exact ⟨_, deferAbove_pend (mem_insertEv.mpr (.inl rfl)), rfl, rfl⟩
      · exact deferAbove_run (Span.mem_setFate_of_ne .left hfm hne) hfo hbef
  case effect =>
    intro x e ix entry rerun
    refine ⟨fun c hc => by rw [commitEffect, hc], fun hs hc => ?_⟩
    unfold commitEffect
    split
    · next c h => exact absurd h (hs c)
    · next a b h => exact absurd h (hc a b)
    · rfl
  case ends =>
    intro q
    refine ⟨fun x hx => ?_, State.endSpan_launch hk l q⟩
    rw [State.endSpan_crews] at hx
    exact bne_iff_ne.mp (List.mem_filter.mp hx).2

end Sys2Proof.Machine
end
